-- ==== Sys2Proof/Word.lean ====
section
/-! DEFINITION. The words the device computes with (spec/00 R3): bytes, 32-bit and 64-bit words, register
groups, and the 72-bit virtual address of a data access (spec/01 R17). -/

namespace Sys2Proof

/-- One byte of memory. -/
abbrev Byte := BitVec 8

/-- An instruction word (spec/02 R31). -/
abbrev InstrWord := BitVec 32

/-- A 64-bit register value (spec/01 R13). -/
abbrev Word := BitVec 64

/-- A register group of sixteen registers (spec/01 R14). -/
abbrev Group := BitVec 1024

/-- A virtual address: space and 64-bit offset (spec/01 R17). -/
structure VAddr where
  space : BitVec 8
  off : Word
  deriving DecidableEq, Repr

/-- An exact value of a number format (spec/03 R57): a NaN, an infinity with its sign, or the finite value
(-1)^neg * mag * 2^exp. A zero keeps its sign. -/
inductive Val where
  | nan
  | inf (neg : Bool)
  | fin (neg : Bool) (mag : Nat) (exp : Int)
  deriving DecidableEq, Repr

/-- An exact dyadic number num * 2^exp (spec/00 R6: exact sums and products). -/
structure Dyadic where
  num : Int
  exp : Int
  deriving DecidableEq, Repr

/-- The floating-point formats (spec/03 R57). -/
inductive Fmt where
  | fp64 | fp32 | bf16 | f19 | e4m3 | e5m2 | e2m3 | e3m2 | e2m1
  deriving DecidableEq, Repr

/-- Rounding modes (spec/03 R64, R66); a stochastic rounding carries its draw u. -/
inductive Rm where
  | rne | rtz | rdn | rup
  | sr (u : Nat)
  deriving DecidableEq, Repr

/-- The element types of spec/02 R36 that hold numbers; D8 codes are read through a decode table. -/
inductive Elem where
  /-- i and n types: width and signedness (spec/03 R53). -/
  | int (w : Nat) (sgn : Bool)
  /-- m8: sign and magnitude. -/
  | m8
  | flt (f : Fmt)
  deriving DecidableEq, Repr

/-- What a rounding reports (spec/03 R65), and whether an integer narrowing clamped (spec/05 R112). -/
structure Flags where
  nv : Bool := false
  dz : Bool := false
  ovf : Bool := false
  udf : Bool := false
  nx : Bool := false
  sat : Bool := false
  deriving DecidableEq, Repr

/-- A register operand: its value, and whether it is fresh (spec/11 R250). -/
structure Opnd where
  val : Word
  fresh : Bool
  deriving DecidableEq, Repr

end Sys2Proof
end

