-- ==== Sys2Proof/Syntax.lean ====
section
/-! DEFINITION. The steps of the device: one constructor per row of spec/opcode_table.json. The first 88 are the steps
without a word: what the device's own agents, the kernel, the host and the links do. The other 266 are the
instructions with words; each takes the fields that its row gives it, under the row's own letters (spec/02 R32):
a is rs1, b rs2, d rd, i and j an immediate, s a scope, p q r predicates, k the vd group, t the vd nibble,
h the vs1 group, m its nibble, g the vs2 group, n its nibble (or x M, y S, r RM of it), c a number, e a selector. -/

namespace Sys2Proof

/-- The four mesh-neighbour ports (spec/08 R177). -/
inductive Port where
  | mn | me | ms | mw
  deriving DecidableEq, Repr

/-- The hub registers and tables that the control cluster writes and that have no row of their own
(spec/19 R390, spec/13 R294, spec/22 R405 R407, spec/18 R367 R381, spec/25 R452). -/
inductive HubReg where
  | sptbr
  | devid
  | rtthr
  | pwrcap
  | castiv (die : Nat)
  | tvecd (core : Nat)
  | route (cluster entry : Nat)
  | group (entry : Nat)
  deriving DecidableEq, Repr

/-- A boot image as the verifying stage meets it (spec/25 R441). -/
structure BootImage where
  bytes : List Byte
  headerDigest : BitVec 256
  signature : BitVec 512
  version : Nat
  /-- HBM4E training succeeded (the loader's own work). -/
  trained : Bool
  deriving DecidableEq, Repr

/-- A combine packet (spec/22 R411 to R413, spec/23 R432): elements of one step from one device. In pass 1 of a
fixed-point step the elements are exponents, in pass 2 exact sums (R412). -/
structure CombinePacket where
  group : Nat
  stepNo : BitVec 32
  source : Nat
  pass : Nat
  offset : Nat
  chunk : Nat
  elems : List (BitVec 64)
  nonfinite : BitVec 32
  topo : BitVec 8
  status : BitVec 4
  /-- KIND of R416, and whether it is a scalar step (spec/23 R426). -/
  kind : Nat
  scalar : Bool
  /-- Elements of the step, and whether this is the packet with which the step is complete. -/
  count : Nat
  last : Bool
  deriving DecidableEq, Repr

/-- A slot-free notice (spec/22 R414); the root also learns a member's APPLIED from it (R408). -/
structure SlotNotice where
  group : Nat
  device : Nat
  applied : BitVec 32
  deriving DecidableEq, Repr

/-- What fails in LINK_FAILURE (spec/22 R418, R419). -/
inductive LinkFailure where
  | link (first second : Nat)
  /-- A device, and whether it contributes to no step and is a relay of trees only. -/
  | device (id : Nat) (relay : Bool)
  deriving DecidableEq, Repr

/-- One step of the device: an instruction of a thread, or a step without a word. -/
inductive Instr where
  /-- WHEEL_BOUNDARY (R141), a step without a word. At each wheel boundary, unseats due threads and seats ready threads. -/
  | wheelBoundary (core : Nat)
  /-- ACCESS_REPLY (R97), a step without a word. A home's reply completes a parked access, records LATC and readies the thread. -/
  | accessReply (core slot : Nat)
  /-- PAGE_TABLE_WALK (R231), a step without a word. A walk's completion serves a TLB miss, or raises a page fault. -/
  | pageTableWalk (core slot : Nat)
  /-- FAULT_RETRY (R230), a step without a word. The kernel retries a faulted access from translation. -/
  | faultRetry (record : Nat)
  /-- FAULT_DELIVER (R230), a step without a word. The kernel delivers a fault as a precise trap, or ends the engine command. -/
  | faultDeliver (record : Nat)
  /-- REFRESH_DUE (R238), a step without a word. A bank's per-bank refresh falls due and is issued or postponed. -/
  | refreshDue (bank : Nat)
  /-- POSTPONED_REFRESH (R238), a step without a word. An idle bank issues a postponed refresh and lowers its debt. -/
  | postponedRefresh (bank : Nat)
  /-- SWEEP (R251), a step without a word. The hub begins a signature sweep, moving current halves into previous halves. -/
  | sweep
  /-- SWEEP_CORE_STEP (R251), a step without a word. A core writes back dirty sectors, invalidates clean ones and reports to the hub. -/
  | sweepCoreStep (core : Nat)
  /-- SWEEP_CLEAR (R251), a step without a word. Once every core has reported, every previous half is cleared. -/
  | sweepClear
  /-- MIGRATION_PACKET_ARRIVAL (R154), a step without a word. A migration packet is accepted into a core's migration-in queue, or refused when the queue is full. -/
  | migrationPacketArrival (core : Nat)
  /-- MIGRATION_RETRY (R154), a step without a word. An origin retries a refused migration packet when the queue has room. -/
  | migrationRetry (core slot : Nat)
  /-- PROXY (R254), a step without a word. An AMO proxy is performed indivisibly at the home slice and a reply is sent. -/
  | proxy (core : Nat)
  /-- PROXY_REPLY (R254), a step without a word. The origin writes the old value into rd, applies S and readies the thread. -/
  | proxyReply (core slot : Nat)
  /-- REMOTE_UPDATE (R256), a step without a word. The home combines a RED into the line. -/
  | remoteUpdate (core : Nat)
  /-- CLUSTER_SCHEDULER_PASS (R159), a step without a word. Once per wheel, the cluster scheduler dispatches the first placeable head packet. -/
  | clusterSchedulerPass (cluster : Nat)
  /-- PACKET_PROMOTION (R158), a step without a word. After 4,096 wheels of waiting, a packet moves to the next higher priority level. -/
  | packetPromotion (cluster level : Nat)
  /-- STEAL_REQUEST (R160), a step without a word. A victim scheduler receives a steal request and may yield its head packet. -/
  | stealRequest (thief victim : Nat)
  /-- STEAL_ROUND_WAIT (R160), a step without a word. A thief starts a new round after 64 wheels, or when a packet arrives. -/
  | stealRoundWait (cluster : Nat)
  /-- PENDING_LAUNCH_MOVE (R155), a step without a word. An entry whose counter is 0 moves its packet to the task queue once the queue has room. -/
  | pendingLaunchMove (cluster entry : Nat)
  /-- DEPENDENCY_DECREMENT (R156), a step without a word. A decrement arrives at a pending-launch entry and is applied atomically. -/
  | dependencyDecrement (handle : BitVec 32)
  /-- TASK_RETIREMENT (R157), a step without a word. A task retires once its threads and jobs are done, decrements its successors and frees its resources. -/
  | taskRetirement (inst : Nat)
  /-- MAILBOX_DELIVERY (R279), a step without a word. A message is delivered into the mailbox of the core that holds its instance, or discarded. -/
  | mailboxDelivery (inst : Nat)
  /-- PORT_ELEMENT_ARRIVAL (R177), a step without a word. A mesh-neighbour port element arrives at the neighbour's receive side. -/
  | portElementArrival (core : Nat) (dir : Port)
  /-- MONITOR_NOTICE (R210), a step without a word. A gathered notice of a write from outside the scope triggers a monitor. -/
  | monitorNotice (core slot : Nat)
  /-- MON_WAIT_TIMEOUT (R210), a step without a word. A MON.WAIT's cycle count expires and it completes with cause 2. -/
  | monWaitTimeout (core slot : Nat)
  /-- COPY_BEAT (R284), a step without a word. A copy channel performs one destination write beat in address order. -/
  | copyBeat (cluster chan : Nat)
  /-- COPY_COMPLETION (R286), a step without a word. After its last beat, a copy command sends its KIND 0 completion message. -/
  | copyCompletion (cluster chan : Nat)
  /-- INDEX_STEP (R292), a step without a word. The index engine gathers, scatters or adds for one index. -/
  | indexStep (cluster job : Nat)
  /-- MATRIX_JOB_START (R298), a step without a word. A free engine starts the oldest accepted job whose gate is open, reading and checking the card. -/
  | matrixJobStart (cluster : Nat)
  /-- TILE_FETCH (R304), a step without a word. Reads and pins a line of A, B or the metadata at its home slice, waiting for a free way. -/
  | tileFetch (cluster : Nat) (line : Nat)
  /-- K_GROUP (R306), a step without a word. Adds one exact 32-k group sum to every accumulator. -/
  | kGroup (cluster : Nat)
  /-- TILE_WRITE_BACK (R310), a step without a word. Checks the tile's checksums, writes C and writes the tile status record. -/
  | tileWriteBack (cluster : Nat)
  /-- JOB_END (R314), a step without a word. A job ends: it writes its job status record, sends its KIND 3 message and frees its entry. -/
  | jobEnd (cluster : Nat)
  /-- ENGINE_CLOCK_GATE (R319), a step without a word. An engine idle for 65,536 cycles enters the clock-gated state. -/
  | engineClockGate (cluster : Nat)
  /-- ENGINE_WAKE_GRANT (R319), a step without a word. A die grants one engine per 64 cycles the right to leave the clock-gated state. -/
  | engineWakeGrant (die : Nat)
  /-- ENGINE_WAKE_READY (R319), a step without a word. An engine becomes ready 128 cycles after its grant. -/
  | engineWakeReady (cluster : Nat)
  /-- ENGINE_YIELD (R320), a step without a word. At a k-group boundary after pre-emption, writes the save area, drops pins and holds the job as yielded. -/
  | engineYield (cluster : Nat)
  /-- RIND_NORM_JOB (R350), a step without a word. The engine runs an MX.NORM job: checks, installs and recomputes a rind directory entry. -/
  | rindNormJob (cluster : Nat)
  /-- PRESS_FORMATION (R317), a step without a word. Eight MX.XCHG with one KEY form a press. -/
  | pressFormation (cluster key : Nat)
  /-- PRESS_ROUND (R317), a step without a word. A hardware-timed press round moves one fragment between each pair. -/
  | pressRound (cluster key : Nat)
  /-- PREEMPTION_REQUEST (R373), a step without a word. Halts every party of an instance. -/
  | preemptionRequest (inst : Nat)
  /-- HALT_COMPLETE (R375), a step without a word. Sends halt-complete to the kernel once every party of the instance has halted. -/
  | haltComplete (inst : Nat)
  /-- RESUME (R376), a step without a word. Resumes a halted instance in place. -/
  | resume (inst : Nat)
  /-- EVICTION (R377), a step without a word. Writes a halted instance to an image and frees its core resources. -/
  | eviction (inst : Nat) (image : Nat)
  /-- RESTORE (R378), a step without a word. Places an evicted instance on a named core from its image. -/
  | restore (image core : Nat)
  /-- KERNEL_KILL_REQUEST (R379), a step without a word. Ends an instance and everything it owns. -/
  | kernelKillRequest (inst : Nat)
  /-- KILL_COMPLETE (R380), a step without a word. Sends kill-complete to the kernel once every piece of owned work has been met. -/
  | killComplete (inst : Nat)
  /-- FROZEN_THREAD_RESTART (R369), a step without a word. The kernel restarts a frozen thread in supervisor mode at a chosen PC. -/
  | frozenThreadRestart (core slot : Nat) (pc : BitVec 64)
  /-- CORE_DRAIN (R372), a step without a word. The kernel drains a failing core and moves its residents. -/
  | coreDrain (core : Nat)
  /-- CLUSTER_RESTORE (R312), a step without a word. The kernel restores a withdrawn cluster to scheduling. -/
  | clusterRestore (cluster : Nat)
  /-- SWAP_DUE (R382), a step without a word. A pair's castling timer expires; the swap is skipped or waits. -/
  | swapDue (pair : Nat)
  /-- SWAP_PREPARE (R382), a step without a word. Once no wait condition holds, the caches turn write-through and leaving banks stop taking fills. -/
  | swapPrepare (pair : Nat)
  /-- SWAP_EXCHANGE (R383), a step without a word. After the prepare phase, both cores stop issuing, resident state moves and the window table is rewritten. -/
  | swapExchange (pair : Nat)
  /-- SWAP_RESUME (R382), a step without a word. Both cores resume issuing at the next boundary, and the caches return to write-back. -/
  | swapResume (pair : Nat)
  /-- HOLD_EXPIRY (R385), a step without a word. A castling hold ends 60,000 cycles after it was made. -/
  | holdExpiry (core slot : Nat)
  /-- SWAP_DEFERRAL_LIMIT (R385), a step without a word. A swap deferred for 60,000 cycles begins ignoring holds. -/
  | swapDeferralLimit (pair : Nat)
  /-- SECURITY_ALARM (R388), a step without a word. A hub sensor alarm takes the log, reset or erase action that ALARMPOL chooses. -/
  | securityAlarm (sources : BitVec 4)
  /-- ALARMPOL_WRITE (R387), a step without a word. Writes the alarm policy, allowing only raised fields while LOCK is set. -/
  | alarmpolWrite (value : BitVec 64)
  /-- POWER_GOOD (R444), a step without a word. Power-good starts the power sequencer's unit start order. -/
  | powerGood
  /-- CLUSTER_RESET_RELEASE (R444), a step without a word. A cluster leaves reset at its timed offset and its cores start. -/
  | clusterResetRelease (cluster : Nat)
  /-- BOOT_STAGE (R441), a step without a word. A boot stage verifies the next image and hands over control, or halts on error. -/
  | bootStage (image : BootImage)
  /-- MEASUREMENT_EXTEND (R442), a step without a word. Extends a measurement register with an image digest. -/
  | measurementExtend (index : Nat) (digest : BitVec 256)
  /-- SQTAIL_WRITE (R440), a step without a word. The host's doorbell write lets the kernel read and place submitted packets. -/
  | sqtailWrite (tail : BitVec 64) (cluster : Nat)
  /-- FACCEPT0_WRITE (R445), a step without a word. Commits the driver's accepted feature set, or refuses it. -/
  | faccept0Write (value : BitVec 64)
  /-- BAR2_READ (R439), a step without a word. A host read through BAR2 is performed never-cached at the home slice. -/
  | bar2Read (addr : Nat) (size : Nat)
  /-- BAR2_WRITE (R439), a step without a word. A host write through BAR2 is performed at the home, sets the line's signature to all ones and marks rind blocks. -/
  | bar2Write (addr : Nat) (bytes : List (BitVec 8))
  /-- ATTESTATION_REQUEST (R451), a step without a word. Returns a signed attestation report for a host nonce. -/
  | attestationRequest (nonce : BitVec 256)
  /-- HUB_REGISTER_WRITE (R390), a step without a word. The control cluster writes a hub register or table that has no row of its own. -/
  | hubRegisterWrite (reg : HubReg) (value : BitVec 128)
  /-- THERMAL_THROTTLE (R453), a step without a word. Over-temperature or over-power halves a die's k-group issue rate. -/
  | thermalThrottle (die : Nat)
  /-- THROTTLE_RELEASE (R453), a step without a word. The throttle lifts after its cause has been clear for 1 ms. -/
  | throttleRelease (die : Nat)
  /-- FLIT_ERROR (R371), a step without a word. A flit error is retransmitted, or a failed path is routed around. -/
  | flitError (path : Nat) (failed : Bool)
  /-- MCST_STAMPING (R408), a step without a word. The root assigns a multicast store its stamp and sends it down to the members. -/
  | mcstStamping (group : Nat) (other : Option (BitVec 64 × BitVec 64))
  /-- MCST_APPLICATION (R409), a step without a word. A member applies stamp n after n − 1 and advances APPLIED. -/
  | mcstApplication (group : Nat)
  /-- MULTICAST_SKIP (R409), a step without a word. The kernel skips a faulted stamped store: APPLIED advances and SKIP is set. -/
  | multicastSkip (group : Nat)
  /-- COMBINE_PACKET_ARRIVAL (R411), a step without a word. A combine packet reaches a node and, once a chunk is complete, the node combines it in fixed order. -/
  | combinePacketArrival (packet : CombinePacket)
  /-- SLOT_FREE_NOTICE (R414), a step without a word. A freed combine buffer returns one credit to its sender. -/
  | slotFreeNotice (notice : SlotNotice)
  /-- RESULT_PACKET_ARRIVAL (R432), a step without a word. A result packet reaches a node and is announced to the link thread. -/
  | resultPacketArrival (packet : CombinePacket)
  /-- SCALAR_STEP_COMPLETION (R427), a step without a word. A scalar step's result returns, and its KIND 4 message is sent when requested. -/
  | scalarStepCompletion (group : Nat) (stepNo : BitVec 32)
  /-- HOLD_NOTICE (R420), a step without a word. A halted contributor's hold notice makes every node keep the step's partials. -/
  | holdNotice (group : Nat) (stepNo : BitVec 32)
  /-- RESUME_NOTICE (R420), a step without a word. A resume notice lets a held step continue. -/
  | resumeNotice (group : Nat) (stepNo : BitVec 32)
  /-- LINK_FAILURE (R418), a step without a word. A failed link is routed around; a lost device loses its steps. -/
  | linkFailure (failure : LinkFailure)
  /-- TREE_REFORM (R418), a step without a word. The kernel reforms a tree without a lost relay, and incomplete steps are replayed. -/
  | treeReform (group : Nat) (entry : BitVec 128)
  /-- ILLEGAL_INSTRUCTION (R39), a step without a word. Issue of a word that encodes no instruction (unassigned major, bits 1:0 not 0b11, or an unlisted sub-op) raises illegal instruction. -/
  | illegalInstruction (word : BitVec 32)
  /-- INSTRUCTION_FETCH_FAULT (R229), a step without a word. An instruction fetch at PC faults (page, access, uncorrectable memory, or a misaligned TVEC at handler entry) before any word is decoded. -/
  | instructionFetchFault (cause : BitVec 5)
  /-- HALTED_THREAD_RESUME (R394), a step without a word. On a halt record, the kernel resumes a thread that HALT stopped at the instruction after the HALT. -/
  | haltedThreadResume (core slot : Nat)
  /-- FACCEPT1_WRITE (R445), a step without a word. The driver writes the upper half of the accepted feature set, which is ignored once acceptance has been committed. -/
  | faccept1Write (value : BitVec 64)
  /-- PROVISIONING (R450), a step without a word. Provisioning generates the SM2 identity key inside the key store, so attestation no longer fails after an erase. -/
  | provisioning
  /-- LB (R96). Loads a byte, sign-extends it and writes it to rd. -/
  | lb (i : BitVec 8) (a : BitVec 7) (d : BitVec 7)
  /-- LH (R96). Loads a halfword, sign-extends it and writes it to rd. -/
  | lh (i : BitVec 8) (a : BitVec 7) (d : BitVec 7)
  /-- LW (R96). Loads a word, sign-extends it and writes it to rd. -/
  | lw (i : BitVec 8) (a : BitVec 7) (d : BitVec 7)
  /-- LD (R96). Loads a doubleword into rd. -/
  | ld (i : BitVec 8) (a : BitVec 7) (d : BitVec 7)
  /-- LBU (R96). Loads a byte, zero-extends it and writes it to rd. -/
  | lbu (i : BitVec 8) (a : BitVec 7) (d : BitVec 7)
  /-- LHU (R96). Loads a halfword, zero-extends it and writes it to rd. -/
  | lhu (i : BitVec 8) (a : BitVec 7) (d : BitVec 7)
  /-- LWU (R96). Loads a word, zero-extends it and writes it to rd. -/
  | lwu (i : BitVec 8) (a : BitVec 7) (d : BitVec 7)
  /-- SB (R96). Stores the low byte of rs2. -/
  | sb (i : BitVec 4) (b : BitVec 7) (a : BitVec 7) (j : BitVec 4)
  /-- SH (R96). Stores the low halfword of rs2. -/
  | sh (i : BitVec 4) (b : BitVec 7) (a : BitVec 7) (j : BitVec 4)
  /-- SW (R96). Stores the low word of rs2. -/
  | sw (i : BitVec 4) (b : BitVec 7) (a : BitVec 7) (j : BitVec 4)
  /-- SD (R96). Stores the doubleword in rs2. -/
  | sd (i : BitVec 4) (b : BitVec 7) (a : BitVec 7) (j : BitVec 4)
  /-- VLD (R116). Loads 128 contiguous bytes into a register group. -/
  | vld (a : BitVec 7) (k : BitVec 3) (t : BitVec 4)
  /-- VST (R116). Stores a register group to 128 contiguous bytes. -/
  | vst (a : BitVec 7) (k : BitVec 3) (t : BitVec 4)
  /-- VLDS (R116). Loads the lanes of a group from strided addresses. -/
  | vlds (b : BitVec 7) (a : BitVec 7) (k : BitVec 3) (t : BitVec 4)
  /-- VSTS (R116). Stores the lanes of a group to strided addresses. -/
  | vsts (b : BitVec 7) (a : BitVec 7) (k : BitVec 3) (t : BitVec 4)
  /-- VLDB (R116). Loads one element and broadcasts it to every lane. -/
  | vldb (a : BitVec 7) (k : BitVec 3) (t : BitVec 4)
  /-- MX.SUBMIT (R344). Pushes a job card to the cluster job queue and returns the job id. -/
  | mxSubmit (a : BitVec 7) (d : BitVec 7)
  /-- MX.RUN (R345). Submits a job card and parks until the job ends, then writes the job word and traps according to the job's CODE. -/
  | mxRun (a : BitVec 7) (d : BitVec 7)
  /-- JOB.POLL (R348). Writes the current job word for a job id without waiting. -/
  | jobPoll (a : BitVec 7) (d : BitVec 7)
  /-- JOB.WAIT (R348). Parks until the job has ended or is gone, then writes the job word. -/
  | jobWait (a : BitVec 7) (d : BitVec 7)
  /-- JOB.CANCEL (R349). Cancels a job of the issuer's own instance and returns the job word as it stood before the cancel. -/
  | jobCancel (a : BitVec 7) (d : BitVec 7)
  /-- MX.NORM (R350). Queues a job that fills or empties a rind directory entry. -/
  | mxNorm (a : BitVec 7) (d : BitVec 7)
  /-- MX.XCHG (R351). Joins a press, parks until the press has run, and writes a status. -/
  | mxXchg (a : BitVec 7) (d : BitVec 7)
  /-- CP.GO (R352). Pushes a 32-byte copy request into the copy command queue; only slot 62 may issue it. -/
  | cpGo (a : BitVec 7)
  /-- CP.WP (R353). Reads a copy channel's write pointer as an acquire of the destination bytes already performed. -/
  | cpWp (a : BitVec 7) (d : BitVec 7)
  /-- VAT.INIT (R355). Clears a run of vat elements. -/
  | vatInit (b : BitVec 7) (a : BitVec 7) (d : BitVec 7)
  /-- VAT.CVT (R356). Reads a vat element at its home and converts it under a control word. -/
  | vatCvt (b : BitVec 7) (a : BitVec 7) (d : BitVec 7)
  /-- SEED.SET (R357). Writes a seed slot and advances the slot's generation. -/
  | seedSet (n : BitVec 4) (a : BitVec 7)
  /-- SEED.GET (R357). Reads a seed slot's value. -/
  | seedGet (n : BitVec 4) (d : BitVec 7)
  /-- SEED.GET.G (R357). Reads a seed slot's generation. -/
  | seedGetG (n : BitVec 4) (d : BitVec 7)
  /-- FMT.LD (R359). Loads and checks the core's decode table. -/
  | fmtLd (a : BitVec 7) (d : BitVec 7)
  /-- IX.GO (R354). Pushes an index descriptor, starting the job at index 0. -/
  | ixGo (a : BitVec 7)
  /-- IX.RESUME (R354). Pushes an index descriptor, resuming the job from its progress record. -/
  | ixResume (a : BitVec 7)
  /-- LDA.D (R261). Performs a doubleword acquire load of the given scope. -/
  | ldaD (s : BitVec 3) (a : BitVec 7) (d : BitVec 7)
  /-- LDA.W (R261). Performs a word acquire load of the given scope. -/
  | ldaW (s : BitVec 3) (a : BitVec 7) (d : BitVec 7)
  /-- STL.D (R262). Performs a doubleword release store of the given scope. -/
  | stlD (b : BitVec 7) (a : BitVec 7) (s : BitVec 3)
  /-- STL.W (R262). Performs a word release store of the given scope. -/
  | stlW (b : BitVec 7) (a : BitVec 7) (s : BitVec 3)
  /-- FENCE (R263). Orders earlier operations of the kinds in the mask before later operations of the kinds in the mask, at the given scope. -/
  | fence (k : BitVec 5) (s : BitVec 3)
  /-- CFLUSH (R264). Writes back a cached line's dirty bytes and keeps the line valid. -/
  | cflush (a : BitVec 7)
  /-- CINV (R264). Writes back a cached line's dirty bytes, then invalidates the line. -/
  | cinv (a : BitVec 7)
  /-- PREF (R265). Asks the core to fill a line into its cache. -/
  | pref (a : BitVec 7)
  /-- SIGRD (R266). Copies 512 bits of the core's signature state into eight registers. -/
  | sigrd (e : BitVec 2) (d : BitVec 7)
  /-- ADDI (R88). Adds a sign-extended immediate to rs1. -/
  | addi (i : BitVec 8) (a : BitVec 7) (d : BitVec 7)
  /-- SLTI (R88). Sets rd to 1 when rs1 is below the immediate as signed, else 0. -/
  | slti (i : BitVec 8) (a : BitVec 7) (d : BitVec 7)
  /-- SLTIU (R88). Sets rd to 1 when rs1 is below the sign-extended immediate as unsigned, else 0. -/
  | sltiu (i : BitVec 8) (a : BitVec 7) (d : BitVec 7)
  /-- XORI (R88). XORs rs1 with the sign-extended immediate. -/
  | xori (i : BitVec 8) (a : BitVec 7) (d : BitVec 7)
  /-- ORI (R88). ORs rs1 with the sign-extended immediate. -/
  | ori (i : BitVec 8) (a : BitVec 7) (d : BitVec 7)
  /-- ANDI (R88). ANDs rs1 with the sign-extended immediate. -/
  | andi (i : BitVec 8) (a : BitVec 7) (d : BitVec 7)
  /-- SLLI (R44). Shifts rs1 left by a constant. -/
  | slli (h : BitVec 6) (a : BitVec 7) (d : BitVec 7)
  /-- SRLI (R44). Shifts rs1 right logically by a constant. -/
  | srli (h : BitVec 6) (a : BitVec 7) (d : BitVec 7)
  /-- SRAI (R44). Shifts rs1 right arithmetically by a constant. -/
  | srai (h : BitVec 6) (a : BitVec 7) (d : BitVec 7)
  /-- RORI (R44). Rotates rs1 right by a constant. -/
  | rori (h : BitVec 6) (a : BitVec 7) (d : BitVec 7)
  /-- ADDPC (R89). Adds a shifted immediate to the instruction's own address. -/
  | addpc (i : BitVec 18) (d : BitVec 7)
  /-- ADDL (R89). Adds a sign-extended 18-bit immediate to rd. -/
  | addl (i : BitVec 18) (d : BitVec 7)
  /-- LIU (R89). Loads an immediate shifted left by 14 into rd. -/
  | liu (i : BitVec 18) (d : BitVec 7)
  /-- PEQ (R90). Sets a predicate when two registers are equal. -/
  | peq (b : BitVec 7) (a : BitVec 7) (p : BitVec 5)
  /-- PNE (R90). Sets a predicate when two registers differ. -/
  | pne (b : BitVec 7) (a : BitVec 7) (p : BitVec 5)
  /-- PLT (R90). Sets a predicate when rs1 is below rs2 as signed. -/
  | plt (b : BitVec 7) (a : BitVec 7) (p : BitVec 5)
  /-- PGE (R90). Sets a predicate when rs1 is at least rs2 as signed. -/
  | pge (b : BitVec 7) (a : BitVec 7) (p : BitVec 5)
  /-- PLTU (R90). Sets a predicate when rs1 is below rs2 as unsigned. -/
  | pltu (b : BitVec 7) (a : BitVec 7) (p : BitVec 5)
  /-- PGEU (R90). Sets a predicate when rs1 is at least rs2 as unsigned. -/
  | pgeu (b : BitVec 7) (a : BitVec 7) (p : BitVec 5)
  /-- PAND (R90). ANDs two predicates. -/
  | pand (q : BitVec 5) (r : BitVec 5) (p : BitVec 5)
  /-- POR (R90). ORs two predicates. -/
  | por (q : BitVec 5) (r : BitVec 5) (p : BitVec 5)
  /-- PXOR (R90). XORs two predicates. -/
  | pxor (q : BitVec 5) (r : BitVec 5) (p : BitVec 5)
  /-- PNOT (R90). Negates a predicate. -/
  | pnot (r : BitVec 5) (p : BitVec 5)
  /-- MVP (R90). Writes a predicate to a register as 0 or 1. -/
  | mvp (r : BitVec 5) (d : BitVec 7)
  /-- MVNP (R90). Writes the negation of a predicate to a register. -/
  | mvnp (r : BitVec 5) (d : BitVec 7)
  /-- PRD (R90). Reads the whole predicate word into a register. -/
  | prd (d : BitVec 7)
  /-- PWR (R90). Writes SPACE and predicates p31 to p1 from a register. -/
  | pwr (a : BitVec 7)
  /-- EPUSH (R346). Pushes one element to the engine queue that a register selects. -/
  | epush (b : BitVec 7) (a : BitVec 7) (d : BitVec 7)
  /-- EPOP (R360). Pops the slot's oldest mailbox message whole as an acquire of the bytes it names. -/
  | epop (d : BitVec 7)
  /-- GRP.PUT (R426). Contributes a value to a scalar step of a group. -/
  | grpPut (b : BitVec 7) (a : BitVec 7) (d : BitVec 7)
  /-- GRP.GET (R427). Reads, or waits for, a scalar step's result and result word. -/
  | grpGet (a : BitVec 7) (d : BitVec 7)
  /-- MCST (R430). Sends a sequenced multicast store to a group and returns its stamp. -/
  | mcst (b : BitVec 7) (a : BitVec 7) (d : BitVec 7)
  /-- LNK.SEND (R433). Hands a local contribution packet to this device's node. -/
  | lnkSend (b : BitVec 7) (a : BitVec 7) (d : BitVec 7)
  /-- LNK.RECV (R432). Pops the oldest result packet that the node holds for this core. -/
  | lnkRecv (d : BitVec 7)
  /-- SEQ.RD (R431). Reads a group's APPLIED count as a device-scope acquire. -/
  | seqRd (a : BitVec 7) (d : BitVec 7)
  /-- MB.SEND (R362). Releases and sends a software message to a slot of an instance. -/
  | mbSend (b : BitVec 7) (a : BitVec 7)
  /-- MB.PEEK (R361). Copies the slot's oldest message without removing it. -/
  | mbPeek (d : BitVec 7)
  /-- MB.COUNT (R361). Writes the number of messages tagged for the slot. -/
  | mbCount (d : BitVec 7)
  /-- AMO.ADD (R269). Atomically adds at the home and returns the old value. -/
  | amoAdd (b : BitVec 7) (a : BitVec 7) (d : BitVec 7)
  /-- AMO.AND (R269). Atomically ANDs at the home and returns the old value. -/
  | amoAnd (b : BitVec 7) (a : BitVec 7) (d : BitVec 7)
  /-- AMO.OR (R269). Atomically ORs at the home and returns the old value. -/
  | amoOr (b : BitVec 7) (a : BitVec 7) (d : BitVec 7)
  /-- AMO.XOR (R269). Atomically XORs at the home and returns the old value. -/
  | amoXor (b : BitVec 7) (a : BitVec 7) (d : BitVec 7)
  /-- AMO.MIN (R269). Atomically takes the signed minimum at the home and returns the old value. -/
  | amoMin (b : BitVec 7) (a : BitVec 7) (d : BitVec 7)
  /-- AMO.MAX (R269). Atomically takes the signed maximum at the home and returns the old value. -/
  | amoMax (b : BitVec 7) (a : BitVec 7) (d : BitVec 7)
  /-- AMO.MINU (R269). Atomically takes the unsigned minimum at the home and returns the old value. -/
  | amoMinu (b : BitVec 7) (a : BitVec 7) (d : BitVec 7)
  /-- AMO.MAXU (R269). Atomically takes the unsigned maximum at the home and returns the old value. -/
  | amoMaxu (b : BitVec 7) (a : BitVec 7) (d : BitVec 7)
  /-- AMO.SWAP (R269). Atomically swaps at the home and returns the old value. -/
  | amoSwap (b : BitVec 7) (a : BitVec 7) (d : BitVec 7)
  /-- AMO.CAS (R269). Atomically compares with rd and swaps at the home, returning the old value. -/
  | amoCas (b : BitVec 7) (a : BitVec 7) (d : BitVec 7)
  /-- AMO.FADD (R269). Atomically adds FP32 at the home and returns the old value. -/
  | amoFadd (b : BitVec 7) (a : BitVec 7) (d : BitVec 7)
  /-- RED.ADD (R270). Sends an integer add to the home without waiting. -/
  | redAdd (b : BitVec 7) (a : BitVec 7)
  /-- RED.MIN (R270). Sends a signed minimum to the home without waiting. -/
  | redMin (b : BitVec 7) (a : BitVec 7)
  /-- RED.MAX (R270). Sends a signed maximum to the home without waiting. -/
  | redMax (b : BitVec 7) (a : BitVec 7)
  /-- RED.FADD (R270). Sends an FP32 add to the home without waiting. -/
  | redFadd (b : BitVec 7) (a : BitVec 7)
  /-- RED.VAT (R272). Sends an FP64 contribution to a vat element at its home. -/
  | redVat (b : BitVec 7) (a : BitVec 7) (d : BitVec 7)
  /-- ADD (R84). Adds two registers. -/
  | add (b : BitVec 7) (a : BitVec 7) (d : BitVec 7)
  /-- SUB (R84). Subtracts rs2 from rs1. -/
  | sub (b : BitVec 7) (a : BitVec 7) (d : BitVec 7)
  /-- AND (R84). ANDs two registers. -/
  | and (b : BitVec 7) (a : BitVec 7) (d : BitVec 7)
  /-- OR (R84). ORs two registers. -/
  | or (b : BitVec 7) (a : BitVec 7) (d : BitVec 7)
  /-- XOR (R84). XORs two registers. -/
  | xor (b : BitVec 7) (a : BitVec 7) (d : BitVec 7)
  /-- ANDN (R84). ANDs rs1 with the complement of rs2. -/
  | andn (b : BitVec 7) (a : BitVec 7) (d : BitVec 7)
  /-- SLL (R84). Shifts rs1 left by rs2[5:0]. -/
  | sll (b : BitVec 7) (a : BitVec 7) (d : BitVec 7)
  /-- SRL (R84). Shifts rs1 right logically by rs2[5:0]. -/
  | srl (b : BitVec 7) (a : BitVec 7) (d : BitVec 7)
  /-- SRA (R84). Shifts rs1 right arithmetically by rs2[5:0]. -/
  | sra (b : BitVec 7) (a : BitVec 7) (d : BitVec 7)
  /-- ROR (R84). Rotates rs1 right by rs2[5:0]. -/
  | ror (b : BitVec 7) (a : BitVec 7) (d : BitVec 7)
  /-- SLT (R84). Sets rd to 1 when rs1 is below rs2 as signed. -/
  | slt (b : BitVec 7) (a : BitVec 7) (d : BitVec 7)
  /-- SLTU (R84). Sets rd to 1 when rs1 is below rs2 as unsigned. -/
  | sltu (b : BitVec 7) (a : BitVec 7) (d : BitVec 7)
  /-- MIN (R84). Writes the signed minimum of two registers. -/
  | min (b : BitVec 7) (a : BitVec 7) (d : BitVec 7)
  /-- MAX (R84). Writes the signed maximum of two registers. -/
  | max (b : BitVec 7) (a : BitVec 7) (d : BitVec 7)
  /-- MINU (R84). Writes the unsigned minimum of two registers. -/
  | minu (b : BitVec 7) (a : BitVec 7) (d : BitVec 7)
  /-- MAXU (R84). Writes the unsigned maximum of two registers. -/
  | maxu (b : BitVec 7) (a : BitVec 7) (d : BitVec 7)
  /-- MUL (R85). Writes the low 64 bits of the product. -/
  | mul (b : BitVec 7) (a : BitVec 7) (d : BitVec 7)
  /-- MULH (R85). Writes the high 64 bits of the signed product. -/
  | mulh (b : BitVec 7) (a : BitVec 7) (d : BitVec 7)
  /-- MULHU (R85). Writes the high 64 bits of the unsigned product. -/
  | mulhu (b : BitVec 7) (a : BitVec 7) (d : BitVec 7)
  /-- MULHSU (R85). Writes the high 64 bits of the signed-by-unsigned product. -/
  | mulhsu (b : BitVec 7) (a : BitVec 7) (d : BitVec 7)
  /-- DIV (R85). Divides as signed, truncating toward zero. -/
  | div (b : BitVec 7) (a : BitVec 7) (d : BitVec 7)
  /-- DIVU (R85). Divides as unsigned. -/
  | divu (b : BitVec 7) (a : BitVec 7) (d : BitVec 7)
  /-- REM (R85). Writes the signed remainder. -/
  | rem (b : BitVec 7) (a : BitVec 7) (d : BitVec 7)
  /-- REMU (R85). Writes the unsigned remainder. -/
  | remu (b : BitVec 7) (a : BitVec 7) (d : BitVec 7)
  /-- CLZ (R86). Counts leading zero bits. -/
  | clz (a : BitVec 7) (d : BitVec 7)
  /-- CTZ (R86). Counts trailing zero bits. -/
  | ctz (a : BitVec 7) (d : BitVec 7)
  /-- CPOP (R86). Counts one bits. -/
  | cpop (a : BitVec 7) (d : BitVec 7)
  /-- SEXTB (R86). Sign-extends the low byte. -/
  | sextb (a : BitVec 7) (d : BitVec 7)
  /-- SEXTH (R86). Sign-extends the low halfword. -/
  | sexth (a : BitVec 7) (d : BitVec 7)
  /-- SEXTW (R86). Sign-extends the low word. -/
  | sextw (a : BitVec 7) (d : BitVec 7)
  /-- ZEXTW (R86). Zero-extends the low word. -/
  | zextw (a : BitVec 7) (d : BitVec 7)
  /-- BSWAP (R86). Reverses the order of the eight bytes. -/
  | bswap (a : BitVec 7) (d : BitVec 7)
  /-- BFX (R87). Extracts a bit field and sign-extends it. -/
  | bfx (b : BitVec 7) (a : BitVec 7) (d : BitVec 7)
  /-- BFXU (R87). Extracts a bit field and zero-extends it. -/
  | bfxu (b : BitVec 7) (a : BitVec 7) (d : BitVec 7)
  /-- BFI (R87). Inserts a bit field into rd. -/
  | bfi (b : BitVec 7) (a : BitVec 7) (d : BitVec 7)
  /-- FADD.S (R93). Adds two FP32 values. -/
  | faddS (b : BitVec 7) (a : BitVec 7) (d : BitVec 7)
  /-- FSUB.S (R93). Subtracts FP32 values. -/
  | fsubS (b : BitVec 7) (a : BitVec 7) (d : BitVec 7)
  /-- FMUL.S (R93). Multiplies FP32 values. -/
  | fmulS (b : BitVec 7) (a : BitVec 7) (d : BitVec 7)
  /-- FDIV.S (R93). Divides FP32 values. -/
  | fdivS (b : BitVec 7) (a : BitVec 7) (d : BitVec 7)
  /-- FMIN.S (R93). Writes the FP32 minimum. -/
  | fminS (b : BitVec 7) (a : BitVec 7) (d : BitVec 7)
  /-- FMAX.S (R93). Writes the FP32 maximum. -/
  | fmaxS (b : BitVec 7) (a : BitVec 7) (d : BitVec 7)
  /-- FSQRT.S (R93). Writes the FP32 square root. -/
  | fsqrtS (a : BitVec 7) (d : BitVec 7)
  /-- FCVT.S.I (R95). Converts an i64 to FP32. -/
  | fcvtSI (a : BitVec 7) (d : BitVec 7)
  /-- FCVT.S.N (R95). Converts an unsigned 64-bit value to FP32. -/
  | fcvtSN (a : BitVec 7) (d : BitVec 7)
  /-- FCVT.I.S (R95). Converts FP32 to i64. -/
  | fcvtIS (a : BitVec 7) (d : BitVec 7)
  /-- FCVT.N.S (R95). Converts FP32 to unsigned 64-bit. -/
  | fcvtNS (a : BitVec 7) (d : BitVec 7)
  /-- FCVT.W.S (R95). Converts FP32 to i32, sign-extended. -/
  | fcvtWS (a : BitVec 7) (d : BitVec 7)
  /-- FCVT.NW.S (R95). Converts FP32 to n32, zero-extended. -/
  | fcvtNwS (a : BitVec 7) (d : BitVec 7)
  /-- FCVT.S.D (R95). Converts FP64 to FP32. -/
  | fcvtSD (a : BitVec 7) (d : BitVec 7)
  /-- FCVT.S.B (R95). Converts BF16 to FP32. -/
  | fcvtSB (a : BitVec 7) (d : BitVec 7)
  /-- FCVT.B.S (R95). Converts FP32 to BF16. -/
  | fcvtBS (a : BitVec 7) (d : BitVec 7)
  /-- FCLASS.S (R94). Writes the class mask of an FP32 value. -/
  | fclassS (a : BitVec 7) (d : BitVec 7)
  /-- FEQ.S (R94). Compares FP32 values for equality. -/
  | feqS (b : BitVec 7) (a : BitVec 7) (d : BitVec 7)
  /-- FLT.S (R94). Compares FP32 values for less-than. -/
  | fltS (b : BitVec 7) (a : BitVec 7) (d : BitVec 7)
  /-- FLE.S (R94). Compares FP32 values for less-or-equal. -/
  | fleS (b : BitVec 7) (a : BitVec 7) (d : BitVec 7)
  /-- FFMA.S (R93). Computes the fused FP32 a×b+c into rd. -/
  | ffmaS (b : BitVec 7) (a : BitVec 7) (d : BitVec 7)
  /-- FFMS.S (R93). Computes the fused FP32 a×b−c into rd. -/
  | ffmsS (b : BitVec 7) (a : BitVec 7) (d : BitVec 7)
  /-- FSGNJ.S (R93). Writes |a| with the sign bit of b, as FP32. -/
  | fsgnjS (b : BitVec 7) (a : BitVec 7) (d : BitVec 7)
  /-- FADD.D (R93). Adds two FP64 values. -/
  | faddD (b : BitVec 7) (a : BitVec 7) (d : BitVec 7)
  /-- FSUB.D (R93). Subtracts FP64 values. -/
  | fsubD (b : BitVec 7) (a : BitVec 7) (d : BitVec 7)
  /-- FMUL.D (R93). Multiplies FP64 values. -/
  | fmulD (b : BitVec 7) (a : BitVec 7) (d : BitVec 7)
  /-- FDIV.D (R93). Divides FP64 values. -/
  | fdivD (b : BitVec 7) (a : BitVec 7) (d : BitVec 7)
  /-- FMIN.D (R93). Writes the FP64 minimum. -/
  | fminD (b : BitVec 7) (a : BitVec 7) (d : BitVec 7)
  /-- FMAX.D (R93). Writes the FP64 maximum. -/
  | fmaxD (b : BitVec 7) (a : BitVec 7) (d : BitVec 7)
  /-- FSQRT.D (R93). Writes the FP64 square root. -/
  | fsqrtD (a : BitVec 7) (d : BitVec 7)
  /-- FCVT.D.I (R95). Converts an i64 to FP64. -/
  | fcvtDI (a : BitVec 7) (d : BitVec 7)
  /-- FCVT.D.N (R95). Converts an unsigned 64-bit value to FP64. -/
  | fcvtDN (a : BitVec 7) (d : BitVec 7)
  /-- FCVT.I.D (R95). Converts FP64 to i64. -/
  | fcvtID (a : BitVec 7) (d : BitVec 7)
  /-- FCVT.N.D (R95). Converts FP64 to unsigned 64-bit. -/
  | fcvtND (a : BitVec 7) (d : BitVec 7)
  /-- FCVT.W.D (R95). Converts FP64 to i32, sign-extended. -/
  | fcvtWD (a : BitVec 7) (d : BitVec 7)
  /-- FCVT.NW.D (R95). Converts FP64 to n32, zero-extended. -/
  | fcvtNwD (a : BitVec 7) (d : BitVec 7)
  /-- FCVT.D.S (R95). Converts FP32 to FP64 exactly. -/
  | fcvtDS (a : BitVec 7) (d : BitVec 7)
  /-- FCVT.D.B (R95). Converts BF16 to FP64. -/
  | fcvtDB (a : BitVec 7) (d : BitVec 7)
  /-- FCVT.B.D (R95). Converts FP64 to BF16. -/
  | fcvtBD (a : BitVec 7) (d : BitVec 7)
  /-- FCLASS.D (R94). Writes the class mask of an FP64 value. -/
  | fclassD (a : BitVec 7) (d : BitVec 7)
  /-- FEQ.D (R94). Compares FP64 values for equality. -/
  | feqD (b : BitVec 7) (a : BitVec 7) (d : BitVec 7)
  /-- FLT.D (R94). Compares FP64 values for less-than. -/
  | fltD (b : BitVec 7) (a : BitVec 7) (d : BitVec 7)
  /-- FLE.D (R94). Compares FP64 values for less-or-equal. -/
  | fleD (b : BitVec 7) (a : BitVec 7) (d : BitVec 7)
  /-- FFMA.D (R93). Computes the fused FP64 a×b+c into rd. -/
  | ffmaD (b : BitVec 7) (a : BitVec 7) (d : BitVec 7)
  /-- FFMS.D (R93). Computes the fused FP64 a×b−c into rd. -/
  | ffmsD (b : BitVec 7) (a : BitVec 7) (d : BitVec 7)
  /-- FSGNJ.D (R93). Writes |a| with the sign bit of b, as FP64. -/
  | fsgnjD (b : BitVec 7) (a : BitVec 7) (d : BitVec 7)
  /-- VADD (R118). Adds the lanes of two groups. -/
  | vadd (g : BitVec 3) (n : BitVec 4) (h : BitVec 3) (m : BitVec 4) (k : BitVec 3) (t : BitVec 4)
  /-- VSUB (R118). Subtracts the lanes of two groups. -/
  | vsub (g : BitVec 3) (n : BitVec 4) (h : BitVec 3) (m : BitVec 4) (k : BitVec 3) (t : BitVec 4)
  /-- VMUL (R118). Multiplies the lanes of two groups. -/
  | vmul (g : BitVec 3) (n : BitVec 4) (h : BitVec 3) (m : BitVec 4) (k : BitVec 3) (t : BitVec 4)
  /-- VFMA (R118). Computes the fused a×b+c in each lane. -/
  | vfma (g : BitVec 3) (n : BitVec 4) (h : BitVec 3) (m : BitVec 4) (k : BitVec 3) (t : BitVec 4)
  /-- VFMS (R118). Computes the fused a×b−c in each lane. -/
  | vfms (g : BitVec 3) (n : BitVec 4) (h : BitVec 3) (m : BitVec 4) (k : BitVec 3) (t : BitVec 4)
  /-- VMIN (R118). Writes the minimum in each lane. -/
  | vmin (g : BitVec 3) (x : BitVec 1) (h : BitVec 3) (m : BitVec 4) (k : BitVec 3) (t : BitVec 4)
  /-- VMAX (R118). Writes the maximum in each lane. -/
  | vmax (g : BitVec 3) (x : BitVec 1) (h : BitVec 3) (m : BitVec 4) (k : BitVec 3) (t : BitVec 4)
  /-- VAND (R118). ANDs the lanes. -/
  | vand (g : BitVec 3) (x : BitVec 1) (h : BitVec 3) (m : BitVec 4) (k : BitVec 3) (t : BitVec 4)
  /-- VOR (R118). ORs the lanes. -/
  | vor (g : BitVec 3) (x : BitVec 1) (h : BitVec 3) (m : BitVec 4) (k : BitVec 3) (t : BitVec 4)
  /-- VXOR (R118). XORs the lanes. -/
  | vxor (g : BitVec 3) (x : BitVec 1) (h : BitVec 3) (m : BitVec 4) (k : BitVec 3) (t : BitVec 4)
  /-- VSHL (R119). Shifts each lane left. -/
  | vshl (g : BitVec 3) (x : BitVec 1) (y : BitVec 1) (h : BitVec 3) (m : BitVec 4) (k : BitVec 3) (t : BitVec 4)
  /-- VSHR (R119). Shifts each lane right, rounding by RM. -/
  | vshr (g : BitVec 3) (x : BitVec 1) (r : BitVec 2) (h : BitVec 3) (m : BitVec 4) (k : BitVec 3) (t : BitVec 4)
  /-- VCMP (R120). Compares lanes and writes the mask in g12 and g13. -/
  | vcmp (g : BitVec 3) (x : BitVec 1) (h : BitVec 3) (m : BitVec 4) (t : BitVec 4)
  /-- VSEL (R121). Selects each lane from vs1 or vs2 by the mask. -/
  | vsel (g : BitVec 3) (h : BitVec 3) (k : BitVec 3) (t : BitVec 4)
  /-- VRED (R122). Reduces the lanes of vs1 into lane 0 of vd. -/
  | vred (y : BitVec 1) (r : BitVec 2) (h : BitVec 3) (m : BitVec 4) (k : BitVec 3) (t : BitVec 4)
  /-- VABS (R123). Writes the absolute value in each lane. -/
  | vabs (h : BitVec 3) (k : BitVec 3) (t : BitVec 4)
  /-- VNEG (R123). Negates each lane. -/
  | vneg (h : BitVec 3) (k : BitVec 3) (t : BitVec 4)
  /-- VRCP (R123). Writes the correctly rounded reciprocal in each lane. -/
  | vrcp (h : BitVec 3) (k : BitVec 3) (t : BitVec 4)
  /-- VRSQ (R123). Writes the correctly rounded reciprocal square root in each lane. -/
  | vrsq (h : BitVec 3) (k : BitVec 3) (t : BitVec 4)
  /-- VEXP2 (R123). Writes the correctly rounded 2^a in each lane. -/
  | vexp2 (h : BitVec 3) (k : BitVec 3) (t : BitVec 4)
  /-- VLOG2 (R123). Writes the correctly rounded log2 a in each lane. -/
  | vlog2 (h : BitVec 3) (k : BitVec 3) (t : BitVec 4)
  /-- VBCAST (R123). Broadcasts lane 0 of vs1 to every lane of vd. -/
  | vbcast (h : BitVec 3) (k : BitVec 3) (t : BitVec 4)
  /-- VSQN (R123). Writes the squared norm of all lanes as FP32. -/
  | vsqn (h : BitVec 3) (k : BitVec 3) (t : BitVec 4)
  /-- VCVT (R125). Converts lanes between element types, stochastically when VSRC.EN is set. -/
  | vcvt (n : BitVec 4) (h : BitVec 3) (m : BitVec 4) (k : BitVec 3) (t : BitVec 4)
  /-- VDEC (R126). Decodes 8-bit codes through the decode table. -/
  | vdec (n : BitVec 4) (h : BitVec 3) (m : BitVec 4) (k : BitVec 3) (t : BitVec 4)
  /-- VENC (R127). Encodes lanes into D8 codes through the decode table. -/
  | venc (x : BitVec 1) (h : BitVec 3) (m : BitVec 4) (k : BitVec 3)
  /-- VUNPK3 (R130). Unpacks ternary bytes into lanes. -/
  | vunpk3 (x : BitVec 1) (h : BitVec 3) (m : BitVec 4) (k : BitVec 3) (t : BitVec 4)
  /-- VADDSUB (R131). Adds or subtracts each source lane according to the sign of a weight lane. -/
  | vaddsub (g : BitVec 3) (n : BitVec 4) (h : BitVec 3) (m : BitVec 4) (k : BitVec 3) (t : BitVec 4)
  /-- VDOT (R132). Accumulates dot products of narrow elements into 32-bit lanes. -/
  | vdot (g : BitVec 3) (n : BitVec 4) (h : BitVec 3) (m : BitVec 4) (k : BitVec 3) (t : BitVec 4)
  /-- VPERM (R133). Permutes the lanes of vs1 by the indices in vs2. -/
  | vperm (g : BitVec 3) (x : BitVec 1) (h : BitVec 3) (k : BitVec 3) (t : BitVec 4)
  /-- VSLIDE (R133). Slides lanes across vs1 and vs2 by the offset in g14. -/
  | vslide (g : BitVec 3) (x : BitVec 1) (h : BitVec 3) (k : BitVec 3) (t : BitVec 4)
  /-- VMXS (R129). Applies MX block scales to the lanes. -/
  | vmxs (g : BitVec 3) (n : BitVec 4) (h : BitVec 3) (m : BitVec 4) (k : BitVec 3) (t : BitVec 4)
  /-- BAR.INIT (R206). Takes ownership of a barrier and sets its count. -/
  | barInit (b : BitVec 7) (a : BitVec 7) (d : BitVec 7)
  /-- BAR.ARRIVE (R207). Arrives at a barrier as a release and returns a token. -/
  | barArrive (s : BitVec 3) (a : BitVec 7) (d : BitVec 7)
  /-- BAR.WAIT (R207). Parks until the token's phase has passed, then acts as an acquire. -/
  | barWait (s : BitVec 3) (a : BitVec 7)
  /-- BAR.DROP (R207). Removes the issuer from a barrier's count. -/
  | barDrop (s : BitVec 3) (a : BitVec 7)
  /-- MON.ARM (R209). Arms a monitor on a 128-byte block. -/
  | monArm (a : BitVec 7) (d : BitVec 7)
  /-- MON.WAIT (R210). Parks until a monitor is triggered, a message arrives, a resume occurs or the timeout expires, then writes the cause. -/
  | monWait (s : BitVec 3) (a : BitVec 7) (d : BitVec 7)
  /-- MON.CLR (R209). Disarms all four monitors. -/
  | monClr
  /-- WAITC (R211). Parks until a doubleword reaches a target, then acts as an acquire. -/
  | waitc (b : BitVec 7) (a : BitVec 7) (s : BitVec 3)
  /-- WAITM (R212). Parks until a mailbox message for the slot is present. -/
  | waitm
  /-- PUTF (R213). Places 32 bytes in a copy request register or its backing. -/
  | putf (b : BitVec 7) (a : BitVec 7)
  /-- TAKEF (R213). Takes 32 bytes from a full request register. -/
  | takef (a : BitVec 7) (d : BitVec 7)
  /-- CMN.RD (R214). Reads a common register. -/
  | cmnRd (c : BitVec 3) (d : BitVec 7)
  /-- CMN.WR (R214). Writes a common register. -/
  | cmnWr (c : BitVec 3) (a : BitVec 7)
  /-- BEQ (R100). Branches when two registers are equal. -/
  | beq (i : BitVec 4) (b : BitVec 7) (a : BitVec 7) (j : BitVec 4)
  /-- BNE (R100). Branches when two registers differ. -/
  | bne (i : BitVec 4) (b : BitVec 7) (a : BitVec 7) (j : BitVec 4)
  /-- BLT (R100). Branches when rs1 is below rs2 as signed. -/
  | blt (i : BitVec 4) (b : BitVec 7) (a : BitVec 7) (j : BitVec 4)
  /-- BGE (R100). Branches when rs1 is at least rs2 as signed. -/
  | bge (i : BitVec 4) (b : BitVec 7) (a : BitVec 7) (j : BitVec 4)
  /-- BLTU (R100). Branches when rs1 is below rs2 as unsigned. -/
  | bltu (i : BitVec 4) (b : BitVec 7) (a : BitVec 7) (j : BitVec 4)
  /-- BGEU (R100). Branches when rs1 is at least rs2 as unsigned. -/
  | bgeu (i : BitVec 4) (b : BitVec 7) (a : BitVec 7) (j : BitVec 4)
  /-- BP (R101). Branches when a predicate is true. -/
  | bp (i : BitVec 4) (p : BitVec 5) (j : BitVec 4)
  /-- BNP (R101). Branches when a predicate is false. -/
  | bnp (i : BitVec 4) (p : BitVec 5) (j : BitVec 4)
  /-- BRB (R102). Decrements a count, rotates the register region and branches while the count is nonzero. -/
  | brb (i : BitVec 4) (a : BitVec 7) (j : BitVec 4)
  /-- JALR (R104). Jumps to a register plus an offset and links in rd. -/
  | jalr (i : BitVec 8) (a : BitVec 7) (d : BitVec 7)
  /-- JAL (R103). Jumps PC-relative and links in g1. -/
  | jal (i : BitVec 25)
  /-- TRAP (R392). Takes a trap of code 14 with TVAL taken from a register. -/
  | trap (a : BitVec 7)
  /-- ERET (R393). Returns from a trap handler. -/
  | eret
  /-- CRR (R391). Reads a control register. -/
  | crr (c : BitVec 7) (d : BitVec 7)
  /-- CRW (R391). Writes a control register and returns its old value. -/
  | crw (c : BitVec 7) (a : BitVec 7) (d : BitVec 7)
  /-- CRS (R391). Sets bits of a control register and returns its old value. -/
  | crs (c : BitVec 7) (a : BitVec 7) (d : BitVec 7)
  /-- CRC (R391). Clears bits of a control register and returns its old value. -/
  | crc (c : BitVec 7) (a : BitVec 7) (d : BitVec 7)
  /-- FEAT (R395). Reads a word of the accepted feature set. -/
  | feat (a : BitVec 7) (d : BitVec 7)
  /-- FEAT.O (R395). Reads a word of the offered feature set. -/
  | featO (a : BitVec 7) (d : BitVec 7)
  /-- CASTLE.HOLD (R396). Makes a castling hold on the issuer's pair, first waiting out any swap that is due. -/
  | castleHold (d : BitVec 7)
  /-- CASTLE.FREE (R396). Ends the issuing thread's castling hold. -/
  | castleFree
  /-- HALT (R394). Halts the issuing thread and sends a halt record to the kernel. -/
  | halt
  /-- BRK (R392). Takes a trap of code 13. -/
  | brk
  /-- KILL (R397). Releases, then requests that an instance be killed. -/
  | kill (a : BitVec 7) (d : BitVec 7)
  /-- PREEMPT (R397). Releases, then requests that an instance be pre-empted. -/
  | preempt (a : BitVec 7) (d : BitVec 7)
  /-- TLB.INV (R398). Drops translations device-wide and waits for accesses through them to finish. -/
  | tlbInv (b : BitVec 7) (a : BitVec 7)
  /-- IDLE (R399). Parks until a message, a monitor trigger or a resume, then writes the cause. -/
  | idle (d : BitVec 7)
  /-- SPAWN (R191). Creates a thread of the issuer's instance on the issuer's core. -/
  | spawn (b : BitVec 7) (a : BitVec 7) (d : BitVec 7)
  /-- SPAWNL (R192). Creates a light thread on the issuer's core. -/
  | spawnl (a : BitVec 7) (d : BitVec 7)
  /-- EXIT (R194). Waits for the thread's REDs, then ends the thread and frees its slot and register blocks. -/
  | exit
  /-- YIELD (R195). Unseats the issuing thread. -/
  | yield
  /-- MIGRATE (R196). Sends the issuing light thread to the home core of an address. -/
  | migrate (a : BitVec 7)
  /-- TQ.ENQ (R198). Places a packet at the tail of the cluster task queue. -/
  | tqEnq (a : BitVec 7) (d : BitVec 7)
  /-- TQ.DEQ (R198). Removes the head packet of the cluster task queue into memory. -/
  | tqDeq (a : BitVec 7) (d : BitVec 7)
  /-- DEP.SET (R199). Adds to the dependency counter of a pending-launch entry. -/
  | depSet (b : BitVec 7) (a : BitVec 7) (d : BitVec 7)
  /-- DEP.DEC (R200). Applies one decrement to a pending-launch entry. -/
  | depDec (a : BitVec 7) (d : BitVec 7)
  /-- LAUNCH (R197). Places a packet in the pending-launch store and returns its handle, or status 1 when the store is full. -/
  | launch (a : BitVec 7) (d : BitVec 7)
  /-- LAUNCH.W (R197). Places a packet in the pending-launch store, parking while the store is full. -/
  | launchW (a : BitVec 7) (d : BitVec 7)
  /-- ITER.INIT (R202). Binds the thread's fetcher to a nest descriptor. -/
  | iterInit (a : BitVec 7)
  /-- ITER.NEXT (R202). Gives the next iteration index, claiming a chunk when needed. -/
  | iterNext (p : BitVec 5) (d : BitVec 7)
  /-- DQ.PUSH (R203). Pushes a range at the bottom of the instance's deque. -/
  | dqPush (b : BitVec 7) (a : BitVec 7) (d : BitVec 7)
  /-- DQ.POP (R203). Removes the bottom deque entry. -/
  | dqPop (d : BitVec 7)
  /-- DQ.SPLIT (R203). Takes a grain from the bottom deque entry. -/
  | dqSplit (a : BitVec 7) (d : BitVec 7)
  /-- DQ.STEAL (R204). Steals half of the top entry of another core's deque. -/
  | dqSteal (d : BitVec 7)
  deriving DecidableEq, Repr

end Sys2Proof
end

