-- ==== Sys2Proof/Machine/Fields.lean ====
section
/-! DEFINITION. Which field values an instruction word may hold (spec/02 R35 to R46 and each instruction's description):
step 1 of R43 as far as the word alone decides it. -/

namespace Sys2Proof.Machine

/-- A register number that exists: not 126 or 127 (spec/01 R13). -/
def anyReg (r : BitVec 7) : Bool := r.toNat ≤ 125

/-- A port number (spec/01 R13). -/
def isPort (r : BitVec 7) : Bool := 120 ≤ r.toNat && r.toNat ≤ 125

/-- A register number that is no port. -/
def plainReg (r : BitVec 7) : Bool := r.toNat < 120

/-- The first of k registers (spec/09 R188). -/
def firstOf (k : Nat) (r : BitVec 7) : Bool := 1 ≤ r.toNat && r.toNat + k ≤ 120

/-- Three fields that exist and of which at most one names a port (spec/04 R83). -/
def onePort (a b d : BitVec 7) : Bool :=
  anyReg a && anyReg b && anyReg d && !(isPort a && isPort b) && !(isPort a && isPort d) && !(isPort b && isPort d)

/-- A scope code (spec/00 R8, spec/02 R41). -/
def scopeOk (s : BitVec 3) : Bool := s.toNat ≤ 5

/-- A group code that names a group (spec/02 R35). -/
def groupOk (k : BitVec 3) : Bool := 1 ≤ k.toNat && k.toNat ≤ 6

/-- The element types i and n (spec/02 R36). -/
def intType (t : BitVec 4) : Bool := t.toNat ≤ 5

/-- The element types i, n, m8, BF16 and FP32. -/
def arithType (t : BitVec 4) : Bool := t.toNat ≤ 8

/-- BF16 or FP32. -/
def floatType (t : BitVec 4) : Bool := t.toNat = 7 || t.toNat = 8

/-- Any element type code that is not reserved (spec/02 R36). -/
def anyType (t : BitVec 4) : Bool := t.toNat ≤ 14

/-- RM is 0 for an integer element type (spec/05 R111). -/
def modeOk (t n : BitVec 4) : Bool := 7 ≤ t.toNat || n.toNat % 4 = 0

/-- The types VUNPK3 writes (spec/05 R130). -/
def unpackType (t : BitVec 4) : Bool := t.toNat ≤ 2 || (6 ≤ t.toNat && t.toNat ≤ 8)

/-- The pairs of VADDSUB (spec/05 R131): i8, m8 or i16 into i16 or i32, BF16 into FP32. -/
def addsubTypes (t m : BitVec 4) : Bool :=
  ((t.toNat = 1 || t.toNat = 2) && (m.toNat = 0 || m.toNat = 1 || m.toNat = 6)) || (t.toNat = 8 && m.toNat = 7)

/-- The pairs of VDOT (spec/05 R132): i8, n8, m8 or i16 into i32; BF16, E4M3 or E5M2 into FP32. -/
def dotTypes (t m : BitVec 4) : Bool :=
  (t.toNat = 2 && (m.toNat = 0 || m.toNat = 1 || m.toNat = 3 || m.toNat = 6)) ||
  (t.toNat = 8 && (m.toNat = 7 || m.toNat = 9 || m.toNat = 10))

/-- The control registers that exist (spec/19 R390). -/
def crOk (c : BitVec 7) : Bool := c.toNat ≤ 16 || (32 ≤ c.toNat && c.toNat ≤ 39)

/-- The fields of an instruction hold values that the spec gives it. A step without a word is never decoded, so none
of its forms is well-formed as a word. -/
def fieldsOk (i : Instr) : Bool :=
  match i with
  | .lb _ a d => plainReg a && anyReg d
  | .lh _ a d => plainReg a && anyReg d
  | .lw _ a d => plainReg a && anyReg d
  | .ld _ a d => plainReg a && anyReg d
  | .lbu _ a d => plainReg a && anyReg d
  | .lhu _ a d => plainReg a && anyReg d
  | .lwu _ a d => plainReg a && anyReg d
  | .sb _ b a _ => plainReg a && anyReg b
  | .sh _ b a _ => plainReg a && anyReg b
  | .sw _ b a _ => plainReg a && anyReg b
  | .sd _ b a _ => plainReg a && anyReg b
  | .vld a k t => plainReg a && groupOk k && anyType t
  | .vst a k t => plainReg a && groupOk k && anyType t
  | .vlds b a k t => plainReg a && plainReg b && groupOk k && anyType t
  | .vsts b a k t => plainReg a && plainReg b && groupOk k && anyType t
  | .vldb a k t => plainReg a && groupOk k && anyType t
  | .mxSubmit a d => plainReg a && plainReg d
  | .mxRun a d => plainReg a && plainReg d
  | .jobPoll a d => plainReg a && plainReg d
  | .jobWait a d => plainReg a && plainReg d
  | .jobCancel a d => plainReg a && plainReg d
  | .mxNorm a d => plainReg a && plainReg d
  | .mxXchg a d => plainReg a && plainReg d
  | .cpGo a => firstOf 4 a
  | .cpWp a d => plainReg a && plainReg d
  | .vatInit b a d => plainReg b && plainReg a && plainReg d
  | .vatCvt b a d => plainReg b && plainReg a && plainReg d
  | .seedSet _ a => plainReg a
  | .seedGet _ d => plainReg d
  | .seedGetG _ d => plainReg d
  | .fmtLd a d => plainReg a && plainReg d
  | .ixGo a => plainReg a
  | .ixResume a => plainReg a
  | .ldaD s a d => scopeOk s && plainReg a && plainReg d
  | .ldaW s a d => scopeOk s && plainReg a && plainReg d
  | .stlD b a s => scopeOk s && plainReg b && plainReg a
  | .stlW b a s => scopeOk s && plainReg b && plainReg a
  | .fence _ s => scopeOk s
  | .cflush a => plainReg a
  | .cinv a => plainReg a
  | .pref a => plainReg a
  | .sigrd e d => decide (e.toNat ≤ 2) && firstOf 8 d
  | .addi _ a d => onePort a 0 d
  | .slti _ a d => onePort a 0 d
  | .sltiu _ a d => onePort a 0 d
  | .xori _ a d => onePort a 0 d
  | .ori _ a d => onePort a 0 d
  | .andi _ a d => onePort a 0 d
  | .slli _ a d => onePort a 0 d
  | .srli _ a d => onePort a 0 d
  | .srai _ a d => onePort a 0 d
  | .rori _ a d => onePort a 0 d
  | .addpc _ d => anyReg d
  | .addl _ d => plainReg d
  | .liu _ d => anyReg d
  | .peq b a _ => onePort a b 0
  | .pne b a _ => onePort a b 0
  | .plt b a _ => onePort a b 0
  | .pge b a _ => onePort a b 0
  | .pltu b a _ => onePort a b 0
  | .pgeu b a _ => onePort a b 0
  | .pand _ _ _ => true
  | .por _ _ _ => true
  | .pxor _ _ _ => true
  | .pnot _ _ => true
  | .mvp _ d => anyReg d
  | .mvnp _ d => anyReg d
  | .prd d => anyReg d
  | .pwr a => plainReg a
  | .epush b a d => plainReg b && firstOf 4 a && plainReg d
  | .epop d => firstOf 2 d
  | .grpPut b a d => plainReg b && plainReg a && plainReg d
  | .grpGet a d => plainReg a && firstOf 2 d
  | .mcst b a d => plainReg b && firstOf 2 a && plainReg d
  | .lnkSend b a d => firstOf 2 b && firstOf 8 a && plainReg d
  | .lnkRecv d => firstOf 10 d
  | .seqRd a d => plainReg a && plainReg d
  | .mbSend b a => plainReg b && firstOf 2 a
  | .mbPeek d => firstOf 2 d
  | .mbCount d => plainReg d
  | .amoAdd b a d => plainReg b && plainReg a && plainReg d
  | .amoAnd b a d => plainReg b && plainReg a && plainReg d
  | .amoOr b a d => plainReg b && plainReg a && plainReg d
  | .amoXor b a d => plainReg b && plainReg a && plainReg d
  | .amoMin b a d => plainReg b && plainReg a && plainReg d
  | .amoMax b a d => plainReg b && plainReg a && plainReg d
  | .amoMinu b a d => plainReg b && plainReg a && plainReg d
  | .amoMaxu b a d => plainReg b && plainReg a && plainReg d
  | .amoSwap b a d => plainReg b && plainReg a && plainReg d
  | .amoCas b a d => plainReg b && plainReg a && plainReg d
  | .amoFadd b a d => plainReg b && plainReg a && plainReg d
  | .redAdd b a => plainReg b && plainReg a
  | .redMin b a => plainReg b && plainReg a
  | .redMax b a => plainReg b && plainReg a
  | .redFadd b a => plainReg b && plainReg a
  | .redVat b a d => plainReg b && plainReg a && plainReg d
  | .add b a d => onePort a b d
  | .sub b a d => onePort a b d
  | .and b a d => onePort a b d
  | .or b a d => onePort a b d
  | .xor b a d => onePort a b d
  | .andn b a d => onePort a b d
  | .sll b a d => onePort a b d
  | .srl b a d => onePort a b d
  | .sra b a d => onePort a b d
  | .ror b a d => onePort a b d
  | .slt b a d => onePort a b d
  | .sltu b a d => onePort a b d
  | .min b a d => onePort a b d
  | .max b a d => onePort a b d
  | .minu b a d => onePort a b d
  | .maxu b a d => onePort a b d
  | .mul b a d => onePort a b d
  | .mulh b a d => onePort a b d
  | .mulhu b a d => onePort a b d
  | .mulhsu b a d => onePort a b d
  | .div b a d => onePort a b d
  | .divu b a d => onePort a b d
  | .rem b a d => onePort a b d
  | .remu b a d => onePort a b d
  | .clz a d => onePort a 0 d
  | .ctz a d => onePort a 0 d
  | .cpop a d => onePort a 0 d
  | .sextb a d => onePort a 0 d
  | .sexth a d => onePort a 0 d
  | .sextw a d => onePort a 0 d
  | .zextw a d => onePort a 0 d
  | .bswap a d => onePort a 0 d
  | .bfx b a d => onePort a b d
  | .bfxu b a d => onePort a b d
  | .bfi b a d => plainReg d && onePort a b 0
  | .faddS b a d => onePort a b d
  | .fsubS b a d => onePort a b d
  | .fmulS b a d => onePort a b d
  | .fdivS b a d => onePort a b d
  | .fminS b a d => onePort a b d
  | .fmaxS b a d => onePort a b d
  | .fsqrtS a d => onePort a 0 d
  | .fcvtSI a d => onePort a 0 d
  | .fcvtSN a d => onePort a 0 d
  | .fcvtIS a d => onePort a 0 d
  | .fcvtNS a d => onePort a 0 d
  | .fcvtWS a d => onePort a 0 d
  | .fcvtNwS a d => onePort a 0 d
  | .fcvtSD a d => onePort a 0 d
  | .fcvtSB a d => onePort a 0 d
  | .fcvtBS a d => onePort a 0 d
  | .fclassS a d => onePort a 0 d
  | .feqS b a d => onePort a b d
  | .fltS b a d => onePort a b d
  | .fleS b a d => onePort a b d
  | .ffmaS b a d => plainReg d && onePort a b 0
  | .ffmsS b a d => plainReg d && onePort a b 0
  | .fsgnjS b a d => onePort a b d
  | .faddD b a d => onePort a b d
  | .fsubD b a d => onePort a b d
  | .fmulD b a d => onePort a b d
  | .fdivD b a d => onePort a b d
  | .fminD b a d => onePort a b d
  | .fmaxD b a d => onePort a b d
  | .fsqrtD a d => onePort a 0 d
  | .fcvtDI a d => onePort a 0 d
  | .fcvtDN a d => onePort a 0 d
  | .fcvtID a d => onePort a 0 d
  | .fcvtND a d => onePort a 0 d
  | .fcvtWD a d => onePort a 0 d
  | .fcvtNwD a d => onePort a 0 d
  | .fcvtDS a d => onePort a 0 d
  | .fcvtDB a d => onePort a 0 d
  | .fcvtBD a d => onePort a 0 d
  | .fclassD a d => onePort a 0 d
  | .feqD b a d => onePort a b d
  | .fltD b a d => onePort a b d
  | .fleD b a d => onePort a b d
  | .ffmaD b a d => plainReg d && onePort a b 0
  | .ffmsD b a d => plainReg d && onePort a b 0
  | .fsgnjD b a d => onePort a b d
  | .vadd g n h m k t => groupOk k && groupOk h && groupOk g && arithType t && decide (m.toNat ≤ 1) && modeOk t n
  | .vsub g n h m k t => groupOk k && groupOk h && groupOk g && arithType t && decide (m.toNat ≤ 1) && modeOk t n
  | .vmul g n h m k t => groupOk k && groupOk h && groupOk g && arithType t && decide (m.toNat ≤ 1) && modeOk t n
  | .vfma g n h m k t => groupOk k && groupOk h && groupOk g && arithType t && decide (m.toNat ≤ 1) && modeOk t n
  | .vfms g n h m k t => groupOk k && groupOk h && groupOk g && arithType t && decide (m.toNat ≤ 1) && modeOk t n
  | .vmin g _ h m k t => groupOk k && groupOk h && groupOk g && arithType t && decide (m.toNat ≤ 1)
  | .vmax g _ h m k t => groupOk k && groupOk h && groupOk g && arithType t && decide (m.toNat ≤ 1)
  | .vand g _ h m k t => groupOk k && groupOk h && groupOk g && intType t && decide (m.toNat ≤ 1)
  | .vor g _ h m k t => groupOk k && groupOk h && groupOk g && intType t && decide (m.toNat ≤ 1)
  | .vxor g _ h m k t => groupOk k && groupOk h && groupOk g && intType t && decide (m.toNat ≤ 1)
  | .vshl g _ _ h m k t => groupOk k && groupOk h && groupOk g && intType t && decide (m.toNat ≤ 1)
  | .vshr g _ _ h m k t => groupOk k && groupOk h && groupOk g && intType t && decide (m.toNat ≤ 1)
  | .vcmp g _ h m t => groupOk h && groupOk g && arithType t && decide (m.toNat ≤ 5)
  | .vsel g h k t => groupOk k && groupOk h && groupOk g && anyType t
  | .vred _ r h m k t => groupOk k && groupOk h && arithType t && decide (m.toNat ≤ 2) && modeOk t (0#2 ++ r)
  | .vabs h k t => groupOk k && groupOk h && arithType t
  | .vneg h k t => groupOk k && groupOk h && arithType t
  | .vrcp h k t => groupOk k && groupOk h && floatType t
  | .vrsq h k t => groupOk k && groupOk h && floatType t
  | .vexp2 h k t => groupOk k && groupOk h && floatType t
  | .vlog2 h k t => groupOk k && groupOk h && floatType t
  | .vbcast h k t => groupOk k && groupOk h && anyType t
  | .vsqn h k t => groupOk k && groupOk h && floatType t
  | .vcvt n h m k t => groupOk k && groupOk h && decide (t.toNat ≤ 13) && decide (m.toNat ≤ 13) && (modeOk t n || modeOk m n)
  | .vdec _ h m k t => groupOk k && groupOk h && floatType t && decide (m.toNat ≤ (if t = 8 then 3 else 1))
  | .venc _ h m k => groupOk k && groupOk h && floatType m
  | .vunpk3 _ h _ k t => groupOk k && groupOk h && unpackType t
  | .vaddsub g n h m k t => groupOk k && groupOk h && groupOk g && addsubTypes t m && modeOk t n
  | .vdot g n h m k t => groupOk k && groupOk h && groupOk g && dotTypes t m && modeOk t n
  | .vperm g _ h k t => groupOk k && groupOk h && groupOk g && anyType t
  | .vslide g _ h k t => groupOk k && groupOk h && groupOk g && anyType t
  | .vmxs g _ h m k t => groupOk k && groupOk h && groupOk g && decide (9 ≤ m.toNat) && decide (m.toNat ≤ 13) && floatType t
  | .barInit b a d => plainReg b && plainReg a && plainReg d
  | .barArrive s a d => scopeOk s && plainReg a && plainReg d
  | .barWait s a => scopeOk s && plainReg a
  | .barDrop s a => scopeOk s && plainReg a
  | .monArm a d => plainReg a && plainReg d
  | .monWait s a d => scopeOk s && plainReg a && plainReg d
  | .monClr => true
  | .waitc b a s => scopeOk s && plainReg b && plainReg a
  | .waitm => true
  | .putf b a => plainReg b && firstOf 4 a
  | .takef a d => plainReg a && firstOf 4 d
  | .cmnRd _ d => plainReg d
  | .cmnWr _ a => plainReg a
  | .beq _ b a _ => onePort a b 0
  | .bne _ b a _ => onePort a b 0
  | .blt _ b a _ => onePort a b 0
  | .bge _ b a _ => onePort a b 0
  | .bltu _ b a _ => onePort a b 0
  | .bgeu _ b a _ => onePort a b 0
  | .bp _ _ _ => true
  | .bnp _ _ _ => true
  | .brb _ a _ => plainReg a
  | .jalr _ a d => plainReg a && plainReg d
  | .jal _ => true
  | .trap a => plainReg a
  | .eret => true
  | .crr c d => crOk c && plainReg d
  | .crw c a d => crOk c && plainReg a && plainReg d
  | .crs c a d => crOk c && plainReg a && plainReg d
  | .crc c a d => crOk c && plainReg a && plainReg d
  | .feat a d => plainReg a && plainReg d
  | .featO a d => plainReg a && plainReg d
  | .castleHold d => plainReg d
  | .castleFree => true
  | .halt => true
  | .brk => true
  | .kill a d => plainReg a && plainReg d
  | .preempt a d => plainReg a && plainReg d
  | .tlbInv b a => plainReg b && plainReg a
  | .idle d => plainReg d
  | .spawn b a d => plainReg b && plainReg a && plainReg d
  | .spawnl a d => plainReg a && plainReg d
  | .exit => true
  | .yield => true
  | .migrate a => plainReg a
  | .tqEnq a d => plainReg a && plainReg d
  | .tqDeq a d => plainReg a && plainReg d
  | .depSet b a d => plainReg b && plainReg a && plainReg d
  | .depDec a d => plainReg a && plainReg d
  | .launch a d => plainReg a && plainReg d
  | .launchW a d => plainReg a && plainReg d
  | .iterInit a => plainReg a
  | .iterNext _ d => firstOf 3 d
  | .dqPush b a d => plainReg b && plainReg a && plainReg d
  | .dqPop d => firstOf 2 d
  | .dqSplit a d => plainReg a && firstOf 2 d
  | .dqSteal d => firstOf 2 d
  | .wheelBoundary .. | .accessReply .. | .pageTableWalk .. | .faultRetry .. | .faultDeliver .. | .refreshDue ..
  | .postponedRefresh .. | .sweep | .sweepCoreStep .. | .sweepClear | .migrationPacketArrival .. | .migrationRetry ..
  | .proxy .. | .proxyReply .. | .remoteUpdate .. | .clusterSchedulerPass .. | .packetPromotion .. | .stealRequest ..
  | .stealRoundWait .. | .pendingLaunchMove .. | .dependencyDecrement .. | .taskRetirement .. | .mailboxDelivery .. | .portElementArrival ..
  | .monitorNotice .. | .monWaitTimeout .. | .copyBeat .. | .copyCompletion .. | .indexStep .. | .matrixJobStart ..
  | .tileFetch .. | .kGroup .. | .tileWriteBack .. | .jobEnd .. | .engineClockGate .. | .engineWakeGrant ..
  | .engineWakeReady .. | .engineYield .. | .rindNormJob .. | .pressFormation .. | .pressRound .. | .preemptionRequest ..
  | .haltComplete .. | .resume .. | .eviction .. | .restore .. | .kernelKillRequest .. | .killComplete ..
  | .frozenThreadRestart .. | .coreDrain .. | .clusterRestore .. | .swapDue .. | .swapPrepare .. | .swapExchange ..
  | .swapResume .. | .holdExpiry .. | .swapDeferralLimit .. | .securityAlarm .. | .alarmpolWrite .. | .powerGood
  | .clusterResetRelease .. | .bootStage .. | .measurementExtend .. | .sqtailWrite .. | .faccept0Write .. | .bar2Read ..
  | .bar2Write .. | .attestationRequest .. | .hubRegisterWrite .. | .thermalThrottle .. | .throttleRelease .. | .flitError ..
  | .mcstStamping .. | .mcstApplication .. | .multicastSkip .. | .combinePacketArrival .. | .slotFreeNotice .. | .resultPacketArrival ..
  | .scalarStepCompletion .. | .holdNotice .. | .resumeNotice .. | .linkFailure .. | .treeReform .. | .illegalInstruction ..
  | .instructionFetchFault .. | .haltedThreadResume .. | .faccept1Write .. | .provisioning => false

end Sys2Proof.Machine
end

