-- ==== Sys2Proof/WellFormed.lean ====
section
/-! DEFINITION. A well-formed instruction: one that some word encodes (spec/02 R35 to R46). The checks of each field stand in
Machine/Fields.lean. -/

namespace Sys2Proof

/-- The instruction has a word, and every field holds a value that the instruction takes. -/
abbrev WellFormed (i : Instr) : Prop := Machine.fieldsOk i = true

end Sys2Proof
end

