-- ==== Sys2Proof/Decode.lean ====
section
/-! DEFINITION. From an instruction word to the instruction and back (spec/02 R31 to R46). The decoder reads the major
opcode, then the sub-op fields; a word is accepted when it is the one word of an instruction whose fields are
well-formed, so that a reserved field that is not 0 refuses it (R40). Some definitions are marked noncomputable: the
compiler has no tag for a constructor this late in Instr; the kernel evaluates them. -/

namespace Sys2Proof

/-- Why a word encodes no instruction. Each of these raises illegal instruction (spec/02 R39 to R46). -/
inductive DecodeError where
  /-- Bits 1:0 are not 0b11 (R31, R39). -/
  | frame
  /-- An unassigned major (R39). -/
  | major
  /-- A sub-op that the map does not list (R38, R41, R44 to R46). -/
  | subOp
  /-- A reserved field that is not 0 (R40). -/
  | reserved
  /-- A register number, port, group code, element type, modifier, scope or selector that the instruction does not take. -/
  | field
  deriving DecidableEq, Repr

/-! The frame (spec/02 R32). -/

/-- The opcode byte, bits 6:0 (R31). -/
def opOf (w : InstrWord) : BitVec 7 := w.extractLsb' 0 7
/-- rd, bits 13:7. -/
def rdOf (w : InstrWord) : BitVec 7 := w.extractLsb' 7 7
/-- rs1, bits 20:14. -/
def rs1Of (w : InstrWord) : BitVec 7 := w.extractLsb' 14 7
/-- rs2, bits 27:21. -/
def rs2Of (w : InstrWord) : BitVec 7 := w.extractLsb' 21 7
/-- f4, bits 31:28. -/
def f4Of (w : InstrWord) : BitVec 4 := w.extractLsb' 28 4
/-- f3 of the I format, bits 31:29. -/
def f3iOf (w : InstrWord) : BitVec 3 := w.extractLsb' 29 3
/-- imm8 of the I format, bits 28:21. -/
def immOf (w : InstrWord) : BitVec 8 := w.extractLsb' 21 8
/-- f3 of the S and B formats, bits 9:7. -/
def f3sOf (w : InstrWord) : BitVec 3 := w.extractLsb' 7 3
/-- imm[3:0] of the S and B formats, bits 13:10. -/
def immLoOf (w : InstrWord) : BitVec 4 := w.extractLsb' 10 4
/-- imm18 of the U format, bits 31:14. -/
def imm18Of (w : InstrWord) : BitVec 18 := w.extractLsb' 14 18
/-- imm25 of the J format, bits 31:7. -/
def imm25Of (w : InstrWord) : BitVec 25 := w.extractLsb' 7 25

/-- A word of the R, X or V format. -/
def wordR (f4 : BitVec 4) (rs2 rs1 rd op : BitVec 7) : InstrWord := f4 ++ rs2 ++ rs1 ++ rd ++ op
/-- A word of the I format. -/
def wordI (f3 : BitVec 3) (imm : BitVec 8) (rs1 rd op : BitVec 7) : InstrWord := f3 ++ imm ++ rs1 ++ rd ++ op
/-- A word of the S or B format. -/
def wordS (hi : BitVec 4) (rs2 rs1 : BitVec 7) (lo : BitVec 4) (f3 : BitVec 3) (op : BitVec 7) : InstrWord :=
  hi ++ rs2 ++ rs1 ++ lo ++ f3 ++ op
/-- A word of the U format. -/
def wordU (imm : BitVec 18) (rd op : BitVec 7) : InstrWord := imm ++ rd ++ op
/-- A word of the J format. -/
def wordJ (imm : BitVec 25) (op : BitVec 7) : InstrWord := imm ++ op

/-- Opcode byte 0x03 (spec/02 R38). -/
def rawLoad (w : InstrWord) : Except DecodeError Instr :=
  match (f3iOf w).toNat with
  | 0 => .ok (.lb (immOf w) (rs1Of w) (rdOf w))
  | 1 => .ok (.lh (immOf w) (rs1Of w) (rdOf w))
  | 2 => .ok (.lw (immOf w) (rs1Of w) (rdOf w))
  | 3 => .ok (.ld (immOf w) (rs1Of w) (rdOf w))
  | 4 => .ok (.lbu (immOf w) (rs1Of w) (rdOf w))
  | 5 => .ok (.lhu (immOf w) (rs1Of w) (rdOf w))
  | 6 => .ok (.lwu (immOf w) (rs1Of w) (rdOf w))
  | _ => .error .subOp

/-- Opcode byte 0x23 (spec/02 R38). -/
def rawStore (w : InstrWord) : Except DecodeError Instr :=
  match (f3sOf w).toNat with
  | 0 => .ok (.sb (f4Of w) (rs2Of w) (rs1Of w) (immLoOf w))
  | 1 => .ok (.sh (f4Of w) (rs2Of w) (rs1Of w) (immLoOf w))
  | 2 => .ok (.sw (f4Of w) (rs2Of w) (rs1Of w) (immLoOf w))
  | 3 => .ok (.sd (f4Of w) (rs2Of w) (rs1Of w) (immLoOf w))
  | _ => .error .subOp

/-- Opcode byte 0x07 (spec/02 R38). -/
def rawVmem (w : InstrWord) : Except DecodeError Instr :=
  match (f4Of w).toNat with
  | 0 => .ok (.vld (rs1Of w) ((rdOf w).extractLsb' 4 3) ((rdOf w).extractLsb' 0 4))
  | 1 => .ok (.vst (rs1Of w) ((rdOf w).extractLsb' 4 3) ((rdOf w).extractLsb' 0 4))
  | 2 => .ok (.vlds (rs2Of w) (rs1Of w) ((rdOf w).extractLsb' 4 3) ((rdOf w).extractLsb' 0 4))
  | 3 => .ok (.vsts (rs2Of w) (rs1Of w) ((rdOf w).extractLsb' 4 3) ((rdOf w).extractLsb' 0 4))
  | 4 => .ok (.vldb (rs1Of w) ((rdOf w).extractLsb' 4 3) ((rdOf w).extractLsb' 0 4))
  | _ => .error .subOp

/-- Opcode byte 0x0B (spec/02 R38). -/
def rawTensor (w : InstrWord) : Except DecodeError Instr :=
  match (f4Of w).toNat with
  | 0 => .ok (.mxSubmit (rs1Of w) (rdOf w))
  | 1 => .ok (.mxRun (rs1Of w) (rdOf w))
  | 2 => .ok (.jobPoll (rs1Of w) (rdOf w))
  | 3 => .ok (.jobWait (rs1Of w) (rdOf w))
  | 4 => .ok (.jobCancel (rs1Of w) (rdOf w))
  | 5 => .ok (.mxNorm (rs1Of w) (rdOf w))
  | 6 => .ok (.mxXchg (rs1Of w) (rdOf w))
  | 7 => .ok (.cpGo (rs1Of w))
  | 8 => .ok (.cpWp (rs1Of w) (rdOf w))
  | 9 => .ok (.vatInit (rs2Of w) (rs1Of w) (rdOf w))
  | 10 => .ok (.vatCvt (rs2Of w) (rs1Of w) (rdOf w))
  | 11 => .ok (.seedSet ((rs2Of w).extractLsb' 0 4) (rs1Of w))
  | 12 =>
    match (rs1Of w).toNat with
    | 0 => .ok (.seedGet ((rs2Of w).extractLsb' 0 4) (rdOf w))
    | 1 => .ok (.seedGetG ((rs2Of w).extractLsb' 0 4) (rdOf w))
    | _ => .error .subOp
  | 13 => .ok (.fmtLd (rs1Of w) (rdOf w))
  | 14 => .ok (.ixGo (rs1Of w))
  | 15 => .ok (.ixResume (rs1Of w))
  | _ => .error .subOp

/-- Opcode byte 0x0F (spec/02 R38). -/
def rawOrd (w : InstrWord) : Except DecodeError Instr :=
  match (f4Of w).toNat with
  | 0 => .ok (.ldaD ((rs2Of w).extractLsb' 0 3) (rs1Of w) (rdOf w))
  | 1 => .ok (.ldaW ((rs2Of w).extractLsb' 0 3) (rs1Of w) (rdOf w))
  | 2 => .ok (.stlD (rs2Of w) (rs1Of w) ((rdOf w).extractLsb' 0 3))
  | 3 => .ok (.stlW (rs2Of w) (rs1Of w) ((rdOf w).extractLsb' 0 3))
  | 4 => .ok (.fence ((rs1Of w).extractLsb' 0 5) ((rdOf w).extractLsb' 0 3))
  | 5 => .ok (.cflush (rs1Of w))
  | 6 => .ok (.cinv (rs1Of w))
  | 7 => .ok (.pref (rs1Of w))
  | 8 => .ok (.sigrd ((rs2Of w).extractLsb' 0 2) (rdOf w))
  | _ => .error .subOp

/-- Opcode byte 0x13 (spec/02 R38). -/
def rawOpImm (w : InstrWord) : Except DecodeError Instr :=
  match (f3iOf w).toNat with
  | 0 => .ok (.addi (immOf w) (rs1Of w) (rdOf w))
  | 1 => .ok (.slti (immOf w) (rs1Of w) (rdOf w))
  | 2 => .ok (.sltiu (immOf w) (rs1Of w) (rdOf w))
  | 3 => .ok (.xori (immOf w) (rs1Of w) (rdOf w))
  | 4 => .ok (.ori (immOf w) (rs1Of w) (rdOf w))
  | 5 => .ok (.andi (immOf w) (rs1Of w) (rdOf w))
  | 6 =>
    match ((immOf w).extractLsb' 6 2).toNat with
    | 0 => .ok (.slli ((immOf w).extractLsb' 0 6) (rs1Of w) (rdOf w))
    | 1 => .ok (.srli ((immOf w).extractLsb' 0 6) (rs1Of w) (rdOf w))
    | 2 => .ok (.srai ((immOf w).extractLsb' 0 6) (rs1Of w) (rdOf w))
    | 3 => .ok (.rori ((immOf w).extractLsb' 0 6) (rs1Of w) (rdOf w))
    | _ => .error .subOp
  | _ => .error .subOp

/-- Opcode byte 0x17 (spec/02 R38). -/
def rawAddpc (w : InstrWord) : Except DecodeError Instr :=
  .ok (.addpc (imm18Of w) (rdOf w))

/-- Opcode byte 0x1F (spec/02 R38). -/
def rawAddl (w : InstrWord) : Except DecodeError Instr :=
  .ok (.addl (imm18Of w) (rdOf w))

/-- Opcode byte 0x37 (spec/02 R38). -/
def rawLiu (w : InstrWord) : Except DecodeError Instr :=
  .ok (.liu (imm18Of w) (rdOf w))

/-- Opcode byte 0x1B (spec/02 R38). -/
def rawPred (w : InstrWord) : Except DecodeError Instr :=
  match (f4Of w).toNat with
  | 0 => .ok (.peq (rs2Of w) (rs1Of w) ((rdOf w).extractLsb' 0 5))
  | 1 => .ok (.pne (rs2Of w) (rs1Of w) ((rdOf w).extractLsb' 0 5))
  | 2 => .ok (.plt (rs2Of w) (rs1Of w) ((rdOf w).extractLsb' 0 5))
  | 3 => .ok (.pge (rs2Of w) (rs1Of w) ((rdOf w).extractLsb' 0 5))
  | 4 => .ok (.pltu (rs2Of w) (rs1Of w) ((rdOf w).extractLsb' 0 5))
  | 5 => .ok (.pgeu (rs2Of w) (rs1Of w) ((rdOf w).extractLsb' 0 5))
  | 6 => .ok (.pand ((rs2Of w).extractLsb' 0 5) ((rs1Of w).extractLsb' 0 5) ((rdOf w).extractLsb' 0 5))
  | 7 => .ok (.por ((rs2Of w).extractLsb' 0 5) ((rs1Of w).extractLsb' 0 5) ((rdOf w).extractLsb' 0 5))
  | 8 => .ok (.pxor ((rs2Of w).extractLsb' 0 5) ((rs1Of w).extractLsb' 0 5) ((rdOf w).extractLsb' 0 5))
  | 9 => .ok (.pnot ((rs1Of w).extractLsb' 0 5) ((rdOf w).extractLsb' 0 5))
  | 10 => .ok (.mvp ((rs1Of w).extractLsb' 0 5) (rdOf w))
  | 11 => .ok (.mvnp ((rs1Of w).extractLsb' 0 5) (rdOf w))
  | 12 => .ok (.prd (rdOf w))
  | 13 => .ok (.pwr (rs1Of w))
  | _ => .error .subOp

/-- Opcode byte 0x2B (spec/02 R38). -/
def rawMessage (w : InstrWord) : Except DecodeError Instr :=
  match (f4Of w).toNat with
  | 0 => .ok (.epush (rs2Of w) (rs1Of w) (rdOf w))
  | 1 => .ok (.epop (rdOf w))
  | 2 => .ok (.grpPut (rs2Of w) (rs1Of w) (rdOf w))
  | 3 => .ok (.grpGet (rs1Of w) (rdOf w))
  | 4 => .ok (.mcst (rs2Of w) (rs1Of w) (rdOf w))
  | 5 => .ok (.lnkSend (rs2Of w) (rs1Of w) (rdOf w))
  | 6 => .ok (.lnkRecv (rdOf w))
  | 7 => .ok (.seqRd (rs1Of w) (rdOf w))
  | 8 => .ok (.mbSend (rs2Of w) (rs1Of w))
  | 9 => .ok (.mbPeek (rdOf w))
  | 10 => .ok (.mbCount (rdOf w))
  | _ => .error .subOp

/-- Opcode byte 0x2F (spec/02 R38). -/
def rawAmo (w : InstrWord) : Except DecodeError Instr :=
  match (f4Of w).toNat with
  | 0 => .ok (.amoAdd (rs2Of w) (rs1Of w) (rdOf w))
  | 1 => .ok (.amoAnd (rs2Of w) (rs1Of w) (rdOf w))
  | 2 => .ok (.amoOr (rs2Of w) (rs1Of w) (rdOf w))
  | 3 => .ok (.amoXor (rs2Of w) (rs1Of w) (rdOf w))
  | 4 => .ok (.amoMin (rs2Of w) (rs1Of w) (rdOf w))
  | 5 => .ok (.amoMax (rs2Of w) (rs1Of w) (rdOf w))
  | 6 => .ok (.amoMinu (rs2Of w) (rs1Of w) (rdOf w))
  | 7 => .ok (.amoMaxu (rs2Of w) (rs1Of w) (rdOf w))
  | 8 => .ok (.amoSwap (rs2Of w) (rs1Of w) (rdOf w))
  | 9 => .ok (.amoCas (rs2Of w) (rs1Of w) (rdOf w))
  | 10 => .ok (.amoFadd (rs2Of w) (rs1Of w) (rdOf w))
  | 11 => .ok (.redAdd (rs2Of w) (rs1Of w))
  | 12 => .ok (.redMin (rs2Of w) (rs1Of w))
  | 13 => .ok (.redMax (rs2Of w) (rs1Of w))
  | 14 => .ok (.redFadd (rs2Of w) (rs1Of w))
  | 15 => .ok (.redVat (rs2Of w) (rs1Of w) (rdOf w))
  | _ => .error .subOp

/-- Opcode byte 0x33 (spec/02 R38). -/
def rawOp (w : InstrWord) : Except DecodeError Instr :=
  match (f4Of w).toNat with
  | 0 => .ok (.add (rs2Of w) (rs1Of w) (rdOf w))
  | 1 => .ok (.sub (rs2Of w) (rs1Of w) (rdOf w))
  | 2 => .ok (.and (rs2Of w) (rs1Of w) (rdOf w))
  | 3 => .ok (.or (rs2Of w) (rs1Of w) (rdOf w))
  | 4 => .ok (.xor (rs2Of w) (rs1Of w) (rdOf w))
  | 5 => .ok (.andn (rs2Of w) (rs1Of w) (rdOf w))
  | 6 => .ok (.sll (rs2Of w) (rs1Of w) (rdOf w))
  | 7 => .ok (.srl (rs2Of w) (rs1Of w) (rdOf w))
  | 8 => .ok (.sra (rs2Of w) (rs1Of w) (rdOf w))
  | 9 => .ok (.ror (rs2Of w) (rs1Of w) (rdOf w))
  | 10 => .ok (.slt (rs2Of w) (rs1Of w) (rdOf w))
  | 11 => .ok (.sltu (rs2Of w) (rs1Of w) (rdOf w))
  | 12 => .ok (.min (rs2Of w) (rs1Of w) (rdOf w))
  | 13 => .ok (.max (rs2Of w) (rs1Of w) (rdOf w))
  | 14 => .ok (.minu (rs2Of w) (rs1Of w) (rdOf w))
  | 15 => .ok (.maxu (rs2Of w) (rs1Of w) (rdOf w))
  | _ => .error .subOp

/-- Opcode byte 0x3B (spec/02 R38). -/
def rawMul (w : InstrWord) : Except DecodeError Instr :=
  match (f4Of w).toNat with
  | 0 => .ok (.mul (rs2Of w) (rs1Of w) (rdOf w))
  | 1 => .ok (.mulh (rs2Of w) (rs1Of w) (rdOf w))
  | 2 => .ok (.mulhu (rs2Of w) (rs1Of w) (rdOf w))
  | 3 => .ok (.mulhsu (rs2Of w) (rs1Of w) (rdOf w))
  | 4 => .ok (.div (rs2Of w) (rs1Of w) (rdOf w))
  | 5 => .ok (.divu (rs2Of w) (rs1Of w) (rdOf w))
  | 6 => .ok (.rem (rs2Of w) (rs1Of w) (rdOf w))
  | 7 => .ok (.remu (rs2Of w) (rs1Of w) (rdOf w))
  | _ => .error .subOp

/-- Opcode byte 0x3F (spec/02 R38). -/
def rawBit (w : InstrWord) : Except DecodeError Instr :=
  match (f4Of w).toNat with
  | 0 => .ok (.clz (rs1Of w) (rdOf w))
  | 1 => .ok (.ctz (rs1Of w) (rdOf w))
  | 2 => .ok (.cpop (rs1Of w) (rdOf w))
  | 3 => .ok (.sextb (rs1Of w) (rdOf w))
  | 4 => .ok (.sexth (rs1Of w) (rdOf w))
  | 5 => .ok (.sextw (rs1Of w) (rdOf w))
  | 6 => .ok (.zextw (rs1Of w) (rdOf w))
  | 7 => .ok (.bswap (rs1Of w) (rdOf w))
  | 8 => .ok (.bfx (rs2Of w) (rs1Of w) (rdOf w))
  | 9 => .ok (.bfxu (rs2Of w) (rs1Of w) (rdOf w))
  | 10 => .ok (.bfi (rs2Of w) (rs1Of w) (rdOf w))
  | _ => .error .subOp

/-- Opcode byte 0x43 (spec/02 R38). -/
def rawFltS (w : InstrWord) : Except DecodeError Instr :=
  match (f4Of w).toNat with
  | 0 => .ok (.faddS (rs2Of w) (rs1Of w) (rdOf w))
  | 1 => .ok (.fsubS (rs2Of w) (rs1Of w) (rdOf w))
  | 2 => .ok (.fmulS (rs2Of w) (rs1Of w) (rdOf w))
  | 3 => .ok (.fdivS (rs2Of w) (rs1Of w) (rdOf w))
  | 4 => .ok (.fminS (rs2Of w) (rs1Of w) (rdOf w))
  | 5 => .ok (.fmaxS (rs2Of w) (rs1Of w) (rdOf w))
  | 6 => .ok (.fsqrtS (rs1Of w) (rdOf w))
  | 7 =>
    match (rs2Of w).toNat with
    | 0 => .ok (.fcvtSI (rs1Of w) (rdOf w))
    | 1 => .ok (.fcvtSN (rs1Of w) (rdOf w))
    | 2 => .ok (.fcvtIS (rs1Of w) (rdOf w))
    | 3 => .ok (.fcvtNS (rs1Of w) (rdOf w))
    | 4 => .ok (.fcvtWS (rs1Of w) (rdOf w))
    | 5 => .ok (.fcvtNwS (rs1Of w) (rdOf w))
    | 6 => .ok (.fcvtSD (rs1Of w) (rdOf w))
    | 7 => .ok (.fcvtSB (rs1Of w) (rdOf w))
    | 8 => .ok (.fcvtBS (rs1Of w) (rdOf w))
    | _ => .error .subOp
  | 8 => .ok (.fclassS (rs1Of w) (rdOf w))
  | 9 => .ok (.feqS (rs2Of w) (rs1Of w) (rdOf w))
  | 10 => .ok (.fltS (rs2Of w) (rs1Of w) (rdOf w))
  | 11 => .ok (.fleS (rs2Of w) (rs1Of w) (rdOf w))
  | 12 => .ok (.ffmaS (rs2Of w) (rs1Of w) (rdOf w))
  | 13 => .ok (.ffmsS (rs2Of w) (rs1Of w) (rdOf w))
  | 14 => .ok (.fsgnjS (rs2Of w) (rs1Of w) (rdOf w))
  | _ => .error .subOp

/-- Opcode byte 0x47 (spec/02 R38). -/
noncomputable def rawFltD (w : InstrWord) : Except DecodeError Instr :=
  match (f4Of w).toNat with
  | 0 => .ok (.faddD (rs2Of w) (rs1Of w) (rdOf w))
  | 1 => .ok (.fsubD (rs2Of w) (rs1Of w) (rdOf w))
  | 2 => .ok (.fmulD (rs2Of w) (rs1Of w) (rdOf w))
  | 3 => .ok (.fdivD (rs2Of w) (rs1Of w) (rdOf w))
  | 4 => .ok (.fminD (rs2Of w) (rs1Of w) (rdOf w))
  | 5 => .ok (.fmaxD (rs2Of w) (rs1Of w) (rdOf w))
  | 6 => .ok (.fsqrtD (rs1Of w) (rdOf w))
  | 7 =>
    match (rs2Of w).toNat with
    | 0 => .ok (.fcvtDI (rs1Of w) (rdOf w))
    | 1 => .ok (.fcvtDN (rs1Of w) (rdOf w))
    | 2 => .ok (.fcvtID (rs1Of w) (rdOf w))
    | 3 => .ok (.fcvtND (rs1Of w) (rdOf w))
    | 4 => .ok (.fcvtWD (rs1Of w) (rdOf w))
    | 5 => .ok (.fcvtNwD (rs1Of w) (rdOf w))
    | 6 => .ok (.fcvtDS (rs1Of w) (rdOf w))
    | 7 => .ok (.fcvtDB (rs1Of w) (rdOf w))
    | 8 => .ok (.fcvtBD (rs1Of w) (rdOf w))
    | _ => .error .subOp
  | 8 => .ok (.fclassD (rs1Of w) (rdOf w))
  | 9 => .ok (.feqD (rs2Of w) (rs1Of w) (rdOf w))
  | 10 => .ok (.fltD (rs2Of w) (rs1Of w) (rdOf w))
  | 11 => .ok (.fleD (rs2Of w) (rs1Of w) (rdOf w))
  | 12 => .ok (.ffmaD (rs2Of w) (rs1Of w) (rdOf w))
  | 13 => .ok (.ffmsD (rs2Of w) (rs1Of w) (rdOf w))
  | 14 => .ok (.fsgnjD (rs2Of w) (rs1Of w) (rdOf w))
  | _ => .error .subOp

/-- Opcode byte 0x53 (spec/02 R38). -/
noncomputable def rawVop (w : InstrWord) : Except DecodeError Instr :=
  match (f4Of w).toNat with
  | 0 => .ok (.vadd ((rs2Of w).extractLsb' 4 3) ((rs2Of w).extractLsb' 0 4) ((rs1Of w).extractLsb' 4 3) ((rs1Of w).extractLsb' 0 4) ((rdOf w).extractLsb' 4 3) ((rdOf w).extractLsb' 0 4))
  | 1 => .ok (.vsub ((rs2Of w).extractLsb' 4 3) ((rs2Of w).extractLsb' 0 4) ((rs1Of w).extractLsb' 4 3) ((rs1Of w).extractLsb' 0 4) ((rdOf w).extractLsb' 4 3) ((rdOf w).extractLsb' 0 4))
  | 2 => .ok (.vmul ((rs2Of w).extractLsb' 4 3) ((rs2Of w).extractLsb' 0 4) ((rs1Of w).extractLsb' 4 3) ((rs1Of w).extractLsb' 0 4) ((rdOf w).extractLsb' 4 3) ((rdOf w).extractLsb' 0 4))
  | 3 => .ok (.vfma ((rs2Of w).extractLsb' 4 3) ((rs2Of w).extractLsb' 0 4) ((rs1Of w).extractLsb' 4 3) ((rs1Of w).extractLsb' 0 4) ((rdOf w).extractLsb' 4 3) ((rdOf w).extractLsb' 0 4))
  | 4 => .ok (.vfms ((rs2Of w).extractLsb' 4 3) ((rs2Of w).extractLsb' 0 4) ((rs1Of w).extractLsb' 4 3) ((rs1Of w).extractLsb' 0 4) ((rdOf w).extractLsb' 4 3) ((rdOf w).extractLsb' 0 4))
  | 5 => .ok (.vmin ((rs2Of w).extractLsb' 4 3) ((rs2Of w).extractLsb' 3 1) ((rs1Of w).extractLsb' 4 3) ((rs1Of w).extractLsb' 0 4) ((rdOf w).extractLsb' 4 3) ((rdOf w).extractLsb' 0 4))
  | 6 => .ok (.vmax ((rs2Of w).extractLsb' 4 3) ((rs2Of w).extractLsb' 3 1) ((rs1Of w).extractLsb' 4 3) ((rs1Of w).extractLsb' 0 4) ((rdOf w).extractLsb' 4 3) ((rdOf w).extractLsb' 0 4))
  | 7 => .ok (.vand ((rs2Of w).extractLsb' 4 3) ((rs2Of w).extractLsb' 3 1) ((rs1Of w).extractLsb' 4 3) ((rs1Of w).extractLsb' 0 4) ((rdOf w).extractLsb' 4 3) ((rdOf w).extractLsb' 0 4))
  | 8 => .ok (.vor ((rs2Of w).extractLsb' 4 3) ((rs2Of w).extractLsb' 3 1) ((rs1Of w).extractLsb' 4 3) ((rs1Of w).extractLsb' 0 4) ((rdOf w).extractLsb' 4 3) ((rdOf w).extractLsb' 0 4))
  | 9 => .ok (.vxor ((rs2Of w).extractLsb' 4 3) ((rs2Of w).extractLsb' 3 1) ((rs1Of w).extractLsb' 4 3) ((rs1Of w).extractLsb' 0 4) ((rdOf w).extractLsb' 4 3) ((rdOf w).extractLsb' 0 4))
  | 10 => .ok (.vshl ((rs2Of w).extractLsb' 4 3) ((rs2Of w).extractLsb' 3 1) ((rs2Of w).extractLsb' 2 1) ((rs1Of w).extractLsb' 4 3) ((rs1Of w).extractLsb' 0 4) ((rdOf w).extractLsb' 4 3) ((rdOf w).extractLsb' 0 4))
  | 11 => .ok (.vshr ((rs2Of w).extractLsb' 4 3) ((rs2Of w).extractLsb' 3 1) ((rs2Of w).extractLsb' 0 2) ((rs1Of w).extractLsb' 4 3) ((rs1Of w).extractLsb' 0 4) ((rdOf w).extractLsb' 4 3) ((rdOf w).extractLsb' 0 4))
  | 12 => .ok (.vcmp ((rs2Of w).extractLsb' 4 3) ((rs2Of w).extractLsb' 3 1) ((rs1Of w).extractLsb' 4 3) ((rs1Of w).extractLsb' 0 4) ((rdOf w).extractLsb' 0 4))
  | 13 => .ok (.vsel ((rs2Of w).extractLsb' 4 3) ((rs1Of w).extractLsb' 4 3) ((rdOf w).extractLsb' 4 3) ((rdOf w).extractLsb' 0 4))
  | 14 => .ok (.vred ((rs2Of w).extractLsb' 2 1) ((rs2Of w).extractLsb' 0 2) ((rs1Of w).extractLsb' 4 3) ((rs1Of w).extractLsb' 0 4) ((rdOf w).extractLsb' 4 3) ((rdOf w).extractLsb' 0 4))
  | 15 =>
    match ((rs2Of w).extractLsb' 0 4).toNat with
    | 0 => .ok (.vabs ((rs1Of w).extractLsb' 4 3) ((rdOf w).extractLsb' 4 3) ((rdOf w).extractLsb' 0 4))
    | 1 => .ok (.vneg ((rs1Of w).extractLsb' 4 3) ((rdOf w).extractLsb' 4 3) ((rdOf w).extractLsb' 0 4))
    | 2 => .ok (.vrcp ((rs1Of w).extractLsb' 4 3) ((rdOf w).extractLsb' 4 3) ((rdOf w).extractLsb' 0 4))
    | 3 => .ok (.vrsq ((rs1Of w).extractLsb' 4 3) ((rdOf w).extractLsb' 4 3) ((rdOf w).extractLsb' 0 4))
    | 4 => .ok (.vexp2 ((rs1Of w).extractLsb' 4 3) ((rdOf w).extractLsb' 4 3) ((rdOf w).extractLsb' 0 4))
    | 5 => .ok (.vlog2 ((rs1Of w).extractLsb' 4 3) ((rdOf w).extractLsb' 4 3) ((rdOf w).extractLsb' 0 4))
    | 6 => .ok (.vbcast ((rs1Of w).extractLsb' 4 3) ((rdOf w).extractLsb' 4 3) ((rdOf w).extractLsb' 0 4))
    | 7 => .ok (.vsqn ((rs1Of w).extractLsb' 4 3) ((rdOf w).extractLsb' 4 3) ((rdOf w).extractLsb' 0 4))
    | _ => .error .subOp
  | _ => .error .subOp

/-- Opcode byte 0x57 (spec/02 R38). -/
noncomputable def rawVcvt (w : InstrWord) : Except DecodeError Instr :=
  match (f4Of w).toNat with
  | 0 => .ok (.vcvt ((rs2Of w).extractLsb' 0 4) ((rs1Of w).extractLsb' 4 3) ((rs1Of w).extractLsb' 0 4) ((rdOf w).extractLsb' 4 3) ((rdOf w).extractLsb' 0 4))
  | 1 => .ok (.vdec ((rs2Of w).extractLsb' 0 4) ((rs1Of w).extractLsb' 4 3) ((rs1Of w).extractLsb' 0 4) ((rdOf w).extractLsb' 4 3) ((rdOf w).extractLsb' 0 4))
  | 2 => .ok (.venc ((rs2Of w).extractLsb' 3 1) ((rs1Of w).extractLsb' 4 3) ((rs1Of w).extractLsb' 0 4) ((rdOf w).extractLsb' 4 3))
  | 3 => .ok (.vunpk3 ((rs2Of w).extractLsb' 3 1) ((rs1Of w).extractLsb' 4 3) ((rs1Of w).extractLsb' 0 4) ((rdOf w).extractLsb' 4 3) ((rdOf w).extractLsb' 0 4))
  | 4 => .ok (.vaddsub ((rs2Of w).extractLsb' 4 3) ((rs2Of w).extractLsb' 0 4) ((rs1Of w).extractLsb' 4 3) ((rs1Of w).extractLsb' 0 4) ((rdOf w).extractLsb' 4 3) ((rdOf w).extractLsb' 0 4))
  | 5 => .ok (.vdot ((rs2Of w).extractLsb' 4 3) ((rs2Of w).extractLsb' 0 4) ((rs1Of w).extractLsb' 4 3) ((rs1Of w).extractLsb' 0 4) ((rdOf w).extractLsb' 4 3) ((rdOf w).extractLsb' 0 4))
  | 6 => .ok (.vperm ((rs2Of w).extractLsb' 4 3) ((rs2Of w).extractLsb' 3 1) ((rs1Of w).extractLsb' 4 3) ((rdOf w).extractLsb' 4 3) ((rdOf w).extractLsb' 0 4))
  | 7 => .ok (.vslide ((rs2Of w).extractLsb' 4 3) ((rs2Of w).extractLsb' 3 1) ((rs1Of w).extractLsb' 4 3) ((rdOf w).extractLsb' 4 3) ((rdOf w).extractLsb' 0 4))
  | 8 => .ok (.vmxs ((rs2Of w).extractLsb' 4 3) ((rs2Of w).extractLsb' 0 4) ((rs1Of w).extractLsb' 4 3) ((rs1Of w).extractLsb' 0 4) ((rdOf w).extractLsb' 4 3) ((rdOf w).extractLsb' 0 4))
  | _ => .error .subOp

/-- Opcode byte 0x5B (spec/02 R38). -/
noncomputable def rawSync (w : InstrWord) : Except DecodeError Instr :=
  match (f4Of w).toNat with
  | 0 => .ok (.barInit (rs2Of w) (rs1Of w) (rdOf w))
  | 1 => .ok (.barArrive ((rs2Of w).extractLsb' 0 3) (rs1Of w) (rdOf w))
  | 2 => .ok (.barWait ((rs2Of w).extractLsb' 0 3) (rs1Of w))
  | 3 => .ok (.barDrop ((rs2Of w).extractLsb' 0 3) (rs1Of w))
  | 4 => .ok (.monArm (rs1Of w) (rdOf w))
  | 5 => .ok (.monWait ((rs2Of w).extractLsb' 0 3) (rs1Of w) (rdOf w))
  | 6 => .ok (.monClr)
  | 7 => .ok (.waitc (rs2Of w) (rs1Of w) ((rdOf w).extractLsb' 0 3))
  | 8 => .ok (.waitm)
  | 9 => .ok (.putf (rs2Of w) (rs1Of w))
  | 10 => .ok (.takef (rs1Of w) (rdOf w))
  | 11 => .ok (.cmnRd ((rs2Of w).extractLsb' 0 3) (rdOf w))
  | 12 => .ok (.cmnWr ((rs2Of w).extractLsb' 0 3) (rs1Of w))
  | _ => .error .subOp

/-- Opcode byte 0x63 (spec/02 R38). -/
noncomputable def rawBranch (w : InstrWord) : Except DecodeError Instr :=
  match (f3sOf w).toNat with
  | 0 => .ok (.beq (f4Of w) (rs2Of w) (rs1Of w) (immLoOf w))
  | 1 => .ok (.bne (f4Of w) (rs2Of w) (rs1Of w) (immLoOf w))
  | 2 => .ok (.blt (f4Of w) (rs2Of w) (rs1Of w) (immLoOf w))
  | 3 => .ok (.bge (f4Of w) (rs2Of w) (rs1Of w) (immLoOf w))
  | 4 => .ok (.bltu (f4Of w) (rs2Of w) (rs1Of w) (immLoOf w))
  | 5 => .ok (.bgeu (f4Of w) (rs2Of w) (rs1Of w) (immLoOf w))
  | 6 =>
    match ((rs2Of w).extractLsb' 6 1).toNat with
    | 0 => .ok (.bp (f4Of w) ((rs2Of w).extractLsb' 0 5) (immLoOf w))
    | 1 => .ok (.bnp (f4Of w) ((rs2Of w).extractLsb' 0 5) (immLoOf w))
    | _ => .error .subOp
  | 7 => .ok (.brb (f4Of w) (rs1Of w) (immLoOf w))
  | _ => .error .subOp

/-- Opcode byte 0x67 (spec/02 R38). -/
noncomputable def rawJalr (w : InstrWord) : Except DecodeError Instr :=
  match (f3iOf w).toNat with
  | 0 => .ok (.jalr (immOf w) (rs1Of w) (rdOf w))
  | _ => .error .subOp

/-- Opcode byte 0x6F (spec/02 R38). -/
noncomputable def rawJal (w : InstrWord) : Except DecodeError Instr :=
  .ok (.jal (imm25Of w))

/-- Opcode byte 0x73 (spec/02 R38). -/
noncomputable def rawSystem (w : InstrWord) : Except DecodeError Instr :=
  match (f4Of w).toNat with
  | 0 => .ok (.trap (rs1Of w))
  | 1 => .ok (.eret)
  | 2 => .ok (.crr (rs2Of w) (rdOf w))
  | 3 => .ok (.crw (rs2Of w) (rs1Of w) (rdOf w))
  | 4 => .ok (.crs (rs2Of w) (rs1Of w) (rdOf w))
  | 5 => .ok (.crc (rs2Of w) (rs1Of w) (rdOf w))
  | 6 =>
    match (rs2Of w).toNat with
    | 0 => .ok (.feat (rs1Of w) (rdOf w))
    | 1 => .ok (.featO (rs1Of w) (rdOf w))
    | _ => .error .subOp
  | 7 => .ok (.castleHold (rdOf w))
  | 8 => .ok (.castleFree)
  | 9 => .ok (.halt)
  | 10 => .ok (.brk)
  | 11 => .ok (.kill (rs1Of w) (rdOf w))
  | 12 => .ok (.preempt (rs1Of w) (rdOf w))
  | 13 => .ok (.tlbInv (rs2Of w) (rs1Of w))
  | 14 => .ok (.idle (rdOf w))
  | _ => .error .subOp

/-- Opcode byte 0x7B (spec/02 R38). -/
noncomputable def rawThread (w : InstrWord) : Except DecodeError Instr :=
  match (f4Of w).toNat with
  | 0 => .ok (.spawn (rs2Of w) (rs1Of w) (rdOf w))
  | 1 => .ok (.spawnl (rs1Of w) (rdOf w))
  | 2 => .ok (.exit)
  | 3 => .ok (.yield)
  | 4 => .ok (.migrate (rs1Of w))
  | 5 => .ok (.tqEnq (rs1Of w) (rdOf w))
  | 6 => .ok (.tqDeq (rs1Of w) (rdOf w))
  | 7 => .ok (.depSet (rs2Of w) (rs1Of w) (rdOf w))
  | 8 => .ok (.depDec (rs1Of w) (rdOf w))
  | 9 =>
    match (rs2Of w).toNat with
    | 0 => .ok (.launch (rs1Of w) (rdOf w))
    | 1 => .ok (.launchW (rs1Of w) (rdOf w))
    | _ => .error .subOp
  | 10 => .ok (.iterInit (rs1Of w))
  | 11 => .ok (.iterNext ((rs2Of w).extractLsb' 0 5) (rdOf w))
  | 12 => .ok (.dqPush (rs2Of w) (rs1Of w) (rdOf w))
  | 13 => .ok (.dqPop (rdOf w))
  | 14 => .ok (.dqSplit (rs1Of w) (rdOf w))
  | 15 => .ok (.dqSteal (rdOf w))
  | _ => .error .subOp

/-- The instruction that a word's opcode byte and sub-op fields select, its other fields not yet checked. -/
noncomputable def rawDecode (w : InstrWord) : Except DecodeError Instr :=
  match (opOf w).toNat with
  | 0x03 => rawLoad w
  | 0x23 => rawStore w
  | 0x07 => rawVmem w
  | 0x0B => rawTensor w
  | 0x0F => rawOrd w
  | 0x13 => rawOpImm w
  | 0x17 => rawAddpc w
  | 0x1F => rawAddl w
  | 0x37 => rawLiu w
  | 0x1B => rawPred w
  | 0x2B => rawMessage w
  | 0x2F => rawAmo w
  | 0x33 => rawOp w
  | 0x3B => rawMul w
  | 0x3F => rawBit w
  | 0x43 => rawFltS w
  | 0x47 => rawFltD w
  | 0x53 => rawVop w
  | 0x57 => rawVcvt w
  | 0x5B => rawSync w
  | 0x63 => rawBranch w
  | 0x67 => rawJalr w
  | 0x6F => rawJal w
  | 0x73 => rawSystem w
  | 0x7B => rawThread w
  | v => if v % 4 = 3 then .error .major else .error .frame

/-! The word of each instruction (spec/02 R32, R38, R40: a reserved field is 0). -/

def wordLb (i : BitVec 8) (a : BitVec 7) (d : BitVec 7) : InstrWord := wordI 0#3 i a d 0x03#7
def wordLh (i : BitVec 8) (a : BitVec 7) (d : BitVec 7) : InstrWord := wordI 1#3 i a d 0x03#7
def wordLw (i : BitVec 8) (a : BitVec 7) (d : BitVec 7) : InstrWord := wordI 2#3 i a d 0x03#7
def wordLd (i : BitVec 8) (a : BitVec 7) (d : BitVec 7) : InstrWord := wordI 3#3 i a d 0x03#7
def wordLbu (i : BitVec 8) (a : BitVec 7) (d : BitVec 7) : InstrWord := wordI 4#3 i a d 0x03#7
def wordLhu (i : BitVec 8) (a : BitVec 7) (d : BitVec 7) : InstrWord := wordI 5#3 i a d 0x03#7
def wordLwu (i : BitVec 8) (a : BitVec 7) (d : BitVec 7) : InstrWord := wordI 6#3 i a d 0x03#7
def wordSb (i : BitVec 4) (b : BitVec 7) (a : BitVec 7) (j : BitVec 4) : InstrWord := wordS i b a j 0#3 0x23#7
def wordSh (i : BitVec 4) (b : BitVec 7) (a : BitVec 7) (j : BitVec 4) : InstrWord := wordS i b a j 1#3 0x23#7
def wordSw (i : BitVec 4) (b : BitVec 7) (a : BitVec 7) (j : BitVec 4) : InstrWord := wordS i b a j 2#3 0x23#7
def wordSd (i : BitVec 4) (b : BitVec 7) (a : BitVec 7) (j : BitVec 4) : InstrWord := wordS i b a j 3#3 0x23#7
def wordVld (a : BitVec 7) (k : BitVec 3) (t : BitVec 4) : InstrWord := wordR 0#4 0#7 a (k ++ t) 0x07#7
def wordVst (a : BitVec 7) (k : BitVec 3) (t : BitVec 4) : InstrWord := wordR 1#4 0#7 a (k ++ t) 0x07#7
def wordVlds (b : BitVec 7) (a : BitVec 7) (k : BitVec 3) (t : BitVec 4) : InstrWord := wordR 2#4 b a (k ++ t) 0x07#7
def wordVsts (b : BitVec 7) (a : BitVec 7) (k : BitVec 3) (t : BitVec 4) : InstrWord := wordR 3#4 b a (k ++ t) 0x07#7
def wordVldb (a : BitVec 7) (k : BitVec 3) (t : BitVec 4) : InstrWord := wordR 4#4 0#7 a (k ++ t) 0x07#7
def wordMxSubmit (a : BitVec 7) (d : BitVec 7) : InstrWord := wordR 0#4 0#7 a d 0x0B#7
def wordMxRun (a : BitVec 7) (d : BitVec 7) : InstrWord := wordR 1#4 0#7 a d 0x0B#7
def wordJobPoll (a : BitVec 7) (d : BitVec 7) : InstrWord := wordR 2#4 0#7 a d 0x0B#7
def wordJobWait (a : BitVec 7) (d : BitVec 7) : InstrWord := wordR 3#4 0#7 a d 0x0B#7
def wordJobCancel (a : BitVec 7) (d : BitVec 7) : InstrWord := wordR 4#4 0#7 a d 0x0B#7
def wordMxNorm (a : BitVec 7) (d : BitVec 7) : InstrWord := wordR 5#4 0#7 a d 0x0B#7
def wordMxXchg (a : BitVec 7) (d : BitVec 7) : InstrWord := wordR 6#4 0#7 a d 0x0B#7
def wordCpGo (a : BitVec 7) : InstrWord := wordR 7#4 0#7 a 0#7 0x0B#7
def wordCpWp (a : BitVec 7) (d : BitVec 7) : InstrWord := wordR 8#4 0#7 a d 0x0B#7
def wordVatInit (b : BitVec 7) (a : BitVec 7) (d : BitVec 7) : InstrWord := wordR 9#4 b a d 0x0B#7
def wordVatCvt (b : BitVec 7) (a : BitVec 7) (d : BitVec 7) : InstrWord := wordR 10#4 b a d 0x0B#7
def wordSeedSet (n : BitVec 4) (a : BitVec 7) : InstrWord := wordR 11#4 (0#3 ++ n) a 0#7 0x0B#7
def wordSeedGet (n : BitVec 4) (d : BitVec 7) : InstrWord := wordR 12#4 (0#3 ++ n) 0#7 d 0x0B#7
def wordSeedGetG (n : BitVec 4) (d : BitVec 7) : InstrWord := wordR 12#4 (0#3 ++ n) 1#7 d 0x0B#7
def wordFmtLd (a : BitVec 7) (d : BitVec 7) : InstrWord := wordR 13#4 0#7 a d 0x0B#7
def wordIxGo (a : BitVec 7) : InstrWord := wordR 14#4 0#7 a 0#7 0x0B#7
def wordIxResume (a : BitVec 7) : InstrWord := wordR 15#4 0#7 a 0#7 0x0B#7
def wordLdaD (s : BitVec 3) (a : BitVec 7) (d : BitVec 7) : InstrWord := wordR 0#4 (0#4 ++ s) a d 0x0F#7
def wordLdaW (s : BitVec 3) (a : BitVec 7) (d : BitVec 7) : InstrWord := wordR 1#4 (0#4 ++ s) a d 0x0F#7
def wordStlD (b : BitVec 7) (a : BitVec 7) (s : BitVec 3) : InstrWord := wordR 2#4 b a (0#4 ++ s) 0x0F#7
def wordStlW (b : BitVec 7) (a : BitVec 7) (s : BitVec 3) : InstrWord := wordR 3#4 b a (0#4 ++ s) 0x0F#7
def wordFence (k : BitVec 5) (s : BitVec 3) : InstrWord := wordR 4#4 0#7 (0#2 ++ k) (0#4 ++ s) 0x0F#7
def wordCflush (a : BitVec 7) : InstrWord := wordR 5#4 0#7 a 0#7 0x0F#7
def wordCinv (a : BitVec 7) : InstrWord := wordR 6#4 0#7 a 0#7 0x0F#7
def wordPref (a : BitVec 7) : InstrWord := wordR 7#4 0#7 a 0#7 0x0F#7
def wordSigrd (e : BitVec 2) (d : BitVec 7) : InstrWord := wordR 8#4 (0#5 ++ e) 0#7 d 0x0F#7
def wordAddi (i : BitVec 8) (a : BitVec 7) (d : BitVec 7) : InstrWord := wordI 0#3 i a d 0x13#7
def wordSlti (i : BitVec 8) (a : BitVec 7) (d : BitVec 7) : InstrWord := wordI 1#3 i a d 0x13#7
def wordSltiu (i : BitVec 8) (a : BitVec 7) (d : BitVec 7) : InstrWord := wordI 2#3 i a d 0x13#7
def wordXori (i : BitVec 8) (a : BitVec 7) (d : BitVec 7) : InstrWord := wordI 3#3 i a d 0x13#7
def wordOri (i : BitVec 8) (a : BitVec 7) (d : BitVec 7) : InstrWord := wordI 4#3 i a d 0x13#7
def wordAndi (i : BitVec 8) (a : BitVec 7) (d : BitVec 7) : InstrWord := wordI 5#3 i a d 0x13#7
def wordSlli (h : BitVec 6) (a : BitVec 7) (d : BitVec 7) : InstrWord := wordI 6#3 (0#2 ++ h) a d 0x13#7
def wordSrli (h : BitVec 6) (a : BitVec 7) (d : BitVec 7) : InstrWord := wordI 6#3 (1#2 ++ h) a d 0x13#7
def wordSrai (h : BitVec 6) (a : BitVec 7) (d : BitVec 7) : InstrWord := wordI 6#3 (2#2 ++ h) a d 0x13#7
def wordRori (h : BitVec 6) (a : BitVec 7) (d : BitVec 7) : InstrWord := wordI 6#3 (3#2 ++ h) a d 0x13#7
def wordAddpc (i : BitVec 18) (d : BitVec 7) : InstrWord := wordU i d 0x17#7
def wordAddl (i : BitVec 18) (d : BitVec 7) : InstrWord := wordU i d 0x1F#7
def wordLiu (i : BitVec 18) (d : BitVec 7) : InstrWord := wordU i d 0x37#7
def wordPeq (b : BitVec 7) (a : BitVec 7) (p : BitVec 5) : InstrWord := wordR 0#4 b a (0#2 ++ p) 0x1B#7
def wordPne (b : BitVec 7) (a : BitVec 7) (p : BitVec 5) : InstrWord := wordR 1#4 b a (0#2 ++ p) 0x1B#7
def wordPlt (b : BitVec 7) (a : BitVec 7) (p : BitVec 5) : InstrWord := wordR 2#4 b a (0#2 ++ p) 0x1B#7
def wordPge (b : BitVec 7) (a : BitVec 7) (p : BitVec 5) : InstrWord := wordR 3#4 b a (0#2 ++ p) 0x1B#7
def wordPltu (b : BitVec 7) (a : BitVec 7) (p : BitVec 5) : InstrWord := wordR 4#4 b a (0#2 ++ p) 0x1B#7
def wordPgeu (b : BitVec 7) (a : BitVec 7) (p : BitVec 5) : InstrWord := wordR 5#4 b a (0#2 ++ p) 0x1B#7
def wordPand (q : BitVec 5) (r : BitVec 5) (p : BitVec 5) : InstrWord := wordR 6#4 (0#2 ++ q) (0#2 ++ r) (0#2 ++ p) 0x1B#7
def wordPor (q : BitVec 5) (r : BitVec 5) (p : BitVec 5) : InstrWord := wordR 7#4 (0#2 ++ q) (0#2 ++ r) (0#2 ++ p) 0x1B#7
def wordPxor (q : BitVec 5) (r : BitVec 5) (p : BitVec 5) : InstrWord := wordR 8#4 (0#2 ++ q) (0#2 ++ r) (0#2 ++ p) 0x1B#7
def wordPnot (r : BitVec 5) (p : BitVec 5) : InstrWord := wordR 9#4 0#7 (0#2 ++ r) (0#2 ++ p) 0x1B#7
def wordMvp (r : BitVec 5) (d : BitVec 7) : InstrWord := wordR 10#4 0#7 (0#2 ++ r) d 0x1B#7
def wordMvnp (r : BitVec 5) (d : BitVec 7) : InstrWord := wordR 11#4 0#7 (0#2 ++ r) d 0x1B#7
def wordPrd (d : BitVec 7) : InstrWord := wordR 12#4 0#7 0#7 d 0x1B#7
def wordPwr (a : BitVec 7) : InstrWord := wordR 13#4 0#7 a 0#7 0x1B#7
def wordEpush (b : BitVec 7) (a : BitVec 7) (d : BitVec 7) : InstrWord := wordR 0#4 b a d 0x2B#7
def wordEpop (d : BitVec 7) : InstrWord := wordR 1#4 0#7 0#7 d 0x2B#7
def wordGrpPut (b : BitVec 7) (a : BitVec 7) (d : BitVec 7) : InstrWord := wordR 2#4 b a d 0x2B#7
def wordGrpGet (a : BitVec 7) (d : BitVec 7) : InstrWord := wordR 3#4 0#7 a d 0x2B#7
def wordMcst (b : BitVec 7) (a : BitVec 7) (d : BitVec 7) : InstrWord := wordR 4#4 b a d 0x2B#7
def wordLnkSend (b : BitVec 7) (a : BitVec 7) (d : BitVec 7) : InstrWord := wordR 5#4 b a d 0x2B#7
def wordLnkRecv (d : BitVec 7) : InstrWord := wordR 6#4 0#7 0#7 d 0x2B#7
def wordSeqRd (a : BitVec 7) (d : BitVec 7) : InstrWord := wordR 7#4 0#7 a d 0x2B#7
def wordMbSend (b : BitVec 7) (a : BitVec 7) : InstrWord := wordR 8#4 b a 120#7 0x2B#7
def wordMbPeek (d : BitVec 7) : InstrWord := wordR 9#4 0#7 0#7 d 0x2B#7
def wordMbCount (d : BitVec 7) : InstrWord := wordR 10#4 0#7 0#7 d 0x2B#7
def wordAmoAdd (b : BitVec 7) (a : BitVec 7) (d : BitVec 7) : InstrWord := wordR 0#4 b a d 0x2F#7
def wordAmoAnd (b : BitVec 7) (a : BitVec 7) (d : BitVec 7) : InstrWord := wordR 1#4 b a d 0x2F#7
def wordAmoOr (b : BitVec 7) (a : BitVec 7) (d : BitVec 7) : InstrWord := wordR 2#4 b a d 0x2F#7
def wordAmoXor (b : BitVec 7) (a : BitVec 7) (d : BitVec 7) : InstrWord := wordR 3#4 b a d 0x2F#7
def wordAmoMin (b : BitVec 7) (a : BitVec 7) (d : BitVec 7) : InstrWord := wordR 4#4 b a d 0x2F#7
def wordAmoMax (b : BitVec 7) (a : BitVec 7) (d : BitVec 7) : InstrWord := wordR 5#4 b a d 0x2F#7
def wordAmoMinu (b : BitVec 7) (a : BitVec 7) (d : BitVec 7) : InstrWord := wordR 6#4 b a d 0x2F#7
def wordAmoMaxu (b : BitVec 7) (a : BitVec 7) (d : BitVec 7) : InstrWord := wordR 7#4 b a d 0x2F#7
def wordAmoSwap (b : BitVec 7) (a : BitVec 7) (d : BitVec 7) : InstrWord := wordR 8#4 b a d 0x2F#7
def wordAmoCas (b : BitVec 7) (a : BitVec 7) (d : BitVec 7) : InstrWord := wordR 9#4 b a d 0x2F#7
def wordAmoFadd (b : BitVec 7) (a : BitVec 7) (d : BitVec 7) : InstrWord := wordR 10#4 b a d 0x2F#7
def wordRedAdd (b : BitVec 7) (a : BitVec 7) : InstrWord := wordR 11#4 b a 0#7 0x2F#7
def wordRedMin (b : BitVec 7) (a : BitVec 7) : InstrWord := wordR 12#4 b a 0#7 0x2F#7
def wordRedMax (b : BitVec 7) (a : BitVec 7) : InstrWord := wordR 13#4 b a 0#7 0x2F#7
def wordRedFadd (b : BitVec 7) (a : BitVec 7) : InstrWord := wordR 14#4 b a 0#7 0x2F#7
def wordRedVat (b : BitVec 7) (a : BitVec 7) (d : BitVec 7) : InstrWord := wordR 15#4 b a d 0x2F#7
def wordAdd (b : BitVec 7) (a : BitVec 7) (d : BitVec 7) : InstrWord := wordR 0#4 b a d 0x33#7
def wordSub (b : BitVec 7) (a : BitVec 7) (d : BitVec 7) : InstrWord := wordR 1#4 b a d 0x33#7
def wordAnd (b : BitVec 7) (a : BitVec 7) (d : BitVec 7) : InstrWord := wordR 2#4 b a d 0x33#7
def wordOr (b : BitVec 7) (a : BitVec 7) (d : BitVec 7) : InstrWord := wordR 3#4 b a d 0x33#7
def wordXor (b : BitVec 7) (a : BitVec 7) (d : BitVec 7) : InstrWord := wordR 4#4 b a d 0x33#7
def wordAndn (b : BitVec 7) (a : BitVec 7) (d : BitVec 7) : InstrWord := wordR 5#4 b a d 0x33#7
def wordSll (b : BitVec 7) (a : BitVec 7) (d : BitVec 7) : InstrWord := wordR 6#4 b a d 0x33#7
def wordSrl (b : BitVec 7) (a : BitVec 7) (d : BitVec 7) : InstrWord := wordR 7#4 b a d 0x33#7
def wordSra (b : BitVec 7) (a : BitVec 7) (d : BitVec 7) : InstrWord := wordR 8#4 b a d 0x33#7
def wordRor (b : BitVec 7) (a : BitVec 7) (d : BitVec 7) : InstrWord := wordR 9#4 b a d 0x33#7
def wordSlt (b : BitVec 7) (a : BitVec 7) (d : BitVec 7) : InstrWord := wordR 10#4 b a d 0x33#7
def wordSltu (b : BitVec 7) (a : BitVec 7) (d : BitVec 7) : InstrWord := wordR 11#4 b a d 0x33#7
def wordMin (b : BitVec 7) (a : BitVec 7) (d : BitVec 7) : InstrWord := wordR 12#4 b a d 0x33#7
def wordMax (b : BitVec 7) (a : BitVec 7) (d : BitVec 7) : InstrWord := wordR 13#4 b a d 0x33#7
def wordMinu (b : BitVec 7) (a : BitVec 7) (d : BitVec 7) : InstrWord := wordR 14#4 b a d 0x33#7
def wordMaxu (b : BitVec 7) (a : BitVec 7) (d : BitVec 7) : InstrWord := wordR 15#4 b a d 0x33#7
def wordMul (b : BitVec 7) (a : BitVec 7) (d : BitVec 7) : InstrWord := wordR 0#4 b a d 0x3B#7
def wordMulh (b : BitVec 7) (a : BitVec 7) (d : BitVec 7) : InstrWord := wordR 1#4 b a d 0x3B#7
def wordMulhu (b : BitVec 7) (a : BitVec 7) (d : BitVec 7) : InstrWord := wordR 2#4 b a d 0x3B#7
def wordMulhsu (b : BitVec 7) (a : BitVec 7) (d : BitVec 7) : InstrWord := wordR 3#4 b a d 0x3B#7
def wordDiv (b : BitVec 7) (a : BitVec 7) (d : BitVec 7) : InstrWord := wordR 4#4 b a d 0x3B#7
def wordDivu (b : BitVec 7) (a : BitVec 7) (d : BitVec 7) : InstrWord := wordR 5#4 b a d 0x3B#7
def wordRem (b : BitVec 7) (a : BitVec 7) (d : BitVec 7) : InstrWord := wordR 6#4 b a d 0x3B#7
def wordRemu (b : BitVec 7) (a : BitVec 7) (d : BitVec 7) : InstrWord := wordR 7#4 b a d 0x3B#7
def wordClz (a : BitVec 7) (d : BitVec 7) : InstrWord := wordR 0#4 0#7 a d 0x3F#7
def wordCtz (a : BitVec 7) (d : BitVec 7) : InstrWord := wordR 1#4 0#7 a d 0x3F#7
def wordCpop (a : BitVec 7) (d : BitVec 7) : InstrWord := wordR 2#4 0#7 a d 0x3F#7
def wordSextb (a : BitVec 7) (d : BitVec 7) : InstrWord := wordR 3#4 0#7 a d 0x3F#7
def wordSexth (a : BitVec 7) (d : BitVec 7) : InstrWord := wordR 4#4 0#7 a d 0x3F#7
def wordSextw (a : BitVec 7) (d : BitVec 7) : InstrWord := wordR 5#4 0#7 a d 0x3F#7
def wordZextw (a : BitVec 7) (d : BitVec 7) : InstrWord := wordR 6#4 0#7 a d 0x3F#7
def wordBswap (a : BitVec 7) (d : BitVec 7) : InstrWord := wordR 7#4 0#7 a d 0x3F#7
def wordBfx (b : BitVec 7) (a : BitVec 7) (d : BitVec 7) : InstrWord := wordR 8#4 b a d 0x3F#7
def wordBfxu (b : BitVec 7) (a : BitVec 7) (d : BitVec 7) : InstrWord := wordR 9#4 b a d 0x3F#7
def wordBfi (b : BitVec 7) (a : BitVec 7) (d : BitVec 7) : InstrWord := wordR 10#4 b a d 0x3F#7
def wordFaddS (b : BitVec 7) (a : BitVec 7) (d : BitVec 7) : InstrWord := wordR 0#4 b a d 0x43#7
def wordFsubS (b : BitVec 7) (a : BitVec 7) (d : BitVec 7) : InstrWord := wordR 1#4 b a d 0x43#7
def wordFmulS (b : BitVec 7) (a : BitVec 7) (d : BitVec 7) : InstrWord := wordR 2#4 b a d 0x43#7
def wordFdivS (b : BitVec 7) (a : BitVec 7) (d : BitVec 7) : InstrWord := wordR 3#4 b a d 0x43#7
def wordFminS (b : BitVec 7) (a : BitVec 7) (d : BitVec 7) : InstrWord := wordR 4#4 b a d 0x43#7
def wordFmaxS (b : BitVec 7) (a : BitVec 7) (d : BitVec 7) : InstrWord := wordR 5#4 b a d 0x43#7
def wordFsqrtS (a : BitVec 7) (d : BitVec 7) : InstrWord := wordR 6#4 0#7 a d 0x43#7
def wordFcvtSI (a : BitVec 7) (d : BitVec 7) : InstrWord := wordR 7#4 0#7 a d 0x43#7
def wordFcvtSN (a : BitVec 7) (d : BitVec 7) : InstrWord := wordR 7#4 1#7 a d 0x43#7
def wordFcvtIS (a : BitVec 7) (d : BitVec 7) : InstrWord := wordR 7#4 2#7 a d 0x43#7
def wordFcvtNS (a : BitVec 7) (d : BitVec 7) : InstrWord := wordR 7#4 3#7 a d 0x43#7
def wordFcvtWS (a : BitVec 7) (d : BitVec 7) : InstrWord := wordR 7#4 4#7 a d 0x43#7
def wordFcvtNwS (a : BitVec 7) (d : BitVec 7) : InstrWord := wordR 7#4 5#7 a d 0x43#7
def wordFcvtSD (a : BitVec 7) (d : BitVec 7) : InstrWord := wordR 7#4 6#7 a d 0x43#7
def wordFcvtSB (a : BitVec 7) (d : BitVec 7) : InstrWord := wordR 7#4 7#7 a d 0x43#7
def wordFcvtBS (a : BitVec 7) (d : BitVec 7) : InstrWord := wordR 7#4 8#7 a d 0x43#7
def wordFclassS (a : BitVec 7) (d : BitVec 7) : InstrWord := wordR 8#4 0#7 a d 0x43#7
def wordFeqS (b : BitVec 7) (a : BitVec 7) (d : BitVec 7) : InstrWord := wordR 9#4 b a d 0x43#7
def wordFltS (b : BitVec 7) (a : BitVec 7) (d : BitVec 7) : InstrWord := wordR 10#4 b a d 0x43#7
def wordFleS (b : BitVec 7) (a : BitVec 7) (d : BitVec 7) : InstrWord := wordR 11#4 b a d 0x43#7
def wordFfmaS (b : BitVec 7) (a : BitVec 7) (d : BitVec 7) : InstrWord := wordR 12#4 b a d 0x43#7
def wordFfmsS (b : BitVec 7) (a : BitVec 7) (d : BitVec 7) : InstrWord := wordR 13#4 b a d 0x43#7
def wordFsgnjS (b : BitVec 7) (a : BitVec 7) (d : BitVec 7) : InstrWord := wordR 14#4 b a d 0x43#7
def wordFaddD (b : BitVec 7) (a : BitVec 7) (d : BitVec 7) : InstrWord := wordR 0#4 b a d 0x47#7
def wordFsubD (b : BitVec 7) (a : BitVec 7) (d : BitVec 7) : InstrWord := wordR 1#4 b a d 0x47#7
def wordFmulD (b : BitVec 7) (a : BitVec 7) (d : BitVec 7) : InstrWord := wordR 2#4 b a d 0x47#7
def wordFdivD (b : BitVec 7) (a : BitVec 7) (d : BitVec 7) : InstrWord := wordR 3#4 b a d 0x47#7
def wordFminD (b : BitVec 7) (a : BitVec 7) (d : BitVec 7) : InstrWord := wordR 4#4 b a d 0x47#7
def wordFmaxD (b : BitVec 7) (a : BitVec 7) (d : BitVec 7) : InstrWord := wordR 5#4 b a d 0x47#7
def wordFsqrtD (a : BitVec 7) (d : BitVec 7) : InstrWord := wordR 6#4 0#7 a d 0x47#7
def wordFcvtDI (a : BitVec 7) (d : BitVec 7) : InstrWord := wordR 7#4 0#7 a d 0x47#7
def wordFcvtDN (a : BitVec 7) (d : BitVec 7) : InstrWord := wordR 7#4 1#7 a d 0x47#7
def wordFcvtID (a : BitVec 7) (d : BitVec 7) : InstrWord := wordR 7#4 2#7 a d 0x47#7
def wordFcvtND (a : BitVec 7) (d : BitVec 7) : InstrWord := wordR 7#4 3#7 a d 0x47#7
def wordFcvtWD (a : BitVec 7) (d : BitVec 7) : InstrWord := wordR 7#4 4#7 a d 0x47#7
def wordFcvtNwD (a : BitVec 7) (d : BitVec 7) : InstrWord := wordR 7#4 5#7 a d 0x47#7
def wordFcvtDS (a : BitVec 7) (d : BitVec 7) : InstrWord := wordR 7#4 6#7 a d 0x47#7
def wordFcvtDB (a : BitVec 7) (d : BitVec 7) : InstrWord := wordR 7#4 7#7 a d 0x47#7
def wordFcvtBD (a : BitVec 7) (d : BitVec 7) : InstrWord := wordR 7#4 8#7 a d 0x47#7
def wordFclassD (a : BitVec 7) (d : BitVec 7) : InstrWord := wordR 8#4 0#7 a d 0x47#7
def wordFeqD (b : BitVec 7) (a : BitVec 7) (d : BitVec 7) : InstrWord := wordR 9#4 b a d 0x47#7
def wordFltD (b : BitVec 7) (a : BitVec 7) (d : BitVec 7) : InstrWord := wordR 10#4 b a d 0x47#7
def wordFleD (b : BitVec 7) (a : BitVec 7) (d : BitVec 7) : InstrWord := wordR 11#4 b a d 0x47#7
def wordFfmaD (b : BitVec 7) (a : BitVec 7) (d : BitVec 7) : InstrWord := wordR 12#4 b a d 0x47#7
def wordFfmsD (b : BitVec 7) (a : BitVec 7) (d : BitVec 7) : InstrWord := wordR 13#4 b a d 0x47#7
def wordFsgnjD (b : BitVec 7) (a : BitVec 7) (d : BitVec 7) : InstrWord := wordR 14#4 b a d 0x47#7
def wordVadd (g : BitVec 3) (n : BitVec 4) (h : BitVec 3) (m : BitVec 4) (k : BitVec 3) (t : BitVec 4) : InstrWord := wordR 0#4 (g ++ n) (h ++ m) (k ++ t) 0x53#7
def wordVsub (g : BitVec 3) (n : BitVec 4) (h : BitVec 3) (m : BitVec 4) (k : BitVec 3) (t : BitVec 4) : InstrWord := wordR 1#4 (g ++ n) (h ++ m) (k ++ t) 0x53#7
def wordVmul (g : BitVec 3) (n : BitVec 4) (h : BitVec 3) (m : BitVec 4) (k : BitVec 3) (t : BitVec 4) : InstrWord := wordR 2#4 (g ++ n) (h ++ m) (k ++ t) 0x53#7
def wordVfma (g : BitVec 3) (n : BitVec 4) (h : BitVec 3) (m : BitVec 4) (k : BitVec 3) (t : BitVec 4) : InstrWord := wordR 3#4 (g ++ n) (h ++ m) (k ++ t) 0x53#7
def wordVfms (g : BitVec 3) (n : BitVec 4) (h : BitVec 3) (m : BitVec 4) (k : BitVec 3) (t : BitVec 4) : InstrWord := wordR 4#4 (g ++ n) (h ++ m) (k ++ t) 0x53#7
def wordVmin (g : BitVec 3) (x : BitVec 1) (h : BitVec 3) (m : BitVec 4) (k : BitVec 3) (t : BitVec 4) : InstrWord := wordR 5#4 (g ++ x ++ 0#3) (h ++ m) (k ++ t) 0x53#7
def wordVmax (g : BitVec 3) (x : BitVec 1) (h : BitVec 3) (m : BitVec 4) (k : BitVec 3) (t : BitVec 4) : InstrWord := wordR 6#4 (g ++ x ++ 0#3) (h ++ m) (k ++ t) 0x53#7
def wordVand (g : BitVec 3) (x : BitVec 1) (h : BitVec 3) (m : BitVec 4) (k : BitVec 3) (t : BitVec 4) : InstrWord := wordR 7#4 (g ++ x ++ 0#3) (h ++ m) (k ++ t) 0x53#7
def wordVor (g : BitVec 3) (x : BitVec 1) (h : BitVec 3) (m : BitVec 4) (k : BitVec 3) (t : BitVec 4) : InstrWord := wordR 8#4 (g ++ x ++ 0#3) (h ++ m) (k ++ t) 0x53#7
def wordVxor (g : BitVec 3) (x : BitVec 1) (h : BitVec 3) (m : BitVec 4) (k : BitVec 3) (t : BitVec 4) : InstrWord := wordR 9#4 (g ++ x ++ 0#3) (h ++ m) (k ++ t) 0x53#7
def wordVshl (g : BitVec 3) (x : BitVec 1) (y : BitVec 1) (h : BitVec 3) (m : BitVec 4) (k : BitVec 3) (t : BitVec 4) : InstrWord := wordR 10#4 (g ++ x ++ y ++ 0#2) (h ++ m) (k ++ t) 0x53#7
def wordVshr (g : BitVec 3) (x : BitVec 1) (r : BitVec 2) (h : BitVec 3) (m : BitVec 4) (k : BitVec 3) (t : BitVec 4) : InstrWord := wordR 11#4 (g ++ x ++ 0#1 ++ r) (h ++ m) (k ++ t) 0x53#7
def wordVcmp (g : BitVec 3) (x : BitVec 1) (h : BitVec 3) (m : BitVec 4) (t : BitVec 4) : InstrWord := wordR 12#4 (g ++ x ++ 0#3) (h ++ m) (0#3 ++ t) 0x53#7
def wordVsel (g : BitVec 3) (h : BitVec 3) (k : BitVec 3) (t : BitVec 4) : InstrWord := wordR 13#4 (g ++ 0#4) (h ++ 0#4) (k ++ t) 0x53#7
def wordVred (y : BitVec 1) (r : BitVec 2) (h : BitVec 3) (m : BitVec 4) (k : BitVec 3) (t : BitVec 4) : InstrWord := wordR 14#4 (0#4 ++ y ++ r) (h ++ m) (k ++ t) 0x53#7
def wordVabs (h : BitVec 3) (k : BitVec 3) (t : BitVec 4) : InstrWord := wordR 15#4 0#7 (h ++ 0#4) (k ++ t) 0x53#7
def wordVneg (h : BitVec 3) (k : BitVec 3) (t : BitVec 4) : InstrWord := wordR 15#4 1#7 (h ++ 0#4) (k ++ t) 0x53#7
def wordVrcp (h : BitVec 3) (k : BitVec 3) (t : BitVec 4) : InstrWord := wordR 15#4 2#7 (h ++ 0#4) (k ++ t) 0x53#7
def wordVrsq (h : BitVec 3) (k : BitVec 3) (t : BitVec 4) : InstrWord := wordR 15#4 3#7 (h ++ 0#4) (k ++ t) 0x53#7
def wordVexp2 (h : BitVec 3) (k : BitVec 3) (t : BitVec 4) : InstrWord := wordR 15#4 4#7 (h ++ 0#4) (k ++ t) 0x53#7
def wordVlog2 (h : BitVec 3) (k : BitVec 3) (t : BitVec 4) : InstrWord := wordR 15#4 5#7 (h ++ 0#4) (k ++ t) 0x53#7
def wordVbcast (h : BitVec 3) (k : BitVec 3) (t : BitVec 4) : InstrWord := wordR 15#4 6#7 (h ++ 0#4) (k ++ t) 0x53#7
def wordVsqn (h : BitVec 3) (k : BitVec 3) (t : BitVec 4) : InstrWord := wordR 15#4 7#7 (h ++ 0#4) (k ++ t) 0x53#7
def wordVcvt (n : BitVec 4) (h : BitVec 3) (m : BitVec 4) (k : BitVec 3) (t : BitVec 4) : InstrWord := wordR 0#4 (0#3 ++ n) (h ++ m) (k ++ t) 0x57#7
def wordVdec (n : BitVec 4) (h : BitVec 3) (m : BitVec 4) (k : BitVec 3) (t : BitVec 4) : InstrWord := wordR 1#4 (0#3 ++ n) (h ++ m) (k ++ t) 0x57#7
def wordVenc (x : BitVec 1) (h : BitVec 3) (m : BitVec 4) (k : BitVec 3) : InstrWord := wordR 2#4 (0#3 ++ x ++ 0#3) (h ++ m) (k ++ 14#4) 0x57#7
def wordVunpk3 (x : BitVec 1) (h : BitVec 3) (m : BitVec 4) (k : BitVec 3) (t : BitVec 4) : InstrWord := wordR 3#4 (0#3 ++ x ++ 0#3) (h ++ m) (k ++ t) 0x57#7
def wordVaddsub (g : BitVec 3) (n : BitVec 4) (h : BitVec 3) (m : BitVec 4) (k : BitVec 3) (t : BitVec 4) : InstrWord := wordR 4#4 (g ++ n) (h ++ m) (k ++ t) 0x57#7
def wordVdot (g : BitVec 3) (n : BitVec 4) (h : BitVec 3) (m : BitVec 4) (k : BitVec 3) (t : BitVec 4) : InstrWord := wordR 5#4 (g ++ n) (h ++ m) (k ++ t) 0x57#7
def wordVperm (g : BitVec 3) (x : BitVec 1) (h : BitVec 3) (k : BitVec 3) (t : BitVec 4) : InstrWord := wordR 6#4 (g ++ x ++ 0#3) (h ++ 0#4) (k ++ t) 0x57#7
def wordVslide (g : BitVec 3) (x : BitVec 1) (h : BitVec 3) (k : BitVec 3) (t : BitVec 4) : InstrWord := wordR 7#4 (g ++ x ++ 0#3) (h ++ 0#4) (k ++ t) 0x57#7
def wordVmxs (g : BitVec 3) (n : BitVec 4) (h : BitVec 3) (m : BitVec 4) (k : BitVec 3) (t : BitVec 4) : InstrWord := wordR 8#4 (g ++ n) (h ++ m) (k ++ t) 0x57#7
def wordBarInit (b : BitVec 7) (a : BitVec 7) (d : BitVec 7) : InstrWord := wordR 0#4 b a d 0x5B#7
def wordBarArrive (s : BitVec 3) (a : BitVec 7) (d : BitVec 7) : InstrWord := wordR 1#4 (0#4 ++ s) a d 0x5B#7
def wordBarWait (s : BitVec 3) (a : BitVec 7) : InstrWord := wordR 2#4 (0#4 ++ s) a 0#7 0x5B#7
def wordBarDrop (s : BitVec 3) (a : BitVec 7) : InstrWord := wordR 3#4 (0#4 ++ s) a 0#7 0x5B#7
def wordMonArm (a : BitVec 7) (d : BitVec 7) : InstrWord := wordR 4#4 0#7 a d 0x5B#7
def wordMonWait (s : BitVec 3) (a : BitVec 7) (d : BitVec 7) : InstrWord := wordR 5#4 (0#4 ++ s) a d 0x5B#7
def wordMonClr : InstrWord := wordR 6#4 0#7 0#7 0#7 0x5B#7
def wordWaitc (b : BitVec 7) (a : BitVec 7) (s : BitVec 3) : InstrWord := wordR 7#4 b a (0#4 ++ s) 0x5B#7
def wordWaitm : InstrWord := wordR 8#4 0#7 0#7 0#7 0x5B#7
def wordPutf (b : BitVec 7) (a : BitVec 7) : InstrWord := wordR 9#4 b a 0#7 0x5B#7
def wordTakef (a : BitVec 7) (d : BitVec 7) : InstrWord := wordR 10#4 0#7 a d 0x5B#7
def wordCmnRd (c : BitVec 3) (d : BitVec 7) : InstrWord := wordR 11#4 (0#4 ++ c) 0#7 d 0x5B#7
def wordCmnWr (c : BitVec 3) (a : BitVec 7) : InstrWord := wordR 12#4 (0#4 ++ c) a 0#7 0x5B#7
def wordBeq (i : BitVec 4) (b : BitVec 7) (a : BitVec 7) (j : BitVec 4) : InstrWord := wordS i b a j 0#3 0x63#7
def wordBne (i : BitVec 4) (b : BitVec 7) (a : BitVec 7) (j : BitVec 4) : InstrWord := wordS i b a j 1#3 0x63#7
def wordBlt (i : BitVec 4) (b : BitVec 7) (a : BitVec 7) (j : BitVec 4) : InstrWord := wordS i b a j 2#3 0x63#7
def wordBge (i : BitVec 4) (b : BitVec 7) (a : BitVec 7) (j : BitVec 4) : InstrWord := wordS i b a j 3#3 0x63#7
def wordBltu (i : BitVec 4) (b : BitVec 7) (a : BitVec 7) (j : BitVec 4) : InstrWord := wordS i b a j 4#3 0x63#7
def wordBgeu (i : BitVec 4) (b : BitVec 7) (a : BitVec 7) (j : BitVec 4) : InstrWord := wordS i b a j 5#3 0x63#7
def wordBp (i : BitVec 4) (p : BitVec 5) (j : BitVec 4) : InstrWord := wordS i (0#2 ++ p) 0#7 j 6#3 0x63#7
def wordBnp (i : BitVec 4) (p : BitVec 5) (j : BitVec 4) : InstrWord := wordS i (2#2 ++ p) 0#7 j 6#3 0x63#7
def wordBrb (i : BitVec 4) (a : BitVec 7) (j : BitVec 4) : InstrWord := wordS i 0#7 a j 7#3 0x63#7
def wordJalr (i : BitVec 8) (a : BitVec 7) (d : BitVec 7) : InstrWord := wordI 0#3 i a d 0x67#7
def wordJal (i : BitVec 25) : InstrWord := wordJ i 0x6F#7
def wordTrap (a : BitVec 7) : InstrWord := wordR 0#4 0#7 a 0#7 0x73#7
def wordEret : InstrWord := wordR 1#4 0#7 0#7 0#7 0x73#7
def wordCrr (c : BitVec 7) (d : BitVec 7) : InstrWord := wordR 2#4 c 0#7 d 0x73#7
def wordCrw (c : BitVec 7) (a : BitVec 7) (d : BitVec 7) : InstrWord := wordR 3#4 c a d 0x73#7
def wordCrs (c : BitVec 7) (a : BitVec 7) (d : BitVec 7) : InstrWord := wordR 4#4 c a d 0x73#7
def wordCrc (c : BitVec 7) (a : BitVec 7) (d : BitVec 7) : InstrWord := wordR 5#4 c a d 0x73#7
def wordFeat (a : BitVec 7) (d : BitVec 7) : InstrWord := wordR 6#4 0#7 a d 0x73#7
def wordFeatO (a : BitVec 7) (d : BitVec 7) : InstrWord := wordR 6#4 1#7 a d 0x73#7
def wordCastleHold (d : BitVec 7) : InstrWord := wordR 7#4 0#7 0#7 d 0x73#7
def wordCastleFree : InstrWord := wordR 8#4 0#7 0#7 0#7 0x73#7
def wordHalt : InstrWord := wordR 9#4 0#7 0#7 0#7 0x73#7
def wordBrk : InstrWord := wordR 10#4 0#7 0#7 0#7 0x73#7
def wordKill (a : BitVec 7) (d : BitVec 7) : InstrWord := wordR 11#4 0#7 a d 0x73#7
def wordPreempt (a : BitVec 7) (d : BitVec 7) : InstrWord := wordR 12#4 0#7 a d 0x73#7
def wordTlbInv (b : BitVec 7) (a : BitVec 7) : InstrWord := wordR 13#4 b a 0#7 0x73#7
def wordIdle (d : BitVec 7) : InstrWord := wordR 14#4 0#7 0#7 d 0x73#7
def wordSpawn (b : BitVec 7) (a : BitVec 7) (d : BitVec 7) : InstrWord := wordR 0#4 b a d 0x7B#7
def wordSpawnl (a : BitVec 7) (d : BitVec 7) : InstrWord := wordR 1#4 0#7 a d 0x7B#7
def wordExit : InstrWord := wordR 2#4 0#7 0#7 0#7 0x7B#7
def wordYield : InstrWord := wordR 3#4 0#7 0#7 0#7 0x7B#7
def wordMigrate (a : BitVec 7) : InstrWord := wordR 4#4 0#7 a 0#7 0x7B#7
def wordTqEnq (a : BitVec 7) (d : BitVec 7) : InstrWord := wordR 5#4 0#7 a d 0x7B#7
def wordTqDeq (a : BitVec 7) (d : BitVec 7) : InstrWord := wordR 6#4 0#7 a d 0x7B#7
def wordDepSet (b : BitVec 7) (a : BitVec 7) (d : BitVec 7) : InstrWord := wordR 7#4 b a d 0x7B#7
def wordDepDec (a : BitVec 7) (d : BitVec 7) : InstrWord := wordR 8#4 0#7 a d 0x7B#7
def wordLaunch (a : BitVec 7) (d : BitVec 7) : InstrWord := wordR 9#4 0#7 a d 0x7B#7
def wordLaunchW (a : BitVec 7) (d : BitVec 7) : InstrWord := wordR 9#4 1#7 a d 0x7B#7
def wordIterInit (a : BitVec 7) : InstrWord := wordR 10#4 0#7 a 0#7 0x7B#7
def wordIterNext (p : BitVec 5) (d : BitVec 7) : InstrWord := wordR 11#4 (0#2 ++ p) 0#7 d 0x7B#7
def wordDqPush (b : BitVec 7) (a : BitVec 7) (d : BitVec 7) : InstrWord := wordR 12#4 b a d 0x7B#7
def wordDqPop (d : BitVec 7) : InstrWord := wordR 13#4 0#7 0#7 d 0x7B#7
def wordDqSplit (a : BitVec 7) (d : BitVec 7) : InstrWord := wordR 14#4 0#7 a d 0x7B#7
def wordDqSteal (d : BitVec 7) : InstrWord := wordR 15#4 0#7 0#7 d 0x7B#7

/-- The word of an instruction (spec/02 R32, R38). A step without a word has none; its arm answers the all-zero word,
which is never an instruction (R39). -/
def encode (i : Instr) : InstrWord :=
  match i with
  | .lb i a d => wordLb i a d
  | .lh i a d => wordLh i a d
  | .lw i a d => wordLw i a d
  | .ld i a d => wordLd i a d
  | .lbu i a d => wordLbu i a d
  | .lhu i a d => wordLhu i a d
  | .lwu i a d => wordLwu i a d
  | .sb i b a j => wordSb i b a j
  | .sh i b a j => wordSh i b a j
  | .sw i b a j => wordSw i b a j
  | .sd i b a j => wordSd i b a j
  | .vld a k t => wordVld a k t
  | .vst a k t => wordVst a k t
  | .vlds b a k t => wordVlds b a k t
  | .vsts b a k t => wordVsts b a k t
  | .vldb a k t => wordVldb a k t
  | .mxSubmit a d => wordMxSubmit a d
  | .mxRun a d => wordMxRun a d
  | .jobPoll a d => wordJobPoll a d
  | .jobWait a d => wordJobWait a d
  | .jobCancel a d => wordJobCancel a d
  | .mxNorm a d => wordMxNorm a d
  | .mxXchg a d => wordMxXchg a d
  | .cpGo a => wordCpGo a
  | .cpWp a d => wordCpWp a d
  | .vatInit b a d => wordVatInit b a d
  | .vatCvt b a d => wordVatCvt b a d
  | .seedSet n a => wordSeedSet n a
  | .seedGet n d => wordSeedGet n d
  | .seedGetG n d => wordSeedGetG n d
  | .fmtLd a d => wordFmtLd a d
  | .ixGo a => wordIxGo a
  | .ixResume a => wordIxResume a
  | .ldaD s a d => wordLdaD s a d
  | .ldaW s a d => wordLdaW s a d
  | .stlD b a s => wordStlD b a s
  | .stlW b a s => wordStlW b a s
  | .fence k s => wordFence k s
  | .cflush a => wordCflush a
  | .cinv a => wordCinv a
  | .pref a => wordPref a
  | .sigrd e d => wordSigrd e d
  | .addi i a d => wordAddi i a d
  | .slti i a d => wordSlti i a d
  | .sltiu i a d => wordSltiu i a d
  | .xori i a d => wordXori i a d
  | .ori i a d => wordOri i a d
  | .andi i a d => wordAndi i a d
  | .slli h a d => wordSlli h a d
  | .srli h a d => wordSrli h a d
  | .srai h a d => wordSrai h a d
  | .rori h a d => wordRori h a d
  | .addpc i d => wordAddpc i d
  | .addl i d => wordAddl i d
  | .liu i d => wordLiu i d
  | .peq b a p => wordPeq b a p
  | .pne b a p => wordPne b a p
  | .plt b a p => wordPlt b a p
  | .pge b a p => wordPge b a p
  | .pltu b a p => wordPltu b a p
  | .pgeu b a p => wordPgeu b a p
  | .pand q r p => wordPand q r p
  | .por q r p => wordPor q r p
  | .pxor q r p => wordPxor q r p
  | .pnot r p => wordPnot r p
  | .mvp r d => wordMvp r d
  | .mvnp r d => wordMvnp r d
  | .prd d => wordPrd d
  | .pwr a => wordPwr a
  | .epush b a d => wordEpush b a d
  | .epop d => wordEpop d
  | .grpPut b a d => wordGrpPut b a d
  | .grpGet a d => wordGrpGet a d
  | .mcst b a d => wordMcst b a d
  | .lnkSend b a d => wordLnkSend b a d
  | .lnkRecv d => wordLnkRecv d
  | .seqRd a d => wordSeqRd a d
  | .mbSend b a => wordMbSend b a
  | .mbPeek d => wordMbPeek d
  | .mbCount d => wordMbCount d
  | .amoAdd b a d => wordAmoAdd b a d
  | .amoAnd b a d => wordAmoAnd b a d
  | .amoOr b a d => wordAmoOr b a d
  | .amoXor b a d => wordAmoXor b a d
  | .amoMin b a d => wordAmoMin b a d
  | .amoMax b a d => wordAmoMax b a d
  | .amoMinu b a d => wordAmoMinu b a d
  | .amoMaxu b a d => wordAmoMaxu b a d
  | .amoSwap b a d => wordAmoSwap b a d
  | .amoCas b a d => wordAmoCas b a d
  | .amoFadd b a d => wordAmoFadd b a d
  | .redAdd b a => wordRedAdd b a
  | .redMin b a => wordRedMin b a
  | .redMax b a => wordRedMax b a
  | .redFadd b a => wordRedFadd b a
  | .redVat b a d => wordRedVat b a d
  | .add b a d => wordAdd b a d
  | .sub b a d => wordSub b a d
  | .and b a d => wordAnd b a d
  | .or b a d => wordOr b a d
  | .xor b a d => wordXor b a d
  | .andn b a d => wordAndn b a d
  | .sll b a d => wordSll b a d
  | .srl b a d => wordSrl b a d
  | .sra b a d => wordSra b a d
  | .ror b a d => wordRor b a d
  | .slt b a d => wordSlt b a d
  | .sltu b a d => wordSltu b a d
  | .min b a d => wordMin b a d
  | .max b a d => wordMax b a d
  | .minu b a d => wordMinu b a d
  | .maxu b a d => wordMaxu b a d
  | .mul b a d => wordMul b a d
  | .mulh b a d => wordMulh b a d
  | .mulhu b a d => wordMulhu b a d
  | .mulhsu b a d => wordMulhsu b a d
  | .div b a d => wordDiv b a d
  | .divu b a d => wordDivu b a d
  | .rem b a d => wordRem b a d
  | .remu b a d => wordRemu b a d
  | .clz a d => wordClz a d
  | .ctz a d => wordCtz a d
  | .cpop a d => wordCpop a d
  | .sextb a d => wordSextb a d
  | .sexth a d => wordSexth a d
  | .sextw a d => wordSextw a d
  | .zextw a d => wordZextw a d
  | .bswap a d => wordBswap a d
  | .bfx b a d => wordBfx b a d
  | .bfxu b a d => wordBfxu b a d
  | .bfi b a d => wordBfi b a d
  | .faddS b a d => wordFaddS b a d
  | .fsubS b a d => wordFsubS b a d
  | .fmulS b a d => wordFmulS b a d
  | .fdivS b a d => wordFdivS b a d
  | .fminS b a d => wordFminS b a d
  | .fmaxS b a d => wordFmaxS b a d
  | .fsqrtS a d => wordFsqrtS a d
  | .fcvtSI a d => wordFcvtSI a d
  | .fcvtSN a d => wordFcvtSN a d
  | .fcvtIS a d => wordFcvtIS a d
  | .fcvtNS a d => wordFcvtNS a d
  | .fcvtWS a d => wordFcvtWS a d
  | .fcvtNwS a d => wordFcvtNwS a d
  | .fcvtSD a d => wordFcvtSD a d
  | .fcvtSB a d => wordFcvtSB a d
  | .fcvtBS a d => wordFcvtBS a d
  | .fclassS a d => wordFclassS a d
  | .feqS b a d => wordFeqS b a d
  | .fltS b a d => wordFltS b a d
  | .fleS b a d => wordFleS b a d
  | .ffmaS b a d => wordFfmaS b a d
  | .ffmsS b a d => wordFfmsS b a d
  | .fsgnjS b a d => wordFsgnjS b a d
  | .faddD b a d => wordFaddD b a d
  | .fsubD b a d => wordFsubD b a d
  | .fmulD b a d => wordFmulD b a d
  | .fdivD b a d => wordFdivD b a d
  | .fminD b a d => wordFminD b a d
  | .fmaxD b a d => wordFmaxD b a d
  | .fsqrtD a d => wordFsqrtD a d
  | .fcvtDI a d => wordFcvtDI a d
  | .fcvtDN a d => wordFcvtDN a d
  | .fcvtID a d => wordFcvtID a d
  | .fcvtND a d => wordFcvtND a d
  | .fcvtWD a d => wordFcvtWD a d
  | .fcvtNwD a d => wordFcvtNwD a d
  | .fcvtDS a d => wordFcvtDS a d
  | .fcvtDB a d => wordFcvtDB a d
  | .fcvtBD a d => wordFcvtBD a d
  | .fclassD a d => wordFclassD a d
  | .feqD b a d => wordFeqD b a d
  | .fltD b a d => wordFltD b a d
  | .fleD b a d => wordFleD b a d
  | .ffmaD b a d => wordFfmaD b a d
  | .ffmsD b a d => wordFfmsD b a d
  | .fsgnjD b a d => wordFsgnjD b a d
  | .vadd g n h m k t => wordVadd g n h m k t
  | .vsub g n h m k t => wordVsub g n h m k t
  | .vmul g n h m k t => wordVmul g n h m k t
  | .vfma g n h m k t => wordVfma g n h m k t
  | .vfms g n h m k t => wordVfms g n h m k t
  | .vmin g x h m k t => wordVmin g x h m k t
  | .vmax g x h m k t => wordVmax g x h m k t
  | .vand g x h m k t => wordVand g x h m k t
  | .vor g x h m k t => wordVor g x h m k t
  | .vxor g x h m k t => wordVxor g x h m k t
  | .vshl g x y h m k t => wordVshl g x y h m k t
  | .vshr g x r h m k t => wordVshr g x r h m k t
  | .vcmp g x h m t => wordVcmp g x h m t
  | .vsel g h k t => wordVsel g h k t
  | .vred y r h m k t => wordVred y r h m k t
  | .vabs h k t => wordVabs h k t
  | .vneg h k t => wordVneg h k t
  | .vrcp h k t => wordVrcp h k t
  | .vrsq h k t => wordVrsq h k t
  | .vexp2 h k t => wordVexp2 h k t
  | .vlog2 h k t => wordVlog2 h k t
  | .vbcast h k t => wordVbcast h k t
  | .vsqn h k t => wordVsqn h k t
  | .vcvt n h m k t => wordVcvt n h m k t
  | .vdec n h m k t => wordVdec n h m k t
  | .venc x h m k => wordVenc x h m k
  | .vunpk3 x h m k t => wordVunpk3 x h m k t
  | .vaddsub g n h m k t => wordVaddsub g n h m k t
  | .vdot g n h m k t => wordVdot g n h m k t
  | .vperm g x h k t => wordVperm g x h k t
  | .vslide g x h k t => wordVslide g x h k t
  | .vmxs g n h m k t => wordVmxs g n h m k t
  | .barInit b a d => wordBarInit b a d
  | .barArrive s a d => wordBarArrive s a d
  | .barWait s a => wordBarWait s a
  | .barDrop s a => wordBarDrop s a
  | .monArm a d => wordMonArm a d
  | .monWait s a d => wordMonWait s a d
  | .monClr => wordMonClr
  | .waitc b a s => wordWaitc b a s
  | .waitm => wordWaitm
  | .putf b a => wordPutf b a
  | .takef a d => wordTakef a d
  | .cmnRd c d => wordCmnRd c d
  | .cmnWr c a => wordCmnWr c a
  | .beq i b a j => wordBeq i b a j
  | .bne i b a j => wordBne i b a j
  | .blt i b a j => wordBlt i b a j
  | .bge i b a j => wordBge i b a j
  | .bltu i b a j => wordBltu i b a j
  | .bgeu i b a j => wordBgeu i b a j
  | .bp i p j => wordBp i p j
  | .bnp i p j => wordBnp i p j
  | .brb i a j => wordBrb i a j
  | .jalr i a d => wordJalr i a d
  | .jal i => wordJal i
  | .trap a => wordTrap a
  | .eret => wordEret
  | .crr c d => wordCrr c d
  | .crw c a d => wordCrw c a d
  | .crs c a d => wordCrs c a d
  | .crc c a d => wordCrc c a d
  | .feat a d => wordFeat a d
  | .featO a d => wordFeatO a d
  | .castleHold d => wordCastleHold d
  | .castleFree => wordCastleFree
  | .halt => wordHalt
  | .brk => wordBrk
  | .kill a d => wordKill a d
  | .preempt a d => wordPreempt a d
  | .tlbInv b a => wordTlbInv b a
  | .idle d => wordIdle d
  | .spawn b a d => wordSpawn b a d
  | .spawnl a d => wordSpawnl a d
  | .exit => wordExit
  | .yield => wordYield
  | .migrate a => wordMigrate a
  | .tqEnq a d => wordTqEnq a d
  | .tqDeq a d => wordTqDeq a d
  | .depSet b a d => wordDepSet b a d
  | .depDec a d => wordDepDec a d
  | .launch a d => wordLaunch a d
  | .launchW a d => wordLaunchW a d
  | .iterInit a => wordIterInit a
  | .iterNext p d => wordIterNext p d
  | .dqPush b a d => wordDqPush b a d
  | .dqPop d => wordDqPop d
  | .dqSplit a d => wordDqSplit a d
  | .dqSteal d => wordDqSteal d
  | .wheelBoundary .. | .accessReply .. | .pageTableWalk .. | .faultRetry .. | .faultDeliver .. | .refreshDue ..
  | .postponedRefresh .. | .sweep | .sweepCoreStep .. | .sweepClear | .migrationPacketArrival .. | .migrationRetry ..
  | .proxy .. | .proxyReply .. | .remoteUpdate .. | .clusterSchedulerPass .. | .packetPromotion .. | .stealRequest ..
  | .stealRoundWait .. | .pendingLaunchMove .. | .dependencyDecrement .. | .taskRetirement .. | .mailboxDelivery .. | .portElementArrival ..
  | .monitorNotice .. | .monWaitTimeout .. | .copyBeat .. | .copyCompletion .. | .indexStep .. | .matrixJobStart ..
  | .tileFetch .. | .kGroup .. | .tileWriteBack .. | .jobEnd .. | .engineClockGate .. | .engineWakeGrant ..
  | .engineWakeReady .. | .engineYield .. | .rindNormJob .. | .pressFormation .. | .pressRound .. | .preemptionRequest ..
  | .haltComplete .. | .resume .. | .eviction .. | .restore .. | .kernelKillRequest .. | .killComplete ..
  | .frozenThreadRestart .. | .coreDrain .. | .clusterRestore .. | .swapDue .. | .swapPrepare .. | .swapExchange ..
  | .swapResume .. | .holdExpiry .. | .swapDeferralLimit .. | .securityAlarm .. | .alarmpolWrite .. | .powerGood
  | .clusterResetRelease .. | .bootStage .. | .measurementExtend .. | .sqtailWrite .. | .faccept0Write .. | .bar2Read ..
  | .bar2Write .. | .attestationRequest .. | .hubRegisterWrite .. | .thermalThrottle .. | .throttleRelease .. | .flitError ..
  | .mcstStamping .. | .mcstApplication .. | .multicastSkip .. | .combinePacketArrival .. | .slotFreeNotice .. | .resultPacketArrival ..
  | .scalarStepCompletion .. | .holdNotice .. | .resumeNotice .. | .linkFailure .. | .treeReform .. | .illegalInstruction ..
  | .instructionFetchFault .. | .haltedThreadResume .. | .faccept1Write .. | .provisioning => 0

/-- The instruction of a word, or why it encodes none (spec/02 R38 to R46). -/
noncomputable def decode (w : InstrWord) : Except DecodeError Instr :=
  match rawDecode w with
  | .error e => .error e
  | .ok i =>
    if encode i = w then
      if WellFormed i then .ok i else .error .field
    else .error .reserved

/-- The bytes of a word in memory, lowest address first (spec/00 R3). -/
def wordBytes (w : InstrWord) : List Byte :=
  [w.extractLsb' 0 8, w.extractLsb' 8 8, w.extractLsb' 16 8, w.extractLsb' 24 8]

/-- The word of four bytes in memory order. -/
def wordOfBytes (b : List Byte) : InstrWord :=
  (b.getD 3 0) ++ (b.getD 2 0) ++ (b.getD 1 0) ++ (b.getD 0 0)

/-- The instruction that the decoder reads from an instruction whose bits are w. -/
noncomputable def decodeTableWord (_nbits w : Nat) : Option Instr :=
  match decode (wordOfBytes (wordBytes (BitVec.ofNat 32 w))) with
  | .ok i => some i
  | .error _ => none

end Sys2Proof
end

