-- ==== Sys2Proof/Config.lean ====
section
/-! DEFINITION. What is fixed for the machine: the counts of spec/00 R1, and the free values, which nothing
in Lean can evaluate (DESIGN CHOICE, log 3, log 8). -/

namespace Sys2Proof.Config

/-- Cores in the package (spec/00 R1). -/
def cores : Nat := 1024

/-- Clusters in the package (spec/00 R1). -/
def clusters : Nat := 128

/-- Compute dies (spec/00 R1). -/
def dies : Nat := 4

/-- Bytes of HBM4E: 384 GiB (spec/10 R220). -/
def hbmBytes : Nat := 384 * 2 ^ 30

/-- The free value of the n-th occurrence of an unspecified value (spec/00 R5), its low bits taken by the
reader. It has no value that a proof could see (DESIGN CHOICE, log 3). -/
opaque freeValue : Nat → BitVec 64

/-- Cores of the control cluster (spec/00 R1), whose firmware the spec gives only by what it does (DESIGN CHOICE, log 8). -/
def controlCores : Nat := 8

/-- The vendor's public key, the digest of which is fused into the hub (spec/25 R441); each device's own (DESIGN CHOICE, log 8). -/
opaque vendorKey : Option (Nat × Nat)

/-- The public keys that the host trusts to sign a bundle (spec/25 R447); its own choice (DESIGN CHOICE, log 8). -/
opaque hostTrusts : Option (Nat × Nat) → Bool

/-- The private identity key of each provisioning, and the nonce of a signature (spec/25 R450); free (DESIGN CHOICE, log 8). -/
opaque identityKey : Nat → Nat
opaque nonce : Nat → Nat

/-- Digests of the firmware images that the kernel installs at core start, the copy thread's (0) and the link thread's (1) (spec/25
R442; DESIGN CHOICE, log 8). -/
opaque firmware : Nat → BitVec 256

/-- The fused rollback counter (spec/25 R441); each device's own (DESIGN CHOICE, log 8). -/
opaque rollbackCounter : Nat

/-- Address of the copy thread's code, installed by the kernel (spec/13 R281; DESIGN CHOICE, log 8). -/
opaque copyThreadEntry : BitVec 64

/-- Address of the link thread's code, installed by the kernel (spec/22 R415; DESIGN CHOICE, log 8). -/
opaque linkThreadEntry : BitVec 64

/-- Where the submission ring stands in host memory, and how many packets it holds (spec/25 R440; DESIGN CHOICE, log 8). -/
opaque ringBase : Nat
opaque ringEntries : Nat

/-- The same for the completion ring and its entries. -/
opaque completionBase : Nat
opaque completionEntries : Nat

/-- Local combine buffers of a group at a node beyond the first (spec/23 R433; DESIGN CHOICE, log 8). -/
opaque moreBuffers : Nat → Nat

/-- The devices that are members of a group, and the device ids of this node's children in a group at a tree generation, which the
kernel plans and no entry of the group table names (spec/22 R407, R408, R419; DESIGN CHOICE, log 8). -/
opaque members : Nat → List Nat
opaque children : Nat → Nat → List Nat

end Sys2Proof.Config
end

