-- ==== Sys2Proof/Machine/State.lean ====
section
/-! DEFINITION. The state of one SPN-1024 package, as plain data: threads, cores, clusters, dies, hub, memory,
and what waits to happen. INVENTORY.md, under '## State', names the rule of each field. -/

namespace Sys2Proof.Machine

/-- A table from numbers to entries; an entry that is not listed is the table's default. -/
abbrev Tab (α : Type) := List (Nat × α)

/-- Bytes by address in canonical form (DESIGN CHOICE, log 7). -/
abbrev Memory := List Host.Cell

/-- Privilege mode (spec/01 R29). -/
inductive Mode where
  | user
  | supervisor
  deriving DecidableEq, Repr

/-- Where the bytes of a translated access stand: a core's banks (spec/10 R217), a home slice of HBM4E (R221), the MX
storage behind an alias page (R234), or another device or the host (R224). -/
inductive Place where
  | window (core addr : Nat)
  | home (pa : Nat)
  | mx (frame view : Nat) (e5m2 : Bool)
  | remote (space pa : Nat)
  deriving DecidableEq, Repr

/-- A translated access: its address, its place and the fields of its leaf (spec/10 R222, R227). -/
structure Target where
  va : VAddr
  place : Place
  attr : BitVec 2
  pinc : BitVec 10
  normed : Bool
  sync : Bool
  deriving DecidableEq, Repr

/-- What an access asks of its page (spec/10 R227), and whether it is of a kind that the local window region refuses (R218). -/
structure Need where
  r : Bool := false
  w : Bool := false
  x : Bool := false
  noWindow : Bool := false
  deriving DecidableEq, Repr

/-- The kind of access that a fault record lists (spec/10 R230), as its page permissions tell them apart. -/
inductive AccessKind where
  | read
  | write
  | readWrite
  | fetch
  /-- MIGRATE, which asks no permission. -/
  | none
  deriving DecidableEq, Repr

def Need.kind (n : Need) : AccessKind :=
  if n.x then .fetch else if n.r && n.w then .readWrite else if n.w then .write else if n.r then .read else .none

/-- What translation answers (spec/10 R229). -/
inductive Xlate where
  | ok (t : Target)
  /-- Not in the core TLB (R231). -/
  | miss
  | window
  | access
  | page
  /-- The walk would read where nothing stands (R220). -/
  | hole
  deriving DecidableEq, Repr

/-- What a page walk answers (spec/10 R226 to R228). -/
inductive Walk where
  | leaf (base size : Nat) (entry : BitVec 64) (kind : BitVec 2)
  | access
  | page
  | hole
  deriving DecidableEq, Repr

/-- A memory access that waits for its home's reply (spec/04 R97, spec/05 R117, spec/12 R261 R262). -/
inductive Pend where
  /-- A scalar load of size bytes into register number rd; the flags say whether it bypasses the cache and whether it is an
  acquire of cluster scope or wider. -/
  | load (t : Target) (size : Nat) (signed : Bool) (rd : Nat) (bypass acquire : Bool)
  /-- A scalar store; the flags say whether it bypasses the cache, and with which signature a release store enters the table. -/
  | store (t : Target) (size : Nat) (data : Word) (bypass : Bool) (release : Option (BitVec 512))
  /-- A vector load of lanes of size bytes into a group: the lanes still to read, those read, and the lowest poisoned byte met. -/
  | vload (ts : List (Nat × Target)) (got : Tab Nat) (bad : Option VAddr) (size group : Nat) (broadcast bypass : Bool)
  /-- A vector store: the lanes still to write. -/
  | vstore (ts : List (Target × BitVec 32)) (size : Nat) (bypass : Bool)
  /-- A read of a vat element for VAT.CVT with its control word (spec/16 R356). -/
  | vatRead (t : Target) (rd : Nat) (control : Word)
  /-- FMT.LD's read of a table at an offset, over the runs of its translation (spec/16 R359). -/
  | tableRead (l : List (Target × Nat)) (off : Word) (rd : Nat)
  /-- The effect is made; only the reply is outstanding (spec/09 R190, spec/12 R264). The flag says that LATC records the wait. -/
  | done (latc : Bool)
  deriving DecidableEq, Repr

/-- What a thread that finds no room waits for (spec/07 R142): an entry of a cluster's pending-launch store, room in its core's
link queue, in the receive side that one of its ports faces, in an instance's mailbox, in an engine's queue of a cluster, a scalar
step of a group or a combine buffer of one, the end of a pin, or what the link thread waits for. -/
inductive Room where
  | entry (cluster : Nat)
  | lnk
  | port (number : Nat)
  | mail (inst : Nat)
  | copy (cluster : Nat)
  | index (cluster : Nat)
  | job (cluster : Nat)
  | step (group : Nat)
  | buffer (group : Nat)
  | pin
  | link
  deriving DecidableEq, Repr

/-- Why a thread is parked, with the operands that its completion needs (spec/07 R142). -/
inductive Wait where
  /-- The home's reply. -/
  | access (p : Pend)
  /-- A page walk for a kind of access (spec/10 R231). -/
  | walk (va : VAddr) (kind : AccessKind)
  /-- The kernel's answer to a fault record (spec/10 R230). -/
  | fault (record : Nat)
  /-- The reply to an AMO proxy (spec/11 R254). -/
  | proxy (rd : Nat)
  /-- MX.RUN, until the job ends. -/
  | jobRun (id : BitVec 16) (rd : Nat)
  /-- JOB.WAIT, until the job ends or is gone. -/
  | jobWait (id : BitVec 16) (rd : Nat)
  /-- A mailbox message for the slot. -/
  | mail
  /-- MON.WAIT, with the cycles of its timeout still to count (0 for none), its scope and the core of its issue, where the scope is
  measured (spec/00 R9). -/
  | monitor (rd : Nat) (timeout : Nat) (scope : BitVec 3) (core : Nat)
  /-- IDLE. -/
  | idle (rd : Nat)
  /-- BAR.ARRIVE or BAR.DROP waits out the open phase. -/
  | barrierOpen (barrier : Nat)
  /-- BAR.WAIT on a phase. -/
  | barrier (barrier : Nat) (phase : BitVec 32) (scope : BitVec 3)
  /-- WAITC on a doubleword. -/
  | counter (t : Target) (target : Word) (scope : BitVec 3)
  /-- A full queue, store or port; the instruction issues again when there is room. -/
  | room (what : Room)
  /-- An empty port, by its register number; the instruction issues again when an element is there. -/
  | element (port : Nat)
  /-- A release or EXIT that waits for the thread's REDs (spec/11 R245, spec/09 R194). -/
  | reds
  /-- PUTF, whose request stands in the order of its register but not yet in a backing. -/
  | request
  /-- TAKEF on an empty request register; 8 is the copy thread's wait for any register (spec/13 R281). -/
  | requestEmpty (register : Nat)
  /-- A migration packet refused by a full queue (spec/07 R154). -/
  | migration (home : Nat)
  /-- MX.XCHG in the press with this key. -/
  | press (key : Nat) (rd : Nat)
  /-- CASTLE.HOLD waits for the swap that is due. -/
  | swap
  /-- MCST, until stamped and, at a member, applied: the stamp once it is known. -/
  | stamp (group : Nat) (rd : Nat) (stamped : Option (BitVec 32))
  /-- GRP.GET of a step not yet completed. -/
  | step (group : Nat) (stepNo : BitVec 32) (rd : Nat)
  /-- TLB.INV waits for accesses that translated through dropped entries: of threads, by core and slot, and packets, by serial. -/
  | invalidate (accesses : List (Nat × Nat)) (packets : List Nat)
  deriving DecidableEq, Repr

/-- The state of a slot (spec/07 R137). -/
inductive SlotState where
  | free
  /-- Ready since a cycle of its core; a thread that yielded stands behind the others of that cycle (spec/09 R195). -/
  | ready (since : Nat) (behind : Bool)
  /-- Holds a wheel position since the boundary at a cycle. -/
  | seated (position since : Nat)
  | parked (why : Wait)
  | frozen
  /-- Halted by pre-emption, with the wait it kept. -/
  | halted (why : Option Wait)
  /-- Stopped by HALT (spec/19 R394). -/
  | stopped
  deriving DecidableEq, Repr

/-- An armed monitor: the first byte of a 128-byte block, its triggered bit, and a notice from outside the scope that has
not arrived yet (spec/09 R209, R210). -/
structure Monitor where
  place : Place
  triggered : Bool
  noticed : Bool := false
  deriving DecidableEq, Repr

/-- A RED that is sent and not yet performed: the home core and the bytes it touches (spec/12 R271). -/
structure PendingRed where
  home : Nat
  place : Place
  size : Nat
  serial : Nat
  deriving DecidableEq, Repr

/-- A TLB entry (spec/10 R231): the page's space, first offset, size and leaf, and the KIND of its space. -/
structure TlbEntry where
  space : BitVec 8
  base : Nat
  size : Nat
  leaf : BitVec 64
  kind : BitVec 2
  deriving DecidableEq, Repr

/-- A migration packet (spec/07 R154, spec/11 R254), with the core and slot that sent it and, for one from another device, that
device (spec/22 R406); 0 for this one. -/
structure MigPacket where
  kind : Nat
  inst : Nat
  pw : BitVec 40
  pc : Word
  g : List Word
  core : Nat
  slot : Nat
  target : Option Target
  serial : Nat
  device : Nat := 0
  deriving DecidableEq, Repr

/-- A thread's context (spec/01 R12, spec/18 R367, spec/09 R202 R209). -/
structure Thread where
  st : SlotState := .free
  /-- Which thread it is, of all that have been started. -/
  id : Nat := 0
  light : Bool := false
  inst : Nat := 0
  alloc : Nat := 0
  block : Nat := 0
  regs : Tab Word := []
  pw : Word := 1
  pc : Word := 0
  mode : Mode := .user
  frm : BitVec 2 := 0
  fflags : BitVec 5 := 0
  rrlo : BitVec 7 := 0
  rrsz : BitVec 7 := 0
  rrb : BitVec 7 := 0
  latc : BitVec 32 := 0
  vxf : BitVec 7 := 0
  trapen : Bool := false
  vsrc : BitVec 37 := 0
  fmtp : Word := 0
  sclp : Word := 0
  tvec : Word := 0
  tepc : Word := 0
  tval : Word := 0
  tcause : BitVec 5 := 0
  fspace : BitVec 8 := 0
  pm : Bool := false
  inh : Bool := false
  tscr : Word := 0
  fetcher : Option VAddr := none
  cur : Nat := 0
  stop : Nat := 0
  /-- Extents e0, e1, e2 of the nest that the fetcher's chunk was claimed from (spec/07 R161). -/
  ext : Word := 0
  monitors : List Monitor := []
  /-- Fresh marks of the registers (spec/11 R250). -/
  fresh : BitVec 128 := 0
  /-- Fresh marks of the predicates, SPACE at bit 0, and of the rotating-region registers: the chains of spec/08 R172. -/
  freshP : BitVec 32 := 0
  freshRR : BitVec 3 := 0
  reds : List PendingRed := []
  /-- The cycle at which the access that the thread waits for was first issued. -/
  issued : Option Nat := none
  /-- The cycle at which that thread last woke. -/
  woke : Option Nat := none
  /-- The signature with which a WAITC or a BAR.WAIT was satisfied, for its acquire when it completes (spec/09 R208 R211). -/
  granted : Option (BitVec 512) := none
  /-- The cycle of its last wake from MON.WAIT, with the register and the cause written then (spec/09 R210). -/
  cause : Option (Nat × Nat × Nat) := none
  /-- The cycle at which the thread's castling hold was made. -/
  hold : Option Nat := none
  /-- Issues that its present instruction has forfeited in a row, and the banks that it was refused (spec/07 R143). -/
  forfeits : Nat := 0
  wants : List Nat := []
  /-- Translations that walks have brought for its present instruction (spec/10 R231). -/
  walked : List TlbEntry := []
  /-- The latest filling of a sector that it has read from a cache (DEDUCED, log 59). -/
  seen : Nat := 0
  /-- The proxy or remote update that a migrant's slot holds (spec/07 R145, spec/11 R254 R256). -/
  proxy : Option MigPacket := none
  /-- The device whose instance it belongs to; 0 for this one (spec/22 R406). -/
  device : Nat := 0
  deriving DecidableEq, Repr

/-- An element of a mesh-neighbour port with the signature that travels with it (spec/11 R248). -/
structure Element where
  value : Word
  signature : BitVec 512
  deriving DecidableEq, Repr

/-- An engine that holds a message until its delivery (spec/13 R279): a copy channel, or the slot of an index or of a matrix job. -/
inductive Sender where
  | channel (cluster chan : Nat)
  | index (cluster job : Nat)
  | engine (cluster entry : Nat)
  deriving DecidableEq, Repr

/-- A mailbox message with its tag (spec/13 R278, R279). -/
structure Message where
  inst : Nat
  slot : Nat
  body : BitVec 128
  half : Bool := false
  /-- The engine that sent it, held until its delivery (spec/13 R279). -/
  sender : Option Sender := none
  deriving DecidableEq, Repr

/-- A copy request in a request register or waiting for one (spec/09 R213), with the slot and the signature of its PUTF
(spec/11 R248). -/
structure Request where
  inst : Nat
  slot : Nat
  body : BitVec 256
  signature : BitVec 512
  deriving DecidableEq, Repr

/-- An element of the link command queue: a command with the instance that wrote it, or an event (spec/22 R415, spec/23 R434). -/
structure LnkElem where
  value : Word
  inst : Nat
  deriving DecidableEq, Repr

/-- A collective descriptor in the link thread's hands (spec/22 R416, R417): the pieces of each chunk that are stored, as
128 * first element + count, and the chunks whose results are complete and counted. -/
structure LinkJob where
  key : Nat
  addr : Word
  inst : Nat
  desc : BitVec 512 := 0
  accepted : Bool := false
  /-- Its SRC is sent: every contributor's, and for a broadcast the root's. -/
  sends : Bool := false
  received : Tab (List Nat) := []
  raised : List Nat := []
  skipped : Bool := false
  /-- Its step is lost (spec/22 R419). -/
  lost : Bool := false
  deriving DecidableEq, Repr

/-- What the link thread does next for a descriptor (spec/22 R416, R417). -/
inductive LinkWork where
  /-- Reads and checks the descriptor. -/
  | read (job : Nat)
  /-- Sends the elements of SRC from one on. -/
  | send (job elem : Nat)
  /-- Stores result bytes at an offset. -/
  | store (job off : Nat) (bytes : List Byte)
  /-- Adds 1 to a chunk's counter. -/
  | raise (job chunk : Nat)
  /-- Writes the completion record. -/
  | finish (job : Nat) (status : BitVec 4) (nonfinite : BitVec 32) (topo : BitVec 8)
  deriving DecidableEq, Repr

/-- A barrier (spec/09 R206), with the signatures of its open phase and of its completed ones (spec/11 R248). -/
structure Barrier where
  owner : Option Nat := none
  count : Nat := 0
  phase : BitVec 32 := 0
  mask : BitVec 64 := 0
  opening : BitVec 512 := 0
  completed : Tab (BitVec 512) := []
  deriving DecidableEq, Repr

/-- A line of a core's cache (spec/10 R219): four sectors, a dirty mark per byte, a poison mark per sector. When each sector was
filled, and which thread wrote the dirty bytes, serve the memory order (DEDUCED, log 59, log 60). -/
structure CacheLine where
  line : Nat
  way : Nat
  data : BitVec 1024
  valid : BitVec 4
  dirty : BitVec 128
  poison : BitVec 4
  cached : Bool
  used : Nat
  filled : Tab Nat := []
  writer : Nat := 0
  deriving DecidableEq, Repr

/-- A decode table: 256 F19 containers (spec/03 R71). -/
abbrev DecodeTable := List (BitVec 32)

/-- A seed slot (spec/15 R327). -/
structure Seed where
  value : Word := 0
  gen : BitVec 32 := 0
  deriving DecidableEq, Repr

/-- A write that threads other than the writer, named by its id, see 16 cycles later (spec/08 R180, spec/16 R358 R359). -/
structure Delayed (α : Type) where
  cycle : Nat
  writer : Option Nat
  index : Nat
  value : α
  deriving DecidableEq, Repr

/-- An AMO's reply: the old value and the line's S, or the poison that it met (spec/11 R254, spec/12 R269). -/
structure AmoReply where
  old : Word
  signature : BitVec 512
  poisoned : Bool
  place : VAddr
  deriving DecidableEq, Repr

/-- Bytes of a tensor from an offset on, and the physical address they stood at (spec/15 R325). -/
structure Seg where
  off : Nat
  pa : Nat
  len : Nat
  /-- Tensor bytes for each physical byte: 1, but 2 and 64 for the codes and the scale of an alias page's block. -/
  step : Nat := 1
  deriving DecidableEq, Repr

/-- A rind directory entry: its descriptor, and where MX.NORM found its elements on NORMED pages, its values and its state
words (spec/15 R323, R325). -/
structure RindEntry where
  desc : BitVec 512
  elems : List Seg
  values : List Seg
  states : List Seg
  deriving DecidableEq, Repr

/-- Rind blocks to recompute, by directory entry and block, and what the recompute of the first has read (spec/15 R325): the entry's
descriptor, GEN, and the values as the elements stood. -/
structure RindWork where
  todo : List (Nat × Nat) := []
  read : Option (BitVec 512 × Nat × List (BitVec 32)) := none
  deriving DecidableEq, Repr

/-- Who performs a write, as far as a monitor's scope asks (spec/00 R8, spec/09 R210). -/
inductive Agent where
  | core (c : Nat)
  | cluster (k : Nat)
  | hub
  | outside
  deriving DecidableEq, Repr

/-- Bytes of banks that hold unspecified values; held while a job keeps its blocks there, so that a store is lost or not
(spec/14 R305). -/
structure Unspecified where
  lo : Nat
  len : Nat
  held : Bool
  deriving DecidableEq, Repr

/-- A packet waiting in a task queue level (spec/07 R158). -/
structure QueuedPacket where
  packet : BitVec 512
  signature : BitVec 512
  since : Nat
  host : Bool
  deriving DecidableEq, Repr

/-- A core (spec/07 R136 to R151, spec/10 R216 to R219 R231, spec/11 R242, and the rules named by its fields). -/
structure Core where
  started : Bool := false
  cyc : Nat := 0
  boundaryDone : Bool := false
  slots : Tab Thread := []
  bankrole : BitVec 64 := 0
  sram : Memory := []
  /-- Poisoned 128-byte rows of the banks (spec/18 R371). -/
  badRows : List Nat := []
  unspecified : List Unspecified := []
  cache : List CacheLine := []
  uses : Nat := 0
  writeThrough : Bool := false
  noFill : List Nat := []
  tlb : List TlbEntry := []
  sigw : BitVec 512 := 0
  sighCur : BitVec 512 := 0
  sighPrev : BitVec 512 := 0
  sigSect : BitVec 32 := 0
  sigFull : BitVec 32 := 0
  common : Tab Word := []
  commonWrites : List (Delayed Word) := []
  seeds : Tab Seed := []
  seedWrites : List (Delayed Seed) := []
  fmt : Option DecodeTable := none
  fmtWrites : List (Delayed (Option DecodeTable)) := []
  mailbox : List Message := []
  requests : Tab Request := []
  /-- Requests that wait for a register, in PUTF order: those in a backing and those of parked PUTFs. -/
  backing : List (Nat × Request) := []
  /-- The register that the copy thread looks at first (spec/13 R281). -/
  nextRequest : Nat := 0
  barriers : Tab Barrier := []
  ports : Tab (List Element) := []
  /-- The send sides of its ports, by direction (spec/08 R177). -/
  sends : Tab (List Element) := []
  lnk : List LnkElem := []
  linkJobs : List LinkJob := []
  linkWork : List LinkWork := []
  results : List CombinePacket := []
  migIn : List MigPacket := []
  replies : Tab AmoReply := []
  eccCount : BitVec 32 := 0
  tvecd : Word := 0
  drained : Bool := false
  frozenSwap : Bool := false
  /-- Banks that copy beats and engine reads use in the present cycle, and the beats that a bank has deferred (spec/07 R143). -/
  busy : List Nat := []
  deferred : List Instr := []
  /-- The packet whose dispatch takes effect at its next wheel boundary (spec/07 R138 R167). -/
  arriving : Option QueuedPacket := none
  deriving DecidableEq, Repr

/-- The phase of a pair's swap (spec/18 R382). -/
inductive SwapPhase where
  | idle
  /-- Waits since a cycle of the pair's lower core. -/
  | waiting (since : Nat)
  | preparing (since : Nat)
  | exchanged
  deriving DecidableEq, Repr

/-- The castling state of a pair of cores, named by its lower core number (spec/18 R381 to R385). -/
structure Pair where
  phase : SwapPhase := .idle
  ignoreHolds : Bool := false
  /-- The instance for whose request the swap was abandoned; and the swap falls due at the next wheel boundary, because that
  request has completed. -/
  again : Option Nat := none
  retry : Bool := false
  /-- What reached the pair in the course of its swap, and waits for the end (spec/18 R382). -/
  held : List Instr := []
  deriving DecidableEq, Repr

/-- An entry of the pending-launch store (spec/07 R155, R156), with the signature its releases carry (spec/11 R248). -/
structure LaunchEntry where
  full : Bool := false
  gen : BitVec 8 := 0
  packet : BitVec 512 := 0
  counter : Nat := 0
  signature : BitVec 512 := 0
  deriving DecidableEq, Repr

/-- A copy command that a channel runs (spec/13 R284): bytes of the destination performed, source bytes consumed, source lines
read and still needed (a line's poison stands at 2^64 beyond it), and bytes produced and not yet written. -/
structure CopyRun where
  body : BitVec 256
  done : Nat := 0
  source : Nat := 0
  lines : Tab (BitVec 1024) := []
  pending : List Byte := []
  status : Option (BitVec 4) := none
  fault : Option Nat := none
  /-- Bytes of the beat last performed that DONE does not count yet, and the rind blocks that it marked (spec/15 R325). -/
  beaten : Nat := 0
  rind : RindWork := {}
  deriving DecidableEq, Repr

/-- A copy channel (spec/13 R284, R285). -/
structure Channel where
  run : Option CopyRun := none
  ctag : BitVec 16 := 0
  done : Nat := 0
  /-- TAG of the most recently completed command (spec/14 R309). -/
  last : Option (BitVec 16) := none
  /-- Where the bytes that DONE counts stand; none for a drive's. -/
  dst : Option VAddr := none
  deriving DecidableEq, Repr

/-- An index command in the queue (spec/16 R354). -/
structure IndexCommand where
  addr : VAddr
  inst : Nat
  resume : Bool
  deriving DecidableEq, Repr

/-- A running index job (spec/13 R292): its command, the descriptor once it is read, the first index not done, a fault of the
descriptor's read, and whether it has ended and waits for its message's delivery (R279). -/
structure IndexJob where
  cmd : IndexCommand
  desc : Option (BitVec 512) := none
  next : Nat := 0
  fault : Option Nat := none
  ended : Bool := false
  deriving DecidableEq, Repr

/-- A routing table entry (spec/13 R294). -/
structure Route where
  hits : BitVec 32 := 0
  rowB : BitVec 32 := 0
  rowA : BitVec 32 := 0
  nrepB : BitVec 2 := 0
  nrepA : BitVec 2 := 0
  pend : Bool := false
  sel : Bool := false
  deriving DecidableEq, Repr

/-- The state of a matrix job entry (spec/16 R347). -/
inductive JobState where
  | free
  | accepted
  | running
  | yielded
  | ended
  deriving DecidableEq, Repr

/-- The accumulating state of one output tile (spec/14 R302, R306, R311): accumulators and initial values row by row, and the
checksum sums of its rows and columns, with whether each is finite. -/
structure Tile where
  acc : List (BitVec 32) := []
  init : List (BitVec 32) := []
  prRow : List Dyadic := []
  prCol : List Dyadic := []
  magRow : List Dyadic := []
  magCol : List Dyadic := []
  finRow : List Bool := []
  finCol : List Bool := []
  deriving DecidableEq, Repr

/-- The draw of a sampled tile (spec/15 R330 to R332): each slice to compute with its count and factor, a tail slice's count
being 0; the state words first read, by address; the next slice, and the statistics of those computed. -/
structure Draw where
  slices : List (Nat × Nat × BitVec 32)
  words : List (Nat × Nat)
  next : Nat := 0
  dsum : List Dyadic := []
  qsum : Val := .fin false 0 0
  nonfinite : Bool := false
  deriving DecidableEq, Repr

/-- What the engine does with the current tile: exactly, with flags and what a rejected estimate recorded (VAR, NORM, NSLC), or
as an estimate (spec/15 R333). -/
inductive TileMode where
  | exact (flags : Nat) (rejected : Option (BitVec 32 × BitVec 32 × Nat))
  | sampled (d : Draw)
  deriving DecidableEq, Repr

/-- A matrix or MX.NORM job whose card or descriptor has been asked for (spec/14 R302, R314, R320; spec/16 R350). -/
structure JobRun where
  /-- The card, or a descriptor in its low 512 bits, once loaded. -/
  card : BitVec 1024 := 0
  loaded : Bool := false
  /-- The checks are made and the scale record or the save area is read. -/
  ready : Bool := false
  /-- Write-back scale, and the offsets of A's and B's block scales (spec/14 R300). -/
  scale : BitVec 32 := 0x3F800000#32
  ascale : Nat := 0
  bscale : Nat := 0
  /-- Nest indices i0 to i4 of the current step, and its next k-group; for an MX.NORM job, the next rind block. -/
  index : List Nat := [0, 0, 0, 0, 0]
  kg : Nat := 0
  ordinal : Nat := 0
  mode : Option TileMode := none
  tile : Tile := {}
  /-- Accumulators read back from a save area, and how many k-groups of the tile they already hold. -/
  restored : Option (List (BitVec 32)) := none
  skip : Nat := 0
  rex : Bool := false
  /-- The second execution mismatched. -/
  failed : Bool := false
  saved : Bool := false
  /-- C elements of the tile that are written. -/
  written : Nat := 0
  tiles : Nat := 0
  records : Nat := 0
  nreex : Nat := 0
  nrecomp : Nat := 0
  tflags : Nat := 0
  wflags : Nat := 0
  /-- The C bytes written: first offset and end. -/
  lo : Nat := 2 ^ 48
  hi : Nat := 0
  ftile : Nat := 0
  faddr : Nat := 0
  fault : Option Nat := none
  cancelled : Bool := false
  finish : Option (BitVec 4) := none
  /-- The job status record's write was delivered as a fault. -/
  noRecord : Bool := false
  /-- The mode of an exactly computed tile, kept across a yield (spec/15 R338). -/
  keep : Option TileMode := none
  /-- C overlaps the save area, so that the C bytes are unspecified (spec/17 R364). -/
  blurred : Bool := false
  /-- Rind blocks that the tile's write-back has marked; for an MX.NORM job GEN of each block as it was installed (spec/15 R325 R340). -/
  rind : RindWork := {}
  gens : List Nat := []
  /-- Lines of A, B and the metadata that the engine holds, by line of the card's space. -/
  lines : Tab (BitVec 1024) := []
  deriving DecidableEq, Repr

/-- An entry of the cluster job queue (spec/14 R297, spec/16 R347). -/
structure JobEntry where
  st : JobState := .free
  gen : BitVec 11 := 0
  norm : Bool := false
  addr : VAddr := ⟨0, 0⟩
  inst : Nat := 0
  order : Nat := 0
  code : BitVec 4 := 0
  spanLo : Nat := 0
  spanLen : Nat := 0
  seeds : Tab Seed := []
  table : Option DecodeTable := none
  sclp : Word := 0
  directory : Tab RindEntry := []
  run : Option JobRun := none
  stop : Bool := false
  /-- It had yielded when its cluster was withdrawn, so that this engine never restarts it (spec/14 R312). -/
  barred : Bool := false
  deriving DecidableEq, Repr

/-- The matrix engine's clock (spec/14 R319). -/
inductive EngineClock where
  | gated
  | requested
  | granted
  | ready
  deriving DecidableEq, Repr

/-- A participant of a press (spec/14 R316, R317). -/
structure Participant where
  key : Nat
  p : Nat
  core : Nat
  slot : Nat
  inst : Nat
  src : Nat
  dst : Nat
  frag : Nat
  tbl : Nat
  formed : Bool := false
  round : Nat := 0
  table : List Nat := []
  killed : Bool := false
  deriving DecidableEq, Repr

/-- A line of an L2 slice (spec/10 R223): its set, whether it is dirty with regard to HBM4E, and whether it is held
slice-pinned. -/
structure SliceLine where
  line : Nat
  set : Nat
  dirty : Bool
  pinned : Bool
  used : Nat
  deriving DecidableEq, Repr

/-- A slice's signature entry of a line (spec/11 R246). -/
structure SigEntry where
  line : Nat
  cur : BitVec 512
  prev : BitVec 512
  used : Nat
  deriving DecidableEq, Repr

/-- A pin of the tile fetch unit (spec/14 R304): the physical line, the set that holds it (spec/10 R223), and the line of the
card's space. -/
structure Pin where
  line : Nat
  set : Nat
  vline : Nat
  deriving DecidableEq, Repr

/-- A cluster (spec/07 R155 to R160, spec/13, spec/14). -/
structure Cluster where
  released : Bool := false
  store : Tab LaunchEntry := []
  queue : Tab (List QueuedPacket) := []
  wheels : Nat := 0
  stealNext : Nat := 0
  stealAsked : Bool := false
  stealWait : Option Nat := none
  sequence : Nat := 0
  withdrawn : Bool := false
  tlb : List TlbEntry := []
  sigs : List SigEntry := []
  sigUses : Nat := 0
  pins : List Pin := []
  lines : List SliceLine := []
  lineUses : Nat := 0
  eccCount : BitVec 32 := 0
  copyQueue : List (BitVec 256) := []
  channels : Tab Channel := []
  indexQueue : List IndexCommand := []
  indexJobs : Tab IndexJob := []
  routes : Tab Route := []
  jobs : Tab JobEntry := []
  running : Option Nat := none
  accepted : Nat := 0
  clock : EngineClock := .gated
  press : List Participant := []
  deriving DecidableEq, Repr

/-- A compute die (spec/18 R381, spec/25 R453, spec/14 R319). -/
structure Die where
  started : Bool := false
  castiv : BitVec 5 := 4
  /-- The kernel has written it since the die started (spec/25 R444). -/
  castivSet : Bool := false
  throttled : Bool := false
  wakes : List Nat := []
  deriving DecidableEq, Repr

/-- The life of a task instance (spec/18 R373 to R380). -/
inductive InstState where
  | live
  | halting
  | halted
  | evicted (image : Nat)
  | killing
  deriving DecidableEq, Repr

/-- A live task instance (spec/07 R147 to R165). -/
structure Inst where
  st : InstState := .live
  packet : BitVec 512
  core : Nat
  order : Nat
  scratch : List Nat
  operand : List Nat
  queues : BitVec 256
  deque : List (Word × Word × BitVec 512) := []
  host : Bool
  fmtp : Word
  /-- A light thread or an engine has written for the task, so that its retirement's signature is all ones (spec/11 R246 R248). -/
  foreign : Bool := false
  /-- Cores that have held its threads (spec/25 R440). -/
  cores : List Nat := []
  /-- The image that an eviction writes once the replies to its threads have come (spec/18 R374 R377). -/
  evictTo : Option Nat := none
  deriving DecidableEq, Repr

/-- An evicted instance (spec/18 R377): what its image holds beyond the registers, seeds and banks that stand in memory (in part DEDUCED, log 44). -/
structure Image where
  number : Nat
  inst : Inst
  threads : Tab Thread
  requests : Tab Request
  backing : List (Nat × Request)
  barriers : Tab Barrier
  ports : Option (Tab (List Element))
  mailbox : List Message
  held : List Message := []
  /-- The state bytes as they were written, by address (spec/18 R378). -/
  written : List (Nat × List Byte) := []
  lnk : List LnkElem := []
  deriving DecidableEq, Repr

/-- Whose access a fault record is about (spec/10 R230, spec/13 R290 R292, spec/14 R314, spec/22 R409). -/
inductive Faulter where
  | thread (core slot : Nat)
  | copy (cluster chan : Nat)
  | index (cluster job : Nat)
  | matrix (cluster : Nat)
  | multicast (group : Nat)
  /-- The link thread of a core. -/
  | link (core : Nat)
  /-- A store of a killed thread, which ends with the kernel's answer (spec/18 R380). -/
  | orphan
  deriving DecidableEq, Repr

/-- A fault record that waits for the kernel (spec/10 R230). -/
structure FaultRecord where
  number : Nat
  who : Faulter
  va : VAddr
  code : BitVec 5
  inst : Nat
  kind : AccessKind
  deriving DecidableEq, Repr

/-- What the device tells the kernel or the host (in part DESIGN CHOICE, log 54). -/
inductive Record where
  /-- A freeze record (spec/18 R369): where, the new code, TVAL and pc, and the old TCAUSE, TVAL and TEPC. -/
  | freeze (inst core slot : Nat) (code : BitVec 5) (val pc : Word) (tcause : BitVec 5) (tval tepc : Word)
  /-- A halt record (spec/19 R394). -/
  | halt (inst core slot : Nat) (pc : Word)
  | haltComplete (inst : Nat)
  | killComplete (inst : Nat)
  /-- A packet returned by dispatch or restore with a status (spec/07 R148). -/
  | dispatchFailed (packet : BitVec 512) (status : Nat)
  /-- A RED's combine dropped on poison (spec/12 R270). -/
  | redDropped (inst : Nat)
  | hotExpert (cluster entry : Nat)
  | withdrawn (cluster : Nat)
  /-- A completion entry of the host's completion ring and MSI-X vector 0 (spec/25 R440). -/
  | hostCompletion (inst : Nat)
  /-- A packet that host submission reports as invalid (spec/07 R146). -/
  | hostRefused (packet : BitVec 512)
  | alarm (sources : BitVec 4) (counter : Word)
  /-- What a host read returned (spec/25 R439). -/
  | hostRead (addr : Nat) (bytes : List Byte)
  /-- An attestation report and its signature, or its failure (spec/25 R451). -/
  | attestation (report : Option (List (BitVec 256) × BitVec 512))
  /-- A packet to another device (spec/22 R408 R411 R412 R420). -/
  | linkOut (device : Nat) (packet : CombinePacket)
  /-- What the link thread could not read or write, and went on without (spec/22 R416 R417). -/
  | linkFault (inst : Nat) (off : Word)
  /-- A slot-free notice (spec/22 R414). -/
  | slotFreeOut (group device : Nat)
  | multicastOut (group : Nat) (stamp : Option (BitVec 32)) (off value : Word)
  | holdOut (group : Nat) (stepNo : BitVec 32) (resumed : Bool)
  | imageRefused (image status : Nat)
  /-- A packet that migrates to another device (spec/07 R153, spec/11 R254, spec/22 R406). -/
  | migrationOut (packet : MigPacket)
  /-- A migrant of another device's instance that has ended here (spec/22 R406). -/
  | migrantGone (device inst : Nat)
  /-- The kill of an instance reaches a migrant on another device (spec/22 R406, spec/18 R379). -/
  | killOut (inst : Nat)
  /-- What another device's load or AMO returned (spec/22 R405), or that it met poison. -/
  | deviceRead (device tag : Nat) (bytes : Option (List Byte))
  /-- What a host read of a BAR0 register returned (spec/25 R438). -/
  | hubRead (off : Nat) (value : Word)
  /-- An MCST on its way up to this node's parent (spec/22 R408). -/
  | multicastUp (group : Nat) (off value : Word)
  /-- A message of a session signed by the key store (spec/25 R450). -/
  | signed (key : Nat) (signature : Option (BitVec 512))
  /-- A bundle that the driver has refused, or loaded: the sections of task packets that it holds, by number (spec/25 R447). -/
  | bundle (packets : Option (List (Nat × List Byte)))
  deriving DecidableEq, Repr

/-- An MCST on its way to the root (spec/22 R408). -/
structure Multicast where
  group : Nat
  off : Word
  value : Word
  sender : Option (Nat × Nat)
  inst : Nat
  /-- The thread that sent it (spec/22 R410). -/
  id : Nat := 0
  deriving DecidableEq, Repr

/-- A stamped store not yet applied here (spec/22 R409). -/
structure Stamped where
  group : Nat
  stamp : BitVec 32
  off : Word
  value : Word
  sender : Option (Nat × Nat)
  inst : Nat
  id : Nat := 0
  fault : Option Nat := none
  deriving DecidableEq, Repr

/-- A local contribution to a step: one rank's elements from an offset (spec/22 R411, spec/23 R426 R432). -/
structure Contribution where
  rank : Nat
  offset : Nat
  elems : List (BitVec 32)
  core : Nat
  slot : Nat
  inst : Nat
  message : Bool
  deriving DecidableEq, Repr

/-- A step of a group at this device (spec/22 R411 to R420, spec/23 R426). -/
structure StepState where
  group : Nat
  stepNo : BitVec 32
  scalar : Bool
  kind : Nat
  chunk : Nat
  /-- Elements of the step; 0 while no descriptor has told it. -/
  count : Nat
  /-- Cores whose link threads take its results. -/
  cores : List Nat := []
  /-- The ranks that have contributed, without their elements. -/
  ranks : List Contribution := []
  parts : List Contribution := []
  children : List CombinePacket := []
  /-- Child devices that have sent a packet of it. -/
  below : List Nat := []
  /-- Passes and chunks that this node has combined. -/
  combined : List (Nat × Nat) := []
  answer : Option CombinePacket := none
  /-- A lost scalar step whose result is held: only ranks and children that have not contributed are still to learn its loss. -/
  answered : Bool := false
  /-- The number is used by a scalar step and a descriptor alike (spec/23 R429). -/
  mixed : Bool := false
  exponents : Tab Int := []
  nonfinite : BitVec 32 := 0
  /-- Results of a broadcast or a loss that descriptors and children still to come will take. -/
  early : List CombinePacket := []
  lost : Bool := false
  replayed : Bool := false
  deriving DecidableEq, Repr

/-- A completed scalar step that the device still holds (spec/23 R426, R427). -/
structure HeldResult where
  group : Nat
  stepNo : BitVec 32
  value : Word
  word : Word
  deriving DecidableEq, Repr

/-- The phase of the hub's sweep (spec/11 R251). -/
inductive SweepPhase where
  | idle
  | reporting (reported : List Nat)
  deriving DecidableEq, Repr

/-- The hub (spec/19 R390, spec/25 R438 R442 R445 R450, spec/15 R323, spec/22 R407). -/
structure Hub where
  sptbr : Word := 0
  devid : BitVec 8 := 0
  rtthr : BitVec 32 := 0
  pwrcap : Nat := 2000
  alarmLock : Bool := false
  alarmMesh : BitVec 2 := 2
  alarmTemp : BitVec 2 := 1
  alarmClk : BitVec 2 := 1
  alarmVolt : BitVec 2 := 1
  /-- The hub's counter as last read for the alarm log (spec/18 R388). -/
  counter : Word := 0
  err : BitVec 8 := 0
  stage : BitVec 4 := 0
  ready : Bool := false
  poweredUp : Bool := false
  accept0 : BitVec 64 := 0
  accept1 : BitVec 64 := 0
  committed : Bool := false
  sqtail : BitVec 64 := 0
  sqhead : BitVec 64 := 0
  measures : Tab (BitVec 256) := []
  /-- Versions of the loader (0) and the kernel (1) that were handed control (spec/25 R441, R451). -/
  versions : Tab Nat := []
  /-- HBM4E stacks that have started, and the hub registers that the kernel has written since (spec/25 R444). -/
  hbmStarted : Nat := 0
  devidSet : Bool := false
  sptbrSet : Bool := false
  /-- Entries that the kernel has written to the completion ring (spec/25 R440). -/
  completions : Nat := 0
  identityKey : Bool := true
  /-- Which identity key it is: provisioning makes a new one (spec/25 R450). -/
  keySerial : Nat := 0
  /-- Posted writes of the host that wait, oldest first, behind one that a pin holds or that is made in pieces (spec/25 R439, R440). -/
  hostWrites : List Instr := []
  /-- Bytes of BAR2 (spec/25 R437). -/
  barSize : Nat := 2 ^ 39
  sessionKeys : List (BitVec 256) := []
  directory : Tab RindEntry := []
  /-- The directory that acceptances see: without what a running MX.NORM has installed (spec/15 R323). -/
  published : Tab RindEntry := []
  sweep : SweepPhase := .idle
  /-- A sweep is due while another is under way. -/
  sweepDue : Bool := false
  groups : Tab (BitVec 128) := []
  requests : List Multicast := []
  stamped : List Stamped := []
  memberApplied : Tab (BitVec 32) := []
  /-- Stamps that messages from the root carry, by group, until MCST_STAMPING takes them (spec/22 R408). -/
  stamps : Tab (BitVec 32) := []
  steps : List StepState := []
  /-- Steps on hold, once for each hold notice, with the instance of this device whose halt made it, or 2^16 (spec/22 R420). -/
  holds : List (Nat × BitVec 32 × Nat) := []
  results : List HeldResult := []
  latest : Tab (BitVec 32) := []
  /-- The ranks that have contributed at this device to steps that are over: group, step, rank, and whether the step was scalar
  (spec/22 R416, spec/23 R426). -/
  contributors : List (Nat × BitVec 32 × Nat × Bool) := []
  /-- Packets on a tree edge whose buffer is not free again, by 256 * group + device, and those that wait for a credit. -/
  credits : Tab Nat := []
  outbox : List (Nat × CombinePacket) := []
  lostDevices : List Nat := []
  failedPaths : List Nat := []
  deriving DecidableEq, Repr

/-- What the outside does to the device that no row of the opcode table names (in part DESIGN CHOICE, log 61). -/
inductive Outside where
  /-- A corrected soft error of a core or of a slice (spec/18 R371). -/
  | corrected (core : Nat)
  | correctedSlice (cluster : Nat)
  /-- Uncorrectable errors (R371): of an HBM4E sector, a sector of a core's cache, a row of its banks, and a register of a thread. -/
  | memoryError (sector : Nat)
  | cacheError (core line sector : Nat)
  | bankError (core row : Nat)
  | registerError (core slot register : Nat)
  /-- An error of the host or a drive, which ends a copy (spec/13 R286, R289). -/
  | copyError (cluster chan : Nat)
  /-- Accesses that another device sends here (spec/22 R405): a load, a store and the packet of an AMO, a RED or a migrant. -/
  | load (device tag : Nat) (off : Word) (size : Nat)
  | store (device : Nat) (off : Word) (bytes : List Byte) (release : Bool)
  | packet (device home : Nat) (p : MigPacket)
  /-- A migrant of this device's instance has ended on another device, and a kill of another device's instance (R406). -/
  | migrantGone (inst : Nat)
  | kill (device inst : Nat)
  /-- An MCST that comes up from a child node, and the stamp that the next message from the root carries (spec/22 R408, R410). -/
  | multicast (group : Nat) (off value : Word)
  | stamp (group : Nat) (stamp : BitVec 32)
  /-- Host accesses through BAR0 (spec/25 R437, R438). -/
  | hubRead (off : Nat)
  | hubWrite (off : Nat) (value : Word) (cluster : Nat)
  /-- The host resizes BAR2 to 2^n bytes (R437). -/
  | resize (n : Nat)
  /-- The kernel opens a session with a key, and has a message of it signed (spec/25 R450). -/
  | session (key : BitVec 256)
  | sign (key : Nat) (digest : BitVec 256)
  /-- The host, another device or a drive writes its own memory, where what the package writes to it stands as well (spec/10 R224,
  spec/13 R289, spec/25 R440); 2^16 is the space of the drives. -/
  | own (space off : Nat) (bytes : List Byte)
  /-- The driver loads a bundle: a key that its signature is tried against, and where it places the sections that have no load offset of
  their own (spec/25 R447). -/
  | bundle (key : Option (Nat × Nat)) (place : Tab Nat) (file : List Byte)
  deriving DecidableEq, Repr

/-- A turn that the outside or a scheduler chooses (DESIGN CHOICE, log 2): a step without a word, a core's next cycle, or what
only the outside does. -/
inductive Turn where
  | event (i : Instr)
  | core (n : Nat)
  | outside (o : Outside)
  deriving DecidableEq, Repr

/-- The whole device. -/
structure State where
  inputs : List Turn
  agenda : List Instr
  focus : Nat
  ic : Nat
  is : Nat
  freeCtr : Nat
  serial : Nat
  mem : Memory
  poison : List Nat
  debts : Tab Nat
  ext : Memory
  cores : Tab Core
  pairs : Tab Pair
  clusters : Tab Cluster
  diesT : Tab Die
  insts : Tab Inst
  images : Tab Image
  faults : List FaultRecord
  flight : List (Nat × MigPacket)
  /-- Light threads of this device's instances that have migrated to other devices (spec/22 R406). -/
  away : List MigPacket
  /-- Stores of killed threads that pins hold: the instance and the place (spec/18 R380). -/
  orphans : List (Nat × Place)
  mailFlight : List Message
  records : List Record
  hub : Hub
  deriving DecidableEq, Repr

/-- Why a step stops. -/
inductive Fault where
  /-- Raised by a page walk that reads an entry at a physical address where nothing stands (spec/10 R220): the manual says
  only that nothing is there. Safe: the model stops. -/
  | nothingThere
  deriving DecidableEq, Repr

/-- Why an instruction has no meaning. -/
inductive Refusal where
  /-- Raised by an arm of exec whose instruction has no meaning yet. Safe: nothing is claimed of it. -/
  | notModelled (mnemonic : String)
  deriving DecidableEq, Repr

/-- The device before power-good (spec/25 R444): every field at the value that the spec gives for reset, and the values of
DESIGN CHOICE, log 2, log 3, log 4, log 7 and log 8 where it gives none. -/
def State.reset : State :=
  { inputs := [], agenda := [], focus := 0, ic := 0, is := 0, freeCtr := 0, serial := 0, mem := [], poison := [], debts := [],
    ext := [], cores := [], pairs := [], clusters := [], diesT := [], insts := [], images := [], faults := [],
    flight := [], away := [], orphans := [], mailFlight := [], records := [], hub := {} }

end Sys2Proof.Machine
end

