-- ==== Sys2Proof/Machine/Table.lean ====
section
/-! DEFINITION. Reading and writing the tables and memories of the state, and the bit fields and byte orders of spec/00 R3. -/

namespace Sys2Proof.Machine

variable {α β : Type}

/-- The entry of k, or the default. -/
def tabGet (d : α) : Tab α → Nat → α
  | [], _ => d
  | (j, v) :: r, k => if j = k then v else tabGet d r k

/-- The entry of k, if it is listed. -/
def tabFind : Tab α → Nat → Option α
  | [], _ => none
  | (j, v) :: r, k => if j = k then some v else tabFind r k

/-- Sets the entry of k, keeping the keys rising. -/
def tabPut : Tab α → Nat → α → Tab α
  | [], k, v => [(k, v)]
  | (j, w) :: r, k, v =>
    if k < j then (k, v) :: (j, w) :: r
    else if j = k then (k, v) :: r
    else (j, w) :: tabPut r k v

/-- Drops the entry of k. -/
def tabDel (t : Tab α) (k : Nat) : Tab α := t.filter fun e => e.1 != k

/-- The byte at an address; an unlisted address reads as 0 (DESIGN CHOICE, log 7). -/
def memGet : Memory → Nat → Byte
  | [], _ => 0
  | (j, v) :: r, k => if j = k then v else memGet r k

/-- Removes an address. -/
def memErase : Memory → Nat → Memory
  | [], _ => []
  | (j, v) :: r, k => if j = k then memErase r k else (j, v) :: memErase r k

/-- Lists a byte at an address, keeping the addresses rising. -/
def memInsert : Memory → Nat → Byte → Memory
  | [], k, b => [(k, b)]
  | (j, v) :: r, k, b =>
    if k < j then (k, b) :: (j, v) :: r
    else if j = k then (k, b) :: r
    else (j, v) :: memInsert r k b

/-- Writes one byte. Writing 0 removes the entry, so that equal memories are equal lists. -/
def memSet (m : Memory) (k : Nat) (b : Byte) : Memory :=
  if b = 0 then memErase m k else memInsert m k b

/-- The n bytes from an address on. -/
def memRead (m : Memory) (k : Nat) : Nat → List Byte
  | 0 => []
  | n + 1 => memGet m k :: memRead m (k + 1) n

/-- Writes bytes from an address on. -/
def memWrite (m : Memory) (k : Nat) : List Byte → Memory
  | [] => m
  | b :: r => memWrite (memSet m k b) (k + 1) r

/-- The canonical form of a memory: addresses strictly rising, and no entry equal to what an unlisted address reads as. -/
def Memory.wf : Memory → Bool
  | [] => true
  | [(_, v)] => v != 0
  | (j, v) :: (k, w) :: r => v != 0 && decide (j < k) && Memory.wf ((k, w) :: r)

/-- The number of bytes, lowest first (spec/00 R3). -/
def leNat : List Byte → Nat
  | [] => 0
  | b :: r => b.toNat + 256 * leNat r

/-- The n bytes of a number, lowest first. -/
def leBytes (v : Nat) : Nat → List Byte
  | 0 => []
  | n + 1 => BitVec.ofNat 8 v :: leBytes (v / 256) n

/-- Bits hi down to lo of a number (spec/00 R3). -/
def fld (v hi lo : Nat) : Nat := (v >>> lo) % 2 ^ (hi + 1 - lo)

/-- A number as a signed one of w bits. -/
def signed (w v : Nat) : Int := if v % 2 ^ w < 2 ^ (w - 1) then (v % 2 ^ w : Nat) else (v % 2 ^ w : Nat) - 2 ^ w

/-- The numbers from a on, n of them. -/
def span (a : Nat) : Nat → List Nat
  | 0 => []
  | n + 1 => a :: span (a + 1) n

/-- The lowest of a list of numbers. -/
def lowest : List Nat → Option Nat
  | [] => none
  | a :: r =>
    match lowest r with
    | none => some a
    | some b => some (min a b)

/-- The smallest element in a given order, the first of equals. -/
def best (before : α → α → Bool) : List α → Option α
  | [] => none
  | a :: r =>
    match best before r with
    | none => some a
    | some b => if before b a then some b else some a

/-- Puts an element into an ordered list, behind its equals. -/
def insertBy (before : α → α → Bool) (a : α) : List α → List α
  | [] => [a]
  | b :: r => if before a b then a :: b :: r else b :: insertBy before a r

/-- A list in an order that keeps equals as they stand. -/
def sortBy (before : α → α → Bool) (l : List α) : List α := l.foldl (fun acc a => insertBy before a acc) []

end Sys2Proof.Machine
end

