-- ==== Sys2Proof/Machine/Float.lean ====
section
/-! DEFINITION. Number formats, exact arithmetic and the one rounding of the device (spec/03 R53 to R80). A value is exact
(Val); a value that is no dyadic number is given as the dyadic number below its magnitude and a sticky mark: the true
magnitude lies strictly between mag * 2^exp and (mag + 1) * 2^exp. -/

namespace Sys2Proof.Machine

/-! Formats (spec/03 R57). -/

/-- Fraction width m. -/
def Fmt.m : Fmt → Nat
  | .fp64 => 52 | .fp32 => 23 | .bf16 => 7 | .f19 => 10 | .e4m3 => 3 | .e5m2 => 2 | .e2m3 => 3 | .e3m2 => 2 | .e2m1 => 1

/-- Exponent width. -/
def Fmt.e : Fmt → Nat
  | .fp64 => 11 | .fp32 => 8 | .bf16 => 8 | .f19 => 8 | .e4m3 => 4 | .e5m2 => 5 | .e2m3 => 2 | .e3m2 => 3 | .e2m1 => 2

def Fmt.bias : Fmt → Nat
  | .fp64 => 1023 | .fp32 => 127 | .bf16 => 127 | .f19 => 127 | .e4m3 => 7 | .e5m2 => 15 | .e2m3 => 1 | .e3m2 => 3 | .e2m1 => 1

/-- The format has infinities. -/
def Fmt.hasInf : Fmt → Bool
  | .fp64 | .fp32 | .bf16 | .f19 | .e5m2 => true
  | .e4m3 | .e2m3 | .e3m2 | .e2m1 => false

/-- The MX element formats without NaN (spec/03 R64). -/
def Fmt.isMx : Fmt → Bool
  | .e2m3 | .e3m2 | .e2m1 => true
  | .fp64 | .fp32 | .bf16 | .f19 | .e4m3 | .e5m2 => false

/-- Bits of a code. -/
def Fmt.width (f : Fmt) : Nat := 1 + Fmt.e f + Fmt.m f

/-- The canonical NaN (spec/03 R60); 0 where the format has none. -/
def Fmt.nan : Fmt → Nat
  | .fp64 => 0x7FF8000000000000 | .fp32 => 0x7FC00000 | .bf16 => 0x7FC0 | .f19 => 0x3FE00 | .e4m3 => 0x7F | .e5m2 => 0x7E
  | .e2m3 | .e3m2 | .e2m1 => 0

/-- The largest finite value, as magnitude and exponent. -/
def Fmt.max (f : Fmt) : Nat × Int :=
  match f with
  | .e4m3 => (14, 5)
  | .e2m3 => (15, -1)
  | .e3m2 => (7, 2)
  | .e2m1 => (3, 1)
  | .fp64 | .fp32 | .bf16 | .f19 | .e5m2 => (2 ^ (Fmt.m f + 1) - 1, (Fmt.bias f : Int) - Fmt.m f)

/-- The exponent of the subnormal spacing. -/
def Fmt.emin (f : Fmt) : Int := 1 - (Fmt.bias f : Int) - Fmt.m f

/-- The value of a code (spec/03 R57, R58: bits above the code are ignored; F19 keeps no subnormals, R61). -/
def Fmt.decode (f : Fmt) (c : Nat) : Val :=
  let m := Fmt.m f
  let s := c / 2 ^ (m + Fmt.e f) % 2 = 1
  let e := c / 2 ^ m % 2 ^ Fmt.e f
  let k := c % 2 ^ m
  if Fmt.hasInf f ∧ e = 2 ^ Fmt.e f - 1 then (if k = 0 then .inf s else .nan)
  else if f = .e4m3 ∧ e = 15 ∧ k = 7 then .nan
  else if e = 0 then .fin s k (Fmt.emin f)
  else .fin s (2 ^ m + k) ((e : Int) - Fmt.bias f - m)

/-- The code of a value that the format represents. -/
def Fmt.encode (f : Fmt) (v : Val) : Nat :=
  let m := Fmt.m f
  let sign := fun (s : Bool) => if s then 2 ^ (m + Fmt.e f) else 0
  match v with
  | .nan => Fmt.nan f
  | .inf s => sign s + (2 ^ Fmt.e f - 1) * 2 ^ m
  | .fin s mag x =>
    if mag = 0 then sign s
    else
      let top : Int := (Nat.log2 mag : Int) + x
      if top < 1 - (Fmt.bias f : Int) then sign s + (if Fmt.emin f ≤ x then mag * 2 ^ (x - Fmt.emin f).toNat else mag / 2 ^ (Fmt.emin f - x).toNat)
      else
        let k := if (Nat.log2 mag) ≤ m then mag * 2 ^ (m - Nat.log2 mag) else mag / 2 ^ (Nat.log2 mag - m)
        sign s + (top + Fmt.bias f).toNat * 2 ^ m + (k - 2 ^ m)

/-! Flags (spec/03 R65). -/

def Flags.none : Flags := {}

def Flags.or (a b : Flags) : Flags :=
  ⟨a.nv || b.nv, a.dz || b.dz, a.ovf || b.ovf, a.udf || b.udf, a.nx || b.nx, a.sat || b.sat⟩

/-! Exact arithmetic (spec/00 R6). -/

def Val.neg : Val → Val
  | .nan => .nan
  | .inf s => .inf (!s)
  | .fin s m e => .fin (!s) m e

def Val.isNan : Val → Bool
  | .nan => true
  | .inf _ => false
  | .fin _ _ _ => false

def Val.isZero : Val → Bool
  | .fin _ m _ => m = 0
  | .nan => false
  | .inf _ => false

def Val.sign : Val → Bool
  | .nan => false
  | .inf s => s
  | .fin s _ _ => s

/-- The exact dyadic number of a finite value. -/
def Val.dyadic : Val → Dyadic
  | .fin s m e => ⟨if s then -(m : Int) else m, e⟩
  | .nan => ⟨0, 0⟩
  | .inf _ => ⟨0, 0⟩

/-- An integer as a value. -/
def Val.ofInt (n : Int) : Val := .fin (n < 0) n.natAbs 0

def Dyadic.add (a b : Dyadic) : Dyadic :=
  if a.num = 0 then b
  else if b.num = 0 then a
  else if a.exp ≤ b.exp then ⟨a.num + b.num * 2 ^ (b.exp - a.exp).toNat, a.exp⟩
  else ⟨a.num * 2 ^ (a.exp - b.exp).toNat + b.num, b.exp⟩

def Dyadic.mul (a b : Dyadic) : Dyadic := ⟨a.num * b.num, a.exp + b.exp⟩

def Dyadic.neg (a : Dyadic) : Dyadic := ⟨-a.num, a.exp⟩

def Dyadic.sub (a b : Dyadic) : Dyadic := Dyadic.add a (Dyadic.neg b)

/-- A dyadic number as a value; zero is +0. -/
def Dyadic.val (a : Dyadic) : Val := .fin (a.num < 0) a.num.natAbs a.exp

/-- Compares two dyadic numbers. -/
def Dyadic.lt (a b : Dyadic) : Bool := (Dyadic.sub a b).num < 0

/-- a < b as numbers, infinities included; false with a NaN. -/
def Val.lt : Val → Val → Bool
  | .nan, _ => false
  | _, .nan => false
  | .inf s, .inf t => s && !t
  | .inf s, .fin _ _ _ => s
  | .fin _ _ _, .inf t => !t
  | .fin s m e, .fin t n f => Dyadic.lt (Val.dyadic (.fin s m e)) (Val.dyadic (.fin t n f))

/-- a = b as numbers; −0 equals +0; false with a NaN. -/
def Val.eq (a b : Val) : Bool := !Val.isNan a && !Val.isNan b && !Val.lt a b && !Val.lt b a

/-- a + b and its flags: ∞ − ∞ is NaN and invalid; a zero sum of finite values takes the sign of spec/04 R92. -/
def Val.add (rm : Rm) : Val → Val → Val × Flags
  | .nan, _ => (.nan, {})
  | _, .nan => (.nan, {})
  | .inf s, .inf t => if s = t then (.inf s, {}) else (.nan, { nv := true })
  | .inf s, .fin _ _ _ => (.inf s, {})
  | .fin _ _ _, .inf t => (.inf t, {})
  | .fin s m e, .fin t n f =>
    let r := Dyadic.add (Val.dyadic (.fin s m e)) (Val.dyadic (.fin t n f))
    if r.num = 0 then (.fin (if s = t then s else rm = .rdn) 0 0, {}) else (Dyadic.val r, {})

/-- a × b: ∞ × 0 is NaN and invalid. -/
def Val.mul : Val → Val → Val × Flags
  | .nan, _ => (.nan, {})
  | _, .nan => (.nan, {})
  | .inf s, .inf t => (.inf (s != t), {})
  | .inf s, .fin t n _ => if n = 0 then (.nan, { nv := true }) else (.inf (s != t), {})
  | .fin s m _, .inf t => if m = 0 then (.nan, { nv := true }) else (.inf (s != t), {})
  | .fin s m e, .fin t n f => (.fin (s != t) (m * n) (e + f), {})

/-- a × b + c, exact (spec/04 R93). ∞ × 0 is NaN and invalid whatever c is. -/
def Val.fma (rm : Rm) (a b c : Val) : Val × Flags :=
  let p := Val.mul a b
  let r := Val.add rm p.1 c
  (r.1, Flags.or p.2 r.2)

/-- A quotient as a value with sticky, to at least 80 bits. -/
def quotient (s : Bool) (m : Nat) (e : Int) (n : Nat) (f : Int) : Val × Bool :=
  let k := 80 + Nat.log2 n
  let q := m * 2 ^ k / n
  (.fin s q (e - f - k), m * 2 ^ k % n ≠ 0)

/-- a ÷ b (spec/04 R93): value, sticky, flags. -/
def Val.div : Val → Val → Val × Bool × Flags
  | .nan, _ => (.nan, false, {})
  | _, .nan => (.nan, false, {})
  | .inf _, .inf _ => (.nan, false, { nv := true })
  | .inf s, .fin t _ _ => (.inf (s != t), false, {})
  | .fin s _ _, .inf t => (.fin (s != t) 0 0, false, {})
  | .fin s m e, .fin t n f =>
    if n = 0 then (if m = 0 then (.nan, false, { nv := true }) else (.inf (s != t), false, { dz := true }))
    else if m = 0 then (.fin (s != t) 0 0, false, {})
    else let q := quotient (s != t) m e n f; (q.1, q.2, {})

/-- The integer square root by its bits from 2^n down. -/
def isqrtFrom (v : Nat) : Nat → Nat → Nat
  | 0, r => if (r + 1) * (r + 1) ≤ v then r + 1 else r
  | n + 1, r => isqrtFrom v n (if (r + 2 ^ (n + 1)) * (r + 2 ^ (n + 1)) ≤ v then r + 2 ^ (n + 1) else r)

def isqrt (v : Nat) : Nat := isqrtFrom v (Nat.log2 v / 2 + 1) 0

/-- √(m · 2^e), to at least 80 bits, with sticky. -/
def rootOf (m : Nat) (e : Int) : Val × Bool :=
  let k : Nat := if e % 2 = 0 then 160 else 161
  let v := m * 2 ^ k
  let r := isqrt v
  (.fin false r ((e - k) / 2), r * r ≠ v)

/-- √a (spec/04 R93). -/
def Val.sqrt : Val → Val × Bool × Flags
  | .nan => (.nan, false, {})
  | .inf s => if s then (.nan, false, { nv := true }) else (.inf false, false, {})
  | .fin s m e =>
    if m = 0 then (.fin s 0 0, false, {})
    else if s then (.nan, false, { nv := true })
    else let r := rootOf m e; (r.1, r.2, {})

/-- 1/√a (spec/05 R123). -/
def Val.rsqrt : Val → Val × Bool × Flags
  | .nan => (.nan, false, {})
  | .inf s => if s then (.nan, false, { nv := true }) else (.fin false 0 0, false, {})
  | .fin s m e =>
    if m = 0 then (.inf s, false, { dz := true })
    else if s then (.nan, false, { nv := true })
    else
      -- 1/(m 2^e) = (2^k/m) 2^(-e-k), with -e-k even and 2^k/m of more than 160 bits
      let k0 : Nat := 162 + Nat.log2 m
      let k : Nat := if (e + k0) % 2 = 0 then k0 else k0 + 1
      let q := 2 ^ k / m
      let r := isqrt q
      (.fin false r ((-e - k) / 2), r * r ≠ q || 2 ^ k % m ≠ 0, {})

/-- floor(2^f · 2^p) for f = num/2^den in [0, 1), by the product of the square roots of 2, in a fixed point of w bits with
bounds; none when the bounds do not agree. -/
def exp2Bounds (w : Nat) (num : Nat) : Nat → Nat × Nat → Nat × Nat → Nat × Nat
  | 0, _, acc => acc
  | den + 1, root, acc =>
    let lo := isqrt (root.1 * 2 ^ w)
    let hi := isqrt (root.2 * 2 ^ w) + 1
    let bit := num / 2 ^ den % 2
    exp2Bounds w num den (lo, hi) (if bit = 1 then (acc.1 * lo / 2 ^ w, acc.2 * hi / 2 ^ w + 1) else acc)

/-- floor(2^f · 2^p) in a fixed point of w bits, growing w while the bounds do not agree. -/
def exp2Fix (p num den : Nat) : Nat → Nat → Nat
  | 0, _ => 0
  | fuel + 1, w =>
    let d := if den ≤ w then den else w
    let n := if den ≤ w then num else num / 2 ^ (den - w)
    let b := exp2Bounds w n d (2 ^ (w + 1), 2 ^ (w + 1)) (2 ^ w, 2 ^ w)
    let hi := if den ≤ w then b.2 else b.2 + b.2 / 2 ^ w + 1
    if b.1 / 2 ^ (w - p) = hi / 2 ^ (w - p) then b.1 / 2 ^ (w - p) else exp2Fix p num den fuel (2 * w)

/-- 2^a (spec/05 R123); exact for an integer a. Exponents beyond ±4096 are cut to ±4096, beyond the range of every format. -/
def Val.exp2 : Val → Val × Bool × Flags
  | .nan => (.nan, false, {})
  | .inf s => (if s then .fin false 0 0 else .inf false, false, {})
  | .fin s m e =>
    if m = 0 then (.fin false 1 0, false, {})
    else if 12 ≤ (Nat.log2 m : Int) + e then (.fin false 1 (if s then -4096 else 4096), false, {})
    else if 0 ≤ e then
      let n : Int := if s then -((m * 2 ^ e.toNat : Nat) : Int) else ((m * 2 ^ e.toNat : Nat) : Int)
      (.fin false 1 n, false, {})
    else
      let den := (-e).toNat
      let n : Int := if s then -(m : Int) else m
      let ip := n / (2 ^ den : Nat)
      let fp := (n % (2 ^ den : Nat)).toNat
      if fp = 0 then (.fin false 1 ip, false, {})
      else if (Nat.log2 m : Int) + e < -64 then
        -- 2^a lies within 2^-63 of 1
        (if s then (.fin false (2 ^ 60 - 1) (-60), true, {}) else (.fin false (2 ^ 60) (-60), true, {}))
      else (.fin false (exp2Fix 60 fp den 6 128) (ip - 60), true, {})

/-- Bits of log₂ y for y in [1, 2) held as bounds in a fixed point of w bits; none when the bounds disagree. -/
def log2Bits (w : Nat) : Nat → Nat × Nat → Nat → Option Nat
  | 0, _, acc => some acc
  | n + 1, y, acc =>
    let lo := y.1 * y.1 / 2 ^ w
    let hi := y.2 * y.2 / 2 ^ w + 1
    if 2 ^ (w + 1) ≤ lo then log2Bits w n (lo / 2, hi / 2 + 1) (2 * acc + 1)
    else if hi < 2 ^ (w + 1) then log2Bits w n (lo, hi) (2 * acc)
    else none

def log2Fix (p m : Nat) : Nat → Nat → Nat
  | 0, _ => 0
  | fuel + 1, w =>
    let y := m * 2 ^ w / 2 ^ Nat.log2 m
    match log2Bits w p (y, y + 1) 0 with
    | some r => r
    | none => log2Fix p m fuel (2 * w)

/-- log₂ a (spec/05 R123); exact for a power of two. -/
def Val.log2 : Val → Val × Bool × Flags
  | .nan => (.nan, false, {})
  | .inf s => if s then (.nan, false, { nv := true }) else (.inf false, false, {})
  | .fin s m e =>
    if m = 0 then (.inf true, false, { dz := true })
    else if s then (.nan, false, { nv := true })
    else
      let top : Int := (Nat.log2 m : Int) + e
      if m = 2 ^ Nat.log2 m then (Val.ofInt top, false, {})
      else
        let frac := log2Fix 64 m 6 256
        if 0 ≤ top then (.fin false (top.toNat * 2 ^ 64 + frac) (-64), true, {})
        else (.fin true ((-top).toNat * 2 ^ 64 - frac - 1) (-64), true, {})

/-! Rounding (spec/03 R64). -/

/-- Whether a positive magnitude that lies between k and k + 1 units is rounded away from zero: neg the sign, rem/2^sh the
fraction above k, sticky a further part of it. -/
def roundsUp (rm : Rm) (neg : Bool) (k rem sh : Nat) (sticky : Bool) : Bool :=
  match rm with
  | .rne => 2 ^ sh < 2 * rem || (2 * rem = 2 ^ sh && (sticky || k % 2 = 1))
  | .rtz => false
  | .rdn => neg
  | .rup => !neg
  | .sr u =>
    -- t = floor(((v - lo) / (hi - lo)) * 2^24); hi when u < t
    if neg then
      let num := (2 ^ sh - rem) * 2 ^ 24
      let t := if sticky && num % 2 ^ sh = 0 then num / 2 ^ sh - 1 else num / 2 ^ sh
      !(u < t)
    else u < rem * 2 ^ 24 / 2 ^ sh

/-- A magnitude in units of 2^q, rounded: the units and whether the value was representable. -/
def roundUnits (rm : Rm) (neg : Bool) (mag : Nat) (exp q : Int) (sticky : Bool) : Nat × Bool :=
  if q ≤ exp then
    let k := mag * 2 ^ (exp - q).toNat
    if sticky then ((if roundsUp rm neg k 0 1 true then k + 1 else k), false) else (k, true)
  else
    let sh := (q - exp).toNat
    let k := mag / 2 ^ sh
    let rem := mag % 2 ^ sh
    if rem = 0 && !sticky then (k, true)
    else ((if roundsUp rm neg k rem sh sticky then k + 1 else k), false)

/-- m · 2^e < n · 2^f. -/
def magLt (m : Nat) (e : Int) (n : Nat) (f : Int) : Bool :=
  if e ≤ f then m < n * 2 ^ (f - e).toNat else m * 2 ^ (e - f).toNat < n

/-- round_to for a floating-point target (spec/03 R64): the code and its flags (R65). -/
def roundFlt (f : Fmt) (v : Val) (sticky : Bool) (rm : Rm) (sat : Bool) : Nat × Flags :=
  let big := Fmt.max f
  match v with
  | .nan => if Fmt.isMx f then (0, { nv := true, nx := true }) else (Fmt.nan f, {})
  | .inf s =>
    if sat || Fmt.isMx f then (Fmt.encode f (.fin s big.1 big.2), { ovf := true, nx := true })
    else if Fmt.hasInf f then (Fmt.encode f (.inf s), {})
    else (Fmt.nan f, { nv := true })
  | .fin s mag exp =>
    if mag = 0 && !sticky then (Fmt.encode f (.fin s 0 0), {})
    else if (sat || Fmt.isMx f) && (magLt big.1 big.2 mag exp || (sticky && !magLt mag exp big.1 big.2)) then
      (Fmt.encode f (.fin s big.1 big.2), { ovf := true, nx := true })
    else
      let top : Int := if mag = 0 then exp else (Nat.log2 mag : Int) + exp
      let q : Int := if top - Fmt.m f < Fmt.emin f then Fmt.emin f else top - Fmt.m f
      let r := roundUnits rm s mag exp q sticky
      let nx := !r.2
      if magLt big.1 big.2 r.1 q then
        let toInf := match rm with
          | .rne => true
          | .sr _ => true
          | .rtz => false
          | .rup => !s
          | .rdn => s
        (if toInf then (if Fmt.hasInf f then Fmt.encode f (.inf s) else Fmt.nan f) else Fmt.encode f (.fin s big.1 big.2),
          { ovf := true, nx := true })
      else if f = .f19 && magLt r.1 q 1 (-126) then (0, { nx := true })
      else
        (Fmt.encode f (.fin s r.1 q),
          { nx := nx, udf := nx && r.1 ≠ 0 && magLt r.1 q 1 (1 - (Fmt.bias f : Int)) })

/-- round_to for an integer target of a range (spec/03 R64 steps 2 to 6, R70). -/
def roundInt (lo hi : Int) (v : Val) (sticky : Bool) (rm : Rm) : Int × Flags :=
  match v with
  | .nan => (0, { nv := true, nx := true })
  | .inf s => (if s then lo else hi, { ovf := true, nx := true })
  | .fin s mag exp =>
    let r := roundUnits rm s mag exp 0 sticky
    let n : Int := if s then -(r.1 : Int) else r.1
    let c := if n < lo then lo else if hi < n then hi else n
    (c, { ovf := c ≠ n, nx := !r.2 || c ≠ n })

/-! Element types (spec/02 R36). -/

/-- The type of a code; D8 (14) is read as an 8-bit natural where only its width counts. -/
def elemOf (t : Nat) : Elem :=
  match t with
  | 0 => .int 8 true | 1 => .int 16 true | 2 => .int 32 true
  | 3 => .int 8 false | 4 => .int 16 false | 5 => .int 32 false
  | 6 => .m8 | 7 => .flt .bf16 | 8 => .flt .fp32
  | 9 => .flt .e4m3 | 10 => .flt .e5m2 | 11 => .flt .e2m3 | 12 => .flt .e3m2 | 13 => .flt .e2m1
  | _ => .int 8 false

/-- Lane width in bits of a type code (spec/02 R36). -/
def laneWidth (t : Nat) : Nat :=
  match t with
  | 1 | 4 | 7 => 16
  | 2 | 5 | 8 => 32
  | _ => 8

/-- The value of a lane code as an integer type, m8 or a float. -/
def Elem.decode (t : Elem) (c : Nat) : Val :=
  match t with
  | .int w true => Val.ofInt (signed w c)
  | .int w false => Val.ofInt (c % 2 ^ w : Nat)
  | .m8 => .fin (decide (128 ≤ c % 256) && c % 128 ≠ 0) (c % 128) 0
  | .flt f => Fmt.decode f c

/-- The integer of a lane code of an integer type or m8. -/
def Elem.intOf (t : Elem) (c : Nat) : Int := (Val.dyadic (Elem.decode t c)).num

/-- The range of an integer type or m8. -/
def Elem.range (t : Elem) : Int × Int :=
  match t with
  | .int w true => (-(2 ^ (w - 1) : Nat), (2 ^ (w - 1) : Nat) - 1)
  | .int w false => (0, (2 ^ w : Nat) - 1)
  | .m8 => (-127, 127)
  | .flt _ => (0, 0)

/-- The code of an integer in range; m8 writes 0 as 0x00 (spec/03 R54). -/
def Elem.encodeInt (t : Elem) (n : Int) : Nat :=
  match t with
  | .int w _ => (n % (2 ^ w : Nat)).toNat
  | .m8 => if n < 0 then 128 + n.natAbs else n.natAbs
  | .flt _ => 0

/-- narrow (spec/03 R56, spec/05 R112): wraps without S, clamps with S; m8 always clamps. -/
def narrow (t : Elem) (n : Int) (sat : Bool) : Nat × Flags :=
  let r := Elem.range t
  let clamps := sat || t = .m8
  if clamps then
    let c := if n < r.1 then r.1 else if r.2 < n then r.2 else n
    (Elem.encodeInt t c, { sat := c ≠ n })
  else (Elem.encodeInt t n, {})

/-- round_to for any element type. -/
def roundElem (t : Elem) (v : Val) (sticky : Bool) (rm : Rm) (sat : Bool) : Nat × Flags :=
  match t with
  | .flt f => roundFlt f v sticky rm sat
  | .int w g =>
    let r := Elem.range (.int w g)
    let x := roundInt r.1 r.2 v sticky rm
    (Elem.encodeInt (.int w g) x.1, x.2)
  | .m8 =>
    let x := roundInt (-127) 127 v sticky rm
    (Elem.encodeInt .m8 x.1, x.2)

/-- RNE_fp32 of an exact value (spec/00 R6). -/
def rneFp32 (v : Val) : BitVec 32 := BitVec.ofNat 32 (roundFlt .fp32 v false .rne false).1

/-- The rounding mode of a 2-bit RM or FRM field (spec/01 R22, spec/02 R37). -/
def rmOf (r : Nat) : Rm :=
  match r % 4 with
  | 0 => .rne
  | 1 => .rtz
  | 2 => .rdn
  | _ => .rup

/-- sr_u (spec/03 R67). -/
def srU (slot : Word) (a b salt : Nat) : Nat :=
  let x : BitVec 32 := slot.extractLsb' 0 32 ^^^ slot.extractLsb' 32 32 ^^^ BitVec.ofNat 32 ((a % 65536) * 65536 + b % 65536)
    ^^^ BitVec.ofNat 32 (salt % 65536)
  let x := if x = 0 then 0x2545F491#32 else x
  let x := x ^^^ (x <<< 13)
  let x := x ^^^ (x >>> 17)
  let x := x ^^^ (x <<< 5)
  (x >>> 8).toNat

/-! Paths into F19 and block scales (spec/03 R59, R62, R63). -/

/-- The F19 value of an element code: a BF16 subnormal becomes +0, everything else is exact (R62). -/
def toF19 (t : Elem) (c : Nat) : Val :=
  match Elem.decode t c with
  | .nan => .nan
  | .inf s => .inf s
  | .fin s m e => if m ≠ 0 && magLt m e 1 (-126) then .fin false 0 0 else .fin s m e

/-- An E8M0 block scale applied to an F19 element (R63); a product beyond the F19 maximum is infinite and one below 2^-126
is +0. The flag reports ∞ × 0 never, as a scale is finite or NaN. -/
def mxScale (scale : Nat) (x : Val) : Val :=
  if scale = 255 then .nan
  else
    match x with
    | .nan => .nan
    | .inf s => .inf s
    | .fin s m e =>
      let e' := e + (scale : Int) - 127
      if m = 0 then .fin s 0 0
      else if magLt (Fmt.max .f19).1 (Fmt.max .f19).2 m e' then .inf s
      else if magLt m e' 1 (-126) then .fin false 0 0
      else .fin s m e'

/-- An F19 container (R61): bits 12:0 are 0, and no subnormal. -/
def isF19 (c : Nat) : Bool := c % 8192 = 0 && (c / 2 ^ 23 % 256 ≠ 0 || c % 2 ^ 23 = 0)

/-- The order of spec/03 R71: by magnitude and sign, −0 below +0. -/
def keyLe (a b : Val) : Bool :=
  if Val.lt a b then true
  else if Val.lt b a then false
  else Val.sign a || !Val.sign b

/-- A valid decode table (spec/03 R71). -/
def tableOk (t : DecodeTable) : Bool :=
  t.length = 256 && t.all (fun c => isF19 c.toNat && !Val.isNan (Fmt.decode .fp32 c.toNat)) &&
  (t.zip t.tail).all (fun p => keyLe (Fmt.decode .fp32 p.1.toNat) (Fmt.decode .fp32 p.2.toNat))

/-- The value of a D8 code (spec/03 R73). -/
def tableVal (t : DecodeTable) (c : Nat) : Val := Fmt.decode .fp32 (t.getD (c % 256) 0).toNat

/-- The distance of two values; an infinite one is none. -/
def distance : Val → Val → Option Dyadic
  | .fin s m e, .fin t n f => some (Dyadic.sub (Val.dyadic (.fin t n f)) (Val.dyadic (.fin s m e)))
  | .nan, _ => none
  | .inf _, _ => none
  | .fin _ _ _, .nan => none
  | .fin _ _ _, .inf _ => none

/-- encode_d8 (spec/03 R73): the code and the flags. Two infinite distances of a finite value count as equal; −∞ itself
encodes to the highest index of its run. -/
def encodeD8 (t : DecodeTable) (x : Val) : Nat × Flags :=
  if Val.isNan x then (0, { nv := true, nx := true })
  else
    let le := fun c => keyLe (tableVal t c) x
    let code :=
      if !le 0 then 0
      else
        let j := ((span 0 256).filter le).getLastD 0
        if j = 255 then 255
        else if x = .inf true then j
        else
          match distance (tableVal t j) x, distance x (tableVal t (j + 1)) with
          | some d1, some d2 => if Dyadic.lt d1 d2 then j else if Dyadic.lt d2 d1 then j + 1 else if j % 2 = 0 then j else j + 1
          | some _, none => j
          | none, some _ => j + 1
          | none, none => if j % 2 = 0 then j else j + 1
    (code, { nx := !Val.eq (tableVal t code) x })

/-- unpack3 (spec/03 R75): the five weights of a legal ternary byte. -/
def unpack3 (b : Nat) : List Int :=
  (span 0 5).map fun i => (b / 3 ^ i % 3 : Nat) - 1

/-! Vats (spec/03 R76 to R78). An element is its 128-bit number. -/

/-- vat_add of a value under the exponent E (R77). -/
def vatAdd (elem : BitVec 128) (x : Val) (e : Int) : BitVec 128 :=
  match x with
  | .nan => elem ||| (1#128 <<< 105)
  | .inf _ => elem ||| (1#128 <<< 105)
  | .fin s m f =>
    let r := roundUnits .rne s m (f - e) 0 false
    if 2 ^ 95 ≤ r.1 then elem ||| (1#128 <<< 104)
    else
      let k : Int := if s then -(r.1 : Int) else r.1
      let n : Int := ((elem.toNat % 2 ^ 104 : Nat) : Int) + k
      BitVec.ofNat 128 (elem.toNat / 2 ^ 104 * 2 ^ 104 + (n % (2 ^ 104 : Nat)).toNat)

/-- Read-out of an element (R78): value, and whether overflow is reported in addition. -/
def vatValue (elem : BitVec 128) (e : Int) : Val × Flags :=
  let v := elem.toNat
  if v / 2 ^ 104 % 4 ≠ 0 then (.nan, { nv := true })
  else
    let n := signed 104 v
    let inRange := -(2 ^ 95 : Nat) ≤ n ∧ n < (2 ^ 95 : Nat)
    (Dyadic.val ⟨n, e⟩, { ovf := !inRange })

/-- A zero element of a compressed transfer (spec/03 R79), by its type code. -/
def zeroCode (t c : Nat) : Bool :=
  match t with
  | 6 => c % 128 = 0
  | 7 => c % 0x8000 = 0
  | 8 => c % 0x80000000 = 0
  | 9 | 10 => c % 128 = 0
  | 11 | 12 => c % 32 = 0
  | 13 => c % 8 = 0
  | _ => c = 0

/-! The BF16 view of an MX block (spec/10 R234 to R237): 32 element codes and a scale. -/

/-- The element format of an alias page. -/
def aliasFmt (e5m2 : Bool) : Fmt := if e5m2 then .e5m2 else .e4m3

/-- A read of one element (R235). -/
def aliasRead (e5m2 : Bool) (scale code : Nat) : Nat :=
  match Fmt.decode (aliasFmt e5m2) code with
  | .nan => Fmt.nan .bf16
  | .inf s => if scale = 255 then Fmt.nan .bf16 else Fmt.encode .bf16 (.inf s)
  | .fin s m e =>
    if scale = 255 then Fmt.nan .bf16 else (roundFlt .bf16 (.fin s m (e + (scale : Int) - 127)) false .rne true).1

/-- The larger of two magnitudes. -/
def magMax (a b : Nat × Int) : Nat × Int := if magLt a.1 a.2 b.1 b.2 then b else a

/-- A full-block write (R236): the scale and the element codes of 32 BF16 values. -/
def aliasWrite (e5m2 : Bool) (ys : List Nat) : Nat × List Nat :=
  let vs := ys.map (Fmt.decode .bf16)
  if vs.any (fun v => match v with | .fin _ _ _ => false | .nan => true | .inf _ => true) then (255, ys.map fun _ => 0)
  else
    let top := vs.foldl (fun acc v => match v with | .fin _ m e => magMax acc (m, e) | .nan => acc | .inf _ => acc) (0, 0)
    let emax : Int := if e5m2 then 15 else 8
    let scale : Nat :=
      if top.1 = 0 then 127
      else
        let x : Int := (Nat.log2 top.1 : Int) + top.2 - emax + 127
        if x < 0 then 0 else if 254 < x then 254 else x.toNat
    (scale, vs.map fun v =>
      match v with
      | .fin s m e => (roundFlt (aliasFmt e5m2) (.fin s m (e + 127 - (scale : Int))) false .rne true).1
      | .nan => 0
      | .inf _ => 0)

end Sys2Proof.Machine
end

