-- ==== Sys2Proof/Machine/Ops.lean ====
section
/-! DEFINITION. The named operations over the state: its tables, the issuing thread, its registers, completing, parking and
waking, taking a trap (spec/18 R368) and returning from one (spec/19 R393). -/

namespace Sys2Proof.Machine

/-- What an instruction answers. -/
abbrev Res := Host.Outcome State Fault Refusal

/-! The tables of the state. -/

def State.core (s : State) (c : Nat) : Core := tabGet {} s.cores c

def State.putCore (s : State) (c : Nat) (k : Core) : State := { s with cores := tabPut s.cores c k }

def State.updCore (s : State) (c : Nat) (f : Core → Core) : State := s.putCore c (f (s.core c))

def State.thread (s : State) (c sl : Nat) : Thread := tabGet {} (s.core c).slots sl

def Core.putThread (k : Core) (sl : Nat) (t : Thread) : Core := { k with slots := tabPut k.slots sl t }

def State.putThread (s : State) (c sl : Nat) (t : Thread) : State := s.updCore c fun k => k.putThread sl t

def State.updThread (s : State) (c sl : Nat) (f : Thread → Thread) : State := s.putThread c sl (f (s.thread c sl))

def State.cluster (s : State) (k : Nat) : Cluster := tabGet {} s.clusters k

def State.updCluster (s : State) (k : Nat) (f : Cluster → Cluster) : State :=
  { s with clusters := tabPut s.clusters k (f (s.cluster k)) }

def State.pair (s : State) (p : Nat) : Pair := tabGet {} s.pairs p

def State.updPair (s : State) (p : Nat) (f : Pair → Pair) : State := { s with pairs := tabPut s.pairs p (f (s.pair p)) }

def State.die (s : State) (d : Nat) : Die := tabGet {} s.diesT d

def State.updDie (s : State) (d : Nat) (f : Die → Die) : State := { s with diesT := tabPut s.diesT d (f (s.die d)) }

def State.updHub (s : State) (f : Hub → Hub) : State := { s with hub := f s.hub }

/-- A live instance. -/
def State.inst (s : State) (i : Nat) : Option Inst := tabFind s.insts i

def State.updInst (s : State) (i : Nat) (f : Inst → Inst) : State :=
  match s.inst i with
  | some x => { s with insts := tabPut s.insts i (f x) }
  | none => s

/-- Tells the kernel or the host (in part DESIGN CHOICE, log 54). -/
def State.record (s : State) (r : Record) : State := { s with records := s.records ++ [r] }

/-- An event of the device that is ready to happen (DESIGN CHOICE, log 2). -/
def State.emit (s : State) (i : Instr) : State := { s with agenda := s.agenda ++ [i] }

def State.emitAll (s : State) (l : List Instr) : State := { s with agenda := s.agenda ++ l }

/-- The same, when it is not yet waiting. -/
def State.emitOnce (s : State) (i : Instr) : State := if s.agenda.contains i then s else s.emit i

/-- Draws a free value (spec/00 R5; DESIGN CHOICE, log 3): its index and the state that has drawn it. -/
def State.draw (s : State) : Nat × State := (s.freeCtr, { s with freeCtr := s.freeCtr + 1 })

/-- Picks one of n things that the spec leaves in no order. -/
def State.pick (s : State) (n : Nat) : Nat × State :=
  if n ≤ 1 then (0, s) else ((Config.freeValue s.freeCtr).toNat % n, { s with freeCtr := s.freeCtr + 1 })

/-! Where cores stand (spec/18 R381). -/

def clusterOf (c : Nat) : Nat := c / 8

def dieOf (c : Nat) : Nat := c / 256

/-- The partner core in the same cluster. -/
def partner (c : Nat) : Nat := c / 8 * 8 + (7 - c % 8)

/-- A pair is named by its lower core. -/
def pairOf (c : Nat) : Nat := min c (partner c)

/-- Mesh column and row. -/
def meshCol (c : Nat) : Nat := c / 8 % 4 * 4 + c % 4

def meshRow (c : Nat) : Nat :=
  let br := c / 8 % 32 / 4
  let h := c % 8 / 4
  if br ≤ 3 then 2 * br + 1 - h else 2 * br + h

/-- The core of a die at a mesh place. -/
def coreAt (die row col : Nat) : Nat :=
  let br := row / 2
  let h := if br ≤ 3 then 1 - row % 2 else row % 2
  256 * die + 8 * (4 * br + col / 4) + 4 * h + col % 4

/-- The neighbour in a direction, if the mesh has one (spec/08 R177): row 0 is the north row, and the columns count from west to
east (DESIGN CHOICE, log 62). -/
def neighbour (c : Nat) (p : Port) : Option Nat :=
  let d := dieOf c
  let r := meshRow c
  let x := meshCol c
  match p with
  | .mn => if r = 0 then none else some (coreAt d (r - 1) x)
  | .ms => if 15 ≤ r then none else some (coreAt d (r + 1) x)
  | .me => if 15 ≤ x then none else some (coreAt d r (x + 1))
  | .mw => if x = 0 then none else some (coreAt d r (x - 1))

/-! Threads. -/

/-- The slot holds a live thread. -/
def Thread.live (t : Thread) : Bool := t.st != .free

/-- The wait of a parked or halted thread. -/
def Thread.wait (t : Thread) : Option Wait :=
  match t.st with
  | .parked w => some w
  | .halted w => w
  | .free => none
  | .ready _ _ => none
  | .seated _ _ => none
  | .frozen => none
  | .stopped => none

/-- A slot holds a thread of an instance of this device, heavy or light: not the copy or link thread, and no proxy. -/
def ofInst (inst : Nat) (e : Nat × Thread) : Bool :=
  e.2.live && decide (e.1 < 62) && e.2.inst = inst && e.2.device = 0 && e.2.proxy.isNone

/-- A packet is of an instance of this device; and it is the context of a light thread. -/
def MigPacket.isOf (p : MigPacket) (inst : Nat) : Bool := p.inst = inst && p.device = 0
def MigPacket.lightOf (p : MigPacket) (inst : Nat) : Bool := p.kind = 0 && p.isOf inst

/-- The thread's allocation as its register fields meet it: a light thread has g1 to g10 (spec/04 R106). -/
def Thread.bound (t : Thread) : Nat := if t.light then 11 else t.alloc

/-- The rotating region is active (spec/01 R20, spec/04 R106). -/
def Thread.active (t : Thread) : Bool :=
  !t.light && t.rrsz.toNat ≠ 0 && 1 ≤ t.rrlo.toNat && t.rrlo.toNat + t.rrsz.toNat ≤ t.alloc

/-- The number that a register field value names (spec/01 R20). -/
def Thread.rename (t : Thread) (n : Nat) : Nat :=
  let lo := t.rrlo.toNat
  let sz := t.rrsz.toNat
  if t.active && lo ≤ n && n < lo + sz then (n - lo + t.rrb.toNat % sz) % sz + lo else n

/-- Register n, g0 reading 0 (spec/01 R13). -/
def Thread.reg (t : Thread) (n : Nat) : Word := if n = 0 then 0 else tabGet 0 t.regs n

/-- The fresh mark of register n (spec/11 R250; in part DEDUCED, log 5). -/
def Thread.isFresh (t : Thread) (n : Nat) : Bool := t.fresh.getLsbD n

/-- Writes register n with its fresh mark; a write to g0 is discarded (in part DEDUCED, log 5). -/
def Thread.setReg (t : Thread) (n : Nat) (v : Word) (fresh : Bool) : Thread :=
  if n = 0 then t
  else { t with
    regs := tabPut t.regs n v
    fresh := if fresh then t.fresh ||| (1#128 <<< n) else t.fresh &&& ~~~(1#128 <<< n) }

/-- Writes consecutive values from register n on, each number renamed separately (spec/09 R188). -/
def Thread.setRegs (t : Thread) (n : Nat) (fresh : Bool) : List Word → Thread
  | [] => t
  | v :: r => Thread.setRegs (t.setReg (t.rename n) v fresh) (n + 1) fresh r

/-- Reads k consecutive registers, each number renamed separately. -/
def Thread.regsFrom (t : Thread) (n : Nat) : Nat → List Word
  | 0 => []
  | k + 1 => t.reg (t.rename n) :: Thread.regsFrom t (n + 1) k

/-- The signed value of a register operand. -/
def Thread.supervisor (t : Thread) : Bool := t.mode = .supervisor

/-- Data addresses use pw.SPACE (spec/01 R17). -/
def Thread.space (t : Thread) : BitVec 8 := t.pw.extractLsb' 32 8

/-- Predicate p (spec/01 R15); p0 is always true. -/
def Thread.pred (t : Thread) (p : BitVec 5) : Bool := if p = 0 then true else t.pw.getLsbD p.toNat

/-- Writes predicate p; a result addressed to p0 is discarded (spec/04 R90). -/
def Thread.setPred (t : Thread) (p : BitVec 5) (b fresh : Bool) : Thread :=
  if p = 0 then t
  else { t with
    pw := if b then t.pw ||| (1#64 <<< p.toNat) else t.pw &&& ~~~(1#64 <<< p.toNat)
    freshP := if fresh then t.freshP ||| (1#32 <<< p.toNat) else t.freshP &&& ~~~(1#32 <<< p.toNat) }

/-! The issuing thread. -/

def State.cur (s : State) : Thread := s.thread s.ic s.is

def State.updCur (s : State) (f : Thread → Thread) : State := s.updThread s.ic s.is f

/-- The cycle of the issuing core. -/
def State.now (s : State) : Nat := (s.core s.ic).cyc

/-- min(n, 0xFFFF_FFFF) (spec/04 R97; in part DEDUCED, log 10). -/
def saturate32 (n : Nat) : BitVec 32 := if n < 2 ^ 32 then BitVec.ofNat 32 n else 0xFFFFFFFF#32

/-- What a thread keeps of its present instruction ends with it (spec/04 R97, spec/07 R143). -/
def Thread.over (t : Thread) : Thread := { t with issued := none, woke := none, granted := none, forfeits := 0, wants := [], walked := [] }

/-- The instruction completes and the thread goes on at the next word. -/
def State.advance (s : State) : State := s.updCur fun t => { t.over with pc := t.pc + 4 }

def done (s : State) : Res := .next s.advance

/-- The same for an instruction that records LATC when it parked (spec/04 R97; in part DEDUCED, log 10). -/
def doneLatc (s : State) : Res :=
  let now := s.now
  .next (State.advance (s.updCur fun t =>
    match t.issued with
    | some i => { t with latc := saturate32 (t.woke.getD now - i) }
    | none => t))

/-- The thread goes on at another address. -/
def jump (pc : Word) (s : State) : Res :=
  .next (s.updCur fun t => { t.over with pc := pc })

/-- The issuing thread parks (spec/07 R142). -/
def State.park (s : State) (w : Wait) : State :=
  let now := s.now
  s.updCur fun t => { t with
    st := match t.st with
      | .halted _ => .halted (some w)
      | .free | .ready _ _ | .seated _ _ | .parked _ | .frozen | .stopped => .parked w
    issued := some (t.issued.getD now), forfeits := 0, wants := [] }

def park (w : Wait) (s : State) : Res := .next (s.park w)

/-- A thread that waits goes on waiting, for another cause. -/
def Thread.waitFor (t : Thread) (w : Wait) : Thread :=
  match t.st with
  | .halted _ => { t with st := .halted (some w) }
  | .parked _ => { t with st := .parked w }
  | .free | .ready _ _ | .seated _ _ | .frozen | .stopped => t

/-- The cause of a wait is met: a parked thread becomes ready, and a halted one has no wait left (spec/07 R142,
spec/18 R374). -/
def Thread.wake (t : Thread) (now : Nat) : Thread :=
  match t.st with
  | .parked _ => { t with st := .ready now false, woke := some now }
  | .halted (some _) => { t with st := .halted none, woke := some now }
  | .halted none => t
  | .free => t
  | .ready _ _ => t
  | .seated _ _ => t
  | .frozen => t
  | .stopped => t

def State.wake (s : State) (c sl : Nat) : State :=
  s.updThread c sl fun t => t.wake (s.core c).cyc

/-- Completes the instruction that a thread waits in: its results, the next address, LATC when it records it, and the thread
is ready (in part DEDUCED, log 10). -/
def State.complete (s : State) (c sl : Nat) (latc : Bool) (f : Thread → Thread) : State :=
  let now := (s.core c).cyc
  s.updThread c sl fun t =>
    let t := (f t).wake now
    { t.over with
      pc := t.pc + 4
      latc := if latc then saturate32 (now - t.issued.getD now) else t.latc }

/-- Wakes every thread of a core whose wait meets a condition (in part DEDUCED, log 53). -/
def State.wakeIf (s : State) (c : Nat) (p : Wait → Bool) : State :=
  s.updCore c fun k => { k with slots := k.slots.map fun e =>
    (e.1, match e.2.wait with
      | some w => if p w then e.2.wake k.cyc else e.2
      | none => e.2) }

/-- Wakes the threads of every core. -/
def State.wakeAll (s : State) (p : Nat → Wait → Bool) : State :=
  s.cores.foldl (fun s e => s.wakeIf e.1 (p e.1)) s

/-! Traps (spec/18 R365 to R370). -/

/-- A thread at its handler's entry (spec/18 R368). -/
def Thread.enterHandler (t : Thread) (code : Nat) (val pc : Word) (space : BitVec 8) : Thread :=
  { t.over with
    tepc := pc, tcause := BitVec.ofNat 5 code, tval := val, fspace := space
    pm := t.supervisor, inh := true, mode := .supervisor, pc := t.tvec }

/-- take_trap (spec/18 R368): a light thread, or a thread inside a handler, freezes with a freeze record (R369). -/
def State.enterTrap (s : State) (c sl code : Nat) (val pc : Word) (space : BitVec 8) : State :=
  let t := s.thread c sl
  if t.light || t.inh then
    (s.putThread c sl { t.over with st := .frozen }).record
      (.freeze t.inst c sl (BitVec.ofNat 5 code) val pc t.tcause t.tval t.tepc)
  else s.putThread c sl (t.enterHandler code val pc space)

/-- A thread of an evicted instance (spec/18 R377). -/
def State.imageThread (s : State) (image sl : Nat) : Thread :=
  match tabFind s.images image with
  | some g => tabGet {} g.threads sl
  | none => {}

def State.putImageThread (s : State) (image sl : Nat) (t : Thread) : State :=
  match tabFind s.images image with
  | some g => { s with images := tabPut s.images image { g with threads := tabPut g.threads sl t } }
  | none => s

/-- take_trap for a thread of an evicted instance, which stays halted. -/
def State.enterImageTrap (s : State) (image sl code : Nat) (val pc : Word) (space : BitVec 8) : State :=
  let t := s.imageThread image sl
  if t.light || t.inh then
    (s.putImageThread image sl { t.over with st := .frozen }).record
      (.freeze t.inst 0 sl (BitVec.ofNat 5 code) val pc t.tcause t.tval t.tepc)
  else s.putImageThread image sl { t.enterHandler code val pc space with st := .halted none }

/-- The issuing thread traps at its own instruction; FSPACE is 0. -/
def trap (code : Nat) (val : Word) (s : State) : Res := .next (s.enterTrap s.ic s.is code val s.cur.pc 0)

/-- The same for a fault of a data access, with its space. -/
def trapAt (code : Nat) (va : VAddr) (s : State) : Res := .next (s.enterTrap s.ic s.is code va.off s.cur.pc va.space)

/-- Illegal instruction, with the word in TVAL. -/
def illegal (w : InstrWord) (s : State) : Res := trap 0 (w.setWidth 64) s

/-- Return from a handler (spec/19 R393): mode ← PM, INH ← 0, PC ← TEPC. -/
def State.returnTrap (s : State) : State :=
  s.updCur fun t => { t.over with
    mode := if t.pm then .supervisor else .user
    inh := false, pc := t.tepc }

/-! The device's features (spec/25 R445). -/

def State.accepted (s : State) (bit : Nat) : Bool := s.hub.accept0.getLsbD bit

/-! Ready order. -/

/-- A thread becomes ready now. -/
def Thread.makeReady (t : Thread) (now : Nat) : Thread := { t with st := .ready now false }

/-- The space names this device (spec/00 R10, spec/01 R17). -/
def State.ownSpace (s : State) (space : BitVec 8) : Bool := space = 0 || space = s.hub.devid

end Sys2Proof.Machine
end

