-- ==== Sys2Proof/Machine/Home.lean ====
section
/-! DEFINITION. Memory at its homes: where an address is homed (spec/10 R221, R222), signatures and the signature table
(spec/11 R243, R246), reads and writes of a place with poison (spec/10 R232), MX alias pages (R234 to R237), rind marks
(spec/15 R325), and what a write wakes (spec/09 R209 to R211). -/

namespace Sys2Proof.Machine

/-! Homes. -/

/-- The cluster whose slice is the home slice of a physical address (spec/10 R221). -/
def homeSlice (pa : Nat) : Nat := 32 * fld pa 10 9 + fld pa 20 16

/-- The home core of a physical address, where its page's attribute names no other (R221). -/
def homeCoreOf (pa : Nat) : Nat := 8 * homeSlice pa + fld pa 9 7

/-- Where a physical address stands in HBM4E (R221): stack, channel, pseudo-channel and bank. -/
def stackOf (pa : Nat) : Nat := fld pa 10 8
def channelOf (pa : Nat) : Nat := fld pa 15 11
def pseudoOf (pa : Nat) : Nat := fld pa 7 7
def bankOf (pa : Nat) : Nat := fld pa 24 21

/-- The number of an address's bank among those of all stacks: 16 in a pseudo-channel, 2 pseudo-channels in a channel, and 32
channels in a stack. -/
def bankNumber (pa : Nat) : Nat := ((stackOf pa * 32 + channelOf pa) * 2 + pseudoOf pa) * 16 + bankOf pa

/-- The banks of a bank's pseudo-channel. -/
def pseudoBanks (bank : Nat) : List Nat := span (bank / 16 * 16) 16

/-- The slice that an access to a target passes through (spec/10 R222). -/
def Target.slice (t : Target) : Nat :=
  match t.place with
  | .home pa => if t.attr = 1 then t.pinc.toNat % 128 else homeSlice pa
  | .mx f v _ => homeSlice (f + v / 64 * 32)
  | .window c _ => clusterOf c
  | .remote _ _ => 0

/-- The home core (spec/10 R221, R222; spec/11 R253); none for another device or the host. An alias page is never-cached, and
its blocks are homed where their elements stand. -/
def Target.homeCore (t : Target) : Option Nat :=
  match t.place with
  | .home pa =>
    if t.attr = 2 then some t.pinc.toNat
    else if t.attr = 1 then some (8 * (t.pinc.toNat % 128) + fld pa 9 7)
    else some (homeCoreOf pa)
  | .mx f v _ => some (homeCoreOf (f + v / 64 * 32))
  | .window c _ => some c
  | .remote _ _ => none

/-- The place moved on by n bytes. -/
def Place.plus (p : Place) (n : Nat) : Place :=
  match p with
  | .window c a => .window c (a + n)
  | .home pa => .home (pa + n)
  | .mx f v e => .mx f (v + n) e
  | .remote sp pa => .remote sp (pa + n)

/-- n bytes at p and m bytes at q share a byte. -/
def Place.overlaps (p : Place) (n : Nat) (q : Place) (m : Nat) : Bool :=
  match p, q with
  | .window c a, .window d b => c = d && a < b + m && b < a + n
  | .home a, .home b => a < b + m && b < a + n
  | .mx f a _, .mx g b _ => f = g && a < b + m && b < a + n
  | .remote x a, .remote y b => x = y && a < b + m && b < a + n
  | .window _ _, .home _ => false | .window _ _, .mx _ _ _ => false | .window _ _, .remote _ _ => false
  | .home _, .window _ _ => false | .home _, .mx _ _ _ => false | .home _, .remote _ _ => false
  | .mx _ _ _, .window _ _ => false | .mx _ _ _, .home _ => false | .mx _ _ _, .remote _ _ => false
  | .remote _ _, .window _ _ => false | .remote _ _, .home _ => false | .remote _ _, .mx _ _ _ => false

/-- The 128-byte aligned block that holds a place (spec/09 R209). -/
def Place.block (p : Place) : Place :=
  match p with
  | .window c a => .window c (a / 128 * 128)
  | .home pa => .home (pa / 128 * 128)
  | .mx f v e => .mx f (v / 128 * 128) e
  | .remote sp pa => .remote sp (pa / 128 * 128)

/-! Signatures (spec/11 R243). -/

/-- The low w bits of v in reverse order. -/
def revBits : Nat → Nat → Nat
  | 0, _ => 0
  | w + 1, v => v % 2 * 2 ^ w + revBits w (v / 2)

def rot3 (v : Nat) : Nat := v * 8 % 512 ||| v / 64

/-- The two hashes of the sector at a physical address. -/
def sigHashes (pa : Nat) : Nat × Nat :=
  let s := fld pa 47 5
  let a := fld s 8 0
  let b := fld s 17 9
  let c := fld s 26 18
  let d := fld s 35 27
  let e := fld s 42 36
  (a ^^^ b ^^^ c ^^^ d ^^^ e, revBits 9 a ^^^ rot3 b ^^^ revBits 9 c ^^^ rot3 d ^^^ revBits 7 e)

/-- A signature that contains just one sector. -/
def sigOf (pa : Nat) : BitVec 512 := (1#512 <<< (sigHashes pa).1) ||| (1#512 <<< (sigHashes pa).2)

/-- A signature contains a sector. -/
def sigContains (g : BitVec 512) (pa : Nat) : Bool := g.getLsbD (sigHashes pa).1 && g.getLsbD (sigHashes pa).2

/-- The signature of every sector that n bytes at a physical address touch. -/
def sigRange (pa n : Nat) : BitVec 512 :=
  (span (pa / 32) ((pa + n - 1) / 32 + 1 - pa / 32)).foldl (fun g x => g ||| sigOf (32 * x)) 0

def allOnes512 : BitVec 512 := BitVec.allOnes 512

/-! The signature table of a slice (spec/11 R246). -/

/-- The entry of a line. -/
def Cluster.sigEntry (k : Cluster) (line : Nat) : Option SigEntry := k.sigs.find? fun e => e.line = line

/-- Allocates and updates a line's entry: carried is the signature of a heavy thread's release to a SYNC page, none in
every other case. -/
def Cluster.sigRelease (k : Cluster) (line : Nat) (carried : Option (BitVec 512)) : Cluster :=
  let used := k.sigUses + 1
  let old : SigEntry := (k.sigEntry line).getD ⟨line, allOnes512, allOnes512, used⟩
  let new : SigEntry :=
    match carried with
    | some g => { old with cur := old.cur ||| g, used := used }
    | none => { old with cur := allOnes512, prev := allOnes512, used := used }
  let rest := k.sigs.filter fun e => e.line != line
  let rest :=
    if rest.length < 256 then rest
    else match best (fun (a b : SigEntry) => decide (a.used < b.used)) rest with
      | some v => rest.filter fun e => e.line != v.line
      | none => rest
  { k with sigs := rest ++ [new], sigUses := used }

/-- A release performed at a target's home enters the line's entry (spec/11 R246); other devices keep their own tables (in part DEDUCED, log 57). -/
def State.sigRelease (s : State) (t : Target) (carried : Option (BitVec 512)) : State :=
  match t.place with
  | .home pa => s.updCluster t.slice fun k => k.sigRelease (pa / 128) (if t.sync then carried else none)
  | .mx f v _ => s.updCluster t.slice fun k => k.sigRelease ((f + v / 64 * 32) / 128) (if t.sync then carried else none)
  | .window _ _ => s
  | .remote _ _ => s

/-- The value of a line's entry in a slice, all ones where there is none. -/
def Cluster.sigValue (k : Cluster) (line : Nat) : BitVec 512 :=
  match k.sigEntry line with
  | some e => e.cur ||| e.prev
  | none => allOnes512

/-- The signature S that an acquire at a target's home returns (spec/11 R247). -/
def State.sigAcquire (s : State) (t : Target) : BitVec 512 :=
  match t.place with
  | .home pa => if t.sync then (s.cluster t.slice).sigValue (pa / 128) else allOnes512
  | .mx f v _ => if t.sync then (s.cluster t.slice).sigValue ((f + v / 64 * 32) / 128) else allOnes512
  | .window _ _ => allOnes512
  | .remote _ _ => allOnes512

/-! Reading a place. -/

/-- The address of another device's or the host's byte (in part PRESUMED, log 13). -/
def extAddr (space pa : Nat) : Nat := space * 2 ^ 48 + pa

/-- The lowest of n bytes at a physical address that lies in a poisoned sector (spec/10 R232; in part DEDUCED, log 9). -/
def State.poisonAt (s : State) (pa n : Nat) : Option Nat :=
  lowest ((s.poison.filter fun x => 32 * x < pa + n && pa < 32 * x + 32).map fun x => if 32 * x ≤ pa then 0 else 32 * x - pa)

/-- The BF16 view of one element of an alias page (spec/10 R234, R235). -/
def State.aliasElem (s : State) (frame k j : Nat) (e5m2 : Bool) : Nat :=
  aliasRead e5m2 (memGet s.mem (frame + 0x100000 + k)).toNat (memGet s.mem (frame + 32 * k + j)).toNat

/-- The 64 bytes of the view of block k. -/
def State.aliasBlock (s : State) (frame k : Nat) (e5m2 : Bool) : List Byte :=
  (span 0 32).foldr (fun j r => leBytes (s.aliasElem frame k j e5m2) 2 ++ r) []

/-- n bytes of the view from an offset on. -/
def State.aliasBytes (s : State) (frame view n : Nat) (e5m2 : Bool) : List Byte :=
  let k0 := view / 64
  let k1 := (view + n - 1) / 64
  let all := (span k0 (k1 + 1 - k0)).foldr (fun k r => s.aliasBlock frame k e5m2 ++ r) []
  (all.drop (view % 64)).take n

/-- The lowest byte of n view bytes whose block stands in a poisoned sector. -/
def State.aliasPoison (s : State) (frame view n : Nat) : Option Nat :=
  lowest ((span (view / 64) ((view + n - 1) / 64 + 1 - view / 64)).filterMap fun k =>
    if s.poison.contains ((frame + 32 * k) / 32) || s.poison.contains ((frame + 0x100000 + k) / 32)
    then some (if 64 * k ≤ view then 0 else 64 * k - view) else none)

/-- An address of a core's banks lies in bytes that hold unspecified values. -/
def Core.isUnspecified (k : Core) (a : Nat) : Bool := k.unspecified.any fun u => u.lo ≤ a && a < u.lo + u.len

/-- n bytes of a core's banks; unspecified bytes are free values (spec/14 R305), numbered from ctr on. -/
def Core.bankBytes (k : Core) (ctr a : Nat) : Nat → List Byte
  | 0 => []
  | n + 1 =>
    (if k.isUnspecified a then (Config.freeValue ctr).setWidth 8 else memGet k.sram a) :: k.bankBytes (ctr + 1) (a + 1) n

/-- The lowest of n bytes of banks that lies in a poisoned row (spec/18 R371). -/
def Core.bankPoison (k : Core) (a n : Nat) : Option Nat :=
  lowest ((k.badRows.filter fun x => 128 * x < a + n && a < 128 * x + 128).map fun x => if 128 * x ≤ a then 0 else 128 * x - a)

/-- n bytes at a place, the index of the lowest poisoned one, and the state, which has drawn free values if a byte was
unspecified. -/
def State.readPlace (s : State) (p : Place) (n : Nat) : List Byte × Option Nat × State :=
  match p with
  | .window c a =>
    let k := s.core c
    (k.bankBytes s.freeCtr a n, k.bankPoison a n, if k.unspecified = [] then s else { s with freeCtr := s.freeCtr + n })
  | .home pa => (memRead s.mem pa n, s.poisonAt pa n, s)
  | .mx f v e => (s.aliasBytes f v n e, s.aliasPoison f v n, s)
  | .remote sp pa => (memRead s.ext (extAddr sp pa) n, none, s)

/-! What a write wakes. -/

/-- The scope of a wait, measured at a core, contains an agent (spec/00 R8, R9). -/
def scopeHas (scope : Nat) (c : Nat) (a : Agent) : Bool :=
  match scope, a with
  | 0, _ => false
  | 1, .core d => d = c
  | 1, .cluster _ => false
  | 2, .core d => clusterOf d = clusterOf c
  | 2, .cluster k => k = clusterOf c
  | 3, .core d => dieOf d = dieOf c
  | 3, .cluster k => k / 32 = dieOf c
  | 1, .hub => false
  | 2, .hub => false
  | 3, .hub => false
  | _, .hub => true
  | 5, .outside => true
  | _, .outside => false
  | _, .core _ => true
  | _, .cluster _ => true

/-- Clears every triggered bit (spec/09 R210). -/
def Thread.clearTriggered (t : Thread) : Thread := { t with monitors := t.monitors.map fun m => { m with triggered := false } }

/-- A cause of MON.WAIT takes precedence over another that holds in the same cycle (spec/09 R210): 1, then 3, then 2. -/
def causeBefore (a b : Nat) : Bool := (a = 1 && b != 1) || (a = 3 && b = 2)

/-- Completes a MON.WAIT or an IDLE with a cause (spec/09 R210, spec/19 R399; in part DEDUCED, log 25); a MON.WAIT that has completed
in this cycle with a lesser cause holds this one instead. -/
def Thread.wakeCause (t : Thread) (now cause : Nat) : Thread :=
  match t.wait with
  | some (.monitor rd _ _ _) => { wakeWith rd with cause := some (now, rd, cause) }
  | some (.idle rd) => wakeWith rd
  | _ =>
    match t.cause with
    | some (n, rd, old) =>
      if n = now && causeBefore cause old then { t.clearTriggered.setReg rd (BitVec.ofNat 64 cause) false with cause := some (n, rd, cause) }
      else t
    | none => t
where
  wakeWith (rd : Nat) : Thread :=
    let u := ((t.clearTriggered).setReg rd (BitVec.ofNat 64 cause) false).wake now
    { u.over with pc := u.pc + 4 }

/-- A thread's monitors meet a write: those inside the scope of its wait trigger, others get a notice. -/
def Thread.touch (t : Thread) (now : Nat) (a : Agent) (p : Place) (n : Nat) : Thread × Bool :=
  let hit := t.monitors.any fun m => m.place.overlaps 128 p n
  if !hit then (t, false)
  else
    let near :=
      match t.wait with
      | some (.monitor _ _ scope c) => scopeHas scope.toNat c a
      | _ => true
    let t := { t with monitors := t.monitors.map fun m =>
      if m.place.overlaps 128 p n then (if near then { m with triggered := true } else { m with noticed := true }) else m }
    if near then (t.wakeCause now 1, false) else (t, true)

/-- The monitors of every core meet a write (spec/09 R209), but for the core whose threads have already met it. -/
def State.touchMonitors (s : State) (a : Agent) (skip : Option Nat) (p : Place) (n : Nat) : State :=
  s.cores.foldl (fun s e =>
    if skip = some e.1 || e.2.slots.all (fun x => x.2.monitors.isEmpty) then s
    else
      e.2.slots.foldl (fun s x =>
        let r := x.2.touch e.2.cyc a p n
        let s := if x.2.monitors.isEmpty then s else s.putThread e.1 x.1 r.1
        if r.2 then s.emit (.monitorNotice e.1 x.1) else s) s) s

/-- A doubleword as the threads of a core see it: its home's bytes under those that the core's cache holds dirty (spec/11
R241; in part DEDUCED, log 26). -/
def State.wordSeen (s : State) (c : Nat) (p : Place) : Nat :=
  let b := (s.readPlace p 8).1
  match p with
  | .home pa =>
    match (s.core c).cache.find? fun l => l.line = pa / 128 with
    | some l =>
      leNat ((span 0 8).map fun i =>
        if l.dirty.getLsbD (pa % 128 + i) then l.data.extractLsb' (8 * (pa % 128 + i)) 8 else b.getD i 0)
    | none => leNat b
  | .window _ _ | .mx _ _ _ | .remote _ _ => leNat b

/-- A thread that waits on a counter compares it after a write (spec/09 R211; in part DEDUCED, log 26). -/
def State.touchCounter (s : State) (c slot : Nat) (t : Thread) (p : Place) (n : Nat) : State :=
  match t.wait with
  | some (.counter x target _) =>
    if x.place.overlaps 8 p n && target.toNat ≤ s.wordSeen c x.place then
      s.updThread c slot fun u => { u.wake (s.core c).cyc with granted := some (s.sigAcquire x) }
    else s
  | _ => s

/-- Every thread that waits on a counter meets a write. -/
def State.touchCounters (s : State) (p : Place) (n : Nat) : State :=
  s.cores.foldl (fun s e => e.2.slots.foldl (fun s x => s.touchCounter e.1 x.1 x.2 p n) s) s

/-- A write to n bytes at a place has been performed. -/
def State.touch (s : State) (a : Agent) (skip : Option Nat) (p : Place) (n : Nat) : State :=
  (s.touchMonitors a skip p n).touchCounters p n

/-! Rind marks (spec/15 R324, R325). -/

/-- The physical address of a tensor byte, through the segments that MX.NORM found. -/
def segFind (l : List Seg) (off : Nat) : Option Nat :=
  match l.find? (fun g => g.off ≤ off && off < g.off + g.len) with
  | some g => some (g.pa + (off - g.off))
  | none => none

def RindEntry.base (r : RindEntry) : Nat := fld r.desc.toNat 511 448
def RindEntry.rbase (r : RindEntry) : Nat := fld r.desc.toNat 447 384
def RindEntry.sbase (r : RindEntry) : Nat := fld r.desc.toNat 383 320
def RindEntry.kn (r : RindEntry) : Nat := fld r.desc.toNat 319 288
def RindEntry.nb (r : RindEntry) : Nat := fld r.desc.toNat 287 272
def RindEntry.ety (r : RindEntry) : Nat := fld r.desc.toNat 263 260
def RindEntry.pitch (r : RindEntry) : Nat := fld r.desc.toNat 19 0
/-- Bytes of an element. -/
def RindEntry.size (r : RindEntry) : Nat := if r.ety = 7 then 2 else 1
/-- Rind blocks along one line. -/
def RindEntry.cols (r : RindEntry) : Nat := (r.kn + 31) / 32

/-- The rind block of an element byte at an offset: its number in the state words. -/
def RindEntry.blockOf (r : RindEntry) (off : Nat) : Option Nat :=
  if off < r.base then none
  else
    let rel := off - r.base
    let l := rel / r.pitch
    let k := rel % r.pitch / r.size
    if l < 128 * r.nb && k < r.kn then some (l / 128 * r.cols + k / 32) else none

/-- The tensor bytes that a physical byte stands for. -/
def RindEntry.bytesAt (r : RindEntry) (a : Nat) : List Nat :=
  ((r.elems.filter fun g => g.pa ≤ a && a < g.pa + g.len).map fun g => span (g.off + (a - g.pa) * g.step) g.step).flatten

/-- The rind blocks of an entry that n bytes at a physical address touch. -/
def RindEntry.touched (r : RindEntry) (pa n : Nat) : List Nat :=
  (span pa n).foldl (fun acc a =>
    (r.bytesAt a).foldl (fun acc x =>
      match r.blockOf x with
      | some b => if acc.contains b then acc else acc ++ [b]
      | none => acc) acc) []

/-- The physical address of a state word. -/
def RindEntry.statePa (r : RindEntry) (b : Nat) : Option Nat := segFind r.states (r.sbase + 4 * b)

/-- The state word of a block. -/
def State.rindWord (s : State) (r : RindEntry) (b : Nat) : Nat :=
  match r.statePa b with
  | some pa => leNat (memRead s.mem pa 4)
  | none => 0

def State.putRindWord (s : State) (r : RindEntry) (b v : Nat) : State :=
  match r.statePa b with
  | some pa => { s with mem := memWrite s.mem pa (leBytes v 4) }
  | none => s

/-- A mark: STALE ← 1 and GEN ← GEN + 1. -/
def State.rindMark (s : State) (r : RindEntry) (b : Nat) : State :=
  s.putRindWord r b (2 ^ 31 + (s.rindWord r b + 1) % 2 ^ 31)

/-- The rind blocks of an entry that one write to runs of physical bytes touches, each once. -/
def RindEntry.touchedAll (r : RindEntry) (l : List (Nat × Nat)) : List Nat :=
  l.foldl (fun acc x => acc ++ (r.touched x.1 x.2).filter fun b => !acc.contains b) []

/-- One write to runs of physical bytes marks the blocks it touches, in every entry. -/
def State.rindMarks (s : State) (l : List (Nat × Nat)) : State :=
  s.hub.directory.foldl (fun s e => (e.2.touchedAll l).foldl (fun s b => s.rindMark e.2 b) s) s

/-! Writing a place. -/

/-- Bytes of HBM4E: a fully written sector loses its poison (spec/10 R232). -/
def State.putHome (s : State) (pa : Nat) (b : List Byte) : State :=
  { s with
    mem := memWrite s.mem pa b
    poison := s.poison.filter fun x => !(pa ≤ 32 * x && 32 * x + 32 ≤ pa + b.length) }

/-- A write at the home of HBM4E bytes. -/
def State.writeHome (s : State) (a : Agent) (skip : Option Nat) (pa : Nat) (b : List Byte) : State :=
  ((s.putHome pa b).rindMarks [(pa, b.length)]).touch a skip (.home pa) b.length

/-- One block of an alias page: a full write or, for fewer bytes, a partial one (spec/10 R236, R237). -/
def State.aliasPut (s : State) (a : Agent) (frame k from_ : Nat) (b : List Byte) (e5m2 : Bool) : State :=
  let view := s.aliasBlock frame k e5m2
  let new := view.take from_ ++ b ++ view.drop (from_ + b.length)
  let ys := (span 0 32).map fun j => leNat ((new.drop (2 * j)).take 2)
  let r := aliasWrite e5m2 ys
  let s := (s.putHome (frame + 32 * k) (r.2.map (BitVec.ofNat 8))).putHome (frame + 0x100000 + k) [BitVec.ofNat 8 r.1]
  let s := s.rindMarks [(frame + 32 * k, 32), (frame + 0x100000 + k, 1)]
  ((s.touch a none (.home (frame + 32 * k)) 32).touch a none (.home (frame + 0x100000 + k)) 1).touch a none (.mx frame (64 * k) e5m2) 64

/-- A write into an alias page, block by block. -/
def State.aliasWriteBytes (s : State) (a : Agent) (frame : Nat) (e5m2 : Bool) : Nat → Nat → List Byte → State
  | 0, _, _ => s
  | fuel + 1, view, b =>
    if b = [] then s
    else
      let from_ := view % 64
      let n := min b.length (64 - from_)
      State.aliasWriteBytes (s.aliasPut a frame (view / 64) from_ (b.take n) e5m2) a frame e5m2 fuel (view + n) (b.drop n)

/-- What is left of a range of unspecified bytes after n bytes from a on are written. -/
def Unspecified.cut (u : Unspecified) (a n : Nat) : List Unspecified :=
  if u.held then [u]
  else
    [{ u with len := min u.len (a - u.lo) }, { u with lo := max u.lo (a + n), len := u.lo + u.len - max u.lo (a + n) }].filter
      fun v => v.len != 0

/-- A write into a core's banks: a fully written row loses its poison (spec/18 R371). -/
def Core.writeBank (k : Core) (a : Nat) (b : List Byte) : Core :=
  let n := b.length
  { k with
    sram := memWrite k.sram a b
    badRows := k.badRows.filter fun x => !(a ≤ 128 * x && 128 * x + 128 ≤ a + n)
    unspecified := (k.unspecified.map fun u => u.cut a n).flatten }

/-- Writes bytes at a place: the write is performed, marks, and wakes. -/
def State.writePlace (s : State) (a : Agent) (p : Place) (b : List Byte) : State :=
  match p with
  | .window c x => (s.updCore c fun k => k.writeBank x b).touch a none (.window c x) b.length
  | .home pa => s.writeHome a none pa b
  | .mx f v e => s.aliasWriteBytes a f e (b.length + 1) v b
  | .remote sp pa => { s with ext := memWrite s.ext (extAddr sp pa) b }.touch a none (.remote sp pa) b.length

/-! Pins (spec/14 R304). -/

/-- The physical lines in which the byte of a place stands: an alias page's stands in those of its block's elements and scale. -/
def Place.lines (p : Place) : List Nat :=
  match p with
  | .home pa => [pa / 128]
  | .mx f v _ => [(f + v / 64 * 32) / 128, (f + 0x100000 + v / 64) / 128]
  | .window _ _ => []
  | .remote _ _ => []

/-- The line of a target is pinned by some engine. -/
def State.pinned (s : State) (p : Place) : Bool := s.clusters.any fun e => e.2.pins.any fun x => p.lines.contains x.line

/-- The same for pins of engines other than a cluster's own. -/
def State.pinnedBut (s : State) (own : Nat) (p : Place) : Bool :=
  s.clusters.any fun e => e.1 != own && e.2.pins.any fun x => p.lines.contains x.line

/-! L2 slices (spec/10 R222, R223). -/

/-- The set of a slice in which a physical address stands. -/
def sliceSet (pa : Nat) : Nat := fld pa 15 10 * 32 + fld pa 25 21

def sliceWays : Nat := 16

/-- Ways of a set that may hold slice-pinned lines. -/
def slicePinnedWays : Nat := 8

/-- The line that a full set of a slice gives up: the least recently used of those that no pin holds, one held as a cached line
first. -/
def Cluster.sliceVictim (k : Cluster) (set : Nat) : Option SliceLine :=
  let mates := k.lines.filter fun l => l.set = set && !k.pins.any fun p => p.line = l.line
  match best (fun (a b : SliceLine) => decide (a.used < b.used)) (mates.filter fun l => !l.pinned) with
  | some l => some l
  | none => best (fun (a b : SliceLine) => decide (a.used < b.used)) mates

/-- An access to a line passes through a slice, which allocates it; a slice-pinned one that finds its set's 8 pinned ways in use
is held as a cached line. What the slice holds dirty stands in State.mem, as every reader of the line sees it. -/
def Cluster.sliceUse (k : Cluster) (pa : Nat) (pinned write : Bool) : Cluster :=
  let line := pa / 128
  let set := sliceSet pa
  let old := k.lines.find? fun l => l.line = line
  let rest := k.lines.filter fun l => l.line != line
  let held := (rest.filter fun l => l.set = set && l.pinned).length < slicePinnedWays
  let new : SliceLine :=
    { line := line, set := set, dirty := write || (old.map (·.dirty)).getD false, pinned := pinned && held, used := k.lineUses + 1 }
  let room :=
    if (rest.filter fun l => l.set = set).length < sliceWays then rest
    else match ({ k with lines := rest } : Cluster).sliceVictim set with
      | some v => rest.filter fun l => l.line != v.line
      | none => rest
  { k with lines := room ++ [new], lineUses := k.lineUses + 1 }

/-- The lines of n bytes of a target pass through its slice; a never-cached page's lines are not held there. -/
def State.sliceUse (s : State) (t : Target) (n : Nat) (write : Bool) : State :=
  match t.place with
  | .home pa =>
    if t.attr = 3 then s
    else (span (pa / 128) ((pa + n - 1) / 128 + 1 - pa / 128)).foldl (fun s x =>
      s.updCluster t.slice fun k => k.sliceUse (128 * x) (t.attr = 1) write) s
  | .window _ _ | .mx _ _ _ | .remote _ _ => s

end Sys2Proof.Machine
end

