-- ==== Sys2Proof/Machine/Paging.lean ====
section
/-! DEFINITION. Translation: the local window region (spec/10 R217, R218), the space table and the walk (R225 to R228), the
order of faults (R229) and the TLBs (R231). -/

namespace Sys2Proof.Machine

/-! The local window region. -/

/-- Offset of the local window region, and its size (R217). -/
def windowBase : Nat := 0xFFFF000000000000
def windowSize : Nat := 0x40000

/-- The bytes of an instance's window: its scratch banks and then its operand banks, in ascending bank order. -/
def Inst.banks (i : Inst) : List Nat := i.scratch ++ i.operand

/-- The bank address of a window offset (R217). -/
def Inst.bankAddr (i : Inst) (w : Nat) : Option Nat :=
  match i.banks[w / 8192]? with
  | some b => some (b * 8192 + w % 8192)
  | none => none

/-- An access to the window of an instance, from a core, or from an engine, which finds the banks wherever they stand
(spec/13 R290). -/
def State.windowXlate (s : State) (inst : Nat) (core : Option Nat) (need : Need) (va : VAddr) : Xlate :=
  if need.noWindow then .window
  else
    match s.inst inst with
    | none => .window
    | some i =>
      match i.bankAddr (va.off.toNat - windowBase) with
      | none => .window
      | some a =>
        if core = none || core = some i.core then .ok ⟨va, .window i.core a, 3, 0, false, false⟩ else .window

/-! Table entries. -/

/-- A doubleword of a table, read by physical address; nothing stands beyond HBM4E (R220). -/
def State.tableWord (s : State) (pa : Nat) : Option Nat :=
  if pa + 8 ≤ Config.hbmBytes then some (leNat (memRead s.mem pa 8)) else none

/-- Bytes that a leaf at a level maps (R227). -/
def pageSize (level : Nat) (c64 : Bool) : Nat :=
  match level with
  | 2 => 2 ^ 30
  | 3 => 2 ^ 21
  | _ => if c64 then 2 ^ 16 else 2 ^ 12

/-- PINC fits ATTR, and ALIAS (R227). -/
def pincOk (e : Nat) : Bool :=
  let pinc := fld e 59 50
  if fld e 7 7 = 1 then pinc ≤ 1
  else
    match fld e 11 10 with
    | 1 => pinc < 128
    | 2 => true
    | _ => pinc = 0

/-- The leaf at a level is malformed (R228). Nonzero low bits of PPN below the page size, and C64 above level 4, count as a
reserved field that is not 0 (DEDUCED, log 14). -/
def leafBad (kind level e : Nat) : Bool :=
  let frame := fld e 47 12 * 4096
  let c64 := fld e 2 2 = 1
  let size := pageSize level c64
  let view := fld e 7 7 = 1
  (c64 && level != 4) || frame % size != 0 || (kind != 2 && Config.hbmBytes < frame + size) || !pincOk e ||
  (view && !(level = 3 && fld e 11 10 = 3)) ||
  (kind != 0 && (fld e 11 10 != 3 || fld e 9 7 != 0))

/-- The 16 entries of a 64 KiB group are the same (R227, R228). -/
def State.groupSame (s : State) (table index e : Nat) : Bool :=
  (span (index / 16 * 16) 16).all fun j => s.tableWord (table + 8 * j) = some e

/-- The walk from a table at a level on (R227, R228). -/
def State.walkFrom (s : State) (kind off : Nat) : Nat → Nat → Nat → Walk
  | 0, _, _ => .page
  | fuel + 1, level, table =>
    let index := off / 2 ^ (12 + 9 * (4 - level)) % 512
    match s.tableWord (table + 8 * index) with
    | none => .hole
    | some e =>
      if fld e 0 0 = 0 then .page
      else if fld e 63 60 != 0 || fld e 49 48 != 0 then .page
      else if fld e 1 1 = 0 then
        if level = 4 || fld e 59 50 != 0 || fld e 11 2 != 0 then .page
        else State.walkFrom s kind off fuel (level + 1) (fld e 47 12 * 4096)
      else if level = 1 || leafBad kind level e then .page
      else if fld e 2 2 = 1 && !s.groupSame table index e then .page
      else
        let size := pageSize level (fld e 2 2 = 1)
        .leaf (off / size * size) size (BitVec.ofNat 64 e) (BitVec.ofNat 2 kind)

/-- A space by one number: this device's two names are one (R226). -/
def State.normSpace (s : State) (space : BitVec 8) : BitVec 8 := if s.ownSpace space then 0 else space

/-- The whole walk of an address below 2^48 (R226, R227). -/
def State.walk (s : State) (va : VAddr) : Walk :=
  let n := (s.normSpace va.space).toNat
  match s.tableWord (s.hub.sptbr.toNat + 8 * n) with
  | none => .hole
  | some e =>
    let kind := fld e 11 10
    if fld e 0 0 = 0 || kind = 3 || fld e 63 48 != 0 || fld e 9 1 != 0 then .access
    else if (kind = 2 && n != 255) || (kind = 1 && (n = 0 || n = 255)) || (n = 255 && !s.accepted 10) then .access
    else s.walkFrom kind va.off.toNat 4 1 (fld e 47 12 * 4096)

/-! Leaves. -/

/-- The target of an address in a leaf's page (R222, R224, R234). -/
def leafTarget (va : VAddr) (base : Nat) (leaf : BitVec 64) (kind : BitVec 2) : Target :=
  let e := leaf.toNat
  let frame := fld e 47 12 * 4096
  let pa := frame + (va.off.toNat - base)
  let place : Place :=
    if kind = 1 then .remote va.space.toNat pa
    else if kind = 2 then .remote 255 pa
    else if fld e 7 7 = 1 then .mx frame (va.off.toNat - base) (fld e 50 50 = 1)
    else .home pa
  ⟨va, place, BitVec.ofNat 2 (fld e 11 10), BitVec.ofNat 10 (fld e 59 50), fld e 9 9 = 1, fld e 8 8 = 1⟩

/-- The leaf allows the access (R227, R228). -/
def leafAllows (leaf : BitVec 64) (need : Need) (user : Bool) : Bool :=
  (!need.r || leaf.getLsbD 4) && (!need.w || leaf.getLsbD 5) && (!need.x || leaf.getLsbD 6) && (!user || leaf.getLsbD 3)

def leafXlate (va : VAddr) (base : Nat) (leaf : BitVec 64) (kind : BitVec 2) (need : Need) (user : Bool) : Xlate :=
  if leafAllows leaf need user then .ok (leafTarget va base leaf kind) else .page

/-! TLBs (R231; DESIGN CHOICE, log 6). -/

def tlbHit (t : List TlbEntry) (space : BitVec 8) (off : Nat) : Option TlbEntry :=
  t.find? fun e => e.space = space && e.base ≤ off && off < e.base + e.size

/-- Enters a translation; a full TLB drops its oldest entry. -/
def tlbEnter (size : Nat) (t : List TlbEntry) (e : TlbEntry) : List TlbEntry :=
  let t := t.filter fun x => !(x.space = e.space && x.base = e.base && x.size = e.size)
  (if size ≤ t.length then t.drop (t.length + 1 - size) else t) ++ [e]

/-! Translation of an access. -/

/-- Which of the fixed regions an address is in: the window, no translated address at all, or a translated one (R217, R218,
R225). -/
inductive Region where
  | window
  | bad
  | translated
  deriving DecidableEq, Repr

def State.region (s : State) (va : VAddr) : Region :=
  let off := va.off.toNat
  if s.ownSpace va.space && windowBase ≤ off && off < windowBase + windowSize then .window
  else if 2 ^ 48 ≤ off then .bad
  else .translated

/-- A thread's access at its core: the faults in the order of R229, and the core TLB, with the translations that walks have brought
for the present instruction (in part DESIGN CHOICE, log 17). -/
def State.xlate (s : State) (c sl : Nat) (need : Need) (va : VAddr) : Xlate :=
  let t := s.thread c sl
  match s.region va with
  | .window => s.windowXlate t.inst (some c) need va
  | .bad => .access
  | .translated =>
    match tlbHit ((s.core c).tlb ++ t.walked) (s.normSpace va.space) va.off.toNat with
    | some e => leafXlate va e.base e.leaf e.kind need (!t.supervisor)
    | none => .miss

/-- An engine's access for an instance: checked as a user-mode access (R229), walked at once. -/
def State.engineXlate (s : State) (inst : Nat) (need : Need) (va : VAddr) : Xlate :=
  match s.region va with
  | .window => s.windowXlate inst none need va
  | .bad => .access
  | .translated =>
    match s.walk va with
    | .leaf base _ leaf kind => leafXlate va base leaf kind need true
    | .access => .access
    | .page => .page
    | .hole => .hole

/-- A walk's completion enters the translation into the TLBs of a core and of its cluster (R231). A cluster TLB that holds the
page serves the miss without a walk. -/
def State.refillTlb (s : State) (c : Nat) (va : VAddr) : Walk × State :=
  let sp := s.normSpace va.space
  match tlbHit (s.cluster (clusterOf c)).tlb sp va.off.toNat with
  | some e => (.leaf e.base e.size e.leaf e.kind, s.updCore c fun k => { k with tlb := tlbEnter 128 k.tlb e })
  | none =>
    match s.walk va with
    | .leaf base size leaf kind =>
      let e : TlbEntry := ⟨sp, base, size, leaf, kind⟩
      (.leaf base size leaf kind,
        (s.updCore c fun k => { k with tlb := tlbEnter 128 k.tlb e }).updCluster (clusterOf c) fun k =>
          { k with tlb := tlbEnter 4096 k.tlb e })
    | .access => (.access, s)
    | .page => (.page, s)
    | .hole => (.hole, s)

end Sys2Proof.Machine
end

