-- ==== Sys2Proof/Machine/Cache.lean ====
section
/-! DEFINITION. A core's cache (spec/10 R219), write-backs (spec/11 R241), releases and acquires of cluster scope or wider
(R245, R247), and the acquire of named bytes (spec/13 R280). -/

namespace Sys2Proof.Machine

/-! Lines. -/

/-- The cache-role banks, each one way (spec/07 R151). -/
def Core.roleBanks (k : Core) (role : Nat) : List Nat := (span 0 32).filter fun b => fld k.bankrole.toNat (2 * b + 1) (2 * b) = role

def Core.ways (k : Core) : List Nat := k.roleBanks 1

/-- The ways that still take fills (spec/18 R382). -/
def Core.fillWays (k : Core) : List Nat := k.ways.filter fun b => !k.noFill.contains b

def Core.line (k : Core) (line : Nat) : Option CacheLine := k.cache.find? fun l => l.line = line

def Core.putLine (k : Core) (l : CacheLine) : Core := { k with cache := (k.cache.filter fun x => x.line != l.line) ++ [l] }

def Core.dropLine (k : Core) (line : Nat) : Core := { k with cache := k.cache.filter fun x => x.line != line }

/-- Byte i of a line. -/
def CacheLine.byte (l : CacheLine) (i : Nat) : Byte := l.data.extractLsb' (8 * i) 8

/-- A line with bytes from index i on replaced. -/
def lineWith (d : BitVec 1024) (i : Nat) : List Byte → BitVec 1024
  | [] => d
  | b :: r => lineWith ((d &&& ~~~(0xFF#1024 <<< (8 * i))) ||| (b.setWidth 1024 <<< (8 * i))) (i + 1) r

/-- The mask of n bits from bit i on. -/
def maskBits (w i n : Nat) : BitVec w := BitVec.ofNat w ((2 ^ n - 1) * 2 ^ i)

/-- The dirty bytes of a sector. -/
def CacheLine.dirtyIn (l : CacheLine) (sector : Nat) : Bool := l.dirty &&& maskBits 128 (32 * sector) 32 ≠ 0

/-- A line is marked used now (R219: least recently used). -/
def Core.useLine (k : Core) (line : Nat) : Core :=
  { k with
    uses := k.uses + 1
    cache := k.cache.map fun l => if l.line = line then { l with used := k.uses + 1 } else l }

/-! Write-backs (spec/11 R241). -/

/-- The dirty bytes of a sector as runs of an index and bytes. -/
def CacheLine.runs (l : CacheLine) : Nat → Nat → List (Nat × List Byte)
  | 0, _ => []
  | n + 1, i =>
    let rest := l.runs n (i + 1)
    if l.dirty.getLsbD i then
      match rest with
      | (j, b) :: r => if j = i + 1 then (i, l.byte i :: b) :: r else (i, [l.byte i]) :: rest
      | [] => [(i, [l.byte i])]
    else rest

/-- Writes back the dirty bytes of a sector: the home merges only those bytes, and a mark of poison is carried (spec/10
R232). -/
def State.writeBackSector (s : State) (c : Nat) (l : CacheLine) (sector : Nat) : State :=
  if l.dirtyIn sector then
    let pa := 128 * l.line
    let s := s.updCluster (homeSlice pa) fun k => k.sliceUse pa false true
    let s := (l.runs 32 (32 * sector)).foldl (fun s r => s.writeHome (.core c) (some c) (pa + r.1) r.2) s
    if l.poison.getLsbD sector then
      let x := pa / 32 + sector
      { s with poison := if s.poison.contains x then s.poison else s.poison ++ [x] }
    else s
  else s

/-- The line with a sector clean. -/
def CacheLine.clean (l : CacheLine) (sector : Nat) : CacheLine := { l with dirty := l.dirty &&& ~~~(maskBits 128 (32 * sector) 32) }

/-- The line with a sector gone. -/
def CacheLine.drop (l : CacheLine) (sector : Nat) : CacheLine :=
  { l.clean sector with valid := l.valid &&& ~~~(maskBits 4 sector 1), poison := l.poison &&& ~~~(maskBits 4 sector 1) }

/-- Writes back a whole line of a core's cache; it stays, clean. -/
def State.writeBackLine (s : State) (c line : Nat) : State :=
  match (s.core c).line line with
  | none => s
  | some l =>
    if l.dirty = 0 then s
    else
      let s := (span 0 4).foldl (fun s x => s.writeBackSector c l x) s
      s.updCore c fun k => k.putLine { l with dirty := 0 }

/-- Writes back every dirty sector of a core's cache (R245 step 1). -/
def State.writeBackAll (s : State) (c : Nat) : State :=
  (s.core c).cache.foldl (fun s l => s.writeBackLine c l.line) s

/-- Writes back one sector and invalidates it. -/
def State.evictSector (s : State) (c line sector : Nat) : State :=
  match (s.core c).line line with
  | none => s
  | some l =>
    if l.valid.getLsbD sector then
      let s := s.writeBackSector c l sector
      let l := l.drop sector
      s.updCore c fun k => if l.valid = 0 then k.dropLine line else k.putLine l
    else s

/-- Writes back a line and invalidates it. -/
def State.evictLine (s : State) (c line : Nat) : State := (s.writeBackLine c line).updCore c fun k => k.dropLine line

/-- Some dirty line of the core's cache is pinned, so that its write-back is held (spec/14 R304). -/
def State.dirtyPinned (s : State) (c : Nat) : Bool :=
  (s.core c).cache.any fun l => l.dirty != 0 && s.pinned (.home (128 * l.line))

/-! Hits and fills (spec/10 R219). -/

/-- The line of a physical address holds rind values or state words, which no core's cache holds (spec/15 R325). -/
def State.rindLine (s : State) (pa : Nat) : Bool :=
  s.hub.directory.any fun e => (e.2.values ++ e.2.states).any fun g => g.pa / 128 ≤ pa / 128 && pa / 128 ≤ (g.pa + g.len - 1) / 128

/-- The cache of a core may hold the line of a target (R219, R222). -/
def State.cacheable (s : State) (c : Nat) (t : Target) : Bool :=
  match t.place with
  | .home pa => (t.attr = 0 || (t.attr = 2 && t.pinc.toNat = c)) && (s.core c).ways != [] && !s.rindLine pa
  | .window _ _ => false
  | .mx _ _ _ => false
  | .remote _ _ => false

/-- Every sector that n bytes at a physical address touch is valid in the core's cache. -/
def Core.hit (k : Core) (pa n : Nat) : Bool :=
  (span (pa / 32) ((pa + n - 1) / 32 + 1 - pa / 32)).all fun x =>
    match k.line (x / 4) with
    | some l => l.valid.getLsbD (x % 4)
    | none => false

/-- n bytes of the cache. -/
def Core.cached (k : Core) (pa : Nat) : Nat → List Byte
  | 0 => []
  | n + 1 =>
    (match k.line (pa / 128) with
      | some l => l.byte (pa % 128)
      | none => 0) :: k.cached (pa + 1) n

/-- The lowest of n cached bytes that lies in a poisoned sector. -/
def Core.cachePoison (k : Core) (pa n : Nat) : Option Nat :=
  (span 0 n).find? fun i =>
    match k.line ((pa + i) / 128) with
    | some l => l.poison.getLsbD ((pa + i) % 128 / 32)
    | none => false

/-- The way and the line that a fill replaces: a free way of the set, or that of its least recently used line. -/
def Core.victim (k : Core) (line : Nat) : Option (Nat × Option Nat) :=
  let mates := k.cache.filter fun l => l.line % 64 = line % 64
  match k.fillWays.find? fun w => mates.all fun l => l.way != w with
  | some w => some (w, none)
  | none =>
    match best (fun (a b : CacheLine) => decide (a.used < b.used)) (mates.filter fun l => k.fillWays.contains l.way) with
    | some l => some (l.way, some l.line)
    | none => none

/-- A fill must wait: it would write back a pinned line. -/
def State.fillHeld (s : State) (c pa : Nat) : Bool :=
  match (s.core c).line (pa / 128) with
  | some _ => false
  | none =>
    match (s.core c).victim (pa / 128) with
    | some (_, some v) =>
      (match (s.core c).line v with
        | some l => l.dirty != 0 && s.pinned (.home (128 * v))
        | none => false)
    | some (_, none) => false
    | none => false

/-- The sectors of a line that are poisoned at the home. -/
def State.homePoison (s : State) (line : Nat) : BitVec 4 :=
  (span 0 4).foldl (fun m x => if s.poison.contains (4 * line + x) then m ||| maskBits 4 x 1 else m) 0

/-- The home's bytes of the sectors that a choice names stand in a line, but for its dirty bytes (DEDUCED, log 59). -/
def State.sectorsFrom (s : State) (l : CacheLine) (which : Nat → Bool) : CacheLine :=
  let bytes := memRead s.mem (128 * l.line) 128
  ((span 0 4).filter which).foldl (fun (l : CacheLine) x =>
    { l with
      data := (span (32 * x) 32).foldl (fun d i => if l.dirty.getLsbD i then d else lineWith d i [bytes.getD i 0]) l.data
      poison := if s.poison.contains (4 * l.line + x) then l.poison ||| maskBits 4 x 1 else l.poison
      filled := tabPut l.filled x s.serial }) l

/-- Fills the whole line of a physical address; sectors that are valid keep their bytes. The flag says that the page is an
ATTR 0 page. A core none of whose ways takes fills fills nothing. -/
def State.fill (s : State) (c pa : Nat) (attr0 : Bool) : State :=
  let line := pa / 128
  let s := { s with serial := s.serial + 1 }.updCluster (homeSlice pa) fun k => k.sliceUse pa false false
  match (s.core c).line line with
  | some l =>
    s.updCore c fun k => (k.putLine { s.sectorsFrom l (fun x => !l.valid.getLsbD x) with valid := 15 }).useLine line
  | none =>
    match (s.core c).victim line with
    | none => s
    | some (way, old) =>
      let s := match old with
        | some v => s.evictLine c v
        | none => s
      let l : CacheLine :=
        { line := line, way := way, data := lineWith 0 0 (memRead s.mem (128 * line) 128), valid := 15, dirty := 0
          poison := s.homePoison line, cached := attr0, used := 0, filled := (span 0 4).map fun x => (x, s.serial) }
      s.updCore c fun k => (k.putLine l).useLine line

/-- The sectors of a line that n bytes at a physical address touch. -/
def touchesSector (pa n line x : Nat) : Bool := pa < 128 * line + 32 * x + 32 && 128 * line + 32 * x < pa + n

/-- Some of n cached bytes are dirty by another thread than the reader. -/
def CacheLine.foreign (l : CacheLine) (pa n id : Nat) : Bool :=
  l.writer != id && (span 0 n).any fun i => (pa + i) / 128 = l.line && l.dirty.getLsbD ((pa + i) % 128)

/-- What another thread of the core has written, and a thread is about to read or the line of which it writes, goes home first: a
store is seen by no thread but its writer before it is performed (spec/08 R169; DEDUCED, log 60). -/
def State.settleFor (s : State) (c id pa n : Nat) (write : Bool) : State :=
  ((s.core c).cache.filter fun l => l.foreign pa n id || (write && l.dirty != 0 && l.writer != id && l.line = pa / 128)).foldl
    (fun s l => s.writeBackLine c l.line) s

/-- The same would write back a pinned line. -/
def State.settleHeld (s : State) (c id pa n : Nat) (write : Bool) : Bool :=
  (s.core c).cache.any fun l =>
    (l.foreign pa n id || (write && l.dirty != 0 && l.writer != id && l.line = pa / 128)) && s.pinned (.home (128 * l.line))

/-- A hit on sectors that were filled before what a thread has already read takes the home's bytes as they now stand (spec/08 R172;
DEDUCED, log 59). -/
def State.refresh (s : State) (c seen pa n : Nat) : State :=
  let old := fun (l : CacheLine) (x : Nat) => touchesSector pa n l.line x && l.valid.getLsbD x && tabGet 0 l.filled x < seen
  let stale := (s.core c).cache.filter fun l => (span 0 4).any (old l)
  if stale.isEmpty then s
  else
    let s := { s with serial := s.serial + 1 }
    stale.foldl (fun s l => s.updCore c fun k => k.putLine (s.sectorsFrom l (old l))) s

/-- The latest filling of a sector that n bytes at a physical address touch. -/
def Core.filledAt (k : Core) (pa n : Nat) : Nat :=
  k.cache.foldl (fun m l => (span 0 4).foldl (fun m x => if touchesSector pa n l.line x then max m (tabGet 0 l.filled x) else m) m) 0

/-- A heavy thread's store enters SIGW for the sectors of an ATTR 0 page (spec/11 R244). -/
def State.noteWrite (s : State) (c : Nat) (t : Target) (n : Nat) : State :=
  match t.place with
  | .home pa => if t.attr = 0 then s.updCore c fun k => { k with sigw := k.sigw ||| sigRange pa n } else s
  | .window _ _ => s
  | .mx _ _ _ => s
  | .remote _ _ => s

/-- The monitors and the waits on counters of a core's own threads meet a store that its cache holds (in part DEDUCED, log 26). -/
def State.touchOwn (s : State) (c : Nat) (p : Place) (n : Nat) : State :=
  let k := s.core c
  let s := if k.slots.all (fun x => x.2.monitors.isEmpty) then s
    else
      k.slots.foldl (fun s x =>
        if x.2.monitors.isEmpty then s
        else
          let r := x.2.touch k.cyc (.core c) p n
          let s := s.putThread c x.1 r.1
          if r.2 then s.emit (.monitorNotice c x.1) else s) s
  k.slots.foldl (fun s x => s.touchCounter c x.1 (s.thread c x.1) p n) s

/-- A store of a thread that hits: it marks its bytes dirty, or goes through to the home while the cache is write-through (spec/18
R382). A sector of which it writes all 32 bytes loses its mark of poison. The bytes stay in one line. -/
def State.cacheStore (s : State) (c id pa : Nat) (b : List Byte) : State :=
  let line := pa / 128
  let i := pa % 128
  match (s.core c).line line with
  | none => s
  | some l =>
    let through := (s.core c).writeThrough
    let poison := (span 0 4).foldl (fun m x => if i ≤ 32 * x && 32 * x + 32 ≤ i + b.length then m &&& ~~~(maskBits 4 x 1) else m) l.poison
    let l := { l with
      data := lineWith l.data i b
      dirty := if through then l.dirty else l.dirty ||| maskBits 128 i b.length
      writer := id
      poison := poison }
    let s := s.updCore c fun k => (k.putLine l).useLine line
    let s := s.touchOwn c (.home pa) b.length
    if through then s.writeHome (.core c) (some c) pa b else s

/-- An access whose address is fresh, or that otherwise bypasses the cache: the sectors it touches are written back and
invalidated (spec/11 R250). -/
def State.bypass (s : State) (c pa n : Nat) : State :=
  (span (pa / 32) ((pa + n - 1) / 32 + 1 - pa / 32)).foldl (fun s x => s.evictSector c (x / 4) (x % 4)) s

/-! Releases and acquires (spec/11 R245, R247). -/

/-- Steps 1 and 3 of R245; step 2 waits for the thread's REDs. -/
def State.releaseCore (s : State) (c : Nat) : State :=
  (s.writeBackAll c).updCore c fun k => { k with sighCur := k.sighCur ||| k.sigw, sigw := 0 }

/-- The signature that a release of the core carries. -/
def Core.carried (k : Core) : BitVec 512 := k.sighCur ||| k.sighPrev

/-- The sectors of ATTR 0 pages that S contains. -/
def Core.matching (k : Core) (g : BitVec 512) : List (Nat × Nat) :=
  (k.cache.map fun l =>
    if l.cached then
      ((span 0 4).filter fun x => l.valid.getLsbD x && sigContains g (128 * l.line + 32 * x)).map fun x => (l.line, x)
    else []).flatten

/-- The core acts on S (R247). -/
def State.applySig (s : State) (c : Nat) (g : BitVec 512) : State :=
  let hits := (s.core c).matching g
  let s := hits.foldl (fun s x => s.evictSector c x.1 x.2) s
  s.updCore c fun k => { k with
    sigSect := k.sigSect + BitVec.ofNat 32 hits.length
    sigFull := if g = allOnes512 then k.sigFull + 1 else k.sigFull
    sighCur := k.sighCur ||| g }

/-- The acquire of named bytes of an ATTR 0 page (spec/13 R280, spec/11 R248): the sectors that n bytes at a physical address
touch. -/
def State.acquireSectors (s : State) (c pa n : Nat) (attr0 : Bool) : State :=
  let s := s.bypass c pa n
  if attr0 then s.updCore c fun k => { k with sigw := k.sigw ||| sigRange pa n } else s

end Sys2Proof.Machine
end

