-- ==== Sys2Proof/Machine/Operands.lean ====
section
/-! DEFINITION. Register operands: limits (spec/01 R13, R14), renaming (R20), fresh marks (spec/11 R250), and the ports that
a register field may name (spec/04 R83): mailbox (spec/13 R278 to R280), link queue (spec/22 R415) and mesh neighbours
(spec/08 R176, R177). -/

namespace Sys2Proof.Machine

/-! Register limits. -/

/-- Numbers at or beyond the allocation among renamed register numbers: the lowest is reported (spec/18 R365; in part DEDUCED, log 52). -/
def limitNumbers (l : List Nat) (k : State → Res) (s : State) : Res :=
  match lowest ((l.map s.cur.rename).filter fun n => s.cur.bound ≤ n) with
  | some n => trap 5 (BitVec.ofNat 64 n) s
  | none => k s

/-- The first port that the fields name. -/
def firstPort (l : List (BitVec 7)) : Option Nat := lowest ((l.filter isPort).map (·.toNat))

/-- The register checks of an instruction's fields: the register limit, and the port fault of a light thread (in part DEDUCED, log 52). -/
def limit (l : List (BitVec 7)) (k : State → Res) (s : State) : Res :=
  limitNumbers ((l.filter fun r => !isPort r).map (·.toNat))
    (fun s =>
      match firstPort l with
      | some p => if s.cur.light then trap 6 (BitVec.ofNat 64 p) s else k s
      | none => k s) s

/-- The numbers at or beyond A that group fields and implicit registers name (spec/01 R14, spec/02 R37, spec/18 R365). -/
def groupLimits (bound : Nat) (groups implicit : List Nat) : List Nat :=
  (groups.filter fun k => bound < 16 * k + 16).map (fun k => max (16 * k) bound) ++ implicit.filter fun n => bound ≤ n

/-! The mailbox (spec/13 R278 to R280). -/

/-- The acquire of n bytes of a space from an offset on, page by page: bytes that are not translated are passed over. -/
def State.acquireRange (s : State) (c : Nat) (sp : BitVec 8) : Nat → Nat → Nat → State
  | 0, _, _ => s
  | fuel + 1, off, len =>
    if len = 0 || 2 ^ 48 ≤ off then s
    else
      let va : VAddr := ⟨sp, BitVec.ofNat 64 off⟩
      match s.walk va with
      | .leaf base size leaf kind =>
        let n := min len (base + size - off)
        let t := leafTarget va base leaf kind
        let s := match t.place with
          | .home pa => s.acquireSectors c pa n (t.attr = 0)
          | .window _ _ => s
          | .mx _ _ _ => s
          | .remote _ _ => s
        s.acquireRange c sp fuel (off + n) (len - n)
      | .access | .page | .hole =>
        let n := min len (4096 - off % 4096)
        s.acquireRange c sp fuel (off + n) (len - n)

/-- The acquire of LEN bytes from ADDR on (R280): all memory when LEN is all ones, nothing when it is 0. -/
def State.acquireBytes (s : State) (c : Nat) (sp : BitVec 8) (addr len : Nat) : State :=
  if len = 0xFFFFFFFF then s.applySig c allOnes512
  else s.acquireRange c sp (len / 4096 + 2) addr len

def msgAddr (m : BitVec 128) : Nat := fld m.toNat 127 64
def msgLen (m : BitVec 128) : Nat := fld m.toNat 63 32
def msgSpace (m : BitVec 128) : BitVec 8 := m.extractLsb' 8 8

/-- A message's fields (R278). -/
def makeMsg (addr len aux space kind status : Nat) : BitVec 128 :=
  BitVec.ofNat 128 (addr % 2 ^ 64 * 2 ^ 64 + len % 2 ^ 32 * 2 ^ 32 + aux % 2 ^ 16 * 2 ^ 16 + space % 256 * 256 + kind % 16 * 16 + status % 16)

/-- The acquire of a message (R280). -/
def State.acquireMsg (s : State) (c : Nat) (m : BitVec 128) : State := s.acquireBytes c (msgSpace m) (msgAddr m) (msgLen m)

/-- A message is for a slot of an instance. -/
def Message.isFor (m : Message) (inst slot : Nat) : Bool := m.inst = inst && m.slot = slot

/-- The oldest message for a slot of an instance. -/
def Core.oldest (k : Core) (inst slot : Nat) : Option Message := k.mailbox.find? fun m => m.isFor inst slot

/-- Drops the oldest message for a slot. -/
def dropOldest (inst slot : Nat) : List Message → List Message
  | [] => []
  | m :: r => if m.isFor inst slot then r else m :: dropOldest inst slot r

/-- Marks the oldest message for a slot as half-read. -/
def halfOldest (inst slot : Nat) : List Message → List Message
  | [] => []
  | m :: r => if m.isFor inst slot then { m with half := true } :: r else m :: halfOldest inst slot r

/-! Instances of a core. -/

/-- A queue control word of an instance (spec/07 R149): 0 request backing, 1 deque, 2 ports, 3 mailbox. -/
def Inst.control (i : Inst) (q : Nat) : Nat := fld i.queues.toNat (64 * q + 63) (64 * q)

def Inst.depth (i : Inst) (q : Nat) : Nat := fld (i.control q) 47 32

/-- The instance stands on a core. -/
def Inst.resident (i : Inst) : Bool :=
  match i.st with
  | .evicted _ => false
  | .live | .halting | .halted | .killing => true

/-- The instances resident on a core, in order of dispatch. -/
def State.residents (s : State) (c : Nat) : List (Nat × Inst) :=
  sortBy (fun a b => decide (a.2.order < b.2.order)) (s.insts.filter fun e => e.2.core = c && e.2.resident)

/-- The thread waits for room of one kind. -/
def isRoom (what : Room) (w : Wait) : Bool := decide (w = .room what)

/-- The thread waits for an element at a port. -/
def isElement (port : Nat) (w : Wait) : Bool := decide (w = .element port)

/-- Room in a core's mailbox lets a held message be delivered (R279), a parked MB.SEND to its residents go on (spec/16 R362), and a
task with an overflow area retire (spec/07 R157; in part DEDUCED, log 53). -/
def State.mailRoom (s : State) (c : Nat) : State :=
  let s := s.mailFlight.foldl (fun s m => s.emitOnce (.mailboxDelivery m.inst)) s
  let s := s.wakeAll fun _ w => (s.residents c).any fun e => isRoom (.mail e.1) w
  (s.residents c).foldl (fun s e => if e.2.depth 3 != 0 then s.emitOnce (.taskRetirement e.1) else s) s

/-- An acquire writes back dirty sectors (spec/11 R247): it waits while a pin holds one. -/
def acquiring (k : State → Res) (s : State) : Res := if s.dirtyPinned s.ic then park (.room .pin) s else k s

/-- A read of mbx: the first read acquires and gives bits 63:0, the second gives bits 127:64 and removes the message. -/
def readMbx (k : Opnd → State → Res) (s : State) : Res :=
  let t := s.cur
  match (s.core s.ic).oldest t.inst s.is with
  | none => park .mail s
  | some m =>
    if m.half then
      k ⟨m.body.extractLsb' 64 64, false⟩ ((s.updCore s.ic fun c => { c with mailbox := dropOldest t.inst s.is c.mailbox }).mailRoom s.ic)
    else
      acquiring (fun s =>
        k ⟨m.body.extractLsb' 0 64, false⟩
          ((s.updCore s.ic fun c => { c with mailbox := halfOldest t.inst s.is c.mailbox }).acquireMsg s.ic m.body)) s

/-! Releases that are not stores (spec/11 R245, R248). -/

/-- Steps 1 to 3 of R245 for the issuing thread: the dirty sectors go home, once no pin holds one, and the thread waits for its
REDs; the instruction then issues again. -/
def released (k : State → Res) (s : State) : Res :=
  if s.dirtyPinned s.ic then park (.room .pin) s
  else if s.cur.reds != [] then park .reds (s.writeBackAll s.ic)
  else k (s.releaseCore s.ic)

/-! The link queue (spec/22 R415). -/

def linkDepth : Nat := 16

def readLnk (k : Opnd → State → Res) (s : State) : Res :=
  if s.is != 63 then trap 6 121 s
  else
    match (s.core s.ic).lnk with
    | [] => park (.element 121) s
    | x :: r => k ⟨x.value, false⟩ ((s.updCore s.ic fun c => { c with lnk := r }).wakeIf s.ic (isRoom .lnk))

def writeLnk (v : Word) (k : State → Res) (s : State) : Res :=
  if s.is = 63 || v.getLsbD 63 then trap 6 121 s
  else if linkDepth ≤ (s.core s.ic).lnk.length then park (.room .lnk) s
  else
    released (fun s =>
      let inst := s.cur.inst
      let s := s.updCore s.ic fun c => { c with lnk := c.lnk ++ [⟨v, inst⟩] }
      k (s.wakeIf s.ic (isElement 121))) s

/-! The mesh-neighbour ports (spec/08 R177). -/

def portNumber : Port → Nat
  | .mn => 0
  | .me => 1
  | .ms => 2
  | .mw => 3

def portOf (n : Nat) : Port :=
  match n with
  | 0 => .mn
  | 1 => .me
  | 2 => .ms
  | _ => .mw

/-- The receive side that faces back. -/
def facing : Port → Port
  | .mn => .ms
  | .me => .mw
  | .ms => .mn
  | .mw => .me

/-- The port owner of a core. -/
def State.portOwner (s : State) (c : Nat) : Option (Nat × Inst) :=
  match (s.residents c).find? fun e => e.2.depth 2 != 0 with
  | some e => some e
  | none => (s.residents c).head?

/-- Entries of each receive side of a core. -/
def State.portRoom (s : State) (c : Nat) : Nat :=
  match s.portOwner c with
  | some e => 4 + e.2.depth 2 / 4
  | none => 4

/-- The issuing thread belongs to the port owner. -/
def State.ownsPorts (s : State) : Bool :=
  match s.portOwner s.ic with
  | some e => e.1 = s.cur.inst
  | none => false

/-- Entries of a send side. -/
def sendDepth : Nat := 4

/-- A port takes no element now: its send side is full, or the receive side that it faces. -/
def State.portFull (s : State) (c : Nat) (dir : Port) : Bool :=
  match neighbour c dir with
  | none => false
  | some d =>
    decide (sendDepth ≤ (tabGet [] (s.core c).sends (portNumber dir)).length) ||
    decide (s.portRoom d ≤ (tabGet [] (s.core d).ports (portNumber (facing dir))).length)

/-- A receive side of a core may have room: the elements sent towards it arrive, and those that wait to send go on. -/
def State.sideMoved (s : State) (c : Nat) (dir : Port) : State :=
  match neighbour c dir with
  | none => s
  | some d =>
    let back := facing dir
    let s := if tabGet [] (s.core d).sends (portNumber back) = [] then s else s.emitOnce (.portElementArrival c dir)
    if s.portFull d back then s else s.wakeIf d (isRoom (.port (122 + portNumber back)))

/-- The same for every side of a core, and its readers find what is there. -/
def State.portsMoved (s : State) (c : Nat) : State :=
  [Port.mn, Port.me, Port.ms, Port.mw].foldl (fun s d =>
    let s := s.sideMoved c d
    if tabGet [] (s.core c).ports (portNumber d) = [] then s else s.wakeIf c (isElement (122 + portNumber d))) s

def readMesh (n : Nat) (k : Opnd → State → Res) (s : State) : Res :=
  if !s.ownsPorts then trap 6 (BitVec.ofNat 64 n) s
  else
    match tabGet [] (s.core s.ic).ports (n - 122) with
    | [] => park (.element n) s
    | x :: r =>
      acquiring (fun s =>
        let s := (s.updCore s.ic fun c => { c with ports := tabPut c.ports (n - 122) r }).applySig s.ic x.signature
        k ⟨x.value, false⟩ (s.sideMoved s.ic (portOf (n - 122)))) s

def writeMesh (n : Nat) (v : Word) (k : State → Res) (s : State) : Res :=
  if !s.ownsPorts then trap 6 (BitVec.ofNat 64 n) s
  else
    let dir := portOf (n - 122)
    match neighbour s.ic dir with
    | none => trap 6 (BitVec.ofNat 64 n) s
    | some d =>
      if s.portFull s.ic dir then park (.room (.port n)) s
      else
        released (fun s =>
          let e : Element := ⟨v, (s.core s.ic).carried⟩
          let side := portNumber dir
          k ((s.updCore s.ic fun c => { c with sends := tabPut c.sends side (tabGet [] c.sends side ++ [e]) }).emitOnce
            (.portElementArrival d (facing dir)))) s

/-! Operands. -/

/-- The register that a field names is fresh: by its own mark, or because the rotating region that renames it is. -/
def Thread.freshAt (t : Thread) (n : Nat) : Bool := t.isFresh (t.rename n) || (t.active && t.freshRR != 0)

/-- A register field that names no port, as a source. -/
def Thread.opnd (t : Thread) (r : BitVec 7) : Opnd := ⟨t.reg (t.rename r.toNat), t.freshAt r.toNat⟩

/-- A source field: a register, or a port, whose read pops one element. -/
def readSrc (r : BitVec 7) (k : Opnd → State → Res) (s : State) : Res :=
  if isPort r then
    (if r.toNat = 120 then readMbx k s
    else if r.toNat = 121 then readLnk k s
    else readMesh r.toNat k s)
  else k (s.cur.opnd r) s

/-- Writes a register field that names no port. -/
def State.setRd (s : State) (r : BitVec 7) (v : Word) (fresh : Bool) : State :=
  s.updCur fun t => t.setReg (t.rename r.toNat) v (fresh || (t.active && t.freshRR != 0))

/-- A destination field: a register, or a port, whose write enqueues one element. -/
def writeDst (r : BitVec 7) (v : Word) (fresh : Bool) (k : State → Res) (s : State) : Res :=
  if isPort r then
    (if r.toNat = 120 then trap 6 120 s
    else if r.toNat = 121 then writeLnk v k s
    else writeMesh r.toNat v k s)
  else k (s.setRd r v fresh)

/-- A write to the port is possible now: a load whose destination it is performs only then (spec/01 R27). -/
def portReady (r : BitVec 7) (k : State → Res) (s : State) : Res :=
  if isPort r then writeDst r 0 false (fun _ => k s) s else k s

/-! Instructions that compute registers from registers. -/

/-- rd ← f(rs1). -/
def unary (f : Word → Word) (a d : BitVec 7) (s : State) : Res :=
  limit [a, d] (readSrc a fun x => writeDst d (f x.val) x.fresh done) s

/-- rd ← f(rs1, rs2). -/
def binary (f : Word → Word → Word) (b a d : BitVec 7) (s : State) : Res :=
  limit [a, b, d] (readSrc a fun x => readSrc b fun y => writeDst d (f x.val y.val) (x.fresh || y.fresh) done) s

/-- rd ← f(rs1, rs2, old rd); rd is no port. -/
def ternary (f : Word → Word → Word → Word) (b a d : BitVec 7) (s : State) : Res :=
  limit [a, b, d] (readSrc a fun x => readSrc b fun y s =>
    let z := s.cur.opnd d
    done (s.setRd d (f x.val y.val z.val) (x.fresh || y.fresh || z.fresh))) s

end Sys2Proof.Machine
end

