-- ==== Sys2Proof/Machine/Flags.lean ====
section
/-! DEFINITION. The sticky flags: FFLAGS (spec/01 R22, spec/04 R92) and VXF (spec/05 R113, R114). -/

namespace Sys2Proof.Machine

/-- Flags as FFLAGS holds them: NV, DZ, OF, UF, NX in bits 4 to 0. -/
def Flags.fflags (f : Flags) : BitVec 5 :=
  BitVec.ofBool f.nv ++ BitVec.ofBool f.dz ++ BitVec.ofBool f.ovf ++ BitVec.ofBool f.udf ++ BitVec.ofBool f.nx

/-- Flags as VXF holds them: T, SAT, NV, DZ, OF, UF, NX in bits 6 to 0. -/
def Flags.vxf (f : Flags) (t : Bool) : BitVec 7 := BitVec.ofBool t ++ BitVec.ofBool f.sat ++ Flags.fflags f

/-- A scalar operation's flags; a light thread records none (spec/04 R92). -/
def State.addFflags (s : State) (f : Flags) : State :=
  s.updCur fun t => if t.light then t else { t with fflags := t.fflags ||| Flags.fflags f }

/-- A vector instruction's flags. -/
def State.addVxf (s : State) (f : Flags) (t : Bool) : State := s.updCur fun u => { u with vxf := u.vxf ||| Flags.vxf f t }

/-- The scalar rounding mode; a light thread rounds with RNE (spec/04 R92). -/
def Thread.roundMode (t : Thread) : Rm := if t.light then .rne else rmOf t.frm.toNat

end Sys2Proof.Machine
end

