-- ==== Sys2Proof/Machine/Access.lean ====
section
/-! DEFINITION. Memory accesses of threads: faults and their records (spec/10 R229, R230), migration packets (spec/07 R153,
R154), loads and stores (spec/04 R96 to R98, spec/05 R116 R117), and instruction fetch (spec/01 R19). -/

namespace Sys2Proof.Machine

/-! Faults that the kernel answers (spec/10 R230). -/

/-- A record for the kernel. -/
def State.fault (s : State) (who : Faulter) (kind : AccessKind) (va : VAddr) (code inst : Nat) : State :=
  { s with serial := s.serial + 1, faults := s.faults ++ [⟨s.serial, who, va, BitVec.ofNat 5 code, inst, kind⟩] }

/-- The issuing thread parks with a fault record to the kernel. -/
def parkFault (code : Nat) (kind : AccessKind) (va : VAddr) (s : State) : Res :=
  .next ((s.fault (.thread s.ic s.is) kind va code s.cur.inst).park (.fault s.serial))

/-- A core TLB miss parks the thread (R231). -/
def parkWalk (va : VAddr) (kind : AccessKind) (s : State) : Res := .next ((s.park (.walk va kind)).emit (.pageTableWalk s.ic s.is))

/-- A wait of the instruction fetch is none of the instruction's (spec/01 R23, spec/04 R97; in part DESIGN CHOICE, log 10). -/
def fetchWait (r : Res) : Res :=
  match r with
  | .next s => .next (s.updCur fun t => { t with issued := none })
  | .fault f => .fault f
  | .refused f => .refused f

/-- The device of a target does not answer (spec/22 R418; in part PRESUMED, log 13). -/
def State.unreachable (s : State) (t : Target) : Bool :=
  match t.place with
  | .remote sp _ => s.hub.lostDevices.contains sp
  | .home _ => false
  | .window _ _ => false
  | .mx _ _ _ => false

/-- The device that a space names does not answer. -/
def State.lostSpace (s : State) (space : BitVec 8) : Bool := !s.ownSpace space && s.hub.lostDevices.contains space.toNat

/-- Checks an access of the issuing thread in the order of R229, then goes on with its target. A device that does not answer makes
an access fault (spec/22 R405), but a light thread's access traps at its home's choice (spec/18 R366). -/
def access (need : Need) (size : Nat) (va : VAddr) (k : Target → State → Res) (s : State) : Res :=
  if va.off.toNat % size != 0 then trapAt 2 va s
  else
    match s.xlate s.ic s.is need va with
    | .ok t => if s.unreachable t && !s.cur.light then parkFault 3 need.kind va s else k t s
    | .miss => parkWalk va need.kind s
    | .window => trapAt 7 va s
    | .access => parkFault 3 need.kind va s
    | .page => parkFault (if s.lostSpace va.space then 3 else 4) need.kind va s
    | .hole => .fault .nothingThere

/-- The address of an access from its base register and displacement (spec/01 R17). -/
def State.dataAddr (s : State) (off : Word) : VAddr := ⟨s.cur.space, off⟩

/-- The address of an access is fresh (spec/11 R250): its base register is, or pw.SPACE (in part DEDUCED, log 5). -/
def State.freshAddr (s : State) (base : Opnd) : Bool := base.fresh || s.cur.freshP.getLsbD 0

/-! Slots and blocks (spec/07 R144, R145). -/

/-- First block that a slot's holder fixes: 62, 63, 60, 61. -/
def fixedBlock (slot : Nat) : Option Nat :=
  match slot with
  | 62 => some 0 | 63 => some 4 | 60 => some 8 | 61 => some 10
  | _ => none

/-- A block of the pool is taken. -/
def Core.blockTaken (k : Core) (b : Nat) : Bool :=
  k.slots.any fun e => e.2.live && e.2.block ≤ b && b < e.2.block + e.2.alloc / 8

/-- First fit of n blocks in the pool (R145). -/
def Core.firstFit (k : Core) (n : Nat) : Option Nat :=
  (span 12 (245 - n)).find? fun b => (span b n).all fun x => !k.blockTaken x

/-- The lowest free general slot. -/
def Core.freeSlot (k : Core) : Option Nat := (span 0 60).find? fun sl => !(tabGet {} k.slots sl).live

/-- A general slot and blocks for an allocation. -/
def Core.place (k : Core) (alloc : Nat) : Option (Nat × Nat) :=
  match k.freeSlot, k.firstFit (alloc / 8) with
  | some sl, some b => some (sl, b)
  | some _, none => none
  | none, _ => none

/-- The slot of a migrant: 60 or 61 when free, else a general slot with a pool allocation (R145). -/
def Core.migrantPlace (k : Core) : Option (Nat × Nat) :=
  if !(tabGet {} k.slots 60).live then some (60, 8)
  else if !(tabGet {} k.slots 61).live then some (61, 10)
  else k.place 16

/-- Frees a slot and its blocks. -/
def State.freeThread (s : State) (c sl : Nat) : State := s.updCore c fun k => { k with slots := tabDel k.slots sl }

/-! Migration packets (spec/07 R153, R154). -/

/-- The number of the migration-in queue of a core of another device: from 1024 on, 1024 for each space. -/
def remoteQueue (space pa : Nat) : Nat := 1024 * (space + 1) + homeCoreOf pa

/-- The migration-in queue that serves a home (spec/11 R253): a core's, of this device or of another. -/
def Target.queue (t : Target) : Nat :=
  match t.place with
  | .remote sp pa => remoteQueue sp pa
  | .home _ | .mx _ _ _ | .window _ _ => t.homeCore.getD 0

/-- The queue takes one more packet: it holds 16, with those on their way. -/
def State.queueRoom (s : State) (home : Nat) : Bool :=
  (s.core home).migIn.length + (s.flight.filter fun x => x.1 = home).length < 16

/-- Sends a packet. -/
def State.sendPacket (s : State) (home : Nat) (p : MigPacket) : State :=
  { s with serial := s.serial + 1, flight := s.flight ++ [(home, { p with serial := s.serial })] }.emit (.migrationPacketArrival home)

/-- The packet of a light thread's context. -/
def Thread.packet (t : Thread) (c sl : Nat) : MigPacket :=
  ⟨0, t.inst, t.pw.extractLsb' 0 40, t.pc, (span 1 10).map t.reg, c, sl, none, 0, t.device⟩

/-- The issuing light thread migrates (R153): after its own REDs are performed (spec/08 R175), and it keeps its context, parked,
until its packet is accepted. -/
def migrate (home : Nat) (s : State) : Res :=
  if s.cur.reds != [] then park .reds s
  else
    let p := s.cur.packet s.ic s.is
    let room := s.queueRoom home
    let s := s.park (.migration home)
    .next (if room then s.sendPacket home p else s)

/-- A light thread's access goes on only at its home core (R153); spec/18 R366 says when the migration traps. -/
def atHome (t : Target) (k : State → Res) (s : State) : Res :=
  if !s.cur.light then k s
  else
    match t.place with
    | .window _ _ => k s
    | .remote sp _ => if sp = 255 || s.unreachable t || !s.accepted 9 then trapAt 8 t.va s else migrate t.queue s
    | .home _ | .mx _ _ _ => if t.homeCore = some s.ic then k s else migrate (t.homeCore.getD 0) s

/-! Reading and writing a target. -/

/-- A line of a core-pinned page that its core holds is taken back before another agent's write (DEDUCED, log 15). -/
def State.takeBack (s : State) (a : Agent) (t : Target) (n : Nat) : State :=
  match t.place with
  | .home pa => if t.attr = 2 && a != Agent.core t.pinc.toNat then s.bypass t.pinc.toNat pa n else s
  | .window _ _ | .mx _ _ _ | .remote _ _ => s

/-- A write at a target's home. -/
def State.writeTarget (s : State) (a : Agent) (t : Target) (b : List Byte) : State :=
  ((s.takeBack a t b.length).sliceUse t b.length true).writePlace a t.place b

/-- The access shares a byte with a pending RED of the thread (spec/12 R271). -/
def Thread.redOverlap (t : Thread) (p : Place) (n : Nat) : Bool := t.reds.any fun r => r.place.overlaps r.size p n

/-- The physical address of a target that the cache of a thread's core may serve: a heavy thread's (spec/11 R241), not
bypassed. -/
def State.cachePa (s : State) (c sl : Nat) (bypass : Bool) (t : Target) : Option Nat :=
  match t.place with
  | .home pa => if !(s.thread c sl).light && !bypass && s.cacheable c t then some pa else none
  | .window _ _ | .mx _ _ _ | .remote _ _ => none

/-- A thread's access at a home passes by its core's cache: the sectors that it touches go home (spec/11 R250). -/
def State.passBy (s : State) (c sl : Nat) (t : Target) (n : Nat) : State :=
  match t.place with
  | .home pa => if (s.thread c sl).light then s else s.bypass c pa n
  | .window _ _ | .mx _ _ _ | .remote _ _ => s

/-- n bytes are read at a target's home. -/
def State.readTarget (s : State) (t : Target) (n : Nat) : List Byte × Option Nat × State := (s.sliceUse t n false).readPlace t.place n

/-- n bytes of a target are read for a thread, through its core's cache where the cache may hold them: the bytes and the lowest
poisoned one. -/
def State.readFor (s : State) (c sl : Nat) (bypass : Bool) (t : Target) (n : Nat) : List Byte × Option Nat × State :=
  match s.cachePa c sl bypass t with
  | some pa =>
    let u := s.thread c sl
    let s := if (s.core c).hit pa n then ((s.updCore c fun k => k.useLine (pa / 128)).settleFor c u.id pa n false).refresh c u.seen pa n
      else s.fill c pa (t.attr = 0)
    let k := s.core c
    if k.hit pa n then
      (k.cached pa n, k.cachePoison pa n, s.updThread c sl fun u => { u with seen := max u.seen (k.filledAt pa n) })
    else s.readTarget t n
  | none => (s.passBy c sl t n).readTarget t n

/-- Bytes are written for a thread (spec/11 R241, R244). -/
def State.writeFor (s : State) (c sl : Nat) (bypass : Bool) (t : Target) (b : List Byte) : State :=
  match s.cachePa c sl bypass t with
  | some pa =>
    let id := (s.thread c sl).id
    let s := if (s.core c).hit pa b.length then s.settleFor c id pa b.length true else s.fill c pa (t.attr = 0)
    if (s.core c).hit pa b.length then (s.cacheStore c id pa b).noteWrite c t b.length
    else (s.noteWrite c t b.length).writeTarget (.core c) t b
  | none =>
    let s := s.passBy c sl t b.length
    let s := if (s.thread c sl).light then s else s.noteWrite c t b.length
    s.writeTarget (.core c) t b

/-- A read through the core's cache would write back a pinned line (spec/14 R304). -/
def State.readHeld (s : State) (c sl : Nat) (bypass : Bool) (t : Target) (n : Nat) : Bool :=
  match s.cachePa c sl bypass t with
  | some pa => if (s.core c).hit pa n then s.settleHeld c (s.thread c sl).id pa n false else s.fillHeld c pa
  | none =>
    match t.place with
    | .home pa => !(s.thread c sl).light && s.settleHeld c 0 pa n false
    | .window _ _ | .mx _ _ _ | .remote _ _ => false

/-- A write to a pinned line is held (spec/04 R98, spec/14 R304). -/
def State.writeHeld (s : State) (c sl : Nat) (bypass : Bool) (t : Target) (n : Nat) : Bool :=
  match s.cachePa c sl bypass t with
  | some pa =>
    (if (s.core c).hit pa n then s.settleHeld c (s.thread c sl).id pa n true else s.fillHeld c pa) ||
    ((s.core c).writeThrough && s.pinned t.place)
  | none => s.pinned t.place

/-- The issuing thread's access is fixed-latency (spec/04 R97): a window access, or a cache hit that no pin holds. -/
def State.fixed (s : State) (bypass write : Bool) (t : Target) (n : Nat) : Bool :=
  match t.place with
  | .window _ _ => true
  | .home _ =>
    (match s.cachePa s.ic s.is bypass t with
      | some pa => (s.core s.ic).hit pa n && !(if write then s.writeHeld s.ic s.is bypass t n else s.readHeld s.ic s.is bypass t n)
      | none => false)
  | .mx _ _ _ => false
  | .remote _ _ => false

/-! Banks (spec/07 R143). -/

/-- The bank that holds a target's bytes on the issuing thread's core: of its window, or the way of a cached line. -/
def State.bankOf (s : State) (t : Target) : List Nat :=
  match t.place with
  | .window _ a => [a / 8192]
  | .home pa => (match (s.core s.ic).line (pa / 128) with
    | some l => [l.way]
    | none => [])
  | .mx _ _ _ | .remote _ _ => []

/-- Forfeits in a row after which an access comes before every other requester. -/
def maxForfeits : Nat := 3

/-- A fixed-latency access goes on when its banks grant it; else the thread forfeits this issue. -/
def granted (banks : List Nat) (k : State → Res) (s : State) : Res :=
  if s.cur.forfeits < maxForfeits && banks.any fun b => (s.core s.ic).busy.contains b then
    .next (s.updCur fun t => { t with forfeits := t.forfeits + 1, wants := banks })
  else k s

/-- Parks on an access whose reply is to come. -/
def parkAccess (p : Pend) (s : State) : Res := .next ((s.park (.access p)).emit (.accessReply s.ic s.is))

/-- The loaded value (spec/04 R96). -/
def extend (size : Nat) (sgn : Bool) (b : List Byte) : Word :=
  if sgn then BitVec.ofInt 64 (signed (8 * size) (leNat b)) else BitVec.ofNat 64 (leNat b)

/-- The address i bytes on. -/
def VAddr.plus (va : VAddr) (n : Nat) : VAddr := ⟨va.space, va.off + BitVec.ofNat 64 n⟩

/-- The load of a target by the issuing thread, now: it traps on poison (R232), else writes rd and completes. -/
def loadNow (t : Target) (size : Nat) (sgn : Bool) (rd : BitVec 7) (light bypass fresh acquire : Bool) (s : State) : Res :=
  portReady rd (fun s =>
    let r := s.readFor s.ic s.is bypass t size
    match r.2.1 with
    | some i => trapAt 12 (VAddr.plus t.va i) s
    | none =>
      let s := if acquire && !light then r.2.2.applySig s.ic (r.2.2.sigAcquire t) else r.2.2
      writeDst rd (extend size sgn r.1) fresh doneLatc s) s

/-- A plain load (spec/04 R96, R97). The port fault of rd comes after the access's own (DESIGN CHOICE, log 52). -/
def load (size : Nat) (sgn : Bool) (rd : BitVec 7) (va : VAddr) (bypass : Bool) (s : State) : Res :=
  access { r := true } size va (fun t s =>
    atHome t (fun s =>
      let red := s.cur.redOverlap t.place size
      if !red && s.fixed bypass false t size then granted (s.bankOf t) (loadNow t size sgn rd s.cur.light bypass false false) s
      else parkAccess (.load t size sgn rd.toNat (bypass || red) false) s) s) s

/-- A plain store of bytes (spec/04 R96, R97). The data is read only now, so that a port is popped by no store that traps or
forfeits; the port fault comes after the access's own (DESIGN CHOICE, log 52). -/
def store (size : Nat) (data : BitVec 7) (va : VAddr) (bypass : Bool) (s : State) : Res :=
  access { w := true } size va (fun t s =>
    atHome t (fun s =>
      let red := s.cur.redOverlap t.place size
      if !red && s.fixed bypass true t size then
        granted (s.bankOf t) (readSrc data fun x s => doneLatc (s.writeFor s.ic s.is bypass t (leBytes x.val.toNat size))) s
      else readSrc data (fun x s => parkAccess (.store t size x.val (bypass || red) none) s) s) s) s

/-! Vector accesses (spec/05 R116, R117). -/

/-- Translates the lanes' addresses in ascending order; the first fault is reported. -/
def accessAll (need : Need) (size : Nat) : List VAddr → (List Target → State → Res) → State → Res
  | [], k, s => k [] s
  | va :: r, k, s => access need size va (fun t s => accessAll need size r (fun ts s => k (t :: ts) s) s) s

/-- The lanes' values into a group's registers: lane i of width w bits stands at bits w·i. -/
def packLanes (w : Nat) : List Nat → Nat
  | [] => 0
  | v :: r => v % 2 ^ w + 2 ^ w * packLanes w r

/-- The sixteen registers of a group value. -/
def groupRegs (v : Nat) : Nat → List Word
  | 0 => []
  | n + 1 => BitVec.ofNat 64 v :: groupRegs (v / 2 ^ 64) n

/-- Group k as one number (spec/05 R107). -/
def Thread.group (t : Thread) (k : Nat) : Nat := packLanes 64 ((span (16 * k) 16).map fun n => (t.reg n).toNat)

/-- Group k is fresh where one of its registers is. -/
def Thread.groupFresh (t : Thread) (k : Nat) : Bool := (span (16 * k) 16).any t.isFresh

/-- Writes registers from n on, not renamed. -/
def Thread.putRegs (t : Thread) (n : Nat) (fresh : Bool) : List Word → Thread
  | [] => t
  | v :: r => Thread.putRegs (t.setReg n v fresh) (n + 1) fresh r

/-- Writes group k. -/
def Thread.setGroup (t : Thread) (k v : Nat) (fresh : Bool) : Thread := t.putRegs (16 * k) fresh (groupRegs v 16)

/-- Lane values of a group value. -/
def unpackLanes (w v : Nat) : Nat → List Nat
  | 0 => []
  | n + 1 => v % 2 ^ w :: unpackLanes w (v / 2 ^ w) n

/-- The lower of two poisoned addresses (spec/18 R365). -/
def lowerVa (x y : Option VAddr) : Option VAddr :=
  match x, y with
  | some a, some b => if b.off.toNat < a.off.toNat then some b else some a
  | some a, none => some a
  | none, y => y

/-- Reads a lane: its value, and its lowest poisoned address. -/
def State.readLane (s : State) (c sl : Nat) (bypass : Bool) (size : Nat) (t : Target) : Nat × Option VAddr × State :=
  let x := s.readFor c sl bypass t size
  (leNat x.1, x.2.1.map (VAddr.plus t.va), x.2.2)

/-- Reads lanes one after another: their values, and the lowest poisoned address. -/
def State.readLanes (s : State) (c sl : Nat) (bypass : Bool) (size : Nat) : List Target → List Nat × Option VAddr × State
  | [] => ([], none, s)
  | t :: r =>
    let x := s.readLane c sl bypass size t
    let y := x.2.2.readLanes c sl bypass size r
    (x.1 :: y.1, lowerVa x.2.1 y.2.1, y.2.2)

/-- A lane of a store: where it goes, and its bytes in the low bits. -/
abbrev Lane := Target × BitVec 32

/-- The bytes that one write takes at once where lanes of one store cover them: a block of an alias page (spec/10 R236), and a
poisoned sector (R232; DESIGN CHOICE, log 65); every other lane is a write of its own (spec/05 R117, R134). -/
def State.laneUnit (s : State) (c : Nat) (t : Target) : Option (Place × Nat) :=
  match t.place with
  | .mx f v e => some (.mx f (v / 64 * 64) e, 64)
  | .home pa =>
    if (s.poisonAt (pa / 32 * 32) 32).isSome || ((s.core c).cachePoison (pa / 32 * 32) 32).isSome then some (.home (pa / 32 * 32), 32)
    else none
  | .window _ a => if ((s.core c).bankPoison (a / 128 * 128) 128).isSome then some (.window c (a / 128 * 128), 128) else none
  | .remote _ _ => none

/-- The offset of a place in n bytes at another. -/
def Place.within (p u : Place) (n : Nat) : Option Nat :=
  (span 0 n).find? fun i => u.plus i = p

/-- The bytes of a unit that lanes write, a higher lane's over a lower one's. -/
def unitBytes (u : Place) (n size : Nat) (l : List Lane) : Tab Byte :=
  l.foldl (fun (m : Tab Byte) x =>
    match x.1.place.within u n with
    | some i => (span 0 size).foldl (fun (m : Tab Byte) j => tabPut m (i + j) (x.2.extractLsb' (8 * j) 8)) m
    | none => m) []

/-- A lane among those still to write: what is written with it, and the lanes that are left. -/
def State.laneWrite (s : State) (c size : Nat) (l : List Lane) (x : Lane) : (Target × List Byte) × List Lane :=
  let one := ((x.1, leBytes x.2.toNat size), l.erase x)
  match s.laneUnit c x.1 with
  | none => one
  | some (u, n) =>
    let m := unitBytes u n size l
    if m.length = n then (({ x.1 with place := u }, m.map (·.2)), l.filter fun y => (y.1.place.within u n).isNone) else one

/-- The lanes of a store are written, in ascending order. -/
def State.writeLanes (s : State) (c sl : Nat) (bypass : Bool) (size : Nat) : Nat → List Lane → State
  | 0, _ => s
  | _, [] => s
  | fuel + 1, x :: r =>
    let w := s.laneWrite c size (x :: r) x
    State.writeLanes (s.writeFor c sl bypass w.1.1 w.1.2) c sl bypass size fuel w.2

/-- The lanes' values stand in a group of the issuing thread, or the poison that they met traps. -/
def lanesLoaded (lanes : List Nat) (bad : Option VAddr) (size group : Nat) (broadcast parked : Bool) (s : State) : Res :=
  match bad with
  | some va => trapAt 12 va s
  | none =>
    let lanes := if broadcast then (span 0 (128 / size)).map fun _ => lanes.headD 0 else lanes
    doneLatc (s.updCur fun t => t.setGroup group (packLanes (8 * size) lanes) parked)

/-- The vector load of the issuing thread, all lanes now. -/
def vloadNow (ts : List Target) (size group : Nat) (broadcast bypass : Bool) (s : State) : Res :=
  let r := s.readLanes s.ic s.is bypass size ts
  lanesLoaded r.1 r.2.1 size group broadcast false r.2.2

def vload (size group : Nat) (broadcast : Bool) (vas : List VAddr) (bypass : Bool) (s : State) : Res :=
  match vas.find? fun va => va.off.toNat % size != 0 with
  | some va => trapAt 2 va s
  | none =>
    accessAll { r := true } 1 vas (fun ts s =>
      let red := ts.any fun t => s.cur.redOverlap t.place size
      if !red && ts.all fun t => s.fixed bypass false t size then
        granted (ts.map s.bankOf).flatten (vloadNow ts size group broadcast bypass) s
      else parkAccess (.vload ((span 0 ts.length).zip ts) [] none size group broadcast (bypass || red)) s) s

def vstore (size : Nat) (lanes : List Nat) (vas : List VAddr) (bypass : Bool) (s : State) : Res :=
  match vas.find? fun va => va.off.toNat % size != 0 with
  | some va => trapAt 2 va s
  | none =>
    accessAll { w := true } 1 vas (fun ts s =>
      let red := ts.any fun t => s.cur.redOverlap t.place size
      let l : List Lane := ts.zip (lanes.map fun v => BitVec.ofNat 32 v)
      if !red && ts.all fun t => s.fixed bypass true t size then
        granted (ts.map s.bankOf).flatten (fun s => doneLatc (s.writeLanes s.ic s.is bypass size l.length l)) s
      else parkAccess (.vstore l size (bypass || red)) s) s

/-! Instruction fetch (spec/01 R19, spec/10 R229). -/

/-- What a fetch meets. -/
inductive Fetched where
  | word (w : InstrWord)
  | miss
  | fault (cause : Nat)
  | hole
  deriving DecidableEq, Repr

/-- The fetch of the issuing thread at its pc. Code is read at its home (spec/08 R178). -/
def State.fetch (s : State) : Fetched :=
  let va : VAddr := ⟨0, s.cur.pc⟩
  if s.cur.pc.toNat % 4 != 0 then .fault 2
  else
    match s.xlate s.ic s.is { x := true, noWindow := true } va with
    | .ok t =>
      let r := s.readPlace t.place 4
      (match r.2.1 with
        | some _ => .fault 12
        | none => .word (BitVec.ofNat 32 (leNat r.1)))
    | .miss => .miss
    | .window => .fault 7
    | .access => .fault 3
    | .page => .fault 4
    | .hole => .hole

end Sys2Proof.Machine
end

