-- ==== Sys2Proof/Machine/Cycle.lean ====
section
/-! DEFINITION. A core's cycle: which thread issues (spec/07 R138 to R140), what the counter's advance brings about, and how a
word is placed where the next step fetches (DESIGN CHOICE, log 1). -/

namespace Sys2Proof.Machine

/-! Which thread issues. -/

/-- The copy or the link thread is able to issue at its position. -/
def Thread.ownerReady (t : Thread) : Bool :=
  match t.st with
  | .ready _ _ | .seated _ _ => true
  | .free | .parked _ | .frozen | .halted _ | .stopped => false

/-- The boundary at which a seated thread was seated. -/
def Thread.seatedSince (t : Thread) : Option Nat :=
  match t.st with
  | .seated _ since => some since
  | .free | .ready _ _ | .parked _ | .frozen | .halted _ | .stopped => none

/-- The slot seated at a position. -/
def Core.seatedAt (k : Core) (p : Nat) : Option Nat :=
  (k.slots.find? fun e => match e.2.st with
    | .seated q _ => q = p
    | .free | .ready _ _ | .parked _ | .frozen | .halted _ | .stopped => false).map (·.1)

/-- The general thread that has been seated longest (R140). -/
def Core.longestSeated (k : Core) : Option Nat :=
  (best (fun (a b : Nat × Nat) => decide (a.2 < b.2))
    (k.slots.filterMap fun e => if e.1 < 62 then e.2.seatedSince.map fun x => (e.1, x) else none)).map (·.1)

/-- The slot that issues in the core's present cycle. -/
def Core.issuer (k : Core) : Option Nat :=
  if k.frozenSwap then none
  else
    let p := k.cyc % 16
    if p < 14 then k.seatedAt p
    else
      let owner := if p = 14 then 62 else 63
      if (tabGet {} k.slots owner).ownerReady then some owner else k.longestSeated

/-! The counter advances. -/

/-- Delayed writes that every thread sees by a cycle, in the order they were made, and those that remain (spec/08 R180). -/
def ripe {α : Type} (cyc : Nat) (l : List (Delayed α)) : List (Delayed α) × List (Delayed α) :=
  l.partition fun d => d.cycle + 16 ≤ cyc

/-- The writes that have come due are in place. -/
def Core.settle (k : Core) : Core :=
  if k.commonWrites = [] && k.seedWrites = [] && k.fmtWrites = [] then k
  else
    let c := ripe k.cyc k.commonWrites
    let d := ripe k.cyc k.seedWrites
    let f := ripe k.cyc k.fmtWrites
    { k with
      common := c.1.foldl (fun t w => tabPut t w.index w.value) k.common
      commonWrites := c.2
      seeds := d.1.foldl (fun t w => tabPut t w.index w.value) k.seeds
      seedWrites := d.2
      fmt := f.1.foldl (fun _ w => w.value) k.fmt
      fmtWrites := f.2 }

/-- A MON.WAIT counts one cycle of its timeout (spec/09 R210): n + 1 stands for n cycles still to count. -/
def Thread.countDown (t : Thread) : Thread :=
  match t.st with
  | .parked (.monitor rd n sc c) => if 1 < n then { t with st := .parked (.monitor rd (n - 1) sc c) } else t
  | .parked _ | .free | .ready _ _ | .seated _ _ | .frozen | .halted _ | .stopped => t

/-- The timeout of the thread's MON.WAIT has run out. -/
def Thread.timedOut (t : Thread) : Bool :=
  match t.wait with
  | some (.monitor _ 1 _ _) => true
  | _ => false

/-- Cycles for which a castling hold lasts (spec/18 R385). -/
def holdCycles : Nat := 60000

/-- What a cycle's end brings about in a core's threads. -/
def Core.events (k : Core) (c : Nat) : List Instr :=
  (k.slots.map fun e =>
    (if e.2.timedOut then [Instr.monWaitTimeout c e.1] else []) ++
    (match e.2.hold with
      | some h => if h + holdCycles ≤ k.cyc then [Instr.holdExpiry c e.1] else []
      | none => [])).flatten

/-- Cycles between two swaps of a pair on the core's die; 0 when castling is off (spec/18 R381). -/
def State.castling (s : State) (c : Nat) : Nat :=
  let n := (s.die (dieOf c)).castiv.toNat
  300000 * (if 16 < n then 16 else n)

/-- Cycles of a swap's prepare phase, and those for which holds may defer it (spec/18 R382, R385). -/
def prepareCycles : Nat := 4096
def deferCycles : Nat := 60000

/-- What the timer of a pair brings about at a cycle of its lower core (R382, R385; in part DEDUCED, log 42). -/
def State.pairEvents (s : State) (c cyc : Nat) : List Instr :=
  if c != pairOf c then []
  else
    let p := s.pair c
    let n := s.castling c
    (if (n != 0 && cyc % n = 0) || (p.retry && cyc % 16 = 0) then [.swapDue c] else []) ++
    (match p.phase with
      | .waiting since => if since + deferCycles ≤ cyc && !p.ignoreHolds then [.swapDeferralLimit c] else []
      | .preparing since => if since + prepareCycles ≤ cyc && cyc % 16 = 0 then [.swapExchange c] else []
      | .idle | .exchanged => [])

/-- A core's counter advances by one cycle. -/
def State.tick (s : State) (c : Nat) : State :=
  let k := s.core c
  let again := k.deferred
  let k := Core.settle { k with
    cyc := k.cyc + 1
    boundaryDone := false
    busy := [], deferred := []
    slots := k.slots.map fun e => (e.1, e.2.countDown) }
  (again ++ k.events c ++ s.pairEvents c k.cyc).foldl (fun s i => s.emitOnce i) (s.putCore c k)

/-- The same after a step. -/
def ticked (c : Nat) (r : Res) : Res :=
  match r with
  | .next s => .next (s.tick c)
  | .fault f => .fault f
  | .refused f => .refused f

/-! A word for the next step (DESIGN CHOICE, log 1). -/

/-- The next step of the state fetches a word for some thread. -/
def State.nextIssue (s : State) : Option (Nat × Nat) :=
  let k := s.core s.focus
  if s.inputs = [] && s.agenda = [] && k.started && !(k.cyc % 16 = 0 && !k.boundaryDone) then
    match k.issuer with
    | some sl => if sl < 62 && (s.thread s.focus sl).proxy.isNone then some (s.focus, sl) else none
    | none => none
  else none

/-- A thread of one task of one thread with A = 120, seated at position 0, as dispatch leaves it (spec/01 R30) (DESIGN CHOICE, log 1). -/
def loadedThread : Thread := { st := .seated 0 0, id := 1, alloc := 120, block := 12, pc := 0x10000 }

/-- Leaf of the page that holds the program: 1 GiB at physical 0, ATTR 0, with R, W, X and U. -/
def loadedLeaf : BitVec 64 := 0x7B

/-- A device that has booted, accepted every feature and dispatched the task: the page tables stand at 0x1000 (DESIGN CHOICE, log 1). -/
def State.loaded (s : State) : State :=
  let s := { s with
    inputs := [], agenda := [], focus := 0
    mem := memWrite (memWrite (memWrite s.mem 0x1000 (leBytes 0x2001 8)) 0x2000 (leBytes 0x3001 8)) 0x3000 (leBytes loadedLeaf.toNat 8)
    insts := tabPut s.insts 0
      { packet := BitVec.ofNat 512 (15 * 2 ^ 326 + 2 ^ 320 + 0x10000), core := 0, order := 0, scratch := [], operand := [],
        queues := 0, host := true, fmtp := 0, cores := [0] } }
  let s := s.updHub fun h => { h with sptbr := 0x1000, accept0 := 0xFFF, committed := true, ready := true, poweredUp := true, stage := 4 }
  s.updCore 0 fun k => { k with
    started := true, boundaryDone := true, frozenSwap := false
    cyc := k.cyc / 16 * 16
    slots := tabPut (k.slots.filter fun e => e.2.seatedSince = none) 0 loadedThread
    tlb := tlbEnter 128 k.tlb ⟨0, 0, 2 ^ 30, loadedLeaf, 0⟩ }

/-- The physical place of the next word. -/
def State.fetchPlace (s : State) : Option Place :=
  match s.nextIssue with
  | none => none
  | some x =>
    match { s with ic := x.1, is := x.2 }.xlate x.1 x.2 { x := true, noWindow := true } ⟨0, (s.thread x.1 x.2).pc⟩ with
    | .ok t => if (s.thread x.1 x.2).pc.toNat % 4 = 0 then some t.place else none
    | .miss | .window | .access | .page | .hole => none

/-- Stores a word where the next step fetches. -/
def State.putWord (s : State) (p : Place) (b : List Byte) : State :=
  match p with
  | .home pa => { s with mem := memWrite s.mem pa b, poison := s.poison.filter fun x => !(pa ≤ 32 * x + 31 && 32 * x < pa + b.length) }
  | .window _ _ | .mx _ _ _ | .remote _ _ => s

/-- The state whose next step fetches the word (DESIGN CHOICE, log 1). -/
def State.placeWord (s : State) (b : List Byte) : State :=
  match s.fetchPlace with
  | some (.home pa) => s.putWord (.home pa) b
  | some (.window _ _) | some (.mx _ _ _) | some (.remote _ _) | none => s.loaded.putWord (.home 0x10000) b

end Sys2Proof.Machine
end

