-- ==== Sys2Proof/Machine/Alu.lean ====
section
/-! DEFINITION. Integer operations on registers, constants and predicates (spec/04 R84 to R90). -/

namespace Sys2Proof.Machine

/-! OP (R84). -/

/-- 1 or 0. -/
def bit (b : Bool) : Word := if b then 1 else 0

def opSll (a b : Word) : Word := a <<< (b.toNat % 64)
def opSrl (a b : Word) : Word := a >>> (b.toNat % 64)
def opSra (a b : Word) : Word := a.sshiftRight (b.toNat % 64)
def opRor (a b : Word) : Word := a.rotateRight (b.toNat % 64)
def opMin (a b : Word) : Word := if a.slt b then a else b
def opMax (a b : Word) : Word := if a.slt b then b else a
def opMinu (a b : Word) : Word := if a.toNat < b.toNat then a else b
def opMaxu (a b : Word) : Word := if a.toNat < b.toNat then b else a

def execAdd (b a d : BitVec 7) (s : State) : Res := binary (fun x y => x + y) b a d s
def execSub (b a d : BitVec 7) (s : State) : Res := binary (fun x y => x - y) b a d s
def execAnd (b a d : BitVec 7) (s : State) : Res := binary (fun x y => x &&& y) b a d s
def execOr (b a d : BitVec 7) (s : State) : Res := binary (fun x y => x ||| y) b a d s
def execXor (b a d : BitVec 7) (s : State) : Res := binary (fun x y => x ^^^ y) b a d s
def execAndn (b a d : BitVec 7) (s : State) : Res := binary (fun x y => x &&& ~~~y) b a d s
def execSll (b a d : BitVec 7) (s : State) : Res := binary opSll b a d s
def execSrl (b a d : BitVec 7) (s : State) : Res := binary opSrl b a d s
def execSra (b a d : BitVec 7) (s : State) : Res := binary opSra b a d s
def execRor (b a d : BitVec 7) (s : State) : Res := binary opRor b a d s
def execSlt (b a d : BitVec 7) (s : State) : Res := binary (fun x y => bit (x.slt y)) b a d s
def execSltu (b a d : BitVec 7) (s : State) : Res := binary (fun x y => bit (x.ult y)) b a d s
def execMin (b a d : BitVec 7) (s : State) : Res := binary opMin b a d s
def execMax (b a d : BitVec 7) (s : State) : Res := binary opMax b a d s
def execMinu (b a d : BitVec 7) (s : State) : Res := binary opMinu b a d s
def execMaxu (b a d : BitVec 7) (s : State) : Res := binary opMaxu b a d s

/-! MUL (R85). -/

def opMulh (a b : Word) : Word := BitVec.ofInt 64 (a.toInt * b.toInt / 2 ^ 64)
def opMulhu (a b : Word) : Word := BitVec.ofNat 64 (a.toNat * b.toNat / 2 ^ 64)
def opMulhsu (a b : Word) : Word := BitVec.ofInt 64 (a.toInt * b.toNat / 2 ^ 64)
/-- Division truncates toward zero; division by zero gives −1, and the quotient of −2^63 by −1 wraps to −2^63. -/
def opDiv (a b : Word) : Word := if b = 0 then BitVec.allOnes 64 else BitVec.ofInt 64 (a.toInt.tdiv b.toInt)
def opDivu (a b : Word) : Word := if b = 0 then BitVec.allOnes 64 else BitVec.ofNat 64 (a.toNat / b.toNat)
def opRem (a b : Word) : Word := if b = 0 then a else BitVec.ofInt 64 (a.toInt.tmod b.toInt)
def opRemu (a b : Word) : Word := if b = 0 then a else BitVec.ofNat 64 (a.toNat % b.toNat)

def execMul (b a d : BitVec 7) (s : State) : Res := binary (fun x y => x * y) b a d s
def execMulh (b a d : BitVec 7) (s : State) : Res := binary opMulh b a d s
def execMulhu (b a d : BitVec 7) (s : State) : Res := binary opMulhu b a d s
def execMulhsu (b a d : BitVec 7) (s : State) : Res := binary opMulhsu b a d s
def execDiv (b a d : BitVec 7) (s : State) : Res := binary opDiv b a d s
def execDivu (b a d : BitVec 7) (s : State) : Res := binary opDivu b a d s
def execRem (b a d : BitVec 7) (s : State) : Res := binary opRem b a d s
def execRemu (b a d : BitVec 7) (s : State) : Res := binary opRemu b a d s

/-! BIT (R86, R87). -/

def opClz (a : Word) : Word := BitVec.ofNat 64 (if a = 0 then 64 else 63 - Nat.log2 a.toNat)

/-- Trailing zero bits among the low n bits. -/
def trailing : Nat → Nat → Nat
  | 0, _ => 0
  | n + 1, v => if v % 2 = 1 then 0 else trailing n (v / 2) + 1

def opCtz (a : Word) : Word := BitVec.ofNat 64 (trailing 64 a.toNat)

/-- One bits among the low n bits. -/
def ones : Nat → Nat → Nat
  | 0, _ => 0
  | n + 1, v => v % 2 + ones n (v / 2)

def opCpop (a : Word) : Word := BitVec.ofNat 64 (ones 64 a.toNat)
def opSextb (a : Word) : Word := (a.setWidth 8).signExtend 64
def opSexth (a : Word) : Word := (a.setWidth 16).signExtend 64
def opSextw (a : Word) : Word := (a.setWidth 32).signExtend 64
def opZextw (a : Word) : Word := (a.setWidth 32).setWidth 64
def opBswap (a : Word) : Word := BitVec.ofNat 64 (leNat (leBytes a.toNat 8).reverse)

def execClz (a d : BitVec 7) (s : State) : Res := unary opClz a d s
def execCtz (a d : BitVec 7) (s : State) : Res := unary opCtz a d s
def execCpop (a d : BitVec 7) (s : State) : Res := unary opCpop a d s
def execSextb (a d : BitVec 7) (s : State) : Res := unary opSextb a d s
def execSexth (a d : BitVec 7) (s : State) : Res := unary opSexth a d s
def execSextw (a d : BitVec 7) (s : State) : Res := unary opSextw a d s
def execZextw (a d : BitVec 7) (s : State) : Res := unary opZextw a d s
def execBswap (a d : BitVec 7) (s : State) : Res := unary opBswap a d s

/-- The field descriptor (R87): position, and length cut at bit 63. -/
def fieldPos (b : Word) : Nat := fld b.toNat 5 0
def fieldLen (b : Word) : Nat := min (fld b.toNat 14 8) (64 - fieldPos b)

/-- The field's value. -/
def fieldVal (a b : Word) : Nat := a.toNat / 2 ^ fieldPos b % 2 ^ fieldLen b

def opBfx (a b : Word) : Word := if fieldLen b = 0 then 0 else BitVec.ofInt 64 (signed (fieldLen b) (fieldVal a b))
def opBfxu (a b : Word) : Word := BitVec.ofNat 64 (fieldVal a b)
/-- The low bits of a into the field of the old rd. -/
def opBfi (a b old : Word) : Word :=
  let m : Word := BitVec.ofNat 64 ((2 ^ fieldLen b - 1) * 2 ^ fieldPos b)
  (old &&& ~~~m) ||| ((a <<< fieldPos b) &&& m)

def execBfx (b a d : BitVec 7) (s : State) : Res := binary opBfx b a d s
def execBfxu (b a d : BitVec 7) (s : State) : Res := binary opBfxu b a d s
def execBfi (b a d : BitVec 7) (s : State) : Res := ternary opBfi b a d s

/-! OP-IMM (R88, R44). -/

/-- The sign-extended imm8. -/
def imm8 (i : BitVec 8) : Word := i.signExtend 64

/-- A shift amount as a 64-bit operand. -/
def amount (h : BitVec 6) : Word := h.setWidth 64

def execAddi (i : BitVec 8) (a d : BitVec 7) (s : State) : Res := unary (fun x => x + imm8 i) a d s
def execSlti (i : BitVec 8) (a d : BitVec 7) (s : State) : Res := unary (fun x => bit (x.slt (imm8 i))) a d s
def execSltiu (i : BitVec 8) (a d : BitVec 7) (s : State) : Res := unary (fun x => bit (x.ult (imm8 i))) a d s
def execXori (i : BitVec 8) (a d : BitVec 7) (s : State) : Res := unary (fun x => x ^^^ imm8 i) a d s
def execOri (i : BitVec 8) (a d : BitVec 7) (s : State) : Res := unary (fun x => x ||| imm8 i) a d s
def execAndi (i : BitVec 8) (a d : BitVec 7) (s : State) : Res := unary (fun x => x &&& imm8 i) a d s
def execSlli (h : BitVec 6) (a d : BitVec 7) (s : State) : Res := unary (fun x => opSll x (amount h)) a d s
def execSrli (h : BitVec 6) (a d : BitVec 7) (s : State) : Res := unary (fun x => opSrl x (amount h)) a d s
def execSrai (h : BitVec 6) (a d : BitVec 7) (s : State) : Res := unary (fun x => opSra x (amount h)) a d s
def execRori (h : BitVec 6) (a d : BitVec 7) (s : State) : Res := unary (fun x => opRor x (amount h)) a d s

/-! Constants and addresses (R89). -/

/-- sext((imm18 << 14)[32]). -/
def immUpper (i : BitVec 18) : Word := (i ++ (0 : BitVec 14)).signExtend 64

def execLiu (i : BitVec 18) (d : BitVec 7) (s : State) : Res := limit [d] (writeDst d (immUpper i) false done) s

def execAddpc (i : BitVec 18) (d : BitVec 7) (s : State) : Res :=
  limit [d] (fun s => writeDst d (s.cur.pc + immUpper i) false done s) s

def execAddl (i : BitVec 18) (d : BitVec 7) (s : State) : Res :=
  limit [d] (fun s =>
    let x := s.cur.opnd d
    done (s.setRd d (x.val + i.signExtend 64) x.fresh)) s

/-! Predicates (R90). -/

/-- pd ← f(rs1, rs2). -/
def compare (f : Word → Word → Bool) (b a : BitVec 7) (p : BitVec 5) (s : State) : Res :=
  limit [a, b] (readSrc a fun x => readSrc b fun y s => done (s.updCur fun t => t.setPred p (f x.val y.val) (x.fresh || y.fresh))) s

def execPeq (b a : BitVec 7) (p : BitVec 5) (s : State) : Res := compare (fun x y => x = y) b a p s
def execPne (b a : BitVec 7) (p : BitVec 5) (s : State) : Res := compare (fun x y => x ≠ y) b a p s
def execPlt (b a : BitVec 7) (p : BitVec 5) (s : State) : Res := compare (fun x y => x.slt y) b a p s
def execPge (b a : BitVec 7) (p : BitVec 5) (s : State) : Res := compare (fun x y => !x.slt y) b a p s
def execPltu (b a : BitVec 7) (p : BitVec 5) (s : State) : Res := compare (fun x y => x.ult y) b a p s
def execPgeu (b a : BitVec 7) (p : BitVec 5) (s : State) : Res := compare (fun x y => !x.ult y) b a p s

/-- The fresh mark of a predicate. -/
def Thread.predFresh (t : Thread) (p : BitVec 5) : Bool := p ≠ 0 && t.freshP.getLsbD p.toNat

/-- pd ← f(ps1, ps2). -/
def predOp (f : Bool → Bool → Bool) (q r p : BitVec 5) (s : State) : Res :=
  done (s.updCur fun t => t.setPred p (f (t.pred r) (t.pred q)) (t.predFresh r || t.predFresh q))

def execPand (q r p : BitVec 5) (s : State) : Res := predOp (fun x y => x && y) q r p s
def execPor (q r p : BitVec 5) (s : State) : Res := predOp (fun x y => x || y) q r p s
def execPxor (q r p : BitVec 5) (s : State) : Res := predOp (fun x y => x != y) q r p s
def execPnot (r p : BitVec 5) (s : State) : Res := predOp (fun x _ => !x) 0 r p s

/-- gd ← a predicate, or its negation, as 0 or 1. -/
def movePred (neg : Bool) (r : BitVec 5) (d : BitVec 7) (s : State) : Res :=
  limit [d] (fun s => writeDst d (bit (s.cur.pred r != neg)) (s.cur.predFresh r) done s) s

def execMvp (r : BitVec 5) (d : BitVec 7) (s : State) : Res := movePred false r d s
def execMvnp (r : BitVec 5) (d : BitVec 7) (s : State) : Res := movePred true r d s

def execPrd (d : BitVec 7) (s : State) : Res :=
  limit [d] (fun s => writeDst d s.cur.pw (s.cur.freshP ≠ 0) done s) s

/-- SPACE and p31 to p1 from a register; p0 stays 1 and bits 63:40 stay 0. -/
def pwFrom (v : Word) : Word := (v &&& 0x000000FFFFFFFFFE#64) ||| 1#64

def execPwr (a : BitVec 7) (s : State) : Res :=
  limit [a] (fun s =>
    let x := s.cur.opnd a
    done (s.updCur fun t => { t with pw := pwFrom x.val, freshP := if x.fresh then BitVec.allOnes 32 else 0 })) s

end Sys2Proof.Machine
end

