-- ==== Sys2Proof/Machine/LoadStore.lean ====
section
/-! DEFINITION. Loads and stores (spec/04 R96 to R98) and vector memory (spec/05 R115 to R117). -/

namespace Sys2Proof.Machine

/-! Scalar accesses. -/

/-- The address of a LOAD: imm8 counts in units of the access size (spec/02 R33). -/
def offsetOf (x : Word) (imm : BitVec 8) (size : Nat) : Word := x + imm.signExtend 64 * BitVec.ofNat 64 size

/-- A LOAD of a size (R96). -/
def loadOp (size : Nat) (sgn : Bool) (i : BitVec 8) (a d : BitVec 7) (s : State) : Res :=
  limit [a, d] (fun s =>
    let x := s.cur.opnd a
    load size sgn d (s.dataAddr (offsetOf x.val i size)) (s.freshAddr x) s) s

/-- A STORE of a size (R96): i holds imm8[7:4] and j imm8[3:0]. -/
def storeOp (size : Nat) (i : BitVec 4) (b a : BitVec 7) (j : BitVec 4) (s : State) : Res :=
  limit [a, b] (fun s =>
    let x := s.cur.opnd a
    store size b (s.dataAddr (offsetOf x.val (i ++ j) size)) (s.freshAddr x) s) s

def execLb (i : BitVec 8) (a d : BitVec 7) (s : State) : Res := loadOp 1 true i a d s
def execLh (i : BitVec 8) (a d : BitVec 7) (s : State) : Res := loadOp 2 true i a d s
def execLw (i : BitVec 8) (a d : BitVec 7) (s : State) : Res := loadOp 4 true i a d s
def execLd (i : BitVec 8) (a d : BitVec 7) (s : State) : Res := loadOp 8 false i a d s
def execLbu (i : BitVec 8) (a d : BitVec 7) (s : State) : Res := loadOp 1 false i a d s
def execLhu (i : BitVec 8) (a d : BitVec 7) (s : State) : Res := loadOp 2 false i a d s
def execLwu (i : BitVec 8) (a d : BitVec 7) (s : State) : Res := loadOp 4 false i a d s
def execSb (i : BitVec 4) (b a : BitVec 7) (j : BitVec 4) (s : State) : Res := storeOp 1 i b a j s
def execSh (i : BitVec 4) (b a : BitVec 7) (j : BitVec 4) (s : State) : Res := storeOp 2 i b a j s
def execSw (i : BitVec 4) (b a : BitVec 7) (j : BitVec 4) (s : State) : Res := storeOp 4 i b a j s
def execSd (i : BitVec 4) (b a : BitVec 7) (j : BitVec 4) (s : State) : Res := storeOp 8 i b a j s

/-! Vector instructions: the feature (spec/25 R445) and the register limit (spec/01 R14). -/

/-- The checks of a vector instruction's word, scalar fields, groups and implicit registers. -/
def vectorGate (w : InstrWord) (regs : List (BitVec 7)) (groups : List (BitVec 3)) (implicit : List Nat) (k : State → Res) (s : State) : Res :=
  if !s.accepted 1 then illegal w s
  else
    let t := s.cur
    match lowest (((regs.map fun r => t.rename r.toNat).filter fun n => t.bound ≤ n) ++ groupLimits t.bound (groups.map (·.toNat)) implicit) with
    | some n => trap 5 (BitVec.ofNat 64 n) s
    | none => k s

/-! Vector accesses (R116). -/

/-- Bytes of a lane of a type. -/
def laneBytes (t : BitVec 4) : Nat := laneWidth t.toNat / 8

/-- The lanes' offsets from a base with a stride. -/
def laneAddrs (sp : BitVec 8) (base stride : Word) : Nat → List VAddr
  | 0 => []
  | n + 1 => ⟨sp, base⟩ :: laneAddrs sp (base + stride) stride n

/-- A vector load of all lanes. -/
def vloadOp (w : InstrWord) (regs : List (BitVec 7)) (a : BitVec 7) (stride : State → Opnd) (k : BitVec 3) (t : BitVec 4) (s : State) : Res :=
  vectorGate w regs [k] [] (fun s =>
    let x := s.cur.opnd a
    let y := stride s
    vload (laneBytes t) k.toNat false (laneAddrs s.cur.space x.val y.val (128 / laneBytes t)) (s.freshAddr x || y.fresh) s) s

/-- A vector store of all lanes. -/
def vstoreOp (w : InstrWord) (regs : List (BitVec 7)) (a : BitVec 7) (stride : State → Opnd) (k : BitVec 3) (t : BitVec 4) (s : State) : Res :=
  vectorGate w regs [k] [] (fun s =>
    let x := s.cur.opnd a
    let y := stride s
    vstore (laneBytes t) (unpackLanes (8 * laneBytes t) (s.cur.group k.toNat) (128 / laneBytes t))
      (laneAddrs s.cur.space x.val y.val (128 / laneBytes t)) (s.freshAddr x || y.fresh) s) s

/-- The stride of contiguous lanes. -/
def unitStride (t : BitVec 4) (_s : State) : Opnd := ⟨BitVec.ofNat 64 (laneBytes t), false⟩

def execVld (a : BitVec 7) (k : BitVec 3) (t : BitVec 4) (s : State) : Res := vloadOp (wordVld a k t) [a] a (unitStride t) k t s
def execVst (a : BitVec 7) (k : BitVec 3) (t : BitVec 4) (s : State) : Res := vstoreOp (wordVst a k t) [a] a (unitStride t) k t s
def execVlds (b a : BitVec 7) (k : BitVec 3) (t : BitVec 4) (s : State) : Res :=
  vloadOp (wordVlds b a k t) [a, b] a (fun s => s.cur.opnd b) k t s
def execVsts (b a : BitVec 7) (k : BitVec 3) (t : BitVec 4) (s : State) : Res :=
  vstoreOp (wordVsts b a k t) [a, b] a (fun s => s.cur.opnd b) k t s

/-- VLDB: one access, whose element goes to every lane. -/
def execVldb (a : BitVec 7) (k : BitVec 3) (t : BitVec 4) (s : State) : Res :=
  vectorGate (wordVldb a k t) [a] [k] [] (fun s =>
    let x := s.cur.opnd a
    vload (laneBytes t) k.toNat true [s.dataAddr x.val] (s.freshAddr x) s) s

/-! Replies (R97, R117). -/

/-- The issuing thread's parked access is performed: it goes on from its wait. -/
def resume (c sl : Nat) (k : State → Res) (s : State) : Res := k ({ s with ic := c, is := sl }.wake c sl)

/-- The access that a thread waits for goes on, one lane further on. -/
def accessOn (c sl : Nat) (p : Pend) (s : State) : Res :=
  .next ((s.updThread c sl fun t => t.waitFor (.access p)).emit (.accessReply c sl))

/-- A lane of a vector load is performed: the lanes carry no order (spec/05 R134), and the thread goes on once all are done. -/
def performLoadLane (c sl : Nat) (ts : List (Nat × Target)) (got : Tab Nat) (bad : Option VAddr) (size group : Nat)
    (broadcast bypass : Bool) (s : State) : Res :=
  let ready := ts.filter fun x => !s.readHeld c sl bypass x.2 size
  let n := s.pick ready.length
  match ready[n.1]? with
  | none => .next s
  | some x =>
    let r := n.2.readLane c sl bypass size x.2
    let ts := ts.erase x
    let got := tabPut got x.1 r.1
    let bad := lowerVa bad r.2.1
    if ts = [] then resume c sl (lanesLoaded (got.map (·.2)) bad size group broadcast true) r.2.2
    else accessOn c sl (.vload ts got bad size group broadcast bypass) r.2.2

/-- Lanes of a store that no earlier one writes the same bytes as (spec/05 R116). -/
def freeLanes (size : Nat) (before : List Lane) : List Lane → List Lane
  | [] => []
  | x :: r => (if before.any fun y => y.1.place.overlaps size x.1.place size then [] else [x]) ++ freeLanes size (x :: before) r

/-- A lane of a vector store is performed (R134). -/
def performStoreLane (c sl : Nat) (l : List Lane) (size : Nat) (bypass : Bool) (s : State) : Res :=
  let ready := (freeLanes size [] l).filter fun x => !s.writeHeld c sl bypass x.1 size
  let n := s.pick ready.length
  match ready[n.1]? with
  | none => .next s
  | some x =>
    let w := n.2.laneWrite c size l x
    let s := n.2.writeFor c sl bypass w.1.1 w.1.2
    if w.2 = [] then resume c sl doneLatc s else accessOn c sl (.vstore w.2 size bypass) s

/-- Performs the access that a thread waits for, once no pin and no RED of the thread holds it (spec/12 R271). -/
def performAccess (c sl : Nat) (p : Pend) (s : State) : Res :=
  let t := s.thread c sl
  match p with
  | .load tg size sgn rd bypass acquire =>
    if t.redOverlap tg.place size || s.readHeld c sl bypass tg size || (acquire && s.dirtyPinned c) then .next s
    else resume c sl (loadNow tg size sgn (BitVec.ofNat 7 rd) t.light bypass (!acquire) acquire) s
  | .store tg size data bypass release =>
    if t.redOverlap tg.place size || s.writeHeld c sl bypass tg size then .next s
    else
      let s := match release with
        | some g => s.sigRelease tg (if t.light then none else some g)
        | none => s
      resume c sl doneLatc (s.writeFor c sl bypass tg (leBytes data.toNat size))
  | .vload ts got bad size group broadcast bypass =>
    if ts.any fun x => t.redOverlap x.2.place size then .next s
    else performLoadLane c sl ts got bad size group broadcast bypass s
  | .vstore l size bypass =>
    if l.any fun x => t.redOverlap x.1.place size then .next s else performStoreLane c sl l size bypass s
  | .vatRead _ _ _ => .next s
  | .tableRead _ _ _ => .next s
  | .done latc => resume c sl (if latc then doneLatc else done) s

end Sys2Proof.Machine
end

