-- ==== Sys2Proof/Machine/Amo.lean ====
section
/-! DEFINITION. Atomics and reductions (spec/12 R267 to R273), their proxies and remote updates (spec/11 R254, R256), and the
migration-in queues (spec/07 R154). -/

namespace Sys2Proof.Machine

/-! The combining operations (R268), numbered by f4. -/

/-- Bytes of the target. -/
def amoSize (f4 : Nat) : Nat := if f4 = 10 || f4 = 14 then 4 else if f4 = 15 then 16 else 8

/-- RNE_fp32 of a sum. -/
def addFp32 (m b : Nat) : Nat := (roundFlt .fp32 (Val.add .rne (Fmt.decode .fp32 m) (Fmt.decode .fp32 b)).1 false .rne false).1

/-- The new value of the target: m the old value, b the operand, e the expected value of AMO.CAS or the exponent of RED.VAT;
none where nothing is written. -/
def amoNew (f4 m b e : Nat) : Option Nat :=
  let mw : Word := BitVec.ofNat 64 m
  let bw : Word := BitVec.ofNat 64 b
  match f4 with
  | 0 | 11 => some (mw + bw).toNat
  | 1 => some (mw &&& bw).toNat
  | 2 => some (mw ||| bw).toNat
  | 3 => some (mw ^^^ bw).toNat
  | 4 | 12 => some (if bw.slt mw then bw else mw).toNat
  | 5 | 13 => some (if mw.slt bw then bw else mw).toNat
  | 6 => some (min m b)
  | 7 => some (max m b)
  | 8 => some b
  | 9 => if m = e then some b else none
  | 10 | 14 => some (addFp32 m b)
  | _ => some (vatAdd (BitVec.ofNat 128 m) (Fmt.decode .fp64 b) (signed 8 e)).toNat

/-- The combine at the target's home, one indivisible step (R171): the old value, the first poisoned byte, and the state. A
release enters its signature before the write, and a write that is not made still triggers monitors (R269; in part DEDUCED, log 9). -/
def State.combineAt (s : State) (a : Agent) (t : Target) (f4 b e : Nat) (release : Option (Option (BitVec 512))) : Nat × Option Nat × State :=
  let n := amoSize f4
  let r := (s.takeBack a t n).readTarget t n
  let s := r.2.2
  match r.2.1 with
  | some i => (0, some i, s)
  | none =>
    let m := leNat r.1
    let s := match release with
      | some g => s.sigRelease t g
      | none => s
    (m, none,
      match amoNew f4 m b e with
      | some v => s.writeTarget a t (leBytes v n)
      | none => s.touch a none t.place n)

/-! Issue. -/

/-- The target of an AMO or a RED is one that it may have (R269, R270): not host memory, which a light thread's migration meets
first (spec/18 R366), and not an alias page. -/
def amoTarget (kind : AccessKind) (t : Target) (k : State → Res) (s : State) : Res :=
  match t.place with
  | .mx _ _ _ => parkFault 3 kind t.va s
  | .remote sp _ => if sp = 255 && !s.cur.light then parkFault 3 kind t.va s else k s
  | .home _ | .window _ _ => k s

/-- The core's own copy of the target goes home first, and the sector enters SIGW (spec/11 R244). -/
def State.leaveCache (s : State) (c : Nat) (t : Target) (n : Nat) : State :=
  match t.place with
  | .home pa => (s.bypass c pa n).noteWrite c t n
  | .window _ _ | .mx _ _ _ | .remote _ _ => s

/-- The packet word of a proxy or a remote update (spec/11 R254). -/
def packetPw (space core slot f4 : Nat) : BitVec 40 :=
  BitVec.ofNat 40 (space % 256 * 2 ^ 32 + core % 1024 * 2 ^ 22 + slot % 64 * 2 ^ 16 + f4 % 16 * 2 ^ 12)

/-- The packet of the issuing thread's AMO (KIND 1) or RED (KIND 2). -/
def State.amoPacket (s : State) (kind f4 : Nat) (t : Target) (b e : Word) (sig : BitVec 512) : MigPacket :=
  let g := if kind = 1 then (span 0 8).map fun i => sig.extractLsb' (64 * i) 64 else [0, 0, 0, 0, 0, 0, 0, 0]
  ⟨kind, s.cur.inst, packetPw t.va.space.toNat s.ic s.is f4, t.va.off, b :: e :: g, s.ic, s.is, some t, 0, s.cur.device⟩

/-- A full queue refuses the packet: the thread keeps its context, parked (spec/07 R154). -/
def parkQueue (home : Nat) (s : State) : Res := park (.migration home) s

/-- An AMO (R269). A light thread combines at its home; a heavy one releases, sends a proxy and parks. -/
def amo (f4 : Nat) (b a d : BitVec 7) (s : State) : Res :=
  limit [a, b, d] (fun s =>
    let x := s.cur.opnd a
    let y := (s.cur.opnd b).val
    let e : Word := if f4 = 9 then (s.cur.opnd d).val else 0
    let va := s.dataAddr x.val
    access { r := true, w := true, noWindow := true } (amoSize f4) va (fun t s =>
      amoTarget .readWrite t (fun s =>
        atHome t (fun s =>
          if s.cur.redOverlap t.place (amoSize f4) then park .reds s
          else if s.cur.light then
            (if s.cur.reds != [] then park .reds s
            else if s.pinned t.place then park (.room .pin) s
            else
              let r := (s.noteWrite s.ic t (amoSize f4)).combineAt (.core s.ic) t f4 y.toNat e.toNat (some none)
              match r.2.1 with
              | some i => trapAt 12 (VAddr.plus va i) s
              | none => doneLatc (r.2.2.setRd d (BitVec.ofNat 64 r.1) false))
          else if !s.queueRoom t.queue then parkQueue t.queue s
          else
            released (fun s =>
              let s := s.leaveCache s.ic t (amoSize f4)
              .next ((s.park (.proxy d.toNat)).sendPacket t.queue (s.amoPacket 1 f4 t y e (s.core s.ic).carried))) s) s) s) s) s

/-- A RED (R270, R272): the operand is sent, and the thread goes on. -/
def red (f4 : Nat) (b a : BitVec 7) (e : Word) (regs : List (BitVec 7)) (s : State) : Res :=
  limit regs (fun s =>
    let x := s.cur.opnd a
    let y := (s.cur.opnd b).val
    let va := s.dataAddr x.val
    access { w := true, noWindow := true } (amoSize f4) va (fun t s =>
      amoTarget .write t (fun s =>
        atHome t (fun s =>
          if s.cur.redOverlap t.place (amoSize f4) then park .reds s
          else if s.cur.light then
            (if s.pinned t.place then park (.room .pin) s
            else
              let r := (s.noteWrite s.ic t (amoSize f4)).combineAt (.core s.ic) t f4 y.toNat e.toNat none
              done (if r.2.1.isSome then r.2.2.record (.redDropped s.cur.inst) else r.2.2))
          else if s.readHeld s.ic s.is true t (amoSize f4) then park (.room .pin) s
          else if !s.queueRoom t.queue then parkQueue t.queue s
          else
            let s := s.leaveCache s.ic t (amoSize f4)
            let n := s.serial
            let s := s.sendPacket t.queue (s.amoPacket 2 f4 t y e 0)
            done (s.updCur fun u => { u with reds := u.reds ++ [⟨t.queue, t.place, amoSize f4, n⟩] })) s) s) s) s

def execAmoAdd (b a d : BitVec 7) (s : State) : Res := amo 0 b a d s
def execAmoAnd (b a d : BitVec 7) (s : State) : Res := amo 1 b a d s
def execAmoOr (b a d : BitVec 7) (s : State) : Res := amo 2 b a d s
def execAmoXor (b a d : BitVec 7) (s : State) : Res := amo 3 b a d s
def execAmoMin (b a d : BitVec 7) (s : State) : Res := amo 4 b a d s
def execAmoMax (b a d : BitVec 7) (s : State) : Res := amo 5 b a d s
def execAmoMinu (b a d : BitVec 7) (s : State) : Res := amo 6 b a d s
def execAmoMaxu (b a d : BitVec 7) (s : State) : Res := amo 7 b a d s
def execAmoSwap (b a d : BitVec 7) (s : State) : Res := amo 8 b a d s
def execAmoCas (b a d : BitVec 7) (s : State) : Res := amo 9 b a d s
def execAmoFadd (b a d : BitVec 7) (s : State) : Res := amo 10 b a d s
def execRedAdd (b a : BitVec 7) (s : State) : Res := red 11 b a 0 [a, b] s
def execRedMin (b a : BitVec 7) (s : State) : Res := red 12 b a 0 [a, b] s
def execRedMax (b a : BitVec 7) (s : State) : Res := red 13 b a 0 [a, b] s
def execRedFadd (b a : BitVec 7) (s : State) : Res := red 14 b a 0 [a, b] s

/-- RED.VAT (R272): the exponent stands in bits 7:0 of the register that rd names. -/
def execRedVat (b a d : BitVec 7) (s : State) : Res :=
  red 15 b a ((s.cur.opnd d).val &&& 0xFF) [a, b, d] s

/-! The migration-in queue (spec/07 R154). -/

/-- The thread has a packet on its way. -/
def State.inFlight (s : State) (c sl : Nat) : Bool := s.flight.any fun x => x.2.kind = 0 && x.2.core = c && x.2.slot = sl

/-- Room in a queue: the packets that wait for it go on, and the threads that it refused retry. -/
def State.queueFreed (s : State) (home : Nat) : State :=
  let s := if s.flight.any fun x => x.1 = home then s.emitOnce (.migrationPacketArrival home) else s
  s.cores.foldl (fun s e =>
    e.2.slots.foldl (fun s x =>
      match x.2.wait with
      | some (.migration h) => if h = home && !s.inFlight e.1 x.1 then s.emitOnce (.migrationRetry e.1 x.1) else s
      | _ => s) s) s

/-- The context of a migrant: a light thread's, or the slot of a proxy or an update (spec/11 R254). -/
def MigPacket.thread (p : MigPacket) (block now id : Nat) : Thread :=
  let t : Thread := { st := .ready now false, id := id, light := true, inst := p.inst, alloc := 16, block := block, device := p.device }
  if p.kind = 0 then Thread.putRegs { t with pw := p.pw.setWidth 64, pc := p.pc } 1 false p.g else { t with proxy := some p }

/-- The instance of a migrant lets it issue; one that is halting or halted has it halted in its slot (spec/18 R373). -/
def State.issues (s : State) (inst : Nat) : Bool :=
  match s.inst inst with
  | some i => i.st = .live
  | none => true

/-- The next step of an instance's life may be due: its retirement, the end of its halt or of its kill. -/
def State.settleInst (s : State) (inst : Nat) : State :=
  match s.inst inst with
  | none => s
  | some i =>
    match i.st with
    | .live => s.emitOnce (.taskRetirement inst)
    | .halting => s.emitOnce (.haltComplete inst)
    | .killing => s.emitOnce (.killComplete inst)
    | .halted =>
      (match i.evictTo with
        | some n => s.emitOnce (.eviction inst n)
        | none => s)
    | .evicted _ => s

/-- The same for the instance of a halted thread, whose wait for a reply is over. -/
def State.settleHalted (s : State) (c sl : Nat) : State :=
  match (s.thread c sl).st with
  | .halted _ => s.settleInst (s.thread c sl).inst
  | .free | .ready _ _ | .seated _ _ | .parked _ | .frozen | .stopped => s

/-- A migrant's thread as its core takes it. -/
def State.seatMigrant (s : State) (c sl b : Nat) (p : MigPacket) : State :=
  let t := p.thread b (s.core c).cyc (s.serial + 1)
  let s := { s with serial := s.serial + 1 }
  if p.kind != 0 || p.device != 0 then s.putThread c sl t
  else
    let s := s.updInst p.inst fun i => { i with cores := if i.cores.contains c then i.cores else i.cores ++ [c] }
    if s.issues p.inst then s.putThread c sl t
    else (s.putThread c sl { t with st := .halted none }).emitOnce (.haltComplete p.inst)

/-- Seats the migrants at the head of a core's queue, in arrival order (R145). The queue of a core of another device lets a proxy
or an update at its head be performed there. -/
def State.serveQueue (c : Nat) : Nat → State → State
  | 0, s => s
  | fuel + 1, s =>
    match (s.core c).migIn with
    | [] => s
    | p :: rest =>
      if Config.cores ≤ c then s.emitOnce (if p.kind = 1 then .proxy c else .remoteUpdate c)
      else
        match (s.core c).migrantPlace with
        | some (sl, b) =>
          State.serveQueue c fuel (((s.updCore c fun k => { k with migIn := rest }).seatMigrant c sl b p).queueFreed c)
        | none => s

/-- Takes the head of a queue. -/
def State.popQueue (s : State) (c : Nat) : State :=
  State.serveQueue c 17 ((s.updCore c fun k => { k with migIn := k.migIn.drop 1 }).queueFreed c)

/-- A packet as it leaves for another device: its space and the link header name this one (spec/22 R406). -/
def MigPacket.leaving (p : MigPacket) (devid : BitVec 8) : MigPacket :=
  { p with
    device := devid.toNat
    pw := if p.pw.extractLsb' 32 8 = 0 then p.pw ||| (devid.setWidth 40 <<< 32) else p.pw }

/-- The first packet on its way to a queue that is not held, and the others. -/
def firstFor (held : MigPacket → Bool) (c : Nat) : List (Nat × MigPacket) → Option (MigPacket × List (Nat × MigPacket))
  | [] => none
  | (h, p) :: r =>
    if h = c && !held p then some (p, r)
    else (firstFor held c r).map fun x => (x.1, (h, p) :: x.2)

/-- MIGRATION_PACKET_ARRIVAL: the queue accepts the packet, or refuses it while it is full. The origin slot of a light thread is
freed when its packet is accepted. A light thread that another device accepts still belongs to its instance here (spec/22 R406); while
that is halted, the link switch holds it (spec/18 R373). -/
def execMigrationPacketArrival (core : Nat) (s : State) : Res :=
  match firstFor (fun p => p.kind = 0 && p.device = 0 && Config.cores ≤ core && !s.issues p.inst) core s.flight with
  | none => .next s
  | some (p, rest) =>
    if 16 ≤ (s.core core).migIn.length then .next s
    else
      let s := { s with flight := rest }
      let s := if p.kind = 0 && p.device = 0 then s.freeThread p.core p.slot else s
      if p.kind = 0 && Config.cores ≤ core then
        .next ({ s with away := if p.device = 0 then s.away ++ [p] else s.away }.record
          (.migrationOut (if p.device = 0 then p.leaving s.hub.devid else p)))
      else .next (State.serveQueue core 17 (s.updCore core fun k => { k with migIn := k.migIn ++ [p] }))

/-- MIGRATION_RETRY: a refused light thread sends its packet again when the queue has room; a refused AMO or RED issues again. -/
def execMigrationRetry (core slot : Nat) (s : State) : Res :=
  let t := s.thread core slot
  match t.wait with
  | some (.migration home) =>
    if s.inFlight core slot || !s.queueRoom home then .next s
    else if t.light then
      (match t.st with
        | .parked _ => .next (s.sendPacket home (t.packet core slot))
        | .free | .ready _ _ | .seated _ _ | .frozen | .halted _ | .stopped => .next s)
    else .next (s.wake core slot)
  | _ => .next s

/-! Proxies and updates at the home (spec/11 R254, R256). -/

/-- The signature a proxy carries. -/
def MigPacket.carried (p : MigPacket) : BitVec 512 :=
  BitVec.ofNat 512 (packLanes 64 ((p.g.drop 2).map (·.toNat)))

/-- A kill waits for what its instance still has to write (spec/18 R380). -/
def State.packetDone (s : State) (inst : Nat) : State :=
  match s.inst inst with
  | some i => if i.st = .killing then s.emitOnce (.killComplete inst) else s
  | none => s

/-- TLB.INV completes once no access that it waits for is left (spec/19 R398). -/
def State.endInvalidate (s : State) (c sl : Nat) : State :=
  match (s.thread c sl).wait with
  | some (.invalidate [] []) => (s.complete c sl false id).settleHalted c sl
  | _ => s

/-- A wait after an access of a thread, or a packet, is done. -/
def Wait.settled (w : Wait) (access : Option (Nat × Nat)) (packet : Option Nat) : Wait :=
  match w with
  | .invalidate l m => .invalidate (l.filter fun x => some x != access) (m.filter fun x => some x != packet)
  | _ => w

/-- The waits of TLB.INV after an access is done. -/
def State.accessDone (s : State) (access : Option (Nat × Nat)) (packet : Option Nat) : State :=
  s.cores.foldl (fun s e =>
    e.2.slots.foldl (fun s x =>
      match x.2.st with
      | .parked (.invalidate l m) =>
        (s.updThread e.1 x.1 fun t => { t with st := .parked (Wait.settled (.invalidate l m) access packet) }).endInvalidate e.1 x.1
      | .halted (some (.invalidate l m)) =>
        (s.updThread e.1 x.1 fun t => { t with st := .halted (some (Wait.settled (.invalidate l m) access packet)) }).endInvalidate e.1 x.1
      | _ => s) s) s

/-- The origin slot still holds the thread that sent a proxy: its instance has not been killed. -/
def State.awaitsProxy (s : State) (p : MigPacket) : Bool :=
  (s.thread p.core p.slot).inst = p.inst &&
  match (s.thread p.core p.slot).wait with
  | some (.proxy _) => true
  | _ => false

/-- The proxy or update that a core performs: that of its issuing slot, or the head of the queue of a core of another device. -/
def State.proxyNow (s : State) (core : Nat) : Option MigPacket :=
  if core < Config.cores then (s.thread core s.is).proxy else (s.core core).migIn.head?

/-- An earlier update of the same core to the same home has its slot still, on the home core or, after a swap, on its partner (spec/11
R256). -/
def State.updateAhead (s : State) (core : Nat) (p : MigPacket) : Bool :=
  ((s.core core).slots ++ (s.core (partner core)).slots).any fun e => match e.2.proxy with
    | some q => q.kind = 2 && p.kind = 2 && q.device = p.device && q.core = p.core && q.serial < p.serial &&
        q.target.map Target.queue = p.target.map Target.queue
    | none => false

/-- Proxies and updates that wait for their turn in a core's slots go on. -/
def State.wakeProxies (s : State) (core : Nat) : State :=
  (s.core core).slots.foldl (fun s e => if e.2.proxy.isSome && e.2.wait = some (.room .pin) then s.wake core e.1 else s) s

/-- A proxy or an update is performed: its slot and blocks, or its place in a queue, are free. -/
def State.proxyOver (s : State) (core : Nat) (p : MigPacket) : State :=
  let s := if core < Config.cores then ((State.serveQueue core 17 (s.freeThread core s.is)).wakeProxies core).wakeProxies (partner core) else s.popQueue core
  (if p.device = 0 then s.packetDone p.inst else s).accessDone none (some p.serial)

/-- A proxy or update that a pin holds (spec/14 R304), or that is not yet in turn, waits in its slot. -/
def proxyHeld (core : Nat) (s : State) : Res :=
  .next (if core < Config.cores then s.updThread core s.is fun t => { t with st := .parked (.room .pin) } else s)

/-- Who performs a proxy or an update, and the signature with which its release enters the table (R246; in part DEDUCED, log 57). -/
def MigPacket.agent (p : MigPacket) : Agent := if p.device = 0 then .core p.core else .outside
def MigPacket.release (p : MigPacket) : Option (BitVec 512) := if p.device = 0 then some p.carried else none

/-- The issuing core drops what it has cached of the target since (spec/08 R170, spec/12 R269). -/
def State.dropCopy (s : State) (p : MigPacket) (t : Target) (n : Nat) : State :=
  match t.place with
  | .home pa => if p.device = 0 then s.bypass p.core pa n else s
  | .window _ _ | .mx _ _ _ | .remote _ _ => s

/-- The reply of an AMO to its origin. -/
def State.reply (s : State) (p : MigPacket) (r : AmoReply) (size : Nat) : State :=
  if p.device != 0 then
    s.record (.deviceRead p.device (64 * p.core + p.slot) (if r.poisoned then none else some (leBytes r.old.toNat size)))
  else if s.awaitsProxy p then
    (s.updCore p.core fun k => { k with replies := tabPut k.replies p.slot r }).emit (.proxyReply p.core p.slot)
  else s

/-- PROXY: the AMO is performed; the reply holds the old value and the line's S. -/
def execProxy (core : Nat) (s : State) : Res :=
  match s.proxyNow core with
  | some p =>
    match p.kind, p.target with
    | 1, some t =>
      if s.pinned t.place then proxyHeld core s
      else
        let f4 := fld p.pw.toNat 15 12
        let r := s.combineAt p.agent t f4 (p.g.getD 0 0).toNat (p.g.getD 1 0).toNat (some p.release)
        let s := r.2.2.dropCopy p t (amoSize f4)
        let reply : AmoReply := ⟨BitVec.ofNat 64 r.1, s.sigAcquire t, r.2.1.isSome, VAddr.plus t.va (r.2.1.getD 0)⟩
        .next ((s.reply p reply (amoSize f4)).proxyOver core p)
    | _, _ => .next s
  | none => .next s

/-- The same after a step. -/
def haltSettled (c sl : Nat) (r : Res) : Res :=
  match r with
  | .next s => .next (s.settleHalted c sl)
  | .fault f => .fault f
  | .refused f => .refused f

/-- PROXY_REPLY: the origin writes rd, applies S and is ready again; a poisoned target traps. -/
def execProxyReply (core slot : Nat) (s : State) : Res :=
  match tabFind (s.core core).replies slot, (s.thread core slot).wait with
  | some r, some (.proxy rd) =>
    let s := s.updCore core fun k => { k with replies := tabDel k.replies slot }
    haltSettled core slot (resume core slot (fun s =>
      if r.poisoned then trapAt 12 r.place s
      else doneLatc ((s.applySig core r.signature).setRd (BitVec.ofNat 7 rd) r.old false)) s)
  | _, _ => .next s

/-- A RED of a thread is performed: the accesses that wait for it go on (in part DEDUCED, log 9). -/
def State.redDone (s : State) (c sl serial : Nat) : State :=
  let t := s.thread c sl
  if t.reds.any fun r => r.serial = serial then
    let s := s.putThread c sl { t with reds := t.reds.filter fun r => r.serial != serial }
    let s := match t.wait with
      | some .reds => s.wake c sl
      | some (.access _) => s.emitOnce (.accessReply c sl)
      | _ => s
    s.settleHalted c sl
  else s

/-- REMOTE_UPDATE: the update is combined into the line; on poison the combine is dropped and reported. -/
def execRemoteUpdate (core : Nat) (s : State) : Res :=
  match s.proxyNow core with
  | some p =>
    match p.kind, p.target with
    | 2, some t =>
      if s.pinned t.place || s.updateAhead core p then proxyHeld core s
      else
        let f4 := fld p.pw.toNat 15 12
        let r := s.combineAt p.agent t f4 (p.g.getD 0 0).toNat (p.g.getD 1 0).toNat none
        let s := if r.2.1.isSome then r.2.2.record (.redDropped p.inst) else r.2.2
        let s := s.dropCopy p t (amoSize f4)
        .next ((if p.device = 0 then s.redDone p.core p.slot p.serial else s).proxyOver core p)
    | _, _ => .next s
  | none => .next s

end Sys2Proof.Machine
end

