-- ==== Sys2Proof/Machine/Branch.lean ====
section
/-! DEFINITION. Branches and jumps (spec/04 R100 to R104). -/

namespace Sys2Proof.Machine

/-- Go to an address, or on to the next word. -/
def branchTo (taken : Bool) (target : Word) (s : State) : Res := if taken then jump target s else done s

/-- The target of a branch: its own address + imm8 × 4, where i holds imm8[7:4] and j imm8[3:0] (spec/02 R33). -/
def branchTarget (i j : BitVec 4) (pc : Word) : Word := pc + (i ++ j).signExtend 64 * 4

/-- A branch on two registers (R100). -/
def branchIf (f : Word → Word → Bool) (i : BitVec 4) (b a : BitVec 7) (j : BitVec 4) (s : State) : Res :=
  limit [a, b] (fun s =>
    let pc := s.cur.pc
    readSrc a (fun x => readSrc b fun y => branchTo (f x.val y.val) (branchTarget i j pc)) s) s

def execBeq (i : BitVec 4) (b a : BitVec 7) (j : BitVec 4) (s : State) : Res := branchIf (fun x y => x = y) i b a j s
def execBne (i : BitVec 4) (b a : BitVec 7) (j : BitVec 4) (s : State) : Res := branchIf (fun x y => x ≠ y) i b a j s
def execBlt (i : BitVec 4) (b a : BitVec 7) (j : BitVec 4) (s : State) : Res := branchIf (fun x y => x.slt y) i b a j s
def execBge (i : BitVec 4) (b a : BitVec 7) (j : BitVec 4) (s : State) : Res := branchIf (fun x y => !x.slt y) i b a j s
def execBltu (i : BitVec 4) (b a : BitVec 7) (j : BitVec 4) (s : State) : Res := branchIf (fun x y => x.ult y) i b a j s
def execBgeu (i : BitVec 4) (b a : BitVec 7) (j : BitVec 4) (s : State) : Res := branchIf (fun x y => !x.ult y) i b a j s

/-- A branch on a predicate (R101). -/
def branchPred (sense : Bool) (i : BitVec 4) (p : BitVec 5) (j : BitVec 4) (s : State) : Res :=
  branchTo (s.cur.pred p == sense) (branchTarget i j s.cur.pc) s

def execBp (i : BitVec 4) (p : BitVec 5) (j : BitVec 4) (s : State) : Res := branchPred true i p j s
def execBnp (i : BitVec 4) (p : BitVec 5) (j : BitVec 4) (s : State) : Res := branchPred false i p j s

/-- The rotation of the register region by one (spec/01 R21). -/
def Thread.rotate (t : Thread) : Thread :=
  if t.active then { t with rrb := BitVec.ofNat 7 ((t.rrb.toNat + t.rrsz.toNat - 1) % t.rrsz.toNat) } else t

/-- BRB (R102): the count's register is renamed under the rotating state before the BRB. -/
def execBrb (i : BitVec 4) (a : BitVec 7) (j : BitVec 4) (s : State) : Res :=
  limit [a] (fun s =>
    let x := s.cur.opnd a
    let target := branchTarget i j s.cur.pc
    branchTo (x.val - 1 ≠ 0) target ((s.setRd a (x.val - 1) x.fresh).updCur Thread.rotate)) s

/-- JAL (R103): the link register g1 is never renamed. -/
def execJal (i : BitVec 25) (s : State) : Res :=
  let pc := s.cur.pc
  jump (pc + i.signExtend 64 * 4) (s.updCur fun t => t.setReg 1 (pc + 4) false)

/-- JALR (R104): a target that is not aligned traps at the JALR, with its address in TVAL. -/
def execJalr (i : BitVec 8) (a d : BitVec 7) (s : State) : Res :=
  limit [a, d] (fun s =>
    let pc := s.cur.pc
    let target := (s.cur.opnd a).val + i.signExtend 64 * 4
    if target.toNat % 4 ≠ 0 then trap 2 target s else jump target (s.setRd d (pc + 4) false)) s

end Sys2Proof.Machine
end

