-- ==== Sys2Proof/Machine/Fpu.lean ====
section
/-! DEFINITION. Floating point in the general registers (spec/04 R91 to R95). -/

namespace Sys2Proof.Machine

/-- An exact result: its value, its sticky mark, and the flags of the operation itself. -/
abbrev Exact := Val × Bool × Flags

def exact (r : Val × Flags) : Exact := (r.1, false, r.2)

/-- The one rounding of a floating result (R92): the register value and the flags. -/
def roundTo (f : Fmt) (rm : Rm) (r : Exact) : Word × Flags :=
  let x := roundFlt f r.1 r.2.1 rm false
  (BitVec.ofNat 64 x.1, Flags.or r.2.2 x.2)

/-- The value of a register operand (R91). -/
def fval (f : Fmt) (x : Word) : Val := Fmt.decode f x.toNat

/-- rd ← f(rs1) with flags. -/
def funary (g : Rm → Word → Word × Flags) (a d : BitVec 7) (s : State) : Res :=
  limit [a, d] (readSrc a fun x s =>
    let r := g s.cur.roundMode x.val
    writeDst d r.1 x.fresh (fun s => done (s.addFflags r.2)) s) s

/-- rd ← f(rs1, rs2) with flags. -/
def fbinary (g : Rm → Word → Word → Word × Flags) (b a d : BitVec 7) (s : State) : Res :=
  limit [a, b, d] (readSrc a fun x => readSrc b fun y s =>
    let r := g s.cur.roundMode x.val y.val
    writeDst d r.1 (x.fresh || y.fresh) (fun s => done (s.addFflags r.2)) s) s

/-- rd ← f(rs1, rs2, old rd) with flags; rd is no port (spec/04 R83). -/
def fternary (g : Rm → Word → Word → Word → Word × Flags) (b a d : BitVec 7) (s : State) : Res :=
  limit [a, b, d] (readSrc a fun x => readSrc b fun y s =>
    let z := s.cur.opnd d
    let r := g s.cur.roundMode x.val y.val z.val
    done ((s.setRd d r.1 (x.fresh || y.fresh || z.fresh)).addFflags r.2)) s

/-! Arithmetic (R93). -/

def fadd (f : Fmt) (rm : Rm) (x y : Word) : Word × Flags := roundTo f rm (exact (Val.add rm (fval f x) (fval f y)))
def fsub (f : Fmt) (rm : Rm) (x y : Word) : Word × Flags := roundTo f rm (exact (Val.add rm (fval f x) (Val.neg (fval f y))))
def fmul (f : Fmt) (rm : Rm) (x y : Word) : Word × Flags := roundTo f rm (exact (Val.mul (fval f x) (fval f y)))
def fdiv (f : Fmt) (rm : Rm) (x y : Word) : Word × Flags := roundTo f rm (Val.div (fval f x) (fval f y))
def fsqrt (f : Fmt) (rm : Rm) (x : Word) : Word × Flags := roundTo f rm (Val.sqrt (fval f x))
def ffma (f : Fmt) (rm : Rm) (x y z : Word) : Word × Flags := roundTo f rm (exact (Val.fma rm (fval f x) (fval f y) (fval f z)))
def ffms (f : Fmt) (rm : Rm) (x y z : Word) : Word × Flags :=
  roundTo f rm (exact (Val.fma rm (fval f x) (fval f y) (Val.neg (fval f z))))

/-- The smaller or the larger of two values, −0 below +0; the other operand of a NaN. -/
def pick (larger : Bool) (a b : Val) : Val :=
  if Val.isNan a then b
  else if Val.isNan b then a
  else if keyLe a b != larger then a else b

def fminmax (larger : Bool) (f : Fmt) (_rm : Rm) (x y : Word) : Word × Flags :=
  (BitVec.ofNat 64 (Fmt.encode f (pick larger (fval f x) (fval f y))), {})

/-- |a| with a sign bit. -/
def withSign (f : Fmt) (x : Word) (neg : Bool) : Word :=
  let m := 2 ^ (Fmt.width f - 1)
  BitVec.ofNat 64 (x.toNat % m + (if neg then m else 0))

/-- FSGNJ: a NaN gives the canonical NaN and b is not read; otherwise b's own sign bit is copied. -/
def fsgnj (f : Fmt) (b a d : BitVec 7) (s : State) : Res :=
  limit [a, b, d] (readSrc a fun x =>
    if Val.isNan (fval f x.val) then writeDst d (BitVec.ofNat 64 (Fmt.nan f)) x.fresh done
    else readSrc b fun y => writeDst d (withSign f x.val (y.val.getLsbD (Fmt.width f - 1))) (x.fresh || y.fresh) done) s

/-! Comparisons and classes (R94). -/

def feq (f : Fmt) (_rm : Rm) (x y : Word) : Word × Flags := (bit (Val.eq (fval f x) (fval f y)), {})

/-- FLT and FLE report NV for a NaN. -/
def forder (orEqual : Bool) (f : Fmt) (_rm : Rm) (x y : Word) : Word × Flags :=
  let a := fval f x
  let b := fval f y
  (bit (Val.lt a b || (orEqual && Val.eq a b)), { nv := Val.isNan a || Val.isNan b })

/-- The class bit of a value. -/
def classOf (f : Fmt) : Val → Nat
  | .nan => 8
  | .inf s => if s then 0 else 7
  | .fin s m _ =>
    if m = 0 then (if s then 3 else 4)
    else if m < 2 ^ Fmt.m f then (if s then 2 else 5)
    else (if s then 1 else 6)

def fclass (f : Fmt) (_rm : Rm) (x : Word) : Word × Flags := (BitVec.ofNat 64 (2 ^ classOf f (fval f x)), {})

/-! Conversions (R95). -/

def fromInt (f : Fmt) (sgn : Bool) (rm : Rm) (x : Word) : Word × Flags :=
  roundTo f rm (Val.ofInt (if sgn then x.toInt else x.toNat), false, {})

/-- To an integer of a range, written as a 64-bit integer. -/
def toInt (f : Fmt) (lo hi : Int) (rm : Rm) (x : Word) : Word × Flags :=
  let r := roundInt lo hi (fval f x) false rm
  (BitVec.ofInt 64 r.1, r.2)

/-- From one format to another. -/
def toFmt (src dst : Fmt) (rm : Rm) (x : Word) : Word × Flags := roundTo dst rm (fval src x, false, {})

/-! FLT.S. -/

def execFaddS (b a d : BitVec 7) (s : State) : Res := fbinary (fadd .fp32) b a d s
def execFsubS (b a d : BitVec 7) (s : State) : Res := fbinary (fsub .fp32) b a d s
def execFmulS (b a d : BitVec 7) (s : State) : Res := fbinary (fmul .fp32) b a d s
def execFdivS (b a d : BitVec 7) (s : State) : Res := fbinary (fdiv .fp32) b a d s
def execFminS (b a d : BitVec 7) (s : State) : Res := fbinary (fminmax false .fp32) b a d s
def execFmaxS (b a d : BitVec 7) (s : State) : Res := fbinary (fminmax true .fp32) b a d s
def execFsqrtS (a d : BitVec 7) (s : State) : Res := funary (fsqrt .fp32) a d s
def execFcvtSI (a d : BitVec 7) (s : State) : Res := funary (fromInt .fp32 true) a d s
def execFcvtSN (a d : BitVec 7) (s : State) : Res := funary (fromInt .fp32 false) a d s
def execFcvtIS (a d : BitVec 7) (s : State) : Res := funary (toInt .fp32 (-2 ^ 63) (2 ^ 63 - 1)) a d s
def execFcvtNS (a d : BitVec 7) (s : State) : Res := funary (toInt .fp32 0 (2 ^ 64 - 1)) a d s
def execFcvtWS (a d : BitVec 7) (s : State) : Res := funary (toInt .fp32 (-2 ^ 31) (2 ^ 31 - 1)) a d s
def execFcvtNwS (a d : BitVec 7) (s : State) : Res := funary (toInt .fp32 0 (2 ^ 32 - 1)) a d s
def execFcvtSD (a d : BitVec 7) (s : State) : Res := funary (toFmt .fp64 .fp32) a d s
def execFcvtSB (a d : BitVec 7) (s : State) : Res := funary (toFmt .bf16 .fp32) a d s
def execFcvtBS (a d : BitVec 7) (s : State) : Res := funary (toFmt .fp32 .bf16) a d s
def execFclassS (a d : BitVec 7) (s : State) : Res := funary (fclass .fp32) a d s
def execFeqS (b a d : BitVec 7) (s : State) : Res := fbinary (feq .fp32) b a d s
def execFltS (b a d : BitVec 7) (s : State) : Res := fbinary (forder false .fp32) b a d s
def execFleS (b a d : BitVec 7) (s : State) : Res := fbinary (forder true .fp32) b a d s
def execFfmaS (b a d : BitVec 7) (s : State) : Res := fternary (ffma .fp32) b a d s
def execFfmsS (b a d : BitVec 7) (s : State) : Res := fternary (ffms .fp32) b a d s
def execFsgnjS (b a d : BitVec 7) (s : State) : Res := fsgnj .fp32 b a d s

/-! FLT.D. -/

def execFaddD (b a d : BitVec 7) (s : State) : Res := fbinary (fadd .fp64) b a d s
def execFsubD (b a d : BitVec 7) (s : State) : Res := fbinary (fsub .fp64) b a d s
def execFmulD (b a d : BitVec 7) (s : State) : Res := fbinary (fmul .fp64) b a d s
def execFdivD (b a d : BitVec 7) (s : State) : Res := fbinary (fdiv .fp64) b a d s
def execFminD (b a d : BitVec 7) (s : State) : Res := fbinary (fminmax false .fp64) b a d s
def execFmaxD (b a d : BitVec 7) (s : State) : Res := fbinary (fminmax true .fp64) b a d s
def execFsqrtD (a d : BitVec 7) (s : State) : Res := funary (fsqrt .fp64) a d s
def execFcvtDI (a d : BitVec 7) (s : State) : Res := funary (fromInt .fp64 true) a d s
def execFcvtDN (a d : BitVec 7) (s : State) : Res := funary (fromInt .fp64 false) a d s
def execFcvtID (a d : BitVec 7) (s : State) : Res := funary (toInt .fp64 (-2 ^ 63) (2 ^ 63 - 1)) a d s
def execFcvtND (a d : BitVec 7) (s : State) : Res := funary (toInt .fp64 0 (2 ^ 64 - 1)) a d s
def execFcvtWD (a d : BitVec 7) (s : State) : Res := funary (toInt .fp64 (-2 ^ 31) (2 ^ 31 - 1)) a d s
def execFcvtNwD (a d : BitVec 7) (s : State) : Res := funary (toInt .fp64 0 (2 ^ 32 - 1)) a d s
def execFcvtDS (a d : BitVec 7) (s : State) : Res := funary (toFmt .fp32 .fp64) a d s
def execFcvtDB (a d : BitVec 7) (s : State) : Res := funary (toFmt .bf16 .fp64) a d s
def execFcvtBD (a d : BitVec 7) (s : State) : Res := funary (toFmt .fp64 .bf16) a d s
def execFclassD (a d : BitVec 7) (s : State) : Res := funary (fclass .fp64) a d s
def execFeqD (b a d : BitVec 7) (s : State) : Res := fbinary (feq .fp64) b a d s
def execFltD (b a d : BitVec 7) (s : State) : Res := fbinary (forder false .fp64) b a d s
def execFleD (b a d : BitVec 7) (s : State) : Res := fbinary (forder true .fp64) b a d s
def execFfmaD (b a d : BitVec 7) (s : State) : Res := fternary (ffma .fp64) b a d s
def execFfmsD (b a d : BitVec 7) (s : State) : Res := fternary (ffms .fp64) b a d s
def execFsgnjD (b a d : BitVec 7) (s : State) : Res := fsgnj .fp64 b a d s

end Sys2Proof.Machine
end

