-- ==== Sys2Proof/Machine/Vector.lean ====
section
/-! DEFINITION. Vector instructions on register groups: VOP (spec/05 R107 to R123). A lane's result is its code and its
flags. -/

namespace Sys2Proof.Machine

abbrev LaneRes := Nat × Flags

/-! Reading and writing lanes. -/

/-- The 128-bit mask g13 ‖ g12 (spec/02 R37). -/
def Thread.mask (t : Thread) : Nat := (t.reg 12).toNat + 2 ^ 64 * (t.reg 13).toNat

/-- The mask, or all ones when M = 0. -/
def Thread.enabled (t : Thread) (m : Bool) : Nat := if m then t.mask else 2 ^ 128 - 1

/-- Lanes of width w of group k. -/
def Thread.lanes (t : Thread) (w k : Nat) : List Nat := unpackLanes w (t.group k) (1024 / w)

/-- Results of the enabled lanes over the old lanes, from lane i on, with the flags of the enabled lanes (R114). -/
def merge (mask : Nat) : Nat → List LaneRes → List Nat → List Nat × Flags
  | i, r :: rs, o :: os =>
    let x := merge mask (i + 1) rs os
    if mask.testBit i then (r.1 :: x.1, Flags.or r.2 x.2) else (o :: x.1, x.2)
  | _, [], os => (os, {})
  | _, _ :: _, [] => ([], {})

/-- Lane by lane. -/
def zip3 (f : Nat → Nat → Nat → LaneRes) : List Nat → List Nat → List Nat → List LaneRes
  | a :: as, b :: bs, c :: cs => f a b c :: zip3 f as bs cs
  | [], _, _ => []
  | _ :: _, [], _ => []
  | _ :: _, _ :: _, [] => []

/-- Every lane of a list is its first. -/
def broadcastFirst (l : List Nat) : List Nat := l.map fun _ => l.headD 0

/-- The mask registers, as implicit operands. -/
def maskRegs (m : Bool) : List Nat := if m then [12, 13] else []

/-- A result computed from groups is fresh when one of them, or the mask, is (spec/11 R250). -/
def Thread.vecFresh (t : Thread) (groups : List Nat) (m : Bool) : Bool :=
  groups.any t.groupFresh || (m && (t.isFresh 12 || t.isFresh 13))

/-- Writes group k with lanes of width w. -/
def State.setLanes (s : State) (k w : Nat) (l : List Nat) (fresh : Bool) : State :=
  s.updCur fun t => t.setGroup k (packLanes w l) fresh

/-- The instruction's nibble of vs2: M, S and RM (spec/02 R37). -/
structure Mods where
  m : Bool := false
  s : Bool := false
  rm : Nat := 0
  deriving DecidableEq, Repr

def modsOf (n : BitVec 4) : Mods := ⟨n.getLsbD 3, n.getLsbD 2, n.toNat % 4⟩

/-- A lanewise instruction of three sources (R118): a from vs1 (h), b from vs2 (g) or its lane 0, c the old lane of vd (k). -/
def lanewise (w : InstrWord) (width : Nat) (g h k : BitVec 3) (bc m : Bool) (f : Nat → Nat → Nat → LaneRes) (s : State) : Res :=
  vectorGate w [] [k, h, g] (maskRegs m) (fun s =>
    let t := s.cur
    let cs := t.lanes width k.toNat
    let bs := t.lanes width g.toNat
    let r := merge (t.enabled m) 0 (zip3 f (t.lanes width h.toNat) (if bc then broadcastFirst bs else bs) cs) cs
    done ((s.setLanes k.toNat width r.1 (t.vecFresh [g.toNat, h.toNat, k.toNat] m)).addVxf r.2 false)) s

/-! Arithmetic on one lane (R112, R118, R119). -/

/-- An integer formula through narrow, or a float one through round_to. -/
def laneArith (t : Elem) (sat : Bool) (rm : Rm) (fi : Int → Int → Int → Int) (ff : Val → Val → Val → Exact) (a b c : Nat) : LaneRes :=
  match t with
  | .flt f =>
    let e := ff (Fmt.decode f a) (Fmt.decode f b) (Fmt.decode f c)
    let r := roundFlt f e.1 e.2.1 rm sat
    (r.1, Flags.or e.2.2 r.2)
  | .int _ _ | .m8 => narrow t (fi (Elem.intOf t a) (Elem.intOf t b) (Elem.intOf t c)) sat

/-- The same with its modifiers. -/
def vArith (w : InstrWord) (n : BitVec 4) (g h : BitVec 3) (mod_ : BitVec 4) (k : BitVec 3) (t : BitVec 4)
    (fi : Int → Int → Int → Int) (ff : Rm → Val → Val → Val → Exact) (s : State) : Res :=
  let x := modsOf n
  let rm := rmOf x.rm
  lanewise w (laneWidth t.toNat) g h k (mod_ = 1) x.m (laneArith (elemOf t.toNat) x.s rm fi (ff rm)) s

def execVadd (g : BitVec 3) (n : BitVec 4) (h : BitVec 3) (m : BitVec 4) (k : BitVec 3) (t : BitVec 4) (s : State) : Res :=
  vArith (wordVadd g n h m k t) n g h m k t (fun a b _ => a + b) (fun rm a b _ => exact (Val.add rm a b)) s

def execVsub (g : BitVec 3) (n : BitVec 4) (h : BitVec 3) (m : BitVec 4) (k : BitVec 3) (t : BitVec 4) (s : State) : Res :=
  vArith (wordVsub g n h m k t) n g h m k t (fun a b _ => a - b) (fun rm a b _ => exact (Val.add rm a (Val.neg b))) s

def execVmul (g : BitVec 3) (n : BitVec 4) (h : BitVec 3) (m : BitVec 4) (k : BitVec 3) (t : BitVec 4) (s : State) : Res :=
  vArith (wordVmul g n h m k t) n g h m k t (fun a b _ => a * b) (fun _ a b _ => exact (Val.mul a b)) s

def execVfma (g : BitVec 3) (n : BitVec 4) (h : BitVec 3) (m : BitVec 4) (k : BitVec 3) (t : BitVec 4) (s : State) : Res :=
  vArith (wordVfma g n h m k t) n g h m k t (fun a b c => a * b + c) (fun rm a b c => exact (Val.fma rm a b c)) s

def execVfms (g : BitVec 3) (n : BitVec 4) (h : BitVec 3) (m : BitVec 4) (k : BitVec 3) (t : BitVec 4) (s : State) : Res :=
  vArith (wordVfms g n h m k t) n g h m k t (fun a b c => a * b - c) (fun rm a b c => exact (Val.fma rm a b (Val.neg c))) s

/-- The smaller or the larger lane. -/
def laneMinMax (larger : Bool) (t : Elem) (a b : Nat) : LaneRes :=
  match t with
  | .flt f => (Fmt.encode f (pick larger (Fmt.decode f a) (Fmt.decode f b)), {})
  | .int _ _ | .m8 =>
    let x := Elem.intOf t a
    let y := Elem.intOf t b
    (Elem.encodeInt t (if larger then max x y else min x y), {})

def execVmin (g : BitVec 3) (x : BitVec 1) (h : BitVec 3) (m : BitVec 4) (k : BitVec 3) (t : BitVec 4) (s : State) : Res :=
  lanewise (wordVmin g x h m k t) (laneWidth t.toNat) g h k (m = 1) (x = 1) (fun a b _ => laneMinMax false (elemOf t.toNat) a b) s

def execVmax (g : BitVec 3) (x : BitVec 1) (h : BitVec 3) (m : BitVec 4) (k : BitVec 3) (t : BitVec 4) (s : State) : Res :=
  lanewise (wordVmax g x h m k t) (laneWidth t.toNat) g h k (m = 1) (x = 1) (fun a b _ => laneMinMax true (elemOf t.toNat) a b) s

def execVand (g : BitVec 3) (x : BitVec 1) (h : BitVec 3) (m : BitVec 4) (k : BitVec 3) (t : BitVec 4) (s : State) : Res :=
  lanewise (wordVand g x h m k t) (laneWidth t.toNat) g h k (m = 1) (x = 1) (fun a b _ => (a &&& b, {})) s

def execVor (g : BitVec 3) (x : BitVec 1) (h : BitVec 3) (m : BitVec 4) (k : BitVec 3) (t : BitVec 4) (s : State) : Res :=
  lanewise (wordVor g x h m k t) (laneWidth t.toNat) g h k (m = 1) (x = 1) (fun a b _ => (a ||| b, {})) s

def execVxor (g : BitVec 3) (x : BitVec 1) (h : BitVec 3) (m : BitVec 4) (k : BitVec 3) (t : BitVec 4) (s : State) : Res :=
  lanewise (wordVxor g x h m k t) (laneWidth t.toNat) g h k (m = 1) (x = 1) (fun a b _ => (a ^^^ b, {})) s

/-- a × 2^sh with sh = b mod w (R119). -/
def laneShl (t : Elem) (w : Nat) (sat : Bool) (a b : Nat) : LaneRes := narrow t (Elem.intOf t a * 2 ^ (b % w)) sat

/-- a ÷ 2^sh rounded by RM; dropped nonzero bits report inexact in every mode. -/
def laneShr (t : Elem) (w : Nat) (rm : Rm) (a b : Nat) : LaneRes :=
  let n := Elem.intOf t a
  let r := roundUnits rm (n < 0) n.natAbs (-(b % w : Nat)) 0 false
  (Elem.encodeInt t (if n < 0 then -(r.1 : Int) else r.1), { nx := !r.2 })

def execVshl (g : BitVec 3) (x y : BitVec 1) (h : BitVec 3) (m : BitVec 4) (k : BitVec 3) (t : BitVec 4) (s : State) : Res :=
  lanewise (wordVshl g x y h m k t) (laneWidth t.toNat) g h k (m = 1) (x = 1)
    (fun a b _ => laneShl (elemOf t.toNat) (laneWidth t.toNat) (y = 1) a b) s

def execVshr (g : BitVec 3) (x : BitVec 1) (r : BitVec 2) (h : BitVec 3) (m : BitVec 4) (k : BitVec 3) (t : BitVec 4) (s : State) : Res :=
  lanewise (wordVshr g x r h m k t) (laneWidth t.toNat) g h k (m = 1) (x = 1)
    (fun a b _ => laneShr (elemOf t.toNat) (laneWidth t.toNat) (rmOf r.toNat) a b) s

/-! Compare and select (R120, R121). -/

/-- A relation of two lanes: 0 EQ, 1 NE, 2 LT, 3 LE, 4 GT, 5 GE. -/
def laneRel (t : Elem) (rel a b : Nat) : Bool × Flags :=
  let x := Elem.decode t a
  let y := Elem.decode t b
  let nan := Val.isNan x || Val.isNan y
  let r :=
    match rel with
    | 0 => Val.eq x y
    | 1 => !Val.eq x y
    | 2 => Val.lt x y
    | 3 => Val.lt x y || Val.eq x y
    | 4 => Val.lt y x
    | _ => Val.lt y x || Val.eq x y
  (r, { nv := nan && 2 ≤ rel })

/-- The bits of a list of Booleans, from bit 0 up. -/
def bitsNat : List Bool → Nat
  | [] => 0
  | b :: r => (if b then 1 else 0) + 2 * bitsNat r

/-- The new mask bits, from lane i on, and their flags: a disabled lane's bit is unchanged. -/
def compareLanes (t : Elem) (rel : Nat) (m : Bool) (mask : Nat) : Nat → List Nat → List Nat → List Bool × Flags
  | i, a :: as, b :: bs =>
    let x := compareLanes t rel m mask (i + 1) as bs
    if m && !mask.testBit i then (false :: x.1, x.2)
    else
      let r := laneRel t rel a b
      (r.1 :: x.1, Flags.or r.2 x.2)
  | _, [], _ => ([], {})
  | _, _ :: _, [] => ([], {})

def execVcmp (g : BitVec 3) (x : BitVec 1) (h : BitVec 3) (m : BitVec 4) (t : BitVec 4) (s : State) : Res :=
  vectorGate (wordVcmp g x h m t) [] [h, g] [12, 13] (fun s =>
    let u := s.cur
    let w := laneWidth t.toNat
    let r := compareLanes (elemOf t.toNat) m.toNat (x = 1) u.mask 0 (u.lanes w h.toNat) (u.lanes w g.toNat)
    let v := bitsNat r.1
    let fresh := u.vecFresh [g.toNat, h.toNat] (x = 1)
    done ((s.updCur fun u => (u.setReg 12 (BitVec.ofNat 64 v) fresh).setReg 13 (BitVec.ofNat 64 (v / 2 ^ 64)) fresh).addVxf r.2 false)) s

/-- Lanes of one list where a mask bit is 1, else of the other, from lane i on. -/
def selectLanes (mask : Nat) : Nat → List Nat → List Nat → List Nat
  | i, a :: as, b :: bs => (if mask.testBit i then a else b) :: selectLanes mask (i + 1) as bs
  | _, [], _ => []
  | _, _ :: _, [] => []

def execVsel (g h k : BitVec 3) (t : BitVec 4) (s : State) : Res :=
  vectorGate (wordVsel g h k t) [] [k, h, g] [12, 13] (fun s =>
    let u := s.cur
    let w := laneWidth t.toNat
    done (s.setLanes k.toNat w (selectLanes u.mask 0 (u.lanes w h.toNat) (u.lanes w g.toNat)) (u.vecFresh [g.toNat, h.toNat] true))) s

/-! Reduce (R122). -/

/-- One level of the pairwise tree. -/
def pairUp (f : Fmt) (rm : Rm) (sat : Bool) : List Nat → List Nat × Flags
  | a :: b :: r =>
    let e := Val.add rm (Fmt.decode f a) (Fmt.decode f b)
    let c := roundFlt f e.1 false rm sat
    let x := pairUp f rm sat r
    (c.1 :: x.1, Flags.or e.2 (Flags.or c.2 x.2))
  | [a] => ([a], {})
  | [] => ([], {})

def sumTree (f : Fmt) (rm : Rm) (sat : Bool) : Nat → List Nat → LaneRes
  | 0, l => (l.headD 0, {})
  | n + 1, l =>
    let x := pairUp f rm sat l
    let y := sumTree f rm sat n x.1
    (y.1, Flags.or x.2 y.2)

/-- The reduction of all lanes: 0 SUM, 1 MIN, 2 MAX. -/
def reduce (t : Elem) (op : Nat) (sat : Bool) (rm : Rm) (l : List Nat) : LaneRes :=
  if op = 0 then
    match t with
    | .flt f => sumTree f rm sat (Nat.log2 l.length) l
    | .int _ _ | .m8 => narrow t (l.foldl (fun n a => n + Elem.intOf t a) 0) sat
  else
    match l with
    | a :: r => r.foldl (fun acc b => laneMinMax (op = 2) t acc.1 b) (laneMinMax (op = 2) t a a)
    | [] => (0, {})

def execVred (y : BitVec 1) (r : BitVec 2) (h : BitVec 3) (m : BitVec 4) (k : BitVec 3) (t : BitVec 4) (s : State) : Res :=
  vectorGate (wordVred y r h m k t) [] [k, h] [] (fun s =>
    let u := s.cur
    let w := laneWidth t.toNat
    let x := reduce (elemOf t.toNat) m.toNat (y = 1) (rmOf r.toNat) (u.lanes w h.toNat)
    done ((s.setLanes k.toNat w [x.1] (u.vecFresh [h.toNat] false)).addVxf x.2 false)) s

/-! The unary group (R123). -/

/-- A unary instruction. -/
def unaryLanes (w : InstrWord) (h k : BitVec 3) (t : BitVec 4) (f : Nat → LaneRes) (s : State) : Res :=
  vectorGate w [] [k, h] [] (fun s =>
    let u := s.cur
    let lw := laneWidth t.toNat
    let rs := (u.lanes lw h.toNat).map f
    done ((s.setLanes k.toNat lw (rs.map (·.1)) (u.vecFresh [h.toNat] false)).addVxf (rs.foldl (fun x r => Flags.or x r.2) {}) false)) s

def Val.abs : Val → Val
  | .nan => .nan
  | .inf _ => .inf false
  | .fin _ m e => .fin false m e

def laneAbs (t : Elem) (a : Nat) : LaneRes :=
  match t with
  | .flt f => (Fmt.encode f (Val.abs (Fmt.decode f a)), {})
  | .int _ _ | .m8 => (Elem.encodeInt t (Elem.intOf t a).natAbs, {})

def laneNeg (t : Elem) (a : Nat) : LaneRes :=
  match t with
  | .flt f => (Fmt.encode f (Val.neg (Fmt.decode f a)), {})
  | .int _ _ | .m8 => (Elem.encodeInt t (-(Elem.intOf t a)), {})

/-- A correctly rounded function of a float lane, with RNE and no saturation. -/
def laneFun (g : Val → Exact) (t : Elem) (a : Nat) : LaneRes :=
  match t with
  | .flt f =>
    let e := g (Fmt.decode f a)
    let r := roundFlt f e.1 e.2.1 .rne false
    (r.1, Flags.or e.2.2 r.2)
  | .int _ _ | .m8 => (0, {})

/-- 1 as a value. -/
def one : Val := .fin false 1 0

def execVabs (h k : BitVec 3) (t : BitVec 4) (s : State) : Res := unaryLanes (wordVabs h k t) h k t (laneAbs (elemOf t.toNat)) s
def execVneg (h k : BitVec 3) (t : BitVec 4) (s : State) : Res := unaryLanes (wordVneg h k t) h k t (laneNeg (elemOf t.toNat)) s
def execVrcp (h k : BitVec 3) (t : BitVec 4) (s : State) : Res :=
  unaryLanes (wordVrcp h k t) h k t (laneFun (fun v => Val.div one v) (elemOf t.toNat)) s
def execVrsq (h k : BitVec 3) (t : BitVec 4) (s : State) : Res :=
  unaryLanes (wordVrsq h k t) h k t (laneFun Val.rsqrt (elemOf t.toNat)) s
def execVexp2 (h k : BitVec 3) (t : BitVec 4) (s : State) : Res :=
  unaryLanes (wordVexp2 h k t) h k t (laneFun Val.exp2 (elemOf t.toNat)) s
def execVlog2 (h k : BitVec 3) (t : BitVec 4) (s : State) : Res :=
  unaryLanes (wordVlog2 h k t) h k t (laneFun Val.log2 (elemOf t.toNat)) s

def execVbcast (h k : BitVec 3) (t : BitVec 4) (s : State) : Res :=
  vectorGate (wordVbcast h k t) [] [k, h] [] (fun s =>
    let u := s.cur
    let w := laneWidth t.toNat
    done (s.setLanes k.toNat w (broadcastFirst (u.lanes w h.toNat)) (u.vecFresh [h.toNat] false))) s

/-- Σ a² over all lanes as an exact value: a NaN lane gives NaN and invalid, an infinite one +∞. -/
def squaredNorm (t : Elem) (l : List Nat) : Exact :=
  let vs := l.map (Elem.decode t)
  if vs.any Val.isNan then (.nan, false, { nv := true })
  else if vs.any (fun v => match v with | .inf _ => true | .nan => false | .fin _ _ _ => false) then (.inf false, false, {})
  else (Dyadic.val (vs.foldl (fun acc v => Dyadic.add acc (Dyadic.mul (Val.dyadic v) (Val.dyadic v))) ⟨0, 0⟩), false, {})

/-- VSQN: bits 31:0 of vd ← RNE_fp32 of the squared norm, every other bit ← 0. -/
def execVsqn (h k : BitVec 3) (t : BitVec 4) (s : State) : Res :=
  vectorGate (wordVsqn h k t) [] [k, h] [] (fun s =>
    let u := s.cur
    let e := squaredNorm (elemOf t.toNat) (u.lanes (laneWidth t.toNat) h.toNat)
    let r := roundFlt .fp32 e.1 false .rne false
    done ((s.setLanes k.toNat 32 [r.1] (u.vecFresh [h.toNat] false)).addVxf (Flags.or e.2.2 r.2) false)) s

end Sys2Proof.Machine
end

