-- ==== Sys2Proof/Machine/Convert.lean ====
section
/-! DEFINITION. Vector conversions, unpacking, dot products, permutes (spec/05 R124 to R133), with the seed slots and the decode
table as a thread sees them (spec/16 R358, R359). -/

namespace Sys2Proof.Machine

/-! Writes that other threads see later (spec/08 R180, spec/16 R358, R359). -/

/-- The last of a list of delayed writes to an index, by a writer that a condition picks. -/
def ownWrite {α : Type} (l : List (Delayed α)) (own : Nat → Bool) (index : Nat) : Option α :=
  match (l.filter fun d => (d.writer.map own).getD false && d.index = index).getLast? with
  | some d => some d.value
  | none => none

/-- The writer of a delayed write: a thread, and the dispatch of an instance (spec/07 R150). -/
def threadWriter (id : Nat) : Nat := 2 * id
def dispatchWriter (inst : Nat) : Nat := 2 * inst + 1

/-- A thread's own writes, and those of its instance's dispatch. -/
def Core.owns (k : Core) (sl w : Nat) : Bool :=
  w = threadWriter (tabGet {} k.slots sl).id || w = dispatchWriter (tabGet {} k.slots sl).inst

/-- A seed slot as a thread's slot sees it. -/
def Core.seedSeen (k : Core) (sl n : Nat) : Seed := (ownWrite k.seedWrites (k.owns sl) n).getD (tabGet {} k.seeds n)

/-- The decode table as a thread's slot sees it. -/
def Core.fmtSeen (k : Core) (sl : Nat) : Option DecodeTable := (ownWrite k.fmtWrites (k.owns sl) 0).getD k.fmt

/-- A seed slot as its last write leaves it. -/
def Core.seedLast (k : Core) (n : Nat) : Seed := (ownWrite k.seedWrites (fun _ => true) n).getD (tabGet {} k.seeds n)

/-- A write of a seed slot by a writer: its generation advances (spec/16 R357). -/
def Core.setSeed (k : Core) (writer n : Nat) (v : Word) : Core :=
  { k with seedWrites := k.seedWrites ++ [⟨k.cyc, some writer, n, ⟨v, (k.seedLast n).gen + 1⟩⟩] }

/-! Conversions (R125, R128). -/

/-- A type whose values are integers. -/
def Elem.isInt : Elem → Bool
  | .int _ _ => true
  | .m8 => true
  | .flt _ => false

/-- One lane from a type to another: integers narrow, everything else rounds once; an infinity with S = 1 is clipped even to its own
type (DESIGN CHOICE, log 64). -/
def laneConvert (src dst : Elem) (sat : Bool) (rm : Rm) (c : Nat) : LaneRes :=
  if Elem.isInt src && Elem.isInt dst then narrow dst (Elem.intOf src c) sat
  else roundElem dst (Elem.decode src c) false rm sat

/-- Lanes with the number of each. -/
def indexed : Nat → List Nat → List (Nat × Nat)
  | _, [] => []
  | i, a :: r => (i, a) :: indexed (i + 1) r

/-- Writes results into the low lanes of group k under the mask. -/
def State.putLanes (s : State) (k w : Nat) (m : Bool) (rs : List LaneRes) (sources : List Nat) (t : Bool) : State :=
  let u := s.cur
  let r := merge (u.enabled m) 0 rs (u.lanes w k)
  (s.setLanes k w r.1 (u.vecFresh (k :: sources) m)).addVxf r.2 t

def execVcvt (n : BitVec 4) (h : BitVec 3) (m : BitVec 4) (k : BitVec 3) (t : BitVec 4) (s : State) : Res :=
  let x := modsOf n
  vectorGate (wordVcvt n h m k t) [] [k, h] (maskRegs x.m) (fun s =>
    let u := s.cur
    let en := u.vsrc.getLsbD 36
    let slot := ((s.core s.ic).seedSeen s.is (fld u.vsrc.toNat 35 32)).value
    let row := fld u.vsrc.toNat 15 0
    let rm := fun i => if en then Rm.sr (srU slot row i (fld u.vsrc.toNat 31 16)) else rmOf x.rm
    let count := min (1024 / laneWidth m.toNat) (1024 / laneWidth t.toNat)
    let rs := ((indexed 0 (u.lanes (laneWidth m.toNat) h.toNat)).take count).map fun p =>
      laneConvert (elemOf m.toNat) (elemOf t.toNat) x.s (rm p.1) p.2
    let s := s.putLanes k.toNat (laneWidth t.toNat) x.m rs [h.toNat] false
    done (s.updCur fun u => if en then { u with vsrc := (u.vsrc.extractLsb' 16 21 ++ (u.vsrc.extractLsb' 0 16 + 1#16)) } else u)) s

/-! The decode table (R126, R127). -/

def execVdec (n : BitVec 4) (h : BitVec 3) (m : BitVec 4) (k : BitVec 3) (t : BitVec 4) (s : State) : Res :=
  let x := modsOf n
  vectorGate (wordVdec n h m k t) [] [k, h] (maskRegs x.m) (fun s =>
    match (s.core s.ic).fmtSeen s.is with
    | none => trap 9 0 s
    | some tb =>
      let w := laneWidth t.toNat
      let bytes := ((s.cur.lanes 8 h.toNat).drop (1024 / w * m.toNat)).take (1024 / w)
      let dst := elemOf t.toNat
      let sat := x.s && dst != .flt .fp32
      done (s.putLanes k.toNat w x.m (bytes.map fun c => roundElem dst (tableVal tb c) false (rmOf x.rm) sat) [h.toNat] false)) s

def execVenc (x : BitVec 1) (h : BitVec 3) (m : BitVec 4) (k : BitVec 3) (s : State) : Res :=
  vectorGate (wordVenc x h m k) [] [k, h] (maskRegs (x = 1)) (fun s =>
    match (s.core s.ic).fmtSeen s.is with
    | none => trap 9 0 s
    | some tb =>
      let l := s.cur.lanes (laneWidth m.toNat) h.toNat
      done (s.putLanes k.toNat 8 (x = 1) (l.map fun c => encodeD8 tb (Elem.decode (elemOf m.toNat) c)) [h.toNat] false)) s

/-! MX block scales (R129). -/

/-- The lanes of elements under the scales of their blocks of 32. -/
def scaleLanes (src dst : Elem) (sat : Bool) (rm : Rm) (scales : List Nat) (l : List Nat) : List LaneRes :=
  (indexed 0 l).map fun p => roundElem dst (mxScale (scales.getD (p.1 / 32) 0) (toF19 src p.2)) false rm sat

def execVmxs (g : BitVec 3) (n : BitVec 4) (h : BitVec 3) (m : BitVec 4) (k : BitVec 3) (t : BitVec 4) (s : State) : Res :=
  let x := modsOf n
  vectorGate (wordVmxs g n h m k t) [] [k, h, g] (maskRegs x.m) (fun s =>
    let u := s.cur
    let w := laneWidth t.toNat
    let rs := scaleLanes (elemOf m.toNat) (elemOf t.toNat) x.s (rmOf x.rm) (u.lanes 8 g.toNat) ((u.lanes 8 h.toNat).take (1024 / w))
    done (s.putLanes k.toNat w x.m rs [h.toNat, g.toNat] false)) s

/-! Ternary bytes (R130). -/

/-- A weight as a lane of a type. -/
def weightLane (t : Elem) (v : Int) : LaneRes := (roundElem t (Val.ofInt v) false .rne false).1 |> fun c => (c, {})

/-- The weights of a byte; an illegal one gives five zeros. -/
def weights (b : Nat) : List Int := if 243 ≤ b then [0, 0, 0, 0, 0] else unpack3 b

def execVunpk3 (x : BitVec 1) (h : BitVec 3) (m : BitVec 4) (k : BitVec 3) (t : BitVec 4) (s : State) : Res :=
  vectorGate (wordVunpk3 x h m k t) [] [k, h] (maskRegs (x = 1)) (fun s =>
    let u := s.cur
    let w := laneWidth t.toNat
    let count := 1024 / w
    let first := 8 * m.toNat
    let bytes := (span first ((count + 4) / 5)).map fun j => (j, if j ≤ 127 then (u.lanes 8 h.toNat).getD j 0 else 121)
    let bad := bytes.find? fun p => 243 ≤ p.2
    match bad, u.trapen with
    | some p, true => trap 9 (BitVec.ofNat 64 p.1) s
    | _, _ =>
      let ws := ((bytes.map fun p => weights p.2).flatten.take count).map (weightLane (elemOf t.toNat))
      done (s.putLanes k.toNat w (x = 1) ws [h.toNat] bad.isSome)) s

/-! Add-subtract and dot products (R131, R132). -/

/-- The sign of a weight, none for a NaN. -/
def weightSign (v : Val) : Option Int :=
  match v with
  | .nan => none
  | .inf s => some (if s then -1 else 1)
  | .fin s m _ => some (if m = 0 then 0 else if s then -1 else 1)

/-- One lane of VADDSUB: c the old lane, x the source, s the weight. -/
def laneAddsub (src dst : Elem) (sat : Bool) (rm : Rm) (x wt c : Nat) : LaneRes :=
  match dst with
  | .flt f =>
    match weightSign (Elem.decode src wt) with
    | none => (Fmt.nan f, { nv := true })
    | some g =>
      let cv := Fmt.decode f c
      let xv := Elem.decode src x
      let e := if g = 0 then (cv, {}) else Val.add rm cv (if 0 < g then xv else Val.neg xv)
      let r := roundFlt f e.1 false rm sat
      (r.1, Flags.or e.2 r.2)
  | .int _ _ | .m8 => narrow dst (Elem.intOf dst c + (Elem.intOf src wt).sign * Elem.intOf src x) sat

def execVaddsub (g : BitVec 3) (n : BitVec 4) (h : BitVec 3) (m : BitVec 4) (k : BitVec 3) (t : BitVec 4) (s : State) : Res :=
  let x := modsOf n
  vectorGate (wordVaddsub g n h m k t) [] [k, h, g] (maskRegs x.m) (fun s =>
    let u := s.cur
    let w := laneWidth t.toNat
    let rs := zip3 (laneAddsub (elemOf m.toNat) (elemOf t.toNat) x.s (rmOf x.rm)) (u.lanes (laneWidth m.toNat) h.toNat)
      (u.lanes (laneWidth m.toNat) g.toNat) (u.lanes w k.toNat)
    done (s.putLanes k.toNat w x.m rs [h.toNat, g.toNat] false)) s

/-- Groups of n elements. -/
def chunks (n : Nat) : Nat → List Nat → List (List Nat)
  | 0, _ => []
  | k + 1, l => l.take n :: chunks n k (l.drop n)

/-- c + Σ a × b, exact: ∞ × 0 is invalid, and ∞ − ∞ is. -/
def dotVal (f : Fmt) (rm : Rm) (c : Val) : List Nat → List Nat → Val × Flags
  | a :: as, b :: bs =>
    let p := Val.mul (Fmt.decode f a) (Fmt.decode f b)
    let e := Val.add rm c p.1
    let r := dotVal f rm e.1 as bs
    (r.1, Flags.or p.2 (Flags.or e.2 r.2))
  | [], _ => (c, {})
  | _ :: _, [] => (c, {})

/-- One lane of VDOT: infinities of both signs report NV only where no operand is NaN (DESIGN CHOICE, log 64). -/
def laneDot (src : Elem) (sat : Bool) (rm : Rm) (as bs : List Nat) (c : Nat) : LaneRes :=
  match src with
  | .flt f =>
    let e := dotVal f rm (Fmt.decode .fp32 c) as bs
    let nan := Val.isNan (Fmt.decode .fp32 c) || (as ++ bs).any fun a => Val.isNan (Fmt.decode f a)
    let zeroInf := ((as.zip bs).map fun p => (Val.mul (Fmt.decode f p.1) (Fmt.decode f p.2)).2).any (·.nv)
    let r := roundFlt .fp32 e.1 false rm sat
    (r.1, Flags.or r.2 { nv := zeroInf || (e.2.nv && !nan) })
  | .int _ _ | .m8 =>
    narrow (.int 32 true) (((as.zip bs).map fun p => Elem.intOf src p.1 * Elem.intOf src p.2).foldl (· + ·) (signed 32 c)) sat

/-- The dot products of groups of elements, lane by lane. -/
def dotLanes (src : Elem) (sat : Bool) (rm : Rm) : List (List Nat) → List (List Nat) → List Nat → List LaneRes
  | as :: r, bs :: q, c :: cs => laneDot src sat rm as bs c :: dotLanes src sat rm r q cs
  | [], _, _ => []
  | _ :: _, [], _ => []
  | _ :: _, _ :: _, [] => []

def execVdot (g : BitVec 3) (n : BitVec 4) (h : BitVec 3) (m : BitVec 4) (k : BitVec 3) (t : BitVec 4) (s : State) : Res :=
  let x := modsOf n
  vectorGate (wordVdot g n h m k t) [] [k, h, g] (maskRegs x.m) (fun s =>
    let u := s.cur
    let ws := laneWidth m.toNat
    let rs := dotLanes (elemOf m.toNat) x.s (rmOf x.rm) (chunks (32 / ws) 32 (u.lanes ws h.toNat)) (chunks (32 / ws) 32 (u.lanes ws g.toNat))
      (u.lanes 32 k.toNat)
    done (s.putLanes k.toNat 32 x.m rs [h.toNat, g.toNat] false)) s

/-! Permute and slide (R133). -/

def execVperm (g : BitVec 3) (x : BitVec 1) (h k : BitVec 3) (t : BitVec 4) (s : State) : Res :=
  vectorGate (wordVperm g x h k t) [] [k, h, g] (maskRegs (x = 1)) (fun s =>
    let u := s.cur
    let w := laneWidth t.toNat
    let src := u.lanes w h.toNat
    let rs := (u.lanes w g.toNat).map fun i => (src.getD (i % (1024 / w)) 0, ({} : Flags))
    done (s.putLanes k.toNat w (x = 1) rs [h.toNat, g.toNat] false)) s

def execVslide (g : BitVec 3) (x : BitVec 1) (h k : BitVec 3) (t : BitVec 4) (s : State) : Res :=
  vectorGate (wordVslide g x h k t) [] [k, h, g] (maskRegs (x = 1) ++ [14]) (fun s =>
    let u := s.cur
    let w := laneWidth t.toNat
    let d := (u.reg 14).toInt
    let both := u.lanes w h.toNat ++ u.lanes w g.toNat
    let rs := (span 0 (1024 / w)).map fun (i : Nat) =>
      let j := (i : Int) + d
      (if j < 0 then 0 else both.getD j.toNat 0, ({} : Flags))
    let s := s.putLanes k.toNat w (x = 1) rs [h.toNat, g.toNat] false
    done (if u.isFresh 14 then s.updCur fun v => { v with fresh := v.fresh ||| (0xFFFF#128 <<< (16 * k.toNat)) } else s)) s

end Sys2Proof.Machine
end

