-- ==== Sys2Proof/Machine/Ord.lean ====
section
/-! DEFINITION. Ordered access and cache control (spec/12 R259 to R266). -/

namespace Sys2Proof.Machine

/-- A scope of a cluster or wider (spec/00 R8). -/
def wideScope (sc : BitVec 3) : Bool := 2 ≤ sc.toNat

/-- The issuing thread's REDs are performed before it goes on (spec/12 R271). -/
def afterReds (k : State → Res) (s : State) : Res := if s.cur.reds != [] then park .reds s else k s

/-- LDA (R261): at a scope of a cluster or wider a heavy thread's is served at the home and the core applies S; otherwise it is
a plain load. -/
def acquireLoad (size : Nat) (sgn : Bool) (sc : BitVec 3) (a d : BitVec 7) (s : State) : Res :=
  limit [a, d] (fun s =>
    let x := s.cur.opnd a
    let va := s.dataAddr x.val
    if wideScope sc && !s.cur.light then
      access { r := true } size va (fun t s => parkAccess (.load t size sgn d.toNat true true) s) s
    else load size sgn d va (s.freshAddr x) s) s

def execLdaD (sc : BitVec 3) (a d : BitVec 7) (s : State) : Res := acquireLoad 8 false sc a d s
def execLdaW (sc : BitVec 3) (a d : BitVec 7) (s : State) : Res := acquireLoad 4 true sc a d s

/-- STL (R262): at a scope of a cluster or wider a heavy thread performs R245 and parks until the home replies. -/
def releaseStore (size : Nat) (b a : BitVec 7) (sc : BitVec 3) (s : State) : Res :=
  limit [a, b] (fun s =>
    let x := s.cur.opnd a
    let y := s.cur.opnd b
    let va := s.dataAddr x.val
    access { w := true } size va (fun t s =>
      atHome t (fun s =>
        if s.cur.light then afterReds (parkAccess (.store t size y.val true (some 0))) s
        else if wideScope sc then
          released (fun s => parkAccess (.store t size y.val true (some (s.core s.ic).carried)) s) s
        else afterReds (store size b va (s.freshAddr x)) s) s) s) s

def execStlD (b a : BitVec 7) (sc : BitVec 3) (s : State) : Res := releaseStore 8 b a sc s
def execStlW (b a : BitVec 7) (sc : BitVec 3) (s : State) : Res := releaseStore 4 b a sc s

/-- Later loads of the issuing thread take no value from a cache that is older than this (DEDUCED, log 67). -/
def State.seesAll (s : State) : State :=
  let n := s.serial + 1
  { s with serial := n }.updCur fun t => { t with seen := n }

/-- FENCE (R263, spec/11 R249, spec/08 R173; in part DEDUCED, log 67): k holds E, PR, PW, SR, SW in bits 4 to 0. -/
def execFence (k : BitVec 5) (sc : BitVec 3) (s : State) : Res :=
  let e := k.getLsbD 4
  let pr := k.getLsbD 3
  let pw := k.getLsbD 2
  let sr := k.getLsbD 1
  let sw := k.getLsbD 0
  let wide := wideScope sc && !s.cur.light
  let writes := wide && pw && (sr || sw || e)
  let reads := wide && pr && sr
  if (writes || reads) && s.dirtyPinned s.ic then park (.room .pin) s
  else
    let s := if writes then s.writeBackAll s.ic else s
    if pw && s.cur.reds != [] then park .reds s
    else
      let s := if writes && sw then s.releaseCore s.ic else s
      let s := if wide && sr && (pw || e) then s.seesAll else s
      done (if reads then s.applySig s.ic allOnes512 else s)

/-- CFLUSH and CINV (R264): the translation's faults are a load's; only a line of a cached page in the core's cache is
acted on. -/
def lineOp (invalidate : Bool) (a : BitVec 7) (s : State) : Res :=
  limit [a] (fun s =>
    let va := s.dataAddr (s.cur.opnd a).val
    if s.cur.light || !s.ownSpace va.space || s.region va = .window then done s
    else
      access { r := true } 1 va (fun t s =>
        match t.place with
        | .home pa =>
          if t.attr != 0 then done s
          else
            match (s.core s.ic).line (pa / 128) with
            | none => done s
            | some l =>
              if l.dirty = 0 then done (if invalidate then s.evictLine s.ic (pa / 128) else s)
              else if s.pinned t.place then park (.room .pin) s
              else parkAccess (.done false) (if invalidate then s.evictLine s.ic (pa / 128) else s.writeBackLine s.ic (pa / 128))
        | .window _ _ | .mx _ _ _ | .remote _ _ => done s) s) s

def execCflush (a : BitVec 7) (s : State) : Res := lineOp false a s
def execCinv (a : BitVec 7) (s : State) : Res := lineOp true a s

/-- PREF (R265): it never faults and never parks. -/
def execPref (a : BitVec 7) (s : State) : Res :=
  limit [a] (fun s =>
    let va := s.dataAddr (s.cur.opnd a).val
    if s.cur.light || !s.ownSpace va.space then done s
    else
      match s.xlate s.ic s.is { r := true } va with
      | .ok t =>
        (match t.place with
          | .home pa => done (if t.attr = 0 && s.cacheable s.ic t && !s.fillHeld s.ic pa then s.fill s.ic pa true else s)
          | .window _ _ | .mx _ _ _ | .remote _ _ => done s)
      | .miss | .window | .access | .page | .hole => done s) s

/-- The eight doublewords of a signature, bits 63:0 first. -/
def sigWords (g : BitVec 512) : List Word := (span 0 8).map fun i => g.extractLsb' (64 * i) 64

/-- SIGRD (R266): 0 SIGW, 1 SIGH.CUR, 2 SIGH.PREV. -/
def execSigrd (e : BitVec 2) (d : BitVec 7) (s : State) : Res :=
  if s.cur.light then illegal (wordSigrd e d) s
  else
    limitNumbers (span d.toNat 8) (fun s =>
      let k := s.core s.ic
      let g := if e = 0 then k.sigw else if e = 1 then k.sighCur else k.sighPrev
      done (s.updCur fun t => t.setRegs d.toNat false (sigWords g))) s

end Sys2Proof.Machine
end

