-- ==== Sys2Proof/Machine/Tasks.lean ====
section
/-! DEFINITION. Task packets (spec/07 R146), the pending-launch store (R155, R156), the task queue (R158), the start of a
thread (spec/01 R30) and its end (spec/09 R194). -/

namespace Sys2Proof.Machine

/-! Packet fields (R146). -/

abbrev Packet := BitVec 512

def pktQcwp (p : Packet) : Nat := fld p.toNat 511 448
def pktSucc (p : Packet) (i : Nat) : Nat := fld p.toNat (32 * i + 415) (32 * i + 384)
def pktInitc (p : Packet) : Nat := fld p.toNat 367 352
def pktNosteal (p : Packet) : Bool := p.getLsbD 350
def pktPrio (p : Packet) : Nat := fld p.toNat 349 348
def pktOper (p : Packet) : Nat := fld p.toNat 347 342
def pktScr (p : Packet) : Nat := fld p.toNat 341 336
def pktCache (p : Packet) : Nat := fld p.toNat 335 330
def pktRegs (p : Packet) : Nat := fld p.toNat 329 326
def pktThreads (p : Packet) : Nat := fld p.toNat 325 320
def pktArg1 (p : Packet) : Word := p.extractLsb' 256 64
def pktArg0 (p : Packet) : Word := p.extractLsb' 192 64
def pktSclp (p : Packet) : Word := p.extractLsb' 128 64
def pktFmtp (p : Packet) : Word := p.extractLsb' 64 64
def pktEntry (p : Packet) : Word := p.extractLsb' 0 64

/-- A successor handle is absent, or names a cluster with no reserved bit (R146). -/
def succOk (h : Nat) : Bool := fld h 31 31 = 0 || fld h 30 23 = 0

/-- A packet is accepted (R146). A cluster field has seven bits, so it names a cluster below 128. -/
def packetOk (p : Packet) : Bool :=
  1 ≤ pktThreads p && pktThreads p ≤ 60 && 1 ≤ pktRegs p && pktCache p + pktScr p + pktOper p ≤ 32 &&
  (pktEntry p).toNat % 4 = 0 && (pktFmtp p).toNat % 4 = 0 && pktQcwp p % 64 = 0 &&
  succOk (pktSucc p 0) && succOk (pktSucc p 1) && fld p.toNat 383 368 = 0 && !p.getLsbD 351 &&
  pktThreads p * pktRegs p ≤ 244

/-! The task queue (R158, R198). -/

def queueSize : Nat := 1024

/-- Packets of a level. -/
def Cluster.level (k : Cluster) (l : Nat) : List QueuedPacket := tabGet [] k.queue l

/-- Packets in the queue. -/
def Cluster.queued (k : Cluster) : Nat := (k.level 0).length + (k.level 1).length + (k.level 2).length + (k.level 3).length

/-- Places a packet at the tail of its level; a thief's wait ends (R160). -/
def State.enqueue (s : State) (k : Nat) (p : Packet) (sig : BitVec 512) (host : Bool) : State :=
  s.updCluster k fun c =>
    { c with
      queue := tabPut c.queue (pktPrio p) (c.level (pktPrio p) ++ [⟨p, sig, c.wheels, host⟩])
      stealWait := none }

/-- The highest level that holds a packet. -/
def Cluster.topLevel (k : Cluster) : Option Nat := (span 0 4).find? fun l => k.level l != []

/-- Removes the head of a level. -/
def Cluster.dropHead (k : Cluster) (l : Nat) : Cluster := { k with queue := tabPut k.queue l ((k.level l).drop 1) }

/-! The pending-launch store (R155, R156). -/

def storeSize : Nat := 256

/-- The lowest free entry (in part DESIGN CHOICE, log 21). -/
def Cluster.freeEntry (k : Cluster) : Option Nat := (span 0 storeSize).find? fun e => !(tabGet {} k.store e).full

/-- Entries whose counter is 0, and packets of the submission ring, may move now that the queue has room. -/
def State.queueRoomMade (s : State) (k : Nat) : State :=
  let s := if s.hub.committed && s.hub.sqhead != s.hub.sqtail then s.emitOnce (.sqtailWrite s.hub.sqtail k) else s
  (s.cluster k).store.foldl (fun s e => if e.2.full && e.2.counter = 0 then s.emitOnce (.pendingLaunchMove k e.1) else s) s

/-- A handle (R156). -/
def handleOf (gen : BitVec 8) (k e : Nat) : Nat := 2 ^ 31 + gen.toNat * 2 ^ 15 + k % 128 * 2 ^ 8 + e % 256

def handleCluster (h : Nat) : Nat := fld h 14 8
def handleEntry (h : Nat) : Nat := fld h 7 0

/-- Fills an entry: its generation advances (in part DESIGN CHOICE, log 21). -/
def State.fillEntry (s : State) (k e : Nat) (p : Packet) (sig : BitVec 512) : Nat × State :=
  let gen := (tabGet {} (s.cluster k).store e).gen + 1
  let s := s.updCluster k fun c => { c with store := tabPut c.store e ⟨true, gen, p, pktInitc p, sig⟩ }
  (handleOf gen k e, if pktInitc p = 0 then s.emitOnce (.pendingLaunchMove k e) else s)

/-- The entry that a handle names, unless it is stale. -/
def State.liveEntry (s : State) (h : Nat) : Option LaunchEntry :=
  let x := tabGet {} (s.cluster (handleCluster h)).store (handleEntry h)
  if fld h 31 31 = 1 && x.full && x.gen.toNat = fld h 22 15 && x.counter != 0 then some x else none

def State.putEntry (s : State) (h : Nat) (x : LaunchEntry) : State :=
  s.updCluster (handleCluster h) fun c => { c with store := tabPut c.store (handleEntry h) x }

/-- One decrement (R156, R200): its status, and the state. -/
def State.decrement (s : State) (h : Nat) (sig : BitVec 512) : Nat × State :=
  if fld h 31 31 = 1 && fld h 30 23 != 0 then (4, s)
  else
    match s.liveEntry h with
    | none => (3, s)
    | some x =>
      let s := s.putEntry h { x with counter := x.counter - 1, signature := x.signature ||| sig }
      if x.counter = 1 then (7, s.emitOnce (.pendingLaunchMove (handleCluster h) (handleEntry h))) else (0, s)

/-- DEP.SET at the entry (R199): reserved bits first, then a stale handle, then the count (DESIGN CHOICE, log 22). -/
def State.addCount (s : State) (h k : Nat) (sig : BitVec 512) : Nat × State :=
  if fld h 30 23 != 0 then (4, s)
  else
    match s.liveEntry h with
    | none => (3, s)
    | some x =>
      if 65536 ≤ k || 65535 < x.counter + k then (4, s)
      else (0, s.putEntry h { x with counter := x.counter + k, signature := x.signature ||| sig })

/-- PENDING_LAUNCH_MOVE: an entry whose counter is 0 moves its packet once the queue has room, and is free; a LAUNCH.W that
waits issues again. -/
def execPendingLaunchMove (cluster entry : Nat) (s : State) : Res :=
  let k := s.cluster cluster
  let x := tabGet {} k.store entry
  if x.full && x.counter = 0 && k.queued < queueSize then
    let s := s.updCluster cluster fun c => { c with store := tabPut c.store entry { x with full := false } }
    let s := s.enqueue cluster x.packet x.signature false
    .next ((span (8 * cluster) 8).foldl (fun s c => s.wakeIf c (isRoom (.entry cluster))) s)
  else .next s

/-- DEPENDENCY_DECREMENT: one decrement at the entry of a handle. Its signature has travelled ahead of it. -/
def execDependencyDecrement (handle : BitVec 32) (s : State) : Res := .next (s.decrement handle.toNat 0).2

/-! Threads (spec/01 R30, spec/18 R367). -/

/-- A thread of an instance as it starts, heavy. -/
def State.freshThread (s : State) (c inst : Nat) (fmtp sclp : Word) (entry : Word) (alloc block ready : Nat) : Thread :=
  { st := .ready ready false, inst := inst, alloc := alloc, block := block, pc := entry, fmtp := fmtp, sclp := sclp
    tvec := (s.core c).tvecd }

/-- A thread starts in a slot: it has a name of its own, and reads nothing older than its start (spec/09 R193 R201). -/
def State.startThread (s : State) (c sl : Nat) (t : Thread) : State :=
  { s with serial := s.serial + 1 }.putThread c sl { t with id := s.serial + 1, seen := s.serial + 1 }

/-- A pair whose swap waits may go on (spec/18 R382). -/
def State.pairMoved (s : State) (c : Nat) : State :=
  match (s.pair (pairOf c)).phase with
  | .waiting _ => s.emitOnce (.swapPrepare (pairOf c))
  | .idle => s
  | .preparing _ => s
  | .exchanged => s

/-- A thread ends (R194): its slot and blocks are free, its mailbox messages are discarded, and its monitors and its hold are
gone. The end of another device's migrant is told to that device (spec/22 R406). -/
def State.endThread (s : State) (c sl : Nat) : State :=
  let inst := (s.thread c sl).inst
  let device := (s.thread c sl).device
  let s := (s.freeThread c sl).updCore c fun k => { k with mailbox := k.mailbox.filter fun m => !m.isFor inst sl }
  let s := State.serveQueue c 17 (s.mailRoom c)
  (if device = 0 then s.settleInst inst else s.record (.migrantGone device inst)).pairMoved c

/-- Reads n bytes that an instruction names, as a load of the issuing thread, and traps on poison. -/
def peekOr (n : Nat) (bypass : Bool) (t : Target) (k : List Byte → State → Res) (s : State) : Res :=
  if s.cur.redOverlap t.place n then park .reds s
  else if s.readHeld s.ic s.is bypass t n then park (.room .pin) s
  else
    let r := s.readFor s.ic s.is bypass t n
    match r.2.1 with
    | some i => trapAt 12 (VAddr.plus t.va i) s
    | none => k r.1 r.2.2

/-- Only a heavy thread may issue the word. -/
def heavyOnly (w : InstrWord) (k : State → Res) (s : State) : Res := if s.cur.light then illegal w s else k s

end Sys2Proof.Machine
end

