-- ==== Sys2Proof/Machine/ThreadOps.lean ====
section
/-! DEFINITION. The THREAD instructions (spec/09 R187 to R205). -/

namespace Sys2Proof.Machine

/-! Creating and ending threads. -/

/-- The registers from lo to hi that a child of an allocation holds, as its parent holds them. -/
def inherited (t : Thread) (lo n alloc : Nat) : List Word := ((span lo n).filter fun r => r < alloc).map t.reg

/-- A status in rd, and on. -/
def status (d : BitVec 7) (v : Nat) (s : State) : Res := done (s.setRd d (BitVec.ofNat 64 v) false)

/-- SPAWN (R191); the release steps precede the new thread (spec/11 R255). Its shadow format pointer is the instance's present one
(DESIGN CHOICE, log 63). -/
def execSpawn (b a d : BitVec 7) (s : State) : Res :=
  heavyOnly (wordSpawn b a d) (limit [a, b, d] fun s =>
    let entry := (s.cur.opnd a).val
    let shape := (s.cur.opnd b).val.toNat
    if entry.toNat % 4 != 0 || shape % 16 = 0 || 16 ≤ shape then status d 4 s
    else
      match (s.core s.ic).freeSlot with
      | none => status d 1 s
      | some sl =>
        match (s.core s.ic).firstFit shape with
        | none => status d 2 s
        | some block =>
          released (fun s =>
            let t := s.cur
            let fmtp := match s.inst t.inst with
              | some i => i.fmtp
              | none => t.fmtp
            let child := s.freshThread s.ic t.inst fmtp t.sclp entry (8 * shape) block s.now
            status d 0 (s.startThread s.ic sl (child.putRegs 3 false (inherited t 3 6 (8 * shape))))) s) s

/-- SPAWNL (R192): a light child with the issuer's g3 to g10 and pw. -/
def execSpawnl (a d : BitVec 7) (s : State) : Res :=
  limit [a, d] (fun s =>
    let entry := (s.cur.opnd a).val
    if entry.toNat % 4 != 0 then status d 4 s
    else
      match (s.core s.ic).freeSlot with
      | none => status d 1 s
      | some sl =>
        match (s.core s.ic).firstFit 2 with
        | none => status d 2 s
        | some block =>
          released (fun s =>
            let t := s.cur
            let child : Thread :=
              { st := .ready s.now false, light := true, inst := t.inst, alloc := 16, block := block
                pw := (t.pw.extractLsb' 0 40).setWidth 64, pc := entry, device := t.device }
            let s := s.startThread s.ic sl (child.putRegs 3 false (inherited t 3 8 11))
            status d 0 (s.updInst t.inst fun i => { i with foreign := true })) s) s

/-- EXIT (R194). -/
def execExit (s : State) : Res := afterReds (fun s => .next (s.endThread s.ic s.is)) s

/-- YIELD (R195): the thread is ready at the next wheel boundary, behind every other. -/
def execYield (s : State) : Res :=
  let next := (s.now / 16 + 1) * 16
  .next (s.advance.updCur fun t => { t with
    st := match t.st with
      | .halted w => .halted w
      | .free | .ready _ _ | .seated _ _ | .parked _ | .frozen | .stopped => .ready next true })

/-- MIGRATE (R196): only a light thread's. It performs no access, and goes on after the MIGRATE at the home. -/
def execMigrate (a : BitVec 7) (s : State) : Res :=
  if !s.cur.light then illegal (wordMigrate a) s
  else
    limit [a] (fun s =>
      let va := s.dataAddr (s.cur.opnd a).val
      access {} 1 va (fun t s =>
        let go := fun (home : Nat) => if s.cur.reds != [] then park .reds s else migrate home s.advance
        match t.place with
        | .window _ _ => done s
        | .remote sp _ => if sp = 255 || s.unreachable t || !s.accepted 9 then trapAt 8 va s else go t.queue
        | .home _ | .mx _ _ _ => if t.homeCore = some s.ic then done s else go (t.homeCore.getD 0)) s) s

/-! The task queue and the task graph (R197 to R201). -/

/-- A result at another place is in rd, and the thread waits for the reply (R190; in part DEDUCED, log 22). -/
def statusAway (d : BitVec 7) (v : Nat) (s : State) : Res := parkAccess (.done true) (s.setRd d (BitVec.ofNat 64 v) false)

/-- The release at device scope of the issuing thread, with the signature it carries: a light thread's is all ones (spec/11
R246, R255; in part DEDUCED, log 22). -/
def releasing (k : BitVec 512 → State → Res) (s : State) : Res :=
  if s.cur.light then afterReds (k allOnes512) s else released (fun s => k (s.core s.ic).carried s) s

/-- Reads a packet, after the checks of its address, and releases (in part DEDUCED, log 22). -/
def withPacket (a : BitVec 7) (k : Packet → State → Res) (s : State) : Res :=
  let x := s.cur.opnd a
  access { r := true } 64 (s.dataAddr x.val)
    (peekOr 64 (s.freshAddr x) · fun b s => released (k (BitVec.ofNat 512 (leNat b))) s) s

/-- LAUNCH and LAUNCH.W (R197): a full store gives status 1, or the thread waits (in part DEDUCED, log 22). -/
def launch (w : InstrWord) (waits : Bool) (a d : BitVec 7) (s : State) : Res :=
  heavyOnly w (limit [a, d] (withPacket a fun p s =>
    if !packetOk p then statusAway d 4 s
    else
      match (s.cluster (clusterOf s.ic)).freeEntry with
      | none => if waits then park (.room (.entry (clusterOf s.ic))) s else statusAway d 1 s
      | some e =>
        let r := s.fillEntry (clusterOf s.ic) e p (s.core s.ic).carried
        statusAway d r.1 r.2)) s

def execLaunch (a d : BitVec 7) (s : State) : Res := launch (wordLaunch a d) false a d s
def execLaunchW (a d : BitVec 7) (s : State) : Res := launch (wordLaunchW a d) true a d s

/-- TQ.ENQ (R198). -/
def execTqEnq (a d : BitVec 7) (s : State) : Res :=
  heavyOnly (wordTqEnq a d) (limit [a, d] (withPacket a fun p s =>
    if !packetOk p then statusAway d 4 s
    else if queueSize ≤ (s.cluster (clusterOf s.ic)).queued then statusAway d 1 s
    else statusAway d 0 (s.enqueue (clusterOf s.ic) p (s.core s.ic).carried false))) s

/-- TQ.DEQ (R198): an acquire of the releases that brought the packet. -/
def execTqDeq (a d : BitVec 7) (s : State) : Res :=
  heavyOnly (wordTqDeq a d) (limit [a, d] fun s =>
    let x := s.cur.opnd a
    access { w := true } 64 (s.dataAddr x.val) (fun t s =>
      let c := clusterOf s.ic
      let bypass := s.freshAddr x
      match (s.cluster c).topLevel with
      | none => statusAway d 5 s
      | some l =>
        match (s.cluster c).level l with
        | [] => statusAway d 5 s
        | q :: _ =>
          if s.cur.redOverlap t.place 64 then park .reds s
          else if s.writeHeld s.ic s.is bypass t 64 || s.dirtyPinned s.ic then park (.room .pin) s
          else
            let s := (s.updCluster c fun k => k.dropHead l).queueRoomMade c
            let s := s.applySig s.ic q.signature
            statusAway d 0 (s.writeFor s.ic s.is bypass t (leBytes q.packet.toNat 64))) s) s

/-- The handle in a register: its low 32 bits. -/
def State.handle (s : State) (a : BitVec 7) : Nat := (s.cur.opnd a).val.toNat % 2 ^ 32

/-- DEP.SET (R199). -/
def execDepSet (b a d : BitVec 7) (s : State) : Res :=
  limit [a, b, d] (fun s =>
    let h := s.handle a
    let k := (s.cur.opnd b).val.toNat
    releasing (fun sig s => let r := s.addCount h k sig; statusAway d r.1 r.2) s) s

/-- DEP.DEC (R200). -/
def execDepDec (a d : BitVec 7) (s : State) : Res :=
  limit [a, d] (fun s =>
    let h := s.handle a
    releasing (fun sig s => let r := s.decrement h sig; statusAway d r.1 r.2) s) s

/-! The iteration fetcher (R161, R202). -/

/-- A nest descriptor is invalid (R202). -/
def nestBad (n : Nat) : Bool :=
  let e0 := fld n 148 128
  let e1 := fld n 169 149
  let e2 := fld n 190 170
  fld n 255 240 = 0 || fld n 239 224 = 0 || fld n 223 192 != 0 || fld n 191 191 != 0 ||
  fld n 127 64 != e0 * e1 * e2 || fld n 127 64 < fld n 63 0

/-- The size of the next chunk (R161); 0 when the nest is spent. -/
def chunkSize (n : Nat) : Nat :=
  let r := fld n 127 64 - fld n 63 0
  let p := fld n 255 240
  min r (max (fld n 239 224) ((r + p - 1) / p))

/-- ITER.INIT (R202). -/
def execIterInit (a : BitVec 7) (s : State) : Res :=
  heavyOnly (wordIterInit a) (limit [a] fun s =>
    let va := s.dataAddr (s.cur.opnd a).val
    if va.off.toNat % 32 != 0 then trapAt 2 va s
    else done (s.updCur fun t => { t with fetcher := some va, cur := 0, stop := 0 })) s

/-- pN ← 0 and a status in X(n). -/
def State.iterFail (s : State) (p : BitVec 5) (d : BitVec 7) (v : Nat) : State :=
  s.updCur fun t => (t.setReg (t.rename d.toNat) (BitVec.ofNat 64 v) false).setPred p false false

/-- Gives iteration cur of the chunk, unpacked by its extents (R161). -/
def State.iterGive (s : State) (p : BitVec 5) (d : BitVec 7) : State :=
  s.updCur fun t =>
    let i := t.cur
    let e0 := fld t.ext.toNat 20 0
    let e1 := fld t.ext.toNat 41 21
    let v := [i % e0, i / e0 % e1, i / (e0 * e1)].map (BitVec.ofNat 64)
    ({ t with cur := i + 1 }.setRegs d.toNat false v).setPred p true false

/-- ITER.NEXT (R202). A claim is one step at the descriptor's home (in part DEDUCED, log 9); it is neither a release nor an acquire,
and faults as a load and a store do (DESIGN CHOICE, log 66). -/
def execIterNext (p : BitVec 5) (d : BitVec 7) (s : State) : Res :=
  heavyOnly (wordIterNext p d) (limitNumbers (span d.toNat 3) fun s =>
    match s.cur.fetcher with
    | none => done (s.iterFail p d 6)
    | some va =>
      if s.cur.cur != s.cur.stop then done (s.iterGive p d)
      else
        access { r := true, w := true } 32 va (fun t s =>
          if s.cur.redOverlap t.place 32 then park .reds s
          else if s.pinned t.place then park (.room .pin) s
          else
            let r := ((s.passBy s.ic s.is t 32).takeBack (.core s.ic) t 32).readTarget t 32
            match r.2.1 with
            | some i => trapAt 12 (VAddr.plus va i) s
            | none =>
              let s := r.2.2
              let n := leNat r.1
              if nestBad n then parkAccess (.done true) (s.iterFail p d 4)
              else if chunkSize n = 0 then parkAccess (.done true) (s.iterFail p d 6)
              else
                let start := fld n 63 0
                let s := (s.noteWrite s.ic t 8).writeTarget (.core s.ic) t (leBytes (start + chunkSize n) 8)
                let s := s.updCur fun u => { u with cur := start, stop := start + chunkSize n, ext := BitVec.ofNat 64 (fld n 191 128) }
                parkAccess (.done true) (s.iterGive p d)) s) s

/-! The range deque (R163 to R165, R203 to R205). -/

/-- A range, and the signature of its push. -/
abbrev Range := Word × Word × BitVec 512

/-- The issuing thread's instance. -/
def State.curInst (s : State) : Inst :=
  match s.inst s.cur.inst with
  | some i => i
  | none => { packet := 0, core := s.ic, order := 0, scratch := [], operand := [], queues := 0, host := false, fmtp := 0 }

/-- DQ.PUSH (R203): the bottom of the deque is the head of its list (in part DESIGN CHOICE, log 24). -/
def execDqPush (b a d : BitVec 7) (s : State) : Res :=
  heavyOnly (wordDqPush b a d) (limit [a, b, d] fun s =>
    let lo := (s.cur.opnd a).val
    let hi := (s.cur.opnd b).val
    released (fun s =>
      if hi.toNat ≤ lo.toNat then status d 4 s
      else if s.curInst.depth 1 ≤ s.curInst.deque.length then status d 1 s
      else
        let g := (s.core s.ic).carried
        status d 0 (s.updInst s.cur.inst fun i => { i with deque := (lo, hi, g) :: i.deque })) s) s

/-- lo and hi in X(n) and X(n + 1). -/
def State.putRange (s : State) (d : BitVec 7) (lo hi : Word) : State := s.updCur fun t => t.setRegs d.toNat false [lo, hi]

/-- DQ.POP (R203). -/
def execDqPop (d : BitVec 7) (s : State) : Res :=
  heavyOnly (wordDqPop d) (limitNumbers (span d.toNat 2) fun s =>
    match s.curInst.deque with
    | [] => done (s.putRange d 0 0)
    | x :: r =>
      acquiring (fun s =>
        let s := (s.updInst s.cur.inst fun i => { i with deque := r }).applySig s.ic x.2.2
        done (s.putRange d x.1 x.2.1)) s) s

/-- DQ.SPLIT (R203). -/
def execDqSplit (a d : BitVec 7) (s : State) : Res :=
  heavyOnly (wordDqSplit a d) (limitNumbers (a.toNat :: span d.toNat 2) fun s =>
    let k := max 1 (s.cur.opnd a).val.toNat
    match s.curInst.deque with
    | [] => done (s.putRange d 0 0)
    | x :: r =>
      let mid := BitVec.ofNat 64 (x.1.toNat + min k (x.2.1.toNat - x.1.toNat))
      let rest := if mid = x.2.1 then r else (mid, x.2.1, x.2.2) :: r
      acquiring (fun s =>
        let s := (s.updInst s.cur.inst fun i => { i with deque := rest }).applySig s.ic x.2.2
        done (s.putRange d x.1 mid)) s) s

/-- What a steal takes from a deque's top entry, and the deque that is left (R164). -/
def stealFrom (l : List Range) : Option (Range × List Range) :=
  match l.getLast? with
  | none => none
  | some x =>
    let n := x.2.1.toNat - x.1.toNat
    if 2 ≤ n then
      let mid := BitVec.ofNat 64 (x.1.toNat + n / 2)
      some ((mid, x.2.1, x.2.2), l.dropLast ++ [(x.1, mid, x.2.2)])
    else some (x, l.dropLast)

/-- The instances that DQ.STEAL visits, in its order (R204). -/
def State.victims (s : State) : List (Nat × Inst) :=
  let own := s.ic
  let place := fun (e : Nat × Inst) => ((e.2.core + Config.cores - own) % Config.cores, e.1)
  sortBy (fun x y => decide ((place x).1 < (place y).1) || ((place x).1 = (place y).1 && decide ((place x).2 < (place y).2)))
    (s.insts.filter fun e => e.2.resident && e.2.core != own && pktEntry e.2.packet = pktEntry s.curInst.packet)

/-- DQ.STEAL (R204; in part DESIGN CHOICE, log 24). -/
def execDqSteal (d : BitVec 7) (s : State) : Res :=
  heavyOnly (wordDqSteal d) (limitNumbers (span d.toNat 2) fun s =>
    match s.victims.findSome? fun e => (stealFrom e.2.deque).map fun x => (e.1, x) with
    | none => parkAccess (.done true) (s.putRange d 0 0)
    | some (i, x, rest) =>
      acquiring (fun s =>
        let s := (s.updInst i fun v => { v with deque := rest }).applySig s.ic x.2.2
        parkAccess (.done true) (s.putRange d x.1 x.2.1)) s) s

end Sys2Proof.Machine
end

