-- ==== Sys2Proof/Machine/Sync.lean ====
section
/-! DEFINITION. The SYNC instructions (spec/09 R206 to R214). -/

namespace Sys2Proof.Machine

/-! Barriers (R206 to R208). -/

def Core.barrier (k : Core) (b : Nat) : Barrier := tabGet {} k.barriers b

def State.putBarrier (s : State) (c b : Nat) (x : Barrier) : State := s.updCore c fun k => { k with barriers := tabPut k.barriers b x }

/-- The barrier number of a register. -/
def barrierOf (x : Word) : Nat := x.toNat % 1024

/-- Ones in a word. -/
def onesIn (m : BitVec 64) : Nat := ((span 0 64).filter fun i => m.getLsbD i).length

/-- A thread that waits for a barrier's open phase to end; a BAR.WAIT gets the phase's signature for its acquire. -/
def Thread.phaseEnds (t : Thread) (b now : Nat) (sig : BitVec 512) : Thread :=
  match t.wait with
  | some (.barrierOpen x) => if x = b then t.wake now else t
  | some (.barrier x _ _) => if x = b then { t.wake now with granted := some sig } else t
  | _ => t

/-- complete_phase (R207). -/
def State.completePhase (s : State) (c b : Nat) : State :=
  s.updCore c fun k =>
    let x := k.barrier b
    { k with
      barriers := tabPut k.barriers b { x with phase := x.phase + 1, mask := 0, completed := tabPut x.completed x.phase.toNat x.opening, opening := 0 }
      slots := k.slots.map fun e => (e.1, e.2.phaseEnds b k.cyc x.opening) }

/-- A release of a scope by a heavy thread (spec/11 R252): its signature, 0 for a scope within the core (in part DEDUCED, log 27). -/
def releaseScope (sc : BitVec 3) (k : BitVec 512 → State → Res) (s : State) : Res :=
  if wideScope sc then released (fun s => k (s.core s.ic).carried s) s
  else if sc = 1 then afterReds (k 0) s
  else k 0 s

/-- An acquire of a scope that reads a signature. -/
def State.acquireScope (s : State) (sc : BitVec 3) (g : BitVec 512) : State := if wideScope sc then s.applySig s.ic g else s

/-- An acquire of a scope waits as one of a cluster does. -/
def acquiringScope (sc : BitVec 3) (k : State → Res) (s : State) : Res := if wideScope sc then acquiring k s else k s

/-- BAR.INIT (R206). -/
def execBarInit (b a d : BitVec 7) (s : State) : Res :=
  heavyOnly (wordBarInit b a d) (limit [a, b, d] fun s =>
    let n := barrierOf (s.cur.opnd a).val
    let c := (s.cur.opnd b).val.toNat
    let x := (s.core s.ic).barrier n
    let other := match x.owner with
      | some o => o != s.cur.inst && (s.inst o).isSome
      | none => false
    if c = 0 || 64 < c then status d 4 s
    else if other || (x.owner = some s.cur.inst && x.mask != 0) then status d 1 s
    else status d 0 (s.putBarrier s.ic n { x with owner := some s.cur.inst, count := c, mask := 0, opening := 0 })) s

/-- BAR.ARRIVE (R207; in part DEDUCED, log 27). -/
def execBarArrive (sc : BitVec 3) (a d : BitVec 7) (s : State) : Res :=
  heavyOnly (wordBarArrive sc a d) (limit [a, d] fun s =>
    let n := barrierOf (s.cur.opnd a).val
    let x := (s.core s.ic).barrier n
    if x.owner != some s.cur.inst then status d (2 ^ 63 + n) s
    else if x.mask.getLsbD s.is then park (.barrierOpen n) s
    else
      releaseScope sc (fun g s =>
        let m := x.mask ||| (1#64 <<< s.is)
        let s := s.putBarrier s.ic n { x with mask := m, opening := x.opening ||| g }
        status d (x.phase.toNat * 1024 + n) (if onesIn m = x.count then s.completePhase s.ic n else s)) s) s

/-- BAR.WAIT (R207, R208; in part DEDUCED, log 27). -/
def execBarWait (sc : BitVec 3) (a : BitVec 7) (s : State) : Res :=
  heavyOnly (wordBarWait sc a) (limit [a] fun s =>
    match s.cur.granted with
    | some g => acquiringScope sc (fun s => done (s.acquireScope sc g)) s
    | none =>
      let token := (s.cur.opnd a).val
      let x := (s.core s.ic).barrier (barrierOf token)
      let p : BitVec 32 := token.extractLsb' 10 32
      if token.getLsbD 63 || x.owner != some s.cur.inst then done s
      else if x.phase != p then acquiringScope sc (fun s => done (s.acquireScope sc (tabGet 0 x.completed p.toNat))) s
      else park (.barrier (barrierOf token) p sc) s) s

/-- BAR.DROP (R207; in part DEDUCED, log 27). -/
def execBarDrop (sc : BitVec 3) (a : BitVec 7) (s : State) : Res :=
  heavyOnly (wordBarDrop sc a) (limit [a] fun s =>
    let n := barrierOf (s.cur.opnd a).val
    let x := (s.core s.ic).barrier n
    if x.owner != some s.cur.inst then done s
    else if x.mask.getLsbD s.is then park (.barrierOpen n) s
    else
      releaseScope sc (fun g s =>
        let c := x.count - 1
        let y := { x with count := c, opening := x.opening ||| g, owner := if c = 0 then none else x.owner }
        let s := s.putBarrier s.ic n y
        done (if c != 0 && x.mask != 0 && onesIn x.mask = c then s.completePhase s.ic n else s)) s) s

/-! Monitors (R209, R210). -/

/-- MON.ARM (R209): only a translation. -/
def execMonArm (a d : BitVec 7) (s : State) : Res :=
  heavyOnly (wordMonArm a d) (limit [a, d]
    (access { r := true } 1 (s.dataAddr (s.cur.opnd a).val) fun t s =>
      let p := t.place.block
      if s.cur.monitors.any fun m => m.place = p then status d 0 s
      else if 4 ≤ s.cur.monitors.length then status d 1 s
      else status d 0 (s.updCur fun u => { u with monitors := u.monitors ++ [⟨p, false, false⟩] }))) s

/-- MON.WAIT (R210): with no timeout 0 is kept, else one more than the cycles to count (in part DEDUCED, log 25). -/
def execMonWait (sc : BitVec 3) (a d : BitVec 7) (s : State) : Res :=
  heavyOnly (wordMonWait sc a d) (limit [a, d] fun s =>
    let n := (s.cur.opnd a).val.toNat
    if s.cur.monitors = [] then status d 4 s
    else if s.cur.monitors.any fun m => m.triggered then status d 1 (s.updCur Thread.clearTriggered)
    else park (.monitor (s.cur.rename d.toNat) (if n = 0 then 0 else n + 1) sc s.ic) s) s

/-- MON.CLR (R209). -/
def execMonClr (s : State) : Res := heavyOnly wordMonClr (fun s => done (s.updCur fun t => { t with monitors := [] })) s

/-- MONITOR_NOTICE: the gathered notices of writes from outside the scope trigger their monitors (in part DEDUCED, log 25). -/
def execMonitorNotice (core slot : Nat) (s : State) : Res :=
  let t := s.thread core slot
  if t.monitors.any (fun m => m.noticed) then
    let u : Thread := { t with monitors := t.monitors.map fun m => { m with triggered := m.triggered || m.noticed, noticed := false } }
    .next (s.putThread core slot (u.wakeCause (s.core core).cyc 1))
  else .next s

/-- MON_WAIT_TIMEOUT: the count has run out, and no other cause holds (in part DEDUCED, log 25). -/
def execMonWaitTimeout (core slot : Nat) (s : State) : Res :=
  let t := s.thread core slot
  match t.st with
  | .parked (.monitor _ 1 _ _) => .next (s.putThread core slot (t.wakeCause (s.core core).cyc 2))
  | .parked _ | .free | .ready _ _ | .seated _ _ | .frozen | .halted _ | .stopped => .next s

/-! Counters and messages (R211, R212). -/

/-- WAITC (R211): read first at the doubleword's home, and an acquire of the value that it compares (in part DEDUCED, log 26). -/
def execWaitc (b a : BitVec 7) (sc : BitVec 3) (s : State) : Res :=
  heavyOnly (wordWaitc b a sc) (limit [a, b] fun s =>
    match s.cur.granted with
    | some g => acquiringScope sc (fun s => doneLatc (s.acquireScope sc g)) s
    | none =>
      let target := (s.cur.opnd b).val
      access { r := true } 8 (s.dataAddr (s.cur.opnd a).val) (fun t s =>
        if s.cur.redOverlap t.place 8 then park .reds s
        else if s.readHeld s.ic s.is true t 8 || (wideScope sc && s.dirtyPinned s.ic) then park (.room .pin) s
        else
          let r := s.readFor s.ic s.is true t 8
          match r.2.1 with
          | some i => trapAt 12 (VAddr.plus t.va i) s
          | none =>
            let s := r.2.2
            if target.toNat ≤ leNat r.1 then parkAccess (.done true) (s.acquireScope sc (s.sigAcquire t))
            else park (.counter t target sc) s) s) s

/-- WAITM (R212). -/
def execWaitm (s : State) : Res :=
  heavyOnly wordWaitm (fun s => if ((s.core s.ic).oldest s.cur.inst s.is).isSome then done s else park .mail s) s

/-! Copy request registers (R213). -/

/-- The requests of an instance in order. -/
def Core.waitingOf (k : Core) (inst : Nat) : List Request := (k.backing.map (·.2)).filter fun r => r.inst = inst

/-- The place of the last request of a slot. -/
def lastPlace (sl : Nat) : List Request → Option Nat
  | [] => none
  | r :: l =>
    match lastPlace sl l with
    | some i => some (i + 1)
    | none => if r.slot = sl then some 0 else none

/-- Entries of an instance's backing. -/
def State.backingDepth (s : State) (inst : Nat) : Nat :=
  match s.inst inst with
  | some i => i.depth 0
  | none => 0

/-- The parked PUTFs whose request stands in a backing or a register complete. -/
def State.settleBacking (s : State) (c : Nat) : State :=
  (s.core c).slots.foldl (fun s e =>
    match e.2.wait with
    | some .request =>
      match lastPlace e.1 ((s.core c).waitingOf e.2.inst) with
      | some i => if i < s.backingDepth e.2.inst then s.complete c e.1 false id else s
      | none => s.complete c e.1 false id
    | _ => s) s

/-- A thread's wait for register j, or the copy thread's for any. -/
def waitsFull (j : Nat) (w : Wait) : Bool :=
  match w with
  | .requestEmpty r => r = j || r = 8
  | _ => false

/-- Fills register j. -/
def State.fillRequest (s : State) (c j : Nat) (r : Request) : State :=
  (s.updCore c fun k => { k with requests := tabPut k.requests j r }).wakeIf c (waitsFull j)

/-- The first request that waits for register j, and the others. -/
def nextFor (j : Nat) : List (Nat × Request) → Option (Request × List (Nat × Request))
  | [] => none
  | (i, r) :: l => if i = j then some (r, l) else (nextFor j l).map fun x => (x.1, (i, r) :: x.2)

/-- A register that is empty is refilled at once by the oldest PUTF that waits for it. -/
def State.refill (s : State) (c j : Nat) : State :=
  match tabFind (s.core c).requests j with
  | some _ => s
  | none =>
    match nextFor j (s.core c).backing with
    | none => s
    | some (r, l) => ((s.updCore c fun k => { k with backing := l }).fillRequest c j r).settleBacking c

/-- 32 bytes from four registers, the first at the lowest address. -/
def fourWords (l : List Word) : BitVec 256 := BitVec.ofNat 256 (packLanes 64 (l.map (·.toNat)))

/-- The instance number in bits 223:208 (spec/13 R282). -/
def withInst (b : BitVec 256) (inst : Nat) : BitVec 256 :=
  (b &&& ~~~(0xFFFF#256 <<< 208)) ||| (BitVec.ofNat 256 (inst % 2 ^ 16) <<< 208)

/-- PUTF. -/
def execPutf (b a : BitVec 7) (s : State) : Res :=
  heavyOnly (wordPutf b a) (limitNumbers (b.toNat :: span a.toNat 4) fun s =>
    let j := (s.cur.opnd b).val.toNat % 8
    let body := withInst (fourWords (s.cur.regsFrom a.toNat 4)) s.cur.inst
    released (fun s =>
      let r : Request := ⟨s.cur.inst, s.is, body, (s.core s.ic).carried⟩
      match tabFind (s.core s.ic).requests j with
      | none => done (s.fillRequest s.ic j r)
      | some _ =>
        let n := ((s.core s.ic).waitingOf s.cur.inst).length
        let t := s.updCore s.ic fun k => { k with backing := k.backing ++ [(j, r)] }
        if n < s.backingDepth s.cur.inst then done t else park .request t) s) s

/-- TAKEF (in part DEDUCED, log 28). -/
def execTakef (a d : BitVec 7) (s : State) : Res :=
  heavyOnly (wordTakef a d) (limitNumbers (a.toNat :: span d.toNat 4) fun s =>
    let j := (s.cur.opnd a).val.toNat % 8
    match tabFind (s.core s.ic).requests j with
    | none => park (.requestEmpty j) s
    | some r =>
      acquiring (fun s =>
        let s := s.updCur fun t => t.setRegs d.toNat false ((unpackLanes 64 r.body.toNat 4).map (BitVec.ofNat 64))
        let s := s.applySig s.ic r.signature
        done (((s.updCore s.ic fun k => { k with requests := tabDel k.requests j }).refill s.ic j).settleInst r.inst)) s) s

/-! Common registers (R214, spec/08 R179 R180). -/

/-- CMN.RD. -/
def execCmnRd (c : BitVec 3) (d : BitVec 7) (s : State) : Res :=
  limit [d] (fun s => done (s.setRd d (tabGet 0 (s.core s.ic).common c.toNat) false)) s

/-- CMN.WR: its value is seen from 16 cycles on. -/
def execCmnWr (c : BitVec 3) (a : BitVec 7) (s : State) : Res :=
  limit [a] (fun s =>
    let v := (s.cur.opnd a).val
    done (s.updCore s.ic fun k => { k with commonWrites := k.commonWrites ++ [⟨k.cyc, none, c.toNat, v⟩] })) s

end Sys2Proof.Machine
end

