-- ==== Sys2Proof/Machine/Engine.lean ====
section
/-! DEFINITION. Accesses of the engines and of dispatch, by virtual address over any number of pages (spec/10 R229), and the
roles of a core's banks (spec/07 R151). -/

namespace Sys2Proof.Machine

/-! Ranges. -/

/-- What a read of a range answers: its bytes, the first address that faults with its cause, or nothing where a walk would read
where nothing stands. -/
inductive RangeRead where
  | ok (b : List Byte)
  | bad (cause : Nat) (va : VAddr)
  | hole
  deriving DecidableEq, Repr

/-- An engine's translation for an instance, with the answer that an unreachable device gives (spec/22 R418). -/
def State.engineTarget (s : State) (inst : Nat) (need : Need) (va : VAddr) : Xlate :=
  match s.engineXlate inst need va with
  | .ok t => if s.unreachable t then .access else .ok t
  | .miss => .miss
  | .window => .window
  | .access => .access
  | .page => .page
  | .hole => .hole

/-- The bytes from an address to the end of its page's smallest size, at most n. -/
def pageRun (va : VAddr) (n : Nat) : Nat := min n (4096 - va.off.toNat % 4096)

/-- Reads n bytes at their homes, page by page. -/
def State.readRange (s : State) (inst : Nat) : Nat → VAddr → Nat → RangeRead × State
  | 0, _, _ => (.ok [], s)
  | fuel + 1, va, n =>
    if n = 0 then (.ok [], s)
    else
      let m := pageRun va n
      match s.engineTarget inst { r := true } va with
      | .ok t =>
        let r := s.readPlace t.place m
        match r.2.1 with
        | some i => (.bad 12 (VAddr.plus va i), r.2.2)
        | none =>
          let x := r.2.2.readRange inst fuel (VAddr.plus va m) (n - m)
          match x.1 with
          | .ok b => (.ok (r.1 ++ b), x.2)
          | .bad c v => (.bad c v, x.2)
          | .hole => (.hole, x.2)
      | .window => (.bad 7 va, s)
      | .access | .miss => (.bad 3 va, s)
      | .page => (.bad 4 va, s)
      | .hole => (.hole, s)

def State.readBytes (s : State) (inst : Nat) (va : VAddr) (n : Nat) : RangeRead × State := s.readRange inst (n / 4096 + 2) va n

/-- A page's target for each run of a range, or the first fault. -/
inductive RangePlan where
  | ok (l : List (Target × Nat))
  | bad (cause : Nat) (va : VAddr)
  | hole
  deriving DecidableEq, Repr

def State.planRange (s : State) (inst : Nat) (need : Need) : Nat → VAddr → Nat → RangePlan
  | 0, _, _ => .ok []
  | fuel + 1, va, n =>
    if n = 0 then .ok []
    else
      let m := pageRun va n
      match s.engineTarget inst need va with
      | .ok t =>
        match s.planRange inst need fuel (VAddr.plus va m) (n - m) with
        | .ok l => .ok ((t, m) :: l)
        | .bad c v => .bad c v
        | .hole => .hole
      | .window => .bad 7 va
      | .access | .miss => .bad 3 va
      | .page => .bad 4 va
      | .hole => .hole

/-- The runs of a range that an access with a need reaches. -/
def State.plan (s : State) (inst : Nat) (need : Need) (va : VAddr) (n : Nat) : RangePlan := s.planRange inst need (n / 4096 + 2) va n

/-- Writes bytes over the runs of a plan. -/
def State.writePlan (s : State) (a : Agent) : List (Target × Nat) → List Byte → State
  | [], _ => s
  | (t, n) :: r, b => State.writePlan (s.writeTarget a t (b.take n)) a r (b.drop n)

/-- A byte of a plan stands in a line that a pin holds. -/
def State.planPinned (s : State) (own : Nat) (l : List (Target × Nat)) : Bool :=
  l.any fun x =>
    match x.1.place with
    | .home pa => (span (pa / 128) ((pa + x.2 - 1) / 128 + 1 - pa / 128)).any fun n => s.pinnedBut own (.home (128 * n))
    | .window _ _ | .mx _ _ _ | .remote _ _ => false

/-! Bank arbitration (spec/07 R143). -/

/-- The core and the banks that n bytes at a place need. -/
def Place.banks (p : Place) (n : Nat) : Option (Nat × List Nat) :=
  match p with
  | .window c a => some (c, span (a / 8192) ((a + n - 1) / 8192 + 1 - a / 8192))
  | .home _ | .mx _ _ _ | .remote _ _ => none

/-- A copy beat or an engine read may use a bank in the core's present cycle: no other does, and no thread that issues in it has been
refused the bank three times in a row. -/
def Core.bankFree (k : Core) (b : Nat) : Bool :=
  !k.busy.contains b &&
  match k.issuer with
  | some sl => !(maxForfeits ≤ (tabGet {} k.slots sl).forfeits && (tabGet {} k.slots sl).wants.contains b)
  | none => true

/-- A beat or an engine read of n bytes at a place goes on with its banks, or is deferred to the next cycle of their core, when an
event is to happen. A core that has not started has no cycles. -/
def State.arbitrate (s : State) (p : Place) (n : Nat) (i : Instr) (k : State → Res) : Res :=
  match p.banks n with
  | none => k s
  | some (c, l) =>
    if !(s.core c).started then k s
    else if l.all (s.core c).bankFree then k (s.updCore c fun k => { k with busy := k.busy ++ l })
    else .next (s.updCore c fun k => { k with deferred := k.deferred ++ [i] })

/-! Banks. -/

/-- BANKROLE with the role of banks changed. -/
def withRole (role : Nat) (banks : List Nat) (w : BitVec 64) : BitVec 64 :=
  banks.foldl (fun w b => (w &&& ~~~(3#64 <<< (2 * b))) ||| (BitVec.ofNat 64 role <<< (2 * b))) w

/-- A bank without contents. -/
def Core.blankBank (k : Core) (b : Nat) : Core :=
  { k with
    sram := k.sram.filter fun x => x.1 / 8192 != b
    badRows := k.badRows.filter fun x => x / 64 != b
    unspecified := k.unspecified.filter fun u => u.lo / 8192 != b }

/-- Banks take a role, and read 0 (spec/10 R216). -/
def Core.giveRole (k : Core) (role : Nat) (banks : List Nat) : Core :=
  banks.foldl (fun k b => k.blankBank b) { k with bankrole := withRole role banks k.bankrole }

/-- Lines of leaving ways go home. -/
def State.leaveWays (s : State) (c : Nat) (banks : List Nat) : State :=
  (s.core c).cache.foldl (fun s l => if banks.contains l.way then s.evictLine c l.line else s) s

/-- The cache-role count falls to n: the highest-numbered banks leave the role (R151). -/
def State.shrinkCache (s : State) (c n : Nat) : State :=
  let gone := (s.core c).ways.drop n
  if gone = [] then s else (s.leaveWays c gone).updCore c fun k => k.giveRole 0 gone

/-- The largest CACHE of a core's residents. -/
def State.cacheWanted (s : State) (c : Nat) : Nat := (s.residents c).foldl (fun n e => max n (pktCache e.2.packet)) 0

/-- A core that holds no resident with a shadow format pointer has no decode table (spec/03 R72). -/
def State.dropTable (s : State) (c : Nat) : State :=
  if (s.residents c).all fun e => e.2.fmtp = 0 then s.updCore c fun k => { k with fmt := none, fmtWrites := [] } else s

end Sys2Proof.Machine
end

