-- ==== Sys2Proof/Machine/Scheduler.lean ====
section
/-! DEFINITION. Dispatch (spec/07 R147 to R151), the cluster scheduler (R158 to R160), retirement (R157), and the wheel (R141). -/

namespace Sys2Proof.Machine

/-! Placement (R147, R159). -/

/-- T slots and runs of an allocation, taken for thread 0 first. -/
def Core.seats (k : Core) (alloc : Nat) : Nat → Option (List (Nat × Nat))
  | 0 => some []
  | n + 1 =>
    match k.place alloc with
    | none => none
    | some (sl, b) =>
      (Core.seats (k.putThread sl { st := .ready 0 false, alloc := alloc, block := b }) alloc n).map fun l => (sl, b) :: l

/-- The scratch, operand and extra cache banks that a packet takes. -/
def Core.banksFor (k : Core) (p : Packet) : Option (List Nat × List Nat × List Nat) :=
  let off := k.roleBanks 0
  let extra := pktCache p - k.ways.length
  if off.length < pktScr p + pktOper p + extra then none
  else some (off.take (pktScr p), (off.drop (pktScr p)).take (pktOper p), (off.drop (pktScr p + pktOper p)).take extra)

/-- The decode table can be granted. -/
def State.tableFree (s : State) (c : Nat) (fmtp : Word) : Bool :=
  fmtp = 0 || (s.residents c).all fun e => e.2.fmtp = 0 || e.2.fmtp = fmtp

/-- R147 can be granted on a core. -/
def State.fits (s : State) (c : Nat) (p : Packet) : Bool :=
  (s.core c).started && !(s.core c).drained && ((s.core c).seats (8 * pktRegs p) (pktThreads p)).isSome &&
  ((s.core c).banksFor p).isSome && s.tableFree c (pktFmtp p)

/-- The core's pair is swapping (R167). -/
def State.swapping (s : State) (c : Nat) : Bool :=
  match (s.pair (pairOf c)).phase with
  | .idle => false
  | .waiting _ => false
  | .preparing _ => true
  | .exchanged => true

/-- Free general slots. -/
def Core.freeSlots (k : Core) : Nat := ((span 0 60).filter fun sl => !(tabGet {} k.slots sl).live).length

/-- The core that takes a packet: the most free general slots, then the lower number. One dispatch at a time takes effect there. -/
def State.choose (s : State) (k : Nat) (p : Packet) : Option Nat :=
  best (fun a b => decide ((s.core b).freeSlots < (s.core a).freeSlots))
    ((span (8 * k) 8).filter fun c => s.fits c p && (s.core c).arriving.isNone)

/-! The task extension block (R149, R150). -/

/-- Element sizes of the four queues, by the code ESZ. -/
def queueSizeCode (q : Nat) : Nat :=
  match q with
  | 0 => 2
  | 1 => 1
  | 2 => 0
  | _ => 1

/-- First byte and end of a queue's area; none where it has none, and false where its word fails the check (in part DESIGN CHOICE, log 24). -/
def queueArea (block scr q : Nat) : Bool × Option (Nat × Nat) :=
  let w := fld block (64 * q + 63) (64 * q)
  let depth := fld w 47 32
  let lo := fld w 17 0
  let hi := lo + depth * 2 ^ (fld w 49 48 + 3)
  if fld w 63 50 != 0 || fld w 31 18 != 0 then (false, none)
  else if depth = 0 then (true, none)
  else (fld w 49 48 = queueSizeCode q && lo % 64 = 0 && hi ≤ scr * 8192, some (lo, hi))

/-- Areas that are pairwise disjoint. -/
def disjointAreas : List (Nat × Nat) → Bool
  | [] => true
  | a :: r => r.all (fun b => a.2 ≤ b.1 || b.2 ≤ a.1) && disjointAreas r

/-- The block passes the checks of R149 and R150. -/
def blockOk (block scr : Nat) : Bool :=
  let areas := (span 0 4).map (queueArea block scr)
  areas.all (·.1) && disjointAreas (areas.filterMap (·.2)) &&
  fld block 511 416 = 0 && fld block 319 256 % 8 = 0 && fld block 383 320 % 64 = 0 && fld block 415 384 ≤ scr * 8192

/-! Dispatch (R147, R148, R150). -/

/-- What dispatch reads before any thread starts. -/
structure Prepared where
  table : Option DecodeTable := none
  queues : BitVec 256 := 0
  seeds : List (Nat × Word) := []
  image : List Byte := []
  deriving DecidableEq, Repr

/-- What preparing a dispatch answers. -/
inductive Prepare where
  | ok (p : Prepared)
  | status (n : Nat)
  | hole
  deriving DecidableEq, Repr

/-- No instance: dispatch reads for none, so that a window address faults. -/
def noInst : Nat := 2 ^ 16

/-- A read of space 0 at dispatch: a fault is status 3 (in part DEDUCED, log 23). -/
def State.dispatchRead (s : State) (off n : Nat) (k : List Byte → Prepare) : Prepare :=
  match (s.readBytes noInst ⟨0, BitVec.ofNat 64 off⟩ n).1 with
  | .ok b => k b
  | .bad _ _ => .status 3
  | .hole => .hole

/-- The entries of a table in memory. -/
def tableOf (b : List Byte) : DecodeTable := (unpackLanes 32 (leNat b) 256).map (BitVec.ofNat 32)

/-- The seeds that a list names (R150). -/
def seedsOf (b : List Byte) : List (Nat × Word) :=
  let n := leNat b
  ((span 0 16).filter fun i => fld n i i = 1).map fun i => (i, BitVec.ofNat 64 (fld n (127 + 64 * i) (64 + 64 * i)))

/-- Seeds and scratch image of a checked block. -/
def State.prepareImage (s : State) (block : Nat) (p : Prepared) : Prepare :=
  let seedp := fld block 319 256
  let len := fld block 415 384
  let rest := fun (p : Prepared) =>
    if len = 0 then Prepare.ok p else s.dispatchRead (fld block 383 320) len fun b => .ok { p with image := b }
  if seedp = 0 then rest p
  else s.dispatchRead seedp 136 fun b => if fld (leNat b) 63 16 != 0 then .status 2 else rest { p with seeds := seedsOf b }

/-- The extension block of a packet. -/
def State.prepareBlock (s : State) (p : Packet) (x : Prepared) : Prepare :=
  if pktQcwp p = 0 then .ok x
  else s.dispatchRead (pktQcwp p) 64 fun b =>
    let block := leNat b
    if blockOk block (pktScr p) then s.prepareImage block { x with queues := BitVec.ofNat 256 block } else .status 2

/-- The decode table, then the extension block (in part DEDUCED, log 23). -/
def State.prepare (s : State) (p : Packet) : Prepare :=
  if pktFmtp p = 0 then s.prepareBlock p {}
  else s.dispatchRead (pktFmtp p).toNat 1024 fun b =>
    if tableOk (tableOf b) then s.prepareBlock p { table := some (tableOf b) } else .status 1

/-- A number that no live instance carries: cluster ‖ sequence (R147; in part DESIGN CHOICE, log 21). -/
def State.newNumber (s : State) (k : Nat) : Option Nat :=
  ((span 0 512).map fun i => k * 512 + ((s.cluster k).sequence + i) % 512).find? fun n => (s.inst n).isNone

/-- The top of thread i's share of the window (R147). -/
def stackTop (scr threads i : Nat) : Word :=
  if scr = 0 then 0 else BitVec.ofNat 64 (windowBase + (i + 1) * (scr * 8192 / (16 * threads)) * 16)

/-- The registers that dispatch loads from g2 on. -/
def dispatchRegs (p : Packet) (i : Nat) : List Word :=
  [stackTop (pktScr p) (pktThreads p) i, pktArg0 p, pktArg1 p, BitVec.ofNat 64 i, BitVec.ofNat 64 (pktThreads p)]

/-- The next wheel boundary of a core (R138). -/
def Core.nextBoundary (k : Core) : Nat := if k.cyc % 16 = 0 && k.boundaryDone then k.cyc + 16 else (k.cyc + 15) / 16 * 16

/-- The threads of a dispatched packet. -/
def State.startThreads (s : State) (c inst : Nat) (p : Packet) : List (Nat × Nat) → Nat → State
  | [], _ => s
  | (sl, b) :: r, i =>
    let t := s.freshThread c inst (pktFmtp p) (pktSclp p) (pktEntry p) (8 * pktRegs p) b (s.core c).cyc
    State.startThreads (s.startThread c sl (t.putRegs 2 false (dispatchRegs p i))) c inst p r (i + 1)

/-- Bytes into the banks of a window, from offset 0 on. -/
def fillBanks (m : Memory) : List Nat → List Byte → Memory
  | [], _ => m
  | b :: r, l => if l = [] then m else fillBanks (memWrite m (8192 * b) (l.take 8192)) r (l.drop 8192)

/-- A granted dispatch: banks, table, seeds, image, the acquire of the releases that brought the packet (spec/09 R201), and the
threads (in part DEDUCED, log 23). -/
def State.start (s : State) (c : Nat) (q : QueuedPacket) (x : Prepared) (seats : List (Nat × Nat)) (banks : List Nat × List Nat × List Nat)
    (n : Nat) : State :=
  let p := q.packet
  let s := s.updCore c fun k => ((k.giveRole 2 banks.1).giveRole 3 banks.2.1).giveRole 1 banks.2.2
  let s := s.updCore c fun k => { k with sram := fillBanks k.sram banks.1 x.image }
  let s := match x.table with
    | some t => s.updCore c fun k => { k with fmt := some t, fmtWrites := [] }
    | none => s
  let s := x.seeds.foldl (fun s e => s.updCore c fun k => k.setSeed (dispatchWriter n) e.1 e.2) s
  let i : Inst :=
    { packet := p, core := c, order := s.serial, scratch := banks.1, operand := banks.2.1, queues := x.queues, host := q.host
      fmtp := pktFmtp p, cores := [c] }
  let s := { s with serial := s.serial + 1, insts := tabPut s.insts n i }
  let s := s.updCluster (clusterOf c) fun k => { k with sequence := (n + 1) % 512 }
  (s.applySig c (if q.host then allOnes512 else q.signature)).startThreads c n p seats 0

/-- Puts a packet back at the head of its level, its wait kept. -/
def State.putBack (s : State) (k : Nat) (q : QueuedPacket) : State :=
  s.updCluster k fun c => { c with queue := tabPut c.queue (pktPrio q.packet) (q :: c.level (pktPrio q.packet)) }

/-- Dispatches a packet to a core, at its wheel boundary, or returns it to the kernel (R148); in part DEDUCED, log 23. What cannot be
granted any more leaves the packet at the head of its PRIO level, and so does a cluster whose 512 instance numbers are all live
(DESIGN CHOICE, log 21). -/
def State.dispatch (s : State) (c : Nat) (q : QueuedPacket) : Res :=
  match s.prepare q.packet with
  | .hole => .fault .nothingThere
  | .status n => .next (s.record (.dispatchFailed q.packet n))
  | .ok x =>
    match (s.core c).seats (8 * pktRegs q.packet) (pktThreads q.packet), (s.core c).banksFor q.packet, s.newNumber (clusterOf c) with
    | some seats, some banks, some n => .next (s.start c q x seats banks n)
    | _, _, _ => .next (s.putBack (clusterOf c) q)

/-- The dispatch that a core awaits takes effect, unless the core's pair is swapping (R167) or the acquire would write back a pinned
line. -/
def State.arrive (s : State) (c : Nat) : Res :=
  match (s.core c).arriving with
  | none => .next s
  | some q =>
    if s.swapping c || s.dirtyPinned c then .next s
    else
      let s := (s.updCore c fun k => { k with arriving := none }).pairMoved c
      if s.fits c q.packet then s.dispatch c q else .next (s.putBack (clusterOf c) q)

/-! The scheduler (R158 to R160). -/

/-- Wheels after which a packet is promoted. -/
def promoteAfter : Nat := 4096

/-- Moves the packets of a level whose wait is over to the tail of the next higher level. -/
def Cluster.promote (k : Cluster) (l : Nat) : Nat → Cluster
  | 0 => k
  | fuel + 1 =>
    match k.level l with
    | [] => k
    | q :: r =>
      if l = 0 || k.wheels < q.since + promoteAfter then k
      else
        Cluster.promote { k with queue := tabPut (tabPut k.queue l r) (l - 1) (k.level (l - 1) ++ [{ q with since := k.wheels }]) } l fuel

/-- PACKET_PROMOTION. -/
def execPacketPromotion (cluster level : Nat) (s : State) : Res := .next (s.updCluster cluster fun k => k.promote level queueSize)

/-- The first head, level 0 first, that can be placed. -/
def State.placeable (s : State) (k : Nat) : Option (Nat × Nat × QueuedPacket) :=
  (span 0 4).findSome? fun l =>
    match (s.cluster k).level l with
    | [] => none
    | q :: _ => (s.choose k q.packet).map fun c => (l, c, q)

/-- Whom a thief asks: the other clusters of its die in ring order, then those of its number on the other dies (R160). -/
def stealRing (k i : Nat) : Nat :=
  if i < 31 then k / 32 * 32 + (k + 1 + i) % 32 else (k / 32 + (i - 30)) % 4 * 32 + k % 32

def ringLength : Nat := 34

/-- The cluster may steal: its queue is empty, and a core has a free general slot. -/
def State.maySteal (s : State) (k : Nat) : Bool :=
  let c := s.cluster k
  c.released && !c.withdrawn && c.queued = 0 && (span (8 * k) 8).any fun n => (s.core n).started && (s.core n).freeSlots != 0

/-- Sends the next steal request of a round (in part DESIGN CHOICE, log 29). -/
def State.askNext (s : State) (k : Nat) : State :=
  (s.updCluster k fun c => { c with stealAsked := true }).emit (.stealRequest k (stealRing k (s.cluster k).stealNext))

/-- The scheduler's stealing in a wheel (in part DESIGN CHOICE, log 29). -/
def State.steal (s : State) (k : Nat) : State :=
  let c := s.cluster k
  if !s.maySteal k || c.stealAsked then s
  else
    match c.stealWait with
    | none => s.askNext k
    | some w => if w + 64 ≤ c.wheels then s.emitOnce (.stealRoundWait k) else s

/-- The kernel has written DEVID, SPTBR and CASTIV, before which no task is dispatched (spec/25 R444). -/
def State.kernelReady (s : State) : Bool :=
  s.hub.devidSet && s.hub.sptbrSet && (span 0 Config.dies).all fun d => (s.die d).castivSet

/-- CLUSTER_SCHEDULER_PASS: once per wheel, promotions, one dispatch, which takes effect at the core's next boundary (R138), and a
steal. -/
def execClusterSchedulerPass (cluster : Nat) (s : State) : Res :=
  let s := s.updCluster cluster fun k =>
    (((({ k with wheels := k.wheels + 1 }).promote 1 queueSize).promote 2 queueSize).promote 3 queueSize)
  if (s.cluster cluster).withdrawn || !s.kernelReady then .next s
  else
    match s.placeable cluster with
    | some (l, c, q) =>
      .next (((s.updCluster cluster fun k => k.dropHead l).queueRoomMade cluster).updCore c fun k => { k with arriving := some q })
    | none => .next (s.steal cluster)

/-- The victim yields the head of its highest non-empty level (R160; a withdrawn cluster's packets need not be unplaceable,
spec/14 R312). Castling only delays a packet (R167). -/
def State.yields (s : State) (victim : Nat) : Option (Nat × QueuedPacket) :=
  let k := s.cluster victim
  if k.queued < 2 then none
  else
    match k.topLevel with
    | none => none
    | some l =>
      match k.level l with
      | [] => none
      | q :: _ =>
        if pktNosteal q.packet || (!k.withdrawn && (span (8 * victim) 8).any fun c => s.fits c q.packet) then none else some (l, q)

/-- STEAL_REQUEST: the packet leaves the victim and enters the thief's queue in one step; a refused thief asks the next, or
waits after a full round (in part DESIGN CHOICE, log 29). -/
def execStealRequest (thief victim : Nat) (s : State) : Res :=
  let s := s.updCluster thief fun k => { k with stealAsked := false }
  if !s.maySteal thief || thief = victim then .next s
  else
    match s.yields victim with
    | some (l, q) =>
      let s := (s.updCluster victim fun k => k.dropHead l).queueRoomMade victim
      .next ((s.enqueue thief q.packet q.signature q.host).updCluster thief fun k => { k with stealNext := 0 })
    | none =>
      let n := (s.cluster thief).stealNext + 1
      if n < ringLength then .next ((s.updCluster thief fun k => { k with stealNext := n }).askNext thief)
      else .next (s.updCluster thief fun k => { k with stealNext := 0, stealWait := some k.wheels })

/-- STEAL_ROUND_WAIT: a new round starts (in part DESIGN CHOICE, log 29). -/
def execStealRoundWait (cluster : Nat) (s : State) : Res :=
  let s := s.updCluster cluster fun k => { k with stealWait := none, stealNext := 0 }
  if s.maySteal cluster && !(s.cluster cluster).stealAsked then .next (s.askNext cluster) else .next s

/-! Retirement (R151, R157). -/

/-- A thread, or a migrating context, of an instance is live, on this device or another (spec/22 R406). -/
def State.hasThread (s : State) (inst : Nat) : Bool :=
  (s.cores.any fun e => e.2.slots.any (ofInst inst) || e.2.migIn.any fun p => p.lightOf inst) ||
  (s.flight.any fun x => x.2.lightOf inst) || s.away.any fun p => p.isOf inst

/-- The instance number of a copy request. -/
def reqInst (b : BitVec 256) : Nat := fld b.toNat 223 208

/-- The request in a copy thread's hands, between its TAKEF and its CP.GO (spec/13 R281). -/
def Core.handed (k : Core) : Option (BitVec 256) :=
  let t := tabGet {} k.slots 62
  if t.cur = 1 then some (fourWords (t.regsFrom 4 4)) else none

/-- A copy of an instance is requested or running. -/
def State.hasCopy (s : State) (inst : Nat) : Bool :=
  (s.cores.any fun e =>
    (e.2.requests.any fun r => r.2.inst = inst) || (e.2.backing.any fun r => r.2.inst = inst) ||
    (e.2.handed.map fun b => decide (reqInst b = inst)).getD false) ||
  (s.clusters.any fun e =>
    (e.2.copyQueue.any fun b => reqInst b = inst) ||
    (e.2.channels.any fun c => (c.2.run.map fun r => decide (reqInst r.body = inst)).getD false))

/-- A matrix or index job of an instance is queued, running or yielded. -/
def State.hasJob (s : State) (inst : Nat) : Bool :=
  s.clusters.any fun e =>
    (e.2.jobs.any fun j => j.2.inst = inst && (j.2.st = .accepted || j.2.st = .running || j.2.st = .yielded)) ||
    (e.2.indexQueue.any fun c => c.inst = inst) || (e.2.indexJobs.any fun j => !j.2.ended && j.2.cmd.inst = inst)

/-- Messages of a core that its hardware entries and the other residents' areas do not hold stand in an instance's overflow
area. -/
def State.overflowHeld (s : State) (inst : Nat) (i : Inst) : Bool :=
  i.depth 3 != 0 &&
  decide (256 + ((s.residents i.core).foldl (fun n e => if e.1 = inst then n else n + e.2.depth 3) 0) < (s.core i.core).mailbox.length)

/-- The instance owns its core's ports. -/
def State.ownerIs (s : State) (inst : Nat) (i : Inst) : Bool :=
  match s.portOwner i.core with
  | some e => e.1 = inst
  | none => false

/-- Frees the place on its core of an instance that is no longer resident: banks, cache count, decode table, barriers, messages, receive sides (R151, R177,
spec/09 R206, spec/03 R72). -/
def State.clearPlace (s : State) (inst : Nat) (i : Inst) (owned : Bool) : State :=
  let c := i.core
  let s := s.updCore c fun k => { k.giveRole 0 i.banks with
    barriers := k.barriers.map fun b => (b.1, if b.2.owner = some inst then { b.2 with owner := none } else b.2)
    mailbox := k.mailbox.filter fun m => m.inst != inst
    ports := if owned then [] else k.ports }
  let s := ((s.shrinkCache c (s.cacheWanted c)).dropTable c).portsMoved c
  ((State.serveQueue c 17 (s.mailRoom c)).pairMoved c)

def State.freePlace (s : State) (inst : Nat) (i : Inst) : State :=
  ({ s with insts := tabDel s.insts inst } : State).clearPlace inst i (s.ownerIs inst i)

/-- A retirement's decrement of a successor: its signature is at the entry when the decrement arrives. -/
def State.successor (s : State) (h : Nat) (sig : BitVec 512) : State :=
  if fld h 31 31 = 0 then s
  else
    let s := match s.liveEntry h with
      | some x => s.putEntry h { x with signature := x.signature ||| sig }
      | none => s
    s.emit (.dependencyDecrement (BitVec.ofNat 32 h))

/-- The kernel writes a completion entry of 16 bytes to the host's ring, the contents of which the spec does not give, and raises
MSI-X vector 0 (spec/25 R440; DESIGN CHOICE, log 8). -/
def State.hostCompletes (s : State) (inst : Nat) : State :=
  let x := s.draw
  let y := x.2.draw
  let b := leBytes (Config.freeValue x.1).toNat 8 ++ leBytes (Config.freeValue y.1).toNat 8
  let off := Config.completionBase + 16 * (s.hub.completions % Config.completionEntries)
  let s := { y.2 with ext := memWrite y.2.ext (extAddr 255 off) b }.touch .outside none (.remote 255 off) 16
  (s.updHub fun h => { h with completions := h.completions + 1 }).record (.hostCompletion inst)

/-- TASK_RETIREMENT: once nothing of the task is left, it releases, decrements its successors and frees its resources (in part DEDUCED, log 57). -/
def execTaskRetirement (inst : Nat) (s : State) : Res :=
  match s.inst inst with
  | none => .next s
  | some i =>
    let held := if i.host then i.cores else [i.core]
    if i.st != .live || s.hasThread inst || s.hasCopy inst || s.hasJob inst || s.overflowHeld inst i || held.any s.dirtyPinned then .next s
    else
      let s := held.foldl (fun s c => s.releaseCore c) s
      let sig := if i.foreign then allOnes512 else (s.core i.core).carried
      let s := s.freePlace inst i
      let s := (s.successor (pktSucc i.packet 0) sig).successor (pktSucc i.packet 1) sig
      .next (if i.host then s.hostCompletes inst else s)

/-! The wheel (R141). -/

/-- The general threads that wait unseated at a boundary, in the order in which they are seated: earliest ready first, behind
it those that yielded, then the lower slot. -/
def Core.waiting (k : Core) : List Nat :=
  (sortBy (fun (a b : Nat × Nat × Bool) =>
      decide (a.2.1 < b.2.1) || (a.2.1 = b.2.1 && ((!a.2.2 && b.2.2) || (a.2.2 == b.2.2 && decide (a.1 < b.1)))))
    (k.slots.filterMap fun e =>
      match e.2.st with
      | .ready since behind => if e.1 < 62 && since ≤ k.cyc then some (e.1, since, behind) else none
      | .free | .seated _ _ | .parked _ | .frozen | .halted _ | .stopped => none)).map (·.1)

/-- Due threads: seated for 256 whole wheels or more, the longest seated first (in part DEDUCED, log 56). -/
def Core.due (k : Core) : List Nat :=
  (sortBy (fun (a b : Nat × Nat) => decide (a.2 < b.2) || (a.2 = b.2 && decide (a.1 < b.1)))
    (k.slots.filterMap fun e =>
      match e.2.seatedSince with
      | some x => if e.1 < 62 && x + 16 * 256 ≤ k.cyc then some (e.1, x) else none
      | none => none)).map (·.1)

/-- A thread takes another state. -/
def Core.setState (k : Core) (sl : Nat) (st : SlotState) : Core := k.putThread sl { tabGet {} k.slots sl with st := st }

/-- Seats threads at positions (in part DEDUCED, log 56); position 0 issues in this very cycle, in which no other thread of the core
can still raise a cause of a MON.WAIT (spec/09 R210). -/
def Core.seatAll (k : Core) : List Nat → List Nat → Core
  | p :: ps, sl :: r =>
    let t := tabGet {} k.slots sl
    Core.seatAll (k.putThread sl { t with st := .seated p k.cyc, cause := if p = 0 then none else t.cause }) ps r
  | _, _ => k

/-- Unseats due threads while ready threads wait, then fills the free positions: a due thread goes behind every thread that waits,
the lower slot first (in part DEDUCED, log 56). -/
def Core.boundary (k : Core) : Core :=
  let due := k.due.take k.waiting.length
  let wait := k.waiting
  let k := due.foldl (fun k sl => k.setState sl (.ready k.cyc false)) k
  let free := (span 0 14).filter fun p => (k.seatedAt p).isNone
  let behind := fun sl => match (tabGet {} k.slots sl).st with
    | .ready since b => b && since = k.cyc
    | .free | .seated _ _ | .parked _ | .frozen | .halted _ | .stopped => false
  let order := wait.filter (fun sl => !behind sl) ++ sortBy (fun a b => decide (a < b)) due ++ wait.filter behind
  { k.seatAll free order with boundaryDone := true }

/-- WHEEL_BOUNDARY: the cluster's scheduler makes its pass at the boundary of its first core, a dispatch takes effect, migrants are
seated in slots, and then threads in positions (in part DEDUCED, log 56). -/
def execWheelBoundary (core : Nat) (s : State) : Res :=
  let pass := if core % 8 = 0 then execClusterSchedulerPass (clusterOf core) s else .next s
  match match pass with
    | .next s => s.arrive core
    | .fault f => .fault f
    | .refused r => .refused r with
  | .next s =>
    let s := State.serveQueue core 17 s
    .next (if (s.core core).frozenSwap then s.updCore core fun k => { k with boundaryDone := true } else s.updCore core Core.boundary)
  | .fault f => .fault f
  | .refused r => .refused r

end Sys2Proof.Machine
end

