-- ==== Sys2Proof/Machine/Message.lean ====
section
/-! DEFINITION. Messages: their delivery (spec/13 R279) and the MESSAGE instructions on the mailbox (spec/16 R360 to R362). -/

namespace Sys2Proof.Machine

/-- Messages that a core's mailbox takes: its hardware entries and the residents' overflow areas. -/
def State.mailSize (s : State) (c : Nat) : Nat := 256 + ((s.residents c).foldl (fun n e => n + e.2.depth 3) 0)

/-- Messages held for an evicted instance (spec/18 R377). -/
def heldSize : Nat := 4096

/-- A message reaches its slot's thread, which may wait for it. -/
def State.notify (s : State) (c sl : Nat) : State :=
  let t := s.thread c sl
  match t.wait with
  | some .mail => s.wake c sl
  | _ => s.putThread c sl (t.wakeCause (s.core c).cyc 3)

/-- The core's pair is in its exchange, when messages are held (spec/18 R384). -/
def State.exchanging (s : State) (c : Nat) : Bool :=
  match (s.pair (pairOf c)).phase with
  | .exchanged => true
  | .idle => false
  | .waiting _ => false
  | .preparing _ => false

/-- A message is delivered, held for an evicted instance, or discarded; none where its sender must hold it. -/
def State.accept (s : State) (m : Message) : Option State :=
  match s.inst m.inst with
  | none => some s
  | some i =>
    let c := i.core
    let deliver :=
      let t := s.thread c m.slot
      if s.exchanging c then none
      else if !ofInst m.inst (m.slot, t) then some s
      else if s.mailSize c ≤ (s.core c).mailbox.length then none
      else some ((s.updCore c fun k => { k with mailbox := k.mailbox ++ [{ m with sender := none }] }).notify c m.slot)
    match i.st with
    | .killing => some s
    | .evicted n =>
      (match tabFind s.images n with
        | some g =>
          if heldSize ≤ g.held.length then none
          else some { s with images := tabPut s.images n { g with held := g.held ++ [{ m with sender := none }] } }
        | none => some s)
    | .live => deliver
    | .halting => deliver
    | .halted => deliver

/-- An engine whose message has gone goes on (R279). -/
def State.sent (s : State) (inst : Nat) : Option Sender → State
  | none => s
  | some (.channel k ch) =>
    ((s.updCluster k fun x => { x with channels := tabPut x.channels ch { tabGet ({} : Channel) x.channels ch with run := none } }).emitOnce
      (.copyBeat k ch)).settleInst inst
  | some (.index k j) => s.emitOnce (.indexStep k j)
  | some (.engine k _) => s.emitOnce (.matrixJobStart k)

/-- A message of a sender is still to be delivered. -/
def State.sending (s : State) (x : Sender) : Bool := s.mailFlight.any fun m => m.sender = some x

/-- Delivers the messages for an instance in order, as far as they are accepted; the engines whose messages have gone go on. -/
def State.deliverAll (s : State) (inst : Nat) : List Message → State
  | [] => s
  | m :: r =>
    if m.inst != inst then s.deliverAll inst r
    else
      match s.accept m with
      | none => s.deliverAll inst r
      | some s' => (({ s' with mailFlight := s'.mailFlight.erase m } : State).sent inst m.sender).deliverAll inst r

/-- MAILBOX_DELIVERY. -/
def execMailboxDelivery (inst : Nat) (s : State) : Res := .next (s.deliverAll inst s.mailFlight)

/-- An engine's message starts on its way. -/
def State.post (s : State) (m : Message) : State := { s with mailFlight := s.mailFlight ++ [m] }.emitOnce (.mailboxDelivery m.inst)

/-! EPOP, MB.PEEK, MB.COUNT (R360, R361). -/

/-- A message in X(n) and X(n + 1). -/
def State.putMessage (s : State) (d : BitVec 7) (b : BitVec 128) : State :=
  s.updCur fun t => t.setRegs d.toNat false [b.extractLsb' 0 64, b.extractLsb' 64 64]

def execEpop (d : BitVec 7) (s : State) : Res :=
  heavyOnly (wordEpop d) (limitNumbers (span d.toNat 2) fun s =>
    let t := s.cur
    match (s.core s.ic).oldest t.inst s.is with
    | none => park .mail s
    | some m =>
      if m.half then trap 6 0 s
      else
        acquiring (fun s =>
          let s := s.updCore s.ic fun c => { c with mailbox := dropOldest t.inst s.is c.mailbox }
          doneLatc (((s.acquireMsg s.ic m.body).mailRoom s.ic).putMessage d m.body)) s) s

def execMbPeek (d : BitVec 7) (s : State) : Res :=
  heavyOnly (wordMbPeek d) (limitNumbers (span d.toNat 2) fun s =>
    match (s.core s.ic).oldest s.cur.inst s.is with
    | none => done (s.putMessage d 0xFFFFFFFFFFFFFFFF#128)
    | some m => done (s.putMessage d m.body)) s

def execMbCount (d : BitVec 7) (s : State) : Res :=
  heavyOnly (wordMbCount d) (limit [d] fun s =>
    let n := ((s.core s.ic).mailbox.filter fun m => m.isFor s.cur.inst s.is).length
    done (s.setRd d (BitVec.ofNat 64 n) false)) s

/-! MB.SEND (R362). -/

/-- A live instance: not gone, and not being killed. -/
def State.liveInst (s : State) (n : Nat) : Bool :=
  match s.inst n with
  | some i => i.st != .killing
  | none => false

/-- MB.SEND follows the messages that are already on their way to the instance. -/
def execMbSend (b a : BitVec 7) (s : State) : Res :=
  heavyOnly (wordMbSend b a) (limitNumbers (b.toNat :: span a.toNat 2) fun s =>
    let x := s.cur.regsFrom a.toNat 2
    let y := (s.cur.opnd b).val.toNat
    let slot := fld y 5 0
    let inst := fld y 31 16
    if 60 ≤ slot then trap 6 0 s
    else
      released (fun s =>
        let w := (x.getD 1 0).toNat
        let body := makeMsg (x.getD 0 0).toNat (fld w 31 0) (fld w 47 32) s.cur.space.toNat 8 0
        if !s.liveInst inst then done s
        else
          let s := s.deliverAll inst s.mailFlight
          if s.mailFlight.any fun m => m.inst = inst then park (.room (.mail inst)) s
          else
            match s.accept ⟨inst, slot, body, false, none⟩ with
            | none => park (.room (.mail inst)) s
            | some s => parkAccess (.done true) s) s) s

end Sys2Proof.Machine
end

