-- ==== Sys2Proof/Machine/Rind.lean ====
section
/-! DEFINITION. Rind values and their recompute (spec/15 R324, R325). -/

namespace Sys2Proof.Machine

/-- The sum of a square onto a running sum: a NaN gives NaN, an infinity +∞, else it is exact. -/
def sqAdd (acc v : Val) : Val :=
  match acc, v with
  | .nan, _ => .nan
  | _, .nan => .nan
  | .inf _, _ => .inf false
  | _, .inf _ => .inf false
  | .fin _ _ _, .fin _ _ _ => Dyadic.val (Dyadic.add (Val.dyadic acc) (Dyadic.mul (Val.dyadic v) (Val.dyadic v)))

/-- Positions of rind block b: its first k, and how many. -/
def RindEntry.firstK (r : RindEntry) (b : Nat) : Nat := 32 * (b % r.cols)
def RindEntry.countK (r : RindEntry) (b : Nat) : Nat := min 32 (r.kn - r.firstK b)

/-- Offset of element (l, k). -/
def RindEntry.elemOff (r : RindEntry) (l k : Nat) : Nat := r.base + l * r.pitch + k * r.size

/-- Adds the elements of one line. -/
def addLine (t z : Nat) (acc : List Val) (b : List Byte) : List Val :=
  (acc.zip (unpackLanes (8 * z) (leNat b) acc.length)).map fun p => sqAdd p.1 (toF19 (elemOf t) p.2)

/-- The sums of a rind block over its lines from l on, or the first fault. -/
def State.rindSums (s : State) (r : RindEntry) (b : Nat) : Nat → Nat → List Val → RangeRead × List Val
  | _, 0, acc => (.ok [], acc)
  | l, n + 1, acc =>
    match (s.readBytes (2 ^ 16) ⟨0, BitVec.ofNat 64 (r.elemOff l (r.firstK b))⟩ (r.countK b * r.size)).1 with
    | .ok x => s.rindSums r b (l + 1) n (addLine r.ety r.size acc x)
    | .bad c va => (.bad c va, acc)
    | .hole => (.hole, acc)

/-- Bytes over segments, each written where it stands. -/
def State.writeSegs (s : State) (a : Agent) (l : List Seg) : Nat → List Byte → State
  | _, [] => s
  | off, b :: r =>
    match segFind l off with
    | some pa => State.writeSegs (s.writeHome a none pa [b]) a l (off + 1) r
    | none => State.writeSegs s a l (off + 1) r

/-- GEN of a state word. -/
def State.rindGen (s : State) (r : RindEntry) (b : Nat) : Nat := s.rindWord r b % 2 ^ 31

/-- A recompute has formed a block's values: unless a mark has intervened, they are written, and STALE ← 0 and GEN ← GEN + 1, in one
step. -/
def State.recomputeWrite (s : State) (a : Agent) (r : RindEntry) (b g : Nat) (vals : List (BitVec 32)) : State :=
  if s.rindGen r b = g then
    let s := s.writeSegs a r.values (r.rbase + 4 * (b / r.cols * r.kn + r.firstK b))
      (leBytes (packLanes 32 (vals.map (·.toNat))) (4 * r.countK b))
    s.putRindWord r b ((g + 1) % 2 ^ 31)
  else s

/-- The next stage of a recompute: the elements of the first block are read, with its GEN or the one given; or its values are
written, unless the directory entry has changed. A fault leaves the block stale. -/
def State.rindStage (s : State) (a : Agent) (gen : Option Nat) (w : RindWork) : RangeRead × RindWork × State :=
  match w.todo with
  | [] => (.ok [], w, s)
  | (d, b) :: rest =>
    match tabFind s.hub.directory d with
    | none => (.ok [], { todo := rest }, s)
    | some r =>
      match w.read with
      | some (desc, g, vals) => (.ok [], { todo := rest }, if r.desc = desc then s.recomputeWrite a r b g vals else s)
      | none =>
        let x := s.rindSums r b (128 * (b / r.cols)) 128 ((span 0 (r.countK b)).map fun _ => Val.fin false 0 0)
        match x.1 with
        | .ok _ => (.ok [], { w with read := some (r.desc, gen.getD (s.rindGen r b), x.2.map rneFp32) }, s)
        | .bad c va => (.bad c va, { todo := rest }, s)
        | .hole => (.hole, { todo := rest }, s)

/-- The physical bytes that a write to n bytes at a place touches (spec/10 R234). -/
def Place.physical (p : Place) (n : Nat) : List (Nat × Nat) :=
  match p with
  | .home pa => [(pa, n)]
  | .mx f v _ => ((span (v / 64) ((v + n - 1) / 64 + 1 - v / 64)).map fun k => [(f + 32 * k, 32), (f + 0x100000 + k, 1)]).flatten
  | .window _ _ => []
  | .remote _ _ => []

/-- The blocks that a write to n bytes at a place marks. -/
def State.rindTouched (s : State) (p : Place) (n : Nat) : List (Nat × Nat) :=
  ((p.physical n).map fun x => (s.hub.directory.map fun e => (e.2.touched x.1 x.2).map fun b => (e.1, b)).flatten).flatten

end Sys2Proof.Machine
end

