-- ==== Sys2Proof/Machine/Copy.lean ====
section
/-! DEFINITION. The copy unit (spec/13 R281 to R290) and CP.GO, CP.WP (spec/16 R352, R353). -/

namespace Sys2Proof.Machine

/-! Requests (R282, R283). -/

abbrev CopyReq := BitVec 256

def reqE (b : CopyReq) : Int := signed 8 (fld b.toNat 255 248)
def reqEtype (b : CopyReq) : Nat := fld b.toNat 247 244
def reqMode (b : CopyReq) : Nat := fld b.toNat 243 240
def reqChan (b : CopyReq) : Nat := fld b.toNat 239 236
def reqSlot (b : CopyReq) : Nat := fld b.toNat 235 230
def reqTag (b : CopyReq) : BitVec 16 := b.extractLsb' 176 16
def reqLen (b : CopyReq) : Nat := fld b.toNat 159 128
def reqDst (b : CopyReq) : VAddr := ⟨b.extractLsb' 200 8, b.extractLsb' 64 64⟩
def reqSrc (b : CopyReq) : VAddr := ⟨b.extractLsb' 192 8, b.extractLsb' 0 64⟩

/-- Bytes of an element of the request's type; D8 is n8. -/
def reqSize (b : CopyReq) : Nat := if reqEtype b ≤ 14 then laneWidth (reqEtype b) / 8 else 1

/-- The features that the command needs (spec/25 R445). -/
def State.copyFeature (s : State) (b : CopyReq) : Bool :=
  ((reqDst b).space != 255 || reqMode b = 6 || s.accepted 10) && ((reqSrc b).space != 255 || reqMode b = 5 || s.accepted 10) &&
  (reqMode b < 5 || s.accepted 11)

/-- LEN and the alignments fit the mode's row. -/
def copyFits (b : CopyReq) : Bool :=
  let z := reqSize b
  let len := reqLen b
  let src := (reqSrc b).off.toNat
  let dst := (reqDst b).off.toNat
  match reqMode b with
  | 0 => true
  | 1 => reqEtype b ≤ 14 && len % z = 0 && src % z = 0 && dst % z = 0
  | 2 => reqEtype b ≤ 14 && len % (64 * z) = 0 && src % z = 0 && dst % 8 = 0
  | 3 => reqEtype b ≤ 14 && len % (64 * z) = 0 && dst % z = 0 && src % 8 = 0
  | 4 => (reqEtype b = 2 || reqEtype b = 7 || reqEtype b = 8) && len % z = 0 && dst % 16 = 0
  | 5 => len % 4096 = 0 && (reqSrc b).space = 0
  | 6 => len % 4096 = 0 && (reqDst b).space = 0
  | _ => false

/-- The command is invalid (R283). -/
def State.copyBad (s : State) (b : CopyReq) : Bool :=
  let slot := reqSlot b
  slot = 60 || slot = 61 || slot = 62 || fld b.toNat 229 224 != 0 || fld b.toNat 175 160 != 0 || reqLen b = 0 ||
  !copyFits b || !s.copyFeature b

/-! Element codes (R79, R80). -/

/-- The magnitude bits of a code. -/
def magBits (t : Nat) : Nat :=
  match t with
  | 6 => 0x7F | 7 => 0x7FFF | 8 => 0x7FFFFFFF | 9 => 0x7F | 10 => 0x7F | 11 => 0x1F | 12 => 0x1F | 13 => 7
  | 1 => 0xFFFF | 4 => 0xFFFF | 2 => 0xFFFFFFFF | 5 => 0xFFFFFFFF
  | _ => 0xFF

def isZeroCode (t : Nat) (b : List Byte) : Bool := leNat b &&& magBits t = 0

/-- n elements of z bytes. -/
def elements (z : Nat) : Nat → List Byte → List (List Byte)
  | 0, _ => []
  | n + 1, b => b.take z :: elements z n (b.drop z)

/-- Zero elements land as the +0 code. -/
def squeeze (t z : Nat) (b : List Byte) : List Byte :=
  ((elements z (b.length / z) b).map fun e => if isZeroCode t e then leBytes 0 z else e).flatten

/-- One block of a packed stream (R287). -/
def packBlock (t z : Nat) (b : List Byte) : List Byte :=
  let es := elements z 64 b
  let mask := packLanes 1 (es.map fun e => if isZeroCode t e then 0 else 1)
  let body := (es.filter fun e => !isZeroCode t e).flatten
  leBytes mask 8 ++ body ++ leBytes 0 ((8 - body.length % 8) % 8)

/-- Ones of a mask of 64 elements. -/
def maskCount (m : Nat) : Nat := ((span 0 64).filter fun i => m.testBit i).length

/-- The dense elements of a block. -/
def unpackBlock (t z mask : Nat) : Nat → List Byte → List Byte
  | 0, _ => []
  | n + 1, b =>
    if mask.testBit (63 - n) then
      (if isZeroCode t (b.take z) then leBytes 0 z else b.take z) ++ unpackBlock t z mask n (b.drop z)
    else leBytes 0 z ++ unpackBlock t z mask n b

/-! Source lines (R284). -/

/-- Where the poison of a kept line stands. -/
def badLine (n : Nat) : Nat := 2 ^ 64 + n

/-- A drive's bytes (R289): a namespace and a 4 KiB block (in part PRESUMED, log 13). -/
def driveAddr (off : Nat) : Nat := 2 ^ 64 + off * 4096

/-- What reading the source answers. -/
inductive SourceRead where
  | ok (b : List Byte)
  | bad (cause : Nat) (va : VAddr)
  | hole
  deriving DecidableEq, Repr

/-- The sectors of a line at a place: bytes, and a mask of poisoned ones. -/
def State.lineSectors (s : State) (p : Place) : Nat → List Byte × Nat × State
  | 0 => ([], 0, s)
  | n + 1 =>
    let a := s.lineSectors p n
    let r := a.2.2.readPlace (p.plus (32 * n)) 32
    (a.1 ++ r.1, if r.2.1.isSome then a.2.1 + (2 ^ 32 - 1) * 2 ^ (32 * n) else a.2.1, r.2.2)

/-- Keeps the 128-byte lines from line n on, each read in one step at its home. -/
def State.keepLines (s : State) (inst : Nat) (sp : BitVec 8) (lines : Tab (BitVec 1024)) : Nat → Nat → SourceRead × Tab (BitVec 1024) × State
  | _, 0 => (.ok [], lines, s)
  | n, k + 1 =>
    match tabFind lines n with
    | some _ => s.keepLines inst sp lines (n + 1) k
    | none =>
      let va : VAddr := ⟨sp, BitVec.ofNat 64 (128 * n)⟩
      match s.engineTarget inst { r := true } va with
      | .ok t =>
        let r := (s.sliceUse t 128 false).lineSectors t.place 4
        let lines := tabPut lines n (BitVec.ofNat 1024 (leNat r.1))
        let lines := if r.2.1 = 0 then lines else tabPut lines (badLine n) (BitVec.ofNat 1024 r.2.1)
        r.2.2.keepLines inst sp lines (n + 1) k
      | .window => (.bad 7 va, lines, s)
      | .access | .miss => (.bad 3 va, lines, s)
      | .page => (.bad 4 va, lines, s)
      | .hole => (.hole, lines, s)

/-- n bytes of kept lines from an offset on, unless one is poisoned. -/
def lineBytes (lines : Tab (BitVec 1024)) (off : Nat) : Nat → Option (List Byte)
  | 0 => some []
  | n + 1 =>
    if (tabGet 0 lines (badLine (off / 128))).getLsbD (off % 128) then none
    else (lineBytes lines (off + 1) n).map fun r => (tabGet 0 lines (off / 128)).extractLsb' (8 * (off % 128)) 8 :: r

/-- Source bytes of a command from its position on. -/
def State.source (s : State) (run : CopyRun) (n : Nat) : SourceRead × CopyRun × State :=
  if reqMode run.body = 5 then
    (.ok (memRead s.ext (driveAddr (reqSrc run.body).off.toNat + run.source) n), run, s)
  else
    let sp := (reqSrc run.body).space
    let off := ((reqSrc run.body).off + BitVec.ofNat 64 run.source).toNat
    let r := s.keepLines (reqInst run.body) sp run.lines (off / 128) ((off + n - 1) / 128 + 1 - off / 128)
    match r.1 with
    | .ok _ =>
      let lines := r.2.1
      (match lineBytes lines off n with
        | some b => (.ok b, { run with lines := lines }, r.2.2)
        | none => (.bad 12 ⟨sp, BitVec.ofNat 64 off⟩, { run with lines := lines }, r.2.2))
    | .bad c va => (.bad c va, { run with lines := r.2.1 }, r.2.2)
    | .hole => (.hole, run, s)

/-- Lines below the source position are needed no more. -/
def CopyRun.trim (run : CopyRun) : CopyRun :=
  let line := ((reqSrc run.body).off.toNat + run.source) / 128
  { run with lines := run.lines.filter fun e => line ≤ e.1 % 2 ^ 64 }

/-! Producing destination bytes. -/

/-- Source bytes that the next unit takes. -/
def CopyRun.unit (run : CopyRun) : Nat :=
  let z := reqSize run.body
  let left := reqLen run.body - run.source
  match reqMode run.body with
  | 2 => 64 * z
  | 4 => z
  | _ => min left (128 - ((reqSrc run.body).off.toNat + run.source) % 128)

/-- The command has produced all of its destination. -/
def CopyRun.full (run : CopyRun) : Bool :=
  if reqMode run.body = 3 then decide (reqLen run.body ≤ run.done + run.pending.length)
  else decide (reqLen run.body ≤ run.source)

/-- Takes a unit of bytes from the source. -/
def CopyRun.take (run : CopyRun) (n : Nat) (out : List Byte) : CopyRun :=
  CopyRun.trim { run with source := run.source + n, pending := run.pending ++ out }

/-- Produces one unit: bytes, one packed block, one unpacked block, or one vat contribution, which stands for the 16 bytes of its
element. -/
def State.produce (s : State) (run : CopyRun) : SourceRead × CopyRun × State :=
  let z := reqSize run.body
  let t := reqEtype run.body
  if reqMode run.body = 3 then
    let m := s.source run 8
    match m.1 with
    | .ok b =>
      let mask := leNat b
      let n := maskCount mask * z
      let r := m.2.2.source { m.2.1 with source := run.source + 8 } (max n 1)
      let go := fun (b : List Byte) (run : CopyRun) (s : State) =>
        (SourceRead.ok [], { run with source := run.source - 8 }.take (8 + (n + 7) / 8 * 8) (unpackBlock t z mask 64 b), s)
      if n = 0 then go [] { m.2.1 with source := run.source + 8 } m.2.2
      else
        match r.1 with
        | .ok b => go b r.2.1 r.2.2
        | .bad c va => (.bad c va, { r.2.1 with source := run.source }, r.2.2)
        | .hole => (.hole, run, s)
    | .bad c va => (.bad c va, m.2.1, m.2.2)
    | .hole => (.hole, run, s)
  else
    let n := run.unit
    let r := s.source run n
    match r.1 with
    | .ok b =>
      let out := match reqMode run.body with
        | 1 => squeeze t z b
        | 2 => packBlock t z b
        | 4 => b ++ leBytes 0 (16 - z)
        | _ => b
      (.ok [], r.2.1.take n out, r.2.2)
    | .bad c va => (.bad c va, r.2.1, r.2.2)
    | .hole => (.hole, run, s)

/-- Produces until n bytes are there, or the source is used up. -/
def State.produceTo (s : State) (n : Nat) : Nat → CopyRun → SourceRead × CopyRun × State
  | 0, run => (.ok [], run, s)
  | fuel + 1, run =>
    if n ≤ run.pending.length || run.full then (.ok [], run, s)
    else
      let r := s.produce run
      match r.1 with
      | .ok _ => r.2.2.produceTo n fuel r.2.1
      | .bad c va => (.bad c va, r.2.1, r.2.2)
      | .hole => (.hole, r.2.1, r.2.2)

/-! Beats. -/

def Cluster.channel (k : Cluster) (ch : Nat) : Channel := tabGet {} k.channels ch

def State.updChannel (s : State) (k ch : Nat) (f : Channel → Channel) : State :=
  s.updCluster k fun c => { c with channels := tabPut c.channels ch (f (c.channel ch)) }

/-- The write pointer counts destination bytes performed, and source bytes read for a drive (R285). -/
def State.putRun (s : State) (k ch : Nat) (r : CopyRun) : State :=
  s.updChannel k ch fun c => { c with run := some r, done := if reqMode r.body = 6 then r.source else r.done }

/-- A closed gate may open (spec/14 R309). -/
def State.gateMoved (s : State) (k : Nat) : State :=
  if (s.cluster k).jobs.any fun e => e.2.st = .accepted then s.emitOnce (.matrixJobStart k) else s

/-- The command ends with a status; its message is its completion's. -/
def State.endCopy (s : State) (k ch : Nat) (run : CopyRun) (status : Nat) : State :=
  (s.putRun k ch { run with status := some (BitVec.ofNat 4 status), lines := [], pending := [] }).emitOnce (.copyCompletion k ch)

/-- A fault parks the command with a record to the kernel, or ends it (R286, R290). -/
def State.copyFault (s : State) (k ch : Nat) (run : CopyRun) (kind : AccessKind) (cause : Nat) (va : VAddr) : State :=
  match cause with
  | 12 => s.endCopy k ch run 3
  | 7 => s.endCopy k ch run 4
  | _ => (s.fault (.copy k ch) kind va cause (reqInst run.body)).putRun k ch { run with fault := some s.serial }

/-- The exact contribution of a vat copy (R288). -/
def contribution (b : CopyReq) (e : List Byte) : Val := Elem.decode (elemOf (reqEtype b)) (leNat (e.take (reqSize b)))

/-- The old elements of a beat; none when one is poisoned. -/
def State.vatBeat (s : State) (p : Place) (e : Int) : List Val → Option (List (Nat × BitVec 128))
  | [] => some []
  | x :: r =>
    let v := s.readPlace p 16
    if v.2.1.isSome then none
    else (s.vatBeat (p.plus 16) e r).map fun l => (leNat v.1, vatAdd (BitVec.ofNat 128 (leNat v.1)) x e) :: l

/-- Performs a beat of bytes at a target. -/
def State.performBeat (s : State) (k : Nat) (run : CopyRun) (t : Target) (b : List Byte) : Option State :=
  if reqMode run.body = 4 then
    let s := s.takeBack (.cluster k) t b.length
    (s.vatBeat t.place (reqE run.body) ((elements 16 (b.length / 16) b).map (contribution run.body))).map fun l =>
      s.writeTarget (.cluster k) t ((l.map fun x => leBytes x.2.toNat 16).flatten)
  else some (s.writeTarget (.cluster k) t b)

/-- The state after n more destination bytes. -/
def State.beatDone (s : State) (k ch : Nat) (run : CopyRun) (n : Nat) : State :=
  let run := { run with done := run.done + n, pending := run.pending.drop n, beaten := 0, rind := {} }
  let s := (s.putRun k ch run).gateMoved k
  if run.full && run.pending = [] then s.endCopy k ch run 0 else s.emitOnce (.copyBeat k ch)

/-- A beat of n bytes is performed: the rind blocks that it marked are recomputed before DONE counts it (spec/15 R325). -/
def State.beatMade (s : State) (k ch : Nat) (run : CopyRun) (n : Nat) (marked : List (Nat × Nat)) : State :=
  if marked = [] then s.beatDone k ch run n
  else (s.putRun k ch { run with beaten := n, rind := { todo := marked } }).emitOnce (.copyBeat k ch)

/-- The next stage of the recompute that follows a beat. -/
def State.beatRind (s : State) (k ch : Nat) (run : CopyRun) : State :=
  let x := s.rindStage (.cluster k) none run.rind
  if x.2.1.todo = [] then x.2.2.beatDone k ch run run.beaten
  else (x.2.2.putRun k ch { run with rind := x.2.1 }).emitOnce (.copyBeat k ch)

/-- One write beat of a running command (R284): at most 64 bytes within one block (in part DEDUCED, log 31). -/
def State.beat (s : State) (k ch : Nat) (run : CopyRun) : Res :=
  let va := VAddr.plus (reqDst run.body) run.done
  let room := 64 - va.off.toNat % 64
  let r := s.produceTo room 64 run
  match r.1 with
  | .hole => .fault .nothingThere
  | .bad c v => .next (r.2.2.copyFault k ch r.2.1 .read c v)
  | .ok _ =>
    let s := r.2.2
    let run := r.2.1
    let b := run.pending.take room
    if reqMode run.body = 6 then
      .next ({ s with ext := memWrite s.ext (driveAddr (reqDst run.body).off.toNat + run.done) b }.beatDone k ch run b.length)
    else
      let need : Need := { r := reqMode run.body = 4, w := true }
      match s.engineTarget (reqInst run.body) need va with
      | .hole => .fault .nothingThere
      | .window => .next (s.copyFault k ch run need.kind 7 va)
      | .access | .miss => .next (s.copyFault k ch run need.kind 3 va)
      | .page => .next (s.copyFault k ch run need.kind 4 va)
      | .ok t =>
        let view : Bool := match t.place with
          | .mx _ _ _ => reqMode run.body = 4
          | .window _ _ | .home _ | .remote _ _ => false
        let held : Bool := match t.place with
          | .window c _ => s.exchanging c
          | .home _ | .mx _ _ _ | .remote _ _ => false
        if view then .next (s.copyFault k ch run need.kind 3 va)
        else if held || s.pinned t.place then .next (s.putRun k ch run)
        else
          (s.putRun k ch run).arbitrate t.place b.length (.copyBeat k ch) fun s =>
            match s.performBeat k run t b with
            | some s => .next (s.beatMade k ch run b.length (s.rindTouched t.place b.length))
            | none => .next (s.endCopy k ch run 3)

/-- The oldest command of a channel, and the others (in part DEDUCED, log 31). -/
def nextCommand (ch : Nat) : List CopyReq → Option (CopyReq × List CopyReq)
  | [] => none
  | b :: r => if reqChan b = ch then some (b, r) else (nextCommand ch r).map fun x => (x.1, b :: x.2)

/-- The channel takes its next command (in part DEDUCED, log 31). -/
def State.startCopy (s : State) (k ch : Nat) : State :=
  match nextCommand ch (s.cluster k).copyQueue with
  | none => s
  | some (b, rest) =>
    let s := s.updCluster k fun c => { c with copyQueue := rest }
    let run : CopyRun := { body := b }
    let s := s.updChannel k ch fun c =>
      { c with run := some run, ctag := reqTag b, done := 0, dst := if reqMode b = 6 then none else some (reqDst b) }
    let s := (s.updInst (reqInst b) fun i => { i with foreign := true }).gateMoved k
    let s := (span (8 * k) 8).foldl (fun s c => s.wakeIf c (isRoom (.copy k))) s
    if s.copyBad b then s.endCopy k ch run 1 else s.emitOnce (.copyBeat k ch)

/-- The command reads or writes the window of an evicted instance: it pauses (spec/18 R377). -/
def State.copyPaused (s : State) (b : CopyReq) : Bool :=
  match s.inst (reqInst b) with
  | some i => !i.resident && (s.region (reqDst b) = .window || s.region (reqSrc b) = .window)
  | none => false

/-- COPY_BEAT: the channel's next beat, or its next command (in part DEDUCED, log 31). -/
def execCopyBeat (cluster chan : Nat) (s : State) : Res :=
  match ((s.cluster cluster).channel chan).run with
  | none => .next (s.startCopy cluster chan)
  | some run =>
    if run.status.isSome || run.fault.isSome || s.copyPaused run.body then .next s
    else if run.rind.todo != [] then .next (s.beatRind cluster chan run)
    else s.beat cluster chan run

/-- COPY_COMPLETION: the message of a command that has ended; the channel goes on once it is delivered (R279). -/
def execCopyCompletion (cluster chan : Nat) (s : State) : Res :=
  match ((s.cluster cluster).channel chan).run with
  | some run =>
    match run.status with
    | none => .next s
    | some st =>
      let b := run.body
      let s := s.updChannel cluster chan fun c => { c with last := some (reqTag b) }
      let s := s.gateMoved cluster
      if reqSlot b = 63 then
        .next (((s.updChannel cluster chan fun c => { c with run := none }).emitOnce (.copyBeat cluster chan)).settleInst (reqInst b))
      else
        let body := makeMsg (reqDst b).off.toNat (min run.done 0xFFFFFFFF) (reqTag b).toNat (reqDst b).space.toNat 0 st.toNat
        let m : Message := ⟨reqInst b, reqSlot b, body, false, some (.channel cluster chan)⟩
        .next (if s.mailFlight.contains m then s else s.post m)
  | none => .next s

/-- An error of the host or a drive ends a command that reaches it (R289). -/
def State.copyError (s : State) (k ch : Nat) : State :=
  match ((s.cluster k).channel ch).run with
  | some run =>
    let b := run.body
    let outside := reqMode b = 5 || reqMode b = 6 || (reqDst b).space = 255 || (reqSrc b).space = 255
    if run.status.isNone && run.fault.isNone && run.rind.todo = [] && outside then s.endCopy k ch run 5 else s
  | none => s

/-! CP.GO and CP.WP. -/

def copyQueueSize : Nat := 64

/-- CP.GO (R352), with its word for the trap and what is written when the push is made. -/
def pushCopy (w : InstrWord) (a : BitVec 7) (fin : State → State) (s : State) : Res :=
  if s.cur.light || s.is != 62 then illegal w s
  else
    limitNumbers (span a.toNat 4) (fun s =>
      let k := clusterOf s.ic
      let b := fourWords (s.cur.regsFrom a.toNat 4)
      if copyQueueSize ≤ (s.cluster k).copyQueue.length then park (.room (.copy k)) s
      else
        released (fun s =>
          doneLatc (((fin s).updCluster k fun c => { c with copyQueue := c.copyQueue ++ [b] }).emitOnce (.copyBeat k (reqChan b)))) s) s

def execCpGo (a : BitVec 7) (s : State) : Res := pushCopy (wordCpGo a) a id s

/-- CP.WP (R353, R285): an acquire of the bytes below DONE. -/
def execCpWp (a d : BitVec 7) (s : State) : Res :=
  heavyOnly (wordCpWp a d) (limit [a, d] fun s =>
    let c := (s.cluster (clusterOf s.ic)).channel (fld (s.cur.opnd a).val.toNat 3 0)
    acquiring (fun s =>
      let s := match c.dst with
        | some va => s.acquireBytes s.ic va.space va.off.toNat c.done
        | none => s
      done (s.setRd d (BitVec.ofNat 64 (c.ctag.toNat * 2 ^ 48 + c.done % 2 ^ 48)) false)) s) s

end Sys2Proof.Machine
end

