-- ==== Sys2Proof/Machine/Index.lean ====
section
/-! DEFINITION. The index engine (spec/13 R291 to R294) and IX.GO, IX.RESUME (spec/16 R354). -/

namespace Sys2Proof.Machine

/-! Descriptors (R291). -/

abbrev IndexDesc := BitVec 512

def ixTbl (d : IndexDesc) : Word := d.extractLsb' 448 64
def ixBuf (d : IndexDesc) : Word := d.extractLsb' 384 64
def ixIdx (d : IndexDesc) : Word := d.extractLsb' 320 64
def ixCur (d : IndexDesc) : Word := d.extractLsb' 256 64
def ixCount (d : IndexDesc) : Nat := fld d.toNat 255 224
def ixRows (d : IndexDesc) : Nat := fld d.toNat 223 192
def ixRowb (d : IndexDesc) : Nat := fld d.toNat 191 176
def ixE (d : IndexDesc) : Int := signed 8 (fld d.toNat 175 168)
def ixOp (d : IndexDesc) : Nat := fld d.toNat 167 164
def ixSlot (d : IndexDesc) : Nat := fld d.toNat 163 158
def ixSpace (d : IndexDesc) : BitVec 8 := d.extractLsb' 144 8
def ixRt (d : IndexDesc) : Bool := d.getLsbD 143

/-- Bytes from one table row to the next. -/
def ixStride (d : IndexDesc) : Nat := if ixOp d = 2 then 4 * ixRowb d else ixRowb d

/-- A reserved bit, OP or a field out of range (R292). -/
def ixBad (d : IndexDesc) : Bool :=
  fld d.toNat 157 152 != 0 || fld d.toNat 142 0 != 0 || 2 < ixOp d || ixCount d = 0 || ixRows d = 0 || ixRowb d = 0 ||
  ixRowb d % 4 != 0 || 60 ≤ ixSlot d || (ixTbl d).toNat % 16 != 0 || (ixBuf d).toNat % 4 != 0 || (ixIdx d).toNat % 4 != 0 ||
  (ixCur d).toNat % 16 != 0

/-- An address of the descriptor's space. -/
def ixAt (d : IndexDesc) (base : Word) (n : Nat) : VAddr := ⟨ixSpace d, base + BitVec.ofNat 64 n⟩

/-! Jobs. -/

def indexSlots : Nat := 4

def State.putIndex (s : State) (k j : Nat) (x : IndexJob) : State :=
  s.updCluster k fun c => { c with indexJobs := tabPut c.indexJobs j x }

/-- A job leaves its slot, which takes the next command. -/
def State.freeIndex (s : State) (k j inst : Nat) : State :=
  ((s.updCluster k fun c => { c with indexJobs := tabDel c.indexJobs j }).emitOnce (.indexStep k j)).settleInst inst

/-- The message of an index job that ends, whose slot waits for its delivery (R279). -/
def State.indexMessage (s : State) (k j : Nat) (x : IndexJob) (d : IndexDesc) (addr len kind status : Nat) : State :=
  ((s.putIndex k j { x with ended := true }).post
    ⟨x.cmd.inst, ixSlot d, makeMsg addr len 0 (ixSpace d).toNat kind status, false, some (.index k j)⟩).settleInst x.cmd.inst

/-- The job completes with a KIND 1 message: a gather's names what it wrote, a scatter's all memory. -/
def State.endIndex (s : State) (k j : Nat) (x : IndexJob) (d : IndexDesc) : State :=
  if ixOp d = 0 then s.indexMessage k j x d (ixBuf d).toNat (min (ixCount d * ixRowb d) 0xFFFFFFFF) 1 0
  else s.indexMessage k j x d 0 0xFFFFFFFF 1 0

/-- The job suspends (R292, R293): its progress record, and a KIND 2 message that names it (in part DEDUCED, log 32). -/
def State.suspend (s : State) (k j : Nat) (x : IndexJob) (d : IndexDesc) (kval status : Nat) : State :=
  let record := leBytes (x.next + status * 2 ^ 64 + kval % 2 ^ 32 * 2 ^ 96) 16
  let s := match s.plan x.cmd.inst { w := true } ⟨ixSpace d, ixCur d⟩ 16 with
    | .ok l => s.writePlan (.cluster k) l record
    | .bad _ _ => s
    | .hole => s
  s.indexMessage k j x d (ixCur d).toNat 16 2 status

/-- The STATUS of a fault's cause (in part DEDUCED, log 32). -/
def suspendStatus (cause : Nat) : Nat :=
  match cause with
  | 12 => 3
  | 7 => 4
  | _ => 2

/-! Routing (R294). -/

def Cluster.route (k : Cluster) (e : Nat) : Route := tabGet {} k.routes e

/-- The row of expert e for index i. -/
def Route.row (r : Route) (i : Nat) : Nat :=
  if r.sel then r.rowB.toNat + i % (r.nrepB.toNat + 1) else r.rowA.toNat + i % (r.nrepA.toNat + 1)

/-- A lookup counts; when the hub's threshold is reached the kernel is told. -/
def State.countHit (s : State) (k e : Nat) : State :=
  let r := (s.cluster k).route e
  let hits := if r.hits = 0xFFFFFFFF#32 then r.hits else r.hits + 1
  let hot := !r.pend && decide (s.hub.rtthr.toNat ≤ hits.toNat)
  let s := s.updCluster k fun c => { c with routes := tabPut c.routes e { r with hits := hits, pend := r.pend || hot } }
  if hot then s.record (.hotExpert k e) else s

/-- The row of an index value, or none for a bad index; the state has counted the lookup. -/
def State.lookup (s : State) (k : Nat) (d : IndexDesc) (v i : Nat) : Nat × Bool × State :=
  if !ixRt d then (v, decide (v < ixRows d), s)
  else if 1024 ≤ v then (v, false, s)
  else
    let row := ((s.cluster k).route v).row i
    (row, decide (row < ixRows d), s.countHit k v)

/-! One index (R292). -/

/-- The vat elements of a row, old ones in order, become new ones; none when one is poisoned. -/
def State.vatRow (s : State) (e : Int) : List (Target × Nat) → List Val → Option (List (List Byte))
  | [], _ => some []
  | (t, n) :: r, l =>
    match s.vatBeat t.place e (l.take (n / 16)) with
    | none => none
    | some v => (s.vatRow e r (l.drop (n / 16))).map fun x => ((v.map fun y => leBytes y.2.toNat 16).flatten) :: x

/-- A plan reaches an alias page. -/
def planView (l : List (Target × Nat)) : Bool :=
  l.any fun x => match x.1.place with
    | .mx _ _ _ => true
    | .window _ _ | .home _ | .remote _ _ => false

/-- Moves row k for index i, or suspends. -/
def State.moveRow (s : State) (c j : Nat) (x : IndexJob) (d : IndexDesc) (k : Nat) : Res :=
  let i := x.next
  let inst := x.cmd.inst
  let table := ixAt d (ixTbl d) (k * ixStride d)
  let dense := ixAt d (ixBuf d) (i * ixRowb d)
  let src := if ixOp d = 0 then table else dense
  let dst := if ixOp d = 0 then dense else table
  let r := s.readBytes inst src (ixRowb d)
  match r.1 with
  | .hole => .fault .nothingThere
  | .bad cause _ => .next (r.2.suspend c j x d k (suspendStatus cause))
  | .ok b =>
    let s := r.2
    match s.plan inst { r := ixOp d = 2, w := true } dst (if ixOp d = 2 then 4 * ixRowb d else ixRowb d) with
    | .hole => .fault .nothingThere
    | .bad cause _ => .next (s.suspend c j x d k (suspendStatus cause))
    | .ok l =>
      if ixOp d = 2 && planView l then .next (s.suspend c j x d k 2)
      else
        let bytes :=
          if ixOp d = 2 then
            (s.vatRow (ixE d) l ((unpackLanes 32 (leNat b) (ixRowb d / 4)).map (Fmt.decode .fp32))).map List.flatten
          else some b
        match bytes with
        | none => .next (s.suspend c j x d k 3)
        | some b =>
          let s := s.writePlan (.cluster c) l b
          let x := { x with next := i + 1 }
          if i + 1 = ixCount d then .next ((s.putIndex c j x).endIndex c j x d)
          else .next ((s.putIndex c j x).emit (.indexStep c j))

/-- A pin or an exchange holds a write over a plan. -/
def State.planHeld (s : State) (p : RangePlan) : Bool :=
  match p with
  | .ok l => s.planPinned Config.clusters l || l.any fun t => match t.1.place with
      | .window c _ => s.exchanging c
      | .home _ | .mx _ _ _ | .remote _ _ => false
  | .bad _ _ => false
  | .hole => false

/-- The destination of index i is held by a pin or an exchange. -/
def State.rowHeld (s : State) (x : IndexJob) (d : IndexDesc) (k : Nat) : Bool :=
  let dst := if ixOp d = 0 then ixAt d (ixBuf d) (x.next * ixRowb d) else ixAt d (ixTbl d) (k * ixStride d)
  s.planHeld (s.plan x.cmd.inst { w := true } dst (if ixOp d = 2 then 4 * ixRowb d else ixRowb d))

/-- The job's progress record is held by a pin or an exchange. -/
def State.recordHeld (s : State) (x : IndexJob) (d : IndexDesc) : Bool := s.planHeld (s.plan x.cmd.inst { w := true } ⟨ixSpace d, ixCur d⟩ 16)

/-- The job's next index (in part DEDUCED, log 32). -/
def State.indexOne (s : State) (c j : Nat) (x : IndexJob) (d : IndexDesc) : Res :=
  let r := s.readBytes x.cmd.inst (ixAt d (ixIdx d) (4 * x.next)) 4
  match r.1 with
  | .hole => .fault .nothingThere
  | .bad cause _ => .next (r.2.suspend c j x d 0 (suspendStatus cause))
  | .ok b =>
    let y := r.2.lookup c d (leNat b) x.next
    if !y.2.1 then .next (y.2.2.suspend c j x d y.1 1)
    else if s.rowHeld x d y.1 then .next s
    else y.2.2.moveRow c j x d y.1

/-! Starting a job. -/

/-- The descriptor has been read: it is checked, and a resumed job reads its record. -/
def State.beginIndex (s : State) (c j : Nat) (x : IndexJob) (d : IndexDesc) : State :=
  let x := { x with desc := some d }
  if ixBad d then s.suspend c j x d 0 5
  else if !x.cmd.resume then (s.putIndex c j x).emit (.indexStep c j)
  else
    let r := s.readBytes x.cmd.inst ⟨ixSpace d, ixCur d⟩ 16
    match r.1 with
    | .ok b =>
      let x := { x with next := fld (leNat b) 63 0 }
      if ixCount d ≤ x.next then r.2.endIndex c j x d else (r.2.putIndex c j x).emit (.indexStep c j)
    | .bad _ _ => r.2.suspend c j x d 0 2
    | .hole => r.2.suspend c j x d 0 2

/-- The engine reads a job's descriptor (DEDUCED, log 16). -/
def State.readIndex (s : State) (c j : Nat) (x : IndexJob) : Res :=
  let r := s.readBytes x.cmd.inst x.cmd.addr 64
  match r.1 with
  | .hole => .fault .nothingThere
  | .ok b =>
    let d : IndexDesc := BitVec.ofNat 512 (leNat b)
    .next (if s.recordHeld x d then s else r.2.beginIndex c j x d)
  | .bad cause va =>
    if cause = 3 || cause = 4 then
      .next ((s.fault (.index c j) .read va cause x.cmd.inst).putIndex c j { x with fault := some s.serial })
    else .next (r.2.freeIndex c j x.cmd.inst)

/-- The instance lets its engines run. -/
def State.runs (s : State) (inst : Nat) : Bool := s.issues inst

/-- INDEX_STEP: one index of a job, its descriptor's read, the end of one whose message has been delivered, or the next command of a
free slot. -/
def execIndexStep (cluster job : Nat) (s : State) : Res :=
  match tabFind (s.cluster cluster).indexJobs job with
  | some x =>
    if x.ended then .next (if s.sending (.index cluster job) then s else s.freeIndex cluster job x.cmd.inst)
    else if x.fault.isSome || !s.runs x.cmd.inst then .next s
    else
      match x.desc with
      | none => s.readIndex cluster job x
      | some d => if s.recordHeld x d then .next s else s.indexOne cluster job x d
  | none =>
    match (s.cluster cluster).indexQueue with
    | [] => .next s
    | q :: r =>
      if indexSlots ≤ job then .next s
      else
        let s := s.updCluster cluster fun c => { c with indexQueue := r }
        let s := s.updInst q.inst fun i => { i with foreign := true }
        let s := (span (8 * cluster) 8).foldl (fun s c => s.wakeIf c (isRoom (.index cluster))) s
        .next ((s.putIndex cluster job { cmd := q }).emit (.indexStep cluster job))

/-! IX.GO and IX.RESUME. -/

def indexQueueSize : Nat := 32

/-- A free job slot takes a command. -/
def State.kickIndex (s : State) (k : Nat) : State :=
  match (span 0 indexSlots).find? fun j => (tabFind (s.cluster k).indexJobs j).isNone with
  | some j => s.emitOnce (.indexStep k j)
  | none => s

/-- Pushes a descriptor's address (R354), and makes what is written with it. -/
def pushIndex (w : InstrWord) (resume : Bool) (a : BitVec 7) (fin : State → State) (s : State) : Res :=
  if s.cur.light || !s.accepted 7 then illegal w s
  else
    limit [a] (fun s =>
      let va := s.dataAddr (s.cur.opnd a).val
      access { r := true } 64 va (fun _ s =>
        let k := clusterOf s.ic
        if indexQueueSize ≤ (s.cluster k).indexQueue.length then park (.room (.index k)) s
        else
          released (fun s =>
            doneLatc (((fin s).updCluster k fun c => { c with indexQueue := c.indexQueue ++ [⟨va, s.cur.inst, resume⟩] }).kickIndex k)) s) s) s

def execIxGo (a : BitVec 7) (s : State) : Res := pushIndex (wordIxGo a) false a id s
def execIxResume (a : BitVec 7) (s : State) : Res := pushIndex (wordIxResume a) true a id s

end Sys2Proof.Machine
end

