-- ==== Sys2Proof/Machine/Vats.lean ====
section
/-! DEFINITION. The TENSOR instructions on vats (spec/16 R355, R356), seed slots (R357, R358) and the decode table (R359). -/

namespace Sys2Proof.Machine

/-! Accesses over several pages. -/

/-- The translation of a page after an access's first one: a miss is served in place (DEDUCED, log 17). -/
def State.xlateHere (s : State) (need : Need) (va : VAddr) : Xlate × State :=
  match s.xlate s.ic s.is need va with
  | .miss =>
    let r := s.refillTlb s.ic va
    (match r.1 with
      | .leaf base _ leaf kind => leafXlate va base leaf kind need (!s.cur.supervisor)
      | .access => .access
      | .page => .page
      | .hole => .hole, r.2)
  | .ok t => (.ok t, s)
  | .window => (.window, s)
  | .access => (.access, s)
  | .page => (.page, s)
  | .hole => (.hole, s)

/-- Translates n bytes page by page, in ascending order; the first fault is reported. -/
def accessPages (need : Need) : Nat → VAddr → Nat → (List (Target × Nat) → State → Res) → State → Res
  | 0, _, _, k, s => k [] s
  | fuel + 1, va, n, k, s =>
    if n = 0 then k [] s
    else
      let m := pageRun va n
      let r := s.xlateHere need va
      match r.1 with
      | .ok t =>
        if r.2.unreachable t then parkFault 3 need.kind va r.2
        else accessPages need fuel (VAddr.plus va m) (n - m) (fun l s => k ((t, m) :: l) s) r.2
      | .miss => parkWalk va need.kind r.2
      | .window => trapAt 7 va r.2
      | .access => parkFault 3 need.kind va r.2
      | .page => parkFault (if r.2.lostSpace va.space then 3 else 4) need.kind va r.2
      | .hole => .fault .nothingThere

/-- An access to n bytes: the first page as any access, then the others. -/
def accessBytes (need : Need) (align n : Nat) (va : VAddr) (k : List (Target × Nat) → State → Res) (s : State) : Res :=
  access need align va (fun t s =>
    let m := pageRun va n
    accessPages need (n / 4096 + 2) (VAddr.plus va m) (n - m) (fun l s => k ((t, m) :: l) s) s) s

/-- A run reaches an alias page. -/
def viewIn (l : List (Target × Nat)) : Option VAddr :=
  l.findSome? fun x => match x.1.place with
    | .mx _ _ _ => some x.1.va
    | .home _ | .window _ _ | .remote _ _ => none

/-- The thread's pending REDs touch a run. -/
def Thread.redIn (t : Thread) (l : List (Target × Nat)) : Bool := l.any fun x => t.redOverlap x.1.place x.2

/-! VAT.INIT (R355). -/

/-- Elements that one VAT.INIT may clear. -/
def vatMost : Nat := 2 ^ 24

/-- Zeros over the runs of a translation, at their homes. -/
def State.clearRuns (s : State) (l : List (Target × Nat)) : State :=
  l.foldl (fun s x => s.writeFor s.ic s.is true x.1 (leBytes 0 x.2)) s

def execVatInit (b a d : BitVec 7) (s : State) : Res :=
  heavyOnly (wordVatInit b a d) (limit [a, b, d] fun s =>
    let va := s.dataAddr (s.cur.opnd a).val
    let n := (s.cur.opnd b).val.toNat
    if va.off.toNat % 16 != 0 then trapAt 2 va s
    else if n = 0 || vatMost < n then status d 4 s
    else
      accessBytes { w := true } 16 (16 * n) va (fun l s =>
        match viewIn l with
        | some x => parkFault 3 .write x s
        | none =>
          if s.cur.redIn l then park .reds s
          else if s.planPinned Config.clusters l then park (.room .pin) s
          else statusAway d 0 (s.clearRuns l)) s) s

/-! VAT.CVT (R356). -/

/-- The control word asks for no conversion (in part DEDUCED, log 33). -/
def vatBad (control : Word) : Bool :=
  let f := fld control.toNat 11 8
  fld control.toNat 63 15 != 0 || (11 ≤ f && f ≤ 14)

/-- The result of a target type in rd. -/
def vatResult (f code : Nat) : Word :=
  match elemOf f with
  | .int w true => BitVec.ofInt 64 (signed w code)
  | .int _ false => BitVec.ofNat 64 code
  | .m8 => BitVec.ofNat 64 code
  | .flt _ => BitVec.ofNat 64 code

/-- The conversion of an element. -/
def vatConvert (elem : BitVec 128) (control : Word) : Word × Flags :=
  let c := control.toNat
  let f := fld c 11 8
  let v := vatValue elem (signed 8 (fld c 7 0))
  let rm := rmOf (fld c 13 12)
  let sat : Bool := fld c 14 14 = 1
  if f = 15 then
    let r := roundFlt .fp64 v.1 false rm sat
    (BitVec.ofNat 64 r.1, Flags.or v.2 r.2)
  else
    let r := roundElem (elemOf f) v.1 false rm sat
    (vatResult f r.1, Flags.or v.2 r.2)

def execVatCvt (b a d : BitVec 7) (s : State) : Res :=
  heavyOnly (wordVatCvt b a d) (limit [a, b, d] fun s =>
    let control := (s.cur.opnd b).val
    access { r := true } 16 (s.dataAddr (s.cur.opnd a).val) (fun t s =>
      if vatBad control then done ((s.setRd d 0 false).addVxf { nv := true } false)
      else parkAccess (.vatRead t d.toNat control) s) s) s

/-- A read of the runs of a translation at their homes would write back a pinned line. -/
def State.runsHeld (s : State) (c sl : Nat) (l : List (Target × Nat)) : Bool := l.any fun x => s.readHeld c sl true x.1 x.2

/-- The element is read for the thread, which goes on. -/
def vatReadNow (t : Target) (rd : Nat) (control : Word) (s : State) : Res :=
  let r := s.readFor s.ic s.is true t 16
  match r.2.1 with
  | some i => trapAt 12 (VAddr.plus t.va i) s
  | none =>
    let v := vatConvert (BitVec.ofNat 128 (leNat r.1)) control
    doneLatc ((r.2.2.setRd (BitVec.ofNat 7 rd) v.1 true).addVxf v.2 false)

/-! Seed slots (R357, R358). -/

def execSeedSet (n : BitVec 4) (a : BitVec 7) (s : State) : Res :=
  heavyOnly (wordSeedSet n a) (limit [a] fun s =>
    let v := (s.cur.opnd a).val
    done (s.updCore s.ic fun k => k.setSeed (threadWriter s.cur.id) n.toNat v)) s

def execSeedGet (n : BitVec 4) (d : BitVec 7) (s : State) : Res :=
  heavyOnly (wordSeedGet n d) (limit [d] fun s => done (s.setRd d ((s.core s.ic).seedSeen s.is n.toNat).value false)) s

def execSeedGetG (n : BitVec 4) (d : BitVec 7) (s : State) : Res :=
  heavyOnly (wordSeedGetG n d) (limit [d] fun s =>
    done (s.setRd d (((s.core s.ic).seedSeen s.is n.toNat).gen.setWidth 64) false)) s

/-! FMT.LD (R359). -/

/-- Another resident's shadow format pointer stands against a table at an offset. -/
def State.tableTaken (s : State) (off : Word) : Bool :=
  (s.residents s.ic).any fun e => e.1 != s.cur.inst && e.2.fmtp != 0 && e.2.fmtp != off

def execFmtLd (a d : BitVec 7) (s : State) : Res :=
  heavyOnly (wordFmtLd a d) (limit [a, d] fun s =>
    let va := s.dataAddr (s.cur.opnd a).val
    accessBytes { r := true } 4 1024 va (fun l s =>
      if s.tableTaken va.off then status d 1 s else parkAccess (.tableRead l va.off d.toNat) s) s) s

/-- Reads the runs of a translation: bytes, the first poisoned address, and the state. -/
def State.readRuns (s : State) : List (Target × Nat) → List Byte × Option VAddr × State
  | [] => ([], none, s)
  | (t, n) :: r =>
    let x := s.readFor s.ic s.is true t n
    let y := x.2.2.readRuns r
    (x.1 ++ y.1,
      (match x.2.1 with
        | some i => some (VAddr.plus t.va i)
        | none => y.2.1), y.2.2)

/-- Every thread of an instance on a core has a shadow format pointer. -/
def Core.setFmtp (k : Core) (inst : Nat) (off : Word) : Core :=
  { k with slots := k.slots.map fun e => (e.1, if ofInst inst e then { e.2 with fmtp := off } else e.2) }

/-- The table is read and checked for the thread, which goes on (in part DEDUCED, log 33). -/
def tableReadNow (l : List (Target × Nat)) (off : Word) (rd : Nat) (s : State) : Res :=
  let d := BitVec.ofNat 7 rd
  if s.tableTaken off then doneLatc (s.setRd d 1 false)
  else
    let r := s.readRuns l
    match r.2.1 with
    | some va => trapAt 12 va s
    | none =>
      let t : DecodeTable := (unpackLanes 32 (leNat r.1) 256).map (BitVec.ofNat 32)
      let s := r.2.2
      if !tableOk t then trap 9 off s
      else
        let w := threadWriter s.cur.id
        let inst := s.cur.inst
        let s := s.updCore s.ic fun k => { k.setFmtp inst off with fmtWrites := k.fmtWrites ++ [⟨k.cyc, some w, 0, some t⟩] }
        doneLatc ((s.updInst inst fun i => { i with fmtp := off }).setRd d 0 false)

end Sys2Proof.Machine
end

