-- ==== Sys2Proof/Machine/Jobs.lean ====
section
/-! DEFINITION. The cluster job queue: cards (spec/14 R299, spec/16 R343), acceptance (spec/14 R297), the end of a job (R314,
R315), the job words (spec/16 R347) and the instructions on jobs (R344 to R350). -/

namespace Sys2Proof.Machine

/-! What a dropped pin or an ended exchange lets go on (spec/14 R304, spec/18 R384). -/

/-- The events of a core's threads that may have been held. -/
def Core.heldEvents (k : Core) (c : Nat) : List Instr :=
  (k.slots.filterMap fun e => match e.2.wait with
    | some (.access _) => some (Instr.accessReply c e.1)
    | _ => none) ++ k.replies.map (fun e => Instr.proxyReply c e.1) ++
  (match k.migIn with
    | p :: _ => if c < Config.cores then [] else if p.kind = 1 then [Instr.proxy c] else [Instr.remoteUpdate c]
    | [] => []) ++
  [Port.mn, Port.me, Port.ms, Port.mw].filterMap fun d => match neighbour c d with
    | some n => if tabGet [] k.sends (portNumber d) = [] then none else some (Instr.portElementArrival n (facing d))
    | none => none

/-- The events of a cluster's engines that may have been held. -/
def Cluster.heldEvents (k : Cluster) (n : Nat) : List Instr :=
  (k.channels.filterMap fun e => if e.2.run.isSome then some (Instr.copyBeat n e.1) else none) ++
  k.indexJobs.map (fun e => Instr.indexStep n e.1) ++ (if k.running.isSome then [Instr.kGroup n, .rindNormJob n, .engineYield n] else []) ++
  (if k.jobs.any fun e => e.2.run.isSome then [Instr.jobEnd n] else [])

/-- The cores that have not yet reported to a sweep. -/
def Hub.sweepLeft (h : Hub) : List Nat :=
  match h.sweep with
  | .idle => []
  | .reporting l => (span 0 Config.cores).filter fun c => !l.contains c

/-- Everything that a pin or an exchange may have held goes on (in part DEDUCED, log 53). -/
def State.unblocked (s : State) : State :=
  let s := s.wakeAll fun _ w => isRoom .pin w
  let l := (s.cores.map fun e => e.2.heldEvents e.1).flatten ++ (s.clusters.map fun e => e.2.heldEvents e.1).flatten ++
    s.mailFlight.map (fun m => Instr.mailboxDelivery m.inst) ++
    s.hub.stamped.map (fun x => Instr.mcstApplication x.group) ++
    (s.insts.filterMap fun e => if e.2.st = .live then some (Instr.taskRetirement e.1) else if e.2.st = .killing then some (.killComplete e.1)
      else none)
  let l := if s.hub.hostWrites = [] then l else l ++ [Instr.bar2Write 0 []]
  let l := l ++ s.hub.sweepLeft.map Instr.sweepCoreStep
  l.foldl (fun s i => s.emitOnce i) s

/-! The card (spec/16 R343). -/

abbrev Card := BitVec 1024

def cdBits (c : Card) (hi lo : Nat) : Nat := fld c.toNat hi lo
/-- Strides of level l, in units of 128 bytes. -/
def cdSc (c : Card) (l : Nat) : Int := signed 24 (cdBits c (915 + 24 * l) (892 + 24 * l))
def cdSb (c : Card) (l : Nat) : Int := signed 24 (cdBits c (795 + 24 * l) (772 + 24 * l))
def cdSa (c : Card) (l : Nat) : Int := signed 24 (cdBits c (675 + 24 * l) (652 + 24 * l))
/-- Extent of level l. -/
def cdN (c : Card) (l : Nat) : Nat := if l = 4 then cdBits c 651 640 else cdBits c (602 + 12 * l) (591 + 12 * l)
def cdBud (c : Card) : Nat := cdBits c 590 583
def cdKb (c : Card) : Nat := cdBits c 582 576
def cdTau (c : Card) : Nat := cdBits c 575 544
def cdGthr (c : Card) : Nat := cdBits c 543 512
def cdLdc (c : Card) : Nat := cdBits c 507 488
def cdLdb (c : Card) : Nat := cdBits c 487 468
def cdLda (c : Card) : Nat := cdBits c 467 448
def cdKl (c : Card) : Nat := cdBits c 438 436
def cdSeed (c : Card) : Nat := cdBits c 435 432
def cdSave (c : Card) : Nat := cdBits c 431 384
def cdW (c : Card) : Nat := cdBits c 382 380
def cdMslot (c : Card) : Nat := cdBits c 379 374
def cdReuse (c : Card) : Nat := cdBits c 373 368
def cdStat (c : Card) : Nat := cdBits c 367 320
def cdSmp (c : Card) : Bool := c.getLsbD 319
def cdLean (c : Card) : Nat := cdBits c 318 317
def cdTol (c : Card) : Nat := cdBits c 316 312
def cdGch (c : Card) : Nat := cdBits c 311 308
def cdGen (c : Card) : Bool := c.getLsbD 307
def cdSparse (c : Card) : Bool := c.getLsbD 306
def cdSat (c : Card) : Bool := c.getLsbD 305
def cdSr (c : Card) : Bool := c.getLsbD 304
def cdSclp (c : Card) : Nat := cdBits c 303 256
def cdRm (c : Card) : Nat := cdBits c 255 254
def cdWbm (c : Card) : Nat := cdBits c 253 252
def cdFc (c : Card) : Nat := cdBits c 251 248
def cdFb (c : Card) : Nat := cdBits c 247 244
def cdFa (c : Card) : Nat := cdBits c 243 240
def cdMeta (c : Card) : Nat := cdBits c 239 192
def cdSalt (c : Card) : Nat := cdBits c 191 176
def cdCbase (c : Card) : Nat := cdBits c 175 128
def cdGtag (c : Card) : BitVec 16 := c.extractLsb' 112 16
def cdBbase (c : Card) : Nat := cdBits c 111 64
def cdVate (c : Card) : Int := signed 8 (cdBits c 63 56)
def cdSpace (c : Card) : BitVec 8 := c.extractLsb' 48 8
def cdAbase (c : Card) : Nat := cdBits c 47 0

/-- D8's type code, and the MX formats' (spec/02 R36). -/
def isD8 (t : Nat) : Bool := t = 14
def isMxCode (t : Nat) : Bool := t = 11 || t = 12 || t = 13

/-- Input types, output types, and the types that a sampled job reads. -/
def inputType (t : Nat) : Bool := t = 6 || t = 7 || t = 9 || t = 10 || isMxCode t || isD8 t
def outputType (t : Nat) : Bool := t = 7 || t = 8 || t = 9 || t = 10 || isD8 t
def sampledType (t : Nat) : Bool := t = 6 || t = 7 || t = 9 || t = 10

/-- Half-bytes of an element (spec/14 R303). -/
def halfBytes (t : Nat) : Nat :=
  match t with
  | 7 => 4 | 8 => 8 | 13 => 1
  | _ => 2

/-- Bytes of a C element. -/
def cdSizeC (c : Card) : Nat := if cdWbm c = 2 then 16 else halfBytes (cdFc c) / 2

/-- Steps of a tile, and its contraction length. -/
def cdSteps (c : Card) : Nat := ((span 0 (cdKl c)).map (cdN c)).foldl (· * ·) 1
def cdKt (c : Card) : Nat := 32 * (cdKb c + 1) * cdSteps c
def cdWidth (c : Card) : Nat := 2 ^ cdW c

/-- TAU is NaN or below 0 (spec/15 R326). -/
def tauBad (t : Nat) : Bool :=
  match Fmt.decode .fp32 t with
  | .nan => true
  | .inf s => s
  | .fin s m _ => s && m != 0

/-- The sampling fields fail their checks (spec/14 R299, spec/15 R326). -/
def samplingBad (c : Card) : Bool :=
  if cdSmp c then
    cdW c = 7 || cdBud c = 0 || cdKt c % cdWidth c != 0 || 65536 < cdKt c / cdWidth c || tauBad (cdTau c) || cdSparse c ||
    !sampledType (cdFa c) || !sampledType (cdFb c)
  else cdW c != 0 || cdBud c != 0 || cdSeed c != 0 || cdSalt c != 0 || cdTau c != 0

/-- Operand-role banks of an instance (OPER). -/
def State.operOf (s : State) (inst : Nat) : Nat :=
  match s.inst inst with
  | some i => pktOper i.packet
  | none => 0

/-- The card is invalid, as far as its scale record does not tell (spec/14 R301, spec/25 R445; in part DEDUCED, log 34). -/
def State.cardBad (s : State) (j : JobEntry) (c : Card) : Bool :=
  cdBits c 1023 1012 != 0 || c.getLsbD 639 || cdBits c 511 508 != 0 || cdBits c 447 439 != 0 || c.getLsbD 383 ||
  !s.ownSpace (cdSpace c) || (span 0 5).any (fun l => cdN c l = 0) ||
  cdAbase c % 128 != 0 || cdBbase c % 128 != 0 || cdCbase c % 128 != 0 || cdLda c % 64 != 0 || cdLdb c % 64 != 0 ||
  cdLdc c % 16 != 0 || cdStat c % 64 != 0 || cdSave c % 128 != 0 ||
  !inputType (cdFa c) || !inputType (cdFb c) || !outputType (cdFc c) ||
  cdWbm c = 3 || (cdSr c && cdRm c != 0) || 5 < cdKl c || cdLdc c = 0 || (span 0 (cdKl c)).any (fun l => cdSc c l != 0) ||
  ((isD8 (cdFa c) || isD8 (cdFb c) || isD8 (cdFc c)) && j.table.isNone) || (cdSparse c && isMxCode (cdFa c)) ||
  s.operOf j.inst < cdReuse c || (60 ≤ cdMslot c && cdMslot c ≤ 62) || cdStat c = 0 || cdSave c = 0 || samplingBad c ||
  (cdSparse c && !s.accepted 3) || (cdSmp c && !s.accepted 4) || (cdLean c != 0 && !s.accepted 5)

/-! The queue (spec/14 R297). -/

def jobQueueSize : Nat := 32

def Cluster.job (k : Cluster) (e : Nat) : JobEntry := tabGet {} k.jobs e

def State.putJob (s : State) (k e : Nat) (j : JobEntry) : State := s.updCluster k fun c => { c with jobs := tabPut c.jobs e j }

def State.updRun (s : State) (k e : Nat) (f : JobRun → JobRun) : State :=
  s.updCluster k fun c => { c with jobs := tabPut c.jobs e { c.job e with run := some (f ((c.job e).run.getD {})) } }

/-- The job id of an entry. -/
def jobId (gen : BitVec 11) (e : Nat) : BitVec 16 := BitVec.ofNat 16 (gen.toNat * 32 + e)

/-- The entry is free: it never held a job, or its job has ended. -/
def JobEntry.open (j : JobEntry) : Bool := j.st = .free || j.st = .ended

/-- The lowest free entry (in part DESIGN CHOICE, log 21). -/
def Cluster.freeJob (k : Cluster) : Option Nat := (span 0 jobQueueSize).find? fun e => (k.job e).open

/-- The entry that a job id names, unless it is gone (spec/16 R347). -/
def Cluster.named (k : Cluster) (id : BitVec 16) : Option (Nat × JobEntry) :=
  let e := id.toNat % 32
  let j := k.job e
  if j.st != .free && jobId j.gen e = id then some (e, j) else none

/-- A push is accepted into an entry: its generation advances, and the engine latches the seeds, the table and the shadow scale
pointer as the issuing thread sees them, and the directory. -/
def State.acceptJob (s : State) (k e : Nat) (norm : Bool) (va : VAddr) : State :=
  let c := s.core s.ic
  let old := (s.cluster k).job e
  let j : JobEntry :=
    { st := .accepted, gen := old.gen + 1, norm := norm, addr := va, inst := s.cur.inst
      order := (s.cluster k).accepted, seeds := (span 0 16).map fun n => (n, c.seedSeen s.is n), table := c.fmtSeen s.is
      sclp := s.cur.sclp, directory := s.hub.published }
  let s := (s.putJob k e j).updCluster k fun x => { x with accepted := x.accepted + 1 }
  (s.updInst s.cur.inst fun i => { i with foreign := true }).emitOnce (.matrixJobStart k)

/-! Job words (spec/16 R347). -/

def stateCode : JobState → Nat
  | .accepted => 0
  | .running => 1
  | .yielded => 2
  | .ended => 3
  | .free => 4

/-- The job word of an entry's job, without an id. -/
def JobEntry.word (j : JobEntry) : Nat :=
  stateCode j.st + (if j.st = .ended then 16 * j.code.toNat else 0) + (if j.norm then 256 else 0)

/-- The job word for an id. -/
def Cluster.jobWord (k : Cluster) (id : BitVec 16) : Nat :=
  match k.named id with
  | some (_, j) => j.word
  | none => 4

/-- The acquire of a job that has ended or is gone (spec/14 R315, spec/16 R348). -/
def State.acquireJob (s : State) (c : Nat) (j : Option JobEntry) : State :=
  match j with
  | some j => s.acquireBytes c 0 j.spanLo j.spanLen
  | none => s.applySig c allOnes512

/-! The end of a job (R314, R315, spec/16 R345, R348). -/

/-- The trap that a CODE raises after MX.RUN. -/
def runTrap (code : Nat) : Option Nat :=
  match code with
  | 0 => none
  | 6 => none
  | 5 => some 10
  | _ => some 11

/-- Completes a thread's MX.RUN: its word, its acquire, and its trap. -/
def State.finishRun (s : State) (c sl rd : Nat) (id : BitVec 16) (j : JobEntry) : State :=
  let word := BitVec.ofNat 64 (j.word + id.toNat * 2 ^ 16)
  let pc := (s.thread c sl).pc
  let s := (s.complete c sl false fun t => t.setReg rd word false).acquireJob c (some j)
  match runTrap j.code.toNat with
  | some code => s.enterTrap c sl code pc (s.thread c sl).pc 0
  | none => s

/-- Completes a thread's JOB.WAIT. -/
def State.finishWait (s : State) (c sl rd : Nat) (j : Option JobEntry) : State :=
  let word := BitVec.ofNat 64 (match j with
    | some j => j.word
    | none => 4)
  (s.complete c sl false fun t => t.setReg rd word false).acquireJob c j

/-- An evicted thread's MX.RUN completes (spec/18 R374). Its acquire is made by the restore. -/
def State.finishImageRun (s : State) (image sl rd : Nat) (id : BitVec 16) (j : JobEntry) : State :=
  let word := BitVec.ofNat 64 (j.word + id.toNat * 2 ^ 16)
  let t := s.imageThread image sl
  let s := s.putImageThread image sl { (t.setReg rd word false).wake 0 with pc := t.pc + 4, issued := none, woke := none }
  match runTrap j.code.toNat with
  | some code => s.enterImageTrap image sl code t.pc (t.pc + 4) 0
  | none => s

/-- The same for every evicted thread that waits for a job id of a cluster. -/
def State.imageRuns (s : State) (k : Nat) (id : BitVec 16) (j : JobEntry) : State :=
  s.images.foldl (fun s g =>
    if clusterOf g.2.inst.core != k then s
    else g.2.threads.foldl (fun s x =>
      match x.2.wait with
      | some (.jobRun i rd) => if i = id then s.finishImageRun g.1 x.1 rd id j else s
      | _ => s) s) s

/-- The threads of a cluster that wait for a job id go on. -/
def State.jobOver (s : State) (k : Nat) (id : BitVec 16) (j : Option JobEntry) : State :=
  let s := match j with
    | some j => s.imageRuns k id j
    | none => s
  (span (8 * k) 8).foldl (fun s c =>
    (s.core c).slots.foldl (fun s x =>
      match x.2.wait with
      | some (.jobRun i rd) =>
        (match j with
          | some j => if i = id then s.finishRun c x.1 rd id j else s
          | none => s)
      | some (.jobWait i rd) => if i = id then s.finishWait c x.1 rd j else s
      | _ => s) s) s

/-- The job status record of a run (R314). CYCLES is a free value of a job that ran (DESIGN CHOICE, log 18). -/
def JobRun.record (r : JobRun) (code cycles : Nat) : List Byte :=
  leBytes (code + r.wflags % 16 * 2 ^ 6 + r.tflags % 2 ^ 16 * 2 ^ 16 + r.nrecomp % 2 ^ 32 * 2 ^ 256 + r.nreex % 2 ^ 32 * 2 ^ 288 +
    r.tiles % 2 ^ 32 * 2 ^ 320 + r.ftile % 2 ^ 32 * 2 ^ 352 + r.faddr % 2 ^ 48 * 2 ^ 400 + cycles * 2 ^ 448) 64

/-- The card names a status region that can be written (in part DEDUCED, log 34). -/
def State.statUsable (s : State) (c : Card) : Bool := s.ownSpace (cdSpace c) && cdStat c != 0 && cdStat c % 64 = 0

/-- The span of a run: first byte and length, all ones for all memory (R315), over the C bytes and the status records written. -/
def JobRun.extent (r : JobRun) (recorded : Bool) : Nat × Nat :=
  let stat := cdStat r.card
  let lo := if recorded then min r.lo stat else if r.records = 0 then r.lo else min r.lo (stat + 64)
  let hi := if recorded || r.records != 0 then max r.hi (stat + 64 + 16 * r.records) else r.hi
  if hi ≤ lo then (0, 0) else if 0xFFFFFFFE < hi - lo then (0, 0xFFFFFFFF) else (lo, hi - lo)

/-- Drops every pin of a cluster's engine. -/
def State.dropPins (s : State) (k : Nat) : State :=
  if (s.cluster k).pins = [] then s else (s.updCluster k fun c => { c with pins := [] }).unblocked

/-- The lowest REUSE operand banks of an instance hold unspecified values while the job runs, and keep them (R305). -/
def State.lend (s : State) (inst n : Nat) (held : Bool) : State :=
  match s.inst inst with
  | none => s
  | some i =>
    let banks := i.operand.take n
    s.updCore i.core fun k => { k with
      unspecified := k.unspecified.filter (fun u => !(banks.contains (u.lo / 8192))) ++
        banks.map fun b => ⟨8192 * b, 8192, held⟩ }

/-- The engine's part in a job is over. -/
def State.leaveJob (s : State) (k e : Nat) : State :=
  let j := (s.cluster k).job e
  if (s.cluster k).running = some e then
    let reuse := match j.run with
      | some r => if j.norm || !r.ready then 0 else cdReuse r.card
      | none => 0
    ((s.updCluster k fun c => { c with running := none }).lend j.inst reuse false).dropPins k
  else s

/-- The job has ended, and its record is written if it has one: its entry is free, the message goes, and those that wait go on. -/
def State.closeJob (s : State) (k e code spanLo spanLen : Nat) (body : Option (BitVec 128)) (slot : Nat) : State :=
  let s := s.leaveJob k e
  let j := (s.cluster k).job e
  let j : JobEntry := { j with st := .ended, code := BitVec.ofNat 4 code, spanLo := spanLo, spanLen := spanLen, run := none, stop := false }
  let s := s.putJob k e j
  let s := match body with
    | some b => s.post ⟨j.inst, slot, b, false, some (.engine k e)⟩
    | none => s
  let s := s.jobOver k (jobId j.gen e) (some j)
  let s := (span (8 * k) 8).foldl (fun s c => s.wakeIf c (isRoom (.job k))) s
  (s.settleInst j.inst).emitOnce (.matrixJobStart k)

/-- The end of a matrix job whose status record is written, or cannot be. -/
def State.closeMatrix (s : State) (k e code : Nat) (r : JobRun) (recorded : Bool) : State :=
  let j := (s.cluster k).job e
  let c := r.card
  let sp := r.extent recorded
  let body := if cdMslot c < 60 && r.loaded then
      some (makeMsg sp.1 sp.2 (jobId j.gen e).toNat (cdSpace c).toNat 3 code) else none
  s.closeJob k e code sp.1 sp.2 body (cdMslot c)

/-- The acceptances that follow see entry d of the directory as it now stands (spec/15 R323). -/
def State.publish (s : State) (d : Nat) : State :=
  s.updHub fun h => { h with published := match tabFind h.directory d with
    | some r => tabPut h.published d r
    | none => tabDel h.published d }

/-- A job that ends before its card was read reads it for its status record. -/
def State.cardRead (s : State) (k e : Nat) : State :=
  let j := (s.cluster k).job e
  if j.norm || (j.run.getD {}).loaded then s
  else
    let r := s.readBytes j.inst j.addr 128
    match r.1 with
    | .ok b => r.2.updRun k e fun x => { x with card := BitVec.ofNat 1024 (leNat b), loaded := true }
    | .bad _ _ => s
    | .hole => s

/-- Writes the job status record and ends the job; a fault of the write waits for the kernel (R314), and a pin of another engine
holds it. What a tile's write-back has marked is recomputed first (spec/15 R325). -/
def State.finishJob (s : State) (k e code : Nat) : State :=
  let s := s.cardRead k e
  let j := (s.cluster k).job e
  let r := j.run.getD {}
  if !j.norm && r.rind.todo != [] then
    let x := s.rindStage (.cluster k) none r.rind
    (x.2.2.updRun k e fun r => { r with rind := x.2.1, finish := some (BitVec.ofNat 4 code) }).emitOnce (.jobEnd k)
  else
  if j.norm || !r.loaded then
    (if j.norm then (if r.ready then s.publish (cdBits r.card 271 264) else s).closeJob k e code j.spanLo j.spanLen none 0
      else s.closeJob k e code 0 0 none 0)
  else if r.noRecord || !s.statUsable r.card then s.closeMatrix k e code r false
  else
    let va : VAddr := ⟨cdSpace r.card, BitVec.ofNat 64 (cdStat r.card)⟩
    let hold := s.updRun k e fun r => { r with finish := some (BitVec.ofNat 4 code) }
    match s.plan j.inst { w := true } va 64 with
    | .ok l =>
      if s.planPinned k l then hold
      else
        let d := s.draw
        let ran := j.st = .running || j.st = .yielded
        let cycles := if ran then (Config.freeValue d.1).toNat else 0
        let s := (if ran then d.2 else s).writePlan (.cluster k) l (r.record code cycles)
        s.closeMatrix k e code r true
    | .bad cause va =>
      if cause = 3 || cause = 4 then
        (hold.fault (.matrix k) .write va cause j.inst).updRun k e fun r => { r with fault := some s.serial }
      else s.closeMatrix k e 2 r false
    | .hole => s.closeMatrix k e 2 r false

/-- JOB_END: a job that has come to its end, or whose end was held. -/
def execJobEnd (cluster : Nat) (s : State) : Res :=
  let l := (s.cluster cluster).jobs.filterMap fun e =>
    match e.2.run with
    | some r =>
      (match r.finish with
        | some code => if r.fault.isNone && !e.2.open then some (e.1, code.toNat) else none
        | none => none)
    | none => none
  .next (l.foldl (fun s x => s.finishJob cluster x.1 x.2) s)

/-- A running job comes to its end with a code. -/
def State.endWith (s : State) (k e code : Nat) (faddr : Nat) : State :=
  (s.updRun k e fun r => { r with
    finish := some (BitVec.ofNat 4 code)
    faddr := faddr % 2 ^ 48
    ftile := if code = 0 || code = 1 then 0 else r.ordinal }).emitOnce (.jobEnd k)

/-- A fault of an engine access: it waits for the kernel, or ends the job (R314). -/
def State.jobFault (s : State) (k e : Nat) (kind : AccessKind) (cause : Nat) (va : VAddr) : State :=
  if cause = 3 || cause = 4 then
    (s.fault (.matrix k) kind va cause ((s.cluster k).job e).inst).updRun k e fun r => { r with fault := some s.serial }
  else s.endWith k e (if cause = 12 then 3 else 2) va.off.toNat

/-! Submission (spec/16 R344, R345, R350). -/

/-- What a submission answers: an id, or that the cluster is withdrawn. -/
def submit (norm : Bool) (align : Nat) (a : BitVec 7) (k : Option (BitVec 16) → State → Res) (s : State) : Res :=
  let va := s.dataAddr (s.cur.opnd a).val
  if va.off.toNat % align != 0 then trapAt 2 va s
  else if !s.ownSpace va.space then parkFault 3 .read va s
  else
    access { r := true } align va (fun _ s =>
      let n := clusterOf s.ic
      if (s.cluster n).withdrawn then k none s
      else
        match (s.cluster n).freeJob with
        | none => park (.room (.job n)) s
        | some e =>
          released (fun s =>
            let s := s.acceptJob n e norm va
            k (some (jobId ((s.cluster n).job e).gen e)) s) s) s

/-- An instruction of the matrix engine: not of a light thread, and not without its feature. -/
def tensor (feature : Nat) (w : InstrWord) (k : State → Res) (s : State) : Res :=
  if s.cur.light || !s.accepted feature then illegal w s else k s

/-- MX.SUBMIT's effect, with the word for the trap. -/
def submitCard (w : InstrWord) (a d : BitVec 7) (s : State) : Res :=
  tensor 2 w (limit [a, d] (submit false 128 a fun id s =>
    match id with
    | some id => doneLatc (s.setRd d (id.setWidth 64) false)
    | none => doneLatc (s.setRd d (BitVec.allOnes 64) false))) s

def execMxSubmit (a d : BitVec 7) (s : State) : Res := submitCard (wordMxSubmit a d) a d s

/-- MX.RUN. A refused submission has CODE 7 and its trap at once. -/
def execMxRun (a d : BitVec 7) (s : State) : Res :=
  tensor 2 (wordMxRun a d) (limit [a, d] (submit false 128 a fun id s =>
    match id with
    | some id => park (.jobRun id (s.cur.rename d.toNat)) s
    | none =>
      let pc := s.cur.pc
      let s := (s.setRd d 0xFFFFFFFF00000073#64 false).advance
      .next (s.enterTrap s.ic s.is 11 pc s.cur.pc 0))) s

/-- MX.NORM. -/
def execMxNorm (a d : BitVec 7) (s : State) : Res :=
  tensor 4 (wordMxNorm a d) (limit [a, d] (submit true 64 a fun id s =>
    match id with
    | some id => doneLatc (s.setRd d (id.setWidth 64) false)
    | none => doneLatc (s.setRd d (BitVec.allOnes 64) false))) s

/-! Tracking (R348, R349). -/

/-- The job id of a register. -/
def State.idOf (s : State) (a : BitVec 7) : BitVec 16 := (s.cur.opnd a).val.setWidth 16

/-- The acquire of a job word that reports an end. -/
def State.acquireWord (s : State) (id : BitVec 16) : State :=
  match (s.cluster (clusterOf s.ic)).named id with
  | none => s.acquireJob s.ic none
  | some (_, j) => if j.st = .ended then s.acquireJob s.ic (some j) else s

def execJobPoll (a d : BitVec 7) (s : State) : Res :=
  tensor 2 (wordJobPoll a d) (limit [a, d] fun s =>
    let id := s.idOf a
    let word := (s.cluster (clusterOf s.ic)).jobWord id
    let answer := fun (s : State) => done ((s.acquireWord id).setRd d (BitVec.ofNat 64 word) false)
    match (s.cluster (clusterOf s.ic)).named id with
    | none => acquiring answer s
    | some (_, j) => if j.st = .ended then acquiring answer s else answer s) s

def execJobWait (a d : BitVec 7) (s : State) : Res :=
  tensor 2 (wordJobWait a d) (limit [a, d] fun s =>
    let id := s.idOf a
    match (s.cluster (clusterOf s.ic)).named id with
    | none => acquiring (fun s => done ((s.acquireWord id).setRd d 4 false)) s
    | some (_, j) =>
      if j.st = .ended then acquiring (fun s => done ((s.acquireWord id).setRd d (BitVec.ofNat 64 j.word) false)) s
      else park (.jobWait id (s.cur.rename d.toNat)) s) s

/-- Cancels a job of an entry (R349): at once when it has not started or has yielded, when it stops at the interrupted tile (R314), and
at the next k-group boundary when it runs. -/
def State.cancelJob (s : State) (k e : Nat) (j : JobEntry) : State :=
  match j.st with
  | .accepted | .yielded =>
    (match j.run with
      | some r =>
        if r.finish.isSome then s
        else (if j.st = .yielded then s.updRun k e fun r => { r with ftile := r.ordinal } else s).finishJob k e 6
      | none => s.finishJob k e 6)
  | .running =>
    let s := s.updRun k e fun r => { r with cancelled := true }
    if j.norm then s.emitOnce (.rindNormJob k) else s.emitOnce (.kGroup k)
  | .ended | .free => s

def execJobCancel (a d : BitVec 7) (s : State) : Res :=
  tensor 2 (wordJobCancel a d) (limit [a, d] fun s =>
    let id := s.idOf a
    let k := clusterOf s.ic
    match (s.cluster k).named id with
    | none => done (s.setRd d 4 false)
    | some (e, j) =>
      if j.inst != s.cur.inst then done (s.setRd d (BitVec.ofNat 64 (j.word + 512)) false)
      else done ((s.setRd d (BitVec.ofNat 64 j.word) false).cancelJob k e j)) s

/-! EPUSH (R346). -/

/-- The selected queue's instruction needs a feature that is not accepted; a selector beyond the register limit selects nothing. -/
def epushFeature (b : BitVec 7) (s : State) : Bool :=
  let q := (s.cur.opnd b).val.toNat % 4
  s.cur.rename b.toNat < s.cur.bound && ((q = 1 && !s.accepted 7) || (q = 2 && !s.accepted 2))

/-- EPUSH: a feature comes before the register limit (spec/02 R43). -/
def execEpush (b a d : BitVec 7) (s : State) : Res :=
  let w := wordEpush b a d
  heavyOnly w (fun s =>
    if epushFeature b s then illegal w s
    else
      limitNumbers (b.toNat :: d.toNat :: span a.toNat 4) (fun s =>
        let q := (s.cur.opnd b).val.toNat % 4
        if q = 0 then
          (if s.is != 62 then trap 6 0 s else pushCopy w a (fun s => s.setRd d 0 false) s)
        else if q = 1 then pushIndex w false a (fun s => s.setRd d 0 false) s
        else if q = 2 then submitCard w a d s
        else trap 6 0 s) s) s

end Sys2Proof.Machine
end

