-- ==== Sys2Proof/Machine/Tile.lean ====
section
/-! DEFINITION. The walk of a job's nest (spec/14 R302, R303, R307), the numbers that a k-group reads and adds (R306, R318), and
the checksums of a tile (R311). -/

namespace Sys2Proof.Machine

/-! The walk (R302). -/

/-- The offset of a nest index under strides. -/
def nestOff (stride : Nat → Int) : Nat → List Nat → Int
  | _, [] => 0
  | l, i :: r => (i : Int) * stride l * 128 + nestOff stride (l + 1) r

def cdOffA (c : Card) (idx : List Nat) : Int := nestOff (cdSa c) 0 idx
def cdOffB (c : Card) (idx : List Nat) : Int := nestOff (cdSb c) 0 idx
def cdOffC (c : Card) (idx : List Nat) : Int := nestOff (cdSc c) 0 idx

/-- The next nest index from level l on; none after the last. -/
def nestNext (c : Card) : Nat → List Nat → Option (List Nat)
  | _, [] => none
  | l, i :: r => if i + 1 < cdN c l then some ((i + 1) :: r) else (nestNext c (l + 1) r).map fun x => 0 :: x

/-- The last step of its tile. -/
def lastStep (c : Card) (idx : List Nat) : Bool := (span 0 (cdKl c)).all fun l => decide (cdN c l ≤ idx.getD l 0 + 1)

/-- The first step of the tile that a step belongs to. -/
def firstStep (c : Card) (idx : List Nat) : List Nat := (span 0 5).map fun l => if l < cdKl c then 0 else idx.getD l 0

/-- The number of a step in its tile. -/
def stepNumber (c : Card) (idx : List Nat) : Nat :=
  ((span 0 (cdKl c)).foldr (fun l x => idx.getD l 0 + cdN c l * x) 0)

/-- Step σ of the tile of a step. -/
def stepAt (c : Card) (idx : List Nat) (n : Nat) : List Nat :=
  (span 0 5).map fun l =>
    if l < cdKl c then n / ((span 0 l).map (cdN c)).foldl (· * ·) 1 % cdN c l else idx.getD l 0

/-- The tile's coordinates (R303). -/
def tileRow (c : Card) (idx : List Nat) : Nat := (cdOffC c idx / (cdLdc c : Int) / 128 % 65536).toNat
def tileCol (c : Card) (idx : List Nat) : Nat := (cdOffC c idx % (cdLdc c : Int) / (128 * cdSizeC c : Int) % 65536).toNat

/-! What a part of a step reads (R303, R307). -/

/-- Values of k of a step, from k0 on. -/
structure Piece where
  idx : List Nat
  k0 : Nat
  n : Nat
  deriving DecidableEq, Repr

/-- Byte runs of the rows of a block. -/
def blockRuns (base : Int) (pitch off len : Nat) : List (Int × Nat) :=
  (span 0 128).map fun i => (base + (i * pitch + off : Nat), len)

/-- The runs of A: of a 2:4 compressed A, the stored elements. -/
def aRuns (c : Card) (p : Piece) : List (Int × Nat) :=
  let h := halfBytes (cdFa c)
  let base := (cdAbase c : Int) + cdOffA c p.idx
  if cdSparse c then blockRuns base (cdLda c) (p.k0 / 2 * h / 2) (p.n / 2 * h / 2)
  else blockRuns base (cdLda c) (p.k0 * h / 2) (p.n * h / 2)

def bRuns (c : Card) (p : Piece) : List (Int × Nat) :=
  let h := halfBytes (cdFb c)
  blockRuns ((cdBbase c : Int) + cdOffB c p.idx) (cdLdb c) (p.k0 * h / 2) (p.n * h / 2)

/-- The metadata words of a group. -/
def metaRuns (c : Card) (p : Piece) : List (Int × Nat) :=
  if cdSparse c then
    (aRuns c p).map fun r => ((cdMeta c : Int) + (r.1 - cdAbase c) / (2 * halfBytes (cdFa c) : Nat), 4)
  else []

def pieceRuns (c : Card) (p : Piece) : List (Int × Nat) := aRuns c p ++ metaRuns c p ++ bRuns c p

/-- A run leaves the addresses 0 to 2^48 − 1. -/
def runBad (r : Int × Nat) : Bool := r.1 < 0 || (2 : Int) ^ 48 < r.1 + r.2

/-- The 128-byte lines that runs touch, each once. -/
def linesOf (l : List (Int × Nat)) : List Nat :=
  l.foldl (fun acc r =>
    (span (r.1.toNat / 128) ((r.1.toNat + r.2 - 1) / 128 + 1 - r.1.toNat / 128)).foldl
      (fun acc x => if acc.contains x then acc else acc ++ [x]) acc) []

/-! Elements (R303, R306, spec/03 R62, R63). -/

/-- The codes of n elements in bytes. -/
def codesOf (t n : Nat) (b : List Byte) : List Nat :=
  let h := halfBytes t
  if h = 1 then unpackLanes 4 (leNat b) n else unpackLanes (4 * h) (leNat b) n

/-- The F19 value of a code, with its block scale if the type has one. -/
def engineVal (table : DecodeTable) (t scale c : Nat) : Val :=
  if isD8 t then tableVal table c
  else if isMxCode t then mxScale scale (toF19 (elemOf t) c)
  else toF19 (elemOf t) c

/-- The bytes of a run in the lines that the engine holds. -/
def JobRun.bytes (r : JobRun) (x : Int × Nat) : List Byte := (lineBytes r.lines x.1.toNat x.2).getD []

/-- Address of the block scale of a run of 32 elements (R303). -/
def scaleAddr (scales base t : Nat) (x : Int × Nat) : Int := (scales : Int) + (x.1 - base) / (16 * halfBytes t : Nat)

/-- The indices of a selector, if it is legal (R307). -/
def selector (v : Nat) : Option (Nat × Nat) := if v % 4 < v / 4 then some (v % 4, v / 4) else none

/-- The 32 values of a row of a 2:4 compressed group: none where a selector is illegal. -/
def expand (word : Nat) : Nat → List Val → Option (List Val)
  | 0, _ => some []
  | n + 1, l =>
    match selector (word % 16), l with
    | some (f, s), x :: y :: r =>
      (expand (word / 16) n r).map fun rest =>
        (span 0 4).map (fun i => if i = f then x else if i = s then y else .fin false 0 0) ++ rest
    | _, _ => none

/-- The values of a block's rows: n elements of each run, with the scale of each. -/
def rowVals (table : DecodeTable) (t n : Nat) (scales : List Nat) (bytes : List (List Byte)) : List (List Val) :=
  (bytes.zip scales).map fun x => (codesOf t n x.1).map (engineVal table t x.2)

/-! Sums (R306, R311). -/

/-- The exact sum of products. -/
def dotSum : Val → List Val → List Val → Val
  | acc, a :: r, b :: q => dotSum (Val.add .rne acc (Val.mul a b).1).1 r q
  | acc, _, _ => acc

/-- add_group (R306). -/
def addGroup (x : BitVec 32) (g : Val) : BitVec 32 :=
  let v := Fmt.decode .fp32 x.toNat
  if Val.isNan v || Val.isNan g then 0x7FC00000#32
  else if Val.isZero g then x
  else rneFp32 (Val.add .rne v g).1

/-- The group sums of a row with every column, and of every row. -/
def productRow (a : List Val) (bs : List (List Val)) : List Val := bs.map fun b => dotSum (.fin false 0 0) a b
def products (as bs : List (List Val)) : List Val := (as.map fun a => productRow a bs).flatten

/-- Adds group sums, each times a factor. -/
def addProducts (f : Val) (acc : List (BitVec 32)) (p : List Val) : List (BitVec 32) :=
  (acc.zip p).map fun x => addGroup x.1 (Val.mul f x.2).1

/-- The low fraction bits that lean mode leaves unspecified are free values, numbered from ctr on (R318; DESIGN CHOICE, log 3). A NaN and an
infinity are kept. -/
def leanBits (l ctr : Nat) (acc : List (BitVec 32)) : List (BitVec 32) :=
  if l = 0 then acc
  else
    (indexed ctr (acc.map (·.toNat))).map fun x =>
      if x.2 / 2 ^ 23 % 256 = 255 then BitVec.ofNat 32 x.2
      else BitVec.ofNat 32 (x.2 / 2 ^ l * 2 ^ l + (Config.freeValue x.1).toNat % 2 ^ l)

/-- A value is finite. -/
def Val.isFin : Val → Bool
  | .fin _ _ _ => true
  | .nan => false
  | .inf _ => false

def Dyadic.abs (a : Dyadic) : Dyadic := ⟨a.num.natAbs, a.exp⟩

def dyadicSum (l : List Dyadic) : Dyadic := l.foldl Dyadic.add ⟨0, 0⟩

/-- Adds lists position by position. -/
def addLists (a b : List Dyadic) : List Dyadic := (a.zip b).map fun x => Dyadic.add x.1 x.2

/-- The sums over the lines of a block at each of its positions. -/
def acrossLines (f : Dyadic → Dyadic) (n : Nat) (ls : List (List Val)) : List Dyadic :=
  ls.foldl (fun acc l => addLists acc (l.map fun v => f (Val.dyadic v))) ((span 0 n).map fun _ => ⟨0, 0⟩)

/-- The products of a line with sums at its positions. -/
def against (f : Dyadic → Dyadic) (l : List Val) (sums : List Dyadic) : Dyadic :=
  dyadicSum ((l.zip sums).map fun x => Dyadic.mul (f (Val.dyadic x.1)) x.2)

/-- What lines add to a running sum, times a factor. -/
def addAgainst (g : Dyadic) (f : Dyadic → Dyadic) (old : List Dyadic) (ls : List (List Val)) (sums : List Dyadic) : List Dyadic :=
  (old.zip ls).map fun x => Dyadic.add x.1 (Dyadic.mul g (against f x.2 sums))

/-- The checksum sums of a tile after a part of its contraction, taken with a factor. -/
def Tile.sum (t : Tile) (g : Dyadic) (n : Nat) (as bs : List (List Val)) : Tile :=
  let allA := as.all fun l => l.all Val.isFin
  let allB := bs.all fun l => l.all Val.isFin
  { t with
    prRow := addAgainst g id t.prRow as (acrossLines id n bs)
    magRow := addAgainst g Dyadic.abs t.magRow as (acrossLines Dyadic.abs n bs)
    prCol := addAgainst g id t.prCol bs (acrossLines id n as)
    magCol := addAgainst g Dyadic.abs t.magCol bs (acrossLines Dyadic.abs n as)
    finRow := (t.finRow.zip as).map fun x => x.1 && allB && x.2.all Val.isFin
    finCol := (t.finCol.zip bs).map fun x => x.1 && allA && x.2.all Val.isFin }

/-- The rows of a list of 16,384, and its columns. -/
def tileRows (l : List (BitVec 32)) : List (List Val) := chunks 128 128 (l.map (·.toNat)) |>.map fun r => r.map (Fmt.decode .fp32)

def tileCols (rows : List (List Val)) : List (List Val) := (span 0 128).map fun j => rows.map fun r => r.getD j (.fin false 0 0)

/-- A tile at its initial values (R302, R311). -/
def startTile (init : List (BitVec 32)) (acc : List (BitVec 32)) : Tile :=
  let rows := tileRows init
  let cols := tileCols rows
  let total := fun (f : Dyadic → Dyadic) (l : List Val) => dyadicSum (l.map fun v => f (Val.dyadic v))
  { acc := acc, init := init
    prRow := rows.map (total id), prCol := cols.map (total id)
    magRow := rows.map (total Dyadic.abs), magCol := cols.map (total Dyadic.abs)
    finRow := rows.map fun l => l.all Val.isFin, finCol := cols.map fun l => l.all Val.isFin }

/-- A line of accumulators mismatches its sums (R311): |ar − pr| > M × 2^(L − TOL). -/
def lineOff (e : Int) (l : List Val) (pr mag : Dyadic) (fin : Bool) : Bool :=
  fin && l.all Val.isFin &&
    Dyadic.lt ⟨mag.num, mag.exp + e⟩ (Dyadic.abs (Dyadic.sub (dyadicSum (l.map Val.dyadic)) pr))

def linesOff (e : Int) : List (List Val) → List Dyadic → List Dyadic → List Bool → Bool
  | l :: ls, p :: ps, m :: ms, f :: fs => lineOff e l p m f || linesOff e ls ps ms fs
  | _, _, _, _ => false

/-- The tile mismatches (in part DESIGN CHOICE, log 11). -/
def Tile.mismatch (t : Tile) (e : Int) : Bool :=
  let rows := tileRows t.acc
  linesOff e rows t.prRow t.magRow t.finRow || linesOff e (tileCols rows) t.prCol t.magCol t.finCol

/-- RNE_fp32 of the sum of squares of accumulators (spec/15 R332). -/
def normOf (acc : List (BitVec 32)) : BitVec 32 :=
  rneFp32 ((acc.map fun x => Fmt.decode .fp32 x.toNat).foldl sqAdd (.fin false 0 0))

end Sys2Proof.Machine
end

