-- ==== Sys2Proof/Machine/Sampled.lean ====
section
/-! DEFINITION. Sampled contraction: the usable rind (spec/15 R329), the draw (R330), and an estimate's statistics (R332 to
R334). -/

namespace Sys2Proof.Machine

/-! Flags of a tile (spec/14 R313). -/

def flagExact : Nat := 1
def flagStale : Nat := 2
def flagNonfin : Nat := 4
def flagRecomp : Nat := 8
def flagReexec : Nat := 16
def flagFailed : Nat := 32
def flagSampled : Nat := 64

/-! The rind of a tile (R329). -/

/-- Values of k of a step. -/
def cdStepK (c : Card) : Nat := 32 * (cdKb c + 1)

/-- The block β and first position of a step that starts at an address, when its 128 lines form that block at each of its k. -/
def RindEntry.blockAt (r : RindEntry) (n : Nat) (start : Int) : Option (Nat × Nat) :=
  if start < r.base then none
  else
    let rel := (start - r.base).toNat
    let l := rel / r.pitch
    let k := rel % r.pitch / r.size
    if l % 128 = 0 && l / 128 < r.nb && rel % r.pitch % r.size = 0 && k + n ≤ r.kn then some (l / 128, k) else none

/-- One block for every step, and the first positions of the steps. -/
def RindEntry.blocksAt (r : RindEntry) (n : Nat) : List Int → Option (Nat × List Nat)
  | [] => none
  | [a] => (r.blockAt n a).map fun x => (x.1, [x.2])
  | a :: b :: rest =>
    match r.blockAt n a, r.blocksAt n (b :: rest) with
    | some (x, k), some (y, ks) => if x = y then some (x, k :: ks) else none
    | _, _ => none

/-- Every page of runs has NORMED = 1. -/
def State.allNormed (s : State) (inst : Nat) (sp : BitVec 8) (l : List (Int × Nat)) : Bool :=
  l.all fun x =>
    match s.plan inst { r := true } ⟨sp, BitVec.ofInt 64 x.1⟩ x.2 with
    | .ok l => l.all fun y => y.1.normed
    | .bad _ _ => false
    | .hole => false

/-- The usable rind of one operand of a tile: its entry, its block and the first positions of the tile's steps. -/
def State.usable (s : State) (dir : Tab RindEntry) (inst : Nat) (sp : BitVec 8) (t pitch n : Nat) (starts : List Int)
    (runs : List (Int × Nat)) : Option (RindEntry × Nat × List Nat) :=
  if runs.any runBad || !s.allNormed inst sp runs then none
  else
    dir.findSome? fun e =>
      if e.2.ety = t && e.2.pitch = pitch then (e.2.blocksAt n starts).map fun x => (e.2, x.1, x.2) else none

/-- The rind blocks of positions. -/
def blocksOf (r : RindEntry) (b n : Nat) (ks : List Nat) : List Nat :=
  ks.foldl (fun acc k =>
    (span (k / 32) ((k + n - 1) / 32 + 1 - k / 32)).foldl
      (fun acc c => if acc.contains (b * r.cols + c) then acc else acc ++ [b * r.cols + c]) acc) []

/-- The state words of rind blocks: their offsets and places. -/
def wordPlaces (r : RindEntry) (bs : List Nat) : List (Nat × Option Nat) := bs.map fun b => (r.sbase + 4 * b, r.statePa b)

/-- The rind values of a tile, κ in order: their offsets and places. -/
def valuePlaces (r : RindEntry) (b n : Nat) (ks : List Nat) : List (Nat × Option Nat) :=
  (ks.map fun k => (span k n).map fun x => (r.rbase + 4 * (b * r.kn + x), segFind r.values (r.rbase + 4 * (b * r.kn + x)))).flatten

/-- All of a list, or none. -/
def allSome {α : Type} : List (Option α) → Option (List α)
  | [] => some []
  | none :: _ => none
  | some a :: r => (allSome r).map (a :: ·)

/-! The draw (R330). -/

/-- An FP32 sum or product, rounded once. -/
def rne32 (v : Val) : Val := Fmt.decode .fp32 (rneFp32 v).toNat

/-- The sum of a slice's rind values. -/
def sliceSum (l : List Val) : Val := l.foldl (fun q v => rne32 (Val.add .rne q v).1) (.fin false 0 0)

/-- Groups of n values. -/
def slicesOf (n : Nat) : Nat → List Val → List (List Val)
  | 0, _ => []
  | k + 1, l => l.take n :: slicesOf n k (l.drop n)

/-- The norm of a slice with its two sums and their product, for the test of R333's second condition. -/
def sliceNorm (a b : List Val) : Val × Bool :=
  let x := sliceSum a
  let y := sliceSum b
  let p := rne32 (Val.mul x y).1
  let r := Val.sqrt p
  let n := Fmt.decode .fp32 (roundFlt .fp32 r.1 r.2.1 .rne false).1
  (n, Val.isFin x && Val.isFin y && Val.isFin p && Val.isFin n)

/-- floor(log2 v) of a positive value. -/
def floorLog2 : Val → Int
  | .fin _ m e => (Nat.log2 m : Int) + e
  | .nan => 0
  | .inf _ => 0

/-- floor(v × 2^k) of a value that is not negative. -/
def floorScaled (k : Int) : Val → Nat
  | .fin _ m e => if 0 ≤ e + k then m * 2 ^ (e + k).toNat else m / 2 ^ (-(e + k)).toNat
  | .nan => 0
  | .inf _ => 0

/-- Running sums. -/
def runningSums : Nat → List Nat → List Nat
  | _, [] => []
  | acc, w :: r => (acc + w) :: runningSums (acc + w) r

/-- How often each slice is drawn. -/
def counts (cum : List Nat) (total b u : Nat) : List Nat :=
  let at_ := (span 0 b).filterMap fun j =>
    let pos := (u + j * 2 ^ 24) * total / (b * 2 ^ 24)
    cum.findIdx? fun x => decide (pos < x)
  (span 0 cum.length).map fun i => (at_.filter fun x => x = i).length

/-- The factor of a drawn slice: RNE_fp32(Wsum / (b × wt)). -/
def factorOf (total b w : Nat) : BitVec 32 :=
  let q := Val.div (Val.ofInt total) (Val.ofInt (b * w : Nat))
  BitVec.ofNat 32 (roundFlt .fp32 q.1 q.2.1 .rne false).1

/-- The slices to compute, in ascending order. -/
def toCompute (b total : Nat) : Nat → List (Val × Nat × Nat) → List (Nat × Nat × BitVec 32)
  | _, [] => []
  | i, (n, w, c) :: r =>
    if 0 < c then (i, c, factorOf total b w) :: toCompute b total (i + 1) r
    else if w = 0 && !Val.isZero n then (i, 0, 0x3F800000#32) :: toCompute b total (i + 1) r
    else toCompute b total (i + 1) r

/-- What the draw decides. -/
inductive Drawn where
  | exact (flags : Nat)
  | estimate (d : Draw)
  /-- A rind value or state word is poisoned at an offset. -/
  | poisoned (off : Nat)
  deriving DecidableEq, Repr

/-- The draw over the norms of a tile's slices, with conditions 2 and 3 of R333. -/
def drawFrom (norms : List (Val × Bool)) (words : List (Nat × Nat)) (b u : Nat) : Drawn :=
  if norms.any fun x => !x.2 then .exact (flagNonfin + flagExact)
  else
    let ns := norms.map (·.1)
    match best (fun x y => Val.lt y x) (ns.filter fun v => !Val.isZero v) with
    | none => .exact flagExact
    | some top =>
      let wt := ns.map (floorScaled (23 - floorLog2 top))
      let total := wt.foldl (· + ·) 0
      if (wt.filter fun w => w != 0).length ≤ b then .exact flagExact
      else
        let c := counts (runningSums 0 wt) total b u
        .estimate { slices := toCompute b total 0 (ns.zip (wt.zip c)), words := words }

/-- The draw of a tile (R329, R330, and conditions 1 to 3 of R333). -/
def State.drawTile (s : State) (j : JobEntry) (c : Card) (idx : List Nat) : Drawn :=
  let steps := (span 0 (cdSteps c)).map fun n => stepAt c idx n
  let n := cdStepK c
  let pieces := steps.map fun x => (⟨x, 0, n⟩ : Piece)
  let a := s.usable j.directory j.inst (cdSpace c) (cdFa c) (cdLda c) n (steps.map fun x => (cdAbase c : Int) + cdOffA c x)
    (pieces.map (aRuns c)).flatten
  let b := s.usable j.directory j.inst (cdSpace c) (cdFb c) (cdLdb c) n (steps.map fun x => (cdBbase c : Int) + cdOffB c x)
    (pieces.map (bRuns c)).flatten
  match a, b with
  | some a, some b =>
    let pw := wordPlaces a.1 (blocksOf a.1 a.2.1 n a.2.2) ++ wordPlaces b.1 (blocksOf b.1 b.2.1 n b.2.2)
    let pa := valuePlaces a.1 a.2.1 n a.2.2
    let pb := valuePlaces b.1 b.2.1 n b.2.2
    (match allSome (pw.map (·.2)), allSome (pa.map (·.2)), allSome (pb.map (·.2)) with
      | some ws, some va, some vb =>
        match (pw ++ pa ++ pb).find? fun x => (x.2.map fun p => (s.poisonAt p 4).isSome).getD false with
        | some x => .poisoned x.1
        | none =>
          let word := fun p => leNat (memRead s.mem p 4)
          if ws.any fun p => decide (2 ^ 31 ≤ word p) then .exact (flagStale + flagExact)
          else
            let val := fun p => Fmt.decode .fp32 (word p)
            let w := cdWidth c
            let m := cdKt c / w
            let norms := ((slicesOf w m (va.map val)).zip (slicesOf w m (vb.map val))).map fun x => sliceNorm x.1 x.2
            let u := srU (tabGet {} j.seeds (cdSeed c)).value (tileRow c idx) (tileCol c idx) (cdSalt c)
            drawFrom norms (ws.map fun p => (p, word p)) (cdBud c + 1) u
      | _, _, _ => .exact (flagStale + flagExact))
  | _, _ => .exact (flagStale + flagExact)

/-! Statistics (R332 to R334). -/

def rneFp64 (v : Val) : Val := Fmt.decode .fp64 (roundFlt .fp64 v false .rne false).1

/-- c × f, exactly; 1 for a tail slice. -/
def sliceFactor (x : Nat × Nat × BitVec 32) : Val :=
  if x.2.1 = 0 then Val.ofInt 1 else (Val.mul (Val.ofInt x.2.1) (Fmt.decode .fp32 x.2.2.toNat)).1

/-- Sums as lean mode leaves them, free bits numbered from ctr on (R337; DESIGN CHOICE, log 3). -/
def leanSums (l ctr : Nat) (d : List Dyadic) : List Dyadic :=
  if l = 0 then d
  else (leanBits l ctr (d.map fun v => rneFp32 (Dyadic.val v))).map fun x => Val.dyadic (Fmt.decode .fp32 x.toNat)

/-- The draw after a slice's products, at a lean level with free bits numbered from ctr on. -/
def Draw.note (d : Draw) (l ctr : Nat) (x : Nat × Nat × BitVec 32) (p : List Val) : Draw :=
  let d := { d with next := d.next + 1, nonfinite := d.nonfinite || p.any fun v => !Val.isFin v }
  if x.2.1 = 0 then d
  else
    let g := sliceFactor x
    let m2 := rneFp64 (p.foldl sqAdd (.fin false 0 0))
    let old := if d.dsum = [] then p.map fun _ => (⟨0, 0⟩ : Dyadic) else d.dsum
    { d with
      dsum := leanSums l ctr ((old.zip p).map fun y => Dyadic.add y.1 (Dyadic.mul (Val.dyadic g) (Val.dyadic y.2)))
      qsum := (Val.add .rne d.qsum (Val.mul (Val.mul g (Fmt.decode .fp32 x.2.2.toNat)).1 m2).1).1 }

/-- VAR of an estimate with a budget. -/
def Draw.var (d : Draw) (b : Nat) : BitVec 32 :=
  let q := rneFp64 d.qsum
  let dn := rneFp64 ((d.dsum.map Dyadic.val).foldl sqAdd (.fin false 0 0))
  let x := rneFp64 (Val.add .rne (Val.mul (Val.ofInt b) q).1 (Val.neg dn)).1
  let y := Val.div x (Val.ofInt (b - 1 : Nat))
  let v := Fmt.decode .fp64 (roundFlt .fp64 y.1 y.2.1 .rne false).1
  let r := rneFp32 v
  let z := Fmt.decode .fp32 r.toNat
  if Val.lt z (.fin false 0 0) || Val.isZero z then 0 else r

/-- Number of distinct drawn slices. -/
def Draw.drawn (d : Draw) : Nat := (d.slices.filter fun x => x.2.1 != 0).length

/-- The same draw, not yet begun. -/
def Draw.again (d : Draw) : Draw := { d with next := 0, dsum := [], qsum := .fin false 0 0, nonfinite := false }

/-- The state words still stand as first read (R334). -/
def State.wordsStand (s : State) (d : Draw) : Bool := d.words.all fun x => leNat (memRead s.mem x.1 4) = x.2

/-- VAR > τ × NORM (R333, condition 5). -/
def rejected (tau : Nat) (var norm : BitVec 32) : Bool :=
  let t := Fmt.decode .fp32 tau
  t != .inf false && Val.lt (Val.mul t (Fmt.decode .fp32 norm.toNat)).1 (Fmt.decode .fp32 var.toNat)

end Sys2Proof.Machine
end

