-- ==== Sys2Proof/Machine/Matrix.lean ====
section
/-! DEFINITION. The matrix engine: its clock (spec/14 R319), the start of a job (R298, R300, R301, R309), the tile fetch unit and
its pins (R304), the k-groups (R306 to R308, spec/15 R328 to R332), and the yield to pre-emption (R320). -/

namespace Sys2Proof.Machine

/-- The running job of a cluster, once its card has been asked for. -/
def State.runningJob (s : State) (k : Nat) : Option (Nat × JobEntry × JobRun) :=
  match (s.cluster k).running with
  | none => none
  | some e =>
    match ((s.cluster k).job e).run with
    | some r => some (e, (s.cluster k).job e, r)
    | none => none

/-- The run goes on: it waits for no fault, and has not come to its end. -/
def JobRun.going (r : JobRun) : Bool := r.fault.isNone && r.finish.isNone

/-! Cards (R297). -/

/-- Reads the card of an accepted job once (in part DEDUCED, log 34). -/
def State.readCard (s : State) (k e : Nat) : State :=
  let j := (s.cluster k).job e
  let wants : Bool := match j.run with
    | none => true
    | some r => !r.loaded && r.going
  if j.st != .accepted || j.norm || !wants then s
  else
    let s := s.updRun k e id
    let r := s.readBytes j.inst j.addr 128
    match r.1 with
    | .ok b => r.2.updRun k e fun x => { x with card := BitVec.ofNat 1024 (leNat b), loaded := true }
    | .bad cause va =>
      if cause = 3 || cause = 4 then r.2.jobFault k e .read cause va else r.2.finishJob k e (if cause = 12 then 3 else 2)
    | .hole => s.finishJob k e 2

/-- The gate of a loaded card is open (R309). -/
def State.gateOpen (s : State) (k : Nat) (c : Card) : Bool :=
  if !cdGen c then true
  else
    let ch := (s.cluster k).channel (cdGch c)
    (ch.ctag = cdGtag c && cdGthr c ≤ ch.done) || ch.last = some (cdGtag c)

/-! The engine's clock (R319). -/

/-- A job asks a gated engine to wake. -/
def State.wakeEngine (s : State) (k : Nat) : State :=
  let d := k / 32
  ((s.updCluster k fun c => { c with clock := .requested }).updDie d fun x => { x with wakes := x.wakes ++ [k] }).emitOnce (.engineWakeGrant d)

/-- ENGINE_WAKE_GRANT: the first engine that asked may leave the clock-gated state. -/
def execEngineWakeGrant (die : Nat) (s : State) : Res :=
  match (s.die die).wakes with
  | [] => .next s
  | k :: r =>
    let s := (s.updDie die fun x => { x with wakes := r }).updCluster k fun c => { c with clock := .granted }
    let s := s.emit (.engineWakeReady k)
    .next (if r = [] then s else s.emitOnce (.engineWakeGrant die))

/-- ENGINE_WAKE_READY. -/
def execEngineWakeReady (cluster : Nat) (s : State) : Res :=
  match (s.cluster cluster).clock with
  | .granted => .next ((s.updCluster cluster fun c => { c with clock := .ready }).emitOnce (.matrixJobStart cluster))
  | .gated => .next s
  | .requested => .next s
  | .ready => .next s

/-- ENGINE_CLOCK_GATE: an engine that runs no job goes to sleep. -/
def execEngineClockGate (cluster : Nat) (s : State) : Res :=
  let c := s.cluster cluster
  if c.clock = .ready && c.running.isNone then .next (s.updCluster cluster fun c => { c with clock := .gated }) else .next s

/-! The start of a job (R298, R300, R301, R320). -/

/-- An entry's job may start. A withdrawn cluster starts none, and never again one that had yielded there (R312). -/
def State.mayStart (s : State) (k : Nat) (j : JobEntry) : Bool :=
  s.runs j.inst && !(s.cluster k).withdrawn &&
  match j.st with
  | .accepted =>
    j.norm ||
      (match j.run with
        | some r => r.loaded && r.going && s.gateOpen k r.card
        | none => false)
  | .yielded => !j.barred
  | .running => false
  | .ended => false
  | .free => false

/-- The engine holds a job's message until its delivery, and starts no further job (spec/13 R279). -/
def State.engineHolds (s : State) (k : Nat) : Bool :=
  s.mailFlight.any fun m => match m.sender with
    | some (.engine n _) => n = k
    | some (.channel _ _) | some (.index _ _) | none => false

/-- The oldest job that may start. -/
def State.nextJob (s : State) (k : Nat) : Option (Nat × JobEntry) :=
  if s.engineHolds k then none
  else best (fun (a b : Nat × JobEntry) => decide (a.2.order < b.2.order)) ((s.cluster k).jobs.filter fun e => s.mayStart k e.2)

/-- A scale record passes its check. -/
def scaleRecordOk (n : Nat) : Bool := fld n 255 160 = 0 && fld n 127 112 = 0 && fld n 63 48 = 0

/-- A is or B is an MX format without its block scales. -/
def mxMissing (c : Card) (a b : Nat) : Bool := (isMxCode (cdFa c) && a = 0) || (isMxCode (cdFb c) && b = 0)

/-- The save layout falls on the only tile's C elements, so that both may share bytes (spec/17 R364). -/
def saveShared (c : Card) : Bool :=
  cdWbm c = 0 && cdFc c = 8 && cdLdc c = 512 && ((span 0 5).drop (cdKl c)).all fun l => cdN c l = 1

/-- Some row of C, over the nest levels that are left, has a byte in lo to hi - 1. The extents of the levels bound the search. -/
def cMeets (c : Card) (lo hi : Int) : List Nat → Int → Bool
  | [], base => (span 0 128).any fun i =>
    let a := base + (i * cdLdc c : Nat)
    a < hi && lo < a + (128 * cdSizeC c : Nat)
  | l :: r, base =>
    let reach := ((l :: r).map fun l => ((cdN c l - 1 : Nat) : Int) * cdSc c l * 128)
    let low := base + (reach.map fun x => min x 0).foldl (· + ·) 0
    let high := base + (reach.map fun x => max x 0).foldl (· + ·) 0 + (127 * cdLdc c + 128 * cdSizeC c : Nat)
    low < hi && lo < high && (span 0 (cdN c l)).any fun i => cMeets c lo hi r (base + (i : Int) * cdSc c l * 128)

/-- Bytes of the accumulators in a save area. -/
def saveSize : Nat := 65536

/-- A save area that overlaps C makes the job's C bytes unspecified (spec/17 R364). -/
def cBlurred (c : Card) : Bool :=
  !saveShared c && cMeets c (cdSave c) (cdSave c + saveSize + 64 : Nat) ((span 0 5).drop (cdKl c)) (cdCbase c)

/-- Checks the card, and reads its scale record (in part DEDUCED, log 34). -/
def State.setupJob (s : State) (k e : Nat) (j : JobEntry) (r : JobRun) : State :=
  let c := r.card
  let ptr := if cdSclp c != 0 then cdSclp c else j.sclp.toNat
  let ready := fun (s : State) (scale : BitVec 32) (a b : Nat) =>
    if mxMissing c a b then s.endWith k e 1 0
    else
      ((s.updRun k e fun x => { x with ready := true, scale := scale, ascale := a, bscale := b, blurred := cBlurred c }).lend j.inst (cdReuse c) true).emitOnce
        (.kGroup k)
  if s.cardBad j c then s.endWith k e 1 0
  else if ptr = 0 then ready s 0x3F800000#32 0 0
  else if ptr % 32 != 0 then s.endWith k e 1 0
  else if runBad ((ptr : Int), 32) then s.endWith k e 2 ptr
  else
    let x := s.readBytes j.inst ⟨cdSpace c, BitVec.ofNat 64 ptr⟩ 32
    match x.1 with
    | .ok b =>
      let n := leNat b
      if scaleRecordOk n then ready x.2 (BitVec.ofNat 32 (fld n 159 128)) (fld n 47 0) (fld n 111 64) else x.2.endWith k e 1 0
    | .bad cause va => x.2.jobFault k e .read cause va
    | .hole => s.endWith k e 2 ptr

/-- Reads the save area of a yielded job (R320). The saved accumulators of an estimated tile are ignored (spec/15 R338), and a tile
of which no k-group was added starts at init. -/
def State.restoreJob (s : State) (k e : Nat) (j : JobEntry) (r : JobRun) : State :=
  let c := r.card
  let x := s.readBytes j.inst ⟨cdSpace c, BitVec.ofNat 64 (cdSave c)⟩ (saveSize + 64)
  match x.1 with
  | .ok b =>
    let n := leNat (b.drop saveSize)
    let idx := (span 0 5).map fun l => fld n (12 * l + 11) (12 * l)
    let acc := (unpackLanes 32 (leNat (b.take saveSize)) 16384).map (BitVec.ofNat 32)
    let skip := if cdSmp c && r.keep.isNone then 0 else stepNumber c idx * (cdKb c + 1) + fld n 70 64
    (x.2.updRun k e fun r => { r with
      saved := false, ordinal := fld n 127 96, rex := fld n 95 95 = 1
      index := firstStep c idx, kg := 0, mode := none
      restored := if skip = 0 then none else some acc, skip := skip }).emitOnce (.kGroup k)
  | .bad cause va => x.2.jobFault k e .read cause va
  | .hole => s.endWith k e 2 (cdSave c)

/-- The running job takes its first steps, or takes them again after a fault. -/
def State.launchJob (s : State) (k e : Nat) : State :=
  let j := (s.cluster k).job e
  match j.run with
  | none => s
  | some r =>
    if !r.going then s
    else if !r.ready then s.setupJob k e j r
    else if r.saved then s.restoreJob k e j r
    else s.emitOnce (.kGroup k)

/-- A job starts, or starts again. -/
def State.startJob (s : State) (k e : Nat) (j : JobEntry) : State :=
  let s := (s.putJob k e { j with st := .running }).updCluster k fun c => { c with running := some e }
  if j.norm then (s.updRun k e id).emitOnce (.rindNormJob k)
  else
    let s := match j.run with
      | some r => if r.ready then s.lend j.inst (cdReuse r.card) true else s
      | none => s
    s.launchJob k e

/-- MATRIX_JOB_START: cards are read, and a free engine starts the oldest job that may start. -/
def execMatrixJobStart (cluster : Nat) (s : State) : Res :=
  let s := (s.cluster cluster).jobs.foldl (fun s e => s.readCard cluster e.1) s
  match (s.cluster cluster).running with
  | some e => .next (s.launchJob cluster e)
  | none =>
    match s.nextJob cluster with
    | none => .next s
    | some (e, j) =>
      match (s.cluster cluster).clock with
      | .ready => .next (s.startJob cluster e j)
      | .gated => .next (s.wakeEngine cluster)
      | .requested => .next s
      | .granted => .next s

/-! The tile fetch unit (R304). -/

/-- The set that holds a physical line of a slice (spec/10 R223). -/
def setOf (slice pa : Nat) : Nat := slice * 2048 + sliceSet pa

/-- Ways of a set that pins may hold. -/
def pinWays : Nat := 4

/-- The lines that pins of any engine hold in a set: one way each. -/
def State.pinsIn (s : State) (set : Nat) : List Nat :=
  ((s.clusters.map fun e => (e.2.pins.filter fun p => p.set = set).map (·.line)).flatten).eraseDups

/-- Drops the first pin of a set. -/
def dropFirst (set : Nat) : List Pin → List Pin
  | [] => []
  | p :: r => if p.set = set then r else p :: dropFirst set r

/-- Pins a line; none while it would need a fifth way of its set, so that the fetch waits for a pin to drop. A set that pins of this
engine alone hold gives up the oldest, whose line the engine has read, since no other pin could drop (DEDUCED, log 19). -/
def State.pinLine (s : State) (k : Nat) (t : Target) (vline : Nat) : Option State :=
  match t.place with
  | .home pa =>
    let set := setOf t.slice pa
    let pin : Pin := ⟨pa / 128, set, vline⟩
    if t.attr = 3 then some s
    else if (s.pinsIn set).contains pin.line || (s.pinsIn set).length < pinWays then
      some (s.updCluster k fun c => { c with pins := c.pins ++ [pin] })
    else if s.clusters.all fun e => e.1 = k || e.2.pins.all fun p => p.set != set then
      some ((s.updCluster k fun c => { c with pins := dropFirst set c.pins ++ [pin] }).unblocked)
    else none
  | .window _ _ | .mx _ _ _ | .remote _ _ => some s

/-- TILE_FETCH: one indivisible read of a line of the card's space. -/
def execTileFetch (cluster line : Nat) (s : State) : Res :=
  match s.runningJob cluster with
  | none => .next s
  | some (e, j, r) =>
    if !r.going || !r.ready || (tabFind r.lines line).isSome then .next s
    else
      let va : VAddr := ⟨cdSpace r.card, BitVec.ofNat 64 (128 * line)⟩
      match s.engineTarget j.inst { r := true } va with
      | .hole => .fault .nothingThere
      | .window => .next (s.jobFault cluster e .read 7 va)
      | .access | .miss => .next (s.jobFault cluster e .read 3 va)
      | .page => .next (s.jobFault cluster e .read 4 va)
      | .ok t =>
        s.arbitrate t.place 128 (.tileFetch cluster line) fun s =>
          let x := s.readTarget t 128
          match x.2.1 with
          | some i => .next (x.2.2.jobFault cluster e .read 12 (VAddr.plus va i))
          | none =>
            match x.2.2.pinLine cluster t line with
            | none => .next s
            | some s =>
              let s := s.updRun cluster e fun r => { r with lines := tabPut r.lines line (BitVec.ofNat 1024 (leNat x.1)) }
              .next (s.emitOnce (.kGroup cluster))

/-- Drops the lines that are needed no more, and their pins. -/
def State.dropLines (s : State) (k e : Nat) (keep : List Nat) : State :=
  let s := s.updRun k e fun r => { r with lines := r.lines.filter fun x => keep.contains x.1 }
  let pins := (s.cluster k).pins
  let left := pins.filter fun p => keep.contains p.vline
  if left.length = pins.length then s else (s.updCluster k fun c => { c with pins := left }).unblocked

/-! A tile begins (R302). -/

/-- The C rows of a tile: one run each. -/
def cRuns (c : Card) (idx : List Nat) : List (Int × Nat) :=
  (span 0 128).map fun i => ((cdCbase c : Int) + cdOffC c idx + (i * cdLdc c : Nat), 128 * cdSizeC c)

/-- The value of a C code as an initial accumulator. -/
def initVal (table : DecodeTable) (t code : Nat) : BitVec 32 :=
  rneFp32 (if isD8 t then tableVal table code else Elem.decode (elemOf t) code)

/-- Reads runs of an operand's space one after another: their bytes, or the first fault. -/
def State.readAll (s : State) (inst : Nat) (sp : BitVec 8) : List (Int × Nat) → RangeRead × State
  | [] => (.ok [], s)
  | x :: r =>
    let y := s.readBytes inst ⟨sp, BitVec.ofInt 64 x.1⟩ x.2
    match y.1 with
    | .ok b =>
      let z := y.2.readAll inst sp r
      (match z.1 with
        | .ok q => .ok (b ++ q)
        | .bad c v => .bad c v
        | .hole => .hole, z.2)
    | .bad c v => (.bad c v, y.2)
    | .hole => (.hole, y.2)

/-- A tile at its initial values is installed, with the mode in which it is computed. -/
def State.beginWith (s : State) (k e : Nat) (j : JobEntry) (init : List (BitVec 32)) : State :=
  let begin_ := fun (s : State) (m : TileMode) =>
    (s.updRun k e fun r =>
      let acc := match r.restored with
        | some a => a
        | none => init
      { r with tile := startTile init acc, mode := some m, restored := none, keep := none, kg := 0, written := 0 }).emitOnce (.kGroup k)
  match j.run with
  | none => s
  | some r =>
    match r.keep with
    | some m => begin_ s m
    | none =>
      if cdSmp r.card then
        match s.drawTile j r.card r.index with
        | .exact f => begin_ s (.exact f none)
        | .estimate d => begin_ s (.sampled d)
        | .poisoned off => s.jobFault k e .read 12 ⟨cdSpace r.card, BitVec.ofNat 64 off⟩
      else begin_ s (.exact flagExact none)

/-- The tile's initial accumulators: +0, or C's values for WBM 1. -/
def State.beginTile (s : State) (k e : Nat) (j : JobEntry) (r : JobRun) : Res :=
  let c := r.card
  if cdWbm c != 1 then .next (s.beginWith k e j (List.replicate 16384 0))
  else
    match (cRuns c r.index).find? runBad with
    | some x => .next (s.endWith k e 2 (x.1 % 2 ^ 48).toNat)
    | none =>
      let x := s.readAll j.inst (cdSpace c) (cRuns c r.index)
      match x.1 with
      | .hole => .fault .nothingThere
      | .bad cause va => .next (x.2.jobFault k e .read cause va)
      | .ok b =>
        let z := cdSizeC c
        let init := (unpackLanes (8 * z) (leNat b) 16384).map (initVal (j.table.getD []) (cdFc c))
        .next (x.2.beginWith k e j init)

/-! k-groups (R306 to R308, spec/15 R328, R331). -/

/-- The parts of steps that slice n of a tile covers. -/
def slicePieces (c : Card) (idx : List Nat) (n : Nat) : List Piece :=
  let w := cdWidth c
  let k := cdStepK c
  let lo := n * w
  let first := lo / k
  let last := (lo + w - 1) / k
  if first = last then [⟨stepAt c idx first, lo % k, w⟩]
  else
    let m := k - lo % k
    [⟨stepAt c idx first, lo % k, m⟩, ⟨stepAt c idx last, 0, w - m⟩]

/-- What the run adds next; none once the tile is complete. -/
def JobRun.unit (r : JobRun) : Option (List Piece) :=
  match r.mode with
  | none => none
  | some (.exact _ _) => if cdKb r.card < r.kg then none else some [⟨r.index, 32 * r.kg, 32⟩]
  | some (.sampled d) =>
    match d.slices[d.next]? with
    | some x => some (slicePieces r.card r.index x.1)
    | none => none

/-- The lines that later parts of the same step use. -/
def JobRun.laterLines (r : JobRun) : List Nat :=
  match r.mode with
  | none => []
  | some (.exact _ _) =>
    linesOf ((span r.kg (cdKb r.card + 1 - r.kg)).map fun g => pieceRuns r.card ⟨r.index, 32 * g, 32⟩).flatten
  | some (.sampled d) =>
    let later := ((d.slices.drop d.next).map fun x => slicePieces r.card r.index x.1).flatten
    match later with
    | [] => []
    | p :: _ => linesOf ((later.filter fun q => q.idx = p.idx).map (pieceRuns r.card)).flatten

/-- The bytes of the block scales of a piece's runs; other formats have none. -/
def scaleRuns (t base_ scales : Nat) (l : List (Int × Nat)) : List (Int × Nat) :=
  if isMxCode t then l.map fun x => (scaleAddr scales base_ t x, 1) else []

/-- The block scales of a piece's runs, 0 for other formats; or a fault. -/
def State.scales (s : State) (inst : Nat) (sp : BitVec 8) (t base_ scales : Nat) (l : List (Int × Nat)) : RangeRead × State :=
  if isMxCode t then s.readAll inst sp (scaleRuns t base_ scales l) else (.ok (l.map fun _ => 0), s)

/-- The address of an illegal metadata word. -/
def badMeta (r : JobRun) (p : Piece) : Option Int :=
  ((metaRuns r.card p).find? fun x => (expand (leNat (r.bytes x)) 8 ((span 0 16).map fun _ => Val.fin false 0 0)).isNone).map (·.1)

/-- The values of A's rows and B's columns over a piece. -/
def pieceVals (table : DecodeTable) (r : JobRun) (p : Piece) (sa sb : List Nat) : List (List Val) × List (List Val) :=
  let c := r.card
  let bs := rowVals table (cdFb c) p.n sb ((bRuns c p).map r.bytes)
  let stored := rowVals table (cdFa c) (if cdSparse c then p.n / 2 else p.n) sa ((aRuns c p).map r.bytes)
  let as :=
    if cdSparse c then (stored.zip (metaRuns c p)).map fun x => (expand (leNat (r.bytes x.2)) 8 x.1).getD []
    else stored
  (as, bs)

/-- Joins the values of two pieces line by line. -/
def joinLines (a b : List (List Val)) : List (List Val) := (a.zip b).map fun x => x.1 ++ x.2

/-- The values of the pieces of a unit. -/
def unitVals (table : DecodeTable) (r : JobRun) : List (Piece × List Nat × List Nat) → List (List Val) × List (List Val)
  | [] => ([], [])
  | [x] => pieceVals table r x.1 x.2.1 x.2.2
  | x :: y :: rest =>
    let a := pieceVals table r x.1 x.2.1 x.2.2
    let b := unitVals table r (y :: rest)
    (joinLines a.1 b.1, joinLines a.2 b.2)

/-- The k-groups of the tile that come before the run's next one. -/
def JobRun.groupsDone (r : JobRun) : Nat := stepNumber r.card r.index * (cdKb r.card + 1) + r.kg

/-- Lean mode's L (R299, R318). -/
def cdL (c : Card) : Nat := 4 * cdLean c

/-- The run after a unit: the sums and the accumulators take its values, lean bits numbered from ctr on. -/
def JobRun.add (r : JobRun) (ctr : Nat) (as bs : List (List Val)) : JobRun :=
  let c := r.card
  match r.mode with
  | none => r
  | some (.exact _ _) =>
    let t := r.tile.sum ⟨1, 0⟩ 32 as bs
    let t := if r.groupsDone < r.skip then t
      else { t with acc := leanBits (cdL c) ctr (addProducts (Val.ofInt 1) t.acc (products as bs)) }
    if r.kg = cdKb c && !lastStep c r.index then { r with tile := t, kg := 0, index := (nestNext c 0 r.index).getD r.index }
    else { r with tile := t, kg := r.kg + 1 }
  | some (.sampled d) =>
    match d.slices[d.next]? with
    | none => r
    | some x =>
      let g := sliceFactor x
      let p := products as bs
      let t := r.tile.sum (Val.dyadic g) (cdWidth c) as bs
      { r with
        tile := { t with acc := leanBits (cdL c) ctr (addProducts g t.acc p) }
        mode := some (.sampled (d.note (cdL c) (ctr + 16384) x p)) }

/-- Adds the run's next unit, whose lines it holds. -/
def State.addUnit (s : State) (k e : Nat) (j : JobEntry) (r : JobRun) (l : List Piece) : Res :=
  let c := r.card
  match l.findSome? (badMeta r) with
  | some a => .next (s.endWith k e 5 (a % 2 ^ 48).toNat)
  | none =>
    let ra := (l.map (aRuns c)).flatten
    let rb := (l.map (bRuns c)).flatten
    match (scaleRuns (cdFa c) (cdAbase c) r.ascale ra ++ scaleRuns (cdFb c) (cdBbase c) r.bscale rb).find? runBad with
    | some x => .next (s.endWith k e 2 (x.1 % 2 ^ 48).toNat)
    | none =>
    let sa := s.scales j.inst (cdSpace c) (cdFa c) (cdAbase c) r.ascale ra
    let sb := sa.2.scales j.inst (cdSpace c) (cdFb c) (cdBbase c) r.bscale rb
    match sa.1, sb.1 with
    | .hole, _ => .fault .nothingThere
    | .bad cause va, _ => .next (s.jobFault k e .read cause va)
    | .ok _, .hole => .fault .nothingThere
    | .ok _, .bad cause va => .next (s.jobFault k e .read cause va)
    | .ok a, .ok b =>
      let s := sb.2
      let parts := (indexed 0 (l.map fun _ => 0)).zip l |>.map fun x =>
        (x.2, (((a.drop (128 * x.1.1)).take 128).map (·.toNat)), (((b.drop (128 * x.1.1)).take 128).map (·.toNat)))
      let v := unitVals (j.table.getD []) r parts
      let r := r.add s.freeCtr v.1 v.2
      let s := if cdL c = 0 then s else { s with freeCtr := s.freeCtr + 32768 }
      let s := (s.updRun k e fun _ => r).dropLines k e r.laterLines
      .next (if r.unit.isNone then s.emitOnce (.tileWriteBack k) else s.emitOnce (.kGroup k))

/-- K_GROUP: a job that is to stop stops here; a tile begins; lines that the next group needs are fetched; or the group is
added. -/
def execKGroup (cluster : Nat) (s : State) : Res :=
  match s.runningJob cluster with
  | none => .next s
  | some (e, j, r) =>
    if !r.going || !r.ready || j.norm then .next s
    else if r.cancelled && r.written = 0 then .next (s.endWith cluster e 6 0)
    else if r.mode.isNone then s.beginTile cluster e j r
    else
      match r.unit with
      | none => .next (s.emitOnce (.tileWriteBack cluster))
      | some l =>
        let runs := (l.map (pieceRuns r.card)).flatten
        match runs.find? runBad with
        | some x => .next (s.endWith cluster e 2 (x.1 % 2 ^ 48).toNat)
        | none =>
          let missing := (linesOf runs).filter fun n => (tabFind r.lines n).isNone
          if missing = [] then s.addUnit cluster e j r l
          else .next (missing.foldl (fun s n => s.emitOnce (.tileFetch cluster n)) s)

/-! The yield (R320, spec/15 R338). -/

/-- The run's tile is an estimated one, or one whose draw is still to be made: it is drawn again when the job resumes (spec/15 R338). -/
def JobRun.estimated (r : JobRun) : Bool :=
  match r.mode with
  | some (.sampled _) => true
  | some (.exact _ _) => false
  | none => cdSmp r.card && r.keep.isNone

/-- The mode of an exactly computed tile, which its entry keeps. -/
def JobRun.kept (r : JobRun) : Option TileMode :=
  match r.mode with
  | some (.exact f x) => some (.exact f x)
  | some (.sampled _) => none
  | none => r.keep

/-- The position record. A tile to which every k-group is added stands at the last step with KG = KB + 1 (DESIGN CHOICE, log 34). -/
def JobRun.position (r : JobRun) : List Byte :=
  let c := r.card
  let q := if r.estimated then 0 else max r.groupsDone r.skip
  let all := cdSteps c * (cdKb c + 1) ≤ q
  let idx := stepAt c r.index (if all then cdSteps c - 1 else q / (cdKb c + 1))
  let kg := if all then cdKb c + 1 else q % (cdKb c + 1)
  leBytes (packLanes 12 idx + kg % 128 * 2 ^ 64 + (if r.rex then 2 ^ 95 else 0) + r.ordinal % 2 ^ 32 * 2 ^ 96) 64

/-- The position record cannot say where the run stands, since KB + 1 does not fit KG: it yields once its tile is recorded (DESIGN
CHOICE, log 34). -/
def JobRun.unsayable (r : JobRun) : Bool := r.mode.isSome && !r.estimated && r.unit.isNone && 127 ≤ cdKb r.card

/-- Writes the save area, row by row, up to the first fault: whether all of it is written. -/
def State.saveRows (s : State) (k inst : Nat) (sp : BitVec 8) : Nat → List (List Byte) → Bool × State
  | _, [] => (true, s)
  | off, b :: r =>
    match s.plan inst { w := true } ⟨sp, BitVec.ofNat 64 off⟩ b.length with
    | .ok l => (s.writePlan (.cluster k) l b).saveRows k inst sp (off + b.length) r
    | .bad _ _ => (false, s)
    | .hole => (false, s)

/-- A pin of another engine holds a write of the save area (R304). -/
def State.saveHeld (s : State) (k inst : Nat) (c : Card) : Bool :=
  match s.plan inst { w := true } ⟨cdSpace c, BitVec.ofNat 64 (cdSave c)⟩ (saveSize + 64) with
  | .ok l => s.planPinned k l
  | .bad _ _ => false
  | .hole => false

/-- Rows of 512 bytes of the accumulators, and the position record. The accumulators of a tile that has not begun are free values,
numbered from ctr on (DESIGN CHOICE, log 34). -/
def JobRun.saveArea (r : JobRun) (ctr : Nat) : List (List Byte) :=
  let acc := if r.mode.isSome then r.tile.acc.map (·.toNat)
    else match r.restored with
      | some l => l.map (·.toNat)
      | none => (span ctr 16384).map fun n => (Config.freeValue n).toNat
  (chunks 128 128 acc).map (fun row => leBytes (packLanes 32 row) 512) ++ [r.position]

/-- The run as it is held in its entry: a tile that is not saved starts again from init. -/
def JobRun.yielded (r : JobRun) (saved : Bool) : JobRun :=
  { r with
    keep := r.kept, mode := none, tile := {}, lines := [], fault := none, restored := none, skip := 0
    saved := saved, kg := 0, index := firstStep r.card r.index }

/-- ENGINE_YIELD: the running job of a pre-empted instance is saved and held, unless it has come to its end, or its tile's
write-back is under way. -/
def execEngineYield (cluster : Nat) (s : State) : Res :=
  match s.runningJob cluster with
  | none => .next s
  | some (e, j, r) =>
    if j.norm || s.runs j.inst || r.finish.isSome || r.written != 0 || r.failed || r.unsayable ||
        (r.ready && s.saveHeld cluster j.inst r.card) then .next s
    else
      let x := if r.ready then
          { s with freeCtr := s.freeCtr + 16384 }.saveRows cluster j.inst (cdSpace r.card) (cdSave r.card) (r.saveArea s.freeCtr)
        else (false, s)
      let s := x.2.leaveJob cluster e
      let s := s.putJob cluster e { (s.cluster cluster).job e with st := .yielded, run := some (if r.ready then r.yielded x.1 else { r with fault := none }) }
      .next ((s.settleInst j.inst).emitOnce (.matrixJobStart cluster))

end Sys2Proof.Machine
end

