-- ==== Sys2Proof/Machine/Norm.lean ====
section
/-! DEFINITION. MX.NORM's job: the check, the overlap test, the installation of a rind directory entry and its recompute
(spec/15 R323, R325, spec/16 R350). -/

namespace Sys2Proof.Machine

/-- The descriptor is invalid, or empties an entry when NB = 0 (R350). -/
def rindDescBad (r : RindEntry) : Bool :=
  fld r.desc.toNat 259 20 != 0 || !sampledType r.ety || r.pitch % 64 != 0 || r.pitch < r.kn * r.size || r.rbase % 128 != 0 ||
  r.sbase % 64 != 0 || (r.kn = 0 && r.nb != 0)

def RindEntry.dir (r : RindEntry) : Nat := fld r.desc.toNat 271 264
/-- Lines of the tensor, and the element bytes of one. -/
def RindEntry.lines (r : RindEntry) : Nat := 128 * r.nb
def RindEntry.lineBytes (r : RindEntry) : Nat := r.kn * r.size
/-- Rind blocks of the tensor. -/
def RindEntry.blocks (r : RindEntry) : Nat := r.nb * r.cols

/-- The element bytes of two tensors overlap: the physical bytes of their NORMED pages (spec/15 R325). -/
def RindEntry.overlaps (r q : RindEntry) : Bool :=
  r.elems.any fun a => q.elems.any fun b => a.pa < b.pa + b.len && b.pa < a.pa + a.len

/-- The segments of n bytes of a target from an offset on: an alias page's block is 32 code bytes and its scale (spec/10 R234). -/
def targetSegs (off : Nat) (t : Target) (n : Nat) : List Seg :=
  match t.place with
  | .home pa => [⟨off, pa, n, 1⟩]
  | .mx f v _ =>
    ((span (v / 64) ((v + n - 1) / 64 + 1 - v / 64)).map fun k =>
      [⟨off - v % 64 + 64 * (k - v / 64), f + 32 * k, 32, 2⟩, ⟨off - v % 64 + 64 * (k - v / 64), f + 0x100000 + k, 1, 64⟩]).flatten
  | .window _ _ => []
  | .remote _ _ => []

/-- Segments of the runs of a plan; for elements only those on NORMED pages (R325). -/
def planSegs (all : Bool) : Nat → List (Target × Nat) → List Seg
  | _, [] => []
  | off, (t, n) :: r => (if all || t.normed then targetSegs off t n else []) ++ planSegs all (off + n) r

/-- What finding the places of a tensor answers. -/
inductive SegPlan where
  | ok (l : List Seg)
  | bad (cause : Nat) (va : VAddr)
  | hole
  deriving DecidableEq, Repr

/-- Segments of n bytes of the device's own space. -/
def State.segsAt (s : State) (all : Bool) (need : Need) (off n : Nat) : SegPlan :=
  match s.plan noInst need ⟨0, BitVec.ofNat 64 off⟩ n with
  | .ok l => .ok (planSegs all off l)
  | .bad c va => .bad c va
  | .hole => .hole

/-- Element segments line by line. -/
def State.elemSegs (s : State) (r : RindEntry) : Nat → Nat → SegPlan
  | _, 0 => .ok []
  | l, n + 1 =>
    match s.segsAt false { r := true } (r.base + l * r.pitch) r.lineBytes with
    | .ok a =>
      (match s.elemSegs r (l + 1) n with
        | .ok b => .ok (a ++ b)
        | .bad c va => .bad c va
        | .hole => .hole)
    | .bad c va => .bad c va
    | .hole => .hole

/-- What locating an entry answers. -/
inductive Located where
  | ok (r : RindEntry)
  | bad (cause : Nat) (va : VAddr)
  | hole
  deriving DecidableEq, Repr

/-- The entry with the places of its elements, values and state words. -/
def State.locate (s : State) (r : RindEntry) : Located :=
  match s.elemSegs r 0 r.lines, s.segsAt true { r := true, w := true } r.rbase (4 * r.nb * r.kn),
      s.segsAt true { r := true, w := true } r.sbase (4 * r.blocks) with
  | .bad c va, _, _ => .bad c va
  | .hole, _, _ => .hole
  | .ok _, .bad c va, _ => .bad c va
  | .ok _, .hole, _ => .hole
  | .ok _, .ok _, .bad c va => .bad c va
  | .ok _, .ok _, .hole => .hole
  | .ok e, .ok v, .ok w =>
    if v.any (fun g => g.step != 1) || w.any (fun g => g.step != 1) then .bad 3 ⟨0, BitVec.ofNat 64 r.rbase⟩
    else .ok { r with elems := e, values := v, states := w }

/-- The span of the rind values and state words; all memory when it is longer than a message can say. -/
def RindEntry.extent (r : RindEntry) : Nat × Nat :=
  let lo := min r.rbase r.sbase
  let hi := max (r.rbase + 4 * r.nb * r.kn) (r.sbase + 4 * r.blocks)
  if 0xFFFFFFFE < hi - lo then (0, 0xFFFFFFFF) else (lo, hi - lo)

/-- Writes the directory; the acceptances see it once the job has ended (R323). -/
def State.putDirectory (s : State) (d : Nat) (r : RindEntry) : State :=
  s.updHub fun h => { h with
    directory := tabPut h.directory d r
    published := match tabFind h.published d with
      | some q => if q.desc = r.desc then tabPut h.published d r else h.published
      | none => h.published }

/-- The lines of a core's cache that hold values or state words of an entry. -/
def RindEntry.cachedIn (r : RindEntry) (k : Core) : List CacheLine :=
  k.cache.filter fun l => (r.values ++ r.states).any fun g => g.pa / 128 ≤ l.line && l.line ≤ (g.pa + g.len - 1) / 128

/-- No core's cache holds the values and the state words any longer (spec/15 R325). -/
def State.uncacheRind (s : State) (r : RindEntry) : State :=
  s.cores.foldl (fun s e => (r.cachedIn e.2).foldl (fun s l => s.evictLine e.1 l.line) s) s

/-- A pin holds a write-back that this needs (spec/14 R304). -/
def State.uncacheHeld (s : State) (r : RindEntry) : Bool :=
  s.cores.any fun e => (r.cachedIn e.2).any fun l => l.dirty != 0 && s.pinned (.home (128 * l.line))

/-- The entry takes its place, and every block is marked. A block's recompute succeeds only while GEN stands as this mark left it,
so that a store performed during the MX.NORM leaves its blocks stale (R340; in part DEDUCED, log 35). -/
def State.installRind (s : State) (k e : Nat) (r : RindEntry) : State :=
  let s := (s.uncacheRind r).putDirectory r.dir r
  let s := (span 0 r.blocks).foldl (fun s b => s.rindMark r b) s
  let x := r.extent
  let s := s.updCluster k fun c => { c with jobs := tabPut c.jobs e { c.job e with spanLo := x.1, spanLen := x.2 } }
  let gens := (span 0 r.blocks).map (s.rindGen r)
  (s.updRun k e fun x => { x with ready := true, kg := 0, gens := gens }).emitOnce (.rindNormJob k)

/-- Steps 1 and 2 of R350 (in part DEDUCED, log 35). -/
def State.checkRind (s : State) (k e : Nat) (r : RindEntry) : State :=
  if rindDescBad r then s.endWith k e 1 0
  else if r.nb = 0 then
    ((s.updHub fun h => { h with directory := tabDel h.directory r.dir }).updRun k e fun x => { x with ready := true }).endWith k e 0 0
  else
    match s.locate r with
    | .ok r =>
      if s.hub.directory.any fun q => q.1 != r.dir && r.overlaps q.2 then s.endWith k e 9 0
      else if s.uncacheHeld r then s
      else s.installRind k e r
    | .bad c va => s.jobFault k e .read c va
    | .hole => s.endWith k e 2 r.base

/-- The next block of the tensor is recomputed, stage by stage, in ascending (β, c); a fault of an element read is the job's (R350; in
part DEDUCED, log 35). -/
def State.normBlock (s : State) (k e : Nat) (r : RindEntry) (run : JobRun) : State :=
  let b := run.kg
  if r.blocks ≤ b then s.endWith k e 0 0
  else
    let x := s.rindStage (.cluster k) run.gens[b]? { run.rind with todo := [(r.dir, b)] }
    match x.1 with
    | .ok _ => (x.2.2.updRun k e fun q =>
        if x.2.1.todo = [] then { q with kg := b + 1, rind := {} } else { q with rind := x.2.1 }).emitOnce (.rindNormJob k)
    | .bad c va => x.2.2.jobFault k e .read c va
    | .hole => x.2.2.endWith k e 2 0

/-- The entry of a run's descriptor, as it stands in the directory. -/
def State.normEntry (s : State) (x : JobRun) : RindEntry :=
  let r : RindEntry := ⟨x.card.setWidth 512, [], [], []⟩
  match tabFind s.hub.directory r.dir with
  | some q => if x.ready then q else r
  | none => r

/-- RIND_NORM_JOB: the descriptor is read, checked and installed; then one block after another is recomputed (in part DEDUCED, log 35). -/
def execRindNormJob (cluster : Nat) (s : State) : Res :=
  match s.runningJob cluster with
  | none => .next s
  | some (e, j, x) =>
    if !j.norm || !x.going then .next s
    else if x.cancelled then .next (s.endWith cluster e 6 0)
    else if !x.loaded then
      let y := s.readBytes j.inst j.addr 64
      match y.1 with
      | .ok b => .next ((y.2.updRun cluster e fun q => { q with card := BitVec.ofNat 1024 (leNat b), loaded := true }).emitOnce
          (.rindNormJob cluster))
      | .bad c va => .next (y.2.jobFault cluster e .read c va)
      | .hole => .next (s.endWith cluster e 2 0)
    else
      let r := s.normEntry x
      .next (if x.ready then s.normBlock cluster e r x else s.checkRind cluster e r)

end Sys2Proof.Machine
end

