-- ==== Sys2Proof/Machine/Press.lean ====
section
/-! DEFINITION. The press: MX.XCHG (spec/14 R316, spec/16 R351), its forming and its rounds (spec/14 R317, R321). -/

namespace Sys2Proof.Machine

/-! The descriptor (R316). -/

def xdKey (d : BitVec 256) : Nat := fld d.toNat 159 144
def xdP (d : BitVec 256) : Nat := fld d.toNat 138 136
def xdFrag (d : BitVec 256) : Nat := fld d.toNat 135 128
def xdDst (d : BitVec 256) : Nat := fld d.toNat 113 96
def xdSrc (d : BitVec 256) : Nat := fld d.toNat 81 64
def xdTbl (d : BitVec 256) : Nat := fld d.toNat 47 0

/-- The descriptor breaks R316 for a window of n scratch banks. -/
def xdBad (n : Nat) (d : BitVec 256) : Bool :=
  let f := 128 * xdFrag d
  fld d.toNat 255 160 != 0 || fld d.toNat 143 139 != 0 || fld d.toNat 127 114 != 0 || fld d.toNat 95 82 != 0 ||
  fld d.toNat 63 48 != 0 || xdFrag d = 0 || 128 < xdFrag d || xdSrc d % 128 != 0 || xdDst d % 128 != 0 ||
  n * 8192 < xdSrc d + 8 * f || n * 8192 < xdDst d + 8 * f

/-- Scratch banks of an instance. -/
def State.scratchOf (s : State) (inst : Nat) : Nat :=
  match s.inst inst with
  | some i => i.scratch.length
  | none => 0

/-! Participants. -/

/-- Those of a key, in ascending participant number. -/
def Cluster.pressed (k : Cluster) (key : Nat) : List Participant :=
  sortBy (fun a b => decide (a.p < b.p)) (k.press.filter fun x => x.key = key)

/-- Eight participants wait for the press to form. -/
def Cluster.pressFull (k : Cluster) (key : Nat) : Bool :=
  let l := k.pressed key
  l.length = 8 && l.all fun x => !x.formed

/-- A press of the cluster has formed. -/
def Cluster.pressing (k : Cluster) : Bool := k.press.any fun x => x.formed

/-- A participant's MX.XCHG completes with a status. Its DST bytes stand in banks, which hold no cached copy, so that the acquire
of them finds nothing to invalidate (spec/10 R217). -/
def State.endExchange (s : State) (x : Participant) (status : Nat) : State :=
  match (s.thread x.core x.slot).wait with
  | some (.press key rd) =>
    if key = x.key && !x.killed then s.complete x.core x.slot false fun t => t.setReg rd (BitVec.ofNat 64 status) false else s
  | _ => s

/-- The press of a key is over for all its participants. -/
def State.endPress (s : State) (k key status : Nat) : State :=
  let l := (s.cluster k).pressed key
  let s := s.updCluster k fun c => { c with press := c.press.filter fun x => x.key != key }
  let s := l.foldl (fun s x => s.endExchange x status) s
  (l.foldl (fun s x => s.settleInst x.inst) s)

/-- MX.XCHG. -/
def execMxXchg (a d : BitVec 7) (s : State) : Res :=
  tensor 6 (wordMxXchg a d) (limit [a, d] fun s =>
    let va := s.dataAddr (s.cur.opnd a).val
    if va.off.toNat % 32 != 0 then trapAt 2 va s
    else
      let bypass := s.freshAddr (s.cur.opnd a)
      access { r := true } 32 va (fun t s =>
        peekOr 32 bypass t (fun b s =>
          let x := BitVec.ofNat 256 (leNat b)
          let k := clusterOf s.ic
          let answer := fun (n : Nat) (s : State) => done (s.setRd d (BitVec.ofNat 64 n) false)
          if xdBad (s.scratchOf s.cur.inst) x then answer 1 s
          else if (s.cluster k).press.any fun y => y.key = xdKey x && y.p = xdP x then answer 3 s
          else
            released (fun s =>
              let y : Participant :=
                { key := xdKey x, p := xdP x, core := s.ic, slot := s.is, inst := s.cur.inst, src := xdSrc x, dst := xdDst x
                  frag := xdFrag x, tbl := xdTbl x }
              let s := s.updCluster k fun c => { c with press := c.press ++ [y] }
              let s := s.park (.press (xdKey x) (s.cur.rename d.toNat))
              .next (if (s.cluster k).pressFull (xdKey x) then s.emitOnce (.pressFormation k (xdKey x)) else s)) s) s) s) s

/-! The press forms (R317). -/

/-- The default table. -/
def defaultTable : List Nat := (span 0 64).map fun i => Nat.xor (i % 8) (i / 8)

/-- No number is listed twice. -/
def noTwice : List Nat → Bool
  | [] => true
  | a :: r => !r.contains a && noTwice r

/-- Every round is a permutation, and every pair occurs in exactly one round. -/
def tableValid (t : List Nat) : Bool :=
  ((span 0 8).all fun r => noTwice ((t.drop (8 * r)).take 8)) &&
  ((span 0 8).all fun p => noTwice ((span 0 8).map fun r => t.getD (8 * r + p) 0))

/-- The table that the participants name. A table that cannot be read is invalid (DEDUCED, log 20). -/
def State.pressTable (s : State) (inst tbl : Nat) : List Nat × State :=
  if tbl = 0 then (defaultTable, s)
  else
    let r := s.readBytes inst ⟨0, BitVec.ofNat 64 tbl⟩ 24
    match r.1 with
    | .ok b => (unpackLanes 3 (leNat b) 64, r.2)
    | .bad _ _ => ([], r.2)
    | .hole => ([], r.2)

/-- PRESS_FORMATION: eight participants with equal FRAG and TBL, and a valid table, begin the rounds; else all receive 2. -/
def execPressFormation (cluster key : Nat) (s : State) : Res :=
  let l := (s.cluster cluster).pressed key
  if !(s.cluster cluster).pressFull key then .next s
  else
    match l with
    | [] => .next s
    | x :: r =>
      if r.any fun y => y.frag != x.frag || y.tbl != x.tbl then .next (s.endPress cluster key 2)
      else
        let t := s.pressTable x.inst x.tbl
        if t.1.length != 64 || !tableValid t.1 then .next (t.2.endPress cluster key 2)
        else
          let s := t.2.updCluster cluster fun c => { c with press := c.press.map fun y =>
            if y.key = key then { y with formed := true, table := t.1, round := 0 } else y }
          .next (s.emitOnce (.pressRound cluster key))

/-! The rounds. -/

/-- A row of an instance's window, with whether it is poisoned. -/
def State.windowRow (s : State) (inst off : Nat) : Option (List Byte × Bool × State) :=
  match s.inst inst with
  | none => none
  | some i =>
    match i.bankAddr off with
    | none => none
    | some a =>
      let r := s.readPlace (.window i.core a) 128
      some (r.1, r.2.1.isSome, r.2.2)

/-- Writes a row of an instance's window; a poisoned row arrives poisoned (DEDUCED, log 20). -/
def State.putWindowRow (s : State) (k inst off : Nat) (b : List Byte) (bad : Bool) : State :=
  match s.inst inst with
  | none => s
  | some i =>
    match i.bankAddr off with
    | none => s
    | some a =>
      let s := s.writePlace (.cluster k) (.window i.core a) b
      if bad then s.updCore i.core fun c => { c with badRows := c.badRows ++ [a / 128] } else s

/-- The rows of a fragment. -/
def State.fragRows (s : State) (inst : Nat) : Nat → Nat → List (List Byte × Bool) × State
  | _, 0 => ([], s)
  | off, n + 1 =>
    match s.windowRow inst off with
    | some (b, bad, s) =>
      let r := s.fragRows inst (off + 128) n
      ((b, bad) :: r.1, r.2)
    | none => ([], s)

/-- Writes the rows of a fragment. -/
def State.putRows (s : State) (k inst : Nat) : Nat → List (List Byte × Bool) → State
  | _, [] => s
  | off, (b, bad) :: r => (s.putWindowRow k inst off b bad).putRows k inst (off + 128) r

/-- What the participants send in a round: the destination, its offset, and the rows. -/
def State.sends (s : State) (l : List Participant) : List Participant → List (Participant × Nat × List (List Byte × Bool)) × State
  | [] => ([], s)
  | x :: r =>
    let d := x.table.getD (8 * x.round + x.p) 0
    let f := 128 * x.frag
    let rows := s.fragRows x.inst (x.src + d * f) x.frag
    let rest := rows.2.sends l r
    match l.find? fun y => y.p = d with
    | some y => ((y, y.dst + x.p * f, rows.1) :: rest.1, rest.2)
    | none => rest

/-- PRESS_ROUND: each participant's fragment of the round is read, and then each lands, but for those to a killed instance
(R321). -/
def execPressRound (cluster key : Nat) (s : State) : Res :=
  let l := (s.cluster cluster).pressed key
  match l with
  | [] => .next s
  | x :: _ =>
    if !x.formed then .next s
    else
      let m := s.sends l l
      let s := m.1.foldl (fun s y => if y.1.killed then s else s.putRows cluster y.1.inst y.2.1 y.2.2) m.2
      if x.round = 7 then
        let cores := l.map fun y => y.core
        .next (cores.foldl (fun s c => s.pairMoved c) (s.endPress cluster key 0))
      else
        let s := s.updCluster cluster fun c => { c with press := c.press.map fun y => if y.key = key then { y with round := y.round + 1 } else y }
        .next (s.emitOnce (.pressRound cluster key))

end Sys2Proof.Machine
end

