-- ==== Sys2Proof/Machine/Reply.lean ====
section
/-! DEFINITION. Replies to parked threads (spec/04 R97), page walks (spec/10 R231), words that encode no instruction (spec/02
R39) and fetches that fault (spec/10 R229), refresh (R238), the sweep (spec/11 R251) and the arrival of port elements (spec/08
R177). -/

namespace Sys2Proof.Machine

/-- The access of a thread is performed. -/
def replyTo (core slot : Nat) (s : State) : Res :=
  match (s.thread core slot).wait with
  | some (.access (.vatRead t rd control)) =>
    if (s.thread core slot).redOverlap t.place 16 || s.readHeld core slot true t 16 then .next s else resume core slot (vatReadNow t rd control) s
  | some (.access (.tableRead l off rd)) =>
    if (s.thread core slot).redIn l || s.runsHeld core slot l then .next s else resume core slot (tableReadNow l off rd) s
  | some (.access p) => performAccess core slot p s
  | _ => .next s

/-- ACCESS_REPLY: the access that a thread waits for is performed, unless a pin or an earlier RED holds it. -/
def execAccessReply (core slot : Nat) (s : State) : Res :=
  match replyTo core slot s with
  | .next s =>
    (match (s.thread core slot).wait with
      | some (.access _) => .next s
      | _ => .next ((s.accessDone (some (core, slot)) none).settleHalted core slot))
  | .fault f => .fault f
  | .refused r => .refused r

/-- A thread that waits goes on waiting for the kernel's answer to a new fault record (spec/10 R230). -/
def State.faultThread (s : State) (c sl code : Nat) (kind : AccessKind) (va : VAddr) : State :=
  (s.fault (.thread c sl) kind va code (s.thread c sl).inst).updThread c sl fun t => t.waitFor (.fault s.serial)

/-- PAGE_TABLE_WALK: the walk that a thread waits for ends; the thread translates again, by the entry that the walk brought, or
meets its fault. -/
def execPageTableWalk (core slot : Nat) (s : State) : Res :=
  match (s.thread core slot).wait with
  | some (.walk va kind) =>
    let r := s.refillTlb core va
    (match r.1 with
      | .leaf base size leaf k =>
        let e : TlbEntry := ⟨s.normSpace va.space, base, size, leaf, k⟩
        .next (((r.2.updThread core slot fun t => { t with walked := t.walked ++ [e] }).wake core slot).settleHalted core slot)
      | .access => .next ((r.2.faultThread core slot 3 kind va).settleHalted core slot)
      | .page => .next ((r.2.faultThread core slot (if s.lostSpace va.space then 3 else 4) kind va).settleHalted core slot)
      | .hole => .fault .nothingThere)
  | _ => .next s

/-! Words that are no instruction, and fetches that fault. -/

/-- ILLEGAL_INSTRUCTION, for the issuing thread. -/
def execIllegalInstruction (word : BitVec 32) (s : State) : Res := illegal word s

/-- INSTRUCTION_FETCH_FAULT: an access or page fault waits for the kernel; any other cause traps at once, with TVAL = PC. -/
def execInstructionFetchFault (cause : BitVec 5) (s : State) : Res :=
  if cause = 3 || cause = 4 then fetchWait (parkFault cause.toNat .fetch ⟨0, s.cur.pc⟩ s) else trap cause.toNat s.cur.pc s

/-! Refresh (spec/10 R238, R239). -/

/-- Refreshes that a bank may owe (in part DESIGN CHOICE, log 36). -/
def maxDebt : Nat := 8

/-- All-bank refreshes of a bank's pseudo-channel, until no bank of it owes one (R239). -/
def State.refreshAll (s : State) (bank : Nat) : State :=
  { s with debts := (pseudoBanks bank).foldl (fun t b => tabPut t b 0) s.debts }

/-- REFRESH_DUE: the refresh is issued, or postponed, which the controller decides by accesses that the model does not queue: a
free value says which (DESIGN CHOICE, log 3). A bank that owes 8 forces the refresh of its whole pseudo-channel. -/
def execRefreshDue (bank : Nat) (s : State) : Res :=
  let d := tabGet 0 s.debts bank
  if maxDebt ≤ d then .next (s.refreshAll bank)
  else
    let x := s.draw
    if (Config.freeValue x.1).getLsbD 0 then .next { x.2 with debts := tabPut s.debts bank (d + 1) } else .next x.2

/-- POSTPONED_REFRESH (in part DESIGN CHOICE, log 36). -/
def execPostponedRefresh (bank : Nat) (s : State) : Res := .next { s with debts := tabPut s.debts bank (tabGet 0 s.debts bank - 1) }

/-! The sweep (spec/11 R251). -/

def SigEntry.age (e : SigEntry) : SigEntry := { e with prev := e.prev ||| e.cur, cur := 0 }

/-- SWEEP: the current halves move into the previous ones, and every core is to report; a sweep that is due while another is
under way waits for it. -/
def execSweep (s : State) : Res :=
  match s.hub.sweep with
  | .reporting _ => .next (s.updHub fun h => { h with sweepDue := true })
  | .idle =>
    let s := { s with
      cores := s.cores.map fun (e : Nat × Core) => (e.1, { e.2 with sighPrev := e.2.sighPrev ||| e.2.sighCur, sighCur := 0 })
      clusters := s.clusters.map fun (e : Nat × Cluster) => (e.1, { e.2 with sigs := e.2.sigs.map SigEntry.age }) }
    .next ((s.updHub fun h => { h with sweep := .reporting [] }).emitAll ((span 0 Config.cores).map Instr.sweepCoreStep))

/-- Writes back the dirty sectors of a core, and invalidates the sectors of ATTR 0 pages. -/
def State.sweepCore (s : State) (c : Nat) : State :=
  (s.writeBackAll c).updCore c fun k => { k with cache := k.cache.filter fun l => !l.cached }

/-- SWEEP_CORE_STEP: the core's part of step 2, between two of its instructions. A write-back that a pin holds makes it wait
(spec/14 R304). -/
def execSweepCoreStep (core : Nat) (s : State) : Res :=
  match s.hub.sweep with
  | .idle => .next s
  | .reporting l =>
    if l.contains core || Config.cores ≤ core || s.dirtyPinned core then .next s
    else
      let s := (s.sweepCore core).updHub fun h => { h with sweep := .reporting (l ++ [core]) }
      .next (if l.length + 1 = Config.cores then s.emitOnce .sweepClear else s)

/-- SWEEP_CLEAR: once every core has reported, the previous halves are cleared, and a sweep that was due begins. -/
def execSweepClear (s : State) : Res :=
  match s.hub.sweep with
  | .idle => .next s
  | .reporting l =>
    if l.length < Config.cores then .next s
    else
      let t := { s with
        cores := s.cores.map fun (e : Nat × Core) => (e.1, { e.2 with sighPrev := 0 })
        clusters := s.clusters.map fun (e : Nat × Cluster) => (e.1, { e.2 with sigs := e.2.sigs.map fun (x : SigEntry) => { x with prev := 0 } }) }
      let t := t.updHub fun h => { h with sweep := .idle, sweepDue := false }
      .next (if s.hub.sweepDue then t.emitOnce .sweep else t)

/-! Port elements (spec/08 R177). -/

/-- PORT_ELEMENT_ARRIVAL: the oldest element of the send side that faces the core's receive side joins it, when there is room;
during an exchange of either core it is held. -/
def execPortElementArrival (core : Nat) (dir : Port) (s : State) : Res :=
  match neighbour core dir with
  | none => .next s
  | some n =>
    let side := portNumber dir
    let back := portNumber (facing dir)
    match tabGet [] (s.core n).sends back with
    | [] => .next s
    | e :: rest =>
      if s.exchanging core || s.exchanging n || s.portRoom core ≤ (tabGet [] (s.core core).ports side).length then .next s
      else
        let s := s.updCore n fun k => { k with sends := tabPut k.sends back rest }
        let s := s.updCore core fun k => { k with ports := tabPut k.ports side (tabGet [] k.ports side ++ [e]) }
        .next ((s.wakeIf core (isElement (122 + side))).sideMoved core dir)

end Sys2Proof.Machine
end

