-- ==== Sys2Proof/Machine/Node.lean ====
section
/-! DEFINITION. This device's node in the trees of groups: the group table (spec/22 R407), credits (R414), the combining of a
step (R411 to R413), results, loss, holds and reforms (R418 to R420), and scalar steps (spec/23 R426, R427). -/

namespace Sys2Proof.Machine

/-! The group table (R407). -/

abbrev GroupEntry := BitVec 128

def geParent (e : GroupEntry) : Nat := fld e.toNat 127 120
def geTopo (e : GroupEntry) : Nat := fld e.toNat 119 112
def geNloc (e : GroupEntry) : Nat := fld e.toNat 111 96
def geNch (e : GroupEntry) : Nat := fld e.toNat 95 91
def geRoot (e : GroupEntry) : Bool := e.getLsbD 90
def geUse (e : GroupEntry) : Nat := fld e.toNat 89 88
def geOp (e : GroupEntry) : Nat := fld e.toNat 87 86
def geType (e : GroupEntry) : Nat := fld e.toNat 85 82
def geFxp (e : GroupEntry) : Bool := e.getLsbD 81
def geSlots (e : GroupEntry) : Nat := fld e.toNat 80 75
def geMember (e : GroupEntry) : Bool := e.getLsbD 64
def geStamp (e : GroupEntry) : BitVec 32 := e.extractLsb' 32 32
def geApplied (e : GroupEntry) : BitVec 32 := e.extractLsb' 0 32

def State.group (s : State) (g : Nat) : GroupEntry := tabGet 0 s.hub.groups g

def State.putGroup (s : State) (g : Nat) (e : GroupEntry) : State := s.updHub fun h => { h with groups := tabPut h.groups g e }

/-- The entry takes collectives. -/
def geCollects (e : GroupEntry) : Bool :=
  (geUse e = 1 || geUse e = 3) && fld e.toNat 74 66 = 0 && geOp e != 3 && (geType e = 2 || geType e = 7 || geType e = 8)

/-- The entry takes multicast. -/
def geCasts (e : GroupEntry) : Bool := (geUse e = 2 || geUse e = 3) && fld e.toNat 74 66 = 0

/-- The sum is in fixed point (R412). -/
def geFixed (e : GroupEntry) : Bool := geFxp e && geOp e = 0 && geType e != 2

def geFmt (e : GroupEntry) : Fmt := if geType e = 7 then .bf16 else .fp32
/-- Bits of an element, and elements in a packet (R411). -/
def geBits (e : GroupEntry) : Nat := if geType e = 7 then 16 else 32
def geLanes (e : GroupEntry) : Nat := if geType e = 7 then 32 else 16

/-! Values (R411 to R413). -/

/-- p op x, and whether a sum of finite values overflowed. -/
def combineOp (e : GroupEntry) (p x : Nat) : Nat × Bool :=
  if geOp e = 1 then ((laneMinMax false (elemOf (geType e)) p x).1, false)
  else if geOp e = 2 then ((laneMinMax true (elemOf (geType e)) p x).1, false)
  else if geType e = 2 then ((p + x) % 2 ^ 32, false)
  else
    let a := Fmt.decode (geFmt e) p
    let b := Fmt.decode (geFmt e) x
    let r := roundFlt (geFmt e) (Val.add .rne a b).1 false .rne false
    (r.1, Val.isFin a && Val.isFin b && !Val.isFin (Fmt.decode (geFmt e) r.1))

/-- Folds an element's contributions in their order. -/
def combineAll (e : GroupEntry) : List Nat → Nat × Bool
  | [] => (0, false)
  | p :: r => r.foldl (fun acc x =>
      let y := combineOp e acc.1 x
      (y.1, acc.2 || y.2)) (p, false)

/-- NAN and INF of a contribution's element. -/
def nonfiniteOf (e : GroupEntry) (x : Nat) : BitVec 32 :=
  if geType e = 2 then 0
  else
    match Fmt.decode (geFmt e) x with
    | .nan => 1
    | .inf _ => 2
    | .fin _ _ _ => 0

/-- The exponent of a contribution's element (R412). -/
def exponentOf (e : GroupEntry) (x : Nat) : Int :=
  match Fmt.decode (geFmt e) x with
  | .fin n m k => if m = 0 then -126 else max (-126) (floorLog2 (.fin n m k))
  | .nan => -126
  | .inf _ => -126

/-- RNE to an integer of m * 2^k. -/
def rneShift (m : Nat) (k : Int) : Nat :=
  if 0 ≤ k then m * 2 ^ k.toNat
  else
    let d := 2 ^ (-k).toNat
    let q := m / d
    let r := m % d
    if 2 * r < d then q else if d < 2 * r then q + 1 else q + q % 2

/-- k of a contribution's element at the scale 2^f (R412). -/
def fixedOf (e : GroupEntry) (f : Int) (x : Nat) : Int :=
  match Fmt.decode (geFmt e) x with
  | .fin n m k => if n then -(rneShift m (k - f) : Int) else rneShift m (k - f)
  | .nan => 0
  | .inf _ => 0

/-- The result of a fixed-point sum, with FRNG and ROF. -/
def fixedResult (e : GroupEntry) (f : Int) (n : BitVec 64) : Nat × BitVec 32 :=
  let v : Val := if n = 0 then .fin false 0 0 else .fin (decide (n.toInt < 0)) n.toInt.natAbs f
  let r := (roundFlt (geFmt e) v false .rne false).1
  (r, (if n = BitVec.intMin 64 then 8 else 0) ||| (if Val.isFin (Fmt.decode (geFmt e) r) then 0 else 4))

/-! Steps. -/

def State.findStep (s : State) (g : Nat) (n : BitVec 32) (scalar : Bool) : Option StepState :=
  s.hub.steps.find? fun x => x.group = g && x.stepNo = n && x.scalar = scalar

def StepState.same (x y : StepState) : Bool := x.group = y.group && x.stepNo = y.stepNo && x.scalar = y.scalar

/-- A step number has been used by the other kind of step as well, now or before (spec/23 R429; in part DEDUCED, log 39). -/
def State.mixedUse (s : State) (g : Nat) (n : BitVec 32) (scalar : Bool) : Bool :=
  (s.hub.steps.any fun y => y.group = g && y.stepNo = n && y.scalar != scalar) ||
  s.hub.contributors.any fun x => x.1 = g && x.2.1 = n && x.2.2.2 != scalar

/-- A held result of a scalar step whose number a descriptor uses as well is unspecified (R429; DESIGN CHOICE, log 3). -/
def State.blurResult (s : State) (x : StepState) : State :=
  if !x.scalar && s.hub.results.any fun r => r.group = x.group && r.stepNo = x.stepNo then
    { s with freeCtr := s.freeCtr + 2 }.updHub fun h => { h with results := h.results.map fun (r : HeldResult) =>
      if r.group = x.group && r.stepNo = x.stepNo then
        { r with value := Config.freeValue s.freeCtr, word := Config.freeValue (s.freeCtr + 1) &&& 0xFFFF }
      else r }
  else s

/-- Puts a step in its place; a number that a step of the other kind uses as well is mixed in both (spec/23 R429; in part DEDUCED, log 39). -/
def State.putStep (s : State) (x : StepState) : State :=
  let other := s.mixedUse x.group x.stepNo x.scalar
  let s := if other && !x.mixed then s.blurResult x else s
  let x := if other then { x with mixed := true } else x
  let mark := fun (y : StepState) => if other && y.group = x.group && y.stepNo = x.stepNo then { y with mixed := true } else y
  s.updHub fun h =>
    let l := h.steps.map mark
    { h with steps := if l.any x.same then l.map (fun y => if x.same y then x else y) else l ++ [x] }

/-- The rank under which a broadcast's step is remembered: no contributor's. -/
def noRank : Nat := 1024

def State.dropStep (s : State) (x : StepState) : State := s.updHub fun h => { h with
  steps := h.steps.filter fun y => !x.same y
  contributors := h.contributors ++
    if x.kind = 2 then [(x.group, x.stepNo, noRank, x.scalar)] else x.ranks.map fun r => (x.group, x.stepNo, r.rank, x.scalar) }

/-- The step is on hold (R420; in part DEDUCED, log 58). -/
def State.onHold (s : State) (x : StepState) : Bool := s.hub.holds.any fun h => h.1 = x.group && h.2.1 = x.stepNo

def StepState.chunkLen (x : StepState) (c : Nat) : Nat := if x.count = 0 then x.chunk else min x.chunk (x.count - c * x.chunk)
def StepState.chunks (x : StepState) : Nat := (x.count + x.chunk - 1) / x.chunk

/-- Element i of a rank, and of a child's packets of a pass. -/
def StepState.partElem (x : StepState) (r i : Nat) : Option Nat :=
  x.parts.findSome? fun p => if p.rank = r && p.offset ≤ i then (p.elems[i - p.offset]?).map (·.toNat) else none

def StepState.childElem (x : StepState) (pass d i : Nat) : Option (BitVec 64) :=
  x.children.findSome? fun p => if p.source = d && p.pass = pass && p.offset ≤ i then p.elems[i - p.offset]? else none

/-- The children that have sent, in ascending device id. -/
def StepState.childIds (x : StepState) : List Nat :=
  sortBy (fun a b => decide (a < b)) (x.children.foldl (fun acc p => if acc.contains p.source then acc else acc ++ [p.source]) [])

/-- Every local contribution of a chunk is here. -/
def StepState.localReady (x : StepState) (n c : Nat) : Bool :=
  (span 0 n).all fun r => (span (c * x.chunk) (x.chunkLen c)).all fun i => (x.partElem r i).isSome

/-- Every child's partial of a chunk is here; pass 1 has one element for a chunk. -/
def StepState.childrenReady (x : StepState) (e : GroupEntry) (pass c : Nat) : Bool :=
  let ids := x.childIds.filter fun d => (span (c * x.chunk) (if pass = 1 then 1 else x.chunkLen c)).all fun i => (x.childElem pass d i).isSome
  ids.length = geNch e

/-! Events of the link command queue (spec/23 R434). -/

/-- An event for a core's link thread. -/
def linkEvent (kind : Nat) (n : BitVec 32) (g : Nat) : Word := BitVec.ofNat 64 (2 ^ 63 + kind * 2 ^ 60 + n.toNat * 2 ^ 12 + g)

/-- The switch enters an event; the link thread goes on. -/
def State.pushEvent (s : State) (c : Nat) (v : Word) : State :=
  let s := s.updCore c fun k => { k with lnk := k.lnk ++ [⟨v, noInst⟩] }
  match (s.thread c 63).wait with
  | some (.element _) => s.wake c 63
  | some (.room .link) => s.wake c 63
  | _ => s

/-- Local buffers of a group are free: what waits for one goes on. -/
def State.buffersFreed (s : State) (g : Nat) : State := s.wakeAll fun _ w => isRoom (.buffer g) w || isRoom .link w

/-! Tree edges (R414). -/

def edgeKey (g d : Nat) : Nat := 256 * g + d

/-- Every child of the node, of a broadcast, of which the node hears nothing from them; no device has the id 0 (spec/22 R405; in part
DESIGN CHOICE, log 37). Its count is that of a child that has freed no buffer yet. -/
def everyChild : Nat := 0

/-- Packets in the buffers of an edge: a child of which nothing was heard holds what went to every child. -/
def Hub.used (h : Hub) (g d : Nat) : Nat := (tabFind h.credits (edgeKey g d)).getD (tabGet 0 h.credits (edgeKey g everyChild))

/-- The children of a group that have a count of their own. -/
def Hub.heardFrom (h : Hub) (g : Nat) : List Nat :=
  (h.credits.filter fun x => x.1 / 256 = g && x.1 % 256 != everyChild &&
    x.1 % 256 != geParent (tabGet 0 h.groups g)).map fun x => x.1 % 256

/-- The edges that a packet to a device takes: its own, or every child's. -/
def Hub.edges (h : Hub) (g d : Nat) : List Nat := if d = everyChild then everyChild :: h.heardFrom g else [d]

/-- Each edge of a packet holds a credit (R414). A node that has heard from every child asks only them. -/
def Hub.credit (h : Hub) (g d : Nat) : Bool :=
  let e := tabGet 0 h.groups g
  (h.edges g d).all fun x => (x = everyChild && decide (geNch e ≤ (h.heardFrom g).length)) || decide (h.used g x < geSlots e)

/-- A packet takes its credits. -/
def Hub.spend (h : Hub) (g d : Nat) : Hub :=
  { h with credits := (h.edges g d).foldl (fun t x => tabPut t (edgeKey g x) (h.used g x + 1)) h.credits }

/-- Sends what holds a credit, each edge in order. -/
def State.flushOut (s : State) : State :=
  s.hub.outbox.foldl (fun s x =>
    if s.hub.credit x.2.group x.1 && !(s.hub.outbox.any fun y => y.1 = x.1 && y.2.group = x.2.group) then
      (s.updHub fun h => h.spend x.2.group x.1).record (.linkOut x.1 x.2)
    else s.updHub fun h => { h with outbox := h.outbox ++ [x] }) (s.updHub fun h => { h with outbox := [] })

/-- Hands packets to edges; a device that does not answer gets none. -/
def State.sendAll (s : State) (l : List (Nat × CombinePacket)) : State :=
  (s.updHub fun h => { h with outbox := h.outbox ++ l.filter fun x => !h.lostDevices.contains x.1 }).flushOut

/-- The packets of a step: elements from an offset on, in pieces (in part DESIGN CHOICE, log 37). -/
def packetsOf (x : StepState) (e : GroupEntry) (self pass : Nat) (nf : BitVec 32) : Nat → Nat → List (BitVec 64) → List CombinePacket
  | 0, _, _ => []
  | fuel + 1, off, l =>
    if l = [] then []
    else
      let n := geLanes e
      { group := x.group, stepNo := x.stepNo, source := self, pass := pass, offset := off, chunk := x.chunk, elems := l.take n
        nonfinite := nf, topo := BitVec.ofNat 8 (geTopo e), status := 0, kind := x.kind, scalar := x.scalar, count := x.count
        last := false } :: packetsOf x e self pass nf fuel (off + n) (l.drop n)

/-- The packet that completes a step without elements (in part DESIGN CHOICE, log 37). -/
def emptyPacket (x : StepState) (e : GroupEntry) (self : Nat) (status : BitVec 4) : CombinePacket :=
  { group := x.group, stepNo := x.stepNo, source := self, pass := 0, offset := 0, chunk := x.chunk, elems := []
    nonfinite := x.nonfinite, topo := BitVec.ofNat 8 (geTopo e), status := status, kind := x.kind, scalar := x.scalar
    count := x.count, last := true }

/-! Collective descriptors (R416), and what a loss leaves undone (R419). -/

abbrev LinkDesc := BitVec 512

def ldCrec (d : LinkDesc) : Nat := fld d.toNat 511 448
def ldCtr (d : LinkDesc) : Nat := fld d.toNat 447 384
def ldDst (d : LinkDesc) : Nat := fld d.toNat 383 320
def ldSrc (d : LinkDesc) : Nat := fld d.toNat 319 256
def ldStep (d : LinkDesc) : BitVec 32 := d.extractLsb' 224 32
def ldCount (d : LinkDesc) : Nat := fld d.toNat 223 192
def ldChunk (d : LinkDesc) : Nat := fld d.toNat 191 176
def ldGroup (d : LinkDesc) : Nat := fld d.toNat 175 164
def ldKind (d : LinkDesc) : Nat := fld d.toNat 163 160
def ldRank (d : LinkDesc) : Nat := if ldKind d = 2 then 0 else fld d.toNat 159 150

/-- The descriptor that an item is about. -/
def LinkWork.job : LinkWork → Nat
  | .read j => j
  | .send j _ => j
  | .store j _ _ => j
  | .raise j _ => j
  | .finish j _ _ _ => j

/-- The item writes a result or raises a counter. -/
def LinkWork.writes : LinkWork → Bool
  | .store _ _ _ => true
  | .raise _ _ => true
  | .read _ => false
  | .send _ _ => false
  | .finish _ _ _ _ => false

/-- The descriptors of a step that a core's link thread has accepted and not completed. -/
def Core.jobsOf (k : Core) (g : Nat) (n : BitVec 32) : List Nat :=
  (k.linkJobs.filter fun j => j.accepted && ldGroup j.desc = g && ldStep j.desc = n).map (·.key)

/-- Items of a link thread's work are dropped; its wait for one of them ends. -/
def State.dropWork (s : State) (c : Nat) (off : LinkWork → Bool) : State :=
  let parked := match (s.core c).linkWork with
    | w :: _ => off w
    | [] => false
  let s := s.updCore c fun k => { k with linkWork := k.linkWork.filter fun w => !off w }
  if parked then
    match (s.thread c 63).wait with
    | some (.fault f) => ({ s with faults := s.faults.filter fun r => r.number != f } : State).wake c 63
    | some (.room .link) => s.wake c 63
    | _ => s
  else s

/-- A lost step's results are no longer written at a core, and its counters no longer raised (R419). A wait of the link thread
for such a store ends (in part DEDUCED, log 41). -/
def State.quietCore (s : State) (c g : Nat) (n : BitVec 32) : State :=
  let keys := (s.core c).jobsOf g n
  if keys = [] then s
  else
    let s := s.updCore c fun k => { k with linkJobs := k.linkJobs.map fun j => if keys.contains j.key then { j with lost := true } else j }
    s.dropWork c fun w => w.writes && keys.contains w.job

/-- The same at every core (in part DEDUCED, log 41). -/
def State.quiet (s : State) (g : Nat) (n : BitVec 32) : State := s.cores.foldl (fun s e => s.quietCore e.1 g n) s

/-! Results at this device. -/

/-- A result reaches a core's link thread. -/
def State.resultTo (s : State) (c : Nat) (p : CombinePacket) : State :=
  (s.updCore c fun k => { k with results := k.results ++ [p] }).pushEvent c (linkEvent 0 p.stepNo p.group)

/-- A descriptor of a broadcast is still to come at this device; or a contributor or a child of a lost step, that learns its loss
(R419). -/
def StepState.awaits (x : StepState) (e : GroupEntry) : Bool :=
  (x.kind = 2 && x.ranks.length < geNloc e) ||
  (x.lost && x.kind != 2 && (x.ranks.length < geNloc e || x.below.length < geNch e))

/-- To whom the node sends results. -/
def StepState.down (x : StepState) (e : GroupEntry) : List Nat :=
  if x.kind != 2 then x.below else if geNch e = 0 then [] else [everyChild]

/-- A result packet is given to whom it is for; the step is over here with its last one. -/
def State.deliverResult (s : State) (x : StepState) (p : CombinePacket) : State :=
  if x.scalar then
    (s.putStep { x with answer := some p, early := if x.lost then x.early ++ [p] else x.early }).emitOnce (.scalarStepCompletion x.group x.stepNo)
  else
    let s := if p.status = 3 then s.quiet x.group x.stepNo else s
    let s := x.cores.foldl (fun s c => s.resultTo c p) s
    if x.awaits (s.group x.group) then s.putStep { x with early := x.early ++ [p] }
    else if p.last then s.dropStep x else s.putStep x

/-- The result goes down the tree and to this device. -/
def State.publishResult (s : State) (x : StepState) (l : List CombinePacket) : State :=
  let s := s.sendAll (((x.down (s.group x.group)).map fun d => l.map fun p => (d, p)).flatten)
  l.foldl (fun s p => match s.findStep x.group x.stepNo x.scalar with
    | some x => s.deliverResult x p
    | none => s) s

/-- Marks the last packet of a list as the one that completes the step (in part DESIGN CHOICE, log 37). -/
def markLast (nf : BitVec 32) (status : BitVec 4) : List CombinePacket → List CombinePacket
  | [] => []
  | [p] => [{ p with last := true, nonfinite := nf, status := status }]
  | p :: r => p :: markLast nf status r

/-! Combining (R411, R412). -/

/-- Element indices of a chunk. -/
def StepState.indices (x : StepState) (c : Nat) : List Nat := span (c * x.chunk) (x.chunkLen c)

/-- The word of a chunk's partial: the bits of this node's contributions and those of its children. -/
def StepState.chunkWord (x : StepState) (e : GroupEntry) (c : Nat) : BitVec 32 :=
  let own := (span 0 (geNloc e)).foldl (fun w r => (x.indices c).foldl (fun w i => w ||| nonfiniteOf e ((x.partElem r i).getD 0)) w) 0
  x.children.foldl (fun w p => if p.offset / x.chunk = c then w ||| p.nonfinite else w) own

/-- The step without what a chunk's last pass has used up, whose buffers are free. -/
def State.consume (s : State) (x : StepState) (c : Nat) (whole : Bool) : StepState × State :=
  let gone := x.children.filter fun p => p.offset / x.chunk = c && (whole || p.pass = 1)
  let y := { x with
    children := x.children.filter fun p => !(p.offset / x.chunk = c && (whole || p.pass = 1))
    parts := if whole then x.parts.filter (fun p => p.offset / x.chunk != c) else x.parts }
  let s := gone.foldl (fun s p => s.record (.slotFreeOut x.group p.source)) s
  (y, if whole then s.buffersFreed x.group else s)

/-- The chunk's elements as they leave this node in the last pass, with the word. -/
def StepState.chunkSum (x : StepState) (e : GroupEntry) (c : Nat) : List (BitVec 64) × BitVec 32 :=
  let w := x.chunkWord e c
  if geFixed e then
    let f := tabGet 0 x.exponents c - 46
    let sums := (x.indices c).map fun i =>
      let own := (span 0 (geNloc e)).foldl (fun n r => n + BitVec.ofInt 64 (fixedOf e f ((x.partElem r i).getD 0))) (0 : BitVec 64)
      x.childIds.foldl (fun n d => n + (x.childElem 2 d i).getD 0) own
    if geRoot e then
      let r := sums.map (fixedResult e f)
      (r.map fun y => BitVec.ofNat 64 y.1, r.foldl (fun w y => w ||| y.2) w)
    else (sums, w)
  else
    let r := (x.indices c).map fun i =>
      combineAll e (((span 0 (geNloc e)).map fun k => (x.partElem k i).getD 0) ++ x.childIds.map fun d => ((x.childElem 0 d i).getD 0).toNat)
    (r.map fun y => BitVec.ofNat 64 y.1, r.foldl (fun w y => if y.2 then w ||| 4 else w) w)

/-- A chunk of this root is complete: its results go out, and the step's word with the last one. -/
def State.rootChunk (s : State) (x : StepState) (e : GroupEntry) (c : Nat) (l : List (BitVec 64)) (w : BitVec 32) : State :=
  let x := { x with nonfinite := x.nonfinite ||| w, combined := x.combined ++ [(0, c)] }
  let packets := packetsOf x e s.hub.devid.toNat 0 0 (l.length + 1) (c * x.chunk) l
  let whole := x.count != 0 && (x.combined.filter fun y => y.1 = 0).length = x.chunks
  let packets := if whole then markLast x.nonfinite (if x.replayed then 1 else 0) packets else packets
  (s.putStep x).publishResult x packets

/-- The first pass of a fixed-point chunk is complete at this node. -/
def State.firstPass (s : State) (x : StepState) (e : GroupEntry) (c : Nat) : State :=
  let own := (span 0 (geNloc e)).foldl (fun m r => (x.indices c).foldl (fun m i => max m (exponentOf e ((x.partElem r i).getD 0))) m) (-126)
  let m := x.childIds.foldl (fun m d => match x.childElem 1 d (c * x.chunk) with
    | some v => max m v.toInt
    | none => m) own
  let y := s.consume { x with combined := x.combined ++ [(1, c)] } c false
  let p := packetsOf x e s.hub.devid.toNat 1 0 2 (c * x.chunk) [BitVec.ofInt 64 m]
  if geRoot e then (y.2.putStep { y.1 with exponents := tabPut y.1.exponents c m }).sendAll ((x.below.map fun d => p.map fun q => (d, q)).flatten)
  else (y.2.putStep y.1).sendAll (p.map fun q => (geParent e, q))

/-- The last pass of a chunk is complete at this node. -/
def State.lastPass (s : State) (x : StepState) (e : GroupEntry) (c : Nat) : State :=
  let r := x.chunkSum e c
  let y := s.consume x c true
  if geRoot e then y.2.rootChunk y.1 e c r.1 r.2
  else
    let x := { y.1 with combined := y.1.combined ++ [(0, c)] }
    let p := packetsOf x e s.hub.devid.toNat (if geFixed e then 2 else 0) r.2 (r.1.length + 1) (c * x.chunk) r.1
    (y.2.putStep x).sendAll (p.map fun q => (geParent e, q))

/-- A chunk of a broadcast at its root: the elements of its contributor. -/
def State.castChunk (s : State) (x : StepState) (e : GroupEntry) (c : Nat) : State :=
  let l := (x.indices c).map fun i => BitVec.ofNat 64 ((x.partElem 0 i).getD 0)
  let w := (x.indices c).foldl (fun w i => w ||| nonfiniteOf e ((x.partElem 0 i).getD 0)) 0
  let y := s.consume x c true
  y.2.rootChunk y.1 e c l w

/-- What a chunk can do now, if anything. -/
def State.chunkMove (s : State) (x : StepState) (e : GroupEntry) (c : Nat) : Option State :=
  if x.combined.contains (0, c) then none
  else if x.kind = 2 then (if geRoot e && x.localReady 1 c then some (s.castChunk x e c) else none)
  else if geFixed e then
    (match tabFind x.exponents c with
      | none =>
        if !x.combined.contains (1, c) && x.localReady (geNloc e) c && x.childrenReady e 1 c then some (s.firstPass x e c) else none
      | some _ => if x.localReady (geNloc e) c && x.childrenReady e 2 c then some (s.lastPass x e c) else none)
  else if x.localReady (geNloc e) c && x.childrenReady e 0 c then some (s.lastPass x e c)
  else none

/-- The chunks of which something is here. -/
def StepState.here (x : StepState) : List Nat :=
  (x.parts.map (fun p => p.offset / x.chunk) ++ x.children.map (fun p => p.offset / x.chunk)).foldl
    (fun acc c => if acc.contains c then acc else acc ++ [c]) []

/-- A step goes as far as it can, unless it is held or lost. -/
def State.advanceStep (s : State) (g : Nat) (n : BitVec 32) (scalar : Bool) : Nat → State
  | 0 => s
  | fuel + 1 =>
    match s.findStep g n scalar with
    | none => s
    | some x =>
      if x.lost || s.onHold x || x.chunk = 0 then s
      else
        match x.here.findSome? (s.chunkMove x (s.group g)) with
        | some t => t.advanceStep g n scalar fuel
        | none => s

/-- The same, far enough for all that is here. -/
def State.advance_ (s : State) (g : Nat) (n : BitVec 32) (scalar : Bool) : State :=
  match s.findStep g n scalar with
  | some x => s.advanceStep g n scalar (2 * (x.parts.length + x.children.length) + 2)
  | none => s

/-! Loss (R419). -/

/-- A step is lost: its root completes it with STATUS 3 everywhere; another node tells its parent, and completes it itself when the
parent does not answer (in part DEDUCED, log 41). -/
def State.loseStep (s : State) (x : StepState) : State :=
  let e := s.group x.group
  let p := emptyPacket x e s.hub.devid.toNat 3
  if x.lost then s
  else
    let s := (x.children.foldl (fun s q => s.record (.slotFreeOut x.group q.source)) s)
    let x := { x with lost := true, parts := [], children := [], early := [] }
    let s := ((s.putStep x).buffersFreed x.group).quiet x.group x.stepNo
    if geRoot e || s.hub.lostDevices.contains (geParent e) then s.publishResult x [p]
    else s.sendAll [(geParent e, { p with last := false })]

/-- A child's packet of a lost step: its buffer is free, and the child learns what the step came to (in part DEDUCED, log 41). -/
def State.lateChild (s : State) (x : StepState) (p : CombinePacket) : State :=
  let s := s.record (.slotFreeOut p.group p.source)
  if x.below.contains p.source then s
  else
    let x := { x with below := x.below ++ [p.source] }
    let s := (s.putStep x).sendAll (x.early.map fun q => (p.source, q))
    if x.early.any (fun q => q.last) && !x.awaits (s.group x.group) then s.dropStep x else s

/-! Contributions. -/

/-- A step of which nothing is here yet. -/
def newStep (g : Nat) (n : BitVec 32) (scalar : Bool) (kind chunk count : Nat) : StepState :=
  { group := g, stepNo := n, scalar := scalar, kind := kind, chunk := chunk, count := count }

/-- A rank that contributes to a scalar step after its loss gets the message it asks for with STATUS 3 (R419, R427); the result is
free where it is no longer held (DESIGN CHOICE, log 3). -/
def State.lateRank (s : State) (x : StepState) (p : Contribution) : State :=
  let e := s.group x.group
  let x := { x with ranks := x.ranks ++ [{ p with elems := [] }] }
  match s.hub.results.find? fun r => r.group = x.group && r.stepNo = x.stepNo with
  | none =>
    let d := s.draw
    let s := if p.message then
        d.2.post ⟨p.inst, p.slot, makeMsg (Config.freeValue d.1).toNat 0xFFFFFFFF (3 + geTopo e * 2 ^ 8) 0 4 3, false, none⟩ else s
    if x.awaits e then s.putStep x else s.dropStep x
  | some r =>
    let s := if p.message then s.post ⟨p.inst, p.slot, makeMsg r.value.toNat 0xFFFFFFFF (r.word.toNat % 2 ^ 16) 0 4 3, false, none⟩ else s
    if x.awaits e then s.putStep x else s.dropStep x

/-- A contribution's elements join the step at this node, which goes as far as it can; those of a lost step are dropped (in part DEDUCED, log 39). -/
def State.contribute (s : State) (x : StepState) (p : Contribution) : State :=
  if x.lost then
    (if x.scalar then (if x.answered then s.lateRank x p else s.putStep { x with ranks := x.ranks ++ [{ p with elems := [] }] }) else s)
  else
  let meta_ : Contribution := if x.scalar then p else { p with offset := 0, elems := [] }
  let known := x.ranks.any fun q => q.rank = p.rank
  let x := { x with
    parts := x.parts ++ [p]
    ranks := if known then x.ranks else x.ranks ++ [meta_]
    cores := if x.scalar || x.cores.contains p.core then x.cores else x.cores ++ [p.core] }
  (s.putStep x).advance_ x.group x.stepNo x.scalar

/-! Packets of other nodes. -/

/-- COMBINE_PACKET_ARRIVAL: a child's partial reaches this node. One of another tree generation is discarded (R418; in part DESIGN CHOICE, log 12). -/
def execCombinePacketArrival (packet : CombinePacket) (s : State) : Res :=
  let e := s.group packet.group
  if !geCollects e || packet.topo.toNat != geTopo e || packet.chunk = 0 then .next (s.record (.slotFreeOut packet.group packet.source))
  else
    let x := (s.findStep packet.group packet.stepNo packet.scalar).getD
      (newStep packet.group packet.stepNo packet.scalar packet.kind packet.chunk packet.count)
    if x.lost then .next (s.lateChild x packet) else
    let x := { x with below := if x.below.contains packet.source then x.below else x.below ++ [packet.source] }
    if packet.status = 3 then .next (((s.putStep x).record (.slotFreeOut packet.group packet.source)).loseStep x)
    else .next ((s.putStep { x with children := x.children ++ [packet] }).advance_ packet.group packet.stepNo packet.scalar)

/-- RESULT_PACKET_ARRIVAL: a result, or the exponent of a first pass, comes down the tree (in part DESIGN CHOICE, log 12). -/
def execResultPacketArrival (packet : CombinePacket) (s : State) : Res :=
  let e := s.group packet.group
  let s := s.record (.slotFreeOut packet.group (geParent e))
  if !geCollects e || geRoot e || packet.topo.toNat != geTopo e || packet.chunk = 0 then .next s
  else
    let x := (s.findStep packet.group packet.stepNo packet.scalar).getD
      (newStep packet.group packet.stepNo packet.scalar packet.kind packet.chunk packet.count)
    let own : CombinePacket := { packet with source := s.hub.devid.toNat }
    if packet.pass = 1 then
      let x := { x with exponents := match packet.elems with
        | v :: _ => tabPut x.exponents (packet.offset / packet.chunk) v.toInt
        | [] => x.exponents }
      .next (((s.putStep x).sendAll (x.below.map fun d => (d, own))).advance_ packet.group packet.stepNo packet.scalar)
    else .next ((s.putStep x).publishResult x [own])

/-- SLOT_FREE_NOTICE: a credit returns; the root learns a member's APPLIED (in part DESIGN CHOICE, log 12). -/
def execSlotFreeNotice (notice : SlotNotice) (s : State) : Res :=
  let g := notice.group
  let k := edgeKey g notice.device
  let s := s.updHub fun h => { h with
    credits := tabPut h.credits k (h.used g notice.device - 1)
    memberApplied := if geCasts (tabGet 0 h.groups g) then tabPut h.memberApplied k notice.applied else h.memberApplied }
  let s := s.flushOut
  let cores := (s.hub.steps.filter fun x => x.group = g && !x.scalar).foldl (fun acc x => acc ++ x.cores.filter fun c => !acc.contains c) []
  let s := cores.foldl (fun s c => s.pushEvent c (linkEvent 1 0 g)) s
  .next (if s.hub.requests.any fun r => r.group = g then s.emitOnce (.mcstStamping g none) else s)

/-! Scalar steps (spec/23 R426, R427). -/

/-- Steps of a group that have started at this device and not completed (in part DEDUCED, log 39). -/
def State.started (s : State) (g : Nat) : Nat := (s.hub.steps.filter fun x => x.scalar && x.group = g && x.ranks != [] && !x.answered).length

/-- a is later than b, mod 2^32. -/
def later (a b : BitVec 32) : Bool := a != b && decide ((a - b).toNat < 2 ^ 31)

/-- A result extended to 64 bits. -/
def resultWord (e : GroupEntry) (v : BitVec 64) : Word := if geType e = 2 then (v.setWidth 32).signExtend 64 else v

/-- GRP.GET's acquire is made for a result that is done (spec/23 R428). -/
def State.acquireGet (s : State) (c : Nat) (word : Word) : State := if word.extractLsb' 0 4 ≤ 1#4 then s.applySig c allOnes512 else s

/-- The held result of a step. -/
def State.heldResult (s : State) (g : Nat) (n : BitVec 32) : Option HeldResult := s.hub.results.find? fun r => r.group = g && r.stepNo = n

/-- Keeps a result, and the three before it (R426). -/
def keepResult (r : HeldResult) (l : List HeldResult) : List HeldResult :=
  let same := l.filter fun x => x.group = r.group
  let other := l.filter fun x => x.group != r.group
  other ++ (if 4 ≤ same.length then same.drop (same.length - 3) else same) ++ [r]

/-- What GRP.GET is answered: the held result, or that the step is no longer held; none while it is still to complete (R427). -/
def State.getAnswer (s : State) (g : Nat) (n : BitVec 32) : Option (Word × Word) :=
  match s.heldResult g n with
  | some r => some (r.value, r.word)
  | none =>
    match tabFind s.hub.latest g with
    | none => none
    | some m => if later n m then none else some (0, 5)

/-- A thread that waits in GRP.GET for a step goes on with its result. -/
def State.getDone (s : State) (c sl g : Nat) (n : BitVec 32) (v w : Word) : State :=
  match (s.thread c sl).wait with
  | some (.step h m rd) =>
    if h = g && m = n then
      ((s.complete c sl true fun t => (t.setReg (t.rename rd) v false).setReg (t.rename (rd + 1)) w false).acquireGet c w).settleHalted c sl
    else s
  | _ => s

/-- The threads that wait in GRP.GET for the step that completes, and those that wait in GRP.PUT, go on. -/
def State.wakeSteps (s : State) (g : Nat) (n : BitVec 32) (v w : Word) : State :=
  (s.cores.foldl (fun s e => e.2.slots.foldl (fun s x => s.getDone e.1 x.1 g n v w) s) s).wakeAll fun _ w => isRoom (.step g) w

/-- SCALAR_STEP_COMPLETION: the result is held, those that wait go on, and the messages asked for are sent. A number that a
descriptor uses as well, or a lost step, has a free result (R429; DESIGN CHOICE, log 3). -/
def execScalarStepCompletion (group : Nat) (stepNo : BitVec 32) (s : State) : Res :=
  match s.findStep group stepNo true with
  | none => .next s
  | some x =>
    match x.answer with
    | none => .next s
    | some p =>
      let e := s.group group
      let free := x.mixed || p.elems = []
      let d := s.draw
      let s := if free then d.2 else s
      let v := if free then resultWord e ((Config.freeValue d.1).setWidth (geBits e) |>.setWidth 64) else resultWord e (p.elems.headD 0)
      let status := if x.mixed then ((Config.freeValue d.1) >>> 32).toNat % 16 else p.status.toNat
      let word : Word := BitVec.ofNat 64 (status + p.nonfinite.toNat % 16 * 2 ^ 4 + geTopo e * 2 ^ 8)
      let y := { x with answer := none, answered := true }
      let s := (if y.awaits e then s.putStep y else s.dropStep x).updHub fun h => { h with
        results := keepResult ⟨group, stepNo, v, word⟩ h.results
        latest := match tabFind h.latest group with
          | some m => if later stepNo m then tabPut h.latest group stepNo else h.latest
          | none => tabPut h.latest group stepNo }
      let s := x.ranks.foldl (fun s q =>
        if q.message then s.post ⟨q.inst, q.slot, makeMsg v.toNat 0xFFFFFFFF (word.toNat % 2 ^ 16) 0 4 status, false, none⟩ else s) s
      .next (s.wakeSteps group stepNo v word)

/-! Holds (R420). -/

/-- The cores whose link threads handle a step. -/
def State.stepCores (s : State) (g : Nat) (n : BitVec 32) : List Nat :=
  (s.hub.steps.filter fun x => x.group = g && x.stepNo = n).foldl (fun acc x => acc ++ x.cores.filter fun c => !acc.contains c) []

/-- A hold of a step, for an instance of this device or noInst (in part DEDUCED, log 58). -/
def State.noteHold (s : State) (g : Nat) (n : BitVec 32) (inst : Nat) : State :=
  let s := s.updHub fun h => { h with holds := h.holds ++ [(g, n, inst)] }
  (s.stepCores g n).foldl (fun s c => s.pushEvent c (linkEvent 2 n g)) s

def State.noteResume (s : State) (g : Nat) (n : BitVec 32) (inst : Nat) : State :=
  let s := s.updHub fun h => { h with holds := h.holds.erase (g, n, inst) }
  let s := (s.stepCores g n).foldl (fun s c => s.pushEvent c (linkEvent 3 n g)) s
  (s.advance_ g n true).advance_ g n false

/-- HOLD_NOTICE (in part DEDUCED, log 58). -/
def execHoldNotice (group : Nat) (stepNo : BitVec 32) (s : State) : Res := .next (s.noteHold group stepNo noInst)

/-- RESUME_NOTICE (in part DEDUCED, log 58). -/
def execResumeNotice (group : Nat) (stepNo : BitVec 32) (s : State) : Res := .next (s.noteResume group stepNo noInst)

/-! Failures (R371, R404, R418, R419). -/

/-- A device that does not answer, for the trees. -/
def State.loseDevice (s : State) (id : Nat) (relay : Bool) : State :=
  let s := s.updHub fun h => { h with
    lostDevices := if h.lostDevices.contains id then h.lostDevices else h.lostDevices ++ [id]
    outbox := h.outbox.filter fun x => x.1 != id }
  if relay then s
  else
    (s.hub.steps.filter fun x =>
      let e := s.group x.group
      x.below.contains id || (!geRoot e && geParent e = id) || (Config.children x.group (geTopo e)).contains id).foldl (fun s x => s.loseStep x) s

/-- LINK_FAILURE: a failed link is routed around; a lost device loses its steps. -/
def execLinkFailure (failure : LinkFailure) (s : State) : Res :=
  match failure with
  | .link a b => .next (s.updHub fun h => { h with failedPaths := h.failedPaths ++ [65536 + 256 * a + b] })
  | .device id relay => .next (s.loseDevice id relay)

/-- FLIT_ERROR: retransmitted, or its path is routed around. -/
def execFlitError (path : Nat) (failed : Bool) (s : State) : Res :=
  .next (if failed then s.updHub fun h => { h with failedPaths := h.failedPaths ++ [path] } else s)

/-- The step has completed here, and is held only for what is still to come of it. -/
def StepState.complete (x : StepState) : Bool := x.lost || x.early.any fun p => p.last

/-- A step as the new tree finds it: partials are discarded; a scalar step keeps its contributions, which are sent again. -/
def StepState.replay (x : StepState) : StepState :=
  if x.complete then x else
  { x with
    parts := if x.scalar then x.ranks else []
    children := [], below := [], combined := [], exponents := [], nonfinite := 0, early := [], replayed := true }

end Sys2Proof.Machine
end

