-- ==== Sys2Proof/Machine/Link.lean ====
section
/-! DEFINITION. Sequenced multicast (spec/22 R408 to R410), the link and group instructions (spec/23 R423 to R434), and the link
thread, which the model runs as its rules give it (spec/22 R415 to R417, spec/24 R435; DESIGN CHOICE, log 8). -/

namespace Sys2Proof.Machine

/-- An instruction of the link group: not of a light thread, and not without its feature (R423). -/
def linkGroup (w : InstrWord) (k : State → Res) (s : State) : Res :=
  if s.cur.light || !s.accepted 8 then illegal w s else k s

/-! Sequenced multicast (R408 to R410, R430). -/

/-- The thread of an MCST goes on with its stamp, if its slot still holds it. -/
def State.endStamp (s : State) (sender : Option (Nat × Nat)) (id g : Nat) (n : BitVec 32) : State :=
  match sender with
  | none => s
  | some (c, sl) =>
    match (s.thread c sl).wait with
    | some (.stamp h rd _) =>
      if h = g && (s.thread c sl).id = id then (s.complete c sl true fun t => t.setReg rd (n.setWidth 64) false).settleHalted c sl else s
    | _ => s

/-- APPLIED advances by one. -/
def advanceApplied (e : GroupEntry) (skipped : Bool) : GroupEntry :=
  let n := (geApplied e + 1).setWidth 128
  let e := (e >>> 32 <<< 32) ||| n
  if skipped then e ||| (1#128 <<< 65) else e

/-- A stamped store is done with at this member: applied, or skipped. -/
def State.endApplication (s : State) (x : Stamped) (skipped : Bool) : State :=
  let s := s.putGroup x.group (advanceApplied (s.group x.group) skipped)
  let s := s.updHub fun h => { h with stamped := h.stamped.filter fun y => y != x }
  let s := (s.endStamp x.sender x.id x.group x.stamp).packetDone x.inst
  let s := if s.hub.requests.any fun r => r.group = x.group then s.emitOnce (.mcstStamping x.group none) else s
  s.emitOnce (.mcstApplication x.group)

/-- The next stamped store of a group at this device. -/
def State.nextStamped (s : State) (g : Nat) : Option Stamped := s.hub.stamped.find? fun x => x.group = g && x.stamp = geApplied (s.group g)

/-- MCST_APPLICATION: the next stamp's store is performed at its home, as a release that carries no signature; a fault waits for
the kernel, and a pin holds it (in part DEDUCED, log 40). -/
def execMcstApplication (group : Nat) (s : State) : Res :=
  match s.nextStamped group with
  | none => .next s
  | some x =>
    if x.fault.isSome then .next s
    else
      let va : VAddr := ⟨0, x.off⟩
      let stop := fun (cause : Nat) =>
        Host.Outcome.next ((s.fault (.multicast group) .write va cause noInst).updHub fun h =>
          { h with stamped := h.stamped.map fun y => if y = x then { y with fault := some s.serial } else y })
      match s.engineTarget noInst { w := true } va with
      | .hole => .fault .nothingThere
      | .page => stop 4
      | .access | .miss | .window => stop 3
      | .ok t =>
        if s.pinned t.place then .next s
        else
          let s := (s.takeBack .hub t 8).sigRelease t none
          .next ((s.writeTarget .hub t (leBytes x.value.toNat 8)).endApplication x false)

/-- MULTICAST_SKIP: APPLIED advances without the faulted store, and SKIP is set (in part DEDUCED, log 40). -/
def execMulticastSkip (group : Nat) (s : State) : Res :=
  match s.nextStamped group with
  | none => .next s
  | some x =>
    match x.fault with
    | none => .next s
    | some n => .next ({ s with faults := s.faults.filter fun f => f.number != n }.endApplication x true)

/-- Every member is within 256 stamps, as far as the root knows (R408): one that it has not heard from has applied none. -/
def State.mayStamp (s : State) (g : Nat) : Bool :=
  let e := s.group g
  let near := fun (n : BitVec 32) => decide ((geStamp e - n).toNat < 256)
  (!geMember e || near (geApplied e)) &&
  (s.hub.memberApplied.all fun x => x.1 / 256 != g || near x.2) &&
  (Config.members g).all fun d => d = s.hub.devid.toNat || near (tabGet 0 s.hub.memberApplied (edgeKey g d))

/-- The first request of a group, and the others. -/
def firstRequest (g : Nat) : List Multicast → Option (Multicast × List Multicast)
  | [] => none
  | r :: l => if r.group = g then some (r, l) else (firstRequest g l).map fun x => (x.1, r :: x.2)

/-- A request is stamped at this device's node (in part DEDUCED, log 40). -/
def State.stampHere (s : State) (g : Nat) (n : BitVec 32) (r : Multicast) : State :=
  if geMember (s.group g) then
    let s := s.updHub fun h => { h with stamped := h.stamped ++ [⟨g, n, r.off, r.value, r.sender, r.inst, r.id, none⟩] }
    let s := match r.sender with
      | some (c, sl) => (match (s.thread c sl).wait with
        | some (.stamp h rd _) =>
          if h = g && (s.thread c sl).id = r.id then s.updThread c sl fun t => t.waitFor (.stamp h rd (some n)) else s
        | _ => s)
      | none => s
    s.emitOnce (.mcstApplication g)
  else (s.endStamp r.sender r.id g n).packetDone r.inst

/-- The stamp of the message from the root that arrives: the one it carries (log 61), or at a member the next in order. -/
def State.stampNow (s : State) (g : Nat) : Option (BitVec 32) :=
  match tabFind s.hub.stamps g with
  | some n => some n
  | none =>
    if geMember (s.group g) then some (geApplied (s.group g) + BitVec.ofNat 32 (s.hub.stamped.filter fun x => x.group = g).length)
    else none

/-- A stamped store goes on down the tree (R408). -/
def State.stampDown (s : State) (g : Nat) (n : BitVec 32) (off value : Word) : State :=
  let s := s.updHub fun h => { h with stamps := tabDel h.stamps g }
  if geNch (s.group g) = 0 then s else s.record (.multicastOut g (some n) off value)

/-- MCST_STAMPING. At the root, a request that arrives joins the others, and the oldest is stamped while every member is within
256. At another node, the root has stamped a store of another device, or the oldest of this one, which goes on to the children. -/
def execMcstStamping (group : Nat) (other : Option (BitVec 64 × BitVec 64)) (s : State) : Res :=
  let e := s.group group
  if !geCasts e then .next s
  else if geRoot e then
    let s := match other with
      | some (o, v) => s.updHub fun h => { h with requests := h.requests ++ [⟨group, o, v, none, noInst, 0⟩] }
      | none => s
    match firstRequest group s.hub.requests with
    | none => .next s
    | some (r, rest) =>
      if !s.mayStamp group then .next s
      else
        let n := geStamp e
        let s := (s.updHub fun h => { h with requests := rest }).putGroup group
          ((e &&& ~~~((0xFFFFFFFF#128) <<< 32)) ||| ((n + 1).setWidth 128 <<< 32))
        let s := (s.record (.multicastOut group (some n) r.off r.value)).stampHere group n r
        .next (if s.hub.requests.any fun r => r.group = group then s.emitOnce (.mcstStamping group none) else s)
  else
    match s.stampNow group with
    | none => .next s
    | some n =>
      match other with
      | some (o, v) =>
        let s := s.stampDown group n o v
        .next (if geMember e then s.stampHere group n ⟨group, o, v, none, noInst, 0⟩ else s)
      | none =>
        match firstRequest group s.hub.requests with
        | none => .next s
        | some (r, rest) =>
          .next (((s.stampDown group n r.off r.value).updHub fun h => { h with requests := rest }).stampHere group n r)

/-- An MCST that comes up from a child joins the requests at the root, and goes on towards it elsewhere (R408). -/
def State.multicastFrom (s : State) (g : Nat) (off value : Word) : State :=
  let e := s.group g
  if !geCasts e then s
  else if geRoot e then
    (s.updHub fun h => { h with requests := h.requests ++ [⟨g, off, value, none, noInst, 0⟩] }).emitOnce (.mcstStamping g none)
  else s.record (.multicastUp g off value)

def execMcst (b a d : BitVec 7) (s : State) : Res :=
  let w := wordMcst b a d
  linkGroup w (limitNumbers (b.toNat :: d.toNat :: span a.toNat 2) fun s =>
    let l := s.cur.regsFrom a.toNat 2
    let o := l.getD 0 0
    let g := (l.getD 1 0).toNat
    let v := (s.cur.opnd b).val
    if 4096 ≤ g || !geCasts (s.group g) then doneLatc (s.setRd d (BitVec.allOnes 64) false)
    else if o.toNat % 8 != 0 then trap 2 o s
    else if 2 ^ 48 ≤ o.toNat then trap 3 o s
    else
      released (fun s =>
        let s := s.updHub fun h => { h with requests := h.requests ++ [⟨g, o, v, some (s.ic, s.is), s.cur.inst, s.cur.id⟩] }
        let s := if geRoot (s.group g) then s.emitOnce (.mcstStamping g none) else s.record (.multicastOut g none o v)
        park (.stamp g (s.cur.rename d.toNat) none) s) s) s

/-- SEQ.RD: an acquire of every stamped store up to the count (in part DEDUCED, log 40). -/
def execSeqRd (a d : BitVec 7) (s : State) : Res :=
  linkGroup (wordSeqRd a d) (limit [a, d] fun s =>
    let e := s.group ((s.cur.opnd a).val.toNat % 4096)
    if !geCasts e || !geMember e then done (s.setRd d (BitVec.allOnes 64) false)
    else acquiring (fun s => done ((s.applySig s.ic allOnes512).setRd d ((geApplied e).setWidth 64) false)) s) s

/-! Scalar steps (R425 to R429). -/

def selGroup (v : Word) : Nat := fld v.toNat 11 0
def selRank (v : Word) : Nat := fld v.toNat 21 12
def selStep (v : Word) : BitVec 32 := v.extractLsb' 22 32
def selBad (v : Word) : Bool := fld v.toNat 62 54 != 0

/-- A rank has contributed to a scalar step at this device (in part DEDUCED, log 39). -/
def State.contributed (s : State) (g : Nat) (n : BitVec 32) (r : Nat) : Bool :=
  s.hub.contributors.contains (g, n, r, true) ||
  match s.findStep g n true with
  | some x => x.ranks.any fun q => q.rank = r
  | none => false

def execGrpPut (b a d : BitVec 7) (s : State) : Res :=
  linkGroup (wordGrpPut b a d) (limit [a, b, d] fun s =>
    let sel := (s.cur.opnd a).val
    let v := (s.cur.opnd b).val
    let g := selGroup sel
    let e := s.group g
    if selBad sel || !geCollects e || geNloc e ≤ selRank sel || s.contributed g (selStep sel) (selRank sel) then
      doneLatc (s.setRd d 4 false)
    else if 4 ≤ s.started g then park (.room (.step g)) s
    else
      released (fun s =>
        let x := (s.findStep g (selStep sel) true).getD (newStep g (selStep sel) true 0 1 1)
        let p : Contribution := ⟨selRank sel, 0, [BitVec.ofNat 32 (v.toNat % 2 ^ geBits e)], s.ic, s.is, s.cur.inst, sel.getLsbD 63⟩
        doneLatc ((s.setRd d 0 false).contribute x p)) s) s

/-- GRP.GET. A selector or an entry that is invalid gives STATUS 4, and a free value for the result (DESIGN CHOICE, log 3). -/
def execGrpGet (a d : BitVec 7) (s : State) : Res :=
  linkGroup (wordGrpGet a d) (limitNumbers (a.toNat :: span d.toNat 2) fun s =>
    let sel := (s.cur.opnd a).val
    let g := selGroup sel
    if selBad sel || !geCollects (s.group g) then
      let x := s.draw
      doneLatc (x.2.updCur fun t => t.setRegs d.toNat false [Config.freeValue x.1, 4])
    else
      match s.getAnswer g (selStep sel) with
      | some (v, w) => acquiring (fun s => doneLatc ((s.acquireGet s.ic w).updCur fun t => t.setRegs d.toNat false [v, w])) s
      | none => park (.step g (selStep sel) d.toNat) s) s

/-! The link thread's packets (R432, R433). -/

/-- The local buffers of a group, one for each chunk of which a local contribution is here, are all held, and none by this chunk. -/
def State.buffersHeld (s : State) (g : Nat) (n : BitVec 32) (chunk : Nat) : Bool :=
  let held := (s.hub.steps.filter fun x => x.group = g && !x.scalar).foldl (fun (acc : List (BitVec 32 × Nat)) x =>
    x.parts.foldl (fun acc p => let k := (x.stepNo, p.offset / x.chunk); if acc.contains k then acc else acc ++ [k]) acc) []
  !held.contains (n, chunk) && decide (Config.moreBuffers g + 1 ≤ held.length)

/-- A rank's packets at the node already cover one of n elements. -/
def StepState.covers (x : StepState) (r off n : Nat) : Bool :=
  x.parts.any fun p => p.rank = r && p.offset < off + n && off < p.offset + p.elems.length

/-- The status of a header that is refused. -/
def State.sendRefused (s : State) (h0 h1 : Nat) : Bool :=
  let e := s.group (fld h0 11 0)
  let off := fld h1 63 32
  let nv := fld h1 31 26
  let chunk := fld h1 25 10
  fld h1 9 0 != 0 || fld h0 13 12 = 3 || !geCollects e || nv = 0 || geLanes e < nv || chunk = 0 ||
  off / chunk != (off + nv - 1) / chunk || geNloc e ≤ fld h0 23 14 ||
  (match s.findStep (fld h0 11 0) (BitVec.ofNat 32 (fld h0 63 32)) false with
    | some x => x.covers (fld h0 23 14) off nv
    | none => false)

def execLnkSend (b a d : BitVec 7) (s : State) : Res :=
  linkGroup (wordLnkSend b a d) (limitNumbers (d.toNat :: span b.toNat 2 ++ span a.toNat 8) fun s =>
    if s.is != 63 then trap 6 0 s
    else
      let h := s.cur.regsFrom b.toNat 2
      let h0 := (h.getD 0 0).toNat
      let h1 := (h.getD 1 0).toNat
      let g := fld h0 11 0
      let e := s.group g
      if s.sendRefused h0 h1 then doneLatc (s.setRd d 4 false)
      else if fld h0 31 24 != geTopo e then doneLatc (s.setRd d 3 false)
      else if s.buffersHeld g (BitVec.ofNat 32 (fld h0 63 32)) (fld h1 63 32 / fld h1 25 10) then park (.room (.buffer g)) s
      else
        released (fun s =>
          let payload := packLanes 64 ((s.cur.regsFrom a.toNat 8).map (·.toNat))
          let n : BitVec 32 := BitVec.ofNat 32 (fld h0 63 32)
          let x := (s.findStep g n false).getD (newStep g n false (fld h0 13 12) (fld h1 25 10) 0)
          let l := (unpackLanes (geBits e) payload (fld h1 31 26)).map (BitVec.ofNat 32)
          doneLatc ((s.setRd d 0 false).contribute x ⟨fld h0 23 14, fld h1 63 32, l, s.ic, 63, s.cur.inst, false⟩)) s) s

/-- A received packet in ten registers. -/
def recvRegs (e : GroupEntry) (p : CombinePacket) : List Word :=
  let h0 := p.group + p.kind % 4 * 2 ^ 12 + p.topo.toNat * 2 ^ 24 + p.stepNo.toNat * 2 ^ 32
  let h1 := (if p.last then p.nonfinite.toNat % 16 else 0) + p.status.toNat * 2 ^ 4 + p.chunk % 2 ^ 16 * 2 ^ 10 +
    p.elems.length % 64 * 2 ^ 26 + p.offset % 2 ^ 32 * 2 ^ 32
  let v := packLanes (geBits e) (p.elems.map (·.toNat))
  BitVec.ofNat 64 h0 :: BitVec.ofNat 64 h1 :: (unpackLanes 64 v 8).map (BitVec.ofNat 64)

/-- A packet as a descriptor's step reports it: its values and its status are free where a scalar step uses the number as well (R429;
DESIGN CHOICE, log 3). -/
def State.blurPacket (s : State) (p : CombinePacket) : CombinePacket × State :=
  if s.mixedUse p.group p.stepNo false then
    ({ p with
        elems := (span s.freeCtr p.elems.length).map Config.freeValue
        nonfinite := (Config.freeValue (s.freeCtr + p.elems.length)).extractLsb' 0 32
        status := (Config.freeValue (s.freeCtr + p.elems.length)).extractLsb' 32 4 },
      { s with freeCtr := s.freeCtr + p.elems.length + 1 })
  else (p, s)

/-- LNK.RECV. It acquires the elements that it carries, which stand in its registers, so that no signature is applied (R433, spec/11 R248;
DEDUCED, log 38). -/
def execLnkRecv (d : BitVec 7) (s : State) : Res :=
  linkGroup (wordLnkRecv d) (limitNumbers (span d.toNat 10) fun s =>
    if s.is != 63 then trap 6 0 s
    else
      match (s.core s.ic).results with
      | [] => park (.element 121) s
      | p :: r =>
        let x := (s.updCore s.ic fun k => { k with results := r }).blurPacket p
        doneLatc (x.2.updCur fun t => t.setRegs d.toNat false (recvRegs (s.group p.group) x.1))) s

/-! Collective descriptors (R416). -/

/-- n bytes from an offset share a byte with the local window region. -/
def inWindow (off n : Nat) : Bool := off < windowBase + windowSize && windowBase < off + n

/-- The descriptor breaks R416. -/
def State.linkBad (s : State) (j : LinkJob) (d : LinkDesc) : Bool :=
  let e := s.group (ldGroup d)
  let n := ldCount d * (geBits e / 8)
  fld d.toNat 149 0 != 0 || j.addr.toNat % 64 != 0 || ldCrec d % 16 != 0 || ldCtr d % 8 != 0 || ldCount d = 0 || ldChunk d = 0 ||
  2 < ldKind d || !geCollects e || (ldKind d != 2 && geNloc e ≤ ldRank d) ||
  inWindow (ldCrec d) 16 || inWindow (ldSrc d) n || inWindow (ldDst d) n ||
  (ldCtr d != 0 && inWindow (ldCtr d) (8 * ((ldCount d + ldChunk d - 1) / ldChunk d))) ||
  (ldKind d != 2 && s.hub.contributors.contains (ldGroup d, ldStep d, ldRank d, false)) ||
  (ldKind d != 2 &&
    match s.findStep (ldGroup d) (ldStep d) false with
    | some x => x.ranks.any fun q => q.rank = ldRank d
    | none => false)

/-! The link thread's work. -/

/-- What an item of work comes to. -/
inductive Linked where
  | done (s : State)
  | held
  /-- A fault with its cause. -/
  | bad (cause : Nat) (va : VAddr) (s : State)
  | hole

/-- The item is a packet to send. -/
def LinkWork.sends : LinkWork → Bool
  | .send _ _ => true
  | .read _ => false
  | .store _ _ _ => false
  | .raise _ _ => false
  | .finish _ _ _ _ => false

def Core.linkJob (k : Core) (key : Nat) : Option LinkJob := k.linkJobs.find? fun j => j.key = key

def State.putLinkJob (s : State) (c : Nat) (j : LinkJob) : State :=
  s.updCore c fun k => { k with linkJobs := k.linkJobs.map fun x => if x.key = j.key then j else x }

def State.dropLinkJob (s : State) (c key : Nat) : State :=
  s.updCore c fun k => { k with
    linkJobs := k.linkJobs.filter fun x => x.key != key
    linkWork := k.linkWork.filter fun w => w.job != key }

/-- The first item is done; others come before the rest, or after it. -/
def State.nextWork (s : State) (c : Nat) (front back : List LinkWork) : State :=
  s.updCore c fun k => { k with linkWork := front ++ k.linkWork.drop 1 ++ back }

/-- The stores of result elements from one on: each stays in a line, so that a fault skips no store of another page (R417). -/
def resultStores (key dst z : Nat) : Nat → Nat → List Byte → List LinkWork
  | 0, _, _ => []
  | fuel + 1, i, b =>
    if b = [] then []
    else
      let n := max 1 ((128 - (dst + z * i) % 128) / z)
      .store key i (b.take (z * n)) :: resultStores key dst z fuel (i + n) (b.drop (z * n))

/-- A result packet's part in a descriptor's work: it is stored, counted, and completes it. -/
def State.takeResult (s : State) (c : Nat) (j : LinkJob) (p : CombinePacket) : State :=
  let x := s.blurPacket p
  let p := x.1
  let s := x.2
  let e := s.group p.group
  let d := j.desc
  let chunk := p.offset / ldChunk d
  let bytes := (p.elems.map fun v => leBytes v.toNat (geBits e / 8)).flatten
  let keep := ldKind d != 1 || geRoot e
  let work :=
    (if p.elems = [] || j.lost || j.raised.contains chunk then []
      else if keep then resultStores j.key (ldDst d) (geBits e / 8) p.elems.length p.offset bytes
      else [LinkWork.store j.key p.offset []]) ++
    (if p.last then [LinkWork.finish j.key p.status p.nonfinite p.topo] else [])
  s.updCore c fun k => { k with linkWork := k.linkWork ++ work }

/-- The first result packet of a core goes to its descriptors. -/
def State.takeResults (s : State) (c : Nat) : State :=
  match (s.core c).results with
  | [] => s
  | p :: r =>
    let s := s.updCore c fun k => { k with results := r }
    (s.core c).linkJobs.foldl (fun s j =>
      if j.accepted && ldGroup j.desc = p.group && ldStep j.desc = p.stepNo then s.takeResult c j p else s) s

/-- The descriptor is read and checked (in part DEDUCED, log 38). -/
def State.linkRead (s : State) (c : Nat) (j : LinkJob) : Linked :=
  let r := s.readBytes noInst ⟨0, j.addr⟩ 64
  match r.1 with
  | .hole => .hole
  | .bad cause va => .bad cause va r.2
  | .ok b =>
    let d : LinkDesc := BitVec.ofNat 512 (leNat b)
    let s := r.2
    if s.linkBad j d then
      .done ((s.putLinkJob c { j with desc := d }).nextWork c [.finish j.key 2 0 (BitVec.ofNat 8 (geTopo (s.group (ldGroup d))))] [])
    else
      let e := s.group (ldGroup d)
      let x := (s.findStep (ldGroup d) (ldStep d) false).getD
        (newStep (ldGroup d) (ldStep d) false (ldKind d) (ldChunk d) (ldCount d))
      let first := x.ranks = []
      let x := { x with
        count := ldCount d
        ranks := x.ranks ++ [⟨ldRank d, 0, [], c, 63, j.inst, false⟩]
        cores := if x.cores.contains c then x.cores else x.cores ++ [c] }
      let sends := !x.lost && if ldKind d = 2 then geRoot e && first else true
      let s := (s.putLinkJob c { j with desc := d, accepted := true, sends := sends }).nextWork c [] (if sends then [.send j.key 0] else [])
      let s := s.putStep x
      let s := x.early.foldl (fun s p => s.takeResult c { j with desc := d } p) s
      .done (if x.early.any (fun p => p.last) && !({ x with early := [] }.awaits e) then s.dropStep x else s)

/-- One packet of SRC is sent (in part DEDUCED, log 38). -/
def State.linkSend (s : State) (c : Nat) (j : LinkJob) (i : Nat) : Linked :=
  let d := j.desc
  let e := s.group (ldGroup d)
  match s.findStep (ldGroup d) (ldStep d) false with
  | none => .done (s.nextWork c [] [])
  | some x =>
    if x.lost then .done (s.nextWork c [] []) else
    if s.buffersHeld (ldGroup d) (ldStep d) (i / ldChunk d) then .held
    else
      let n := min (geLanes e) (min (ldCount d) ((i / ldChunk d + 1) * ldChunk d) - i)
      let z := geBits e / 8
      let r := s.readBytes noInst ⟨0, BitVec.ofNat 64 (ldSrc d + z * i)⟩ (z * n)
      match r.1 with
      | .hole => .hole
      | .bad cause va => .bad cause va r.2
      | .ok b =>
        let l := (unpackLanes (geBits e) (leNat b) n).map (BitVec.ofNat 32)
        let s := r.2.nextWork c [] (if i + n < ldCount d then [.send j.key (i + n)] else [])
        .done (s.contribute x ⟨ldRank d, i, l, c, 63, j.inst, false⟩)

/-- The bytes of one run that stand in one line each. -/
def linePieces (t : Target) : Nat → List Byte → List (Target × List Byte)
  | 0, _ => []
  | fuel + 1, b =>
    if b = [] then []
    else
      let n := 128 - t.va.off.toNat % 128
      (t, b.take n) :: linePieces { t with va := VAddr.plus t.va n, place := t.place.plus n } fuel (b.drop n)

/-- Plain stores of bytes by the link thread of a core (in part DEDUCED, log 38). -/
def State.linkStore (s : State) (c : Nat) (off : Nat) (b : List Byte) : Linked :=
  match s.plan noInst { w := true } ⟨0, BitVec.ofNat 64 off⟩ b.length with
  | .hole => .hole
  | .bad cause va => .bad cause va s
  | .ok l =>
    let pieces := (l.foldl (fun (acc : List (Target × List Byte) × List Byte) x =>
      (acc.1 ++ linePieces x.1 (x.2 + 1) (acc.2.take x.2), acc.2.drop x.2)) ([], b)).1
    if pieces.any fun x => s.writeHeld c 63 false x.1 x.2.length then .held
    else .done (pieces.foldl (fun s x => s.writeFor c 63 false x.1 x.2) s)

/-- The results of a packet have been stored, or skipped: a complete chunk is counted next. -/
def State.linkStored (s : State) (c : Nat) (j : LinkJob) (i n : Nat) : State :=
  let d := j.desc
  let k := i / ldChunk d
  let old := tabGet [] j.received k
  let piece := 128 * i + n
  let got := if old.contains piece then old else old ++ [piece]
  let whole := min (ldChunk d) (ldCount d - k * ldChunk d) ≤ (got.map fun x => x % 128).foldl (· + ·) 0
  let j := { j with received := tabPut j.received k got }
  if whole && !j.raised.contains k then (s.putLinkJob c j).nextWork c [.raise j.key k] [] else (s.putLinkJob c j).nextWork c [] []

/-- A chunk's counter is raised by an AMO.ADD of 1 (R417; in part DEDUCED, log 38). -/
def State.linkRaise (s : State) (c : Nat) (j : LinkJob) (k : Nat) : Linked :=
  let mark := fun (s : State) => (s.putLinkJob c { j with raised := j.raised ++ [k] }).nextWork c [] []
  if j.raised.contains k then .done (s.nextWork c [] [])
  else if ldCtr j.desc = 0 then .done (mark s)
  else
    let va : VAddr := ⟨0, BitVec.ofNat 64 (ldCtr j.desc + 8 * k)⟩
    match s.engineTarget noInst { r := true, w := true } va with
    | .hole => .hole
    | .page => .bad 4 va s
    | .access | .miss | .window => .bad 3 va s
    | .ok t =>
      match t.place with
      | .mx _ _ _ => .bad 3 va s
      | .remote _ _ => .bad 3 va s
      | .window _ _ => .bad 3 va s
      | .home _ =>
        if s.dirtyPinned c || s.pinned t.place then .held
        else
          let s := s.releaseCore c
          let r := s.combineAt (.core c) t 0 1 0 (some (some (s.core c).carried))
          match r.2.1 with
          | some _ => .bad 12 va r.2.2
          | none => .done (mark (r.2.2.applySig c (r.2.2.sigAcquire t)))

/-- The completion record is written, its low doubleword last, by a release store (R417). -/
def State.linkFinish (s : State) (c : Nat) (j : LinkJob) (status : BitVec 4) (nf : BitVec 32) (topo : BitVec 8) : Linked :=
  let st := if status.toNat ≤ 1 && j.skipped then 4 else status.toNat
  let high := leBytes (nf.toNat + (ldStep j.desc).toNat * 2 ^ 32) 8
  let low := leBytes (st + topo.toNat * 2 ^ 16) 8
  match s.plan noInst { w := true } ⟨0, BitVec.ofNat 64 (ldCrec j.desc)⟩ 16 with
  | .hole => .hole
  | .bad cause va => .bad cause va s
  | .ok l =>
    match l with
    | [] => .hole
    | (t, _) :: _ =>
      if s.dirtyPinned c || s.pinned t.place then .held
      else
        let high8 : Target := { t with va := VAddr.plus t.va 8, place := t.place.plus 8 }
        let s := (s.writeFor c 63 false high8 high).releaseCore c
        let s := (s.sigRelease t (some (s.core c).carried)).writeFor c 63 true t low
        .done (s.dropLinkJob c j.key)

/-- An item of work is carried out. -/
def State.linkItem (s : State) (c : Nat) (w : LinkWork) : Linked :=
  let k := s.core c
  let none_ := Linked.done (s.nextWork c [] [])
  match w with
  | .read j => (match k.linkJob j with
    | some x => s.linkRead c x
    | none => none_)
  | .send j i => (match k.linkJob j with
    | some x => s.linkSend c x i
    | none => none_)
  | .store j i b => (match k.linkJob j with
    | some x =>
      let z := geBits (s.group (ldGroup x.desc)) / 8
      if b = [] then .done (s.linkStored c x i (geLanes (s.group (ldGroup x.desc))))
      else
        (match s.linkStore c (ldDst x.desc + z * i) b with
          | .done s => .done (s.linkStored c x i (b.length / z))
          | .held => .held
          | .bad cause va s => .bad cause va s
          | .hole => .hole)
    | none => none_)
  | .raise j n => (match k.linkJob j with
    | some x => s.linkRaise c x n
    | none => none_)
  | .finish j st nf topo => (match k.linkJob j with
    | some x => s.linkFinish c x st nf topo
    | none => none_)

/-- A fault of an item that the kernel has delivered, or that meets poison (R416, R417). -/
def State.linkGivenUp (s : State) (c : Nat) (va : VAddr) : State :=
  match (s.core c).linkWork with
  | [] => s
  | w :: _ =>
    let key := w.job
    match (s.core c).linkJob key with
    | none => s.nextWork c [] []
    | some x =>
      let s := s.record (.linkFault x.inst (match w with
        | .read _ => x.addr
        | .send _ _ | .store _ _ _ | .raise _ _ | .finish _ _ _ _ => va.off))
      let skipped := { x with skipped := true }
      match w with
      | .read _ => s.dropLinkJob c key
      | .send _ _ =>
        let s := s.nextWork c [] []
        (match s.findStep (ldGroup x.desc) (ldStep x.desc) false with
          | some y => s.loseStep y
          | none => s)
      | .store _ i b => (s.putLinkJob c skipped).linkStored c skipped i (b.length / (geBits (s.group (ldGroup x.desc)) / 8))
      | .raise _ n => (s.putLinkJob c { skipped with raised := x.raised ++ [n] }).nextWork c [] []
      | .finish _ _ _ _ => s.dropLinkJob c key

/-- The kind of the access that an item makes. -/
def LinkWork.kind : LinkWork → AccessKind
  | .read _ | .send _ _ => .read
  | .store _ _ _ | .finish _ _ _ _ => .write
  | .raise _ _ => .readWrite

/-- The link thread's wait for the kernel, with the item that it carries out. -/
def State.linkFaulted (s : State) (c : Nat) (w : LinkWork) (cause : Nat) (va : VAddr) : State :=
  let inst := match (s.core c).linkJob w.job with
    | some j => j.inst
    | none => noInst
  (s.fault (.link c) w.kind va cause inst).park (.fault s.serial)

/-- The link thread pops its queue: a command, or an event. -/
def State.linkPop (s : State) (c : Nat) : State :=
  match (s.core c).lnk with
  | [] => s.park (.element 121)
  | x :: r =>
    let s := (s.updCore c fun k => { k with lnk := r }).wakeIf c (isRoom .lnk)
    if x.value.getLsbD 63 then (if fld x.value.toNat 62 60 = 0 then s.takeResults c else s)
    else
      let key := s.serial
      ({ s with serial := key + 1 } : State).updCore c fun k => { k with
        linkJobs := k.linkJobs ++ [({ key := key, addr := x.value, inst := x.inst } : LinkJob)]
        linkWork := k.linkWork ++ [LinkWork.read key] }

/-- An issue of the link thread: one item of its work, or one element of its queue. A send that waits for a buffer lets other
work pass it. -/
def linkIssue (c : Nat) (s : State) : Res :=
  match (s.core c).linkWork with
  | [] => .next (s.linkPop c)
  | w :: rest =>
    match s.linkItem c w with
    | .done s => .next s
    | .hole => .fault .nothingThere
    | .bad cause va s => .next (if cause = 3 || cause = 4 then s.linkFaulted c w cause va else s.linkGivenUp c va)
    | .held =>
      if w.sends then
        let s := s.updCore c fun k => { k with linkWork := rest ++ [w] }
        if rest.all LinkWork.sends then (if (s.core c).lnk = [] then park (.room .link) s else .next (s.linkPop c)) else .next s
      else park (.room .link) s

/-! Reforms (R418). -/

/-- The first of a list that meets a condition is dropped. -/
def dropFirst? {α : Type} (p : α → Bool) : List α → List α
  | [] => []
  | x :: r => if p x then r else x :: dropFirst? p r

/-- Result packets of steps that are not complete, and the events that announce them, are discarded at a core. -/
def Core.dropResults (k : Core) (old : CombinePacket → Bool) : Core :=
  (k.results.filter old).foldl (fun k p => { k with
    lnk := dropFirst? (fun x => decide (x.value = linkEvent 0 p.stepNo p.group)) k.lnk })
    { k with results := k.results.filter fun p => !old p }

/-- The link thread of a core discards what it holds of a group's steps that are not complete, but for the chunks whose counters it has
raised, and sends its contributions to them again (R418, spec/24 R435). -/
def State.resend (s : State) (c g : Nat) : State :=
  let live := fun (h : Nat) (n : BitVec 32) => h = g && match s.findStep h n false with
    | some x => !x.complete
    | none => false
  let l := (s.core c).linkJobs.filter fun j => j.accepted && live (ldGroup j.desc) (ldStep j.desc)
  let mine := fun (key : Nat) => l.any fun j => j.key = key
  let s := s.dropWork c fun w => (w.sends || w.writes) && mine w.job
  s.updCore c fun k => { k.dropResults fun p => live p.group p.stepNo with
    linkWork := k.linkWork ++ (l.filter fun j => j.sends).map fun j => .send j.key 0
    linkJobs := k.linkJobs.map fun j =>
      if mine j.key then { j with received := j.received.filter fun e => j.raised.contains e.1 } else j }

/-- TREE_REFORM: the kernel writes the entry of the new tree; steps that are not complete are sent again, and so are requests for
stamps. -/
def execTreeReform (group : Nat) (entry : BitVec 128) (s : State) : Res :=
  let s := s.putGroup group entry
  let steps := s.hub.steps.filter fun x => x.group = group
  let s := s.cores.foldl (fun s e => s.resend e.1 group) s
  let s := s.updHub fun h => { h with
    steps := h.steps.map fun x => if x.group = group then x.replay else x
    credits := h.credits.filter fun e => e.1 / 256 != group
    outbox := h.outbox.filter fun x => x.2.group != group }
  let cores := steps.foldl (fun acc x => acc ++ x.cores.filter fun c => !acc.contains c) []
  let s := cores.foldl (fun s c => s.pushEvent c (linkEvent 4 0 group)) s
  let s := steps.foldl (fun s x =>
    if x.lost then (if x.answered || x.early != [] then s else s.loseStep { x with lost := false })
    else if x.complete then s
    else s.advance_ x.group x.stepNo x.scalar) s
  let asks : List Multicast := s.hub.requests.filter fun r => r.group = group
  .next (if geRoot entry then (if asks.isEmpty then s else s.emitOnce (.mcstStamping group none))
    else asks.foldl (fun s r => s.record (.multicastOut group none r.off r.value)) s)

end Sys2Proof.Machine
end

