-- ==== Sys2Proof/Machine/WriteBack.lean ====
section
/-! DEFINITION. The end of a tile: its checks (spec/14 R311, R312, spec/15 R333, R334), its write-back (R310), its status record
(R313, spec/15 R335), and the withdrawal of a cluster (R312). -/

namespace Sys2Proof.Machine

/-! Conversion (R310). -/

/-- WFLAGS: NV, OF, UF, NX in bits 3 to 0 (R314). -/
def wflagsOf (f : Flags) : Nat := f.nv.toNat * 8 + f.ovf.toNat * 4 + f.udf.toNat * 2 + f.nx.toNat

/-- scale_clip_convert (spec/03 R68). -/
def scaleClip (t : Elem) (a s : Val) (rm : Rm) (sat : Bool) : Nat × Flags :=
  let p := Val.mul a s
  let r := roundElem t p.1 false rm sat
  (r.1, Flags.or p.2 r.2)

/-- The bytes that element (i, j) takes in C, over its old bytes, and its write-back flags. A vat element reports none: neither that
its contribution was rounded nor that it was an infinity times zero (DESIGN CHOICE, log 64). -/
def cElement (c : Card) (j : JobEntry) (r : JobRun) (i col : Nat) (x : BitVec 32) (old : List Byte) : List Byte × Nat :=
  let a := Fmt.decode .fp32 x.toNat
  let s := Fmt.decode .fp32 r.scale.toNat
  if cdWbm c = 2 then (leBytes (vatAdd (BitVec.ofNat 128 (leNat old)) (Val.mul a s).1 (cdVate c)).toNat 16, 0)
  else if isD8 (cdFc c) then
    let p := Val.mul a s
    let y := encodeD8 (j.table.getD []) p.1
    (leBytes y.1 1, wflagsOf (Flags.or p.2 y.2))
  else
    let rm := if cdSr c then
        Rm.sr (srU (tabGet {} j.seeds (cdSeed c)).value ((128 * tileRow c r.index + i) % 65536) ((128 * tileCol c r.index + col) % 65536)
          (cdSalt c ^^^ 0x5A5A))
      else rmOf (cdRm c)
    let y := scaleClip (elemOf (cdFc c)) a s rm (cdSat c)
    (leBytes y.1 (cdSizeC c), wflagsOf y.2)

/-! Writing C (R310, R314). -/

/-- The elements of row i from column col on, with their flags; a vat element adds to its old bytes. -/
def cRow (c : Card) (j : JobEntry) (r : JobRun) (i : Nat) : Nat → List (BitVec 32) → List Byte → List Byte × Nat
  | _, [], _ => ([], 0)
  | col, x :: xs, old =>
    let y := cElement c j r i col x (old.take 16)
    let z := cRow c j r i (col + 1) xs (old.drop 16)
    (y.1 ++ z.1, y.2 ||| z.2)

/-- What writing answers: all of it is written, a pin holds it, or an access faults. -/
inductive Written where
  | all
  | held
  | bad (cause : Nat) (va : VAddr)
  | range (off : Nat)
  | hole
  deriving DecidableEq, Repr

/-- A page's run of C elements, with how many bytes of the row it covers; a vat's run ends before its first poisoned element. -/
def State.cRun (s : State) (k e : Nat) (j : JobEntry) (r : JobRun) (t : Target) (n : Nat) : Written × State :=
  let c := r.card
  let z := cdSizeC c
  let i := r.written / 128
  let col := r.written % 128
  let view : Bool := match t.place with
    | .mx _ _ _ => cdWbm c = 2
    | .home _ | .window _ _ | .remote _ _ => false
  if view then (.bad 3 t.va, s)
  else if s.planPinned k [(t, n)] then (.held, s)
  else
    let s := s.takeBack (.cluster k) t n
    let old := if cdWbm c = 2 then s.readPlace t.place n else ([], none, s)
    let n := (old.2.1.map fun b => b / z * z).getD n
    if n = 0 then (.bad 12 (VAddr.plus t.va (old.2.1.getD 0)), old.2.2)
    else
      let y := cRow c j r i col ((r.tile.acc.drop r.written).take (n / z)) old.1
      let s := old.2.2
      let bytes := if r.blurred then (span s.freeCtr n).map fun m => (Config.freeValue m).setWidth 8 else y.1
      let s := (if r.blurred then { s with freeCtr := s.freeCtr + n } else s).writeTarget (.cluster k) t bytes
      let marked := s.rindTouched t.place n
      (.all, s.updRun k e fun x => { x with
        written := r.written + n / z
        wflags := x.wflags ||| y.2
        rind := { x.rind with todo := x.rind.todo ++ marked.filter fun b => !x.rind.todo.contains b }
        lo := min x.lo t.va.off.toNat
        hi := max x.hi (t.va.off.toNat + n) })

/-- Writes C from the run's next element on, run by run. -/
def State.writeC (s : State) (k e : Nat) (j : JobEntry) : Nat → Written × State
  | 0 => (.all, s)
  | fuel + 1 =>
    match ((s.cluster k).job e).run with
    | none => (.all, s)
    | some r =>
      if 16384 ≤ r.written then (.all, s)
      else
        let c := r.card
        let z := cdSizeC c
        let start := (cdCbase c : Int) + cdOffC c r.index + (r.written / 128 * cdLdc c + r.written % 128 * z : Nat)
        let left := (128 - r.written % 128) * z
        if runBad (start, left) then (.range (start % 2 ^ 48).toNat, s)
        else
          let va : VAddr := ⟨cdSpace c, BitVec.ofInt 64 start⟩
          let n := pageRun va left
          match s.engineTarget j.inst { r := cdWbm c = 2, w := true } va with
          | .hole => (.hole, s)
          | .window => (.bad 7 va, s)
          | .access | .miss => (.bad 3 va, s)
          | .page => (.bad 4 va, s)
          | .ok t =>
            let x := s.cRun k e j r t n
            match x.1 with
            | .all => x.2.writeC k e j fuel
            | .held => x
            | .bad _ _ => x
            | .range _ => x
            | .hole => x

/-! The tile status record (spec/15 R335). -/

/-- The recorded generation of a job's seed. -/
def JobEntry.sgen (j : JobEntry) (c : Card) : Nat := if cdSmp c then (tabGet {} j.seeds (cdSeed c)).gen.toNat else 0

/-- Flags, VAR, NORM and NSLC of a tile that is computed. -/
def JobRun.result (r : JobRun) : Nat × BitVec 32 × BitVec 32 × Nat :=
  let more := (if r.rex then flagReexec else 0) + (if r.failed then flagFailed else 0)
  match r.mode with
  | none => (more, 0, 0, 0)
  | some (.exact f none) => if r.failed then (f + more, 0, 0, 0) else (f + more, 0, normOf r.tile.acc, 0)
  | some (.exact f (some (v, n, c))) => if r.failed then (f + more, 0, 0, 0) else (f + more, v, n, c)
  | some (.sampled d) =>
    if r.failed then (flagSampled + more, 0, 0, 0)
    else (flagSampled + more, d.var (cdBud r.card + 1), normOf r.tile.acc, d.drawn)

def tileRecord (flags : Nat) (var norm : BitVec 32) (nslc sgen : Nat) : List Byte :=
  leBytes (var.toNat + norm.toNat * 2 ^ 32 + nslc % 65536 * 2 ^ 64 + flags % 65536 * 2 ^ 80 + sgen * 2 ^ 96) 16

/-- Writes the record of the tile; poison in its sector is found (R314). -/
def State.putTileRecord (s : State) (k : Nat) (j : JobEntry) (r : JobRun) : Written × State :=
  let c := r.card
  let off := cdStat c + 64 + 16 * r.ordinal
  if 2 ^ 48 < off + 16 then (.range off, s)
  else
    let va : VAddr := ⟨cdSpace c, BitVec.ofNat 64 off⟩
    match s.plan j.inst { w := true } va 16 with
    | .hole => (.hole, s)
    | .bad cause v => (.bad cause v, s)
    | .ok l =>
      if s.planPinned k l then (.held, s)
      else
        let bad := l.any fun x => match x.1.place with
          | .home pa => (s.poisonAt pa x.2).isSome
          | .mx f v _ => (s.aliasPoison f v x.2).isSome
          | .window _ _ | .remote _ _ => false
        let x := r.result
        let s := s.writePlan (.cluster k) l (tileRecord x.1 x.2.1 x.2.2.1 x.2.2.2 (j.sgen c))
        (if bad then .bad 12 va else .all, s)

/-! Withdrawal (R312). -/

/-- The cluster takes no further work; its jobs that have not started end with CODE 7, and the kernel is told. -/
def State.withdraw (s : State) (k : Nat) : State :=
  let s := (s.updCluster k fun c => { c with withdrawn := true }).record (.withdrawn k)
  let s := s.updCluster k fun c => { c with jobs := c.jobs.map fun e => (e.1, if e.2.st = .yielded then { e.2 with barred := true } else e.2) }
  (s.cluster k).jobs.foldl (fun s e =>
    let free : Bool := match e.2.run with
      | some r => r.finish.isNone
      | none => true
    if e.2.st = .accepted && free then s.finishJob k e.1 7 else s) s

/-! The end of a tile. -/

/-- The tile is computed again from its first step, in a mode. -/
def JobRun.again (r : JobRun) (m : TileMode) : JobRun :=
  { r with
    tile := startTile r.tile.init r.tile.init, mode := some m, index := firstStep r.card r.index, kg := 0, skip := 0, written := 0
    lines := [] }

def State.redo (s : State) (k e : Nat) (f : JobRun → JobRun) : State :=
  let s := (s.updRun k e f).dropPins k
  (if s.runs ((s.cluster k).job e).inst then s else s.emitOnce (.engineYield k)).emitOnce (.kGroup k)

/-- What R333 says of an estimate that is complete, in the order of its table: conditions 1, 4 and 5 (in part DESIGN CHOICE, log 11). -/
def State.verdict (s : State) (r : JobRun) (d : Draw) : Option TileMode :=
  let var := d.var (cdBud r.card + 1)
  let norm := normOf r.tile.acc
  if !s.wordsStand d then some (.exact (flagStale + flagExact) none)
  else if d.nonfinite then some (.exact (flagNonfin + flagExact) none)
  else if rejected (cdTau r.card) var norm then some (.exact (flagRecomp + flagExact) (some (var, norm, d.drawn)))
  else none

/-- The mode with which a tile is executed a second time: the same draw. -/
def TileMode.repeated : TileMode → TileMode
  | .exact f x => .exact f x
  | .sampled d => .sampled d.again

/-- The run after its tile is recorded, at the next one. -/
def JobRun.nextTile (r : JobRun) (idx : List Nat) : JobRun :=
  { r with index := idx, kg := 0, ordinal := r.ordinal + 1, mode := none, tile := {}, rex := false, skip := 0, written := 0 }

/-- Counts of a tile that is recorded. -/
def JobRun.count (r : JobRun) (written : Bool) : JobRun :=
  let f := r.result.1
  { r with
    tiles := if written then r.tiles + 1 else r.tiles
    records := max r.records (r.ordinal + 1)
    nreex := if r.rex then r.nreex + 1 else r.nreex
    nrecomp := if f / flagRecomp % 2 = 1 then r.nrecomp + 1 else r.nrecomp
    tflags := r.tflags ||| f }

/-- The record is written: the next tile, or the end. -/
def State.tileDone (s : State) (k e : Nat) : State :=
  match ((s.cluster k).job e).run with
  | none => s
  | some r =>
    if r.failed then
      ((s.updRun k e fun r => r.count false).endWith k e 4 0).withdraw k
    else
      let s := (s.updRun k e fun r => r.count true).dropLines k e []
      let idx := match r.mode with
        | some (.sampled _) => (span 0 5).map fun l => if l < cdKl r.card then cdN r.card l - 1 else r.index.getD l 0
        | some (.exact _ _) => r.index
        | none => r.index
      match nestNext r.card 0 idx with
      | none => s.endWith k e (if r.cancelled then 6 else 0) 0
      | some n =>
        let s := (s.updRun k e fun r => r.nextTile n).emitOnce (.kGroup k)
        if s.runs ((s.cluster k).job e).inst then s else s.emitOnce (.engineYield k)

/-- Writes the tile's status record, and goes on. -/
def State.recordTile (s : State) (k e : Nat) (j : JobEntry) : State :=
  match ((s.cluster k).job e).run with
  | none => s
  | some r =>
    let x := s.putTileRecord k j r
    match x.1 with
    | .all => x.2.tileDone k e
    | .held => s
    | .bad cause va =>
      let s := if cause = 12 then x.2.updRun k e fun r => { r with records := max r.records (r.ordinal + 1) } else x.2
      s.jobFault k e .write cause va
    | .range off => s.endWith k e 2 off
    | .hole => s.endWith k e 2 (cdStat r.card + 64 + 16 * r.ordinal)

/-- The next stage of the recompute that follows a tile's write-back (spec/15 R325). -/
def State.tileRind (s : State) (k e : Nat) (r : JobRun) : State :=
  let x := s.rindStage (.cluster k) none r.rind
  x.2.2.updRun k e fun r => { r with rind := x.2.1 }

/-- Writes the tile's C and, once the rind blocks that it marked are recomputed (spec/15 R325), its record. -/
def State.writeTile (s : State) (k e : Nat) (j : JobEntry) : State :=
  let x := s.writeC k e j 16385
  match x.1 with
  | .held => x.2
  | .bad cause va => x.2.jobFault k e (if cdWbm ((((x.2.cluster k).job e).run.getD {}).card) = 2 then .readWrite else .write) cause va
  | .range off => x.2.endWith k e 2 off
  | .hole => x.2.endWith k e 2 0
  | .all =>
    match ((x.2.cluster k).job e).run with
    | none => x.2
    | some r =>
      if r.rind.todo = [] then x.2.recordTile k e j
      else (x.2.tileRind k e r).emitOnce (.tileWriteBack k)

/-- TILE_WRITE_BACK: the tile's estimate and checksums are checked before any byte of it is written. -/
def execTileWriteBack (cluster : Nat) (s : State) : Res :=
  match s.runningJob cluster with
  | none => .next s
  | some (e, j, r) =>
    if !r.going || !r.ready || j.norm || r.mode.isNone || r.unit.isSome then .next s
    else if r.failed then .next (s.recordTile cluster e j)
    else if r.written != 0 then .next (s.writeTile cluster e j)
    else
      let again := match r.mode with
        | some (.sampled d) => s.verdict r d
        | some (.exact _ _) => none
        | none => none
      match again with
      | some m => .next (s.redo cluster e fun r => r.again m)
      | none =>
        if r.tile.mismatch ((cdL r.card : Int) - cdTol r.card) then
          if r.rex then .next ((s.updRun cluster e fun r => { r with failed := true }).recordTile cluster e j)
          else
            .next (s.redo cluster e fun r => { r.again ((r.mode.getD (.exact flagExact none)).repeated) with rex := true })
        else .next (s.writeTile cluster e j)

end Sys2Proof.Machine
end

