-- ==== Sys2Proof/Machine/Preempt.lean ====
section
/-! DEFINITION. Pre-emption (spec/18 R373 to R376), frozen and stopped threads (R369, spec/19 R394), draining a core (R372) and
restoring a cluster (spec/14 R312). -/

namespace Sys2Proof.Machine

/-! Abandoning a swap (R382). -/

/-- A core's cache is write-back again, and its banks take fills. -/
def Core.plainCache (k : Core) : Core := { k with writeThrough := false, noFill := [] }

/-- A waiting or preparing swap of a pair is abandoned, for an instance's request or for good. When it falls due again it waits
for the holds that are active then (R385, spec/19 R396). -/
def State.abandonSwap (s : State) (p : Nat) (again : Option Nat) : State :=
  match (s.pair p).phase with
  | .waiting _ | .preparing _ =>
    let held := (s.pair p).held
    (((s.updPair p fun x => { x with phase := .idle, again := again, retry := false, ignoreHolds := false, held := [] }).updCore p
      Core.plainCache).updCore (partner p) Core.plainCache).emitAll held
  | .idle | .exchanged => s

/-- The request of an instance is complete: a swap that it abandoned falls due again at the next wheel boundary. -/
def State.requestDone (s : State) (inst : Nat) : State :=
  { s with pairs := s.pairs.map fun (e : Nat × Pair) => if e.2.again = some inst then (e.1, { e.2 with again := none, retry := true }) else e }

/-- What reaches a core's pair in the course of its swap waits for the end. -/
def State.afterSwap (s : State) (c : Nat) (i : Instr) : State :=
  s.updPair (pairOf c) fun p => if p.held.contains i then p else { p with held := p.held ++ [i] }

/-! Halting (R373). -/

/-- A thread of a halting instance. A participant that waits for a press to form is withdrawn, and issues again on resume (spec/16
R351). A frozen thread, or one that HALT stopped, counts as halted (in part DESIGN CHOICE, log 30). -/
def Thread.halt (t : Thread) (withdrawn : Bool) : Thread :=
  { t with st := match t.st with
    | .ready _ _ | .seated _ _ => .halted none
    | .parked w => if withdrawn then .halted none else .halted (some w)
    | .halted w => if withdrawn then .halted none else .halted w
    | .free => .free
    | .frozen => .frozen
    | .stopped => .stopped }

/-- The thread waits for a press that has not formed. -/
def State.unformed (s : State) (c sl : Nat) : Bool := (s.cluster (clusterOf c)).press.any fun x => x.core = c && x.slot = sl && !x.formed

/-- Every thread of an instance halts, on every core. -/
def State.haltThreads (s : State) (inst : Nat) : State :=
  { s with cores := s.cores.map fun (e : Nat × Core) =>
    (e.1, { e.2 with slots := e.2.slots.map fun x => if ofInst inst x then (x.1, x.2.halt (s.unformed e.1 x.1)) else x }) }

/-- Participants of an instance that wait for their press to form are withdrawn. -/
def State.withdrawPress (s : State) (inst : Nat) : State :=
  { s with clusters := s.clusters.map fun (e : Nat × Cluster) =>
    (e.1, { e.2 with press := e.2.press.filter fun x => x.inst != inst || x.formed }) }

/-- The steps to which an instance contributes and that are not complete: those of its accepted descriptors, and scalar steps
(spec/22 R420, spec/23 R429). -/
def State.stepsOf (s : State) (inst : Nat) : List (Nat × BitVec 32) :=
  let l := (s.cores.map fun e => (e.2.linkJobs.filter fun j => j.accepted && j.inst = inst).map fun j => (ldGroup j.desc, ldStep j.desc)).flatten ++
    (s.hub.steps.filter fun x => x.scalar && x.ranks.any fun q => q.inst = inst).map fun x => (x.group, x.stepNo)
  l.foldl (fun acc x => if acc.contains x then acc else acc ++ [x]) []

/-- The steps of a halted instance are held, and every node is told. -/
def State.holdSteps (s : State) (inst : Nat) : State :=
  (s.stepsOf inst).foldl (fun s x => (s.noteHold x.1 x.2 inst).record (.holdOut x.1 x.2 false)) s

/-- Engines that run a job of the instance yield; an MX.NORM job runs on. -/
def State.yieldJobs (s : State) (inst : Nat) : State :=
  s.clusters.foldl (fun s e =>
    match e.2.running with
    | some n => if (e.2.job n).inst = inst && !(e.2.job n).norm then s.emitOnce (.engineYield e.1) else s
    | none => s) s

/-- A pre-emption of a live instance (in part DESIGN CHOICE, log 30). -/
def State.preempt (s : State) (inst : Nat) : State :=
  match s.inst inst with
  | none => s
  | some i =>
    if i.st != .live then s
    else if s.exchanging i.core then s.afterSwap i.core (.preemptionRequest inst)
    else
      let s := (s.updInst inst fun i => { i with st := .halting }).abandonSwap (pairOf i.core) (some inst)
      ((((s.haltThreads inst).withdrawPress inst).holdSteps inst).yieldJobs inst).emitOnce (.haltComplete inst)

/-- PREEMPTION_REQUEST. -/
def execPreemptionRequest (inst : Nat) (s : State) : Res := .next (s.preempt inst)

/-- A thread is able to issue. -/
def Thread.able (t : Thread) : Bool :=
  match t.st with
  | .ready _ _ | .seated _ _ => true
  | .free | .parked _ | .frozen | .halted _ | .stopped => false

/-- Every party of an instance has halted (R373, R375; in part DESIGN CHOICE, log 30). -/
def State.allHalted (s : State) (inst : Nat) (i : Inst) : Bool :=
  !(s.cores.any fun e => e.2.slots.any (fun x => ofInst inst x && x.2.able) || e.2.migIn.any fun p => p.lightOf inst) &&
  !(s.flight.any fun x => x.1 < 1024 && x.2.lightOf inst) &&
  !(s.clusters.any fun e =>
    (match e.2.running with
      | some n => (e.2.job n).inst = inst && !(e.2.job n).norm
      | none => false) || e.2.press.any fun x => x.inst = inst) &&
  !s.exchanging i.core

/-- HALT_COMPLETE: the message to the kernel, once every party has halted (in part DESIGN CHOICE, log 30). -/
def execHaltComplete (inst : Nat) (s : State) : Res :=
  match s.inst inst with
  | none => .next s
  | some i =>
    if i.st != .halting || !s.allHalted inst i then .next s
    else .next (((s.updInst inst fun i => { i with st := .halted }).record (.haltComplete inst)).requestDone inst)

/-! Resuming in place (R376). -/

/-- A halted thread goes on: ready at the next wheel boundary, or parked as it was; MON.WAIT and IDLE complete with cause 3. -/
def Thread.goOn (t : Thread) (now boundary : Nat) : Thread :=
  match t.st with
  | .halted none => { t with st := .ready boundary false }
  | .halted (some w) => ({ t with st := .parked w } : Thread).wakeCause now 3
  | .free | .ready _ _ | .seated _ _ | .parked _ | .frozen | .stopped => t

/-- A core whose threads of an instance go on. -/
def Core.goOn (k : Core) (inst : Nat) : Core :=
  { k with slots := k.slots.map fun x => if ofInst inst x then (x.1, x.2.goOn k.cyc k.nextBoundary) else x }

/-- The events of a live instance that a halt may have held: its jobs, its migrants and its threads that a full queue refused. -/
def State.heldFor (s : State) (inst : Nat) : List Instr :=
  (s.clusters.map fun e =>
    Instr.matrixJobStart e.1 :: (e.2.indexJobs.filter fun j => j.2.cmd.inst = inst).map fun j => Instr.indexStep e.1 j.1).flatten ++
  (s.flight.filter fun x => x.2.isOf inst).map (fun x => Instr.migrationPacketArrival x.1) ++
  (s.cores.map fun e => (e.2.slots.filter fun x => ofInst inst x && (match x.2.wait with
    | some (.migration _) => true
    | _ => false)).map fun x => Instr.migrationRetry e.1 x.1).flatten

/-- The steps that an instance's halt held go on. -/
def State.freeSteps (s : State) (inst : Nat) : State :=
  (s.hub.holds.filter fun h => h.2.2 = inst).foldl (fun s h => (s.noteResume h.1 h.2.1 inst).record (.holdOut h.1 h.2.1 true)) s

/-- A halted instance is live again. -/
def State.goOn (s : State) (inst : Nat) : State :=
  let s := s.updInst inst fun i => { i with st := .live, evictTo := none }
  let s := { s with cores := s.cores.map fun (e : Nat × Core) => (e.1, e.2.goOn inst) }
  (((s.heldFor inst).foldl (fun s i => s.emitOnce i) (s.freeSteps inst)).settleInst inst).requestDone inst

/-- RESUME. -/
def execResume (inst : Nat) (s : State) : Res :=
  match s.inst inst with
  | none => .next s
  | some i => .next (if i.st = .halted then s.goOn inst else s)

/-! Threads that only the kernel moves. -/

/-- A thread that may issue again, unless its instance is halted. -/
def State.releaseThread (s : State) (c sl : Nat) (f : Thread → Thread) : State :=
  let t := s.thread c sl
  let st : SlotState := if s.issues t.inst then .ready (s.core c).cyc false else .halted none
  s.putThread c sl { f t with st := st }

/-- FROZEN_THREAD_RESTART (R369): in supervisor mode, with INH cleared, at a PC that the kernel chooses. -/
def execFrozenThreadRestart (core slot : Nat) (pc : BitVec 64) (s : State) : Res :=
  if (s.thread core slot).st = .frozen then
    .next (s.releaseThread core slot fun t => { t with mode := .supervisor, inh := false, pc := pc })
  else .next s

/-- HALTED_THREAD_RESUME (spec/19 R394): at the instruction after the HALT, where the thread's pc stands. -/
def execHaltedThreadResume (core slot : Nat) (s : State) : Res :=
  if (s.thread core slot).st = .stopped then .next (s.releaseThread core slot id) else .next s

/-! Draining a core, and restoring a cluster. -/

def isSwap (w : Wait) : Bool :=
  match w with
  | .swap => true
  | _ => false

/-- Threads of a pair that wait in CASTLE.HOLD issue it again. -/
def State.swapOver (s : State) (p : Nat) : State := (s.wakeIf p isSwap).wakeIf (partner p) isSwap

/-- CORE_DRAIN (R372): nothing more is placed on the core, castling of its pair stops, and the kernel pre-empts each resident,
which it then evicts and restores elsewhere. -/
def execCoreDrain (core : Nat) (s : State) : Res :=
  let s := ((s.updCore core fun k => { k with drained := true }).abandonSwap (pairOf core) none).swapOver (pairOf core)
  .next ((s.residents core).foldl (fun s e => s.emitOnce (.preemptionRequest e.1)) s)

/-- CLUSTER_RESTORE (spec/14 R312): the cluster is scheduled again. -/
def execClusterRestore (cluster : Nat) (s : State) : Res := .next (s.updCluster cluster fun k => { k with withdrawn := false })

end Sys2Proof.Machine
end

