-- ==== Sys2Proof/Machine/Evict.lean ====
section
/-! DEFINITION. Eviction to an image and restore from it (spec/18 R377, R378, spec/16 R349). -/

namespace Sys2Proof.Machine

/-! The image (R377). -/

/-- n unspecified bytes, numbered from ctr on. -/
def freeBytes (ctr n : Nat) : List Byte := (span ctr n).map fun i => (Config.freeValue i).setWidth 8

/-- Offsets of the image's parts. -/
def imgHead : Nat := 0x40
def imgSeeds : Nat := 0x80
def imgRequests : Nat := 0x140
def imgCount : Nat := 0x240
def imgPorts : Nat := 0x248
def imgSlot (sl : Nat) : Nat := 0x1000 + 2048 * sl
def imgMail : Nat := 0x1F000
def imgBanks : Nat := 0x20000
def imgBarriers : Nat := 0x60000

/-- Bytes padded with 0 to a length. -/
def padTo (n : Nat) (b : List Byte) : List Byte := b.take n ++ leBytes 0 (n - b.length)

def Seed.bytes (x : Seed) : List Byte := leBytes x.value.toNat 8 ++ leBytes x.gen.toNat 4

/-- Registers 0 to 127 of a thread, 0 beyond its allocation. -/
def Thread.regBytes (t : Thread) : List Byte := ((span 0 128).map fun n => leBytes (if n < t.alloc then (t.reg n).toNat else 0) 8).flatten

/-- The request in a register, if it is the instance's. -/
def Core.ownRequest (k : Core) (inst j : Nat) : List Byte :=
  match tabFind k.requests j with
  | some r => if r.inst = inst then leBytes r.body.toNat 32 else leBytes 0 32
  | none => leBytes 0 32

/-- The first four elements of a receive side. -/
def sideBytes (l : List Element) : List Byte := padTo 32 ((l.map fun e => leBytes e.value.toNat 8).flatten)

/-- An owned barrier (R377). -/
def Barrier.bytes (b : Barrier) (n : Nat) : List Byte :=
  leBytes (n % 1024 + b.count % 128 * 2 ^ 16 + b.phase.toNat * 2 ^ 32 + b.mask.toNat * 2 ^ 64) 16

def Core.ownBarriers (k : Core) (inst : Nat) : Tab Barrier := k.barriers.filter fun b => b.2.owner = some inst

/-- A word with the bits of a list of numbers set. -/
def bitsOf (l : List Nat) : Nat := l.foldl (fun w n => w ||| 2 ^ n) 0

/-- The 64 bytes at 0x40: instance number, live-slot mask, full bits of the request registers and bounds of the deque, each in 8
bytes, and free values after them (DESIGN CHOICE, log 44). -/
def State.imageHead (s : State) (inst : Nat) (i : Inst) (ctr : Nat) : List Byte :=
  let k := s.core i.core
  let slots := (k.slots.filter fun x => decide (x.1 < 60) && ofInst inst x).map (·.1)
  let full := (k.requests.filter fun r => r.2.inst = inst).map (·.1)
  ([inst, bitsOf slots, bitsOf full, 0, i.deque.length].map fun n => leBytes n 8).flatten ++ freeBytes ctr 24

/-- The parts of the image with their offsets; the bytes whose layout the manual does not give are free values from ctr on. -/
def State.imageParts (s : State) (inst : Nat) (i : Inst) (ctr : Nat) : List (Nat × List Byte) :=
  let k := s.core i.core
  let ports := if s.ownerIs inst i then k.ports else []
  let barriers := k.ownBarriers inst
  [(0, leBytes i.packet.toNat 64), (imgHead, s.imageHead inst i ctr),
    (imgSeeds, ((span 0 16).map fun n => (k.seedLast n).bytes).flatten),
    (imgRequests, ((span 0 8).map fun j => k.ownRequest inst j).flatten),
    (imgCount, leBytes barriers.length 8),
    (imgPorts, ((span 0 4).map fun d => sideBytes (tabGet [] ports d)).flatten),
    (imgPorts + 128, leBytes 0 3384)] ++
  ((span 0 60).map fun sl =>
    let t := tabGet {} k.slots sl
    [(imgSlot sl, if ofInst inst (sl, t) then t.regBytes else leBytes 0 1024),
      (imgSlot sl + 1024, freeBytes (ctr + 24 + 1024 * sl) 1024)]).flatten ++
  [(imgMail, padTo 4096 ((k.mailbox.filter fun m => m.inst = inst).map fun m => leBytes m.body.toNat 16).flatten)] ++
  ((span 0 i.banks.length).map fun n => (imgBanks + 8192 * n, (s.readPlace (.window i.core (8192 * i.banks.getD n 0)) 8192).1)) ++
  [(imgBarriers, (barriers.map fun b => b.2.bytes b.1).flatten)]

/-- Free bytes of an image. -/
def imageFree : Nat := 24 + 1024 * 60

/-- The state bytes of an image at an address, as it was written (in part DEDUCED, log 44). -/
def stateBytes (head : List Byte) (image ctr : Nat) : List (Nat × List Byte) :=
  (image + imgHead, head) :: (span 0 60).map fun sl => (image + imgSlot sl + 1024, freeBytes (ctr + 24 + 1024 * sl) 1024)

/-- Poisoned rows of a window's banks, as sectors of its image. -/
def State.imagePoison (s : State) (i : Inst) (image : Nat) : List Nat :=
  ((span 0 i.banks.length).map fun n =>
    ((s.core i.core).badRows.filter fun r => r / 64 = i.banks.getD n 0).map fun r =>
      span ((image + imgBanks + 8192 * n + 128 * (r % 64)) / 32) 4).flatten.flatten

/-- Bytes of an image. -/
def Inst.imageSize (barriers : Nat) : Nat := imgBarriers + 16 * barriers

/-! Eviction. -/

/-- The image keeps the wait; every other wait's instruction issues again on resume, and finds its cause as it then stands. -/
def Wait.kept (w : Wait) : Bool :=
  match w with
  | .fault _ | .jobRun _ _ | .monitor _ _ _ _ | .idle _ | .request | .migration _ => true
  | .access _ | .walk _ _ | .proxy _ | .jobWait _ _ | .mail | .barrierOpen _ | .barrier _ _ _ | .counter _ _ _ | .room _ | .element _
  | .reds | .requestEmpty _ | .press _ _ | .swap | .stamp _ _ _ | .step _ _ _ | .invalidate _ _ => false

/-- A thread as its image keeps it; its registers stand in memory. -/
def Thread.evicted (t : Thread) : Thread :=
  { t with
    regs := [], hold := none
    st := match t.st with
      | .halted (some w) => if w.kept then .halted (some w) else .halted none
      | .halted none => .halted none
      | .frozen => .frozen
      | .stopped => .stopped
      | .free | .ready _ _ | .seated _ _ | .parked _ => .halted none }

/-- A reply to the thread is outstanding (R374). -/
def Thread.awaitsReply (t : Thread) : Bool :=
  t.reds != [] ||
  match t.wait with
  | some (.access _) | some (.walk _ _) | some (.proxy _) | some (.stamp _ _ _) | some (.invalidate _ _) => true
  | _ => false

/-- The slots of an instance that its image holds. -/
def Core.imageSlots (k : Core) (inst : Nat) : Tab Thread := k.slots.filter fun x => decide (x.1 < 60) && ofInst inst x

/-- The requests of an instance leave a core, and others move up (spec/09 R213). -/
def State.dropRequests (s : State) (c inst : Nat) : State :=
  let s := s.updCore c fun k => { k with
    requests := k.requests.filter fun r => r.2.inst != inst
    backing := k.backing.filter fun r => r.2.inst != inst }
  (span 0 8).foldl (fun s j => s.refill c j) s

/-- The commands that an instance has queued for a core's link thread leave it. -/
def State.dropCommands (s : State) (c inst : Nat) : State :=
  (s.updCore c fun k => { k with lnk := k.lnk.filter fun x => x.inst != inst }).wakeIf c (isRoom .lnk)

/-- The instance's part of its core's state is in the image. -/
def State.makeImage (s : State) (inst : Nat) (i : Inst) (image ctr : Nat) : Image :=
  let k := s.core i.core
  { number := inst, inst := i
    threads := (k.imageSlots inst).map fun x => (x.1, x.2.evicted)
    requests := k.requests.filter fun r => r.2.inst = inst
    backing := k.backing.filter fun r => r.2.inst = inst
    barriers := k.ownBarriers inst
    ports := if s.ownerIs inst i then some k.ports else none
    mailbox := k.mailbox.filter fun m => m.inst = inst
    written := stateBytes (s.imageHead inst i ctr) image ctr
    lnk := k.lnk.filter fun x => x.inst = inst }

/-- A packet of a light thread whose slot goes into the image is not on its way any more: the thread sends it again. -/
def State.recallPackets (s : State) (inst c : Nat) : State :=
  { s with flight := s.flight.filter fun x => !(x.2.lightOf inst && x.2.core = c && decide (x.2.slot < 60)) }

/-- The image is written, and the place is freed (in part DEDUCED, log 44). -/
def State.evict (s : State) (inst : Nat) (i : Inst) (image : Nat) : State :=
  let c := i.core
  let s := s.releaseCore c
  let ctr := s.freeCtr
  let parts := s.imageParts inst i ctr
  let g := s.makeImage inst i image ctr
  let owned := s.ownerIs inst i
  let s := { s with freeCtr := ctr + imageFree + 8192 * i.banks.length }
  let bad := s.imagePoison i image
  let s := parts.foldl (fun s p => s.writeHome .hub none (image + p.1) p.2) s
  let s := { s with poison := s.poison ++ bad.filter fun x => !s.poison.contains x, images := tabPut s.images image g }
  let s := s.recallPackets inst c
  let s := s.updCore c fun k => { k with slots := k.slots.filter fun x => !(decide (x.1 < 60) && ofInst inst x) }
  let s := (s.dropRequests c inst).dropCommands c inst
  let s := s.updInst inst fun i => { i with st := .evicted image, scratch := [], operand := [], evictTo := none }
  ((s.clearPlace inst i owned).emitOnce (.mailboxDelivery inst)).requestDone inst

/-- EVICTION: of a halted instance, to a 4 KiB-aligned address at which an image fits; it waits for the replies to the instance's
threads and for an exchange of its pair, and abandons a swap that waits or prepares (R382; in part DEDUCED, log 44). -/
def execEviction (inst : Nat) (image : Nat) (s : State) : Res :=
  match s.inst inst with
  | none => .next s
  | some i =>
    let k := s.core i.core
    if i.st != .halted || image % 4096 != 0 || Config.hbmBytes < image + Inst.imageSize (k.ownBarriers inst).length ||
      (tabFind s.images image).isSome then .next s
    else if s.exchanging i.core then .next (s.afterSwap i.core (.eviction inst image))
    else if (k.imageSlots inst).any fun x => x.2.awaitsReply then
      .next ((s.abandonSwap (pairOf i.core) (some inst)).updInst inst fun i => { i with evictTo := some image })
    else .next ((s.abandonSwap (pairOf i.core) (some inst)).evict inst i image)

/-! Restore (R378). -/

/-- The image's threads at their own slots, with first-fit runs of blocks; none where they do not fit. -/
def Core.seatAgain (k : Core) : List (Nat × Thread) → Option (List (Nat × Nat))
  | [] => some []
  | (sl, t) :: r =>
    if (tabGet {} k.slots sl).live then none
    else
      match k.firstFit (t.alloc / 8) with
      | none => none
      | some b =>
        (Core.seatAgain (k.putThread sl { t with block := b, st := .frozen }) r).map fun l => (sl, b) :: l

/-- A thread of an image as restore gives it back: its registers as they stand in memory, but for what its MX.RUN has written
since. -/
def State.restoredThread (s : State) (image sl block : Nat) (t : Thread) : Thread :=
  let mem : Tab Word := (span 1 (t.alloc - 1)).map fun n => (n, BitVec.ofNat 64 (leNat (memRead s.mem (image + imgSlot sl + 8 * n) 8)))
  { t with
    block := block
    seen := s.serial + 1
    monitors := t.monitors.map fun (m : Monitor) => { m with triggered := true, noticed := false }
    regs := t.regs.foldl (fun (l : Tab Word) (e : Nat × Word) => tabPut l e.1 e.2) mem }

/-- A saved seed slot counts as a SEED.SET, with the saved generation. -/
def State.restoreSeed (s : State) (c inst image n : Nat) : State :=
  let at_ := image + imgSeeds + 12 * n
  let x : Seed := ⟨BitVec.ofNat 64 (leNat (memRead s.mem at_ 8)), BitVec.ofNat 32 (leNat (memRead s.mem (at_ + 8) 4))⟩
  s.updCore c fun k => { k with seedWrites := k.seedWrites ++ [⟨k.cyc, some (dispatchWriter inst), n, x⟩] }

/-- The contents of a bank. -/
def State.restoreBank (s : State) (c image n bank : Nat) : State :=
  let at_ := image + imgBanks + 8192 * n
  let rows := (span 0 64).filter fun r => (span ((at_ + 128 * r) / 32) 4).any s.poison.contains
  s.updCore c fun k => { k with
    sram := memWrite k.sram (8192 * bank) (memRead s.mem at_ 8192)
    badRows := k.badRows ++ rows.map fun r => 64 * bank + r }

/-- A request of a restored instance: into its register, or behind those that wait for it. -/
def State.giveRequest (s : State) (c j : Nat) (r : Request) : State :=
  match tabFind (s.core c).requests j with
  | none => s.fillRequest c j r
  | some _ => s.updCore c fun k => { k with backing := k.backing ++ [(j, r)] }

/-- The barriers that the image's bytes name. -/
def State.imageBarriers (s : State) (image : Nat) (g : Image) : Tab Barrier :=
  (span 0 (min 1024 (leNat (memRead s.mem (image + imgCount) 8)))).map fun n =>
    let w := leNat (memRead s.mem (image + imgBarriers + 16 * n) 16)
    (fld w 9 0, { tabGet {} g.barriers (fld w 9 0) with
      owner := some g.number, count := fld w 22 16, phase := BitVec.ofNat 32 (fld w 63 32), mask := BitVec.ofNat 64 (fld w 127 64) })

/-- A receive side whose first four values stand in the image. -/
def State.imageSide (s : State) (image d : Nat) (l : List Element) : List Element :=
  ((span 0 l.length).zip l).map fun (x : Nat × Element) =>
    if x.1 < 4 then { x.2 with value := BitVec.ofNat 64 (leNat (memRead s.mem (image + imgPorts + 32 * d + 8 * x.1) 8)) } else x.2

/-- The messages of an image, the first 256 as their bytes stand. -/
def State.imageMail (s : State) (image : Nat) (l : List Message) : List Message :=
  ((span 0 l.length).zip l).map fun (x : Nat × Message) =>
    if x.1 < 256 then { x.2 with body := BitVec.ofNat 128 (leNat (memRead s.mem (image + imgMail + 16 * x.1) 16)) } else x.2

/-- What an image's bytes give back: requests, barriers, receive sides and messages, as they stand in memory; slots of messages and
signatures stand among the bytes whose layout the manual does not give (in part DEDUCED, log 44). -/
def State.readImage (s : State) (image : Nat) (g : Image) : Image :=
  { g with
    requests := g.requests.map fun (r : Nat × Request) =>
      (r.1, { r.2 with body := BitVec.ofNat 256 (leNat (memRead s.mem (image + imgRequests + 32 * r.1) 32)) })
    barriers := s.imageBarriers image g
    ports := g.ports.map fun (t : Tab (List Element)) => (span 0 4).map fun d => (d, s.imageSide image d (tabGet [] t d))
    mailbox := s.imageMail image g.mailbox }

/-- Receive sides that join those of a core: the elements that wait there for an owner come after. -/
def joinPorts (t u : Tab (List Element)) : Tab (List Element) :=
  (span 0 4).foldl (fun (r : Tab (List Element)) d =>
    let l := tabGet [] t d ++ tabGet [] u d
    if l.isEmpty then r else tabPut r d l) []

/-- Every state byte stands as it was written. -/
def State.imageIntact (s : State) (g : Image) : Bool := g.written.all fun w => memRead s.mem w.1 w.2.length = w.2

/-- The core breaks one of the kernel's two obligations. -/
def State.conflicts (s : State) (c : Nat) (g : Image) : Bool :=
  (g.barriers.any fun b => ((s.core c).barrier b.1).owner.isSome) || (g.ports.isSome && (s.portOwner c).isSome)

/-- Jobs of an instance in a cluster that have not ended. -/
def State.openJobs (s : State) (k inst : Nat) : Tab JobEntry := (s.cluster k).jobs.filter fun j => j.2.inst = inst && !j.2.open

/-- The jobs of an instance may move to another cluster, which accepts none while it is withdrawn (spec/14 R312). -/
def State.jobsMove (s : State) (inst old new : Nat) : Bool :=
  old = new || (s.openJobs old inst).all fun j => j.2.st != .running && ((s.cluster new).job j.1).open && !(s.cluster new).withdrawn

/-- The jobs move to the entries with the same numbers, in their order; in the old cluster their ids are gone (spec/16 R347 R348). -/
def State.moveJobs (s : State) (inst old new : Nat) : State :=
  if old = new then s
  else
    let l := sortBy (fun a b => decide (a.2.order < b.2.order)) (s.openJobs old inst)
    let s := l.foldl (fun s (j : Nat × JobEntry) =>
      let n := (s.cluster new).accepted
      let s := s.putJob old j.1 { st := .free, gen := j.2.gen }
      let s := (s.putJob new j.1 { j.2 with order := n, barred := false }).updCluster new fun k => { k with accepted := n + 1 }
      s.jobOver old (jobId j.2.gen j.1) none) s
    s.emitOnce (.matrixJobStart new)

/-- The new place of a thread in the fault records. -/
def State.refault (s : State) (inst c : Nat) : State :=
  { s with faults := s.faults.map fun f =>
    match f.who with
    | .thread _ sl => if f.inst = inst && decide (sl < 60) then { f with who := .thread c sl } else f
    | .copy _ _ | .index _ _ | .matrix _ | .multicast _ | .link _ | .orphan => f }

/-- The instance stands on a core again, and resumes. The restored threads' own earlier stores are at their homes, and the core's
copies of them go (spec/08 R175). -/
def State.place (s : State) (image : Nat) (g : Image) (c : Nat) (x : Option DecodeTable) (seats : List (Nat × Nat))
    (banks : List Nat × List Nat × List Nat) : State :=
  let n := g.number
  let s := s.moveJobs n (clusterOf g.inst.core) (clusterOf c)
  let s := s.updCore c fun k => ((k.giveRole 2 banks.1).giveRole 3 banks.2.1).giveRole 1 banks.2.2
  let all := banks.1 ++ banks.2.1
  let s := (span 0 all.length).foldl (fun s i => s.restoreBank c image i (all.getD i 0)) s
  let s := match x with
    | some t => s.updCore c fun k => { k with fmt := some t, fmtWrites := [] }
    | none => s
  let s := (span 0 16).foldl (fun s i => s.restoreSeed c n image i) s
  let s := { s with serial := s.serial + 1, images := tabDel s.images image, insts := tabPut s.insts n { g.inst with
    st := .halted, core := c, order := s.serial, scratch := banks.1, operand := banks.2.1, evictTo := none
    cores := if g.inst.cores.contains c then g.inst.cores else g.inst.cores ++ [c]
    deque := (s.inst n).elim g.inst.deque fun i => i.deque
    foreign := g.inst.foreign || (s.inst n).elim false fun i => i.foreign } }
  let s := seats.foldl (fun s e => s.putThread c e.1 (s.restoredThread image e.1 e.2 (tabGet {} g.threads e.1))) s
  let s := s.updCore c fun k => { k with
    barriers := g.barriers.foldl (fun t b => tabPut t b.1 b.2) k.barriers
    ports := g.ports.elim k.ports fun t => joinPorts t k.ports
    mailbox := k.mailbox ++ g.mailbox
    lnk := k.lnk ++ g.lnk }
  let s := (s.refault n c).applySig c allOnes512
  let s := g.requests.foldl (fun s r => s.giveRequest c r.1 r.2) s
  let s := (g.backing.foldl (fun s r => s.giveRequest c r.1 r.2) s).settleBacking c
  let s := if g.lnk = [] then s else s.wakeIf c (isElement 121)
  let s := { s with mailFlight := s.mailFlight ++ g.held }.emitOnce (.mailboxDelivery n)
  ((s.goOn n).portsMoved c).unblocked

/-- RESTORE: of an image on a core that can take it. An image that was changed has status 4, and a core that breaks the kernel's
obligations status 5; the decode table is read with the statuses of spec/07 R148. A core whose pair swaps takes it afterwards (R167).
A core that cannot take the instance now, or whose job entries are not free, leaves the image as it is. -/
def execRestore (image core : Nat) (s : State) : Res :=
  match tabFind s.images image with
  | none => .next s
  | some g =>
    let p := g.inst.packet
    let intact := s.imageIntact g
    let g := s.readImage image g
    if s.swapping core then .next (s.afterSwap core (.restore image core))
    else if !intact then .next (s.record (.imageRefused image 4))
    else if s.conflicts core g then .next (s.record (.imageRefused image 5))
    else if !(s.core core).started || (s.core core).drained || !s.tableFree core g.inst.fmtp ||
      !s.jobsMove g.number (clusterOf g.inst.core) (clusterOf core) then .next s
    else
      match (s.core core).seatAgain g.threads, (s.core core).banksFor p with
      | some seats, some banks =>
        if g.inst.fmtp = 0 then .next (s.place image g core none seats banks)
        else
          (match (s.readBytes noInst ⟨0, g.inst.fmtp⟩ 1024).1 with
            | .hole => .fault .nothingThere
            | .bad _ _ => .next (s.record (.imageRefused image 3))
            | .ok b =>
              if tableOk (tableOf b) then .next (s.place image g core (some (tableOf b)) seats banks)
              else .next (s.record (.imageRefused image 1)))
      | _, _ => .next s

end Sys2Proof.Machine
end

