-- ==== Sys2Proof/Machine/Kill.lean ====
section
/-! DEFINITION. Kill (spec/18 R379, R380). -/

namespace Sys2Proof.Machine

/-! Threads. -/

/-- A thread's fault record is answered by its end. -/
def State.dropFault (s : State) (n : Nat) : State := { s with faults := s.faults.filter fun f => f.number != n }

/-- A killed thread's fault record: that of a store stays until the kernel answers it (R380). -/
def State.orphanFault (s : State) (n : Nat) : State :=
  if s.faults.any fun f => f.number = n && (f.kind = .write || f.kind = .readWrite) then
    { s with faults := s.faults.map fun f => if f.number = n then { f with who := .orphan } else f }
  else s.dropFault n

/-- The places of stores that a wait has still to perform. -/
def Wait.stores (w : Wait) : List Place :=
  match w with
  | .access (.store t _ _ _ _) => [t.place]
  | .access (.vstore ts _ _) => ts.map fun t => t.1.place
  | _ => []

/-- A killed thread ends: its slot and blocks are free, and what it waited for is given up. Its store is dropped whole (R379), but a
pin that holds it holds the kill as well (R380). -/
def State.killThread (s : State) (c sl : Nat) : State :=
  let t := s.thread c sl
  let s := match t.wait with
    | some (.fault n) => s.orphanFault n
    | some w => { s with orphans := s.orphans ++ ((w.stores.filter s.pinned).map fun p => (t.inst, p)) }
    | none => s
  ((s.freeThread c sl).updCore c fun k => { k with replies := tabDel k.replies sl }).accessDone (some (c, sl)) none

/-- Light threads' packets go from the queues and from their way. -/
def State.dropMigrants (s : State) (p : MigPacket → Bool) : State :=
  let s := { s with flight := s.flight.filter fun x => !p x.2 }
  s.cores.foldl (fun s e =>
    let s := if e.2.migIn.any p then s.updCore e.1 fun k => { k with migIn := k.migIn.filter fun x => !p x } else s
    (State.serveQueue e.1 17 s).queueFreed e.1) s

/-- Every thread of an instance ends, on every core, and its light threads' packets are discarded; the kill follows those that have
migrated to other devices (spec/22 R406). -/
def State.killThreads (s : State) (inst : Nat) : State :=
  let s := s.cores.foldl (fun s e => e.2.slots.foldl (fun s x => if ofInst inst x then s.killThread e.1 x.1 else s) s) s
  let s := s.dropMigrants fun p => p.lightOf inst
  if s.away.any fun p => p.isOf inst then s.record (.killOut inst) else s

/-- The kill of another device's instance ends its migrants here (spec/22 R406). -/
def State.killMigrants (s : State) (device inst : Nat) : State :=
  let own := fun (x : Nat × Thread) => x.2.live && x.2.device = device && x.2.inst = inst && x.2.proxy.isNone
  let light := fun (p : MigPacket) => p.kind = 0 && p.device = device && p.inst = inst
  let n := (s.cores.map fun e => (e.2.slots.filter own).length + (e.2.migIn.filter light).length).foldl (· + ·) 0 +
    (s.flight.filter fun x => light x.2).length
  let s := s.cores.foldl (fun s e => e.2.slots.foldl (fun s x => if own x then s.killThread e.1 x.1 else s) s) s
  (span 0 n).foldl (fun s _ => s.record (.migrantGone device inst)) (s.dropMigrants light)

/-! Copies (spec/13 R290). -/

/-- The recomputes of what a writer has marked complete or fail (spec/15 R325 R338). -/
def State.drainRind (s : State) (a : Agent) (w : RindWork) : Nat → State
  | 0 => s
  | n + 1 =>
    if w.todo = [] then s
    else
      let x := s.rindStage a none w
      x.2.2.drainRind a x.2.1 n

/-- The copy thread lets go of a request that it has taken (spec/13 R281). -/
def State.dropHanded (s : State) (c inst : Nat) : State :=
  match (s.core c).handed with
  | none => s
  | some b =>
    if reqInst b != inst then s
    else s.updThread c 62 fun t =>
      ({ t with cur := 0, pc := Config.copyThreadEntry } : Thread).wake (s.core c).cyc

/-- A running command stops between two beats, without a message, and the rind of its last beat is recomputed. One that has ended
leaves its channel with its message, which is discarded. -/
def State.dropCopies (s : State) (inst : Nat) : State :=
  s.clusters.foldl (fun s e =>
    let s := s.updCluster e.1 fun k => { k with copyQueue := k.copyQueue.filter fun b => reqInst b != inst }
    let s := (span (8 * e.1) 8).foldl (fun s c => s.wakeIf c (isRoom (.copy e.1))) s
    e.2.channels.foldl (fun s c =>
      match c.2.run with
      | none => s
      | some r =>
        if reqInst r.body != inst || r.status.isSome then s
        else
          let s := match r.fault with
            | some n => s.dropFault n
            | none => s
          let s := s.drainRind (.cluster e.1) r.rind (2 * r.rind.todo.length)
          (s.updChannel e.1 c.1 fun c => { c with run := none }).emitOnce (.copyBeat e.1 c.1)) s) s

/-! Index jobs. -/

def State.dropIndex (s : State) (inst : Nat) : State :=
  s.clusters.foldl (fun s e =>
    let s := s.updCluster e.1 fun k => { k with
      indexQueue := k.indexQueue.filter fun c => c.inst != inst
      indexJobs := k.indexJobs.filter fun j => j.2.cmd.inst != inst }
    let s := e.2.indexJobs.foldl (fun s j =>
      if j.2.cmd.inst != inst then s
      else match j.2.fault with
        | some n => s.dropFault n
        | none => s) s
    let s := (span (8 * e.1) 8).foldl (fun s c => s.wakeIf c (isRoom (.index e.1))) s
    (span 0 indexSlots).foldl (fun s j => s.emitOnce (.indexStep e.1 j)) s) s

/-! Matrix and MX.NORM jobs (spec/14 R321, spec/15 R338). -/

/-- A job is discarded: no C write, no record and no message, but what it has marked in a rind is recomputed. Its entry is free, so
that its id is gone. -/
def State.discardJob (s : State) (k e : Nat) : State :=
  let j := (s.cluster k).job e
  let s := match j.run with
    | some r => (match r.fault with
      | some n => s.dropFault n
      | none => s)
    | none => s
  let s := match j.run with
    | some r => s.drainRind (.cluster k) r.rind (2 * r.rind.todo.length)
    | none => s
  let s := match j.run with
    | some r => if j.norm && r.ready then s.publish (cdBits r.card 271 264) else s
    | none => s
  let s := s.leaveJob k e
  let s := s.putJob k e { st := .free, gen := j.gen, norm := j.norm }
  let s := s.jobOver k (jobId j.gen e) none
  ((span (8 * k) 8).foldl (fun s c => s.wakeIf c (isRoom (.job k))) s).emitOnce (.matrixJobStart k)

def State.discardJobs (s : State) (inst : Nat) : State :=
  s.clusters.foldl (fun s e =>
    e.2.jobs.foldl (fun s j => if j.2.inst = inst && !j.2.open then s.discardJob e.1 j.1 else s) s) s

/-! The press (spec/14 R321). -/

/-- A participant that waits for its press to form is withdrawn; fragments for one that does not wait are dropped. -/
def State.killPress (s : State) (inst : Nat) : State :=
  { s.withdrawPress inst with clusters := (s.withdrawPress inst).clusters.map fun (e : Nat × Cluster) =>
    (e.1, { e.2 with press := e.2.press.map fun x => if x.inst = inst then { x with killed := true } else x }) }

/-! Links (spec/22 R419). -/

/-- A step that the kill of a contributor loses after its results have left the root: the descriptors still open at this device
complete with STATUS 3. -/
def Core.loseLate (k : Core) (g : Nat) (n : BitVec 32) : Core :=
  let keys := k.jobsOf g n
  { k with
    results := k.results.map fun p => if p.group = g && p.stepNo = n && p.last then { p with status := 3 } else p
    linkWork := k.linkWork.map fun w => match w with
      | .finish j st nf topo => if keys.contains j then .finish j 3 nf topo else .finish j st nf topo
      | .read j => .read j
      | .send j i => .send j i
      | .store j i b => .store j i b
      | .raise j c => .raise j c }

def State.loseLate (s : State) (g : Nat) (n : BitVec 32) : State :=
  let s := s.quiet g n
  { s with cores := s.cores.map fun (e : Nat × Core) => (e.1, e.2.loseLate g n) }

/-- The steps to which the instance contributes are lost, and its descriptors and commands are dropped; so are requests for stamps that
have not left this device for a root (spec/22 R408). -/
def State.dropLink (s : State) (inst : Nat) : State :=
  let lost := s.stepsOf inst
  let s := s.updHub fun h => { h with
    holds := h.holds.filter fun x => x.2.2 != inst
    requests := h.requests.filter fun r => r.inst != inst || !geRoot (s.group r.group) }
  let s := lost.foldl (fun s x =>
    (s.hub.steps.filter fun y => y.group = x.1 && y.stepNo = x.2).foldl (fun s y => s.loseStep y) (s.loseLate x.1 x.2)) s
  let faults := s.faults.filterMap fun f => match f.who with
    | .link c => if f.inst = inst then some (f.number, c) else none
    | .thread _ _ | .copy _ _ | .index _ _ | .matrix _ | .multicast _ | .orphan => none
  let s := s.cores.foldl (fun s e =>
    let s := (e.2.linkJobs.filter fun j => j.inst = inst).foldl (fun s j => s.dropLinkJob e.1 j.key) s
    s.dropCommands e.1 inst) s
  faults.foldl (fun s x => (s.dropFault x.1).wake x.2 63) s

/-! The request (R379). -/

/-- Nowhere: the core of an instance that is killed in its image (in part DEDUCED, log 45). -/
def nowhere : Nat := 2 ^ 32

/-- Everything that an instance owns is ended or discarded (in part DEDUCED, log 45). -/
def State.kill (s : State) (inst : Nat) : State :=
  match s.inst inst with
  | none => s
  | some i =>
    if i.st = .killing then s
    else if i.resident && s.exchanging i.core then s.afterSwap i.core (.kernelKillRequest inst)
    else
      let s := match i.st with
        | .evicted n => { s with images := tabDel s.images n }
        | .live | .halting | .halted | .killing => s.abandonSwap (pairOf i.core) (some inst)
      let s := s.updInst inst fun x => { x with st := .killing, core := if x.resident then x.core else nowhere, evictTo := none }
      let s := s.killThreads inst
      let s := s.cores.foldl (fun s e => (s.dropRequests e.1 inst).dropHanded e.1 inst) s
      let s := (((((s.dropCopies inst).dropIndex inst).discardJobs inst).killPress inst).dropLink inst)
      let s := s.cores.foldl (fun s e => s.updCore e.1 fun k => { k with mailbox := k.mailbox.filter fun m => m.inst != inst }) s
      let s := s.cores.foldl (fun s e => s.pairMoved e.1) s
      ((s.emitOnce (.mailboxDelivery inst)).unblocked).emitOnce (.killComplete inst)

/-- KERNEL_KILL_REQUEST. -/
def execKernelKillRequest (inst : Nat) (s : State) : Res := .next (s.kill inst)

/-! The end of a kill (R380). -/

/-- Something of the instance may still write or is under way (in part DEDUCED, log 45). -/
def State.killPending (s : State) (inst : Nat) : Bool :=
  (s.flight.any fun x => x.2.isOf inst) ||
  (s.cores.any fun e => (e.2.migIn.any fun p => p.isOf inst) || e.2.slots.any fun x => x.2.proxy.any fun p => p.isOf inst) ||
  (s.away.any fun p => p.isOf inst) || (s.orphans.any fun x => x.1 = inst && s.pinned x.2) ||
  (s.faults.any fun f => f.who = .orphan && f.inst = inst) ||
  (s.clusters.any fun e => e.2.press.any fun x => x.inst = inst) || (s.hub.stamped.any fun x => x.inst = inst) ||
  s.hub.requests.any fun x => x.inst = inst

/-- KILL_COMPLETE: the message to the kernel, once every row of R379 has been met; the instance's place is free (in part DEDUCED, log 45). -/
def execKillComplete (inst : Nat) (s : State) : Res :=
  match s.inst inst with
  | none => .next s
  | some i =>
    if i.st != .killing || s.killPending inst || s.exchanging i.core then .next s
    else
      let s := { s with orphans := s.orphans.filter fun x => x.1 != inst }
      let s := if i.core = nowhere then { s with insts := tabDel s.insts inst } else s.freePlace inst i
      .next ((s.record (.killComplete inst)).requestDone inst)

end Sys2Proof.Machine
end

