-- ==== Sys2Proof/Machine/Castle.lean ====
section
/-! DEFINITION. Castling (spec/18 R381 to R385). -/

namespace Sys2Proof.Machine

/-! Falling due, waiting and preparing (R382). -/

/-- A core of the pair is drained. -/
def State.pairDrained (s : State) (p : Nat) : Bool := (s.core p).drained || (s.core (partner p)).drained

/-- A core of the pair holds an instance. -/
def State.pairHeld (s : State) (p : Nat) : Bool := s.residents p != [] || s.residents (partner p) != []

/-- SWAP_DUE: the swap is skipped, or waits. One that is due while another is under way has nothing to wait for (in part DEDUCED, log 42). -/
def execSwapDue (pair : Nat) (s : State) : Res :=
  let p := s.pair pair
  match p.phase with
  | .idle =>
    if pair != pairOf pair then .next s
    else
      let s := s.updPair pair fun x => { x with retry := false, ignoreHolds := x.ignoreHolds && x.retry }
      if s.castling pair = 0 || s.pairDrained pair || !s.pairHeld pair then .next (s.swapOver pair)
      else .next ((s.updPair pair fun x => { x with phase := .waiting (s.core pair).cyc }).emitOnce (.swapPrepare pair))
  | .waiting _ | .preparing _ | .exchanged => .next s

/-- A castling hold is active on a core (R384). -/
def Core.held (k : Core) : Bool := k.slots.any fun e => e.2.live && e.2.hold.isSome

/-- The swap of a pair must wait: for a press, for a dispatch that is taking effect, or for a hold (in part DEDUCED, log 43). -/
def State.swapWaits (s : State) (p : Nat) : Bool :=
  (s.cluster (clusterOf p)).pressing || (s.core p).arriving.isSome || (s.core (partner p)).arriving.isSome ||
  (!(s.pair p).ignoreHolds && ((s.core p).held || (s.core (partner p)).held))

/-- The dirty lines of a core that no pin holds go home. -/
def State.writeBackFree (s : State) (c : Nat) : State :=
  (s.core c).cache.foldl (fun s l => if s.pinned (.home (128 * l.line)) then s else s.writeBackLine c l.line) s

/-- A core prepares: its cache is write-through, and the banks that will leave the cache role take no fills. -/
def State.prepareCore (s : State) (c : Nat) : State :=
  let n := s.cacheWanted (partner c)
  (s.updCore c fun k => { k with writeThrough := true, noFill := k.ways.drop n }).writeBackFree c

/-- SWAP_PREPARE (in part DEDUCED, log 42). -/
def execSwapPrepare (pair : Nat) (s : State) : Res :=
  match (s.pair pair).phase with
  | .waiting _ =>
    if s.swapWaits pair then .next s
    else .next (((s.updPair pair fun x => { x with phase := .preparing (s.core pair).cyc }).prepareCore pair).prepareCore (partner pair))
  | .idle | .preparing _ | .exchanged => .next s

/-- SWAP_DEFERRAL_LIMIT (R385): a swap that has waited for 60,000 cycles ignores holds. -/
def execSwapDeferralLimit (pair : Nat) (s : State) : Res :=
  match (s.pair pair).phase with
  | .waiting since =>
    if since + deferCycles ≤ (s.core pair).cyc then
      .next ((s.updPair pair fun x => { x with ignoreHolds := true }).emitOnce (.swapPrepare pair))
    else .next s
  | .idle | .preparing _ | .exchanged => .next s

/-- HOLD_EXPIRY (R385; in part DEDUCED, log 43). -/
def execHoldExpiry (core slot : Nat) (s : State) : Res :=
  match (s.thread core slot).hold with
  | some h =>
    if h + holdCycles ≤ (s.core core).cyc then .next ((s.updThread core slot fun t => { t with hold := none }).pairMoved core)
    else .next s
  | none => .next s

/-! What moves (R383). -/

/-- A cycle of one core's counter as the same distance on another's. -/
def rebase (old new t : Nat) : Nat := if old ≤ t then new + (t - old) else new - (old - t)

/-- Where banks go: core and bank, to core and bank. -/
abbrev BankMap := List ((Nat × Nat) × Nat × Nat)

def BankMap.find (m : BankMap) (c b : Nat) : Option (Nat × Nat) := (m.find? fun e => e.1 = (c, b)).map (·.2)

/-- A place after the banks have moved. -/
def Place.moved (m : BankMap) (p : Place) : Place :=
  match p with
  | .window c a =>
    (match m.find c (a / 8192) with
      | some x => .window x.1 (8192 * x.2 + a % 8192)
      | none => .window c a)
  | .home pa => .home pa
  | .mx f v e => .mx f v e
  | .remote sp pa => .remote sp pa

def Target.moved (m : BankMap) (t : Target) : Target := { t with place := t.place.moved m }

def Pend.moved (m : BankMap) (p : Pend) : Pend :=
  match p with
  | .load t n s rd b a => .load (t.moved m) n s rd b a
  | .store t n d b r => .store (t.moved m) n d b r
  | .vload ts got bad n g c b => .vload (ts.map fun x => (x.1, x.2.moved m)) got bad n g c b
  | .vstore ts n b => .vstore (ts.map fun x => (x.1.moved m, x.2)) n b
  | .vatRead t rd c => .vatRead (t.moved m) rd c
  | .tableRead l o rd => .tableRead (l.map fun x => (x.1.moved m, x.2)) o rd
  | .done l => .done l

/-- The core that holds a slot after the swap of a pair: slots 60 to 63 stay. -/
def movedCore (a c sl : Nat) : Nat := if sl < 60 && pairOf c = a then partner c else c

def movedSlot (a : Nat) (x : Nat × Nat) : Nat × Nat := (movedCore a x.1 x.2, x.2)

def Wait.moved (m : BankMap) (a : Nat) (w : Wait) : Wait :=
  match w with
  | .access p => .access (p.moved m)
  | .counter t n sc => .counter (t.moved m) n sc
  | .invalidate l p => .invalidate (l.map (movedSlot a)) p
  | _ => w

/-- A packet whose origin may have moved: its reply is forwarded, or it is sent again from the new core (R384). -/
def MigPacket.movedTo (a : Nat) (p : MigPacket) : MigPacket := if p.device = 0 then { p with core := movedCore a p.core p.slot } else p

/-- A thread of any core after the swap of a pair: the places and slots that it waits for, or that its packet names. -/
def Thread.moved (t : Thread) (m : BankMap) (a : Nat) : Thread :=
  { t with
    proxy := t.proxy.map (MigPacket.movedTo a)
    monitors := t.monitors.map fun (x : Monitor) => { x with place := x.place.moved m }
    st := match t.st with
      | .parked w => .parked (w.moved m a)
      | .halted w => .halted (w.map (Wait.moved m a))
      | .free => .free
      | .ready n b => .ready n b
      | .seated p n => .seated p n
      | .frozen => .frozen
      | .stopped => .stopped }

/-- A thread on its new core, where it takes no value from a cache that was filled before (spec/08 R175; DEDUCED, log 68). -/
def Thread.rebased (t : Thread) (old new seen : Nat) : Thread :=
  { t with
    seen := seen
    st := match t.st with
      | .ready n b => .ready (rebase old new n) b
      | .seated p n => .seated p (rebase old new n)
      | .free => .free
      | .parked w => .parked w
      | .frozen => .frozen
      | .halted w => .halted w
      | .stopped => .stopped
    issued := t.issued.map (rebase old new)
    woke := t.woke.map (rebase old new)
    hold := t.hold.map (rebase old new) }

/-- Delayed writes on their new core. -/
def rebaseAll {α : Type} (old new : Nat) (l : List (Delayed α)) : List (Delayed α) :=
  l.map fun (d : Delayed α) => { d with cycle := rebase old new d.cycle }

/-! Banks. -/

/-- Instances take banks in ascending instance number, scratch before operand. -/
def assignBanks : List (Nat × Inst) → List Nat → List (Nat × List Nat × List Nat) × List Nat
  | [], l => ([], l)
  | (n, i) :: r, l =>
    let k := i.scratch.length
    let o := i.operand.length
    let x := assignBanks r (l.drop (k + o))
    ((n, l.take k, (l.drop k).take o) :: x.1, x.2)

/-- The banks of a core after the swap: those that keep the cache role, each arriving instance's, and those that enter the
cache role. -/
structure NewBanks where
  keep : List Nat
  placed : List (Nat × List Nat × List Nat)
  enter : List Nat
  deriving DecidableEq, Repr

def State.newBanks (s : State) (c : Nat) : NewBanks :=
  let n := s.cacheWanted (partner c)
  let keep := (s.core c).ways.take n
  let arriving := sortBy (fun a b => decide (a.1 < b.1)) (s.residents (partner c))
  let x := assignBanks arriving ((span 0 32).filter fun b => !keep.contains b)
  ⟨keep, x.1, x.2.take (n - keep.length)⟩

/-- Where the banks of a core's residents go. -/
def State.bankMap (s : State) (c : Nat) : BankMap :=
  let d := partner c
  ((s.newBanks d).placed.map fun x =>
    match s.inst x.1 with
    | some i => (i.banks.zip (x.2.1 ++ x.2.2)).map fun b => ((c, b.1), d, b.2)
    | none => []).flatten

/-- BANKROLE of a core after the swap. -/
def NewBanks.roles (n : NewBanks) : BitVec 64 :=
  n.placed.foldl (fun w x => withRole 3 x.2.2 (withRole 2 x.2.1 w)) (withRole 1 (n.keep ++ n.enter) 0)

/-- The contents of a core's scratch and operand banks, as its partner's residents bring them. -/
def Core.withBanks (k from_ : Core) (m : BankMap) : Core :=
  { k with
    sram := m.foldl (fun (mem : Memory) e => memWrite mem (8192 * e.2.2) (memRead from_.sram (8192 * e.1.2) 8192)) []
    badRows := (m.map fun e => (from_.badRows.filter fun r => r / 64 = e.1.2).map fun r => 64 * e.2.2 + r % 64).flatten
    unspecified := (m.map fun e => (from_.unspecified.filter fun u => u.lo / 8192 = e.1.2).map fun (u : Unspecified) =>
      { u with lo := 8192 * e.2.2 + u.lo % 8192 }).flatten }

/-! The exchange. -/

/-- The slots that stay with a core, and those that arrive. -/
def newSlots (own from_ : Core) (seen : Nat) : Tab Thread :=
  (from_.slots.filter fun e => e.1 < 60).map (fun e => (e.1, e.2.rebased from_.cyc own.cyc seen)) ++ own.slots.filter fun e => 60 ≤ e.1

/-- The receive sides after the swap: an owner's elements come with it, before those that wait here for an owner. -/
def newPorts (own from_ : Core) (owned fromOwned : Bool) : Tab (List Element) :=
  (span 0 4).foldl (fun (t : Tab (List Element)) d =>
    let l := (if fromOwned then tabGet [] from_.ports d else []) ++ (if owned then [] else tabGet [] own.ports d)
    if l.isEmpty then t else tabPut t d l) []

/-- A core after the exchange with its partner. A loaded table comes with the residents, also where FMT.LD loaded it at offset 0, so
that no shadow pointer shows it (spec/16 R359 against spec/03 R72; DESIGN CHOICE, log 63). A dispatch that waits for the end of the
swap finds the room that it was promised (spec/07 R167). -/
def Core.exchanged (k from_ : Core) (m : BankMap) (n : NewBanks) (owned fromOwned : Bool) (seen : Nat) : Core :=
  { k.withBanks from_ m with
    bankrole := n.roles
    slots := newSlots k from_ seen
    arriving := from_.arriving
    sigw := k.sigw ||| from_.sigw
    sighCur := k.sighCur ||| from_.sighCur
    sighPrev := k.sighPrev ||| from_.sighPrev
    seeds := from_.seeds
    seedWrites := rebaseAll from_.cyc k.cyc from_.seedWrites
    fmt := from_.fmt
    fmtWrites := rebaseAll from_.cyc k.cyc from_.fmtWrites
    mailbox := from_.mailbox
    requests := from_.requests
    backing := from_.backing
    barriers := from_.barriers
    ports := newPorts k from_ owned fromOwned
    replies := from_.replies.filter (fun e => e.1 < 60) ++ k.replies.filter fun e => 60 ≤ e.1
    frozenSwap := true }

/-- An event that is about a slot of the pair. -/
def Instr.movedTo (a : Nat) (i : Instr) : Instr :=
  match i with
  | .accessReply c sl => .accessReply (movedCore a c sl) sl
  | .pageTableWalk c sl => .pageTableWalk (movedCore a c sl) sl
  | .proxyReply c sl => .proxyReply (movedCore a c sl) sl
  | .migrationRetry c sl => .migrationRetry (movedCore a c sl) sl
  | .monitorNotice c sl => .monitorNotice (movedCore a c sl) sl
  | .monWaitTimeout c sl => .monWaitTimeout (movedCore a c sl) sl
  | .holdExpiry c sl => .holdExpiry (movedCore a c sl) sl
  | _ => i

/-- The references to slots of a pair, outside its cores. -/
def State.moveRefs (s : State) (a : Nat) (m : BankMap) : State :=
  let s := { s with
    agenda := s.agenda.map (Instr.movedTo a)
    flight := s.flight.map fun (x : Nat × MigPacket) => (x.1, x.2.movedTo a)
    faults := s.faults.map fun (f : FaultRecord) => match f.who with
      | .thread c sl => { f with who := .thread (movedCore a c sl) sl }
      | .copy _ _ | .index _ _ | .matrix _ | .multicast _ | .link _ | .orphan => f
    orphans := s.orphans.map fun (x : Nat × Place) => (x.1, x.2.moved m)
    cores := s.cores.map fun (e : Nat × Core) => (e.1, { e.2 with
      migIn := e.2.migIn.map (MigPacket.movedTo a)
      slots := e.2.slots.map fun (x : Nat × Thread) => (x.1, x.2.moved m a) })
    clusters := s.clusters.map fun (e : Nat × Cluster) => (e.1, { e.2 with
      press := e.2.press.map fun (x : Participant) => { x with core := movedCore a x.core x.slot } }) }
  s.updHub fun h => { h with
    requests := h.requests.map fun (r : Multicast) => { r with sender := r.sender.map (movedSlot a) }
    stamped := h.stamped.map fun (r : Stamped) => { r with sender := r.sender.map (movedSlot a) } }

/-- The residents of a pair change cores, and the window table follows. -/
def State.moveResidents (s : State) (placed : List (Nat × List Nat × List Nat)) : State :=
  { s with insts := s.insts.map fun (e : Nat × Inst) =>
    match placed.find? fun x => x.1 = e.1 with
    | some x =>
      let c := partner e.2.core
      (e.1, { e.2 with
        core := c, scratch := x.2.1, operand := x.2.2
        cores := if e.2.cores.contains c then e.2.cores else e.2.cores ++ [c] })
    | none => e }

/-- A copy thread that waits finds the registers as they now stand. -/
def State.wakeRequests (s : State) (c : Nat) : State :=
  (s.core c).requests.foldl (fun s r => s.wakeIf c (waitsFull r.1)) s

/-- The exchange of a pair. -/
def State.exchange (s : State) (a : Nat) : State :=
  let b := partner a
  let s := (s.writeBackAll a).writeBackAll b
  let na := s.newBanks a
  let nb := s.newBanks b
  let toA := s.bankMap b
  let toB := s.bankMap a
  let s := (s.leaveWays a ((s.core a).ways.filter fun w => !na.keep.contains w)).leaveWays b
    ((s.core b).ways.filter fun w => !nb.keep.contains w)
  let ka := s.core a
  let kb := s.core b
  let oa := (s.portOwner a).isSome
  let ob := (s.portOwner b).isSome
  let seen := s.serial + 1
  let s := (({ s with serial := seen } : State).putCore a (ka.exchanged kb toA na oa ob seen)).putCore b (kb.exchanged ka toB nb ob oa seen)
  let s := (s.moveResidents (na.placed ++ nb.placed)).moveRefs a (toA ++ toB)
  (s.wakeRequests a).wakeRequests b

/-- SWAP_EXCHANGE: after the prepare phase both cores stop issuing and the state moves, once no press of the cluster runs (spec/14
R317) and no pin holds a dirty line (in part DEDUCED, log 42). -/
def execSwapExchange (pair : Nat) (s : State) : Res :=
  match (s.pair pair).phase with
  | .preparing since =>
    if (s.core pair).cyc < since + prepareCycles || (s.cluster (clusterOf pair)).pressing || s.dirtyPinned pair ||
      s.dirtyPinned (partner pair) then .next s
    else .next (((s.exchange pair).updPair pair fun x => { x with phase := .exchanged }).emitOnce (.swapResume pair))
  | .idle | .waiting _ | .exchanged => .next s

/-- A core issues again from its next wheel boundary on: what was seated is ready as of it, and its cache is write-back. -/
def Core.reopened (k : Core) : Core :=
  { k.plainCache with
    frozenSwap := false
    slots := k.slots.map fun (e : Nat × Thread) => match e.2.st with
      | .seated _ _ => (e.1, { e.2 with st := .ready k.nextBoundary false })
      | .free | .ready _ _ | .parked _ | .frozen | .halted _ | .stopped => e }

/-- SWAP_RESUME: both cores issue again, and what the exchange held goes on. -/
def execSwapResume (pair : Nat) (s : State) : Res :=
  match (s.pair pair).phase with
  | .exchanged =>
    let held := (s.pair pair).held
    let s := s.updPair pair fun x => { x with phase := .idle, ignoreHolds := false, again := none, held := [] }
    let s := ((s.updCore pair Core.reopened).updCore (partner pair) Core.reopened).emitAll held
    let s := (((s.swapOver pair).portsMoved pair).portsMoved (partner pair)).unblocked
    let s := (s.residents pair ++ s.residents (partner pair)).foldl (fun s e => s.settleInst e.1) s
    .next s
  | .idle | .waiting _ | .preparing _ => .next s

end Sys2Proof.Machine
end

