-- ==== Sys2Proof/Machine/Faults.lean ====
section
/-! DEFINITION. The kernel's answers to fault records (spec/10 R230): a retry from translation, or a delivery as a precise trap or
as the end of an engine's command (spec/13 R286 R290, spec/14 R314, spec/16 R350 R354, spec/22 R409 R416 R417). -/

namespace Sys2Proof.Machine

/-- The record, unless it has been answered. -/
def State.faultRecord (s : State) (n : Nat) : Option FaultRecord := s.faults.find? fun f => f.number = n

/-! Who waits for the answer. -/

/-- The thread waits for the answer to a record. -/
def Thread.waitsFault (t : Thread) (n : Nat) : Bool :=
  match t.wait with
  | some (.fault m) => m = n
  | _ => false

/-- The core and slot of the thread that waits. -/
def State.faultedThread (s : State) (n : Nat) : Option (Nat × Nat) :=
  s.cores.findSome? fun e => (e.2.slots.find? fun x => x.2.waitsFault n).map fun x => (e.1, x.1)

/-- The image and slot of an evicted thread that waits. -/
def State.faultedImage (s : State) (n : Nat) : Option (Nat × Nat) :=
  s.images.findSome? fun g => (g.2.threads.find? fun x => x.2.waitsFault n).map fun x => (g.1, x.1)

/-- The cluster and channel of the copy that waits. -/
def State.faultedCopy (s : State) (n : Nat) : Option (Nat × Nat × CopyRun) :=
  s.clusters.findSome? fun e => e.2.channels.findSome? fun c =>
    match c.2.run with
    | some r => if r.fault = some n then some (e.1, c.1, r) else none
    | none => none

/-- The cluster and slot of the index job that waits. -/
def State.faultedIndex (s : State) (n : Nat) : Option (Nat × Nat × IndexJob) :=
  s.clusters.findSome? fun e => (e.2.indexJobs.find? fun j => j.2.fault = some n).map fun j => (e.1, j.1, j.2)

/-- The cluster and entry of the matrix or MX.NORM job that waits. -/
def State.faultedJob (s : State) (n : Nat) : Option (Nat × Nat × JobRun) :=
  s.clusters.findSome? fun e => e.2.jobs.findSome? fun j =>
    match j.2.run with
    | some r => if r.fault = some n then some (e.1, j.1, r) else none
    | none => none

/-! Retry. -/

/-- A thread's instruction starts afresh. -/
def Thread.afresh (t : Thread) (now : Nat) : Thread := (t.wake now).over

/-- Everything that a job's next stage may be. -/
def State.jobGoesOn (s : State) (k : Nat) : State :=
  [Instr.matrixJobStart k, .kGroup k, .tileWriteBack k, .rindNormJob k, .jobEnd k].foldl (fun s i => s.emitOnce i) s

/-- The party of a record goes on from translation; the store of a killed thread is dropped whole (spec/18 R379 R380). -/
def State.retry (s : State) (f : FaultRecord) : State :=
  let n := f.number
  let s := s.dropFault n
  match f.who with
  | .thread _ _ | .link _ =>
    (match s.faultedThread n with
      | some (c, sl) => s.updThread c sl fun t => t.afresh (s.core c).cyc
      | none =>
        match s.faultedImage n with
        | some (g, sl) => s.putImageThread g sl ((s.imageThread g sl).afresh 0)
        | none => s)
  | .copy _ _ =>
    (match s.faultedCopy n with
      | some (k, ch, r) => (s.putRun k ch { r with fault := none }).emitOnce (.copyBeat k ch)
      | none => s)
  | .index _ _ =>
    (match s.faultedIndex n with
      | some (k, j, x) => (s.putIndex k j { x with fault := none }).emitOnce (.indexStep k j)
      | none => s)
  | .matrix _ =>
    (match s.faultedJob n with
      | some (k, e, _) => (s.updRun k e fun r => { r with fault := none }).jobGoesOn k
      | none => s)
  | .multicast g =>
    (s.updHub fun h => { h with stamped := h.stamped.map fun (x : Stamped) => if x.fault = some n then { x with fault := none } else x }).emitOnce
      (.mcstApplication g)
  | .orphan => s.settleInst f.inst

/-- FAULT_RETRY. -/
def execFaultRetry (record : Nat) (s : State) : Res :=
  match s.faultRecord record with
  | some f => .next (s.retry f)
  | none => .next s

/-! Delivery. -/

/-- A job whose fault is delivered ends with CODE 2; one whose status record cannot be written ends without it (spec/14 R314). -/
def State.deliverJob (s : State) (k e : Nat) (r : JobRun) (va : VAddr) : State :=
  let s := s.updRun k e fun r => { r with fault := none }
  if r.finish.isSome then
    (s.updRun k e fun r => { r with noRecord := true, finish := some 2 }).finishJob k e 2
  else if (s.cluster k).running = some e then s.endWith k e 2 va.off.toNat
  else (s.updRun k e fun r => { r with faddr := va.off.toNat % 2 ^ 48 }).finishJob k e 2

/-- The party of a record takes its fault. A fault of a stamped store is retried or skipped, never delivered. -/
def State.deliver (s : State) (f : FaultRecord) : State :=
  let n := f.number
  let space := f.va.space
  let t := s.dropFault n
  match f.who with
  | .thread _ _ =>
    (match s.faultedThread n with
      | some (c, sl) =>
        let pc := (s.thread c sl).pc
        (t.wake c sl).enterTrap c sl f.code.toNat f.va.off pc space
      | none =>
        match s.faultedImage n with
        | some (g, sl) => t.enterImageTrap g sl f.code.toNat f.va.off (s.imageThread g sl).pc space
        | none => t)
  | .link _ =>
    (match s.faultedThread n with
      | some (c, sl) => (t.wake c sl).linkGivenUp c f.va
      | none => t)
  | .copy _ _ =>
    (match s.faultedCopy n with
      | some (k, ch, r) => t.endCopy k ch { r with fault := none } 2
      | none => t)
  | .index _ _ =>
    (match s.faultedIndex n with
      | some (k, j, x) => t.freeIndex k j x.cmd.inst
      | none => t)
  | .matrix _ =>
    (match s.faultedJob n with
      | some (k, e, r) => t.deliverJob k e r f.va
      | none => t)
  | .multicast _ => s
  | .orphan => t.settleInst f.inst

/-- FAULT_DELIVER. -/
def execFaultDeliver (record : Nat) (s : State) : Res :=
  match s.faultRecord record with
  | some f => .next (s.deliver f)
  | none => .next s

end Sys2Proof.Machine
end

