-- ==== Sys2Proof/Machine/Sm.lean ====
section
/-! DEFINITION. SM3 and SM2 (spec/00 R1, spec/25 R441, R442, R450, R451), which the spec names and the Chinese national standards GB/T
32905 and GB/T 32918 define (PRESUMED, log 71). -/

namespace Sys2Proof.Machine

/-! SM3. -/

/-- A 256-bit value as bytes, the most significant first. -/
def beBytes (x : BitVec 256) : List Byte := (span 0 32).map fun i => (x >>> (8 * (31 - i))).setWidth 8

/-- Bytes as a number, the first the most significant. -/
def beNat (l : List Byte) : Nat := l.foldl (fun n b => 256 * n + b.toNat) 0

def smRotl (x : BitVec 32) (n : Nat) : BitVec 32 := x.rotateLeft n

def smP0 (x : BitVec 32) : BitVec 32 := x ^^^ smRotl x 9 ^^^ smRotl x 17
def smP1 (x : BitVec 32) : BitVec 32 := x ^^^ smRotl x 15 ^^^ smRotl x 23

def smFF (j : Nat) (x y z : BitVec 32) : BitVec 32 := if j < 16 then x ^^^ y ^^^ z else (x &&& y) ||| (x &&& z) ||| (y &&& z)
def smGG (j : Nat) (x y z : BitVec 32) : BitVec 32 := if j < 16 then x ^^^ y ^^^ z else (x &&& y) ||| (~~~x &&& z)
def smT (j : Nat) : BitVec 32 := if j < 16 then 0x79CC4519 else 0x7A879D8A

/-- The next word of the expansion, from the last sixteen, the latest first. -/
def smNext (w : List (BitVec 32)) : BitVec 32 :=
  smP1 (w.getD 15 0 ^^^ w.getD 8 0 ^^^ smRotl (w.getD 2 0) 15) ^^^ smRotl (w.getD 12 0) 7 ^^^ w.getD 5 0

/-- n more words, the latest first. -/
def smExpand (w : List (BitVec 32)) : Nat → List (BitVec 32)
  | 0 => w
  | n + 1 => smExpand (smNext w :: w) n

/-- The eight working words. -/
structure SmState where
  a : BitVec 32
  b : BitVec 32
  c : BitVec 32
  d : BitVec 32
  e : BitVec 32
  f : BitVec 32
  g : BitVec 32
  h : BitVec 32
  deriving DecidableEq, Repr

def smInit : SmState :=
  ⟨0x7380166F, 0x4914B2B9, 0x172442D7, 0xDA8A0600, 0xA96F30BC, 0x163138AA, 0xE38DEE4D, 0xB0FB0E4E⟩

/-- Round j with its word and the word four on. -/
def smRound (v : SmState) (j : Nat) (w w4 : BitVec 32) : SmState :=
  let r := smRotl v.a 12
  let ss1 := smRotl (r + v.e + smRotl (smT j) (j % 32)) 7
  let tt1 := smFF j v.a v.b v.c + v.d + (ss1 ^^^ r) + (w ^^^ w4)
  let tt2 := smGG j v.e v.f v.g + v.h + ss1 + w
  ⟨tt1, v.a, smRotl v.b 9, v.c, smP0 tt2, v.e, smRotl v.f 19, v.g⟩

/-- Rounds from j on over the words that remain. -/
def smRounds (v : SmState) (j : Nat) : List (BitVec 32) → SmState
  | w :: a :: b :: c :: w4 :: r => smRounds (smRound v j w w4) (j + 1) (a :: b :: c :: w4 :: r)
  | _ => v

def SmState.xor (v u : SmState) : SmState :=
  ⟨v.a ^^^ u.a, v.b ^^^ u.b, v.c ^^^ u.c, v.d ^^^ u.d, v.e ^^^ u.e, v.f ^^^ u.f, v.g ^^^ u.g, v.h ^^^ u.h⟩

/-- A block of 64 bytes. -/
def smBlock (v : SmState) (b : List Byte) : SmState :=
  let w := (span 0 16).map fun i => BitVec.ofNat 32 (beNat ((b.drop (4 * i)).take 4))
  v.xor (smRounds v 0 (smExpand w.reverse 52).reverse)

/-- n blocks. -/
def smBlocks (v : SmState) (l : List Byte) : Nat → SmState
  | 0 => v
  | n + 1 => smBlocks (smBlock v (l.take 64)) (l.drop 64) n

/-- The SM3 digest of bytes, its first byte the most significant. -/
def sm3 (m : List Byte) : BitVec 256 :=
  let pad := (119 - m.length % 64) % 64
  let l := m ++ 0x80#8 :: (leBytes 0 pad ++ (leBytes (8 * m.length) 8).reverse)
  let v := smBlocks smInit l (l.length / 64)
  v.a ++ v.b ++ v.c ++ v.d ++ v.e ++ v.f ++ v.g ++ v.h

/-! SM2. -/

/-- The field, the order of the base point and the base point. -/
def smP : Nat := 0xFFFFFFFEFFFFFFFFFFFFFFFFFFFFFFFFFFFFFFFF00000000FFFFFFFFFFFFFFFF
def smN : Nat := 0xFFFFFFFEFFFFFFFFFFFFFFFFFFFFFFFF7203DF6B21C6052B53BBF40939D54123

/-- A point of the curve; none is the point at infinity. -/
abbrev SmPoint := Option (Nat × Nat)

def smG : SmPoint :=
  some (0x32C4AE2C1F1981195F9904466A39C9948FE30BBFF2660BE1715A4589334C74C7,
    0xBC3736A2F4F6779C59BDCEE36B692153D0A9877CC62A474002DF32E52139F0A0)

/-- x to the power e, an exponent of n bits, modulo m. -/
def powMod (x m e : Nat) : Nat → Nat
  | 0 => 1
  | n + 1 =>
    let h := powMod x m (e / 2) n
    if e % 2 = 1 then h * h % m * x % m else h * h % m

/-- The inverse modulo a prime of 256 bits. -/
def invMod (x m : Nat) : Nat := powMod (x % m) m (m - 2) 256

/-- a − b modulo m. -/
def subMod (a b m : Nat) : Nat := (a % m + (m - b % m)) % m

/-- The sum of two points, by the slope of their chord or tangent (the curve's a is −3). -/
def smAdd (s t : SmPoint) : SmPoint :=
  match s, t with
  | none, _ => t
  | _, none => s
  | some (x, y), some (u, v) =>
    let third := fun (k : Nat) =>
      let z := subMod (k * k) (x + u) smP
      some (z, subMod (k * subMod x z smP) y smP)
    if x = u then
      if (y + v) % smP = 0 then none else third (subMod (3 * x * x) 3 smP * invMod (2 * y) smP % smP)
    else third (subMod v y smP * invMod (subMod u x smP) smP % smP)

/-- A multiple of a point, by a number of n bits. -/
def smMul (k : Nat) (q : SmPoint) : Nat → SmPoint
  | 0 => none
  | n + 1 =>
    let h := smMul (k / 2) q n
    if k % 2 = 1 then smAdd (smAdd h h) q else smAdd h h

/-- The abscissa of a point. -/
def smX (q : SmPoint) : Nat := (q.map (·.1)).getD 0

/-- The signature r ‖ s of a digest by a private key with a nonce. -/
def sm2Sign (key nonce : Nat) (e : BitVec 256) : BitVec 512 :=
  let r := (e.toNat + smX (smMul nonce smG 256)) % smN
  let s := invMod (1 + key) smN * subMod nonce (r * key) smN % smN
  BitVec.ofNat 512 (r * 2 ^ 256 + s)

/-- The signature verifies with a public key. -/
def sm2Verify (key : SmPoint) (e : BitVec 256) (sig : BitVec 512) : Bool :=
  let r := sig.toNat / 2 ^ 256
  let s := sig.toNat % 2 ^ 256
  let t := (r + s) % smN
  0 < r && r < smN && 0 < s && s < smN && t != 0 &&
  (e.toNat + smX (smAdd (smMul s smG 256) (smMul t key 256))) % smN = r

end Sys2Proof.Machine
end

