-- ==== Sys2Proof/Machine/System.lean ====
section
/-! DEFINITION. The SYSTEM instructions and the control registers (spec/19 R389 to R399). -/

namespace Sys2Proof.Machine

/-! Gates (R389). -/

/-- A trap of cause 1, privilege, with the word in TVAL (spec/18 R365; in part DEDUCED, log 52). -/
def privilege (w : InstrWord) (s : State) : Res := trap 1 (w.setWidth 64) s

/-- An instruction that only a heavy thread in supervisor mode may issue (in part DEDUCED, log 52). -/
def kernelOnly (w : InstrWord) (k : State → Res) (s : State) : Res :=
  heavyOnly w (fun s => if s.cur.supervisor then k s else privilege w s) s

/-! Traps and return (R392, R393). -/

/-- TRAP: cause 14 with the register's value. -/
def execTrap (a : BitVec 7) (s : State) : Res := limit [a] (fun s => trap 14 (s.cur.opnd a).val s) s

/-- BRK: cause 13. -/
def execBrk (s : State) : Res := trap 13 0 s

/-- ERET. -/
def execEret (s : State) : Res :=
  kernelOnly wordEret (fun s => if s.cur.tepc.toNat % 4 != 0 then trap 2 s.cur.tepc s else .next s.returnTrap) s

/-- HALT (R394): the kernel is told, and resumes the thread at the next instruction. -/
def execHalt (s : State) : Res :=
  kernelOnly wordHalt (fun s =>
    let t := s.cur
    .next ((s.updCur fun t => { t.over with st := .stopped, pc := t.pc + 4 }).record
      (.halt t.inst s.ic s.is t.pc))) s

/-! The control registers (R390). -/

/-- The value of a control register as the issuing thread reads it. -/
def State.crRead (s : State) (n : Nat) : Word :=
  let t := s.cur
  let k := s.core s.ic
  match n with
  | 0 => t.frm.setWidth 64
  | 1 => t.fflags.setWidth 64
  | 2 => t.rrlo.setWidth 64
  | 3 => t.rrsz.setWidth 64
  | 4 => t.rrb.setWidth 64
  | 5 => t.latc.setWidth 64
  | 6 => BitVec.ofNat 64 k.cyc
  | 7 => BitVec.ofNat 64 s.ic
  | 8 => BitVec.ofNat 64 (clusterOf s.ic)
  | 9 => t.vxf.setWidth 64
  | 10 => if t.trapen then 1 else 0
  | 11 => t.vsrc.setWidth 64
  | 12 => BitVec.ofNat 64 (k.sigFull.toNat * 2 ^ 32 + k.sigSect.toNat)
  | 13 => BitVec.ofNat 64 (dieOf s.ic * 2 ^ 8 + meshRow s.ic * 2 ^ 4 + meshCol s.ic)
  | 14 => BitVec.ofNat 64 t.inst
  | 15 => k.eccCount.setWidth 64
  | 16 => k.bankrole
  | 32 => t.tvec
  | 33 => t.tepc
  | 34 => t.tval
  | 35 => t.tcause.setWidth 64
  | 36 => BitVec.ofNat 64 (t.fspace.toNat * 2 ^ 8 + (if t.pm then 2 else 0) + (if t.inh then 1 else 0))
  | 37 => t.tscr
  | 38 => k.tvecd
  | _ => (s.die (dieOf s.ic)).castiv.setWidth 64

/-- A control register is written: reserved and read-only fields keep their bits. -/
def Thread.crWrite (t : Thread) (n : Nat) (v : Word) : Thread :=
  match n with
  | 0 => { t with frm := v.setWidth 2 }
  | 1 => { t with fflags := v.setWidth 5 }
  | 2 => { t with rrlo := v.setWidth 7 }
  | 3 => { t with rrsz := v.setWidth 7 }
  | 4 => { t with rrb := v.setWidth 7 }
  | 9 => { t with vxf := v.setWidth 7 }
  | 10 => { t with trapen := v.getLsbD 0 }
  | 11 => { t with vsrc := v.setWidth 37 }
  | 32 => { t with tvec := v }
  | 33 => { t with tepc := v }
  | 34 => { t with tval := v }
  | 35 => { t with tcause := v.setWidth 5 }
  | 36 => { t with pm := v.getLsbD 1, inh := v.getLsbD 0 }
  | 37 => { t with tscr := v }
  | _ => t

/-- The register is read-only. -/
def crReadOnly (n : Nat) : Bool := (5 ≤ n && n ≤ 8) || (12 ≤ n && n ≤ 16) || 38 ≤ n

/-- A light thread may read the register. -/
def crLight (n : Nat) : Bool := (6 ≤ n && n ≤ 8) || n = 13 || n = 14

/-- The fresh mark of a register of the rotating region (spec/08 R172, spec/11 R250). -/
def Thread.crFresh (t : Thread) (n : Nat) : Bool := 2 ≤ n && n ≤ 4 && t.freshRR.getLsbD (n - 2)

/-- Sets it. -/
def Thread.setCrFresh (t : Thread) (n : Nat) (b : Bool) : Thread :=
  if 2 ≤ n && n ≤ 4 then
    { t with freshRR := if b then t.freshRR ||| (1#3 <<< (n - 2)) else t.freshRR &&& ~~~(1#3 <<< (n - 2)) }
  else t

/-- CRR. -/
def execCrr (c : BitVec 7) (d : BitVec 7) (s : State) : Res :=
  let w := wordCrr c d
  let n := c.toNat
  if !crOk c || (s.cur.light && !crLight n) then illegal w s
  else if 32 ≤ n && !s.cur.supervisor then privilege w s
  else limit [d] (fun s => done (s.setRd d (s.crRead n) (s.cur.crFresh n))) s

/-- CRW, CRS and CRC, with the word for the trap, the new value from the old one and rs1, and whether the new value depends on the
old one. rd is renamed by the region as it stands before the write (spec/01 R25). -/
def crChange (w : InstrWord) (f : Word → Word → Word) (keeps : Bool) (c a d : BitVec 7) (s : State) : Res :=
  heavyOnly w (fun s =>
    let n := c.toNat
    if !crOk c then illegal w s
    else if (32 ≤ n && !s.cur.supervisor) || crReadOnly n then privilege w s
    else
      limit [a, d] (fun s =>
        let x := s.cur.opnd a
        let old := s.crRead n
        let fresh := s.cur.crFresh n
        done ((s.setRd d old fresh).updCur fun t => (t.crWrite n (f old x.val)).setCrFresh n (x.fresh || (keeps && fresh)))) s) s

def execCrw (c : BitVec 7) (a : BitVec 7) (d : BitVec 7) (s : State) : Res := crChange (wordCrw c a d) (fun _ x => x) false c a d s
def execCrs (c : BitVec 7) (a : BitVec 7) (d : BitVec 7) (s : State) : Res := crChange (wordCrs c a d) (fun o x => o ||| x) true c a d s
def execCrc (c : BitVec 7) (a : BitVec 7) (d : BitVec 7) (s : State) : Res := crChange (wordCrc c a d) (fun o x => o &&& ~~~x) true c a d s

/-! Features (R395, spec/25 R445). -/

/-- The features that the device offers, in words of 64 bits. -/
def offered (word : Nat) : Word := if word = 0 then 0xFFF else 0

/-- A word of a feature set into rd. -/
def feature (w : InstrWord) (v : State → Nat → Word) (a d : BitVec 7) (s : State) : Res :=
  heavyOnly w (limit [a, d] fun s =>
    let x := s.cur.opnd a
    done (s.setRd d (v s (x.val.toNat % 2)) x.fresh)) s

def execFeat (a d : BitVec 7) (s : State) : Res :=
  feature (wordFeat a d) (fun s i => if i = 0 then s.hub.accept0 else s.hub.accept1) a d s

def execFeatO (a d : BitVec 7) (s : State) : Res := feature (wordFeatO a d) (fun _ i => offered i) a d s

/-! Castling holds (R396). -/

/-- A swap of the pair is due and not complete (in part DEDUCED, log 43). -/
def State.swapDue (s : State) (c : Nat) : Bool := (s.pair (pairOf c)).phase != .idle

def execCastleHold (d : BitVec 7) (s : State) : Res :=
  heavyOnly (wordCastleHold d) (limit [d] fun s =>
    let p := pairOf s.ic
    if s.cur.hold.isSome then status d 1 s
    else if s.castling s.ic = 0 || s.pairDrained p then status d 2 s
    else if s.swapDue s.ic then park .swap s
    else
      let now := s.now
      status d 0 (s.updCur fun t => { t with hold := some now })) s

def execCastleFree (s : State) : Res :=
  heavyOnly wordCastleFree (fun s => done ((s.updCur fun t => { t with hold := none }).pairMoved s.ic)) s

/-! Kernel levers (R397). -/

/-- The instance that a register names. -/
def State.named (s : State) (a : BitVec 7) : Nat := (s.cur.opnd a).val.toNat % 2 ^ 16

/-- An instruction has completed; the request that it sent takes effect. -/
def followed (f : State → State) (r : Res) : Res :=
  match r with
  | .next s => .next (f s)
  | .fault e => .fault e
  | .refused e => .refused e

def execKill (a d : BitVec 7) (s : State) : Res :=
  kernelOnly (wordKill a d) (limit [a, d] (released fun s =>
    let n := s.named a
    if s.liveInst n then followed (fun s => s.kill n) (status d 0 s) else status d 4 s)) s

/-- The instance can be pre-empted: it is live, and not halted or being halted. -/
def State.preemptible (s : State) (n : Nat) : Bool :=
  match s.inst n with
  | some i => i.st = .live
  | none => false

def execPreempt (a d : BitVec 7) (s : State) : Res :=
  kernelOnly (wordPreempt a d) (limit [a, d] (released fun s =>
    let n := s.named a
    if s.preemptible n then followed (fun s => s.preempt n) (status d 0 s) else status d 4 s)) s

/-! TLB.INV (R398). -/

/-- What a TLB.INV selects. -/
structure Dropped where
  all : Bool
  whole : Bool
  space : BitVec 8
  off : Nat
  deriving DecidableEq, Repr

def Dropped.of (s : State) (sel off : Word) : Dropped :=
  ⟨sel.getLsbD 9, sel.getLsbD 8, s.normSpace (sel.setWidth 8), off.toNat⟩

/-- The entry is selected. -/
def Dropped.entry (d : Dropped) (e : TlbEntry) : Bool :=
  d.all || (e.space = d.space && (d.whole || (e.base ≤ d.off && d.off < e.base + e.size)))

/-- The targets of an access that waits. -/
def Pend.targets (p : Pend) : List Target :=
  match p with
  | .load t _ _ _ _ _ => [t]
  | .store t _ _ _ _ => [t]
  | .vload ts _ _ _ _ _ _ => ts.map (·.2)
  | .vstore ts _ _ => ts.map (·.1)
  | .vatRead t _ _ => [t]
  | .tableRead l _ _ => l.map (·.1)
  | .done _ => []

/-- The threads whose access was translated through a dropped entry, and is not performed (in part DEDUCED, log 46). -/
def State.pendingThrough (s : State) (hit : Target → Bool) : List (Nat × Nat) :=
  (s.cores.map fun e => (e.2.slots.filter fun x => match x.2.wait with
    | some (.access p) => p.targets.any hit
    | _ => false).map fun x => (e.1, x.1)).flatten

/-- The proxies and updates that were, on their way, in a queue or in a slot (in part DEDUCED, log 46). -/
def State.packetsThrough (s : State) (hit : Target → Bool) : List Nat :=
  ((s.flight.map fun x => x.2) ++ (s.cores.map fun e => e.2.migIn ++ e.2.slots.filterMap fun x => x.2.proxy).flatten).filterMap fun p =>
    match p.target with
    | some t => if hit t then some p.serial else none
    | none => none

/-- A thread keeps none of the selected translations for its instruction. -/
def Thread.dropWalked (t : Thread) (d : Dropped) : Thread :=
  if t.walked.any d.entry then { t with walked := t.walked.filter fun x => !d.entry x } else t

/-- Every TLB of the device, and every translation kept for an instruction, without the selected entries (in part DEDUCED, log 46). -/
def State.dropEntries (s : State) (d : Dropped) : State :=
  { s with
    cores := s.cores.map fun (e : Nat × Core) => (e.1, { e.2 with
      tlb := e.2.tlb.filter fun x => !d.entry x
      slots := e.2.slots.map fun x => (x.1, x.2.dropWalked d) })
    clusters := s.clusters.map fun (e : Nat × Cluster) => (e.1, { e.2 with tlb := e.2.tlb.filter fun x => !d.entry x }) }

/-- The access lies in what the TLB.INV selects: in the space, and in a page of any size that may hold the offset. It waits for a
few accesses more than those that were translated through a dropped entry, whose page sizes the accesses do not keep (in part DEDUCED, log 46). -/
def Dropped.covers (d : Dropped) (s : State) (t : Target) : Bool :=
  d.all || (s.normSpace t.va.space = d.space && (d.whole || t.va.off.toNat / 2 ^ 30 = d.off / 2 ^ 30))

/-- A rind directory entry whose values and state words are found where they now stand; those that cannot be reached are nowhere. Its
element bytes stay as MX.NORM found them (spec/15 R325; in part DEDUCED, log 46). -/
def State.relocated (s : State) (r : RindEntry) : RindEntry :=
  let find := fun (off n : Nat) => match s.segsAt true { r := true, w := true } off n with
    | .ok l => l
    | .bad _ _ | .hole => []
  { r with values := find r.rbase (4 * r.nb * r.kn), states := find r.sbase (4 * r.blocks) }

/-- The same for every entry that the hub and the jobs hold. -/
def State.relocate (s : State) : State :=
  let all := fun (t : Tab RindEntry) => t.map fun e => (e.1, s.relocated e.2)
  { s with
    hub := { s.hub with directory := all s.hub.directory, published := all s.hub.published }
    clusters := s.clusters.map fun (e : Nat × Cluster) =>
      (e.1, { e.2 with jobs := e.2.jobs.map fun (j : Nat × JobEntry) => (j.1, { j.2 with directory := all j.2.directory }) }) }

/-- Waits on counters translate again. -/
def isCounter (hit : Target → Bool) (w : Wait) : Bool :=
  match w with
  | .counter t _ _ => hit t
  | _ => false

/-- TLB.INV: the entries go, what MX.NORM has located is found again, a WAITC issues again, and the thread parks until every access
under way through what it drops is performed. -/
def execTlbInv (b a : BitVec 7) (s : State) : Res :=
  kernelOnly (wordTlbInv b a) (limit [a, b] (released fun s =>
    let d := Dropped.of s (s.cur.opnd b).val (s.cur.opnd a).val
    let hit := fun (t : Target) => d.covers s t
    let l := s.pendingThrough hit
    let m := s.packetsThrough hit
    let s := (s.dropEntries d).relocate.wakeAll fun _ w => isCounter hit w
    if l = [] && m = [] then done s else park (.invalidate l m) s)) s

/-! IDLE (R399). -/

def execIdle (d : BitVec 7) (s : State) : Res :=
  heavyOnly (wordIdle d) (limit [d] fun s =>
    if s.cur.monitors.any fun m => m.triggered then status d 1 (s.updCur Thread.clearTriggered)
    else if ((s.core s.ic).oldest s.cur.inst s.is).isSome then status d 3 (s.updCur Thread.clearTriggered)
    else park (.idle (s.cur.rename d.toNat)) s) s

end Sys2Proof.Machine
end

