-- ==== Sys2Proof/Machine/Host.lean ====
section
/-! DEFINITION. The host interface, boot, power and security (spec/25), and the hub's registers and alarms (spec/18 R387 R388,
spec/19 R390). -/

namespace Sys2Proof.Machine

/-! Boot (R441, R442). -/

/-- M[k] ← SM3(M[k] ‖ d). -/
def Hub.extend (h : Hub) (k : Nat) (d : BitVec 256) : Hub :=
  { h with measures := tabPut h.measures k (sm3 (beBytes (tabGet 0 h.measures k) ++ beBytes d)) }

/-- POWER_GOOD: the hub and the control cluster start in the ROM (R444; in part DEDUCED, log 47). -/
def execPowerGood (s : State) : Res :=
  .next (if s.hub.poweredUp then s else s.updHub fun h => { h with poweredUp := true, stage := 1 })

/-- The first check that an image fails, as HSTAT.ERR codes it; the loader has trained HBM4E before it verifies the kernel (in part DEDUCED, log 47). -/
def bootErr (i : BootImage) (stage : Nat) : Nat :=
  if stage = 2 && !i.trained then 4
  else if sm3 i.bytes != i.headerDigest then 1
  else if !sm2Verify Config.vendorKey i.headerDigest i.signature then 2
  else if i.version < Config.rollbackCounter then 3
  else 0

/-- BOOT_STAGE: the ROM verifies the loader, or the loader the kernel; it extends the measurement register and hands over
control, or boot stops. The loader has then started the HBM4E stacks, in stack order (R444; in part DEDUCED, log 47). -/
def execBootStage (image : BootImage) (s : State) : Res :=
  let n := s.hub.stage.toNat
  if n = 1 || n = 2 then
    let e := bootErr image n
    .next (s.updHub fun h =>
      if e = 0 then
        { h.extend (n - 1) (sm3 image.bytes) with
          hbmStarted := if n = 2 then 8 else h.hbmStarted
          stage := BitVec.ofNat 4 (n + 1), versions := tabPut h.versions (n - 1) image.version }
      else { h with err := BitVec.ofNat 8 e, stage := 5 })
  else .next s

/-- The kernel runs the device. -/
def Hub.kernelRuns (h : Hub) : Bool := h.stage = 3 || h.stage = 4

/-- MEASUREMENT_EXTEND: the kernel extends register 2 with firmware that it installs, and registers 3 to 7 at the driver's request (in
part DEDUCED, log 47). -/
def execMeasurementExtend (index : Nat) (digest : BitVec 256) (s : State) : Res :=
  .next (if s.hub.kernelRuns && decide (2 ≤ index) && decide (index < 8) then s.updHub fun h => h.extend index digest else s)

/-! Core start (R444). -/

/-- The copy or the link thread at core start, with its fixed blocks (spec/07 R136, R144). -/
def ownerThread (block : Nat) (entry : Word) : Thread :=
  { st := .ready 0 false, inst := noInst, alloc := 32, block := block, pc := entry, mode := .supervisor }

/-- A core at its start. -/
def startedCore (tvecd : Word) : Core :=
  { started := true, tvecd := tvecd
    slots := [(62, ownerThread 0 Config.copyThreadEntry), (63, ownerThread 4 Config.linkThreadEntry)] }

/-- The cores of a cluster start; the kernel writes each TVECD, whose value is free until HUB_REGISTER_WRITE tells it. -/
def State.startCores (s : State) (k : Nat) : State :=
  (span (8 * k) 8).foldl (fun s c => (s.draw).2.putCore c (startedCore (Config.freeValue (s.draw).1))) s

/-- The kernel extends register 2 with the images that it installs, when the first core starts (R442; in part DEDUCED, log 47). -/
def State.measureFirmware (s : State) (k : Nat) : State :=
  if k = 0 then s.updHub fun h => (h.extend 2 (Config.firmware 0)).extend 2 (Config.firmware 1) else s

/-- CLUSTER_RESET_RELEASE: a cluster leaves reset after all those before it, the first of a die when its die starts; READY once every
cluster has started. -/
def execClusterResetRelease (cluster : Nat) (s : State) : Res :=
  if s.hub.stage != 3 || (s.cluster cluster).released || decide (Config.clusters ≤ cluster) ||
    (span 0 cluster).any (fun k => !(s.cluster k).released) then .next s
  else
    let s := (s.updDie (cluster / 32) fun d => { d with started := true }).measureFirmware cluster
    let s := (s.updCluster cluster fun k => { k with released := true }).startCores cluster
    .next (if cluster + 1 = Config.clusters then s.updHub fun h => { h with stage := 4, ready := true } else s)

/-! Feature negotiation (R445). -/

/-- The bits offered (in part DEDUCED, log 48). -/
def offer : BitVec 128 := 0xFFF

/-- The bit that a feature bit requires (in part DEDUCED, log 48). -/
def requires (b : Nat) : Nat :=
  if b = 3 || b = 4 || b = 5 then 2 else if b = 9 then 8 else 0

/-- The kernel accepts a set (in part DEDUCED, log 48). -/
def setOk (x : BitVec 128) : Bool :=
  x &&& ~~~offer = 0 && x.getLsbD 0 && (span 0 12).all fun b => !x.getLsbD b || x.getLsbD (requires b)

/-- Acceptance is open: the device is ready and no set has been accepted (in part DEDUCED, log 48). -/
def Hub.negotiates (h : Hub) : Bool := h.ready && !h.committed

/-- FACCEPT1_WRITE. -/
def execFaccept1Write (value : BitVec 64) (s : State) : Res :=
  .next (if s.hub.negotiates then s.updHub fun h => { h with accept1 := value } else s)

/-- FACCEPT0_WRITE. -/
def execFaccept0Write (value : BitVec 64) (s : State) : Res :=
  .next (if s.hub.negotiates then s.updHub fun h =>
      if setOk (h.accept1 ++ value) then { h with accept0 := value, committed := true }
      else { h with accept1 := 0, err := 5 }
    else s)

/-! Task submission (R440). -/

/-- Packet n of the submission ring, in host memory (in part DESIGN CHOICE, log 49). -/
def State.ringPacket (s : State) (n : BitVec 64) : Packet :=
  BitVec.ofNat 512 (leNat (memRead s.ext (extAddr 255 (Config.ringBase + 64 * (n.toNat % Config.ringEntries))) 64))

/-- The kernel reads up to n packets and places each in a cluster's queue while it has room, or reports it (in part DESIGN CHOICE, log 49). -/
def State.submit (s : State) (k : Nat) : Nat → State
  | 0 => s
  | n + 1 =>
    if s.hub.sqhead = s.hub.sqtail || queueSize ≤ (s.cluster k).queued then s
    else
      let p := s.ringPacket s.hub.sqhead
      let s := s.updHub fun h => { h with sqhead := h.sqhead + 1 }
      State.submit (if packetOk p then s.enqueue k p allOnes512 true else s.record (.hostRefused p)) k n

/-- The doorbell. -/
def State.ring (s : State) (tail : BitVec 64) (cluster : Nat) : State :=
  let s := s.updHub fun h => { h with sqtail := tail }
  if s.hub.committed && decide (cluster < Config.clusters) then s.submit cluster Config.ringEntries else s

/-- A posted write waits behind those before it. -/
def State.postLater (s : State) (l : List Instr) : State := s.updHub fun h => { h with hostWrites := h.hostWrites ++ l }

/-- SQTAIL_WRITE: the doorbell, after the writes posted before it; the packets wait for acceptance of the features, and for room in
the queue (in part DESIGN CHOICE, log 49). -/
def execSqtailWrite (tail : BitVec 64) (cluster : Nat) (s : State) : Res :=
  .next (if s.hub.hostWrites = [] then s.ring tail cluster else s.postLater [.sqtailWrite tail cluster])

/-! BAR2 (R439). -/

/-- Pieces of an access that are each single-copy atomic: address and length (in part DEDUCED, log 50). -/
def pieces : Nat → Nat → Nat → List (Nat × Nat)
  | 0, _, _ => []
  | fuel + 1, a, n => if n = 0 then [] else (a, min n (8 - a % 8)) :: pieces fuel (a + min n (8 - a % 8)) (n - min n (8 - a % 8))

/-- An access within one aligned doubleword. -/
def onePiece (a n : Nat) : Bool := decide (a % 8 + n ≤ 8)

/-- The line at a physical address, never-cached at its home slice. -/
def barTarget (pa : Nat) : Target := ⟨⟨0, BitVec.ofNat 64 pa⟩, .home pa, 3, 0, false, false⟩

/-- Bytes as the host reads them; those of a poisoned sector are free (DESIGN CHOICE, log 3). -/
def State.barBytes (s : State) (pa : Nat) : Nat → List Byte × State
  | 0 => ([], s)
  | n + 1 =>
    if Config.hbmBytes ≤ pa then (0xFF#8 :: (s.barBytes (pa + 1) n).1, (s.barBytes (pa + 1) n).2)
    else if s.poison.contains (pa / 32) then
      let r := (s.draw).2.barBytes (pa + 1) n
      ((Config.freeValue (s.draw).1).setWidth 8 :: r.1, r.2)
    else (memGet s.mem pa :: (s.barBytes (pa + 1) n).1, (s.barBytes (pa + 1) n).2)

/-- BAR2_READ: a longer access is made piece by piece (in part DEDUCED, log 50). -/
def execBar2Read (addr : Nat) (size : Nat) (s : State) : Res :=
  if s.hub.barSize ≤ addr then .next s
  else if onePiece addr size then
    let r := s.barBytes addr size
    .next (r.2.record (.hostRead addr r.1))
  else .next (s.emitAll ((pieces (size + 1) addr size).map fun x => .bar2Read x.1 x.2))

/-- A piece of a write is performed at its home: it enters the line's signature entry as all ones, and marks. -/
def State.barWrite (s : State) (addr : Nat) (bytes : List Byte) : State :=
  if Config.hbmBytes ≤ addr || s.hub.barSize ≤ addr || bytes = [] then s
  else (s.sigRelease (barTarget addr) none).writeHome .outside none addr bytes

/-- The pieces of a write. -/
def barPieces (addr : Nat) (bytes : List Byte) : List Instr :=
  (pieces (bytes.length + 1) addr bytes.length).map fun x => .bar2Write x.1 ((bytes.drop (x.1 - addr)).take x.2)

/-- The oldest posted write that waits is performed, unless a pin holds it. -/
def State.postNext (s : State) : State :=
  match s.hub.hostWrites with
  | [] => s
  | w :: rest =>
    let go := fun (s : State) => if rest = [] then s else s.emitOnce (.bar2Write 0 [])
    let u := s.updHub fun h => { h with hostWrites := rest }
    match w with
    | .bar2Write a b => if s.pinned (.home a) then s else go (u.barWrite a b)
    | .sqtailWrite t k => go (u.ring t k)
    | _ => u

/-- BAR2_WRITE: posted writes are performed in order, a longer one piece by piece, and a pin holds one and those behind it. A write
of no bytes lets those that wait go on (in part DEDUCED, log 50). -/
def execBar2Write (addr : Nat) (bytes : List (BitVec 8)) (s : State) : Res :=
  .next (if bytes = [] then s.postNext
    else if onePiece addr bytes.length && s.hub.hostWrites = [] && !s.pinned (.home addr) then s.barWrite addr bytes
    else (s.postLater (barPieces addr bytes)).emitOnce (.bar2Write 0 []))

/-! Keys and attestation (R450, R451). -/

/-- The fields of a report, in order: the nonce, DEVID, the measurement registers, FACCEPT, the stage versions and the rollback
counter (in part DEDUCED, log 51). -/
def Hub.report (h : Hub) (nonce : BitVec 256) : List (BitVec 256) :=
  [nonce, h.devid.setWidth 256] ++ (span 0 8).map (fun k => tabGet 0 h.measures k) ++
    [(h.accept1 ++ h.accept0).setWidth 256, BitVec.ofNat 256 (tabGet 0 h.versions 0), BitVec.ofNat 256 (tabGet 0 h.versions 1),
      BitVec.ofNat 256 Config.rollbackCounter]

/-- A digest signed with a private key (in part PRESUMED, log 71): the nonce is free, and fresh. -/
def State.signWith (s : State) (key : Nat) (digest : BitVec 256) : BitVec 512 × State :=
  let d := s.draw
  (sm2Sign key (Config.nonce d.1) digest, d.2)

/-- ATTESTATION_REQUEST: a report signed by the identity key, or a failure when there is none (in part DEDUCED, log 51). -/
def execAttestationRequest (nonce : BitVec 256) (s : State) : Res :=
  .next (if !s.hub.kernelRuns then s
    else if s.hub.identityKey then
      let r := s.hub.report nonce
      let x := s.signWith (Config.identityKey s.hub.keySerial) (sm3 (r.map beBytes).flatten)
      x.2.record (.attestation (some (r, x.1)))
    else s.record (.attestation none))

/-- PROVISIONING: a new identity key. -/
def execProvisioning (s : State) : Res :=
  .next (s.updHub fun h => { h with identityKey := true, keySerial := h.keySerial + 1 })

/-! Hub registers (spec/19 R390). -/

/-- A routing entry as it is written (spec/13 R294; in part DEDUCED, log 51). -/
def routeOf (v : BitVec 128) : Route :=
  { hits := v.extractLsb' 96 32, rowB := v.extractLsb' 64 32, rowA := v.extractLsb' 32 32
    nrepB := v.extractLsb' 4 2, nrepA := v.extractLsb' 2 2, pend := v.getLsbD 1, sel := v.getLsbD 0 }

/-- HUB_REGISTER_WRITE: a register keeps its value when the written one is outside its range (in part DEDUCED, log 51). -/
def execHubRegisterWrite (reg : HubReg) (value : BitVec 128) (s : State) : Res :=
  let low : Word := value.setWidth 64
  .next (match reg with
    | .sptbr => s.updHub fun h => { h with sptbr := low, sptbrSet := true }
    | .devid => if 1 ≤ low.toNat && low.toNat ≤ 254 then s.updHub fun h => { h with devid := low.setWidth 8, devidSet := true } else s
    | .rtthr => s.updHub fun h => { h with rtthr := low.setWidth 32 }
    | .pwrcap => if 1200 ≤ low.toNat && low.toNat ≤ 2000 then s.updHub fun h => { h with pwrcap := low.toNat } else s
    | .castiv d => s.updDie d fun x => { x with castiv := low.setWidth 5, castivSet := true }
    | .tvecd c => s.updCore c fun k => { k with tvecd := low }
    | .route k e => if e < 1024 then s.updCluster k fun c => { c with routes := tabPut c.routes e (routeOf value) } else s
    | .group e => if e < 4096 then s.putGroup e value else s)

/-! Power and cooling (R453). -/

/-- THERMAL_THROTTLE: the k-group issue rate halves; only timing changes (in part DESIGN CHOICE, log 55). -/
def execThermalThrottle (die : Nat) (s : State) : Res := .next (s.updDie die fun d => { d with throttled := true })

/-- THROTTLE_RELEASE (in part DESIGN CHOICE, log 55). -/
def execThrottleRelease (die : Nat) (s : State) : Res := .next (s.updDie die fun d => { d with throttled := false })

/-! Alarms (spec/18 R387, R388). -/

/-- A field of ALARMPOL after a write. -/
def raised (lock : Bool) (old new : BitVec 2) : BitVec 2 := if lock && decide (new.toNat < old.toNat) then old else new

/-- ALARMPOL_WRITE: under LOCK a field may only be raised, and LOCK stays. -/
def execAlarmpolWrite (value : BitVec 64) (s : State) : Res :=
  .next (s.updHub fun h => { h with
    alarmLock := h.alarmLock || value.getLsbD 8
    alarmMesh := raised h.alarmLock h.alarmMesh (value.extractLsb' 6 2)
    alarmTemp := raised h.alarmLock h.alarmTemp (value.extractLsb' 4 2)
    alarmClk := raised h.alarmLock h.alarmClk (value.extractLsb' 2 2)
    alarmVolt := raised h.alarmLock h.alarmVolt (value.extractLsb' 0 2) })

/-- The action for the sources that fire, MESH, TEMP, CLK and VOLT in bits 3 to 0: the highest of theirs, where code 3 acts as
2; none when none fires. -/
def Hub.alarmAction (h : Hub) (sources : BitVec 4) : Option Nat :=
  best (fun a b => decide (b < a))
    ([(0, h.alarmVolt), (1, h.alarmClk), (2, h.alarmTemp), (3, h.alarmMesh)].filterMap fun x =>
      if sources.getLsbD x.1 then some (min 2 x.2.toNat) else none)

/-- The package resets: what stands outside it, the key store and what has been told stay (DESIGN CHOICE, log 7: HBM4E contents). -/
def State.packageReset (s : State) : State :=
  { State.reset with
    inputs := s.inputs, freeCtr := s.freeCtr, serial := s.serial, ext := s.ext, records := s.records
    hub := { State.reset.hub with
      identityKey := s.hub.identityKey, keySerial := s.hub.keySerial, sessionKeys := s.hub.sessionKeys } }

/-- SECURITY_ALARM (in part DESIGN CHOICE, log 55). -/
def execSecurityAlarm (sources : BitVec 4) (s : State) : Res :=
  .next (match s.hub.alarmAction sources with
    | none => s
    | some 0 =>
      let n := s.draw
      let s := n.2.updHub fun h => { h with counter := Config.freeValue n.1 }
      s.record (.alarm sources s.hub.counter)
    | some 1 => s.packageReset
    | some _ => (s.updHub fun h => { h with identityKey := false, sessionKeys := [] }).packageReset)

end Sys2Proof.Machine
end

