-- ==== Sys2Proof/Machine/Dispatch.lean ====
section
/-! DEFINITION. One arm per constructor: the instruction's meaning. -/

namespace Sys2Proof.Machine

def exec (i : Instr) (s : State) : Host.Outcome State Fault Refusal :=
  match i with
  | .wheelBoundary core => Sys2Proof.Machine.execWheelBoundary core s
  | .accessReply core slot => Sys2Proof.Machine.execAccessReply core slot s
  | .pageTableWalk core slot => Sys2Proof.Machine.execPageTableWalk core slot s
  | .faultRetry record => Sys2Proof.Machine.execFaultRetry record s
  | .faultDeliver record => Sys2Proof.Machine.execFaultDeliver record s
  | .refreshDue bank => Sys2Proof.Machine.execRefreshDue bank s
  | .postponedRefresh bank => Sys2Proof.Machine.execPostponedRefresh bank s
  | .sweep => Sys2Proof.Machine.execSweep s
  | .sweepCoreStep core => Sys2Proof.Machine.execSweepCoreStep core s
  | .sweepClear => Sys2Proof.Machine.execSweepClear s
  | .migrationPacketArrival core => Sys2Proof.Machine.execMigrationPacketArrival core s
  | .migrationRetry core slot => Sys2Proof.Machine.execMigrationRetry core slot s
  | .proxy core => Sys2Proof.Machine.execProxy core s
  | .proxyReply core slot => Sys2Proof.Machine.execProxyReply core slot s
  | .remoteUpdate core => Sys2Proof.Machine.execRemoteUpdate core s
  | .clusterSchedulerPass cluster => Sys2Proof.Machine.execClusterSchedulerPass cluster s
  | .packetPromotion cluster level => Sys2Proof.Machine.execPacketPromotion cluster level s
  | .stealRequest thief victim => Sys2Proof.Machine.execStealRequest thief victim s
  | .stealRoundWait cluster => Sys2Proof.Machine.execStealRoundWait cluster s
  | .pendingLaunchMove cluster entry => Sys2Proof.Machine.execPendingLaunchMove cluster entry s
  | .dependencyDecrement handle => Sys2Proof.Machine.execDependencyDecrement handle s
  | .taskRetirement inst => Sys2Proof.Machine.execTaskRetirement inst s
  | .mailboxDelivery inst => Sys2Proof.Machine.execMailboxDelivery inst s
  | .portElementArrival core dir => Sys2Proof.Machine.execPortElementArrival core dir s
  | .monitorNotice core slot => Sys2Proof.Machine.execMonitorNotice core slot s
  | .monWaitTimeout core slot => Sys2Proof.Machine.execMonWaitTimeout core slot s
  | .copyBeat cluster chan => Sys2Proof.Machine.execCopyBeat cluster chan s
  | .copyCompletion cluster chan => Sys2Proof.Machine.execCopyCompletion cluster chan s
  | .indexStep cluster job => Sys2Proof.Machine.execIndexStep cluster job s
  | .matrixJobStart cluster => Sys2Proof.Machine.execMatrixJobStart cluster s
  | .tileFetch cluster line => Sys2Proof.Machine.execTileFetch cluster line s
  | .kGroup cluster => Sys2Proof.Machine.execKGroup cluster s
  | .tileWriteBack cluster => Sys2Proof.Machine.execTileWriteBack cluster s
  | .jobEnd cluster => Sys2Proof.Machine.execJobEnd cluster s
  | .engineClockGate cluster => Sys2Proof.Machine.execEngineClockGate cluster s
  | .engineWakeGrant die => Sys2Proof.Machine.execEngineWakeGrant die s
  | .engineWakeReady cluster => Sys2Proof.Machine.execEngineWakeReady cluster s
  | .engineYield cluster => Sys2Proof.Machine.execEngineYield cluster s
  | .rindNormJob cluster => Sys2Proof.Machine.execRindNormJob cluster s
  | .pressFormation cluster key => Sys2Proof.Machine.execPressFormation cluster key s
  | .pressRound cluster key => Sys2Proof.Machine.execPressRound cluster key s
  | .preemptionRequest inst => Sys2Proof.Machine.execPreemptionRequest inst s
  | .haltComplete inst => Sys2Proof.Machine.execHaltComplete inst s
  | .resume inst => Sys2Proof.Machine.execResume inst s
  | .eviction inst image => Sys2Proof.Machine.execEviction inst image s
  | .restore image core => Sys2Proof.Machine.execRestore image core s
  | .kernelKillRequest inst => Sys2Proof.Machine.execKernelKillRequest inst s
  | .killComplete inst => Sys2Proof.Machine.execKillComplete inst s
  | .frozenThreadRestart core slot pc => Sys2Proof.Machine.execFrozenThreadRestart core slot pc s
  | .coreDrain core => Sys2Proof.Machine.execCoreDrain core s
  | .clusterRestore cluster => Sys2Proof.Machine.execClusterRestore cluster s
  | .swapDue pair => Sys2Proof.Machine.execSwapDue pair s
  | .swapPrepare pair => Sys2Proof.Machine.execSwapPrepare pair s
  | .swapExchange pair => Sys2Proof.Machine.execSwapExchange pair s
  | .swapResume pair => Sys2Proof.Machine.execSwapResume pair s
  | .holdExpiry core slot => Sys2Proof.Machine.execHoldExpiry core slot s
  | .swapDeferralLimit pair => Sys2Proof.Machine.execSwapDeferralLimit pair s
  | .securityAlarm sources => Sys2Proof.Machine.execSecurityAlarm sources s
  | .alarmpolWrite value => Sys2Proof.Machine.execAlarmpolWrite value s
  | .powerGood => Sys2Proof.Machine.execPowerGood s
  | .clusterResetRelease cluster => Sys2Proof.Machine.execClusterResetRelease cluster s
  | .bootStage image => Sys2Proof.Machine.execBootStage image s
  | .measurementExtend index digest => Sys2Proof.Machine.execMeasurementExtend index digest s
  | .sqtailWrite tail cluster => Sys2Proof.Machine.execSqtailWrite tail cluster s
  | .faccept0Write value => Sys2Proof.Machine.execFaccept0Write value s
  | .bar2Read addr size => Sys2Proof.Machine.execBar2Read addr size s
  | .bar2Write addr bytes => Sys2Proof.Machine.execBar2Write addr bytes s
  | .attestationRequest nonce => Sys2Proof.Machine.execAttestationRequest nonce s
  | .hubRegisterWrite reg value => Sys2Proof.Machine.execHubRegisterWrite reg value s
  | .thermalThrottle die => Sys2Proof.Machine.execThermalThrottle die s
  | .throttleRelease die => Sys2Proof.Machine.execThrottleRelease die s
  | .flitError path failed => Sys2Proof.Machine.execFlitError path failed s
  | .mcstStamping group other => Sys2Proof.Machine.execMcstStamping group other s
  | .mcstApplication group => Sys2Proof.Machine.execMcstApplication group s
  | .multicastSkip group => Sys2Proof.Machine.execMulticastSkip group s
  | .combinePacketArrival packet => Sys2Proof.Machine.execCombinePacketArrival packet s
  | .slotFreeNotice notice => Sys2Proof.Machine.execSlotFreeNotice notice s
  | .resultPacketArrival packet => Sys2Proof.Machine.execResultPacketArrival packet s
  | .scalarStepCompletion group stepNo => Sys2Proof.Machine.execScalarStepCompletion group stepNo s
  | .holdNotice group stepNo => Sys2Proof.Machine.execHoldNotice group stepNo s
  | .resumeNotice group stepNo => Sys2Proof.Machine.execResumeNotice group stepNo s
  | .linkFailure failure => Sys2Proof.Machine.execLinkFailure failure s
  | .treeReform group entry => Sys2Proof.Machine.execTreeReform group entry s
  | .illegalInstruction word => Sys2Proof.Machine.execIllegalInstruction word s
  | .instructionFetchFault cause => Sys2Proof.Machine.execInstructionFetchFault cause s
  | .haltedThreadResume core slot => Sys2Proof.Machine.execHaltedThreadResume core slot s
  | .faccept1Write value => Sys2Proof.Machine.execFaccept1Write value s
  | .provisioning => Sys2Proof.Machine.execProvisioning s
  | .lb im a d => Sys2Proof.Machine.execLb im a d s
  | .lh im a d => Sys2Proof.Machine.execLh im a d s
  | .lw im a d => Sys2Proof.Machine.execLw im a d s
  | .ld im a d => Sys2Proof.Machine.execLd im a d s
  | .lbu im a d => Sys2Proof.Machine.execLbu im a d s
  | .lhu im a d => Sys2Proof.Machine.execLhu im a d s
  | .lwu im a d => Sys2Proof.Machine.execLwu im a d s
  | .sb im b a j => Sys2Proof.Machine.execSb im b a j s
  | .sh im b a j => Sys2Proof.Machine.execSh im b a j s
  | .sw im b a j => Sys2Proof.Machine.execSw im b a j s
  | .sd im b a j => Sys2Proof.Machine.execSd im b a j s
  | .vld a k t => Sys2Proof.Machine.execVld a k t s
  | .vst a k t => Sys2Proof.Machine.execVst a k t s
  | .vlds b a k t => Sys2Proof.Machine.execVlds b a k t s
  | .vsts b a k t => Sys2Proof.Machine.execVsts b a k t s
  | .vldb a k t => Sys2Proof.Machine.execVldb a k t s
  | .mxSubmit a d => Sys2Proof.Machine.execMxSubmit a d s
  | .mxRun a d => Sys2Proof.Machine.execMxRun a d s
  | .jobPoll a d => Sys2Proof.Machine.execJobPoll a d s
  | .jobWait a d => Sys2Proof.Machine.execJobWait a d s
  | .jobCancel a d => Sys2Proof.Machine.execJobCancel a d s
  | .mxNorm a d => Sys2Proof.Machine.execMxNorm a d s
  | .mxXchg a d => Sys2Proof.Machine.execMxXchg a d s
  | .cpGo a => Sys2Proof.Machine.execCpGo a s
  | .cpWp a d => Sys2Proof.Machine.execCpWp a d s
  | .vatInit b a d => Sys2Proof.Machine.execVatInit b a d s
  | .vatCvt b a d => Sys2Proof.Machine.execVatCvt b a d s
  | .seedSet n a => Sys2Proof.Machine.execSeedSet n a s
  | .seedGet n d => Sys2Proof.Machine.execSeedGet n d s
  | .seedGetG n d => Sys2Proof.Machine.execSeedGetG n d s
  | .fmtLd a d => Sys2Proof.Machine.execFmtLd a d s
  | .ixGo a => Sys2Proof.Machine.execIxGo a s
  | .ixResume a => Sys2Proof.Machine.execIxResume a s
  | .ldaD sc a d => Sys2Proof.Machine.execLdaD sc a d s
  | .ldaW sc a d => Sys2Proof.Machine.execLdaW sc a d s
  | .stlD b a sc => Sys2Proof.Machine.execStlD b a sc s
  | .stlW b a sc => Sys2Proof.Machine.execStlW b a sc s
  | .fence k sc => Sys2Proof.Machine.execFence k sc s
  | .cflush a => Sys2Proof.Machine.execCflush a s
  | .cinv a => Sys2Proof.Machine.execCinv a s
  | .pref a => Sys2Proof.Machine.execPref a s
  | .sigrd e d => Sys2Proof.Machine.execSigrd e d s
  | .addi im a d => Sys2Proof.Machine.execAddi im a d s
  | .slti im a d => Sys2Proof.Machine.execSlti im a d s
  | .sltiu im a d => Sys2Proof.Machine.execSltiu im a d s
  | .xori im a d => Sys2Proof.Machine.execXori im a d s
  | .ori im a d => Sys2Proof.Machine.execOri im a d s
  | .andi im a d => Sys2Proof.Machine.execAndi im a d s
  | .slli h a d => Sys2Proof.Machine.execSlli h a d s
  | .srli h a d => Sys2Proof.Machine.execSrli h a d s
  | .srai h a d => Sys2Proof.Machine.execSrai h a d s
  | .rori h a d => Sys2Proof.Machine.execRori h a d s
  | .addpc im d => Sys2Proof.Machine.execAddpc im d s
  | .addl im d => Sys2Proof.Machine.execAddl im d s
  | .liu im d => Sys2Proof.Machine.execLiu im d s
  | .peq b a p => Sys2Proof.Machine.execPeq b a p s
  | .pne b a p => Sys2Proof.Machine.execPne b a p s
  | .plt b a p => Sys2Proof.Machine.execPlt b a p s
  | .pge b a p => Sys2Proof.Machine.execPge b a p s
  | .pltu b a p => Sys2Proof.Machine.execPltu b a p s
  | .pgeu b a p => Sys2Proof.Machine.execPgeu b a p s
  | .pand q r p => Sys2Proof.Machine.execPand q r p s
  | .por q r p => Sys2Proof.Machine.execPor q r p s
  | .pxor q r p => Sys2Proof.Machine.execPxor q r p s
  | .pnot r p => Sys2Proof.Machine.execPnot r p s
  | .mvp r d => Sys2Proof.Machine.execMvp r d s
  | .mvnp r d => Sys2Proof.Machine.execMvnp r d s
  | .prd d => Sys2Proof.Machine.execPrd d s
  | .pwr a => Sys2Proof.Machine.execPwr a s
  | .epush b a d => Sys2Proof.Machine.execEpush b a d s
  | .epop d => Sys2Proof.Machine.execEpop d s
  | .grpPut b a d => Sys2Proof.Machine.execGrpPut b a d s
  | .grpGet a d => Sys2Proof.Machine.execGrpGet a d s
  | .mcst b a d => Sys2Proof.Machine.execMcst b a d s
  | .lnkSend b a d => Sys2Proof.Machine.execLnkSend b a d s
  | .lnkRecv d => Sys2Proof.Machine.execLnkRecv d s
  | .seqRd a d => Sys2Proof.Machine.execSeqRd a d s
  | .mbSend b a => Sys2Proof.Machine.execMbSend b a s
  | .mbPeek d => Sys2Proof.Machine.execMbPeek d s
  | .mbCount d => Sys2Proof.Machine.execMbCount d s
  | .amoAdd b a d => Sys2Proof.Machine.execAmoAdd b a d s
  | .amoAnd b a d => Sys2Proof.Machine.execAmoAnd b a d s
  | .amoOr b a d => Sys2Proof.Machine.execAmoOr b a d s
  | .amoXor b a d => Sys2Proof.Machine.execAmoXor b a d s
  | .amoMin b a d => Sys2Proof.Machine.execAmoMin b a d s
  | .amoMax b a d => Sys2Proof.Machine.execAmoMax b a d s
  | .amoMinu b a d => Sys2Proof.Machine.execAmoMinu b a d s
  | .amoMaxu b a d => Sys2Proof.Machine.execAmoMaxu b a d s
  | .amoSwap b a d => Sys2Proof.Machine.execAmoSwap b a d s
  | .amoCas b a d => Sys2Proof.Machine.execAmoCas b a d s
  | .amoFadd b a d => Sys2Proof.Machine.execAmoFadd b a d s
  | .redAdd b a => Sys2Proof.Machine.execRedAdd b a s
  | .redMin b a => Sys2Proof.Machine.execRedMin b a s
  | .redMax b a => Sys2Proof.Machine.execRedMax b a s
  | .redFadd b a => Sys2Proof.Machine.execRedFadd b a s
  | .redVat b a d => Sys2Proof.Machine.execRedVat b a d s
  | .add b a d => Sys2Proof.Machine.execAdd b a d s
  | .sub b a d => Sys2Proof.Machine.execSub b a d s
  | .and b a d => Sys2Proof.Machine.execAnd b a d s
  | .or b a d => Sys2Proof.Machine.execOr b a d s
  | .xor b a d => Sys2Proof.Machine.execXor b a d s
  | .andn b a d => Sys2Proof.Machine.execAndn b a d s
  | .sll b a d => Sys2Proof.Machine.execSll b a d s
  | .srl b a d => Sys2Proof.Machine.execSrl b a d s
  | .sra b a d => Sys2Proof.Machine.execSra b a d s
  | .ror b a d => Sys2Proof.Machine.execRor b a d s
  | .slt b a d => Sys2Proof.Machine.execSlt b a d s
  | .sltu b a d => Sys2Proof.Machine.execSltu b a d s
  | .min b a d => Sys2Proof.Machine.execMin b a d s
  | .max b a d => Sys2Proof.Machine.execMax b a d s
  | .minu b a d => Sys2Proof.Machine.execMinu b a d s
  | .maxu b a d => Sys2Proof.Machine.execMaxu b a d s
  | .mul b a d => Sys2Proof.Machine.execMul b a d s
  | .mulh b a d => Sys2Proof.Machine.execMulh b a d s
  | .mulhu b a d => Sys2Proof.Machine.execMulhu b a d s
  | .mulhsu b a d => Sys2Proof.Machine.execMulhsu b a d s
  | .div b a d => Sys2Proof.Machine.execDiv b a d s
  | .divu b a d => Sys2Proof.Machine.execDivu b a d s
  | .rem b a d => Sys2Proof.Machine.execRem b a d s
  | .remu b a d => Sys2Proof.Machine.execRemu b a d s
  | .clz a d => Sys2Proof.Machine.execClz a d s
  | .ctz a d => Sys2Proof.Machine.execCtz a d s
  | .cpop a d => Sys2Proof.Machine.execCpop a d s
  | .sextb a d => Sys2Proof.Machine.execSextb a d s
  | .sexth a d => Sys2Proof.Machine.execSexth a d s
  | .sextw a d => Sys2Proof.Machine.execSextw a d s
  | .zextw a d => Sys2Proof.Machine.execZextw a d s
  | .bswap a d => Sys2Proof.Machine.execBswap a d s
  | .bfx b a d => Sys2Proof.Machine.execBfx b a d s
  | .bfxu b a d => Sys2Proof.Machine.execBfxu b a d s
  | .bfi b a d => Sys2Proof.Machine.execBfi b a d s
  | .faddS b a d => Sys2Proof.Machine.execFaddS b a d s
  | .fsubS b a d => Sys2Proof.Machine.execFsubS b a d s
  | .fmulS b a d => Sys2Proof.Machine.execFmulS b a d s
  | .fdivS b a d => Sys2Proof.Machine.execFdivS b a d s
  | .fminS b a d => Sys2Proof.Machine.execFminS b a d s
  | .fmaxS b a d => Sys2Proof.Machine.execFmaxS b a d s
  | .fsqrtS a d => Sys2Proof.Machine.execFsqrtS a d s
  | .fcvtSI a d => Sys2Proof.Machine.execFcvtSI a d s
  | .fcvtSN a d => Sys2Proof.Machine.execFcvtSN a d s
  | .fcvtIS a d => Sys2Proof.Machine.execFcvtIS a d s
  | .fcvtNS a d => Sys2Proof.Machine.execFcvtNS a d s
  | .fcvtWS a d => Sys2Proof.Machine.execFcvtWS a d s
  | .fcvtNwS a d => Sys2Proof.Machine.execFcvtNwS a d s
  | .fcvtSD a d => Sys2Proof.Machine.execFcvtSD a d s
  | .fcvtSB a d => Sys2Proof.Machine.execFcvtSB a d s
  | .fcvtBS a d => Sys2Proof.Machine.execFcvtBS a d s
  | .fclassS a d => Sys2Proof.Machine.execFclassS a d s
  | .feqS b a d => Sys2Proof.Machine.execFeqS b a d s
  | .fltS b a d => Sys2Proof.Machine.execFltS b a d s
  | .fleS b a d => Sys2Proof.Machine.execFleS b a d s
  | .ffmaS b a d => Sys2Proof.Machine.execFfmaS b a d s
  | .ffmsS b a d => Sys2Proof.Machine.execFfmsS b a d s
  | .fsgnjS b a d => Sys2Proof.Machine.execFsgnjS b a d s
  | .faddD b a d => Sys2Proof.Machine.execFaddD b a d s
  | .fsubD b a d => Sys2Proof.Machine.execFsubD b a d s
  | .fmulD b a d => Sys2Proof.Machine.execFmulD b a d s
  | .fdivD b a d => Sys2Proof.Machine.execFdivD b a d s
  | .fminD b a d => Sys2Proof.Machine.execFminD b a d s
  | .fmaxD b a d => Sys2Proof.Machine.execFmaxD b a d s
  | .fsqrtD a d => Sys2Proof.Machine.execFsqrtD a d s
  | .fcvtDI a d => Sys2Proof.Machine.execFcvtDI a d s
  | .fcvtDN a d => Sys2Proof.Machine.execFcvtDN a d s
  | .fcvtID a d => Sys2Proof.Machine.execFcvtID a d s
  | .fcvtND a d => Sys2Proof.Machine.execFcvtND a d s
  | .fcvtWD a d => Sys2Proof.Machine.execFcvtWD a d s
  | .fcvtNwD a d => Sys2Proof.Machine.execFcvtNwD a d s
  | .fcvtDS a d => Sys2Proof.Machine.execFcvtDS a d s
  | .fcvtDB a d => Sys2Proof.Machine.execFcvtDB a d s
  | .fcvtBD a d => Sys2Proof.Machine.execFcvtBD a d s
  | .fclassD a d => Sys2Proof.Machine.execFclassD a d s
  | .feqD b a d => Sys2Proof.Machine.execFeqD b a d s
  | .fltD b a d => Sys2Proof.Machine.execFltD b a d s
  | .fleD b a d => Sys2Proof.Machine.execFleD b a d s
  | .ffmaD b a d => Sys2Proof.Machine.execFfmaD b a d s
  | .ffmsD b a d => Sys2Proof.Machine.execFfmsD b a d s
  | .fsgnjD b a d => Sys2Proof.Machine.execFsgnjD b a d s
  | .vadd g n h m k t => Sys2Proof.Machine.execVadd g n h m k t s
  | .vsub g n h m k t => Sys2Proof.Machine.execVsub g n h m k t s
  | .vmul g n h m k t => Sys2Proof.Machine.execVmul g n h m k t s
  | .vfma g n h m k t => Sys2Proof.Machine.execVfma g n h m k t s
  | .vfms g n h m k t => Sys2Proof.Machine.execVfms g n h m k t s
  | .vmin g x h m k t => Sys2Proof.Machine.execVmin g x h m k t s
  | .vmax g x h m k t => Sys2Proof.Machine.execVmax g x h m k t s
  | .vand g x h m k t => Sys2Proof.Machine.execVand g x h m k t s
  | .vor g x h m k t => Sys2Proof.Machine.execVor g x h m k t s
  | .vxor g x h m k t => Sys2Proof.Machine.execVxor g x h m k t s
  | .vshl g x y h m k t => Sys2Proof.Machine.execVshl g x y h m k t s
  | .vshr g x r h m k t => Sys2Proof.Machine.execVshr g x r h m k t s
  | .vcmp g x h m t => Sys2Proof.Machine.execVcmp g x h m t s
  | .vsel g h k t => Sys2Proof.Machine.execVsel g h k t s
  | .vred y r h m k t => Sys2Proof.Machine.execVred y r h m k t s
  | .vabs h k t => Sys2Proof.Machine.execVabs h k t s
  | .vneg h k t => Sys2Proof.Machine.execVneg h k t s
  | .vrcp h k t => Sys2Proof.Machine.execVrcp h k t s
  | .vrsq h k t => Sys2Proof.Machine.execVrsq h k t s
  | .vexp2 h k t => Sys2Proof.Machine.execVexp2 h k t s
  | .vlog2 h k t => Sys2Proof.Machine.execVlog2 h k t s
  | .vbcast h k t => Sys2Proof.Machine.execVbcast h k t s
  | .vsqn h k t => Sys2Proof.Machine.execVsqn h k t s
  | .vcvt n h m k t => Sys2Proof.Machine.execVcvt n h m k t s
  | .vdec n h m k t => Sys2Proof.Machine.execVdec n h m k t s
  | .venc x h m k => Sys2Proof.Machine.execVenc x h m k s
  | .vunpk3 x h m k t => Sys2Proof.Machine.execVunpk3 x h m k t s
  | .vaddsub g n h m k t => Sys2Proof.Machine.execVaddsub g n h m k t s
  | .vdot g n h m k t => Sys2Proof.Machine.execVdot g n h m k t s
  | .vperm g x h k t => Sys2Proof.Machine.execVperm g x h k t s
  | .vslide g x h k t => Sys2Proof.Machine.execVslide g x h k t s
  | .vmxs g n h m k t => Sys2Proof.Machine.execVmxs g n h m k t s
  | .barInit b a d => Sys2Proof.Machine.execBarInit b a d s
  | .barArrive sc a d => Sys2Proof.Machine.execBarArrive sc a d s
  | .barWait sc a => Sys2Proof.Machine.execBarWait sc a s
  | .barDrop sc a => Sys2Proof.Machine.execBarDrop sc a s
  | .monArm a d => Sys2Proof.Machine.execMonArm a d s
  | .monWait sc a d => Sys2Proof.Machine.execMonWait sc a d s
  | .monClr => Sys2Proof.Machine.execMonClr s
  | .waitc b a sc => Sys2Proof.Machine.execWaitc b a sc s
  | .waitm => Sys2Proof.Machine.execWaitm s
  | .putf b a => Sys2Proof.Machine.execPutf b a s
  | .takef a d => Sys2Proof.Machine.execTakef a d s
  | .cmnRd c d => Sys2Proof.Machine.execCmnRd c d s
  | .cmnWr c a => Sys2Proof.Machine.execCmnWr c a s
  | .beq im b a j => Sys2Proof.Machine.execBeq im b a j s
  | .bne im b a j => Sys2Proof.Machine.execBne im b a j s
  | .blt im b a j => Sys2Proof.Machine.execBlt im b a j s
  | .bge im b a j => Sys2Proof.Machine.execBge im b a j s
  | .bltu im b a j => Sys2Proof.Machine.execBltu im b a j s
  | .bgeu im b a j => Sys2Proof.Machine.execBgeu im b a j s
  | .bp im p j => Sys2Proof.Machine.execBp im p j s
  | .bnp im p j => Sys2Proof.Machine.execBnp im p j s
  | .brb im a j => Sys2Proof.Machine.execBrb im a j s
  | .jalr im a d => Sys2Proof.Machine.execJalr im a d s
  | .jal im => Sys2Proof.Machine.execJal im s
  | .trap a => Sys2Proof.Machine.execTrap a s
  | .eret => Sys2Proof.Machine.execEret s
  | .crr c d => Sys2Proof.Machine.execCrr c d s
  | .crw c a d => Sys2Proof.Machine.execCrw c a d s
  | .crs c a d => Sys2Proof.Machine.execCrs c a d s
  | .crc c a d => Sys2Proof.Machine.execCrc c a d s
  | .feat a d => Sys2Proof.Machine.execFeat a d s
  | .featO a d => Sys2Proof.Machine.execFeatO a d s
  | .castleHold d => Sys2Proof.Machine.execCastleHold d s
  | .castleFree => Sys2Proof.Machine.execCastleFree s
  | .halt => Sys2Proof.Machine.execHalt s
  | .brk => Sys2Proof.Machine.execBrk s
  | .kill a d => Sys2Proof.Machine.execKill a d s
  | .preempt a d => Sys2Proof.Machine.execPreempt a d s
  | .tlbInv b a => Sys2Proof.Machine.execTlbInv b a s
  | .idle d => Sys2Proof.Machine.execIdle d s
  | .spawn b a d => Sys2Proof.Machine.execSpawn b a d s
  | .spawnl a d => Sys2Proof.Machine.execSpawnl a d s
  | .exit => Sys2Proof.Machine.execExit s
  | .yield => Sys2Proof.Machine.execYield s
  | .migrate a => Sys2Proof.Machine.execMigrate a s
  | .tqEnq a d => Sys2Proof.Machine.execTqEnq a d s
  | .tqDeq a d => Sys2Proof.Machine.execTqDeq a d s
  | .depSet b a d => Sys2Proof.Machine.execDepSet b a d s
  | .depDec a d => Sys2Proof.Machine.execDepDec a d s
  | .launch a d => Sys2Proof.Machine.execLaunch a d s
  | .launchW a d => Sys2Proof.Machine.execLaunchW a d s
  | .iterInit a => Sys2Proof.Machine.execIterInit a s
  | .iterNext p d => Sys2Proof.Machine.execIterNext p d s
  | .dqPush b a d => Sys2Proof.Machine.execDqPush b a d s
  | .dqPop d => Sys2Proof.Machine.execDqPop d s
  | .dqSplit a d => Sys2Proof.Machine.execDqSplit a d s
  | .dqSteal d => Sys2Proof.Machine.execDqSteal d s

end Sys2Proof.Machine
end

