-- ==== Sys2Proof/Machine/Bundle.lean ====
section
/-! DEFINITION. The Tolmoeb bundle as the driver loads it (spec/25 R446 to R449; in part DEDUCED, log 74). -/

namespace Sys2Proof.Machine

/-- The number in n bytes of a file, little-endian. -/
def fileNat (b : List Byte) (off n : Nat) : Nat := leNat ((b.drop off).take n)

/-! Header and sections (R446). -/

/-- A section entry. -/
structure BundleSection where
  kind : Nat
  link : Nat
  size : Nat
  fileOff : Nat
  base : Nat
  deriving DecidableEq, Repr

def bundleCount (b : List Byte) : Nat := fileNat b 10 2
def bundleFeatures (b : List Byte) : BitVec 128 := BitVec.ofNat 128 (fileNat b 16 16)
def bundleDigest (b : List Byte) : BitVec 256 := BitVec.ofNat 256 (beNat ((b.drop 32).take 32))
def bundleSig (b : List Byte) : BitVec 512 := BitVec.ofNat 512 (beNat ((b.drop 64).take 64))
def bundleSigned (b : List Byte) : Bool := fileNat b 12 4 % 2 = 1

def bundleSection (b : List Byte) (i : Nat) : BundleSection :=
  let o := 128 + 32 * i
  ⟨fileNat b o 1, fileNat b (o + 1) 1, fileNat b (o + 4) 4, fileNat b (o + 8) 8, fileNat b (o + 16) 8⟩

def bundleSectionsOf (b : List Byte) : List (Nat × BundleSection) := (span 0 (bundleCount b)).map fun i => (i, bundleSection b i)

/-- Native code, which has a load offset of its own. -/
def BundleSection.native (x : BundleSection) : Bool := x.kind ≤ 1

def BundleSection.ok (x : BundleSection) (b : List Byte) (i : Nat) : Bool :=
  fileNat b (128 + 32 * i + 2) 2 = 0 && fileNat b (128 + 32 * i + 24) 8 = 0 && x.kind ≤ 5 &&
  (x.native || x.base = 0) && x.fileOff + x.size ≤ b.length && (x.kind != 4 || (x.link < bundleCount b && x.size % 16 = 0))

/-- The file has the form of R446. -/
def bundleForm (b : List Byte) : Bool :=
  fileNat b 0 8 = 0x314C44424D4C4F54 && fileNat b 8 2 = 1 && 1 ≤ bundleCount b && bundleCount b ≤ 1024 &&
  fileNat b 12 4 ≤ 1 && (bundleSigned b || bundleSig b = 0) && 128 + 32 * bundleCount b ≤ b.length &&
  (bundleSectionsOf b).all fun e => e.2.ok b e.1

/-- The host takes the file: its digest, its signature, and the features that it needs (R447). -/
def bundleTaken (accepted : BitVec 128) (key : SmPoint) (b : List Byte) : Bool :=
  bundleForm b && bundleDigest b = sm3 (b.drop 128) &&
  (!bundleSigned b || (Config.hostTrusts key && sm2Verify key (bundleDigest b) (bundleSig b))) &&
  bundleFeatures b &&& ~~~accepted = 0

/-! Portable code (R448). -/

/-- The major of an extension group in enc-B, in place of its major here. -/
def encBMajor (m : Nat) : Nat := if m = 0x02 then 0x12 else if m = 0x0A then 0x13 else if m = 0x16 then 0x17 else if m = 0x1E then 0x1A else m

/-- A word with its major replaced. -/
def toEncB (w : InstrWord) : InstrWord :=
  (w &&& ~~~0x7C#32) ||| (BitVec.ofNat 32 (encBMajor (fld w.toNat 6 2)) <<< 2)

/-- A record's word, as the encoding of this device or of the next has it; none where the record refuses the bundle. -/
noncomputable def finalWord (accepted : BitVec 128) (encB : Bool) (r : List Byte) : Option InstrWord :=
  let w : InstrWord := BitVec.ofNat 32 (fileNat r 0 4)
  let legal := match decode w with
    | .ok _ => true
    | .error _ => false
  if fileNat r 4 1 = fld w.toNat 6 2 && (fileNat r 5 1 = 0 || accepted.getLsbD (fileNat r 5 1)) && fileNat r 6 2 = 0 &&
    r.length = 8 && legal then some (if encB then toEncB w else w) else none

/-- A portable section of n records, finalised. -/
noncomputable def finalise (accepted : BitVec 128) (encB : Bool) : Nat → List Byte → Option (List Byte)
  | 0, b => if b = [] then some [] else none
  | n + 1, b =>
    match finalWord accepted encB (b.take 8), finalise accepted encB n (b.drop 8) with
    | some w, some l => some (wordBytes w ++ l)
    | none, _ => none
    | some _, none => none

/-! Relocations (R449). -/

/-- Bytes put over those at an offset; none where they pass the end. -/
def patchBytes (b : List Byte) (off : Nat) (x : List Byte) : Option (List Byte) :=
  if off + x.length ≤ b.length then some (b.take off ++ x ++ b.drop (off + x.length)) else none

/-- A word with the bits from lo on replaced by a value. -/
def patchField (b : List Byte) (off lo : Nat) (v : Int) : Option (List Byte) :=
  let w := fileNat b off 4
  patchBytes b off (leBytes (w % 2 ^ lo + (v % 2 ^ (32 - lo)).toNat * 2 ^ lo) 4)

/-- A LIU or an ADDPC and the ADDL after it, with a value split between them (spec/02 R50, spec/04 R89). -/
def patchSplit (b : List Byte) (off : Nat) (v : Int) : Option (List Byte) :=
  (patchField b off 14 (v / 2 ^ 14)).bind fun b => patchField b (off + 4) 14 (v % 2 ^ 14)

/-- A relocation record over the section that it patches, with the load offsets of all. -/
def relocate (load : Nat → Nat) (link : Nat) (r b : List Byte) : Option (List Byte) :=
  let off := fileNat r 0 4
  let v := (load (fileNat r 5 1) + fileNat r 8 8) % 2 ^ 64
  let d := signed 64 (v + 2 ^ 64 - (load link + off) % 2 ^ 64)
  if fileNat r 6 2 != 0 then none
  else
    match fileNat r 4 1 with
    | 0 => patchBytes b off (leBytes v 8)
    | 1 => if v < 2 ^ 31 then patchSplit b off v else none
    | 2 => if -2 ^ 31 ≤ d && d < 2 ^ 31 then patchSplit b off d else none
    | 3 => if d % 4 = 0 && -2 ^ 26 ≤ d && d < 2 ^ 26 then patchField b off 7 (d / 4) else none
    | _ => none

/-- The n records of a relocation section in order. -/
def relocateAll (load : Nat → Nat) (link : Nat) : Nat → List Byte → List Byte → Option (List Byte)
  | 0, _, b => some b
  | n + 1, l, b => (relocate load link (l.take 16) b).bind fun b => relocateAll load link n (l.drop 16) b

/-! Loading (R447). -/

def BundleSection.bytes (x : BundleSection) (b : List Byte) : List Byte := (b.drop x.fileOff).take x.size

/-- The load offset of each section: its own for native code, else the driver's choice. -/
def bundleLoad (b : List Byte) (place : Tab Nat) (i : Nat) : Nat :=
  let x := bundleSection b i
  if x.native then x.base else tabGet 0 place i

/-- A section as it is loaded, with its relocations; none where it refuses the bundle. -/
noncomputable def loadSection (accepted : BitVec 128) (b : List Byte) (place : Tab Nat) (i : Nat) : Option (List Byte) :=
  let x := bundleSection b i
  let l := if x.kind = 2 then finalise accepted false (x.size / 8) (x.bytes b) else some (x.bytes b)
  (bundleSectionsOf b).foldl (fun l e =>
    if e.2.kind = 4 && e.2.link = i then l.bind (relocateAll (bundleLoad b place) i (e.2.size / 16) (e.2.bytes b)) else l) l

/-- What the driver loads: each section's number, kind, load offset and bytes, without enc-B code and the relocations themselves. -/
noncomputable def loadBundle (accepted : BitVec 128) (key : SmPoint) (place : Tab Nat) (b : List Byte) :
    Option (List (Nat × Nat × Nat × List Byte)) :=
  if bundleTaken accepted key b then
    allSome (((bundleSectionsOf b).filter fun e => e.2.kind != 1 && e.2.kind != 4).map fun e =>
      (loadSection accepted b place e.1).map fun l => (e.1, e.2.kind, bundleLoad b place e.1, l))
  else none

/-- The writes that put bytes at an offset of space 0, in pieces; none where nothing of this device's memory stands there. -/
def bundleWrites : List (Target × Nat) → List Byte → Option (List Instr)
  | [], _ => some []
  | (t, n) :: r, b =>
    match t.place with
    | .home pa => (bundleWrites r (b.drop n)).map fun l => barPieces pa (b.take n) ++ l
    | .window _ _ | .mx _ _ _ | .remote _ _ => none

/-- The writes of a section, through the translation of space 0. -/
def State.sectionWrites (s : State) (off : Nat) (b : List Byte) : Option (List Instr) :=
  if b = [] then some [] else
  match s.plan noInst {} ⟨0, BitVec.ofNat 64 off⟩ b.length with
  | .ok l => bundleWrites l b
  | .bad _ _ => none
  | .hole => none

/-- The driver loads a bundle: code and data go through BAR2, and the task packets are the host's to submit (in part DEDUCED, log 74). -/
noncomputable def State.loadFile (s : State) (key : SmPoint) (place : Tab Nat) (b : List Byte) : State :=
  match loadBundle (s.hub.accept1 ++ s.hub.accept0) key place b with
  | none => s.record (.bundle none)
  | some l =>
    match allSome ((l.filter fun x => x.2.1 != 5).map fun x => s.sectionWrites x.2.2.1 x.2.2.2) with
    | none => s.record (.bundle none)
    | some w =>
      ((s.postLater w.flatten).emitOnce (.bar2Write 0 [])).record
        (.bundle (some ((l.filter fun x => x.2.1 = 5).map fun x => (x.1, x.2.2.2))))

end Sys2Proof.Machine
end

