-- ==== Sys2Proof/Machine/Outside.lean ====
section
/-! DEFINITION. What the outside does to the device that no row of the opcode table names (in part DESIGN CHOICE, log 61): hardware
errors (spec/18 R371, spec/13 R289), what other devices send (spec/22 R405 R406 R408), what the host, other devices and drives write to
their own memory, and the host's and the kernel's accesses through BAR0, to bundles and to sessions (spec/25 R437 R438 R447 R450). -/

namespace Sys2Proof.Machine

/-! Errors (R371). -/

/-- A corrected error is counted, saturating (spec/19 R390). -/
def countError (n : BitVec 32) : BitVec 32 := if n = 0xFFFFFFFF#32 then n else n + 1

/-- An HBM4E sector that fails twice is poisoned (spec/10 R232). -/
def State.poisonSector (s : State) (sector : Nat) : State :=
  if Config.hbmBytes ≤ 32 * sector || s.poison.contains sector then s else { s with poison := s.poison ++ [sector] }

/-- A sector of a core's cache fails: a clean one is no longer there, and a dirty one goes home poisoned; while a pin holds the line,
nothing is written to it. -/
def State.cacheError (s : State) (c line sector : Nat) : State :=
  match (s.core c).line line with
  | none => s
  | some l =>
    let drop := fun (s : State) => s.updCore c fun k => match k.line line with
      | some l => k.putLine { l with valid := l.valid &&& ~~~(1#4 <<< sector) }
      | none => k
    if 4 ≤ sector || !l.valid.getLsbD sector then s
    else if !l.dirtyIn sector then drop s
    else if s.pinned (.home (128 * line)) then s
    else
      let s := (s.writeBackSector c l sector).poisonSector (4 * line + sector)
      drop (s.updCore c fun k => match k.line line with
        | some l => k.putLine { l with dirty := l.dirty &&& ~~~(BitVec.ofNat 128 (2 ^ 32 - 1) <<< (32 * sector)) }
        | none => k)

/-- A row of a scratch or operand bank is poisoned until it is fully written. -/
def State.bankError (s : State) (c row : Nat) : State :=
  let k := s.core c
  if (k.roleBanks 2 ++ k.roleBanks 3).contains (row / 64) && !k.badRows.contains row then
    s.updCore c fun k => { k with badRows := k.badRows ++ [row] }
  else s

/-- A thread's register fails: the thread freezes, wherever it stood (spec/18 R369, R371). -/
def State.registerError (s : State) (c sl r : Nat) : State :=
  let t := s.thread c sl
  if !t.live || t.st = .frozen || t.proxy.isSome || t.alloc ≤ r || s.inFlight c sl then s
  else
    let s := match t.wait with
      | some (.fault n) => s.dropFault n
      | _ => s
    let val : Word := 0xFFFFFFFFFFFFFF00#64 + BitVec.ofNat 64 r
    ((s.putThread c sl { t.over with st := .frozen }).record (.freeze t.inst c sl 12 val t.pc t.tcause t.tval t.tepc)).settleInst t.inst

/-! Other devices (spec/22 R405, R406). -/

/-- A line of this device's memory, as another device's access names it. -/
def inbound (off : Word) : Target := barTarget off.toNat

/-- A load of another device: the bytes at the home, unless they are poisoned. -/
def State.deviceLoad (s : State) (device tag : Nat) (off : Word) (n : Nat) : State :=
  if Config.hbmBytes < off.toNat + n then s
  else
    let r := s.readTarget (inbound off) n
    r.2.2.record (.deviceRead device tag (if r.2.1.isSome then none else some r.1))

/-- A store of another device, of at most 8 bytes: a release enters the line's entry as all ones, as one without a signature here does
(spec/11 R246). One that a pin holds waits with the host's. -/
def State.deviceStore (s : State) (off : Word) (b : List Byte) (release : Bool) : State :=
  if Config.hbmBytes < off.toNat + b.length || !onePiece off.toNat b.length || b = [] then s
  else if s.pinned (.home off.toNat) then (s.postLater [.bar2Write off.toNat b]).emitOnce (.bar2Write 0 [])
  else
    let s := if release then s.sigRelease (inbound off) none else s
    s.writeTarget .outside (inbound off) b

/-- Another device's packet names a line of this device, or carries a light thread. -/
def MigPacket.inboundOk (p : MigPacket) : Bool :=
  match p.kind, p.target with
  | 0, none => true
  | 1, some ⟨_, .home pa, _, _, _, _⟩ => decide (pa < Config.hbmBytes)
  | 2, some ⟨_, .home pa, _, _, _, _⟩ => decide (pa < Config.hbmBytes)
  | _, _ => false

/-- A packet of another device waits for the queue of its core, in the order of arrival. -/
def State.devicePacket (s : State) (device home : Nat) (p : MigPacket) : State :=
  if device = 0 || device = s.hub.devid.toNat || Config.cores ≤ home || !p.inboundOk then s
  else s.sendPacket home { p with device := device }

/-- Removes the first packet of an instance. -/
def dropAway (inst : Nat) : List MigPacket → List MigPacket
  | [] => []
  | p :: r => if p.isOf inst then r else p :: dropAway inst r

/-! BAR0 and sessions (spec/25 R437, R438, R450). -/

/-- HSTAT. -/
def Hub.hstat (h : Hub) : Word := BitVec.ofNat 64 (h.err.toNat * 2 ^ 8 + h.stage.toNat * 2 ^ 4 + if h.ready then 1 else 0)

/-- A BAR0 register; the rest of BAR0 is the kernel's message area, whose contents are free. -/
def State.hubRead (s : State) (off : Nat) : State :=
  let h := s.hub
  let reg : Option Word := match off with
    | 0x00 => some h.hstat
    | 0x10 => some (offer.setWidth 64)
    | 0x18 => some (offer.extractLsb' 64 64)
    | 0x20 => some h.accept0
    | 0x28 => some h.accept1
    | 0x40 => some h.sqtail
    | _ => none
  match reg with
  | some v => s.record (.hubRead off v)
  | none => (s.draw).2.record (.hubRead off (Config.freeValue (s.draw).1))

/-- A write of a BAR0 register; HSTAT and FOFFER are read-only. -/
def State.hubWrite (s : State) (off : Nat) (v : Word) (cluster : Nat) : Res :=
  match off with
  | 0x20 => execFaccept0Write v s
  | 0x28 => execFaccept1Write v s
  | 0x40 => execSqtailWrite v cluster s
  | _ => .next s

/-- Sessions of the key store. -/
def sessionSlots : Nat := 32

/-- The kernel opens a session with a key. -/
def State.openSession (s : State) (key : BitVec 256) : State :=
  if s.hub.kernelRuns && decide (s.hub.sessionKeys.length < sessionSlots) then
    s.updHub fun h => { h with sessionKeys := h.sessionKeys ++ [key] }
  else s

/-- A message of a session is signed. -/
def State.signSession (s : State) (key : Nat) (digest : BitVec 256) : State :=
  match s.hub.sessionKeys[key]? with
  | some k =>
    let x := s.signWith k.toNat digest
    x.2.record (.signed key (some x.1))
  | none => s.record (.signed key none)

/-! Memory outside the package (log 13). -/

/-- Bytes that the host, another device or a drive writes to its own memory. -/
def State.ownWrite (s : State) (space off : Nat) (b : List Byte) : State :=
  if space = 0 || space = s.hub.devid.toNat || b = [] then s
  else { s with ext := memWrite s.ext (extAddr space off) b }.touch .outside none (.remote space off) b.length

/-- What the outside does. -/
noncomputable def outside (o : Outside) (s : State) : Res :=
  match o with
  | .corrected c => .next (s.updCore c fun k => { k with eccCount := countError k.eccCount })
  | .correctedSlice k => .next (s.updCluster k fun x => { x with eccCount := countError x.eccCount })
  | .memoryError x => .next (s.poisonSector x)
  | .cacheError c l x => .next (s.cacheError c l x)
  | .bankError c r => .next (s.bankError c r)
  | .registerError c sl r => .next (s.registerError c sl r)
  | .copyError k ch => .next (s.copyError k ch)
  | .load d tag off n => .next (s.deviceLoad d tag off n)
  | .store _ off b rel => .next (s.deviceStore off b rel)
  | .packet d home p => .next (s.devicePacket d home p)
  | .migrantGone inst => .next ({ s with away := dropAway inst s.away }.settleInst inst)
  | .kill d inst => .next (s.killMigrants d inst)
  | .multicast g off v => .next (s.multicastFrom g off v)
  | .stamp g n => .next (s.updHub fun h => { h with stamps := tabPut h.stamps g n })
  | .hubRead off => .next (s.hubRead off)
  | .hubWrite off v k => s.hubWrite off v k
  | .resize n => .next (if 28 ≤ n && n ≤ 39 then s.updHub fun h => { h with barSize := 2 ^ n } else s)
  | .session k => .next (s.openSession k)
  | .sign k d => .next (s.signSession k d)
  | .own sp off b => .next (s.ownWrite sp off b)
  | .bundle k place b => .next (s.loadFile k place b)

end Sys2Proof.Machine
end

