-- ==== Sys2Proof/Machine/Owners.lean ====
section
/-! DEFINITION. The copy thread and the link thread, which the model runs as their rules give them (spec/13 R281, spec/22 R415;
DESIGN CHOICE, log 8), and the proxies and updates that hold slots (spec/07 R145). -/

namespace Sys2Proof.Machine

/-- The full register at or after n, in rotation over eight. -/
def Core.fullFrom (k : Core) (n : Nat) : Option Nat :=
  ((span n 8).map (· % 8)).find? fun j => (tabFind k.requests j).isSome

/-- An issue of the copy thread: the CP.GO of the request that it holds, or else the TAKEF of the next full register, an acquire that
a pinned dirty line of the core holds. -/
def copyIssue (c : Nat) (s : State) : Res :=
  let t := s.thread c 62
  if t.cur = 1 && t.pc != Config.copyThreadEntry + 8 then execCpGo 4 s
  else
    let s := s.updThread c 62 fun t => { t with cur := 0, pc := Config.copyThreadEntry }
    match (s.core c).fullFrom (s.core c).nextRequest with
    | none => park (.requestEmpty 8) s
    | some j =>
      if s.dirtyPinned c then park (.room .pin) s
      else
      let s := s.updCore c fun k => { k with nextRequest := (j + 1) % 8 }
      execTakef 1 4 (s.updThread c 62 fun t => { t.setReg 1 (BitVec.ofNat 64 j) false with cur := 1 })

/-- An issue of a slot that fetches no word: 62 or 63, or one that holds a proxy or an update. -/
def ownerIssue (c sl : Nat) (s : State) : Res :=
  match (s.thread c sl).proxy with
  | some p => if p.kind = 1 then execProxy c s else execRemoteUpdate c s
  | none => if sl = 62 then copyIssue c s else linkIssue c s

end Sys2Proof.Machine
end

