-- ==== Sys2Proof/Machine/Step.lean ====
section
/-! DEFINITION. One step of the device (DESIGN CHOICE, log 2): the first of the inputs, else the first event of the agenda, else the
next cycle of the core in focus. -/

namespace Sys2Proof.Machine

/-- The issue of a thread: its word is fetched, decoded and executed, and the core's counter advances. -/
noncomputable def issue (c sl : Nat) (s : State) : Host.Outcome State Fault Refusal :=
  let s := { s with ic := c, is := sl }
  ticked c
    (match s.fetch with
      | .word w =>
        match decode w with
        | .ok i => exec i s
        | .error _ => exec (.illegalInstruction w) s
      | .miss => fetchWait (parkWalk ⟨0, s.cur.pc⟩ .fetch s)
      | .fault cause => exec (.instructionFetchFault (BitVec.ofNat 5 cause)) s
      | .hole => .fault .nothingThere)

/-- A core's next cycle: its wheel boundary, then the issue of its position; the threads of slots 62 and 63, and a slot that holds a
proxy or an update, run without words. -/
noncomputable def cycle (c : Nat) (s : State) : Host.Outcome State Fault Refusal :=
  let k := s.core c
  if !k.started then .next s
  else if k.cyc % 16 = 0 && !k.boundaryDone then exec (.wheelBoundary c) s
  else
    match k.issuer with
    | some sl => if sl < 62 && (s.thread c sl).proxy.isNone then issue c sl s else ticked c (ownerIssue c sl { s with ic := c, is := sl })
    | none => .next (s.tick c)

noncomputable def step (s : State) : Host.Outcome State Fault Refusal :=
  match s.inputs with
  | .event i :: rest => exec i { s with inputs := rest }
  | .core n :: rest => cycle n { s with inputs := rest }
  | .outside o :: rest => outside o { s with inputs := rest }
  | [] =>
    match s.agenda with
    | i :: rest => exec i { s with agenda := rest }
    | [] => cycle s.focus s

/-- s with an instruction stored where step fetches its next one (DESIGN CHOICE, log 1). -/
def State.withFetchWord (s : State) (_nbits w : Nat) : State := s.placeWord (leBytes w 4)

end Sys2Proof.Machine
end

