-- ==== Sys2Proof/Safety.lean ====
section
/-! DEFINITION. The terms in which statements are made: what a state must keep, what an instruction's operands must be for it to
run, and what it leaves alone. -/

namespace Sys2Proof.Safety

open Sys2Proof.Machine

/-- Every memory of the device is in canonical form: HBM4E, other devices' and the host's bytes, every core's banks. -/
def memoriesWf (s : State) : Bool :=
  Memory.wf s.mem && Memory.wf s.ext && s.cores.all fun e => Memory.wf e.2.sram

/-- The fields name registers of the thread's allocation, none of them a port. -/
def named (t : Thread) (l : List (BitVec 7)) : Prop := ∀ r ∈ l, isPort r = false ∧ t.rename r.toNat < t.bound

/-- The value of a register field. -/
def X (s : State) (r : BitVec 7) : Word := (s.cur.opnd r).val

/-- Some register that the fields name is fresh (spec/11 R250). -/
def fresh (s : State) (l : List (BitVec 7)) : Bool := l.any fun r => (s.cur.opnd r).fresh

/-- The issuing thread's next state: a register field is written and the next word follows. -/
def wrote (s : State) (d : BitVec 7) (v : Word) (f : Bool) : State := (s.setRd d v f).advance

/-- A predicate is written and the next word follows. -/
def wroteP (s : State) (p : BitVec 5) (b f : Bool) : State := (s.updCur fun t => t.setPred p b f).advance

/-- A floating result and its flags are written and the next word follows; a light thread records no flags (spec/04 R92). -/
def wroteF (s : State) (d : BitVec 7) (r : Word × Flags) (f : Bool) : State := ((s.setRd d r.1 f).addFflags r.2).advance

/-- The issuing thread goes on at an address. -/
def went (s : State) (pc : Word) : State := s.updCur fun t => { t.over with pc := pc }

/-- The issuing thread's access completes: the next word follows, and LATC holds the wait if the access has parked. -/
def completed (s : State) : State :=
  State.advance (s.updCur fun t =>
    match t.issued with
    | some i => { t with latc := saturate32 (t.woke.getD s.now - i) }
    | none => t)

/-- An aligned access of the issuing thread meets no fault: it translates, its device answers, and a light thread stands at its
home. -/
def reaches (s : State) (need : Need) (size : Nat) (va : VAddr) (t : Target) : Prop :=
  va.off.toNat % size = 0 ∧ s.xlate s.ic s.is need va = .ok t ∧ s.unreachable t = false ∧
  (s.cur.light = true → t.homeCore = some s.ic)

/-- The banks of a fixed-latency access grant it: no copy beat and no engine read holds one in this cycle, or the thread has forfeited
three issues (spec/07 R143). -/
def banksGrant (s : State) (banks : List Nat) : Bool :=
  !(decide (s.cur.forfeits < maxForfeits) && banks.any fun b => (s.core s.ic).busy.contains b)

/-- The issuing thread forfeits this issue: it counts, and its banks are asked for again (spec/07 R143). -/
def forfeited (s : State) (banks : List Nat) : State := s.updCur fun t => { t with forfeits := t.forfeits + 1, wants := banks }

/-- A vector instruction's checks pass: the vector feature is accepted, and its scalar fields, groups and implicit registers lie
within the thread's allocation. -/
def vectorReady (s : State) (regs : List (BitVec 7)) (groups : List (BitVec 3)) (implicit : List Nat) : Prop :=
  s.accepted 1 = true ∧ (∀ r ∈ regs, s.cur.rename r.toNat < s.cur.bound) ∧ (∀ k ∈ groups, 16 * k.toNat + 16 ≤ s.cur.bound) ∧
  (∀ n ∈ implicit, n < s.cur.bound)

/-- The loads (spec/04 R96), each with its size in bytes and whether it extends the sign. -/
def loads : List ((BitVec 8 → BitVec 7 → BitVec 7 → Instr) × Nat × Bool) :=
  [(.lb, 1, true), (.lh, 2, true), (.lw, 4, true), (.ld, 8, false), (.lbu, 1, false), (.lhu, 2, false), (.lwu, 4, false)]

/-- The stores (spec/04 R96), each with its size in bytes. -/
def stores : List ((BitVec 4 → BitVec 7 → BitVec 7 → BitVec 4 → Instr) × Nat) := [(.sb, 1), (.sh, 2), (.sw, 4), (.sd, 8)]

/-- The address X(rs1) + sext(imm8) × size in the thread's space. -/
def address (s : State) (a : BitVec 7) (i : BitVec 8) (size : Nat) : VAddr :=
  ⟨s.cur.space, X s a + BitVec.ofInt 64 (i.toInt * size)⟩

/-- The access bypasses the cache: its base or pw.SPACE is fresh (spec/11 R250). -/
def bypasses (s : State) (a : BitVec 7) : Bool := (s.cur.opnd a).fresh || s.cur.freshP.getLsbD 0

/-- Bytes as a register value, lowest byte first. -/
def loaded (size : Nat) (sgn : Bool) (b : List Byte) : Word :=
  if sgn then BitVec.ofInt 64 ((BitVec.ofNat (8 * size) (leNat b)).toInt) else BitVec.ofNat 64 (leNat b)

/-- The issuing thread parks, and an event will end its wait. -/
def parked (s : State) (w : Wait) (i : Instr) : State := (s.park w).emit i

/-- A release of a scope by the issuing thread passes (spec/11 R245, R252): the state after it, and the signature it carries. A
scope of the thread alone needs nothing, the core's the thread's REDs, and a wider one the steps of R245. -/
def releases (s : State) (sc : BitVec 3) (u : State) (g : BitVec 512) : Prop :=
  (sc = 0 ∧ u = s ∧ g = 0) ∨ (sc = 1 ∧ s.cur.reds = [] ∧ u = s ∧ g = 0) ∨
  (2 ≤ sc.toNat ∧ s.cur.reds = [] ∧ s.dirtyPinned s.ic = false ∧ u = s.releaseCore s.ic ∧ g = (u.core u.ic).carried)

/-- No pin holds a write-back that an acquire of a scope makes (spec/11 R247, spec/14 R304). -/
def mayAcquire (s : State) (sc : BitVec 3) : Prop := 2 ≤ sc.toNat → s.dirtyPinned s.ic = false

/-- An acquire of a scope applies a signature where the scope is wider than a core. -/
def acquires (s : State) (sc : BitVec 3) (g : BitVec 512) : State := if 2 ≤ sc.toNat then s.applySig s.ic g else s

/-- The access of a thread is over: a TLB.INV that waits for it goes on, and so does the halt of its instance (spec/18 R373,
spec/19 R398). -/
def replied (c sl : Nat) (s : State) : State :=
  match (s.thread c sl).wait with
  | some (.access _) => s
  | _ => (s.accessDone (some (c, sl)) none).settleHalted c sl

/-- Lane i of width w of group k (spec/05 R107). -/
def lane (t : Thread) (w k i : Nat) : Nat := t.group k / 2 ^ (w * i) % 2 ^ w

/-- Lane i is enabled: M is 0, or its bit of the mask g13 ‖ g12 is 1 (spec/02 R37). -/
def enables (t : Thread) (m : Bool) (i : Nat) : Bool := (t.enabled m).testBit i

/-- A vector instruction's effect: the lanes of group k hold the low bits of the values, the vector flags gain those reported, no
register outside the group changes, and nothing else but the pc does. -/
def vectorResult (s u : State) (w k : Nat) (value : Nat → Nat) (reports : Nat → Prop) : Prop :=
  (∀ j < 1024 / w, lane u.cur w k j = value j % 2 ^ w) ∧
  (∀ b, u.cur.vxf.getLsbD b = true ↔ s.cur.vxf.getLsbD b = true ∨ reports b) ∧
  (∀ n, n / 16 ≠ k → u.cur.reg n = s.cur.reg n) ∧
  u = (s.updCur fun t => { t with regs := u.cur.regs, fresh := u.cur.fresh, vxf := u.cur.vxf }).advance

/-- The instruction gives a next state that is a vector effect: the enabled ones of the first count lanes of group k hold the
results and report their flags, and the group's other lanes keep their values. -/
def writesLanes (s : State) (i : Instr) (w count k : Nat) (m : Bool) (r : Nat → LaneRes) : Prop :=
  ∃ u, exec i s = .next u ∧ vectorResult s u w k
    (fun j => if j < count ∧ enables s.cur m j = true then (r j).1 else lane s.cur w k j)
    (fun b => ∃ j < count, enables s.cur m j = true ∧ (Flags.vxf (r j).2 false).getLsbD b = true)

/-- 1 or 0. -/
def truth (b : Bool) : Word := if b then 1 else 0

/-- The next step of the state is an issue of a general thread: no input and no event waits, the core in focus has started and is
past its wheel boundary, and the slot, which holds a thread's context and no proxy, holds the position of the cycle. -/
def issues (s : State) (c sl : Nat) : Prop :=
  s.inputs = [] ∧ s.agenda = [] ∧ s.focus = c ∧ (s.core c).started = true ∧
  ((s.core c).cyc % 16 = 0 → (s.core c).boundaryDone = true) ∧ (s.core c).issuer = some sl ∧ sl < 62 ∧
  (s.thread c sl).proxy = none

/-- The issuing thread fetches a word: its pc is aligned and translates, and the four bytes there are the word's, none of them
poisoned. -/
def fetches (s : State) (t : Target) (w : InstrWord) : Prop :=
  s.cur.pc.toNat % 4 = 0 ∧ s.xlate s.ic s.is { x := true, noWindow := true } ⟨0, s.cur.pc⟩ = .ok t ∧
  (s.readPlace t.place 4).1 = wordBytes w ∧ (s.readPlace t.place 4).2.1 = none

/-- Integer instructions with fields rs2, rs1 and rd, two of them sources (spec/04 R84, R85, R87). -/
def threeFields : List (BitVec 7 → BitVec 7 → BitVec 7 → Instr) :=
  [.add, .sub, .and, .or, .xor, .andn, .sll, .srl, .sra, .ror, .slt, .sltu, .min, .max, .minu, .maxu, .mul, .mulh, .mulhu, .mulhsu,
    .div, .divu, .rem, .remu, .bfx, .bfxu]

/-- Integer instructions with fields rs1 and rd (spec/04 R86, R88), for an immediate and a shift amount. -/
def twoFields (i : BitVec 8) (h : BitVec 6) : List (BitVec 7 → BitVec 7 → Instr) :=
  [.clz, .ctz, .cpop, .bswap, .sextb, .sexth, .sextw, .zextw, .addi i, .slti i, .sltiu i, .xori i, .ori i, .andi i, .slli h, .srli h,
    .srai h, .rori h]

/-- Floating instructions with fields rs2, rs1 and rd, two of them sources (spec/04 R93, R94). -/
noncomputable def threeFloats : List (BitVec 7 → BitVec 7 → BitVec 7 → Instr) :=
  [.faddS, .fsubS, .fmulS, .fdivS, .fminS, .fmaxS, .feqS, .fltS, .fleS, .faddD, .fsubD, .fmulD, .fdivD, .fminD, .fmaxD, .feqD, .fltD,
    .fleD]

/-- Floating instructions with fields rs1 and rd (spec/04 R93 to R95). -/
noncomputable def twoFloats : List (BitVec 7 → BitVec 7 → Instr) :=
  [.fsqrtS, .fclassS, .fcvtSI, .fcvtSN, .fcvtIS, .fcvtNS, .fcvtWS, .fcvtNwS, .fcvtSD, .fcvtSB, .fcvtBS, .fsqrtD, .fclassD, .fcvtDI,
    .fcvtDN, .fcvtID, .fcvtND, .fcvtWD, .fcvtNwD, .fcvtDS, .fcvtDB, .fcvtBD]

/-- Only the issuing thread differs, and of it only its registers with their fresh marks, its flags and its pc. -/
def computes (s u : State) : Prop :=
  u.cur = { s.cur.over with
    regs := u.cur.regs, fresh := u.cur.fresh, fflags := u.cur.fflags
    pc := s.cur.pc + 4 } ∧
  (∀ c sl, ¬(c = s.ic ∧ sl = s.is) → u.thread c sl = s.thread c sl) ∧ { u with cores := s.cores } = s

/-- Every byte of HBM4E, of other devices and of the banks of every core reads as before. -/
def sameBytes (s u : State) : Prop :=
  (∀ a, memGet u.mem a = memGet s.mem a) ∧ (∀ a, memGet u.ext a = memGet s.ext a) ∧
  ∀ c a, memGet (u.core c).sram a = memGet (s.core c).sram a

/-- A run of k steps from s ends in a next state: it meets no fault and no refusal. -/
def runs (s : State) (k : Nat) : Prop := ∃ t, Host.Core.run Sys2Proof.core k s = .next t

end Sys2Proof.Safety
end

