-- ==== Sys2Proof/Certificates/Slice0/Obligations.lean ====
section
/-! DEFINITION. The statements for the provers: what the spec's rules say of the machine, family by family. -/

open Sys2Proof Sys2Proof.Machine Sys2Proof.Safety

/-! Words (spec/02). -/

/-- Words written field by field from the formats and the opcode map of spec/02 (R32, R36, R38, R40 to R46). -/
def Obligations.DecodedWords : Prop :=
  decode (0#4 ++ 2#7 ++ 1#7 ++ 3#7 ++ 0x33#7) = .ok (.add 2 1 3) ∧
  decode (3#3 ++ 0xFE#8 ++ 4#7 ++ 5#7 ++ 0x03#7) = .ok (.ld 0xFE 4 5) ∧
  decode (1#4 ++ 6#7 ++ 7#7 ++ 2#4 ++ 2#3 ++ 0x23#7) = .ok (.sw 1 6 7 2) ∧
  decode (0xF#4 ++ 8#7 ++ 9#7 ++ 0xC#4 ++ 1#3 ++ 0x63#7) = .ok (.bne 0xF 8 9 0xC) ∧
  decode (0x1FFFFFF#25 ++ 0x6F#7) = .ok (.jal 0x1FFFFFF) ∧
  decode (0x20001#18 ++ 10#7 ++ 0x37#7) = .ok (.liu 0x20001 10) ∧
  decode (0#4 ++ 1#3 ++ 0#4 ++ 2#3 ++ 0#4 ++ 3#3 ++ 8#4 ++ 0x53#7) = .ok (.vadd 1 0 2 0 3 8) ∧
  decode (10#4 ++ 11#7 ++ 12#7 ++ 13#7 ++ 0x2F#7) = .ok (.amoFadd 11 12 13) ∧
  decode (2#4 ++ 9#7 ++ 0#7 ++ 5#7 ++ 0x73#7) = .ok (.crr 9 5)

/-- The decoder reads back every instruction that has a word. -/
def Obligations.EncodeThenDecode : Prop := ∀ i : Instr, WellFormed i → decode (encode i) = .ok i

/-- A word that decodes is the word of the instruction it decodes to, which is well-formed. -/
def Obligations.DecodeThenEncode : Prop := ∀ (w : InstrWord) (i : Instr), decode w = .ok i → encode i = w ∧ WellFormed i

/-! The step (spec/01 R19, R25; DESIGN CHOICE, log 2). -/

/-- Four readable bytes at the issuing thread's pc that make a decodable word: the step executes its instruction, and the core's
counter advances. A word that does not decode, and a fetch that faults, take the exceptions of spec/18 R365: a misaligned pc cause 2,
a pc in the window region 7, an access or page fault 3 or 4, poison 12. -/
def Obligations.StepRunsDecoded : Prop :=
  ∀ (s : State) (c sl : Nat), issues s c sl →
    let u : State := { s with ic := c, is := sl }
    let need : Need := { x := true, noWindow := true }
    let pc : VAddr := ⟨0, u.cur.pc⟩
    (∀ (t : Target) (w : InstrWord), fetches u t w →
      (∀ i, decode w = .ok i → step s = ticked c (exec i u)) ∧
      (∀ e, decode w = .error e → step s = ticked c (exec (.illegalInstruction w) u))) ∧
    (u.cur.pc.toNat % 4 ≠ 0 → step s = ticked c (exec (.instructionFetchFault 2) u)) ∧
    (u.cur.pc.toNat % 4 = 0 →
      (u.xlate c sl need pc = .window → step s = ticked c (exec (.instructionFetchFault 7) u)) ∧
      (u.xlate c sl need pc = .access → step s = ticked c (exec (.instructionFetchFault 3) u)) ∧
      (u.xlate c sl need pc = .page → step s = ticked c (exec (.instructionFetchFault 4) u)) ∧
      (∀ t, u.xlate c sl need pc = .ok t → (u.readPlace t.place 4).2.1.isSome = true →
        step s = ticked c (exec (.instructionFetchFault 12) u)))

/-- What step does besides: an input first, else the agenda's first event, else the core in focus; a fetch that is misaligned or
that poison meets traps at once, with TVAL the pc, and a core's wheel boundary comes before its first issue. -/
def Obligations.StepTurns : Prop :=
  (∀ (s : State) (i : Instr) (r : List Turn), s.inputs = .event i :: r → step s = exec i { s with inputs := r }) ∧
  (∀ (s : State) (c : Nat) (r : List Turn), s.inputs = .core c :: r → step s = cycle c { s with inputs := r }) ∧
  (∀ (s : State) (o : Outside) (r : List Turn), s.inputs = .outside o :: r → step s = outside o { s with inputs := r }) ∧
  (∀ (s : State) (i : Instr) (r : List Instr), s.inputs = [] → s.agenda = i :: r → step s = exec i { s with agenda := r }) ∧
  (∀ s : State, s.inputs = [] → s.agenda = [] → (s.core s.focus).started = true → (s.core s.focus).cyc % 16 = 0 →
    (s.core s.focus).boundaryDone = false → step s = exec (.wheelBoundary s.focus) s) ∧
  (∀ (s : State) (c sl : Nat), issues s c sl → (s.thread c sl).pc.toNat % 4 ≠ 0 →
    step s = ticked c (trap 2 (s.thread c sl).pc { s with ic := c, is := sl })) ∧
  (∀ (s : State) (c sl : Nat) (t : Target), issues s c sl → (s.thread c sl).pc.toNat % 4 = 0 →
    State.xlate { s with ic := c, is := sl } c sl { x := true, noWindow := true } ⟨0, (s.thread c sl).pc⟩ = .ok t →
    (State.readPlace { s with ic := c, is := sl } t.place 4).2.1.isSome = true →
    step s = ticked c (trap 12 (s.thread c sl).pc { s with ic := c, is := sl }))

/-! Integer instructions (spec/04 R84 to R90). -/

/-- OP (R84): rd receives the value of the table, no flag is set and nothing traps; and the word of each f4. -/
def Obligations.IntegerOperations : Prop :=
  (∀ (s : State) (b a d : BitVec 7), named s.cur [a, b, d] →
    let x := X s a
    let y := X s b
    let h := y.toNat % 64
    let gives (v : Word) := Host.Outcome.next (wrote s d v (fresh s [a, b]))
    exec (.add b a d) s = gives (x + y) ∧
    exec (.sub b a d) s = gives (x - y) ∧
    exec (.and b a d) s = gives (x &&& y) ∧
    exec (.or b a d) s = gives (x ||| y) ∧
    exec (.xor b a d) s = gives (x ^^^ y) ∧
    exec (.andn b a d) s = gives (x &&& ~~~y) ∧
    exec (.sll b a d) s = gives (x <<< h) ∧
    exec (.srl b a d) s = gives (x >>> h) ∧
    exec (.sra b a d) s = gives (x.sshiftRight h) ∧
    exec (.ror b a d) s = gives (x.rotateRight h) ∧
    exec (.slt b a d) s = gives (truth (decide (x.toInt < y.toInt))) ∧
    exec (.sltu b a d) s = gives (truth (decide (x.toNat < y.toNat))) ∧
    exec (.min b a d) s = gives (if x.toInt < y.toInt then x else y) ∧
    exec (.max b a d) s = gives (if x.toInt < y.toInt then y else x) ∧
    exec (.minu b a d) s = gives (if x.toNat < y.toNat then x else y) ∧
    exec (.maxu b a d) s = gives (if x.toNat < y.toNat then y else x)) ∧
  (∀ b a d : BitVec 7,
    encode (.add b a d) = 0#4 ++ b ++ a ++ d ++ 0x33#7 ∧ encode (.sub b a d) = 1#4 ++ b ++ a ++ d ++ 0x33#7 ∧
    encode (.and b a d) = 2#4 ++ b ++ a ++ d ++ 0x33#7 ∧ encode (.or b a d) = 3#4 ++ b ++ a ++ d ++ 0x33#7 ∧
    encode (.xor b a d) = 4#4 ++ b ++ a ++ d ++ 0x33#7 ∧ encode (.andn b a d) = 5#4 ++ b ++ a ++ d ++ 0x33#7 ∧
    encode (.sll b a d) = 6#4 ++ b ++ a ++ d ++ 0x33#7 ∧ encode (.srl b a d) = 7#4 ++ b ++ a ++ d ++ 0x33#7 ∧
    encode (.sra b a d) = 8#4 ++ b ++ a ++ d ++ 0x33#7 ∧ encode (.ror b a d) = 9#4 ++ b ++ a ++ d ++ 0x33#7 ∧
    encode (.slt b a d) = 10#4 ++ b ++ a ++ d ++ 0x33#7 ∧ encode (.sltu b a d) = 11#4 ++ b ++ a ++ d ++ 0x33#7 ∧
    encode (.min b a d) = 12#4 ++ b ++ a ++ d ++ 0x33#7 ∧ encode (.max b a d) = 13#4 ++ b ++ a ++ d ++ 0x33#7 ∧
    encode (.minu b a d) = 14#4 ++ b ++ a ++ d ++ 0x33#7 ∧ encode (.maxu b a d) = 15#4 ++ b ++ a ++ d ++ 0x33#7)

/-- MUL (R85): the products; division toward zero, the remainder with the sign of the dividend; the table of the cases that never
trap; and the word of each f4, of which 8 to 15 are refused. -/
def Obligations.MultiplicationAndDivision : Prop :=
  (∀ (s : State) (b a d : BitVec 7), named s.cur [a, b, d] →
    let x := X s a
    let y := X s b
    let gives (v : Word) := Host.Outcome.next (wrote s d v (fresh s [a, b]))
    exec (.mul b a d) s = gives (BitVec.ofNat 64 (x.toNat * y.toNat)) ∧
    exec (.mulh b a d) s = gives (BitVec.ofInt 64 (x.toInt * y.toInt / 2 ^ 64)) ∧
    exec (.mulhu b a d) s = gives (BitVec.ofNat 64 (x.toNat * y.toNat / 2 ^ 64)) ∧
    exec (.mulhsu b a d) s = gives (BitVec.ofInt 64 (x.toInt * y.toNat / 2 ^ 64)) ∧
    (y = 0 → exec (.div b a d) s = gives (-1) ∧ exec (.divu b a d) s = gives (-1) ∧ exec (.rem b a d) s = gives x ∧ exec (.remu b a d) s = gives x) ∧
    (x = BitVec.ofInt 64 (-2 ^ 63) → y = -1 → exec (.div b a d) s = gives x ∧ exec (.rem b a d) s = gives 0) ∧
    (y ≠ 0 → ¬(x = BitVec.ofInt 64 (-2 ^ 63) ∧ y = -1) →
      ∃ q r : Word, exec (.div b a d) s = gives q ∧ exec (.rem b a d) s = gives r ∧
        q.toInt * y.toInt + r.toInt = x.toInt ∧ r.toInt.natAbs < y.toInt.natAbs ∧ (0 ≤ x.toInt → 0 ≤ r.toInt) ∧ (x.toInt ≤ 0 → r.toInt ≤ 0)) ∧
    (y ≠ 0 → ∃ q r : Word, exec (.divu b a d) s = gives q ∧ exec (.remu b a d) s = gives r ∧
      q.toNat * y.toNat + r.toNat = x.toNat ∧ r.toNat < y.toNat)) ∧
  (∀ b a d : BitVec 7,
    encode (.mul b a d) = 0#4 ++ b ++ a ++ d ++ 0x3B#7 ∧ encode (.mulh b a d) = 1#4 ++ b ++ a ++ d ++ 0x3B#7 ∧
    encode (.mulhu b a d) = 2#4 ++ b ++ a ++ d ++ 0x3B#7 ∧ encode (.mulhsu b a d) = 3#4 ++ b ++ a ++ d ++ 0x3B#7 ∧
    encode (.div b a d) = 4#4 ++ b ++ a ++ d ++ 0x3B#7 ∧ encode (.divu b a d) = 5#4 ++ b ++ a ++ d ++ 0x3B#7 ∧
    encode (.rem b a d) = 6#4 ++ b ++ a ++ d ++ 0x3B#7 ∧ encode (.remu b a d) = 7#4 ++ b ++ a ++ d ++ 0x3B#7 ∧
    ∀ f : BitVec 4, 8 ≤ f.toNat → ∃ e, decode (f ++ b ++ a ++ d ++ 0x3B#7) = .error e)

/-- BIT, unary (R86), bit by bit; and the word of each f4, with rs2 0, of which 11 to 15 are refused. -/
def Obligations.BitCounts : Prop :=
  (∀ (s : State) (a d : BitVec 7), named s.cur [a, d] →
    let x := X s a
    let gives (v : Word) := Host.Outcome.next (wrote s d v (fresh s [a]))
    (∃ n ≤ 64, exec (.clz a d) s = gives (BitVec.ofNat 64 n) ∧ (∀ k < n, x.getLsbD (63 - k) = false) ∧ (n < 64 → x.getLsbD (63 - n) = true)) ∧
    (∃ n ≤ 64, exec (.ctz a d) s = gives (BitVec.ofNat 64 n) ∧ (∀ k < n, x.getLsbD k = false) ∧ (n < 64 → x.getLsbD n = true)) ∧
    exec (.cpop a d) s = gives (BitVec.ofNat 64 ((List.range 64).countP fun k => x.getLsbD k)) ∧
    (∃ v, exec (.bswap a d) s = gives v ∧ ∀ k < 64, v.getLsbD k = x.getLsbD (8 * (7 - k / 8) + k % 8)) ∧
    (∃ v, exec (.sextb a d) s = gives v ∧ ∀ k < 64, v.getLsbD k = x.getLsbD (min k 7)) ∧
    (∃ v, exec (.sexth a d) s = gives v ∧ ∀ k < 64, v.getLsbD k = x.getLsbD (min k 15)) ∧
    (∃ v, exec (.sextw a d) s = gives v ∧ ∀ k < 64, v.getLsbD k = x.getLsbD (min k 31)) ∧
    (∃ v, exec (.zextw a d) s = gives v ∧ ∀ k < 64, v.getLsbD k = (decide (k < 32) && x.getLsbD k))) ∧
  (∀ a d : BitVec 7,
    encode (.clz a d) = 0#4 ++ 0#7 ++ a ++ d ++ 0x3F#7 ∧ encode (.ctz a d) = 1#4 ++ 0#7 ++ a ++ d ++ 0x3F#7 ∧
    encode (.cpop a d) = 2#4 ++ 0#7 ++ a ++ d ++ 0x3F#7 ∧ encode (.sextb a d) = 3#4 ++ 0#7 ++ a ++ d ++ 0x3F#7 ∧
    encode (.sexth a d) = 4#4 ++ 0#7 ++ a ++ d ++ 0x3F#7 ∧ encode (.sextw a d) = 5#4 ++ 0#7 ++ a ++ d ++ 0x3F#7 ∧
    encode (.zextw a d) = 6#4 ++ 0#7 ++ a ++ d ++ 0x3F#7 ∧ encode (.bswap a d) = 7#4 ++ 0#7 ++ a ++ d ++ 0x3F#7 ∧
    ∀ (f : BitVec 4) (b : BitVec 7), 11 ≤ f.toNat → ∃ e, decode (f ++ b ++ a ++ d ++ 0x3F#7) = .error e)

/-- Bit fields (R87), bit by bit, and their f4 values. -/
def Obligations.BitFields : Prop :=
  ∀ (s : State) (b a d : BitVec 7), named s.cur [a, b, d] →
    let x := X s a
    let pos := (X s b).toNat % 64
    let n := min ((X s b).toNat / 256 % 128) (64 - pos)
    (∃ v, exec (.bfx b a d) s = .next (wrote s d v (fresh s [a, b])) ∧
      ∀ k < 64, v.getLsbD k = (decide (0 < n) && x.getLsbD (pos + min k (n - 1)))) ∧
    (∃ v, exec (.bfxu b a d) s = .next (wrote s d v (fresh s [a, b])) ∧
      ∀ k < 64, v.getLsbD k = (decide (k < n) && x.getLsbD (pos + k))) ∧
    (∃ v, exec (.bfi b a d) s = .next (wrote s d v (fresh s [a, b, d])) ∧
      ∀ k < 64, v.getLsbD k = if pos ≤ k ∧ k < pos + n then x.getLsbD (k - pos) else (X s d).getLsbD k) ∧
    encode (.bfx b a d) = 8#4 ++ b ++ a ++ d ++ 0x3F#7 ∧ encode (.bfxu b a d) = 9#4 ++ b ++ a ++ d ++ 0x3F#7 ∧
    encode (.bfi b a d) = 10#4 ++ b ++ a ++ d ++ 0x3F#7

/-- OP-IMM and constants (R88, R89), with the words of their f3 values, selectors and opcode bytes. -/
def Obligations.Immediates : Prop :=
  (∀ (s : State) (a d : BitVec 7), named s.cur [a, d] →
    let x := X s a
    let gives (v : Word) := Host.Outcome.next (wrote s d v (fresh s [a]))
    (∀ i : BitVec 8,
      let k : Word := i.signExtend 64
      exec (.addi i a d) s = gives (x + k) ∧
      exec (.slti i a d) s = gives (truth (decide (x.toInt < i.toInt))) ∧
      exec (.sltiu i a d) s = gives (truth (decide (x.toNat < k.toNat))) ∧
      exec (.xori i a d) s = gives (x ^^^ k) ∧
      exec (.ori i a d) s = gives (x ||| k) ∧
      exec (.andi i a d) s = gives (x &&& k)) ∧
    (∀ h : BitVec 6,
      exec (.slli h a d) s = gives (x <<< h.toNat) ∧
      exec (.srli h a d) s = gives (x >>> h.toNat) ∧
      exec (.srai h a d) s = gives (x.sshiftRight h.toNat) ∧
      exec (.rori h a d) s = gives (x.rotateRight h.toNat)) ∧
    (∀ i : BitVec 18,
      exec (.liu i d) s = .next (wrote s d (BitVec.ofInt 64 (i.toInt * 2 ^ 14)) false) ∧
      exec (.addpc i d) s = .next (wrote s d (s.cur.pc + BitVec.ofInt 64 (i.toInt * 2 ^ 14)) false) ∧
      exec (.addl i d) s = .next (wrote s d (X s d + BitVec.ofInt 64 i.toInt) (fresh s [d])))) ∧
  (∀ (i : BitVec 8) (a d : BitVec 7),
    encode (.addi i a d) = 0#3 ++ i ++ a ++ d ++ 0x13#7 ∧ encode (.slti i a d) = 1#3 ++ i ++ a ++ d ++ 0x13#7 ∧
    encode (.sltiu i a d) = 2#3 ++ i ++ a ++ d ++ 0x13#7 ∧ encode (.xori i a d) = 3#3 ++ i ++ a ++ d ++ 0x13#7 ∧
    encode (.ori i a d) = 4#3 ++ i ++ a ++ d ++ 0x13#7 ∧ encode (.andi i a d) = 5#3 ++ i ++ a ++ d ++ 0x13#7) ∧
  (∀ (h : BitVec 6) (a d : BitVec 7),
    encode (.slli h a d) = 6#3 ++ (0#2 ++ h) ++ a ++ d ++ 0x13#7 ∧ encode (.srli h a d) = 6#3 ++ (1#2 ++ h) ++ a ++ d ++ 0x13#7 ∧
    encode (.srai h a d) = 6#3 ++ (2#2 ++ h) ++ a ++ d ++ 0x13#7 ∧ encode (.rori h a d) = 6#3 ++ (3#2 ++ h) ++ a ++ d ++ 0x13#7) ∧
  (∀ (i : BitVec 18) (d : BitVec 7), encode (.liu i d) = i ++ d ++ 0x37#7 ∧ encode (.addpc i d) = i ++ d ++ 0x17#7 ∧ encode (.addl i d) = i ++ d ++ 0x1F#7)

/-- PRED (R90), with the word of each f4; 14 and 15 are refused. -/
def Obligations.Predicates : Prop :=
  (∀ (s : State) (b a : BitVec 7) (p : BitVec 5), named s.cur [a, b] →
    let x := X s a
    let y := X s b
    let gives (v : Bool) := Host.Outcome.next (wroteP s p v (fresh s [a, b]))
    exec (.peq b a p) s = gives (decide (x = y)) ∧
    exec (.pne b a p) s = gives (decide (x ≠ y)) ∧
    exec (.plt b a p) s = gives (decide (x.toInt < y.toInt)) ∧
    exec (.pge b a p) s = gives (decide (y.toInt ≤ x.toInt)) ∧
    exec (.pltu b a p) s = gives (decide (x.toNat < y.toNat)) ∧
    exec (.pgeu b a p) s = gives (decide (y.toNat ≤ x.toNat))) ∧
  (∀ (s : State) (q r p : BitVec 5),
    let x := s.cur.pred r
    let y := s.cur.pred q
    (∃ f, exec (.pand q r p) s = .next (wroteP s p (x && y) f)) ∧
    (∃ f, exec (.por q r p) s = .next (wroteP s p (x || y) f)) ∧
    (∃ f, exec (.pxor q r p) s = .next (wroteP s p (x != y) f)) ∧
    (∃ f, exec (.pnot r p) s = .next (wroteP s p (!x) f))) ∧
  (∀ (s : State) (r : BitVec 5) (d : BitVec 7), named s.cur [d] →
    (∃ f, exec (.mvp r d) s = .next (wrote s d (truth (s.cur.pred r)) f)) ∧
    (∃ f, exec (.mvnp r d) s = .next (wrote s d (truth (!s.cur.pred r)) f)) ∧
    (∃ f, exec (.prd d) s = .next (wrote s d s.cur.pw f))) ∧
  (∀ (s : State) (a : BitVec 7), named s.cur [a] →
    ∃ t : State, exec (.pwr a) s = .next t ∧ t.cur.space = (X s a).extractLsb' 32 8 ∧
      (∀ p : BitVec 5, t.cur.pred p = if p = 0 then true else (X s a).getLsbD p.toNat) ∧
      t = (s.updCur fun u => { u with pw := t.cur.pw, freshP := t.cur.freshP }).advance) ∧
  (∀ (b a : BitVec 7) (p : BitVec 5),
    encode (.peq b a p) = 0#4 ++ b ++ a ++ (0#2 ++ p) ++ 0x1B#7 ∧ encode (.pne b a p) = 1#4 ++ b ++ a ++ (0#2 ++ p) ++ 0x1B#7 ∧
    encode (.plt b a p) = 2#4 ++ b ++ a ++ (0#2 ++ p) ++ 0x1B#7 ∧ encode (.pge b a p) = 3#4 ++ b ++ a ++ (0#2 ++ p) ++ 0x1B#7 ∧
    encode (.pltu b a p) = 4#4 ++ b ++ a ++ (0#2 ++ p) ++ 0x1B#7 ∧ encode (.pgeu b a p) = 5#4 ++ b ++ a ++ (0#2 ++ p) ++ 0x1B#7) ∧
  (∀ (q r p : BitVec 5) (a d : BitVec 7),
    encode (.pand q r p) = 6#4 ++ (0#2 ++ q) ++ (0#2 ++ r) ++ (0#2 ++ p) ++ 0x1B#7 ∧
    encode (.por q r p) = 7#4 ++ (0#2 ++ q) ++ (0#2 ++ r) ++ (0#2 ++ p) ++ 0x1B#7 ∧
    encode (.pxor q r p) = 8#4 ++ (0#2 ++ q) ++ (0#2 ++ r) ++ (0#2 ++ p) ++ 0x1B#7 ∧
    encode (.pnot r p) = 9#4 ++ 0#7 ++ (0#2 ++ r) ++ (0#2 ++ p) ++ 0x1B#7 ∧
    encode (.mvp r d) = 10#4 ++ 0#7 ++ (0#2 ++ r) ++ d ++ 0x1B#7 ∧ encode (.mvnp r d) = 11#4 ++ 0#7 ++ (0#2 ++ r) ++ d ++ 0x1B#7 ∧
    encode (.prd d) = 12#4 ++ 0#7 ++ 0#7 ++ d ++ 0x1B#7 ∧ encode (.pwr a) = 13#4 ++ 0#7 ++ a ++ 0#7 ++ 0x1B#7) ∧
  (∀ (f : BitVec 4) (b a d : BitVec 7), 14 ≤ f.toNat → ∃ e, decode (f ++ b ++ a ++ d ++ 0x1B#7) = .error e)

/-! Floating point (spec/04 R91 to R95). -/

/-- R93: every result is the exact one rounded once by FRM.MODE (RNE in a light thread), with the flags of R65. -/
def Obligations.FloatArithmetic : Prop :=
  ∀ (s : State) (b a d : BitVec 7), named s.cur [a, b, d] →
    let rm := s.cur.roundMode
    let gives (f : Fmt) (v : Exact) := Host.Outcome.next (wroteF s d (roundTo f rm v) (fresh s [a, b]))
    let gives3 (f : Fmt) (v : Exact) := Host.Outcome.next (wroteF s d (roundTo f rm v) (fresh s [a, b, d]))
    let x (f : Fmt) := fval f (X s a)
    let y (f : Fmt) := fval f (X s b)
    let z (f : Fmt) := fval f (X s d)
    exec (.faddS b a d) s = gives .fp32 (exact (Val.add rm (x .fp32) (y .fp32))) ∧
    exec (.fsubS b a d) s = gives .fp32 (exact (Val.add rm (x .fp32) (Val.neg (y .fp32)))) ∧
    exec (.fmulS b a d) s = gives .fp32 (exact (Val.mul (x .fp32) (y .fp32))) ∧
    exec (.fdivS b a d) s = gives .fp32 (Val.div (x .fp32) (y .fp32)) ∧
    exec (.fsqrtS a d) s = .next (wroteF s d (roundTo .fp32 rm (Val.sqrt (x .fp32))) (fresh s [a])) ∧
    exec (.ffmaS b a d) s = gives3 .fp32 (exact (Val.fma rm (x .fp32) (y .fp32) (z .fp32))) ∧
    exec (.ffmsS b a d) s = gives3 .fp32 (exact (Val.fma rm (x .fp32) (y .fp32) (Val.neg (z .fp32)))) ∧
    exec (.faddD b a d) s = gives .fp64 (exact (Val.add rm (x .fp64) (y .fp64))) ∧
    exec (.fsubD b a d) s = gives .fp64 (exact (Val.add rm (x .fp64) (Val.neg (y .fp64)))) ∧
    exec (.fmulD b a d) s = gives .fp64 (exact (Val.mul (x .fp64) (y .fp64))) ∧
    exec (.fdivD b a d) s = gives .fp64 (Val.div (x .fp64) (y .fp64)) ∧
    exec (.fsqrtD a d) s = .next (wroteF s d (roundTo .fp64 rm (Val.sqrt (x .fp64))) (fresh s [a])) ∧
    exec (.ffmaD b a d) s = gives3 .fp64 (exact (Val.fma rm (x .fp64) (y .fp64) (z .fp64))) ∧
    exec (.ffmsD b a d) s = gives3 .fp64 (exact (Val.fma rm (x .fp64) (y .fp64) (Val.neg (z .fp64))))

/-- FMIN, FMAX and FSGNJ (R93): no flags and no rounding. -/
def Obligations.FloatSelection : Prop :=
  ∀ (s : State) (b a d : BitVec 7), named s.cur [a, b, d] →
    let picks (f : Fmt) (larger : Bool) : Word := BitVec.ofNat 64 (Fmt.encode f (pick larger (fval f (X s a)) (fval f (X s b))))
    let signed (w : Nat) : Word := if (X s b).getLsbD (w - 1) then BitVec.ofNat 64 ((X s a).toNat % 2 ^ (w - 1) + 2 ^ (w - 1))
      else BitVec.ofNat 64 ((X s a).toNat % 2 ^ (w - 1))
    let no : Flags := {}
    exec (.fminS b a d) s = .next (wroteF s d (picks .fp32 false, no) (fresh s [a, b])) ∧
    exec (.fmaxS b a d) s = .next (wroteF s d (picks .fp32 true, no) (fresh s [a, b])) ∧
    (Val.isNan (fval .fp32 (X s a)) = true → exec (.fsgnjS b a d) s = .next (wrote s d (BitVec.ofNat 64 (Fmt.nan .fp32)) (fresh s [a]))) ∧
    (Val.isNan (fval .fp32 (X s a)) = false → exec (.fsgnjS b a d) s = .next (wrote s d (signed 32) (fresh s [a, b]))) ∧
    exec (.fminD b a d) s = .next (wroteF s d (picks .fp64 false, no) (fresh s [a, b])) ∧
    exec (.fmaxD b a d) s = .next (wroteF s d (picks .fp64 true, no) (fresh s [a, b])) ∧
    (Val.isNan (fval .fp64 (X s a)) = true → exec (.fsgnjD b a d) s = .next (wrote s d (BitVec.ofNat 64 (Fmt.nan .fp64)) (fresh s [a]))) ∧
    (Val.isNan (fval .fp64 (X s a)) = false → exec (.fsgnjD b a d) s = .next (wrote s d (signed 64) (fresh s [a, b])))

/-- R94: comparisons and classes, with their f4 values. -/
def Obligations.FloatComparisons : Prop :=
  ∀ (s : State) (b a d : BitVec 7), named s.cur [a, b, d] →
    let x (f : Fmt) := fval f (X s a)
    let y (f : Fmt) := fval f (X s b)
    let nan (f : Fmt) : Flags := { nv := Val.isNan (x f) || Val.isNan (y f) }
    let no : Flags := {}
    let gives (v : Bool) (r : Flags) := Host.Outcome.next (wroteF s d (truth v, r) (fresh s [a, b]))
    exec (.feqS b a d) s = gives (Val.eq (x .fp32) (y .fp32)) no ∧
    exec (.fltS b a d) s = gives (Val.lt (x .fp32) (y .fp32)) (nan .fp32) ∧
    exec (.fleS b a d) s = gives (Val.lt (x .fp32) (y .fp32) || Val.eq (x .fp32) (y .fp32)) (nan .fp32) ∧
    (∃ k ≤ 8, exec (.fclassS a d) s = .next (wroteF s d (BitVec.ofNat 64 (2 ^ k), no) (fresh s [a])) ∧
      (k = 8 ↔ x .fp32 = .nan) ∧ (k = 0 ↔ x .fp32 = .inf true) ∧ (k = 7 ↔ x .fp32 = .inf false) ∧
      (k = 3 ↔ ∃ e, x .fp32 = .fin true 0 e) ∧ (k = 4 ↔ ∃ e, x .fp32 = .fin false 0 e) ∧
      (k = 2 ↔ ∃ n e, x .fp32 = .fin true n e ∧ 0 < n ∧ n < 2 ^ Fmt.m .fp32) ∧ (k = 5 ↔ ∃ n e, x .fp32 = .fin false n e ∧ 0 < n ∧ n < 2 ^ Fmt.m .fp32) ∧
      (k = 1 ↔ ∃ n e, x .fp32 = .fin true n e ∧ 2 ^ Fmt.m .fp32 ≤ n) ∧ (k = 6 ↔ ∃ n e, x .fp32 = .fin false n e ∧ 2 ^ Fmt.m .fp32 ≤ n)) ∧
    exec (.feqD b a d) s = gives (Val.eq (x .fp64) (y .fp64)) no ∧
    exec (.fltD b a d) s = gives (Val.lt (x .fp64) (y .fp64)) (nan .fp64) ∧
    exec (.fleD b a d) s = gives (Val.lt (x .fp64) (y .fp64) || Val.eq (x .fp64) (y .fp64)) (nan .fp64) ∧
    (∃ k ≤ 8, exec (.fclassD a d) s = .next (wroteF s d (BitVec.ofNat 64 (2 ^ k), no) (fresh s [a])) ∧
      (k = 8 ↔ x .fp64 = .nan) ∧ (k = 0 ↔ x .fp64 = .inf true) ∧ (k = 7 ↔ x .fp64 = .inf false) ∧
      (k = 3 ↔ ∃ e, x .fp64 = .fin true 0 e) ∧ (k = 4 ↔ ∃ e, x .fp64 = .fin false 0 e) ∧
      (k = 2 ↔ ∃ n e, x .fp64 = .fin true n e ∧ 0 < n ∧ n < 2 ^ Fmt.m .fp64) ∧ (k = 5 ↔ ∃ n e, x .fp64 = .fin false n e ∧ 0 < n ∧ n < 2 ^ Fmt.m .fp64) ∧
      (k = 1 ↔ ∃ n e, x .fp64 = .fin true n e ∧ 2 ^ Fmt.m .fp64 ≤ n) ∧ (k = 6 ↔ ∃ n e, x .fp64 = .fin false n e ∧ 2 ^ Fmt.m .fp64 ≤ n)) ∧
    (encode (.feqS b a d) = 9#4 ++ b ++ a ++ d ++ 0x43#7 ∧ encode (.fltS b a d) = 10#4 ++ b ++ a ++ d ++ 0x43#7 ∧
      encode (.fleS b a d) = 11#4 ++ b ++ a ++ d ++ 0x43#7 ∧ encode (.fclassS a d) = 8#4 ++ 0#7 ++ a ++ d ++ 0x43#7 ∧
      encode (.feqD b a d) = 9#4 ++ b ++ a ++ d ++ 0x47#7 ∧ encode (.fltD b a d) = 10#4 ++ b ++ a ++ d ++ 0x47#7 ∧
      encode (.fleD b a d) = 11#4 ++ b ++ a ++ d ++ 0x47#7 ∧ encode (.fclassD a d) = 8#4 ++ 0#7 ++ a ++ d ++ 0x47#7)

/-- R95: conversions, each rounded once; to an integer, clamped to its range. -/
def Obligations.FloatConversions : Prop :=
  ∀ (s : State) (a d : BitVec 7), named s.cur [a, d] →
    let rm := s.cur.roundMode
    let x := X s a
    let gives (r : Word × Flags) := Host.Outcome.next (wroteF s d r (fresh s [a]))
    let float (f : Fmt) (v : Val) := gives (roundTo f rm (v, false, {}))
    let integer (f : Fmt) (lo hi : Int) := gives (BitVec.ofInt 64 (roundInt lo hi (fval f x) false rm).1, (roundInt lo hi (fval f x) false rm).2)
    exec (.fcvtSI a d) s = float .fp32 (Val.ofInt x.toInt) ∧
    exec (.fcvtSN a d) s = float .fp32 (Val.ofInt x.toNat) ∧
    exec (.fcvtIS a d) s = integer .fp32 (-2 ^ 63) (2 ^ 63 - 1) ∧
    exec (.fcvtNS a d) s = integer .fp32 0 (2 ^ 64 - 1) ∧
    exec (.fcvtWS a d) s = integer .fp32 (-2 ^ 31) (2 ^ 31 - 1) ∧
    exec (.fcvtNwS a d) s = integer .fp32 0 (2 ^ 32 - 1) ∧
    exec (.fcvtSD a d) s = float .fp32 (fval .fp64 x) ∧
    exec (.fcvtSB a d) s = float .fp32 (fval .bf16 x) ∧
    exec (.fcvtBS a d) s = float .bf16 (fval .fp32 x) ∧
    exec (.fcvtDI a d) s = float .fp64 (Val.ofInt x.toInt) ∧
    exec (.fcvtDN a d) s = float .fp64 (Val.ofInt x.toNat) ∧
    exec (.fcvtID a d) s = integer .fp64 (-2 ^ 63) (2 ^ 63 - 1) ∧
    exec (.fcvtND a d) s = integer .fp64 0 (2 ^ 64 - 1) ∧
    exec (.fcvtWD a d) s = integer .fp64 (-2 ^ 31) (2 ^ 31 - 1) ∧
    exec (.fcvtNwD a d) s = integer .fp64 0 (2 ^ 32 - 1) ∧
    exec (.fcvtDS a d) s = float .fp64 (fval .fp32 x) ∧
    exec (.fcvtDB a d) s = float .fp64 (fval .bf16 x) ∧
    exec (.fcvtBD a d) s = float .bf16 (fval .fp64 x)

/-- R92: whatever the other operands and the rounding mode, a sum, a difference, a product, a quotient, a root or a fused result
that takes a NaN operand is the canonical NaN (R60), and it reports nothing but NV, which only a fused operation reports, and just
when its factors are an infinity and a zero (R93). -/
def Obligations.FloatNaN : Prop :=
  ∀ (s : State) (b a d : BitVec 7), named s.cur [a, b, d] →
    let fused (f : Fmt) (i j : Instr) (w : Word) : Prop :=
      fval f (X s a) = .nan ∨ fval f (X s b) = .nan ∨ fval f (X s d) = .nan →
        ∃ nv : Bool, (nv = true ↔ ∃ p q e, (fval f (X s a) = .inf p ∧ fval f (X s b) = .fin q 0 e) ∨
            (fval f (X s b) = .inf p ∧ fval f (X s a) = .fin q 0 e)) ∧
          ∃ t, exec i s = .next t ∧ exec j s = .next t ∧ t = wroteF s d (w, { nv := nv }) (fresh s [a, b, d])
    (fval .fp32 (X s a) = .nan → exec (.fsqrtS a d) s = .next (wroteF s d (0x7FC00000, {}) (fresh s [a]))) ∧
    (fval .fp64 (X s a) = .nan → exec (.fsqrtD a d) s = .next (wroteF s d (0x7FF8000000000000, {}) (fresh s [a]))) ∧
    fused .fp32 (.ffmaS b a d) (.ffmsS b a d) 0x7FC00000 ∧
    fused .fp64 (.ffmaD b a d) (.ffmsD b a d) 0x7FF8000000000000 ∧
    (fval .fp32 (X s a) = .nan ∨ fval .fp32 (X s b) = .nan →
      ∃ t, exec (.faddS b a d) s = .next t ∧ exec (.fsubS b a d) s = .next t ∧ exec (.fmulS b a d) s = .next t ∧
        exec (.fdivS b a d) s = .next t ∧ t = wroteF s d (0x7FC00000, {}) (fresh s [a, b])) ∧
    (fval .fp64 (X s a) = .nan ∨ fval .fp64 (X s b) = .nan →
      ∃ t, exec (.faddD b a d) s = .next t ∧ exec (.fsubD b a d) s = .next t ∧ exec (.fmulD b a d) s = .next t ∧
        exec (.fdivD b a d) s = .next t ∧ t = wroteF s d (0x7FF8000000000000, {}) (fresh s [a, b]))

/-! Branches and jumps (spec/04 R100 to R104). -/

/-- A branch on registers or on a predicate goes to its own address + imm8 × 4 when it is taken, else on to the next word, and
changes nothing else (R100, R101); and the word of each f3. -/
def Obligations.Branches : Prop :=
  (∀ (s : State) (i j : BitVec 4),
    let target := s.cur.pc + BitVec.ofInt 64 ((i ++ j).toInt * 4)
    let goes (taken : Bool) := Host.Outcome.next (went s (if taken then target else s.cur.pc + 4))
    (∀ b a : BitVec 7, named s.cur [a, b] →
      let x := X s a
      let y := X s b
      exec (.beq i b a j) s = goes (decide (x = y)) ∧
      exec (.bne i b a j) s = goes (decide (x ≠ y)) ∧
      exec (.blt i b a j) s = goes (decide (x.toInt < y.toInt)) ∧
      exec (.bge i b a j) s = goes (decide (y.toInt ≤ x.toInt)) ∧
      exec (.bltu i b a j) s = goes (decide (x.toNat < y.toNat)) ∧
      exec (.bgeu i b a j) s = goes (decide (y.toNat ≤ x.toNat))) ∧
    (∀ p : BitVec 5, exec (.bp i p j) s = goes (s.cur.pred p) ∧ exec (.bnp i p j) s = goes (!s.cur.pred p))) ∧
  (∀ (i : BitVec 4) (b a : BitVec 7) (j : BitVec 4) (p : BitVec 5),
    encode (.beq i b a j) = i ++ b ++ a ++ j ++ 0#3 ++ 0x63#7 ∧ encode (.bne i b a j) = i ++ b ++ a ++ j ++ 1#3 ++ 0x63#7 ∧
    encode (.blt i b a j) = i ++ b ++ a ++ j ++ 2#3 ++ 0x63#7 ∧ encode (.bge i b a j) = i ++ b ++ a ++ j ++ 3#3 ++ 0x63#7 ∧
    encode (.bltu i b a j) = i ++ b ++ a ++ j ++ 4#3 ++ 0x63#7 ∧ encode (.bgeu i b a j) = i ++ b ++ a ++ j ++ 5#3 ++ 0x63#7 ∧
    encode (.bp i p j) = i ++ (0#1 ++ 0#1 ++ p) ++ 0#7 ++ j ++ 6#3 ++ 0x63#7 ∧
    encode (.bnp i p j) = i ++ (1#1 ++ 0#1 ++ p) ++ 0#7 ++ j ++ 6#3 ++ 0x63#7)

/-- BRB (R102): the count register named before the rotation is decremented, the region rotates by one when it is active, and the
loop goes on unless the count is 0; no other register changes. -/
def Obligations.LoopBranch : Prop :=
  ∀ (s : State) (i : BitVec 4) (a : BitVec 7) (j : BitVec 4), named s.cur [a] →
    let u := s.cur
    let n := u.rename a.toNat
    let cnt := u.reg n - 1
    ∃ t : State, exec (.brb i a j) s = .next t ∧
      t.cur.reg n = (if n = 0 then 0 else cnt) ∧
      (∀ m, m ≠ n → t.cur.reg m = u.reg m) ∧
      t.cur.rrb.toNat = (if u.active then (u.rrb.toNat + u.rrsz.toNat - 1) % u.rrsz.toNat else u.rrb.toNat) ∧
      t.cur.pc = (if cnt ≠ 0 then u.pc + BitVec.ofInt 64 ((i ++ j).toInt * 4) else u.pc + 4) ∧
      t.cur.rrlo = u.rrlo ∧ t.cur.rrsz = u.rrsz ∧ t.cur.pw = u.pw ∧ t.mem = s.mem ∧
      (∀ c sl, ¬(c = s.ic ∧ sl = s.is) → t.thread c sl = s.thread c sl) ∧
      (u.light = true → t.cur.rrb = u.rrb) ∧ encode (.brb i a j) = i ++ 0#7 ++ a ++ j ++ 7#3 ++ 0x63#7

/-- JAL writes g1, whatever the rotating region renames, and JALR its rd, with the address of the next word; JALR reads rs1 first,
and a target that is not aligned takes the misaligned trap with rd not written (R103, R104). -/
def Obligations.Jumps : Prop :=
  (∀ (s : State) (i : BitVec 25),
    exec (.jal i) s = .next (went (s.updCur fun t => t.setReg 1 (s.cur.pc + 4) false) (s.cur.pc + BitVec.ofInt 64 (i.toInt * 4)))) ∧
  (∀ (s : State) (i : BitVec 8) (a d : BitVec 7), named s.cur [a, d] →
    let target := X s a + BitVec.ofInt 64 (i.toInt * 4)
    (target.toNat % 4 = 0 → exec (.jalr i a d) s = .next (went (s.setRd d (s.cur.pc + 4) false) target)) ∧
    (target.toNat % 4 ≠ 0 → exec (.jalr i a d) s = .next (s.enterTrap s.ic s.is 2 target s.cur.pc 0))) ∧
  (∀ (i : BitVec 25) (k : BitVec 8) (a d : BitVec 7),
    encode (.jal i) = i ++ 0x6F#7 ∧ encode (.jalr k a d) = 0#3 ++ k ++ a ++ d ++ 0x67#7)

/-! Loads and stores (spec/04 R96, R97). -/

/-- A load whose access meets no fault writes rd with the bytes at its address, lowest first, extended as the table gives: at once
where it is fixed-latency and its banks grant it (else it forfeits the issue, R143), and otherwise it parks until its home replies. A
byte that is poisoned traps with its address. -/
def Obligations.ScalarLoads : Prop :=
  ∀ e ∈ loads, ∀ (s : State) (i : BitVec 8) (a d : BitVec 7) (t : Target), named s.cur [a, d] →
    reaches s { r := true } e.2.1 (address s a i e.2.1) t →
    let red := s.cur.redOverlap t.place e.2.1
    let r := s.readFor s.ic s.is (bypasses s a) t e.2.1
    (red = false → s.fixed (bypasses s a) false t e.2.1 = true → banksGrant s (s.bankOf t) = false →
      exec (e.1 i a d) s = .next (forfeited s (s.bankOf t))) ∧
    (red = false → s.fixed (bypasses s a) false t e.2.1 = true → banksGrant s (s.bankOf t) = true →
      (r.2.1 = none → exec (e.1 i a d) s = .next (completed (r.2.2.setRd d (loaded e.2.1 e.2.2 r.1) false))) ∧
      (∀ n, r.2.1 = some n →
        exec (e.1 i a d) s = .next (s.enterTrap s.ic s.is 12 (t.va.off + BitVec.ofNat 64 n) s.cur.pc t.va.space))) ∧
    (red = true ∨ s.fixed (bypasses s a) false t e.2.1 = false →
      exec (e.1 i a d) s =
        .next (parked s (.access (.load t e.2.1 e.2.2 d.toNat (bypasses s a || red) false)) (.accessReply s.ic s.is)))

/-- A store whose access meets no fault writes the low bytes of rs2 at its address: at once where it is fixed-latency and its banks
grant it (else it forfeits the issue, R143), and otherwise it parks until it has been performed. -/
def Obligations.ScalarStores : Prop :=
  ∀ e ∈ stores, ∀ (s : State) (i : BitVec 4) (b a : BitVec 7) (j : BitVec 4) (t : Target), named s.cur [a, b] →
    reaches s { w := true } e.2 (address s a (i ++ j) e.2) t →
    let red := s.cur.redOverlap t.place e.2
    (red = false → s.fixed (bypasses s a) true t e.2 = true → banksGrant s (s.bankOf t) = false →
      exec (e.1 i b a j) s = .next (forfeited s (s.bankOf t))) ∧
    (red = false → s.fixed (bypasses s a) true t e.2 = true → banksGrant s (s.bankOf t) = true →
      exec (e.1 i b a j) s = .next (completed (s.writeFor s.ic s.is (bypasses s a) t (leBytes (X s b).toNat e.2)))) ∧
    (red = true ∨ s.fixed (bypasses s a) true t e.2 = false →
      exec (e.1 i b a j) s =
        .next (parked s (.access (.store t e.2 (X s b) (bypasses s a || red) none)) (.accessReply s.ic s.is)))

/-- The faults of a load or a store, in the order of R96 and R229: misaligned; not in the core TLB, which parks the thread for a
walk; window; access and page, which park it with a fault record to the kernel that lists the kind of access (R230, R231). An access
to a device that does not answer is an access fault (R405). -/
def Obligations.AccessFaults : Prop :=
  let meets (s : State) (i : Instr) (need : Need) (size : Nat) (va : VAddr) : Prop :=
    (va.off.toNat % size ≠ 0 → exec i s = .next (s.enterTrap s.ic s.is 2 va.off s.cur.pc va.space)) ∧
    (va.off.toNat % size = 0 →
      (s.xlate s.ic s.is need va = .miss → exec i s = .next (parked s (.walk va need.kind) (.pageTableWalk s.ic s.is))) ∧
      (s.xlate s.ic s.is need va = .window → exec i s = .next (s.enterTrap s.ic s.is 7 va.off s.cur.pc va.space)) ∧
      (∀ code : Nat,
        (s.xlate s.ic s.is need va = .access ∧ code = 3) ∨
        (s.xlate s.ic s.is need va = .page ∧ code = (if s.lostSpace va.space = true then 3 else 4)) ∨
        (∃ t, s.xlate s.ic s.is need va = .ok t ∧ s.unreachable t = true ∧ s.cur.light = false ∧ code = 3) →
        exec i s = .next (State.park { s with
          serial := s.serial + 1
          faults := s.faults ++ [⟨s.serial, .thread s.ic s.is, va, BitVec.ofNat 5 code, s.cur.inst, need.kind⟩] } (.fault s.serial))))
  (∀ e ∈ loads, ∀ (s : State) (i : BitVec 8) (a d : BitVec 7), named s.cur [a, d] →
    meets s (e.1 i a d) { r := true } e.2.1 (address s a i e.2.1)) ∧
  (∀ e ∈ stores, ∀ (s : State) (i : BitVec 4) (b a : BitVec 7) (j : BitVec 4), named s.cur [a, b] →
    meets s (e.1 i b a j) { w := true } e.2 (address s a (i ++ j) e.2))

/-- Vector memory (R116, R117): when every lane is aligned and translates, a load writes its group with the lanes' bytes and a store
writes every lane, at once where all lanes are fixed-latency and their banks grant them (else the issue is forfeited); otherwise the
thread parks. A load that meets a poisoned lane traps with the lowest such byte. -/
def Obligations.VectorMemory : Prop :=
  ∀ (s : State) (b a : BitVec 7) (k : BitVec 3) (t : BitVec 4) (ts : List Target),
    let w := laneBytes t
    let group (v : List Nat) (u : Thread) : Thread := u.setGroup k.toNat (packLanes (8 * w) v) false
    let red := ts.any fun x => s.cur.redOverlap x.place w
    let banks := (ts.map s.bankOf).flatten
    let ready (regs : List (BitVec 7)) (need : Need) (vas : List VAddr) : Prop :=
      vectorReady s regs [k] [] ∧ (∀ va ∈ vas, va.off.toNat % w = 0) ∧
      List.Forall₂ (fun va x => s.xlate s.ic s.is need va = .ok x ∧ s.unreachable x = false) vas ts
    let load (i : Instr) (regs : List (BitVec 7)) (vas : List VAddr) (lanes : List Nat → List Nat) (fr : Bool) : Prop :=
      ready regs { r := true } vas →
      let r := s.readLanes s.ic s.is fr w ts
      (red = false → (∀ x ∈ ts, s.fixed fr false x w = true) → banksGrant s banks = false → exec i s = .next (forfeited s banks)) ∧
      (red = false → (∀ x ∈ ts, s.fixed fr false x w = true) → banksGrant s banks = true →
        (r.2.1 = none → exec i s = .next (completed (r.2.2.updCur (group (lanes r.1))))) ∧
        (∀ va, r.2.1 = some va → exec i s = .next (r.2.2.enterTrap r.2.2.ic r.2.2.is 12 va.off r.2.2.cur.pc va.space))) ∧
      (red = true ∨ (ts.all fun x => s.fixed fr false x w) = false →
        ∃ bc, exec i s = .next (parked s (.access (.vload ((span 0 ts.length).zip ts) [] none w k.toNat bc (fr || red)))
          (.accessReply s.ic s.is)))
    let store (i : Instr) (regs : List (BitVec 7)) (vas : List VAddr) (fr : Bool) : Prop :=
      let lanes := (unpackLanes (8 * w) (s.cur.group k.toNat) (128 / w)).map fun v => BitVec.ofNat 32 v
      ready regs { w := true } vas →
      (red = false → (∀ x ∈ ts, s.fixed fr true x w = true) → banksGrant s banks = false → exec i s = .next (forfeited s banks)) ∧
      (red = false → (∀ x ∈ ts, s.fixed fr true x w = true) → banksGrant s banks = true →
        exec i s = .next (completed (s.writeLanes s.ic s.is fr w (ts.zip lanes).length (ts.zip lanes)))) ∧
      (red = true ∨ (ts.all fun x => s.fixed fr true x w) = false →
        exec i s = .next (parked s (.access (.vstore (ts.zip lanes) w (fr || red))) (.accessReply s.ic s.is)))
    let at_ (stride : Word) : List VAddr := laneAddrs s.cur.space (X s a) stride (128 / w)
    load (.vld a k t) [a] (at_ (BitVec.ofNat 64 w)) id (bypasses s a) ∧
    load (.vlds b a k t) [a, b] (at_ (X s b)) id (bypasses s a || fresh s [b]) ∧
    load (.vldb a k t) [a] [⟨s.cur.space, X s a⟩] (fun l => List.replicate (128 / w) (l.headD 0)) (bypasses s a) ∧
    store (.vst a k t) [a] (at_ (BitVec.ofNat 64 w)) (bypasses s a) ∧
    store (.vsts b a k t) [a, b] (at_ (X s b)) (bypasses s a || fresh s [b])

/-! Vector instructions (spec/05 R118 to R123). -/

/-- The lanewise instructions: every enabled lane of vd is the formula of the old lanes a of vs1, b of vs2 (its lane 0 when the
nibble of vs1 is 1) and c of vd. -/
def Obligations.LanewiseResults : Prop :=
  ∀ (s : State) (g h k : BitVec 3) (n m t : BitVec 4) (x y : BitVec 1) (r : BitVec 2),
    let w := laneWidth t.toNat
    let e := elemOf t.toNat
    let M := n.getLsbD 3
    let S := n.getLsbD 2
    let RM := rmOf (n.toNat % 4)
    let a (j : Nat) : Nat := lane s.cur w h.toNat j
    let b (j : Nat) : Nat := lane s.cur w g.toNat (if m = 1 then 0 else j)
    let c (j : Nat) : Nat := lane s.cur w k.toNat j
    k ≠ 0 →
    (vectorReady s [] [k, h, g] (maskRegs M) →
      writesLanes s (.vadd g n h m k t) w (1024 / w) k.toNat M
        (fun j => laneArith e S RM (fun a b _ => a + b) (fun a b _ => exact (Val.add RM a b)) (a j) (b j) (c j)) ∧
      writesLanes s (.vsub g n h m k t) w (1024 / w) k.toNat M
        (fun j => laneArith e S RM (fun a b _ => a - b) (fun a b _ => exact (Val.add RM a (Val.neg b))) (a j) (b j) (c j)) ∧
      writesLanes s (.vmul g n h m k t) w (1024 / w) k.toNat M
        (fun j => laneArith e S RM (fun a b _ => a * b) (fun a b _ => exact (Val.mul a b)) (a j) (b j) (c j)) ∧
      writesLanes s (.vfma g n h m k t) w (1024 / w) k.toNat M
        (fun j => laneArith e S RM (fun a b c => a * b + c) (fun a b c => exact (Val.fma RM a b c)) (a j) (b j) (c j)) ∧
      writesLanes s (.vfms g n h m k t) w (1024 / w) k.toNat M
        (fun j => laneArith e S RM (fun a b c => a * b - c) (fun a b c => exact (Val.fma RM a b (Val.neg c))) (a j) (b j) (c j))) ∧
    (vectorReady s [] [k, h, g] (maskRegs (x = 1)) →
      writesLanes s (.vmin g x h m k t) w (1024 / w) k.toNat (x = 1) (fun j => laneMinMax false e (a j) (b j)) ∧
      writesLanes s (.vmax g x h m k t) w (1024 / w) k.toNat (x = 1) (fun j => laneMinMax true e (a j) (b j)) ∧
      writesLanes s (.vand g x h m k t) w (1024 / w) k.toNat (x = 1) (fun j => (a j &&& b j, {})) ∧
      writesLanes s (.vor g x h m k t) w (1024 / w) k.toNat (x = 1) (fun j => (a j ||| b j, {})) ∧
      writesLanes s (.vxor g x h m k t) w (1024 / w) k.toNat (x = 1) (fun j => (a j ^^^ b j, {})) ∧
      writesLanes s (.vshl g x y h m k t) w (1024 / w) k.toNat (x = 1) (fun j => narrow e (Elem.intOf e (a j) * 2 ^ (b j % w)) (y = 1)) ∧
      writesLanes s (.vshr g x r h m k t) w (1024 / w) k.toNat (x = 1) (fun j => laneShr e w (rmOf r.toNat) (a j) (b j)))

/-- The unary instructions, the broadcast, the squared norm, VSEL and VRED: every lane of vd is the function of the lanes of the
sources; VSQN and VRED leave 0 in every lane but lane 0. -/
def Obligations.UnaryResults : Prop :=
  ∀ (s : State) (g h k : BitVec 3) (t m : BitVec 4) (y : BitVec 1) (r : BitVec 2),
    let w := laneWidth t.toNat
    let e := elemOf t.toNat
    let a (j : Nat) : Nat := lane s.cur w h.toNat j
    let all := s.cur.lanes w h.toNat
    k ≠ 0 →
    (vectorReady s [] [k, h] [] →
      writesLanes s (.vabs h k t) w (1024 / w) k.toNat false (fun j => laneAbs e (a j)) ∧
      writesLanes s (.vneg h k t) w (1024 / w) k.toNat false (fun j => laneNeg e (a j)) ∧
      writesLanes s (.vrcp h k t) w (1024 / w) k.toNat false (fun j => laneFun (Val.div one) e (a j)) ∧
      writesLanes s (.vrsq h k t) w (1024 / w) k.toNat false (fun j => laneFun Val.rsqrt e (a j)) ∧
      writesLanes s (.vexp2 h k t) w (1024 / w) k.toNat false (fun j => laneFun Val.exp2 e (a j)) ∧
      writesLanes s (.vlog2 h k t) w (1024 / w) k.toNat false (fun j => laneFun Val.log2 e (a j)) ∧
      writesLanes s (.vbcast h k t) w (1024 / w) k.toNat false (fun _ => (a 0, {})) ∧
      writesLanes s (.vsqn h k t) 32 32 k.toNat false
        (fun j => if j = 0 then
          let q := roundFlt .fp32 (squaredNorm e all).1 false .rne false
          (q.1, Flags.or (squaredNorm e all).2.2 q.2) else (0, {})) ∧
      writesLanes s (.vred y r h m k t) w (1024 / w) k.toNat false
        (fun j => if j = 0 then reduce e m.toNat (y = 1) (rmOf r.toNat) all else (0, {}))) ∧
    (vectorReady s [] [k, h, g] [12, 13] →
      writesLanes s (.vsel g h k t) w (1024 / w) k.toNat false
        (fun j => (if s.cur.mask.testBit j then a j else lane s.cur w g.toNat j, {})))

/-- VCMP writes the mask g13 ‖ g12 and no group: bit i is 0 past the lanes and for a lane the old mask disables, and else the
relation of lane i; the flags of the compared lanes are gathered. -/
def Obligations.CompareResults : Prop :=
  ∀ (s : State) (g h : BitVec 3) (x : BitVec 1) (m t : BitVec 4), vectorReady s [] [h, g] [12, 13] →
    let w := laneWidth t.toNat
    let e := elemOf t.toNat
    let rel (j : Nat) := laneRel e m.toNat (lane s.cur w h.toNat j) (lane s.cur w g.toNat j)
    let compared (j : Nat) : Bool := decide (j < 1024 / w) && (x = 0 || s.cur.mask.testBit j)
    ∃ u, exec (.vcmp g x h m t) s = .next u ∧
      (∀ j < 128, u.cur.mask.testBit j = (compared j && (rel j).1)) ∧
      (∀ b, u.cur.vxf.getLsbD b = true ↔
        s.cur.vxf.getLsbD b = true ∨ ∃ j, compared j = true ∧ (Flags.vxf (rel j).2 false).getLsbD b = true) ∧
      (∀ n, n ≠ 12 → n ≠ 13 → u.cur.reg n = s.cur.reg n) ∧
      u = (s.updCur fun v => { v with regs := u.cur.regs, fresh := u.cur.fresh, vxf := u.cur.vxf }).advance

/-! Vector conversions, unpacking, dot products and permutes (spec/05 R124 to R133). -/

/-- Conversions (R125 to R129): VCVT rounds each lane by RM, or stochastically under VSRC.EN, and then advances VSRC.ROW; VDEC and
VENC go through the core's decode table, and trap where the thread sees none (spec/03 R71), and VDEC clips to BF16 alone (R126);
VMXS applies the block scales of vs2. -/
def Obligations.ConversionResults : Prop :=
  ∀ (s : State) (g h k : BitVec 3) (n m t : BitVec 4) (x : BitVec 1),
    let w := laneWidth t.toNat
    let src := elemOf m.toNat
    let dst := elemOf t.toNat
    let M := n.getLsbD 3
    let S := n.getLsbD 2
    let RM := rmOf (n.toNat % 4)
    let a (j : Nat) : Nat := lane s.cur (laneWidth m.toNat) h.toNat j
    k ≠ 0 →
    (vectorReady s [] [k, h] (maskRegs M) →
      (s.cur.vsrc.getLsbD 36 = false →
        writesLanes s (.vcvt n h m k t) w (min (1024 / laneWidth m.toNat) (1024 / w)) k.toNat M
          (fun j => laneConvert src dst S RM (a j))) ∧
      (s.cur.vsrc.getLsbD 36 = true →
        let seed := ((s.core s.ic).seedSeen s.is (fld s.cur.vsrc.toNat 35 32)).value
        let draw (j : Nat) := srU seed (fld s.cur.vsrc.toNat 15 0) j (fld s.cur.vsrc.toNat 31 16)
        ∃ u v, exec (.vcvt n h m k t) s = .next u ∧
          vectorResult s v w k.toNat
            (fun j => if j < min (1024 / laneWidth m.toNat) (1024 / w) ∧ enables s.cur M j = true then
              (laneConvert src dst S (.sr (draw j)) (a j)).1 else lane s.cur w k.toNat j)
            (fun b => ∃ j < min (1024 / laneWidth m.toNat) (1024 / w), enables s.cur M j = true ∧
              (Flags.vxf (laneConvert src dst S (.sr (draw j)) (a j)).2 false).getLsbD b = true) ∧
          u = v.updCur fun z => { z with vsrc := s.cur.vsrc.extractLsb' 16 21 ++ (s.cur.vsrc.extractLsb' 0 16 + 1#16) }) ∧
      ((s.core s.ic).fmtSeen s.is = none → exec (.vdec n h m k t) s = .next (s.enterTrap s.ic s.is 9 0 s.cur.pc 0)) ∧
      (∀ table, (s.core s.ic).fmtSeen s.is = some table →
        (1024 / w) * (m.toNat + 1) ≤ 128 →
        writesLanes s (.vdec n h m k t) w (1024 / w) k.toNat M
          (fun j => roundElem dst (tableVal table (lane s.cur 8 h.toNat (1024 / w * m.toNat + j))) false RM
            (S && dst != .flt .fp32)))) ∧
    (vectorReady s [] [k, h] (maskRegs (x = 1)) →
      ((s.core s.ic).fmtSeen s.is = none → exec (.venc x h m k) s = .next (s.enterTrap s.ic s.is 9 0 s.cur.pc 0)) ∧
      (∀ table, (s.core s.ic).fmtSeen s.is = some table →
        writesLanes s (.venc x h m k) 8 (1024 / laneWidth m.toNat) k.toNat (x = 1)
          (fun j => encodeD8 table (Elem.decode src (a j))))) ∧
    (vectorReady s [] [k, h, g] (maskRegs M) →
      writesLanes s (.vmxs g n h m k t) w (1024 / w) k.toNat M
        (fun j => roundElem dst (mxScale (lane s.cur 8 g.toNat (j / 32)) (toF19 src (lane s.cur 8 h.toNat j))) false RM S))

/-- Add-subtract, dot products, permutes and slides (R131 to R133). -/
def Obligations.AccumulateAndPermute : Prop :=
  ∀ (s : State) (g h k : BitVec 3) (n m t : BitVec 4) (x : BitVec 1),
    let w := laneWidth t.toNat
    let wm := laneWidth m.toNat
    let src := elemOf m.toNat
    let M := n.getLsbD 3
    let S := n.getLsbD 2
    let RM := rmOf (n.toNat % 4)
    let part (c : BitVec 3) (j : Nat) : List Nat := (span 0 (32 / wm)).map fun i => lane s.cur wm c.toNat (32 / wm * j + i)
    k ≠ 0 →
    (vectorReady s [] [k, h, g] (maskRegs M) →
      (1024 / w ≤ 1024 / wm →
        writesLanes s (.vaddsub g n h m k t) w (1024 / w) k.toNat M
          (fun j => laneAddsub src (elemOf t.toNat) S RM (lane s.cur wm h.toNat j) (lane s.cur wm g.toNat j) (lane s.cur w k.toNat j))) ∧
      writesLanes s (.vdot g n h m k t) 32 32 k.toNat M
        (fun j => laneDot src S RM (part h j) (part g j) (lane s.cur 32 k.toNat j))) ∧
    (vectorReady s [] [k, h, g] (maskRegs (x = 1)) →
      writesLanes s (.vperm g x h k t) w (1024 / w) k.toNat (x = 1)
        (fun j => (lane s.cur w h.toNat (lane s.cur w g.toNat j % (1024 / w)), {}))) ∧
    (vectorReady s [] [k, h, g] (maskRegs (x = 1) ++ [14]) →
      writesLanes s (.vslide g x h k t) w (1024 / w) k.toNat (x = 1)
        (fun j =>
          let i : Int := j + (s.cur.reg 14).toInt
          (if i < 0 then 0
          else if i < (1024 / w : Nat) then lane s.cur w h.toNat i.toNat
          else if i < (2 * (1024 / w) : Nat) then lane s.cur w g.toNat (i.toNat - 1024 / w)
          else 0, {})))

/-- Ternary unpacking (R130): lane 5j + i of vd is weight i of byte 8p + j, and 0 for an illegal byte; an illegal byte among those
checked traps under TRAPEN.T and writes nothing, and else sets VXF.T. -/
def Obligations.TernaryUnpacking : Prop :=
  ∀ (s : State) (h k : BitVec 3) (m t : BitVec 4) (x : BitVec 1), k ≠ 0 → vectorReady s [] [k, h] (maskRegs (x = 1)) →
    let w := laneWidth t.toNat
    let L := 1024 / w
    let byte (j : Nat) : Nat := if 8 * m.toNat + j ≤ 127 then lane s.cur 8 h.toNat (8 * m.toNat + j) else 121
    let bad (j : Nat) : Prop := j < (L + 4) / 5 ∧ 243 ≤ byte j
    let weight (j : Nat) : Int := if 243 ≤ byte (j / 5) then 0 else (unpack3 (byte (j / 5))).getD (j % 5) 0
    (∀ j, bad j → (∀ i < j, ¬ bad i) → s.cur.trapen = true →
      exec (.vunpk3 x h m k t) s = .next (s.enterTrap s.ic s.is 9 (BitVec.ofNat 64 (8 * m.toNat + j)) s.cur.pc 0)) ∧
    ((∀ j, ¬ bad j) ∨ s.cur.trapen = false →
      ∃ u, exec (.vunpk3 x h m k t) s = .next u ∧
        vectorResult s u w k.toNat
          (fun j => if enables s.cur (x = 1) j = true then (roundElem (elemOf t.toNat) (Val.ofInt (weight j)) false .rne false).1
            else lane s.cur w k.toNat j)
          (fun b => b = 6 ∧ ∃ j, bad j))

/-! Ordered accesses, cache control and replies (spec/12 R259 to R266, spec/04 R97, spec/05 R117). -/

/-- LDA and STL (R261, R262): at a scope of a cluster or wider a heavy thread's access is served at the home and acquires, or
releases before it; at a narrower scope it is a plain access, which an STL performs after the thread's REDs. A light thread's STL is
served at the home. -/
def Obligations.OrderedAccesses : Prop :=
  ∀ (s : State) (sc : BitVec 3) (a b d : BitVec 7) (t : Target),
    let wide := 2 ≤ sc.toNat
    let va := address s a 0 1
    (∀ e ∈ [(Instr.ldaD sc a d, Instr.ld 0 a d, 8, false), (Instr.ldaW sc a d, Instr.lw 0 a d, 4, true)],
      (¬ wide ∨ s.cur.light = true → exec e.1 s = exec e.2.1 s) ∧
      (wide → s.cur.light = false → named s.cur [a, d] → reaches s { r := true } e.2.2.1 va t →
        exec e.1 s = .next (parked s (.access (.load t e.2.2.1 e.2.2.2 d.toNat true true)) (.accessReply s.ic s.is)))) ∧
    (∀ e ∈ [(Instr.stlD b a sc, Instr.sd 0 b a 0, 8), (Instr.stlW b a sc, Instr.sw 0 b a 0, 4)],
      named s.cur [a, b] → reaches s { w := true } e.2.2 va t →
        (s.cur.light = false → ¬ wide → s.cur.reds = [] → exec e.1 s = exec e.2.1 s) ∧
        (s.cur.light = true → s.cur.reds = [] →
          exec e.1 s = .next (parked s (.access (.store t e.2.2 (X s b) true (some 0))) (.accessReply s.ic s.is))) ∧
        (s.cur.light = false → wide → s.cur.reds = [] → s.dirtyPinned s.ic = false →
          let r := s.releaseCore s.ic
          exec e.1 s = .next (parked r (.access (.store t e.2.2 (X s b) true (some (r.core r.ic).carried))) (.accessReply r.ic r.is))) ∧
        (s.cur.light = true ∨ ¬ wide → s.cur.reds ≠ [] → exec e.1 s = .next (s.park .reds)) ∧
        (s.cur.light = false → wide → s.dirtyPinned s.ic = true → exec e.1 s = .next (s.park (.room .pin))) ∧
        (s.cur.light = false → wide → s.dirtyPinned s.ic = false → s.cur.reds ≠ [] →
          exec e.1 s = .next ((s.writeBackAll s.ic).park .reds)))

/-- FENCE (R263, spec/11 R249): PW waits for the thread's REDs. For a heavy thread at a scope of a cluster or wider, PW before a
later operation writes back first, and before SW releases; PR before SR acquires all memory; and where SR follows PW or E, later
loads take no older copy (the model's reading of spec/08 R173, log 67). SIGRD (R266): eight registers hold the 512 bits of the core's
signature of writes, or of a half of its history. -/
def Obligations.FencesAndSignatures : Prop :=
  ∀ (s : State) (k : BitVec 5) (sc : BitVec 3) (e : BitVec 2) (d : BitVec 7),
    let later := k.getLsbD 4
    let pr := k.getLsbD 3
    let pw := k.getLsbD 2
    let sr := k.getLsbD 1
    let sw := k.getLsbD 0
    let wide := decide (2 ≤ sc.toNat) && !s.cur.light
    let back := wide && pw && (sr || sw || later)
    let v := if back then s.writeBackAll s.ic else s
    (back = true ∨ (wide && pr && sr) = true → s.dirtyPinned s.ic = true → exec (.fence k sc) s = .next (s.park (.room .pin))) ∧
    ((back = false ∧ (wide && pr && sr) = false) ∨ s.dirtyPinned s.ic = false →
      (pw = true → v.cur.reds ≠ [] → exec (.fence k sc) s = .next (v.park .reds)) ∧
      (pw = false ∨ v.cur.reds = [] →
        (wide = false → exec (.fence k sc) s = .next s.advance) ∧
        (wide = true →
          let u := if pw && sw then v.releaseCore v.ic else v
          let u := if sr && (pw || later) then u.seesAll else u
          exec (.fence k sc) s = .next (if pr && sr then u.applySig u.ic allOnes512 else u).advance))) ∧
    (s.cur.light = true → exec (.sigrd e d) s = .next (s.enterTrap s.ic s.is 0 ((wordSigrd e d).setWidth 64) s.cur.pc 0)) ∧
    (s.cur.light = false → (∀ i < 8, s.cur.rename (d.toNat + i) < s.cur.bound) →
      let g := if e = 0 then (s.core s.ic).sigw else if e = 1 then (s.core s.ic).sighCur else (s.core s.ic).sighPrev
      exec (.sigrd e d) s =
        .next (s.updCur fun t => t.setRegs d.toNat false ((span 0 8).map fun i => g.extractLsb' (64 * i) 64)).advance)

/-- CFLUSH, CINV and PREF (R264, R265): the line that the address stands in, of a cached page, is written back, dropped or filled;
a light thread, another device's space, a window and a line that is not held have no effect; PREF has one only where the address
translates, and never faults or parks. -/
def Obligations.CacheControl : Prop :=
  ∀ (s : State) (a : BitVec 7), named s.cur [a] →
    let va := address s a 0 1
    let idle := s.cur.light = true ∨ s.ownSpace va.space = false
    (∀ e ∈ [(Instr.cflush a, false), (Instr.cinv a, true)],
      (idle ∨ s.region va = .window → exec e.1 s = .next s.advance) ∧
      (¬ idle → s.region va ≠ .window → ∀ t, s.xlate s.ic s.is { r := true } va = .ok t →
        (∀ pa, t.place = .home pa → t.attr = 0 →
          ((s.core s.ic).line (pa / 128) = none → exec e.1 s = .next s.advance) ∧
          (∀ l, (s.core s.ic).line (pa / 128) = some l →
            (l.dirty = 0 → exec e.1 s = .next (if e.2 then s.evictLine s.ic (pa / 128) else s).advance) ∧
            (l.dirty ≠ 0 → s.pinned t.place = true → exec e.1 s = .next (s.park (.room .pin))) ∧
            (l.dirty ≠ 0 → s.pinned t.place = false →
              let u := if e.2 then s.evictLine s.ic (pa / 128) else s.writeBackLine s.ic (pa / 128)
              exec e.1 s = .next (parked u (.access (.done false)) (.accessReply u.ic u.is))))) ∧
        (s.unreachable t = false → (∀ pa, t.place ≠ .home pa) ∨ t.attr ≠ 0 → exec e.1 s = .next s.advance))) ∧
    (idle → exec (.pref a) s = .next s.advance) ∧
    (¬ idle →
      (∀ t, s.xlate s.ic s.is { r := true } va = .ok t →
        (∀ pa, t.place = .home pa → t.attr = 0 → s.cacheable s.ic t = true → s.fillHeld s.ic pa = false →
          exec (.pref a) s = .next (s.fill s.ic pa true).advance) ∧
        ((∀ pa, t.place ≠ .home pa) ∨ t.attr ≠ 0 ∨ s.cacheable s.ic t = false → exec (.pref a) s = .next s.advance)) ∧
      ((∀ t, s.xlate s.ic s.is { r := true } va ≠ .ok t) → exec (.pref a) s = .next s.advance))

/-- ACCESS_REPLY (spec/04 R97, spec/05 R117, R271): the access of a parked thread is performed, and the thread goes on with the
next word; a pending RED to the same bytes, or a pin, holds it. A load that meets poison traps. The lanes of a vector access are
performed one at a time in an order that nothing fixes (spec/05 R134): one that may be performed now is, and the thread goes on with
the last, with the group that the lanes read. -/
def Obligations.AccessReplies : Prop :=
  ∀ (s : State) (c sl : Nat),
    let t := s.thread c sl
    let v := { s with ic := c, is := sl }.wake c sl
    let goes (p : Pend) (u : State) : Res :=
      .next (replied c sl ((u.updThread c sl fun x => x.waitFor (.access p)).emit (.accessReply c sl)))
    (∀ tg size sgn rd bypass acquire, t.wait = some (.access (.load tg size sgn rd bypass acquire)) →
      let held := t.redOverlap tg.place size || s.readHeld c sl bypass tg size || (acquire && s.dirtyPinned c)
      let r := v.readFor c sl bypass tg size
      (held = true → exec (.accessReply c sl) s = .next s) ∧
      (held = false → isPort (BitVec.ofNat 7 rd) = false →
        (r.2.1 = none →
          let u := if acquire && !t.light then r.2.2.applySig c (r.2.2.sigAcquire tg) else r.2.2
          exec (.accessReply c sl) s =
            .next (replied c sl (completed (u.setRd (BitVec.ofNat 7 rd) (extend size sgn r.1) (!acquire))))) ∧
        (∀ i, r.2.1 = some i →
          exec (.accessReply c sl) s =
            .next (replied c sl (v.enterTrap c sl 12 (tg.va.off + BitVec.ofNat 64 i) v.cur.pc tg.va.space))))) ∧
    (∀ tg size data bypass release, t.wait = some (.access (.store tg size data bypass release)) →
      let held := t.redOverlap tg.place size || s.writeHeld c sl bypass tg size
      let u := match release with
        | some g => s.sigRelease tg (if t.light then none else some g)
        | none => s
      let w := u.writeFor c sl bypass tg (leBytes data.toNat size)
      (held = true → exec (.accessReply c sl) s = .next s) ∧
      (held = false → exec (.accessReply c sl) s = .next (replied c sl (completed ({ w with ic := c, is := sl }.wake c sl))))) ∧
    (∀ ts got bad size group broadcast bypass, t.wait = some (.access (.vload ts got bad size group broadcast bypass)) →
      let red := ts.any fun x => t.redOverlap x.2.place size
      let free := ts.filter fun x => !s.readHeld c sl bypass x.2 size
      (red = true ∨ free = [] → exec (.accessReply c sl) s = .next s) ∧
      (red = false → free ≠ [] → ∃ x ∈ free,
        let p := (s.pick free.length).2
        let r := p.readLane c sl bypass size x.2
        let got := tabPut got x.1 r.1
        let bad := lowerVa bad r.2.1
        let w := { r.2.2 with ic := c, is := sl }.wake c sl
        let vs := got.map (·.2)
        let vs := if broadcast then (span 0 (128 / size)).map fun _ => vs.headD 0 else vs
        (ts.erase x ≠ [] →
          exec (.accessReply c sl) s = goes (.vload (ts.erase x) got bad size group broadcast bypass) r.2.2) ∧
        (ts.erase x = [] →
          (bad = none →
            exec (.accessReply c sl) s =
              .next (replied c sl (completed (w.updCur fun u => u.setGroup group (packLanes (8 * size) vs) true)))) ∧
          (∀ va, bad = some va →
            exec (.accessReply c sl) s = .next (replied c sl (w.enterTrap c sl 12 va.off w.cur.pc va.space)))))) ∧
    (∀ ls size bypass, t.wait = some (.access (.vstore ls size bypass)) →
      let red := ls.any fun x => t.redOverlap x.1.place size
      let free := (freeLanes size [] ls).filter fun x => !s.writeHeld c sl bypass x.1 size
      (red = true ∨ free = [] → exec (.accessReply c sl) s = .next s) ∧
      (red = false → free ≠ [] → ∃ x ∈ free,
        let p := (s.pick free.length).2
        let w := p.laneWrite c size ls x
        let u := p.writeFor c sl bypass w.1.1 w.1.2
        (w.2 ≠ [] → exec (.accessReply c sl) s = goes (.vstore w.2 size bypass) u) ∧
        (w.2 = [] → exec (.accessReply c sl) s = .next (replied c sl (completed ({ u with ic := c, is := sl }.wake c sl)))))) ∧
    (∀ latc, t.wait = some (.access (.done latc)) →
      exec (.accessReply c sl) s = .next (replied c sl (if latc then completed v else v.advance)))

/-! Atomics and reductions (spec/12 R267 to R273, spec/11 R254, R256). -/

/-- The AMOs and REDs (R268 to R272), with the bytes of the target and the new value of the old one m, the operand b and the
expected value e; none where nothing is written. A heavy thread's AMO releases, goes to its home as a proxy, and the thread parks
until the reply; its RED goes to its home and the thread goes on; a light thread at the home combines at once. -/
def Obligations.Atomics : Prop :=
  ∀ (s : State) (a b d : BitVec 7) (t : Target),
    let va := address s a 0 1
    let wrap (n : Nat) : Option Nat := some (n % 2 ^ 64)
    let less (x y : Nat) : Bool := decide ((BitVec.ofNat 64 x).toInt < (BitVec.ofNat 64 y).toInt)
    let plain (size : Nat) (need : Need) : Prop :=
      va.off.toNat % size = 0 ∧ s.xlate s.ic s.is need va = .ok t ∧ (∀ f v e, t.place ≠ .mx f v e) ∧
      (∀ sp p, t.place = .remote sp p → sp ≠ 255) ∧ s.unreachable t = false ∧
      (s.cur.light = true → t.homeCore = some s.ic) ∧ s.cur.redOverlap t.place size = false
    let amo (i : Instr) (f4 size : Nat) (new : Nat → Nat → Nat → Option Nat) : Prop :=
      let e : Word := if f4 = 9 then X s d else 0
      (∀ m x y, m < 2 ^ 64 → x < 2 ^ 64 → amoNew f4 m x y = new m x y) ∧
      (named s.cur [a, b, d] → plain size { r := true, w := true, noWindow := true } → s.cur.reds = [] →
        (s.cur.light = true → s.pinned t.place = false →
          let r := (s.noteWrite s.ic t size).combineAt (.core s.ic) t f4 (X s b).toNat e.toNat (some none)
          (r.2.1 = none → exec i s = .next (completed (r.2.2.setRd d (BitVec.ofNat 64 r.1) false))) ∧
          (∀ n, r.2.1 = some n →
            exec i s = .next (s.enterTrap s.ic s.is 12 (va.off + BitVec.ofNat 64 n) s.cur.pc va.space))) ∧
        (s.cur.light = false → s.queueRoom t.queue = true → s.dirtyPinned s.ic = false →
          let r := s.releaseCore s.ic
          let u := r.leaveCache r.ic t size
          exec i s = .next ((u.park (.proxy d.toNat)).sendPacket t.queue (u.amoPacket 1 f4 t (X s b) e (u.core u.ic).carried))) ∧
        (s.cur.light = false → s.queueRoom t.queue = false → exec i s = .next (s.park (.migration t.queue))))
    let red (i : Instr) (f4 size : Nat) (regs : List (BitVec 7)) (e : Word) (new : Nat → Nat → Option Nat) : Prop :=
      (∀ m x, m < 2 ^ 64 → x < 2 ^ 64 → f4 ≠ 15 → amoNew f4 m x 0 = new m x) ∧
      (named s.cur regs → plain size { w := true, noWindow := true } →
        (s.cur.light = true → s.pinned t.place = false →
          let r := (s.noteWrite s.ic t size).combineAt (.core s.ic) t f4 (X s b).toNat e.toNat none
          exec i s = .next (if r.2.1.isSome then r.2.2.record (.redDropped s.cur.inst) else r.2.2).advance) ∧
        (s.cur.light = false → s.readHeld s.ic s.is true t size = false → s.queueRoom t.queue = true →
          let u := s.leaveCache s.ic t size
          exec i s = .next ((u.sendPacket t.queue (u.amoPacket 2 f4 t (X s b) e 0)).updCur fun v =>
            { v with reds := v.reds ++ [⟨t.queue, t.place, size, u.serial⟩] }).advance))
    let fp (m x : Nat) : Option Nat := some (roundFlt .fp32 (Val.add .rne (Fmt.decode .fp32 m) (Fmt.decode .fp32 x)).1 false .rne false).1
    amo (.amoAdd b a d) 0 8 (fun m x _ => wrap (m + x)) ∧
    amo (.amoAnd b a d) 1 8 (fun m x _ => some (m &&& x)) ∧
    amo (.amoOr b a d) 2 8 (fun m x _ => some (m ||| x)) ∧
    amo (.amoXor b a d) 3 8 (fun m x _ => some (m ^^^ x)) ∧
    amo (.amoMin b a d) 4 8 (fun m x _ => some (if less x m then x else m)) ∧
    amo (.amoMax b a d) 5 8 (fun m x _ => some (if less m x then x else m)) ∧
    amo (.amoMinu b a d) 6 8 (fun m x _ => some (min m x)) ∧
    amo (.amoMaxu b a d) 7 8 (fun m x _ => some (max m x)) ∧
    amo (.amoSwap b a d) 8 8 (fun _ x _ => some x) ∧
    amo (.amoCas b a d) 9 8 (fun m x e => if m = e then some x else none) ∧
    amo (.amoFadd b a d) 10 4 (fun m x _ => fp m x) ∧
    red (.redAdd b a) 11 8 [a, b] 0 (fun m x => wrap (m + x)) ∧
    red (.redMin b a) 12 8 [a, b] 0 (fun m x => some (if less x m then x else m)) ∧
    red (.redMax b a) 13 8 [a, b] 0 (fun m x => some (if less m x then x else m)) ∧
    red (.redFadd b a) 14 4 [a, b] 0 fp ∧
    red (.redVat b a d) 15 16 [a, b, d] (X s d &&& 0xFF) (fun _ _ => none)

/-- What a proxy, its reply and a remote update do (spec/11 R254, R256): the packet that the slot of a home core holds, or the head
of another device's queue, is combined into its target, the issuing core's copy of it is dropped, and the slot is free; the reply to
a device goes out to it (log 61); a pin holds it, and an update waits for an earlier one of its origin. The reply writes rd with the
old value and applies the line's signature, or traps on poison; a RED that meets poison is dropped and reported. -/
def Obligations.Proxies : Prop :=
  ∀ (s : State) (c sl : Nat) (p : MigPacket) (t : Target),
    let f4 := fld p.pw.toNat 15 12
    let b := (p.g.getD 0 0).toNat
    let e := (p.g.getD 1 0).toNat
    (s.proxyNow c = some p → p.target = some t → p.device = 0 → s.pinned t.place = false →
      (p.kind = 1 →
        let r := s.combineAt (.core p.core) t f4 b e (some (some p.carried))
        let u := r.2.2.dropCopy p t (amoSize f4)
        let reply : AmoReply := ⟨BitVec.ofNat 64 r.1, u.sigAcquire t, r.2.1.isSome, ⟨t.va.space, t.va.off + BitVec.ofNat 64 (r.2.1.getD 0)⟩⟩
        let v := if u.awaitsProxy p then
            (u.updCore p.core fun k => { k with replies := tabPut k.replies p.slot reply }).emit (.proxyReply p.core p.slot) else u
        exec (.proxy c) s = .next (v.proxyOver c p)) ∧
      (p.kind = 2 → s.updateAhead c p = false →
        let r := s.combineAt (.core p.core) t f4 b e none
        let u := if r.2.1.isSome then r.2.2.record (.redDropped p.inst) else r.2.2
        exec (.remoteUpdate c) s = .next (((u.dropCopy p t (amoSize f4)).redDone p.core p.slot p.serial).proxyOver c p))) ∧
    (s.proxyNow c = some p → p.target = some t → p.device ≠ 0 → s.pinned t.place = false →
      (p.kind = 1 →
        let r := s.combineAt .outside t f4 b e (some none)
        let old := if r.2.1.isSome then none else some (leBytes (BitVec.ofNat 64 r.1).toNat (amoSize f4))
        exec (.proxy c) s = .next ((r.2.2.record (.deviceRead p.device (64 * p.core + p.slot) old)).proxyOver c p)) ∧
      (p.kind = 2 → s.updateAhead c p = false →
        let r := s.combineAt .outside t f4 b e none
        let u := if r.2.1.isSome then r.2.2.record (.redDropped p.inst) else r.2.2
        exec (.remoteUpdate c) s = .next (u.proxyOver c p))) ∧
    (s.proxyNow c = some p → p.target = some t → c < Config.cores →
      let held := Host.Outcome.next (s.updThread c s.is fun u => { u with st := .parked (.room .pin) })
      (p.kind = 1 → s.pinned t.place = true → exec (.proxy c) s = held) ∧
      (p.kind = 2 → s.pinned t.place = true ∨ s.updateAhead c p = true → exec (.remoteUpdate c) s = held)) ∧
    (∀ r rd, tabFind (s.core c).replies sl = some r → (s.thread c sl).wait = some (.proxy rd) →
      let u := s.updCore c fun k => { k with replies := tabDel k.replies sl }
      let v := { u with ic := c, is := sl }.wake c sl
      (r.poisoned = false →
        exec (.proxyReply c sl) s =
          .next ((completed ((v.applySig c r.signature).setRd (BitVec.ofNat 7 rd) r.old false)).settleHalted c sl)) ∧
      (r.poisoned = true →
        exec (.proxyReply c sl) s = .next ((v.enterTrap v.ic v.is 12 r.place.off v.cur.pc r.place.space).settleHalted c sl)))

/-! Barriers, monitors, counter waits, copy requests and common registers (spec/09 R206 to R214). -/

/-- Barriers (R206 to R208), for a heavy thread. -/
def Obligations.Barriers : Prop :=
  ∀ (s : State) (sc : BitVec 3) (a b d : BitVec 7), s.cur.light = false →
    let barrier (u : State) (c n : Nat) : Barrier := tabGet {} (u.core c).barriers n
    let n := (X s a).toNat % 1024
    let x := barrier s s.ic n
    let own := x.owner = some s.cur.inst
    let count := (X s b).toNat
    let busy := (∃ o, x.owner = some o ∧ o ≠ s.cur.inst ∧ (s.inst o).isSome = true) ∨ (own ∧ x.mask ≠ 0)
    (named s.cur [a, b, d] →
      (count = 0 ∨ 64 < count → exec (.barInit b a d) s = .next (wrote s d 4 false)) ∧
      (1 ≤ count → count ≤ 64 → busy → exec (.barInit b a d) s = .next (wrote s d 1 false)) ∧
      (1 ≤ count → count ≤ 64 → ¬ busy →
        exec (.barInit b a d) s =
          .next (wrote (s.putBarrier s.ic n { x with owner := some s.cur.inst, count := count, mask := 0, opening := 0 }) d 0 false))) ∧
    (named s.cur [a, d] →
      (¬ own → exec (.barArrive sc a d) s = .next (wrote s d (BitVec.ofNat 64 (2 ^ 63 + n)) false)) ∧
      (own → x.mask.getLsbD s.is = true → exec (.barArrive sc a d) s = .next (s.park (.barrierOpen n))) ∧
      (own → x.mask.getLsbD s.is = false → ∀ u g, releases s sc u g →
        let m := x.mask ||| (1#64 <<< u.is)
        let v := u.putBarrier u.ic n { x with mask := m, opening := x.opening ||| g }
        exec (.barArrive sc a d) s =
          .next (wrote (if onesIn m = x.count then v.completePhase v.ic n else v) d (BitVec.ofNat 64 (x.phase.toNat * 1024 + n)) false))) ∧
    (named s.cur [a] →
      (∀ g, s.cur.granted = some g → mayAcquire s sc → exec (.barWait sc a) s = .next (acquires s sc g).advance) ∧
      (s.cur.granted = none →
        ((X s a).getLsbD 63 = true ∨ ¬ own → exec (.barWait sc a) s = .next s.advance) ∧
        ((X s a).getLsbD 63 = false → own → x.phase ≠ (X s a).extractLsb' 10 32 → mayAcquire s sc →
          exec (.barWait sc a) s =
            .next (acquires s sc (tabGet 0 x.completed ((X s a).extractLsb' 10 32 : BitVec 32).toNat)).advance) ∧
        ((X s a).getLsbD 63 = false → own → x.phase = (X s a).extractLsb' 10 32 →
          exec (.barWait sc a) s = .next (s.park (.barrier n x.phase sc))) ∧
        ((X s a).getLsbD 63 = false → own → x.phase ≠ (X s a).extractLsb' 10 32 → ¬ mayAcquire s sc →
          exec (.barWait sc a) s = .next (s.park (.room .pin)))) ∧
      (¬ own → exec (.barDrop sc a) s = .next s.advance) ∧
      (own → x.mask.getLsbD s.is = true → exec (.barDrop sc a) s = .next (s.park (.barrierOpen n))) ∧
      (own → x.mask.getLsbD s.is = false → ∀ u g, releases s sc u g →
        let c := x.count - 1
        let v := u.putBarrier u.ic n
          { x with count := c, opening := x.opening ||| g, owner := if c = 0 then none else x.owner }
        exec (.barDrop sc a) s =
          .next (if c != 0 && x.mask != 0 && onesIn x.mask = c then v.completePhase v.ic n else v).advance)) ∧
    (∀ c k,
      let y := barrier s c k
      barrier (s.completePhase c k) c k =
        { y with phase := y.phase + 1, mask := 0, completed := tabPut y.completed y.phase.toNat y.opening, opening := 0 })

/-- Monitors, counter waits and message waits (R209 to R212), for a heavy thread; a notice from outside the scope triggers its
monitor and ends the wait with cause 1, and a timeout with cause 2. -/
def Obligations.MonitorsAndWaits : Prop :=
  ∀ (s : State) (sc : BitVec 3) (a b d : BitVec 7),
    let va := address s a 0 1
    (s.cur.light = false →
      (named s.cur [a, d] →
        (∀ t, s.xlate s.ic s.is { r := true } va = .ok t → s.unreachable t = false →
          let p := t.place.block
          ((s.cur.monitors.any fun m => m.place = p) = true → exec (.monArm a d) s = .next (wrote s d 0 false)) ∧
          ((s.cur.monitors.any fun m => m.place = p) = false →
            (4 ≤ s.cur.monitors.length → exec (.monArm a d) s = .next (wrote s d 1 false)) ∧
            (s.cur.monitors.length < 4 →
              exec (.monArm a d) s =
                .next (wrote (s.updCur fun u => { u with monitors := u.monitors ++ [⟨p, false, false⟩] }) d 0 false)))) ∧
        (s.cur.monitors = [] → exec (.monWait sc a d) s = .next (wrote s d 4 false)) ∧
        ((s.cur.monitors.any fun m => m.triggered) = true →
          exec (.monWait sc a d) s =
            .next (wrote (s.updCur fun u => { u with monitors := u.monitors.map fun m => { m with triggered := false } }) d 1 false)) ∧
        (s.cur.monitors ≠ [] → (s.cur.monitors.any fun m => m.triggered) = false →
          exec (.monWait sc a d) s =
            .next (s.park (.monitor (s.cur.rename d.toNat) (if (X s a).toNat = 0 then 0 else (X s a).toNat + 1) sc s.ic)))) ∧
      exec .monClr s = .next (s.updCur fun u => { u with monitors := [] }).advance ∧
      ((∃ m, (s.core s.ic).oldest s.cur.inst s.is = some m) → exec .waitm s = .next s.advance) ∧
      ((s.core s.ic).oldest s.cur.inst s.is = none → exec .waitm s = .next (s.park .mail)) ∧
      (named s.cur [a, b] →
        (∀ g, s.cur.granted = some g → mayAcquire s sc → exec (.waitc b a sc) s = .next (completed (acquires s sc g))) ∧
        (s.cur.granted = none → ∀ t, va.off.toNat % 8 = 0 → s.xlate s.ic s.is { r := true } va = .ok t → s.unreachable t = false →
          s.cur.redOverlap t.place 8 = false → s.readHeld s.ic s.is true t 8 = false → mayAcquire s sc →
          (s.readFor s.ic s.is true t 8).2.1 = none →
          let r := s.readFor s.ic s.is true t 8
          let u := r.2.2
          ((X s b).toNat ≤ leNat r.1 →
            let v := acquires u sc (u.sigAcquire t)
            exec (.waitc b a sc) s = .next (parked v (.access (.done true)) (.accessReply v.ic v.is))) ∧
          (leNat r.1 < (X s b).toNat → exec (.waitc b a sc) s = .next (u.park (.counter t (X s b) sc)))))) ∧
    (∀ c sl,
      let t := s.thread c sl
      ((t.monitors.any fun m => m.noticed) = true →
        exec (.monitorNotice c sl) s =
          .next (s.putThread c sl
            (({ t with monitors := t.monitors.map fun m => { m with triggered := m.triggered || m.noticed, noticed := false } } : Thread).wakeCause
              (s.core c).cyc 1))) ∧
      (∀ rd sc k, t.st = .parked (.monitor rd 1 sc k) → exec (.monWaitTimeout c sl) s = .next (s.putThread c sl (t.wakeCause (s.core c).cyc 2))))

/-- The copy request registers and the common registers (R213, R214): PUTF releases and fills an empty register, or waits behind
it; TAKEF takes a full one, and the oldest request that waits for it fills it again. CMN.WR is seen from 16 cycles on. -/
def Obligations.RequestRegisters : Prop :=
  ∀ (s : State) (a b d : BitVec 7) (c : BitVec 3),
    (s.cur.light = false →
      (s.cur.rename b.toNat < s.cur.bound → (∀ i < 4, s.cur.rename (a.toNat + i) < s.cur.bound) →
        s.cur.reds = [] → s.dirtyPinned s.ic = false →
        let u := s.releaseCore s.ic
        let j := (X s b).toNat % 8
        let body := withInst (fourWords (s.cur.regsFrom a.toNat 4)) s.cur.inst
        let r : Request := ⟨u.cur.inst, u.is, body, (u.core u.ic).carried⟩
        let waiting := ((u.core u.ic).waitingOf u.cur.inst).length
        let v := u.updCore u.ic fun k => { k with backing := k.backing ++ [(j, r)] }
        (tabFind (u.core u.ic).requests j = none → exec (.putf b a) s = .next (u.fillRequest u.ic j r).advance) ∧
        (∀ q, tabFind (u.core u.ic).requests j = some q →
          (waiting < u.backingDepth u.cur.inst → exec (.putf b a) s = .next v.advance) ∧
          (u.backingDepth u.cur.inst ≤ waiting → exec (.putf b a) s = .next (v.park .request)))) ∧
      (s.cur.rename a.toNat < s.cur.bound → (∀ i < 4, s.cur.rename (d.toNat + i) < s.cur.bound) → s.dirtyPinned s.ic = false →
        let j := (X s a).toNat % 8
        (tabFind (s.core s.ic).requests j = none → exec (.takef a d) s = .next (s.park (.requestEmpty j))) ∧
        (∀ r, tabFind (s.core s.ic).requests j = some r →
          let u := s.updCur fun t => t.setRegs d.toNat false ((unpackLanes 64 r.body.toNat 4).map (BitVec.ofNat 64))
          let v := u.applySig u.ic r.signature
          let w := (v.updCore v.ic fun k => { k with requests := tabDel k.requests j }).refill v.ic j
          exec (.takef a d) s = .next (w.settleInst r.inst).advance))) ∧
    (named s.cur [d] → exec (.cmnRd c d) s = .next (wrote s d (tabGet 0 (s.core s.ic).common c.toNat) false)) ∧
    (named s.cur [a] →
      exec (.cmnWr c a) s =
        .next (s.updCore s.ic fun k => { k with commonWrites := k.commonWrites ++ [⟨k.cyc, none, c.toNat, X s a⟩] }).advance)

/-! Threads, launches, the task graph and ranges (spec/09 R187 to R205). -/

/-- Creating, ending, yielding and moving threads (R191 to R196): where a slot and blocks are free, SPAWN starts a heavy child with
the registers g3 to g8 that its allocation holds (its shadow format pointer is the instance's present one, the model's choice, log 63), and
SPAWNL a light one with g3 to g10 and the issuer's pw. -/
def Obligations.ThreadControl : Prop :=
  ∀ (s : State) (a b d : BitVec 7),
    let entry := X s a
    let shape := (X s b).toNat
    let va := address s a 0 1
    let child (u : State) (size block : Nat) : Thread :=
      u.freshThread u.ic u.cur.inst (match u.inst u.cur.inst with | some i => i.fmtp | none => u.cur.fmtp) u.cur.sclp entry size block u.now
    let lightChild (u : State) (block : Nat) : Thread :=
      { st := .ready u.now false, light := true, inst := u.cur.inst, alloc := 16, block := block
        pw := (u.cur.pw.extractLsb' 0 40).setWidth 64, pc := entry, device := u.cur.device }
    let moved (home : Nat) : State :=
      let u := s.advance
      let v := u.park (.migration home)
      if u.queueRoom home then v.sendPacket home (u.cur.packet u.ic u.is) else v
    (s.cur.light = false → named s.cur [a, b, d] →
      (entry.toNat % 4 ≠ 0 ∨ shape % 16 = 0 ∨ 16 ≤ shape → exec (.spawn b a d) s = .next (wrote s d 4 false)) ∧
      (entry.toNat % 4 = 0 → shape % 16 ≠ 0 → shape < 16 →
        ((s.core s.ic).freeSlot = none → exec (.spawn b a d) s = .next (wrote s d 1 false)) ∧
        (∀ sl, (s.core s.ic).freeSlot = some sl →
          ((s.core s.ic).firstFit shape = none → exec (.spawn b a d) s = .next (wrote s d 2 false)) ∧
          (∀ block, (s.core s.ic).firstFit shape = some block → s.cur.reds = [] → s.dirtyPinned s.ic = false →
            let u := s.releaseCore s.ic
            let t := (child u (8 * shape) block).putRegs 3 false (inherited u.cur 3 6 (8 * shape))
            exec (.spawn b a d) s = .next (wrote (u.startThread u.ic sl t) d 0 false))))) ∧
    (named s.cur [a, d] →
      (entry.toNat % 4 ≠ 0 → exec (.spawnl a d) s = .next (wrote s d 4 false)) ∧
      (entry.toNat % 4 = 0 →
        ((s.core s.ic).freeSlot = none → exec (.spawnl a d) s = .next (wrote s d 1 false)) ∧
        (∀ sl, (s.core s.ic).freeSlot = some sl →
          ((s.core s.ic).firstFit 2 = none → exec (.spawnl a d) s = .next (wrote s d 2 false)) ∧
          (∀ block, (s.core s.ic).firstFit 2 = some block → s.cur.reds = [] → s.dirtyPinned s.ic = false →
            let u := s.releaseCore s.ic
            let t := (lightChild u block).putRegs 3 false (inherited u.cur 3 8 11)
            exec (.spawnl a d) s =
              .next (wrote ((u.startThread u.ic sl t).updInst u.cur.inst fun i => { i with foreign := true }) d 0 false))))) ∧
    (s.cur.reds = [] → exec .exit s = .next (s.endThread s.ic s.is)) ∧
    (s.cur.reds ≠ [] → exec .exit s = .next (s.park .reds)) ∧
    (∃ u, exec .yield s = .next u ∧
      u.cur = { s.cur with
        pc := s.cur.pc + 4, issued := none, woke := none, granted := none, forfeits := 0, wants := [], walked := []
        st := match s.cur.st with
          | .halted w => .halted w
          | .free | .ready _ _ | .seated _ _ | .parked _ | .frozen | .stopped => .ready ((s.now / 16 + 1) * 16) true }) ∧
    (s.cur.light = true → named s.cur [a] → ∀ t, s.xlate s.ic s.is {} va = .ok t → s.cur.reds = [] →
      let here := (∃ pa, t.place = .home pa) ∨ ∃ f v e, t.place = .mx f v e
      ((∃ c w, t.place = .window c w) ∨ (here ∧ t.homeCore = some s.ic) → exec (.migrate a) s = .next s.advance) ∧
      (here → t.homeCore ≠ some s.ic → exec (.migrate a) s = .next (moved (t.homeCore.getD 0))) ∧
      (∀ sp p, t.place = .remote sp p → sp ≠ 255 → s.unreachable t = false → s.accepted 9 = true →
        exec (.migrate a) s = .next (moved t.queue)) ∧
      (∀ sp p, t.place = .remote sp p → sp = 255 ∨ s.unreachable t = true ∨ s.accepted 9 = false →
        exec (.migrate a) s = .next (s.enterTrap s.ic s.is 8 va.off s.cur.pc va.space)))

/-- LAUNCH, LAUNCH.W, TQ.ENQ, TQ.DEQ and the DEP instructions (R197 to R200, spec/07 R155, R156, R158): a packet is read, checked,
released and stored; the result is in rd when the thread wakes from its reply. A stale handle is found before a count that is too wide
(the model's choice, log 22). -/
def Obligations.Launches : Prop :=
  ∀ (s : State) (a b d : BitVec 7) (t : Target),
    let va := address s a 0 1
    let k := clusterOf s.ic
    let after (u : State) (v : Nat) : State :=
      let w := u.setRd d (BitVec.ofNat 64 v) false
      parked w (.access (.done true)) (.accessReply w.ic w.is)
    let packet := s.readFor s.ic s.is (bypasses s a) t 64
    let p : Packet := BitVec.ofNat 512 (leNat packet.1)
    let r := packet.2.2.releaseCore packet.2.2.ic
    let rk := clusterOf r.ic
    (s.cur.light = false → named s.cur [a, d] → va.off.toNat % 64 = 0 → s.unreachable t = false → s.cur.redOverlap t.place 64 = false →
      (s.xlate s.ic s.is { r := true } va = .ok t → s.readHeld s.ic s.is (bypasses s a) t 64 = false → packet.2.1 = none →
        packet.2.2.cur.reds = [] → packet.2.2.dirtyPinned packet.2.2.ic = false →
        (packetOk p = false →
          exec (.launch a d) s = .next (after r 4) ∧ exec (.launchW a d) s = .next (after r 4) ∧
          exec (.tqEnq a d) s = .next (after r 4)) ∧
        (packetOk p = true →
          ((r.cluster rk).freeEntry = none →
            exec (.launch a d) s = .next (after r 1) ∧ exec (.launchW a d) s = .next (r.park (.room (.entry rk)))) ∧
          (∀ e, (r.cluster rk).freeEntry = some e →
            let f := r.fillEntry rk e p (r.core r.ic).carried
            exec (.launch a d) s = .next (after f.2 f.1) ∧ exec (.launchW a d) s = .next (after f.2 f.1)) ∧
          (queueSize ≤ (r.cluster rk).queued → exec (.tqEnq a d) s = .next (after r 1)) ∧
          ((r.cluster rk).queued < queueSize →
            exec (.tqEnq a d) s = .next (after (r.enqueue rk p (r.core r.ic).carried false) 0)))) ∧
      (s.xlate s.ic s.is { w := true } va = .ok t →
        ((s.cluster k).topLevel = none → exec (.tqDeq a d) s = .next (after s 5)) ∧
        (∀ l q rest, (s.cluster k).topLevel = some l → (s.cluster k).level l = q :: rest →
          s.writeHeld s.ic s.is (bypasses s a) t 64 = false → s.dirtyPinned s.ic = false →
          let u := (s.updCluster k fun c => c.dropHead l).queueRoomMade k
          let v := u.applySig u.ic q.signature
          exec (.tqDeq a d) s = .next (after (v.writeFor v.ic v.is (bypasses s a) t (leBytes q.packet.toNat 64)) 0)))) ∧
    (s.cur.reds = [] →
      let u := if s.cur.light then s else s.releaseCore s.ic
      let sig := if s.cur.light then allOnes512 else (u.core u.ic).carried
      let h := (X s a).toNat % 2 ^ 32
      s.cur.light = true ∨ s.dirtyPinned s.ic = false →
        (named s.cur [a, b, d] →
          let x := u.addCount h (X s b).toNat sig
          exec (.depSet b a d) s = .next (after x.2 x.1)) ∧
        (named s.cur [a, d] →
          let x := u.decrement h sig
          exec (.depDec a d) s = .next (after x.2 x.1)))

/-- Iterations and ranges (R161, R163, R202 to R205): ITER.NEXT gives the next iteration of the chunk it holds, or claims one at the
descriptor's home, as neither a release nor an acquire (the model's choice, log 66); the deque gives its bottom range to its owner and
the top half of its top range to a thief. -/
def Obligations.IterationsAndRanges : Prop :=
  ∀ (s : State) (a b d : BitVec 7) (p : BitVec 5), s.cur.light = false →
    let lo := X s a
    let hi := X s b
    let pair (u : State) (x y : Word) : State := u.updCur fun t => t.setRegs d.toNat false [x, y]
    let later (u : State) : State := parked u (.access (.done true)) (.accessReply u.ic u.is)
    let fail (u : State) (v : Nat) : State :=
      u.updCur fun t => (t.setReg (t.rename d.toNat) (BitVec.ofNat 64 v) false).setPred p false false
    let room (n : Nat) := ∀ i < n, s.cur.rename (d.toNat + i) < s.cur.bound
    let u := s.releaseCore s.ic
    let took (r : List Range) (g : BitVec 512) : State := (s.updInst s.cur.inst fun i => { i with deque := r }).applySig s.ic g
    (named s.cur [a] →
      let va := address s a 0 1
      (va.off.toNat % 32 ≠ 0 → exec (.iterInit a) s = .next (s.enterTrap s.ic s.is 2 va.off s.cur.pc va.space)) ∧
      (va.off.toNat % 32 = 0 →
        exec (.iterInit a) s = .next (s.updCur fun t => { t with fetcher := some va, cur := 0, stop := 0 }).advance)) ∧
    (room 3 →
      (s.cur.fetcher = none → exec (.iterNext p d) s = .next (fail s 6).advance) ∧
      (∀ va, s.cur.fetcher = some va → s.cur.cur ≠ s.cur.stop → exec (.iterNext p d) s = .next (s.iterGive p d).advance) ∧
      (∀ va t, s.cur.fetcher = some va → s.cur.cur = s.cur.stop → va.off.toNat % 32 = 0 →
        s.xlate s.ic s.is { r := true, w := true } va = .ok t → s.unreachable t = false → s.cur.redOverlap t.place 32 = false →
        s.pinned t.place = false →
        let r := ((s.passBy s.ic s.is t 32).takeBack (.core s.ic) t 32).readTarget t 32
        let n := leNat r.1
        r.2.1 = none →
          (nestBad n = true → exec (.iterNext p d) s = .next (later (fail r.2.2 4))) ∧
          (nestBad n = false → chunkSize n = 0 → exec (.iterNext p d) s = .next (later (fail r.2.2 6))) ∧
          (nestBad n = false → chunkSize n ≠ 0 →
            ∃ w : State, exec (.iterNext p d) s = .next (later (w.iterGive p d)) ∧
              w.cur.cur = fld n 63 0 ∧ w.cur.stop = fld n 63 0 + chunkSize n ∧ w.cur.ext = BitVec.ofNat 64 (fld n 191 128)))) ∧
    (named s.cur [a, b, d] → s.cur.reds = [] → s.dirtyPinned s.ic = false →
      (hi.toNat ≤ lo.toNat → exec (.dqPush b a d) s = .next (wrote u d 4 false)) ∧
      (lo.toNat < hi.toNat → u.curInst.depth 1 ≤ u.curInst.deque.length → exec (.dqPush b a d) s = .next (wrote u d 1 false)) ∧
      (lo.toNat < hi.toNat → u.curInst.deque.length < u.curInst.depth 1 →
        exec (.dqPush b a d) s =
          .next (wrote (u.updInst u.cur.inst fun i => { i with deque := (lo, hi, (u.core u.ic).carried) :: i.deque }) d 0 false))) ∧
    (room 2 →
      (s.curInst.deque = [] →
        exec (.dqPop d) s = .next (pair s 0 0).advance ∧
        (s.cur.rename a.toNat < s.cur.bound → exec (.dqSplit a d) s = .next (pair s 0 0).advance)) ∧
      (∀ x r, s.curInst.deque = x :: r → s.dirtyPinned s.ic = false →
        exec (.dqPop d) s = .next (pair (took r x.2.2) x.1 x.2.1).advance ∧
        (s.cur.rename a.toNat < s.cur.bound →
          let mid := BitVec.ofNat 64 (x.1.toNat + min (max 1 lo.toNat) (x.2.1.toNat - x.1.toNat))
          exec (.dqSplit a d) s =
            .next (pair (took (if mid = x.2.1 then r else (mid, x.2.1, x.2.2) :: r) x.2.2) x.1 mid).advance)) ∧
      ((∀ e ∈ s.victims, e.2.deque = []) → exec (.dqSteal d) s = .next (later (pair s 0 0))) ∧
      (∀ before e after x rest, s.victims = before ++ e :: after → (∀ f ∈ before, f.2.deque = []) →
        stealFrom e.2.deque = some (x, rest) → s.dirtyPinned s.ic = false →
        let v := s.updInst e.1 fun i => { i with deque := rest }
        exec (.dqSteal d) s = .next (later (pair (v.applySig s.ic x.2.2) x.1 x.2.1))))

/-! Traps, privilege, control registers and the kernel's levers (spec/18 R365 to R369, spec/19 R389 to R399, spec/25 R445). -/

/-- Taking a trap and coming back (spec/18 R368, R369, spec/19 R389, R392 to R394, spec/02 R43): TRAP, BRK and a word that encodes no
instruction enter the handler with the cause, the value, the pc, the space and the mode saved; a light thread, and a thread in its
handler, freezes with a record. ERET and HALT are the supervisor's. -/
def Obligations.TrapsAndReturns : Prop :=
  ∀ (s : State) (a : BitVec 7),
    let t := s.cur
    let enters (i : Instr) (code : Nat) (val : Word) : Prop :=
      ∃ u, exec i s = .next u ∧
        (t.light = false → t.inh = false →
          u.cur = { t.over with
            tepc := t.pc, tcause := BitVec.ofNat 5 code, tval := val, fspace := 0, pm := decide (t.mode = .supervisor), inh := true
            mode := .supervisor, pc := t.tvec } ∧
          u.records = s.records) ∧
        (t.light = true ∨ t.inh = true →
          u.cur = { t.over with st := .frozen } ∧
          u.records = s.records ++ [.freeze t.inst s.ic s.is (BitVec.ofNat 5 code) val t.pc t.tcause t.tval t.tepc]) ∧
        u.mem = s.mem ∧ ∀ c sl, ¬(c = s.ic ∧ sl = s.is) → u.thread c sl = s.thread c sl
    (named t [a] → enters (.trap a) 14 (X s a)) ∧
    enters .brk 13 0 ∧
    (∀ w : BitVec 32, enters (.illegalInstruction w) 0 (w.setWidth 64)) ∧
    (∀ cause : BitVec 5, cause ≠ 3 → cause ≠ 4 → enters (.instructionFetchFault cause) cause.toNat t.pc) ∧
    (∀ cause : BitVec 5, cause = 3 ∨ cause = 4 →
      exec (.instructionFetchFault cause) s = .next ((State.park { s with
        serial := s.serial + 1
        faults := s.faults ++ [⟨s.serial, .thread s.ic s.is, ⟨0, t.pc⟩, BitVec.ofNat 5 cause.toNat, t.inst, .fetch⟩] }
          (.fault s.serial)).updCur fun u => { u with issued := none })) ∧
    (t.light = true → enters .eret 0 (wordEret.setWidth 64) ∧ enters .halt 0 (wordHalt.setWidth 64)) ∧
    (t.light = false → t.mode = .user → enters .eret 1 (wordEret.setWidth 64) ∧ enters .halt 1 (wordHalt.setWidth 64)) ∧
    (t.light = false → t.mode = .supervisor →
      (t.tepc.toNat % 4 ≠ 0 → enters .eret 2 t.tepc) ∧
      (t.tepc.toNat % 4 = 0 →
        ∃ u, exec .eret s = .next u ∧
          u.cur = { t.over with
            mode := if t.pm then .supervisor else .user, inh := false, pc := t.tepc } ∧
          u.mem = s.mem) ∧
      (∃ u, exec .halt s = .next u ∧
        u.cur = { t.over with st := .stopped, pc := t.pc + 4 } ∧
        u.records = s.records ++ [.halt t.inst s.ic s.is t.pc]))

/-- The control registers and the features (spec/19 R389 to R391, R395): CRR reads, and CRW, CRS and CRC read the old value into rd
and write, set or clear; an unlisted number is illegal, one from 32 on is the supervisor's, and a read-only one is not written. -/
def Obligations.ControlRegisters : Prop :=
  ∀ (s : State) (c a d : BitVec 7),
    let n := c.toNat
    let old := s.crRead n
    let stops (i : Instr) (code : Nat) (w : InstrWord) : Prop :=
      exec i s = .next (s.enterTrap s.ic s.is code (w.setWidth 64) s.cur.pc 0)
    let readOnly := (5 ≤ n ∧ n ≤ 8) ∨ (12 ≤ n ∧ n ≤ 16) ∨ 38 ≤ n
    let changes (i : Instr) (w : InstrWord) (new : Word) (keeps : Bool) : Prop :=
      (s.cur.light = true ∨ crOk c = false → stops i 0 w) ∧
      (s.cur.light = false → crOk c = true →
        ((32 ≤ n ∧ s.cur.mode = .user) ∨ readOnly → stops i 1 w) ∧
        (¬ (32 ≤ n ∧ s.cur.mode = .user) → ¬ readOnly → named s.cur [a, d] →
          exec i s = .next ((s.setRd d old (s.cur.crFresh n)).updCur fun t =>
            (t.crWrite n new).setCrFresh n (fresh s [a] || (keeps && s.cur.crFresh n))).advance))
    (crOk c = false ∨ (s.cur.light = true ∧ ¬ ((6 ≤ n ∧ n ≤ 8) ∨ n = 13 ∨ n = 14)) → stops (.crr c d) 0 (wordCrr c d)) ∧
    (crOk c = true → s.cur.light = false ∨ (6 ≤ n ∧ n ≤ 8) ∨ n = 13 ∨ n = 14 →
      (32 ≤ n → s.cur.mode = .user → stops (.crr c d) 1 (wordCrr c d)) ∧
      (n < 32 ∨ s.cur.mode = .supervisor → named s.cur [d] → exec (.crr c d) s = .next (wrote s d old (s.cur.crFresh n)))) ∧
    changes (.crw c a d) (wordCrw c a d) (X s a) false ∧
    changes (.crs c a d) (wordCrs c a d) (old ||| X s a) true ∧
    changes (.crc c a d) (wordCrc c a d) (old &&& ~~~(X s a)) true ∧
    (s.cur.light = true → stops (.feat a d) 0 (wordFeat a d) ∧ stops (.featO a d) 0 (wordFeatO a d)) ∧
    (s.cur.light = false → named s.cur [a, d] →
      exec (.feat a d) s = .next (wrote s d (if (X s a).toNat % 2 = 0 then s.hub.accept0 else s.hub.accept1) (fresh s [a])) ∧
      exec (.featO a d) s = .next (wrote s d (if (X s a).toNat % 2 = 0 then 0xFFF else 0) (fresh s [a])))

/-- Castling holds, KILL, PREEMPT, TLB.INV and IDLE (spec/19 R396 to R399). -/
def Obligations.KernelLevers : Prop :=
  ∀ (s : State) (a b d : BitVec 7), s.cur.light = false →
    let pair := pairOf s.ic
    let u := s.releaseCore s.ic
    let inst := (u.cur.opnd a).val.toNat % 2 ^ 16
    let clears (v : State) : State := v.updCur fun t => { t with monitors := t.monitors.map fun m => { m with triggered := false } }
    (s.cur.mode = .user →
      (∀ e ∈ [(Instr.kill a d, wordKill a d), (Instr.preempt a d, wordPreempt a d), (Instr.tlbInv b a, wordTlbInv b a)],
        exec e.1 s = .next (s.enterTrap s.ic s.is 1 (e.2.setWidth 64) s.cur.pc 0))) ∧
    (s.cur.mode = .supervisor → s.cur.reds = [] → s.dirtyPinned s.ic = false →
      (named s.cur [a, d] →
        (u.liveInst inst = true → exec (.kill a d) s = .next ((wrote u d 0 false).kill inst)) ∧
        (u.liveInst inst = false → exec (.kill a d) s = .next (wrote u d 4 false)) ∧
        (u.preemptible inst = true → exec (.preempt a d) s = .next ((wrote u d 0 false).preempt inst)) ∧
        (u.preemptible inst = false → exec (.preempt a d) s = .next (wrote u d 4 false))) ∧
      (named s.cur [a, b] →
        let sel := Dropped.of u (u.cur.opnd b).val (u.cur.opnd a).val
        let accesses := u.pendingThrough fun t => sel.covers u t
        let packets := u.packetsThrough fun t => sel.covers u t
        let v := (u.dropEntries sel).relocate.wakeAll fun _ w => isCounter (fun t => sel.covers u t) w
        (accesses = [] ∧ packets = [] → exec (.tlbInv b a) s = .next v.advance) ∧
        (¬ (accesses = [] ∧ packets = []) → exec (.tlbInv b a) s = .next (v.park (.invalidate accesses packets))))) ∧
    (named s.cur [d] →
      (s.cur.hold.isSome = true → exec (.castleHold d) s = .next (wrote s d 1 false)) ∧
      (s.cur.hold = none →
        (s.castling s.ic = 0 ∨ s.pairDrained pair = true → exec (.castleHold d) s = .next (wrote s d 2 false)) ∧
        (s.castling s.ic ≠ 0 → s.pairDrained pair = false →
          ((s.pair pair).phase ≠ .idle → exec (.castleHold d) s = .next (s.park .swap)) ∧
          ((s.pair pair).phase = .idle →
            exec (.castleHold d) s = .next (wrote (s.updCur fun t => { t with hold := some s.now }) d 0 false)))) ∧
      ((s.cur.monitors.any fun m => m.triggered) = true → exec (.idle d) s = .next (wrote (clears s) d 1 false)) ∧
      ((s.cur.monitors.any fun m => m.triggered) = false →
        ((∃ m, (s.core s.ic).oldest s.cur.inst s.is = some m) → exec (.idle d) s = .next (wrote (clears s) d 3 false)) ∧
        ((s.core s.ic).oldest s.cur.inst s.is = none → exec (.idle d) s = .next (s.park (.idle (s.cur.rename d.toNat)))))) ∧
    exec .castleFree s = .next ((s.updCur fun t => { t with hold := none }).pairMoved s.ic).advance

/-! Messages and the link (spec/16 R360 to R362, spec/22 R408 to R410, spec/23 R423 to R434). -/

/-- The mailbox (spec/16 R360 to R362): EPOP takes the oldest message for the issuing slot, MB.PEEK shows it, MB.COUNT counts, and
MB.SEND is a release whose message, behind those already on their way to its instance, is accepted, waits for room, or is dropped
where no live instance has its number. -/
def Obligations.Mailbox : Prop :=
  ∀ (s : State) (a b d : BitVec 7), s.cur.light = false →
    let k := s.core s.ic
    let mine (m : Message) : Prop := m.inst = s.cur.inst ∧ m.slot = s.is
    let pair (r : BitVec 7) : Prop := ∀ i < 2, s.cur.rename (r.toNat + i) < s.cur.bound
    let put (u : State) (b : BitVec 128) : State := u.updCur fun t => t.setRegs d.toNat false [b.extractLsb' 0 64, b.extractLsb' 64 64]
    (pair d → (∀ m ∈ k.mailbox, ¬ mine m) →
      exec (.epop d) s = .next (s.park .mail) ∧ exec (.mbPeek d) s = .next (put s 0xFFFFFFFFFFFFFFFF).advance) ∧
    (pair d → ∀ m l r, k.mailbox = l ++ m :: r → mine m → (∀ x ∈ l, ¬ mine x) →
      exec (.mbPeek d) s = .next (put s m.body).advance ∧
      (m.half = true → exec (.epop d) s = .next (s.enterTrap s.ic s.is 6 0 s.cur.pc 0)) ∧
      (m.half = false → s.dirtyPinned s.ic = false →
        let taken := s.updCore s.ic fun c => { c with mailbox := l ++ r }
        exec (.epop d) s =
          .next (completed (put ((taken.acquireBytes s.ic (msgSpace m.body) (msgAddr m.body) (msgLen m.body)).mailRoom s.ic) m.body)))) ∧
    (named s.cur [d] →
      exec (.mbCount d) s =
        .next (wrote s d (BitVec.ofNat 64 (k.mailbox.countP fun m => decide (m.inst = s.cur.inst ∧ m.slot = s.is))) false)) ∧
    (s.cur.rename b.toNat < s.cur.bound → pair a →
      let slot := (X s b).toNat % 64
      let inst := (X s b).toNat / 2 ^ 16 % 2 ^ 16
      let u := s.releaseCore s.ic
      let high := (s.cur.reg (s.cur.rename (a.toNat + 1))).toNat
      (60 ≤ slot → exec (.mbSend b a) s = .next (s.enterTrap s.ic s.is 6 0 s.cur.pc 0)) ∧
      (slot < 60 → s.cur.reds = [] → s.dirtyPinned s.ic = false →
        let body := makeMsg (s.cur.reg (s.cur.rename a.toNat)).toNat (high % 2 ^ 32) (high / 2 ^ 32 % 2 ^ 16) u.cur.space.toNat 8 0
        (u.liveInst inst = false → exec (.mbSend b a) s = .next u.advance) ∧
        (u.liveInst inst = true →
          let w := u.deliverAll inst u.mailFlight
          ((w.mailFlight.any fun m => m.inst = inst) = true ∨ w.accept ⟨inst, slot, body, false, none⟩ = none →
            exec (.mbSend b a) s = .next (w.park (.room (.mail inst)))) ∧
          (∀ v, (w.mailFlight.any fun m => m.inst = inst) = false → w.accept ⟨inst, slot, body, false, none⟩ = some v →
            exec (.mbSend b a) s = .next (parked v (.access (.done true)) (.accessReply v.ic v.is))))))

/-- The link instructions (spec/23 R423, R425 to R434, spec/22 R410): illegal for a light thread and without the feature; GRP.PUT,
GRP.GET, MCST, SEQ.RD, LNK.SEND and LNK.RECV refuse, wait, or take effect as their rules say; LNK.RECV gives a packet as it came
unless a scalar step uses its number as well (R429). -/
def Obligations.LinkInstructions : Prop :=
  ∀ (s : State) (a b d : BitVec 7),
    let many (r : BitVec 7) (n : Nat) : Prop := ∀ i < n, s.cur.rename (r.toNat + i) < s.cur.bound
    let word (r : BitVec 7) (i : Nat) : Word := s.cur.reg (s.cur.rename (r.toNat + i))
    (s.cur.light = true ∨ s.accepted 8 = false →
      ∀ e ∈ [(Instr.grpPut b a d, wordGrpPut b a d), (Instr.grpGet a d, wordGrpGet a d), (Instr.mcst b a d, wordMcst b a d),
          (Instr.lnkSend b a d, wordLnkSend b a d), (Instr.lnkRecv d, wordLnkRecv d), (Instr.seqRd a d, wordSeqRd a d)],
        exec e.1 s = .next (s.enterTrap s.ic s.is 0 (e.2.setWidth 64) s.cur.pc 0)) ∧
    (s.cur.light = false → s.accepted 8 = true →
      (named s.cur [a, b, d] →
        let sel := X s a
        let g := selGroup sel
        let e := s.group g
        let r := selRank sel
        let refused := selBad sel = true ∨ geCollects e = false ∨ geNloc e ≤ r ∨ s.contributed g (selStep sel) r = true
        (refused → exec (.grpPut b a d) s = .next (completed (s.setRd d 4 false))) ∧
        (¬ refused →
          (4 ≤ s.started g → exec (.grpPut b a d) s = .next (s.park (.room (.step g)))) ∧
          (s.started g < 4 → s.cur.reds = [] → s.dirtyPinned s.ic = false →
            let u := s.releaseCore s.ic
            let step := (u.findStep g (selStep sel) true).getD (newStep g (selStep sel) true 0 1 1)
            let value := BitVec.ofNat 32 ((X s b).toNat % 2 ^ geBits e)
            exec (.grpPut b a d) s = .next (completed
              ((u.setRd d 0 false).contribute step ⟨r, 0, [value], u.ic, u.is, u.cur.inst, sel.getLsbD 63⟩))))) ∧
      (s.cur.rename a.toNat < s.cur.bound → many d 2 →
        let sel := X s a
        let g := selGroup sel
        (selBad sel = true ∨ geCollects (s.group g) = false →
          exec (.grpGet a d) s =
            .next (completed (s.draw.2.updCur fun t => t.setRegs d.toNat false [Config.freeValue s.draw.1, 4]))) ∧
        (¬ (selBad sel = true ∨ geCollects (s.group g) = false) →
          (∀ v w, s.getAnswer g (selStep sel) = some (v, w) → s.dirtyPinned s.ic = false →
            exec (.grpGet a d) s = .next (completed ((s.acquireGet s.ic w).updCur fun t => t.setRegs d.toNat false [v, w]))) ∧
          (s.getAnswer g (selStep sel) = none → exec (.grpGet a d) s = .next (s.park (.step g (selStep sel) d.toNat))))) ∧
      (s.cur.rename b.toNat < s.cur.bound → s.cur.rename d.toNat < s.cur.bound → many a 2 →
        let o := word a 0
        let g := (word a 1).toNat
        (4096 ≤ g ∨ geCasts (s.group g) = false → exec (.mcst b a d) s = .next (completed (s.setRd d (BitVec.allOnes 64) false))) ∧
        (g < 4096 → geCasts (s.group g) = true →
          (o.toNat % 8 ≠ 0 → exec (.mcst b a d) s = .next (s.enterTrap s.ic s.is 2 o s.cur.pc 0)) ∧
          (o.toNat % 8 = 0 → 2 ^ 48 ≤ o.toNat → exec (.mcst b a d) s = .next (s.enterTrap s.ic s.is 3 o s.cur.pc 0)) ∧
          (o.toNat % 8 = 0 → o.toNat < 2 ^ 48 → s.cur.reds = [] → s.dirtyPinned s.ic = false →
            let u := s.releaseCore s.ic
            let v := u.updHub fun h => { h with requests := h.requests ++ [⟨g, o, X s b, some (u.ic, u.is), u.cur.inst, u.cur.id⟩] }
            let w := if geRoot (v.group g) then v.emitOnce (.mcstStamping g none) else v.record (.multicastOut g none o (X s b))
            exec (.mcst b a d) s = .next (w.park (.stamp g (w.cur.rename d.toNat) none))))) ∧
      (named s.cur [a, d] →
        let e := s.group ((X s a).toNat % 4096)
        (geCasts e = false ∨ geMember e = false → exec (.seqRd a d) s = .next (wrote s d (BitVec.allOnes 64) false)) ∧
        (geCasts e = true → geMember e = true → s.dirtyPinned s.ic = false →
          exec (.seqRd a d) s = .next (wrote (s.applySig s.ic allOnes512) d ((geApplied e).setWidth 64) false))) ∧
      (s.cur.rename d.toNat < s.cur.bound → many b 2 → many a 8 →
        let h0 := (word b 0).toNat
        let h1 := (word b 1).toNat
        let g := h0 % 4096
        let e := s.group g
        let n := BitVec.ofNat 32 (h0 / 2 ^ 32)
        (s.is ≠ 63 → exec (.lnkSend b a d) s = .next (s.enterTrap s.ic s.is 6 0 s.cur.pc 0)) ∧
        (s.is = 63 →
          (s.sendRefused h0 h1 = true → exec (.lnkSend b a d) s = .next (completed (s.setRd d 4 false))) ∧
          (s.sendRefused h0 h1 = false →
            (h0 / 2 ^ 24 % 256 ≠ geTopo e → exec (.lnkSend b a d) s = .next (completed (s.setRd d 3 false))) ∧
            (h0 / 2 ^ 24 % 256 = geTopo e →
              (s.buffersHeld g n (h1 / 2 ^ 32 % 2 ^ 32 / (h1 / 2 ^ 10 % 2 ^ 16)) = true →
                exec (.lnkSend b a d) s = .next (s.park (.room (.buffer g)))) ∧
              (s.buffersHeld g n (h1 / 2 ^ 32 % 2 ^ 32 / (h1 / 2 ^ 10 % 2 ^ 16)) = false → s.cur.reds = [] → s.dirtyPinned s.ic = false →
                ∃ (p : Contribution) (x : StepState), p.rank = h0 / 2 ^ 14 % 2 ^ 10 ∧ p.offset = h1 / 2 ^ 32 % 2 ^ 32 ∧
                  p.elems.length = h1 / 2 ^ 26 % 64 ∧ x.group = g ∧ x.stepNo = n ∧
                  exec (.lnkSend b a d) s = .next (completed (((s.releaseCore s.ic).setRd d 0 false).contribute x p))))))) ∧
      (many d 10 →
        (s.is ≠ 63 → exec (.lnkRecv d) s = .next (s.enterTrap s.ic s.is 6 0 s.cur.pc 0)) ∧
        (s.is = 63 →
          ((s.core s.ic).results = [] → exec (.lnkRecv d) s = .next (s.park (.element 121))) ∧
          (∀ p r, (s.core s.ic).results = p :: r →
            let x := (s.updCore s.ic fun k => { k with results := r }).blurPacket p
            exec (.lnkRecv d) s =
              .next (completed (x.2.updCur fun t => t.setRegs d.toNat false (recvRegs (s.group p.group) x.1)))) ∧
          (∀ p, s.mixedUse p.group p.stepNo false = false → s.blurPacket p = (p, s)))))

/-! Engines, vats, seeds and the decode table (spec/16 R344 to R359). -/

/-- Submissions to the engines (spec/16 R344 to R346, R350 to R354): MX.SUBMIT, MX.RUN and MX.NORM push a job, CP.GO, IX.GO and
IX.RESUME a command, EPUSH the one that its selector names, unless its feature is off, which is found first (spec/02 R43), and MX.XCHG joins a press; each
is a release. -/
def Obligations.EnginePushes : Prop :=
  ∀ (s : State) (a b d : BitVec 7) (t : Target), s.cur.light = false → s.cur.reds = [] → s.dirtyPinned s.ic = false →
    let k := clusterOf s.ic
    let c := s.cluster k
    let u := s.releaseCore s.ic
    let va := address s a 0 1
    let four : Prop := ∀ i < 4, s.cur.rename (a.toNat + i) < s.cur.bound
    let found (align : Nat) : Prop :=
      va.off.toNat % align = 0 ∧ s.ownSpace va.space = true ∧ s.xlate s.ic s.is { r := true } va = .ok t ∧ s.unreachable t = false
    let id (v : State) (e : Nat) : BitVec 16 := jobId ((v.cluster k).job e).gen e
    let pushes (i : Instr) (norm : Bool) (align : Nat) : Prop :=
      (∀ e, c.freeJob = some e →
        let v := u.acceptJob k e norm va
        exec i s = .next (completed (v.setRd d ((id v e).setWidth 64) false))) ∧
      (c.freeJob = none → exec i s = .next (s.park (.room (.job k))))
    let closed (i : Instr) : Prop := c.withdrawn = true → exec i s = .next (completed (s.setRd d (BitVec.allOnes 64) false))
    let command := fourWords (s.cur.regsFrom a.toNat 4)
    let copies (i : Instr) (v : State) : Prop :=
      (copyQueueSize ≤ c.copyQueue.length → exec i s = .next (s.park (.room (.copy k)))) ∧
      (c.copyQueue.length < copyQueueSize →
        exec i s = .next (completed
          ((v.updCluster k fun x => { x with copyQueue := x.copyQueue ++ [command] }).emitOnce (.copyBeat k (reqChan command)))))
    let indexes (i : Instr) (resume : Bool) (v : State) : Prop :=
      (indexQueueSize ≤ c.indexQueue.length → exec i s = .next (s.park (.room (.index k)))) ∧
      (c.indexQueue.length < indexQueueSize →
        exec i s = .next (completed
          ((v.updCluster k fun x => { x with indexQueue := x.indexQueue ++ [⟨va, u.cur.inst, resume⟩] }).kickIndex k)))
    (named s.cur [a, d] → s.accepted 2 = true → found 128 →
      closed (.mxSubmit a d) ∧
      (c.withdrawn = false → pushes (.mxSubmit a d) false 128 ∧
        (∀ e, c.freeJob = some e →
          let v := u.acceptJob k e false va
          exec (.mxRun a d) s = .next (v.park (.jobRun (id v e) (v.cur.rename d.toNat)))) ∧
        (c.freeJob = none → exec (.mxRun a d) s = .next (s.park (.room (.job k))))) ∧
      (c.withdrawn = true →
        let v := wrote s d 0xFFFFFFFF00000073 false
        exec (.mxRun a d) s = .next (v.enterTrap v.ic v.is 11 s.cur.pc v.cur.pc 0))) ∧
    (named s.cur [a, d] → s.accepted 4 = true → found 64 →
      closed (.mxNorm a d) ∧ (c.withdrawn = false → pushes (.mxNorm a d) true 64)) ∧
    (four → s.is = 62 → copies (.cpGo a) u) ∧
    (named s.cur [a] → s.accepted 7 = true → found 64 →
      indexes (.ixGo a) false u ∧ indexes (.ixResume a) true u) ∧
    (s.cur.rename b.toNat < s.cur.bound → s.cur.rename d.toNat < s.cur.bound → four →
      let q := (X s b).toNat % 4
      (q = 0 → s.is ≠ 62 → exec (.epush b a d) s = .next (s.enterTrap s.ic s.is 6 0 s.cur.pc 0)) ∧
      (q = 0 → s.is = 62 → copies (.epush b a d) (u.setRd d 0 false)) ∧
      (q = 1 → named s.cur [a] → s.accepted 7 = true → found 64 → indexes (.epush b a d) false (u.setRd d 0 false)) ∧
      (q = 2 → named s.cur [a, d] → s.accepted 2 = true → found 128 →
        closed (.epush b a d) ∧ (c.withdrawn = false → pushes (.epush b a d) false 128)) ∧
      (q = 3 → exec (.epush b a d) s = .next (s.enterTrap s.ic s.is 6 0 s.cur.pc 0))) ∧
    (s.cur.rename b.toNat < s.cur.bound →
      (X s b).toNat % 4 = 1 ∧ s.accepted 7 = false ∨ (X s b).toNat % 4 = 2 ∧ s.accepted 2 = false →
      exec (.epush b a d) s = .next (s.enterTrap s.ic s.is 0 ((wordEpush b a d).setWidth 64) s.cur.pc 0)) ∧
    (named s.cur [a, d] → s.accepted 6 = true → found 32 → s.cur.redOverlap t.place 32 = false →
      let r := s.readFor s.ic s.is (bypasses s a) t 32
      s.readHeld s.ic s.is (bypasses s a) t 32 = false → r.2.1 = none →
      let x : BitVec 256 := BitVec.ofNat 256 (leNat r.1)
      let v := r.2.2
      (xdBad (v.scratchOf v.cur.inst) x = true → exec (.mxXchg a d) s = .next (wrote v d 1 false)) ∧
      (xdBad (v.scratchOf v.cur.inst) x = false →
        let twin (y : Participant) : Prop := y.key = xdKey x ∧ y.p = xdP x
        ((∃ y ∈ (v.cluster (clusterOf v.ic)).press, twin y) → exec (.mxXchg a d) s = .next (wrote v d 3 false)) ∧
        ((∀ y ∈ (v.cluster (clusterOf v.ic)).press, ¬ twin y) → v.cur.reds = [] → v.dirtyPinned v.ic = false →
          let w := v.releaseCore v.ic
          let joined := (w.updCluster (clusterOf v.ic) fun c => { c with
            press := c.press ++ [{ key := xdKey x, p := xdP x, core := w.ic, slot := w.is, inst := w.cur.inst, src := xdSrc x, dst := xdDst x
                                   frag := xdFrag x, tbl := xdTbl x }] }).park (.press (xdKey x) (w.cur.rename d.toNat))
          exec (.mxXchg a d) s = .next
            (if (joined.cluster (clusterOf v.ic)).pressFull (xdKey x) then joined.emitOnce (.pressFormation (clusterOf v.ic) (xdKey x))
              else joined))))

/-- Job tracking, vats, seeds and the decode table (spec/16 R346 to R349, R353, R355 to R359): JOB.POLL and JOB.WAIT acquire an
ended job's span, JOB.CANCEL stops the own instance's job, CP.WP reads a write pointer, VAT.INIT clears elements, VAT.CVT and FMT.LD
start their reads, and a seed slot is written and read; all are illegal for a light thread. -/
def Obligations.EngineTools : Prop :=
  ∀ (s : State) (a b d : BitVec 7) (n : BitVec 4),
    let k := s.cluster (clusterOf s.ic)
    let va := address s a 0 1
    let id := (X s a).setWidth 16
    let acquired (j : Option JobEntry) : State := s.acquireJob s.ic j
    (s.cur.light = true →
      ∀ e ∈ [(Instr.jobPoll a d, wordJobPoll a d), (Instr.jobWait a d, wordJobWait a d), (Instr.jobCancel a d, wordJobCancel a d),
          (Instr.cpWp a d, wordCpWp a d), (Instr.vatInit b a d, wordVatInit b a d), (Instr.vatCvt b a d, wordVatCvt b a d),
          (Instr.seedSet n a, wordSeedSet n a), (Instr.seedGet n d, wordSeedGet n d), (Instr.seedGetG n d, wordSeedGetG n d),
          (Instr.fmtLd a d, wordFmtLd a d)],
        exec e.1 s = .next (s.enterTrap s.ic s.is 0 (e.2.setWidth 64) s.cur.pc 0)) ∧
    (s.cur.light = false →
      (named s.cur [a, d] → s.accepted 2 = true →
        (k.named id = none → s.dirtyPinned s.ic = false →
          exec (.jobPoll a d) s = .next (wrote (acquired none) d (BitVec.ofNat 64 (k.jobWord id)) false) ∧
          exec (.jobWait a d) s = .next (wrote (acquired none) d 4 false)) ∧
        (k.named id = none → exec (.jobCancel a d) s = .next (wrote s d 4 false)) ∧
        (∀ e j, k.named id = some (e, j) →
          (j.st = .ended → s.dirtyPinned s.ic = false →
            exec (.jobPoll a d) s = .next (wrote (acquired (some j)) d (BitVec.ofNat 64 (k.jobWord id)) false) ∧
            exec (.jobWait a d) s = .next (wrote (acquired (some j)) d (BitVec.ofNat 64 j.word) false)) ∧
          (j.st ≠ .ended →
            exec (.jobPoll a d) s = .next (wrote s d (BitVec.ofNat 64 (k.jobWord id)) false) ∧
            exec (.jobWait a d) s = .next (s.park (.jobWait id (s.cur.rename d.toNat)))) ∧
          (j.inst ≠ s.cur.inst → exec (.jobCancel a d) s = .next (wrote s d (BitVec.ofNat 64 (j.word + 512)) false)) ∧
          (j.inst = s.cur.inst →
            exec (.jobCancel a d) s =
              .next ((s.setRd d (BitVec.ofNat 64 j.word) false).cancelJob (clusterOf s.ic) e j).advance))) ∧
      (named s.cur [a, d] → s.dirtyPinned s.ic = false →
        let c := k.channel ((X s a).toNat % 16)
        let pointer := BitVec.ofNat 64 (c.ctag.toNat * 2 ^ 48 + c.done % 2 ^ 48)
        (c.dst = none → exec (.cpWp a d) s = .next (wrote s d pointer false)) ∧
        (∀ x, c.dst = some x →
          exec (.cpWp a d) s = .next (wrote (s.acquireBytes s.ic x.space x.off.toNat c.done) d pointer false))) ∧
      (named s.cur [a, b, d] →
        let count := (X s b).toNat
        (va.off.toNat % 16 ≠ 0 →
          exec (.vatInit b a d) s = .next (s.enterTrap s.ic s.is 2 va.off s.cur.pc va.space) ∧
          exec (.vatCvt b a d) s = .next (s.enterTrap s.ic s.is 2 va.off s.cur.pc va.space)) ∧
        (va.off.toNat % 16 = 0 →
          (count = 0 ∨ 2 ^ 24 < count → exec (.vatInit b a d) s = .next (wrote s d 4 false)) ∧
          (∀ t, 0 < count → count ≤ 256 → va.off.toNat % 4096 + 16 * count ≤ 4096 → s.xlate s.ic s.is { w := true } va = .ok t →
            s.unreachable t = false →
            ((∃ f v e, t.place = .mx f v e) →
              exec (.vatInit b a d) s = .next (State.park { s with
                serial := s.serial + 1
                faults := s.faults ++ [⟨s.serial, .thread s.ic s.is, t.va, 3, s.cur.inst, .write⟩] } (.fault s.serial))) ∧
            ((∀ f v e, t.place ≠ .mx f v e) → s.cur.redIn [(t, 16 * count)] = false → s.planPinned Config.clusters [(t, 16 * count)] = false →
              let u := (s.writeFor s.ic s.is true t (leBytes 0 (16 * count))).setRd d 0 false
              exec (.vatInit b a d) s = .next (parked u (.access (.done true)) (.accessReply u.ic u.is)))) ∧
          (∀ t, s.xlate s.ic s.is { r := true } va = .ok t → s.unreachable t = false →
            (vatBad (X s b) = true →
              exec (.vatCvt b a d) s = .next ((s.setRd d 0 false).addVxf { nv := true } false).advance) ∧
            (vatBad (X s b) = false →
              exec (.vatCvt b a d) s = .next (parked s (.access (.vatRead t d.toNat (X s b))) (.accessReply s.ic s.is)))))) ∧
      (named s.cur [a] →
        exec (.seedSet n a) s = .next (s.updCore s.ic fun c => c.setSeed (threadWriter s.cur.id) n.toNat (X s a)).advance) ∧
      (named s.cur [d] →
        let seed := (s.core s.ic).seedSeen s.is n.toNat
        exec (.seedGet n d) s = .next (wrote s d seed.value false) ∧
        exec (.seedGetG n d) s = .next (wrote s d (seed.gen.setWidth 64) false)) ∧
      (named s.cur [a, d] →
        (va.off.toNat % 4 ≠ 0 → exec (.fmtLd a d) s = .next (s.enterTrap s.ic s.is 2 va.off s.cur.pc va.space)) ∧
        (∀ t, va.off.toNat % 4 = 0 → va.off.toNat % 4096 ≤ 3072 → s.xlate s.ic s.is { r := true } va = .ok t → s.unreachable t = false →
          (s.tableTaken va.off = true → exec (.fmtLd a d) s = .next (wrote s d 1 false)) ∧
          (s.tableTaken va.off = false →
            exec (.fmtLd a d) s = .next (parked s (.access (.tableRead [(t, 1024)] va.off d.toNat)) (.accessReply s.ic s.is))))))

/-! Events of memory, faults, sweeps and migration (spec/09, spec/10 R231 to R233, spec/11 R247, spec/07 R154). -/

/-- Walks, faults, refreshes, sweeps and migrants (spec/10 R228, R230, R231, R239, spec/11 R249, spec/12 R264, spec/07 R154), and where
each of these events completes: PAGE_TABLE_WALK lets the thread translate again, by the entry that its walk brought, or gives it a fault
record; FAULT_RETRY and FAULT_DELIVER end a thread's wait, with its trap where the fault is delivered; REFRESH_DUE postpones a refresh or
issues it, and at a debt of eight refreshes the whole pseudo-channel; POSTPONED_REFRESH pays one; SWEEP moves the current halves into the
previous ones, SWEEP_CORE_STEP takes each core's report, and SWEEP_CLEAR clears them; MIGRATION_PACKET_ARRIVAL takes a packet into the
queue while it has room, and MIGRATION_RETRY sends a refused one again. The schedule of these events is the model's own, and a free value
says whether a refresh is postponed (DESIGN CHOICE, logs 2, 3 and 36). -/
def Obligations.MemoryEvents : Prop :=
  ∀ (s : State) (n c sl : Nat),
    (∀ va kind, (s.thread c sl).wait = some (.walk va kind) →
      let u := (s.refillTlb c va).2
      (∀ base size leaf k, (s.refillTlb c va).1 = .leaf base size leaf k →
        exec (.pageTableWalk c sl) s = .next (((u.updThread c sl fun t =>
          { t with walked := t.walked ++ [⟨s.normSpace va.space, base, size, leaf, k⟩] }).wake c sl).settleHalted c sl)) ∧
      ((s.refillTlb c va).1 = .access →
        exec (.pageTableWalk c sl) s = .next ((u.faultThread c sl 3 kind va).settleHalted c sl)) ∧
      ((s.refillTlb c va).1 = .page →
        exec (.pageTableWalk c sl) s =
          .next ((u.faultThread c sl (if s.lostSpace va.space then 3 else 4) kind va).settleHalted c sl)) ∧
      ((s.refillTlb c va).1 = .hole → exec (.pageTableWalk c sl) s = .fault .nothingThere)) ∧
    ((∀ va kind, (s.thread c sl).wait ≠ some (.walk va kind)) → exec (.pageTableWalk c sl) s = .next s) ∧
    (s.faultRecord n = none → exec (.faultRetry n) s = .next s ∧ exec (.faultDeliver n) s = .next s) ∧
    (∀ f core slot, s.faultRecord n = some f → f.who = .thread core slot → s.faultedThread n = some (c, sl) →
      exec (.faultRetry n) s =
        .next ({ s with faults := s.faults.filter fun g => g.number != n }.updThread c sl fun t => t.afresh (s.core c).cyc) ∧
      ((s.thread c sl).st = .parked (.fault n) → (s.thread c sl).light = false → (s.thread c sl).inh = false →
        ∃ u, exec (.faultDeliver n) s = .next u ∧ (∀ g ∈ u.faults, g.number ≠ n) ∧ u.mem = s.mem ∧
          (u.thread c sl).st = .ready (s.core c).cyc false ∧ (u.thread c sl).tepc = (s.thread c sl).pc ∧
          (u.thread c sl).tcause = f.code ∧ (u.thread c sl).tval = f.va.off ∧ (u.thread c sl).pc = (s.thread c sl).tvec ∧
          (u.thread c sl).mode = .supervisor ∧ (u.thread c sl).inh = true)) ∧
    (tabGet 0 s.debts n < 8 →
      exec (.refreshDue n) s = .next { s.draw.2 with
        debts := if (Config.freeValue s.draw.1).getLsbD 0 then tabPut s.debts n (tabGet 0 s.debts n + 1) else s.debts }) ∧
    (8 ≤ tabGet 0 s.debts n →
      ∃ d : Tab Nat, exec (.refreshDue n) s = .next { s with debts := d } ∧
        ∀ m, tabGet 0 d m = if m / 16 = n / 16 then 0 else tabGet 0 s.debts m) ∧
    exec (.postponedRefresh n) s = .next { s with debts := tabPut s.debts n (tabGet 0 s.debts n - 1) } ∧
    (s.hub.sweep = .idle →
      exec .sweep s = .next ({ s with
        cores := s.cores.map fun (e : Nat × Core) => (e.1, { e.2 with sighPrev := e.2.sighPrev ||| e.2.sighCur, sighCur := 0 })
        clusters := s.clusters.map fun (e : Nat × Cluster) => (e.1, { e.2 with sigs := e.2.sigs.map SigEntry.age })
        hub := { s.hub with sweep := .reporting [] } }.emitAll ((span 0 Config.cores).map Instr.sweepCoreStep)) ∧
      exec (.sweepCoreStep c) s = .next s ∧ exec .sweepClear s = .next s) ∧
    (∀ l, s.hub.sweep = .reporting l →
      exec .sweep s = .next { s with hub := { s.hub with sweepDue := true } } ∧
      (c ∈ l ∨ Config.cores ≤ c ∨ s.dirtyPinned c = true → exec (.sweepCoreStep c) s = .next s) ∧
      (c ∉ l → c < Config.cores → s.dirtyPinned c = false →
        let u := (s.sweepCore c).updHub fun h => { h with sweep := .reporting (l ++ [c]) }
        exec (.sweepCoreStep c) s = .next (if l.length + 1 = Config.cores then u.emitOnce .sweepClear else u)) ∧
      (l.length < Config.cores → exec .sweepClear s = .next s) ∧
      (Config.cores ≤ l.length →
        let u := { s with
          cores := s.cores.map fun (e : Nat × Core) => (e.1, { e.2 with sighPrev := 0 })
          clusters := s.clusters.map fun (e : Nat × Cluster) => (e.1, { e.2 with sigs := e.2.sigs.map fun x => { x with prev := 0 } })
          hub := { s.hub with sweep := .idle, sweepDue := false } }
        exec .sweepClear s = .next (if s.hub.sweepDue then u.emitOnce .sweep else u))) ∧
    ((∀ e ∈ s.flight, e.1 ≠ c) → exec (.migrationPacketArrival c) s = .next s) ∧
    (∀ p l, c < 1024 → s.flight = (c, p) :: l →
      (16 ≤ (s.core c).migIn.length → exec (.migrationPacketArrival c) s = .next s) ∧
      ((s.core c).migIn.length < 16 →
        let taken (u : State) : State := u.updCore c fun k => { k with migIn := k.migIn ++ [p] }
        let left : State := { s with flight := l }
        (p.kind = 0 → p.device = 0 →
          exec (.migrationPacketArrival c) s = .next (State.serveQueue c 17 (taken (left.freeThread p.core p.slot)))) ∧
        (p.kind ≠ 0 ∨ p.device ≠ 0 → exec (.migrationPacketArrival c) s = .next (State.serveQueue c 17 (taken left))))) ∧
    (∀ home, (s.thread c sl).st = .parked (.migration home) →
      (s.inFlight c sl = true ∨ s.queueRoom home = false → exec (.migrationRetry c sl) s = .next s) ∧
      (s.inFlight c sl = false → s.queueRoom home = true →
        ((s.thread c sl).light = true → exec (.migrationRetry c sl) s = .next (s.sendPacket home ((s.thread c sl).packet c sl))) ∧
        ((s.thread c sl).light = false →
          exec (.migrationRetry c sl) s = .next (s.updThread c sl fun t =>
            { t with st := .ready (s.core c).cyc false, woke := some (s.core c).cyc }))))

/-- Wheels, queues, stealing, dependencies, retirement and delivery (spec/07 R138, R141, R147 to R151, R157 to R160, spec/08 R177, spec/13
R279): the scheduler's pass once per wheel, a dispatch that takes effect at its core's boundary, promotion after 4,096 wheels, a steal
from a victim that yields, a pending entry whose counter is 0, one decrement of a live handle, the end of a task, and messages and
elements in order. Each of WHEEL_BOUNDARY, CLUSTER_SCHEDULER_PASS, PACKET_PROMOTION, STEAL_REQUEST, STEAL_ROUND_WAIT,
PENDING_LAUNCH_MOVE, DEPENDENCY_DECREMENT, TASK_RETIREMENT, MAILBOX_DELIVERY and PORT_ELEMENT_ARRIVAL completes so. The schedule of these
events is the model's own (DESIGN CHOICE, log 2). -/
def Obligations.SchedulerEvents : Prop :=
  ∀ (s : State) (k c n level thief victim : Nat) (h : BitVec 32) (dir : Port),
    let boundary (v : State) : State :=
      if (v.core c).frozenSwap then v.updCore c fun x => { x with boundaryDone := true } else v.updCore c Core.boundary
    (∀ v w, (c % 8 = 0 → exec (.clusterSchedulerPass (c / 8)) s = .next v) → (c % 8 ≠ 0 → v = s) → v.arrive c = .next w →
      let u := boundary (State.serveQueue c 17 w)
      exec (.wheelBoundary c) s = .next u ∧ (u.core c).boundaryDone = true) ∧
    ((s.core c).arriving = none → s.arrive c = .next s) ∧
    (∀ q, (s.core c).arriving = some q →
      (s.swapping c = true ∨ s.dirtyPinned c = true → s.arrive c = .next s) ∧
      (s.swapping c = false → s.dirtyPinned c = false →
        let u := (s.updCore c fun x => { x with arriving := none }).pairMoved c
        (u.fits c q.packet = false → s.arrive c = .next (u.putBack (clusterOf c) q)) ∧
        (u.fits c q.packet = true →
          (∀ i, u.prepare q.packet = .status i → s.arrive c = .next (u.record (.dispatchFailed q.packet i))) ∧
          (∀ x seats banks i, u.prepare q.packet = .ok x →
            (u.core c).seats (8 * pktRegs q.packet) (pktThreads q.packet) = some seats → (u.core c).banksFor q.packet = some banks →
            u.newNumber (clusterOf c) = some i → s.arrive c = .next (u.start c q x seats banks i))))) ∧
    (let p := s.updCluster k fun x =>
      (((({ x with wheels := x.wheels + 1 } : Cluster).promote 1 queueSize).promote 2 queueSize).promote 3 queueSize)
    ((p.cluster k).withdrawn = true ∨ p.kernelReady = false → exec (.clusterSchedulerPass k) s = .next p) ∧
    ((p.cluster k).withdrawn = false → p.kernelReady = true →
      (p.placeable k = none → exec (.clusterSchedulerPass k) s = .next (p.steal k)) ∧
      (∀ l d q, p.placeable k = some (l, d, q) →
        exec (.clusterSchedulerPass k) s =
          .next (((p.updCluster k fun x => x.dropHead l).queueRoomMade k).updCore d fun x => { x with arriving := some q })))) ∧
    (let x := s.cluster k
    (level = 0 ∨ x.level level = [] ∨ (∃ q r, x.level level = q :: r ∧ x.wheels < q.since + 4096) →
      exec (.packetPromotion k level) s = .next (s.updCluster k fun _ => x)) ∧
    (∀ q, 0 < level → x.level level = [q] → q.since + 4096 ≤ x.wheels →
      exec (.packetPromotion k level) s = .next (s.updCluster k fun y => { y with
        queue := tabPut (tabPut y.queue level []) (level - 1) (x.level (level - 1) ++ [{ q with since := x.wheels }]) }))) ∧
    (let a := s.updCluster thief fun x => { x with stealAsked := false }
    (a.maySteal thief = false ∨ thief = victim → exec (.stealRequest thief victim) s = .next a) ∧
    (a.maySteal thief = true → thief ≠ victim →
      (∀ l q, a.yields victim = some (l, q) →
        exec (.stealRequest thief victim) s = .next
          ((((a.updCluster victim fun x => x.dropHead l).queueRoomMade victim).enqueue thief q.packet q.signature q.host).updCluster thief
            fun x => { x with stealNext := 0 })) ∧
      (a.yields victim = none →
        let i := (a.cluster thief).stealNext + 1
        (i < ringLength →
          exec (.stealRequest thief victim) s = .next ((a.updCluster thief fun x => { x with stealNext := i }).askNext thief)) ∧
        (ringLength ≤ i →
          exec (.stealRequest thief victim) s = .next (a.updCluster thief fun x => { x with stealNext := 0, stealWait := some x.wheels }))))) ∧
    (let a := s.updCluster k fun x => { x with stealWait := none, stealNext := 0 }
    (a.maySteal k = true → (a.cluster k).stealAsked = false → exec (.stealRoundWait k) s = .next (a.askNext k)) ∧
    (a.maySteal k = false ∨ (a.cluster k).stealAsked = true → exec (.stealRoundWait k) s = .next a)) ∧
    (let x : LaunchEntry := tabGet {} (s.cluster k).store n
    (x.full = false ∨ x.counter ≠ 0 ∨ queueSize ≤ (s.cluster k).queued → exec (.pendingLaunchMove k n) s = .next s) ∧
    (x.full = true → x.counter = 0 → (s.cluster k).queued < queueSize →
      let moved := (s.updCluster k fun y => { y with store := tabPut y.store n { x with full := false } }).enqueue k x.packet x.signature false
      exec (.pendingLaunchMove k n) s = .next ((span (8 * k) 8).foldl (fun u d => u.wakeIf d (isRoom (.entry k))) moved))) ∧
    (let entry := h.toNat
    (fld entry 31 31 = 0 ∨ fld entry 30 23 ≠ 0 ∨ s.liveEntry entry = none → exec (.dependencyDecrement h) s = .next s) ∧
    (∀ x, fld entry 31 31 = 1 → fld entry 30 23 = 0 → s.liveEntry entry = some x →
      let u := s.putEntry entry { x with counter := x.counter - 1 }
      (x.counter = 1 → exec (.dependencyDecrement h) s = .next (u.emitOnce (.pendingLaunchMove (handleCluster entry) (handleEntry entry)))) ∧
      (x.counter ≠ 1 → exec (.dependencyDecrement h) s = .next u))) ∧
    (s.inst n = none → exec (.taskRetirement n) s = .next s) ∧
    (∀ i, s.inst n = some i →
      let held := if i.host then i.cores else [i.core]
      let busy := s.hasThread n = true ∨ s.hasCopy n = true ∨ s.hasJob n = true ∨ s.overflowHeld n i = true ∨ held.any s.dirtyPinned = true
      (i.st ≠ .live ∨ busy → exec (.taskRetirement n) s = .next s) ∧
      (i.st = .live → ¬ busy →
        let r := held.foldl (fun u d => u.releaseCore d) s
        let sig := if i.foreign then allOnes512 else (r.core i.core).carried
        let left := ((r.freePlace n i).successor (pktSucc i.packet 0) sig).successor (pktSucc i.packet 1) sig
        exec (.taskRetirement n) s = .next (if i.host then left.hostCompletes n else left))) ∧
    (s.mailFlight = [] → exec (.mailboxDelivery n) s = .next s) ∧
    (∀ m l, s.mailFlight = m :: l → m.inst = n → m.sender = none →
      (s.accept m = none → exec (.mailboxDelivery n) s = .next (s.deliverAll n l)) ∧
      (∀ u, s.accept m = some u →
        exec (.mailboxDelivery n) s = .next (State.deliverAll { u with mailFlight := u.mailFlight.erase m } n l))) ∧
    (neighbour c dir = none → exec (.portElementArrival c dir) s = .next s) ∧
    (∀ d, neighbour c dir = some d →
      let side := portNumber dir
      let back := portNumber (facing dir)
      (tabGet [] (s.core d).sends back = [] → exec (.portElementArrival c dir) s = .next s) ∧
      (∀ e l, tabGet [] (s.core d).sends back = e :: l →
        let held := s.exchanging c = true ∨ s.exchanging d = true ∨ s.portRoom c ≤ (tabGet [] (s.core c).ports side).length
        (held → exec (.portElementArrival c dir) s = .next s) ∧
        (¬ held →
          let joined : State := (s.updCore d fun x => { x with sends := tabPut x.sends back l }).updCore c fun x => { x with
            ports := tabPut x.ports side (tabGet [] x.ports side ++ [e]) }
          exec (.portElementArrival c dir) s = .next ((joined.wakeIf c (isElement (122 + side))).sideMoved c dir))))

/-- The matrix engine's events (spec/14 R297 to R301, R312 to R315, R320): cards are read and the oldest job starts once the engine's
clock runs; lines are fetched whole, and a fault, poison or a window address ends or holds the job; a tile that fails its estimate is
computed again or recorded; a cancelled job ends with CODE 6; a job of a halted instance yields; an idle engine sleeps and wakes by
grant; and a rind directory job reads, checks and recomputes. Each of MATRIX_JOB_START, TILE_FETCH, K_GROUP, TILE_WRITE_BACK, JOB_END,
ENGINE_CLOCK_GATE, ENGINE_WAKE_GRANT, ENGINE_WAKE_READY, ENGINE_YIELD and RIND_NORM_JOB completes so. The schedule of these events is the
model's own (DESIGN CHOICE, log 2). -/
def Obligations.EngineEvents : Prop :=
  ∀ (s : State) (k line die : Nat),
    let c := s.cluster k
    let idle (i : Instr) : Prop := exec i s = .next s
    (let a := c.jobs.foldl (fun u x => u.readCard k x.1) s
    (∀ e, (a.cluster k).running = some e → exec (.matrixJobStart k) s = .next (a.launchJob k e)) ∧
    ((a.cluster k).running = none →
      (a.nextJob k = none → exec (.matrixJobStart k) s = .next a) ∧
      (∀ e j, a.nextJob k = some (e, j) →
        ((a.cluster k).clock = .ready → exec (.matrixJobStart k) s = .next (a.startJob k e j)) ∧
        ((a.cluster k).clock = .gated → exec (.matrixJobStart k) s = .next (a.wakeEngine k)) ∧
        ((a.cluster k).clock = .requested ∨ (a.cluster k).clock = .granted → exec (.matrixJobStart k) s = .next a)))) ∧
    (s.runningJob k = none → idle (.tileFetch k line) ∧ idle (.kGroup k) ∧ idle (.tileWriteBack k) ∧ idle (.engineYield k) ∧ idle (.rindNormJob k)) ∧
    (∀ e j r, s.runningJob k = some (e, j, r) →
      let va : VAddr := ⟨cdSpace r.card, BitVec.ofNat 64 (128 * line)⟩
      (r.going = false ∨ r.ready = false ∨ (tabFind r.lines line).isSome = true → idle (.tileFetch k line)) ∧
      (r.going = true → r.ready = true → tabFind r.lines line = none →
        let target := s.engineTarget j.inst { r := true } va
        (target = .window → exec (.tileFetch k line) s = .next (s.jobFault k e .read 7 va)) ∧
        (target = .access ∨ target = .miss → exec (.tileFetch k line) s = .next (s.jobFault k e .read 3 va)) ∧
        (target = .page → exec (.tileFetch k line) s = .next (s.jobFault k e .read 4 va)) ∧
        (∀ t, target = .ok t →
          let reads (v : State) : Prop :=
            let x := v.readTarget t 128
            (∀ i, x.2.1 = some i → exec (.tileFetch k line) s = .next (x.2.2.jobFault k e .read 12 (VAddr.plus va i))) ∧
            (x.2.1 = none → x.2.2.pinLine k t line = none → exec (.tileFetch k line) s = .next v) ∧
            (∀ u, x.2.1 = none → x.2.2.pinLine k t line = some u →
              let fetched := u.updRun k e fun q => { q with lines := tabPut q.lines line (BitVec.ofNat 1024 (leNat x.1)) }
              exec (.tileFetch k line) s = .next (fetched.emitOnce (.kGroup k)))
          (t.place.banks 128 = none → reads s) ∧
          (∀ d l, t.place.banks 128 = some (d, l) →
            ((s.core d).started = false → reads s) ∧
            ((s.core d).started = true →
              (l.all (s.core d).bankFree = true → reads (s.updCore d fun y => { y with busy := y.busy ++ l })) ∧
              (l.all (s.core d).bankFree = false →
                exec (.tileFetch k line) s = .next (s.updCore d fun y => { y with deferred := y.deferred ++ [.tileFetch k line] })))))) ∧
      (r.going = false ∨ r.ready = false ∨ j.norm = true → idle (.kGroup k) ∧ idle (.tileWriteBack k)) ∧
      (r.going = true → r.ready = true → j.norm = false →
        (r.cancelled = true → r.written = 0 → exec (.kGroup k) s = .next (s.endWith k e 6 0)) ∧
        (r.cancelled = false →
          (r.mode = none → exec (.kGroup k) s = s.beginTile k e j r) ∧
          (r.mode.isSome = true → r.unit = none → exec (.kGroup k) s = .next (s.emitOnce (.tileWriteBack k))) ∧
          (∀ l, r.mode.isSome = true → r.unit = some l →
            let run := (l.map (pieceRuns r.card)).flatten
            let missing := (linesOf run).filter fun n => (tabFind r.lines n).isNone
            (∀ x, run.find? runBad = some x → exec (.kGroup k) s = .next (s.endWith k e 2 (x.1 % 2 ^ 48).toNat)) ∧
            (run.find? runBad = none →
              (missing = [] → exec (.kGroup k) s = s.addUnit k e j r l) ∧
              (missing ≠ [] → exec (.kGroup k) s = .next (missing.foldl (fun u n => u.emitOnce (.tileFetch k n)) s))))) ∧
        (r.mode = none ∨ r.unit.isSome = true → idle (.tileWriteBack k)) ∧
        (∀ m, r.mode = some m → r.unit = none →
          (r.failed = true → exec (.tileWriteBack k) s = .next (s.recordTile k e j)) ∧
          (r.failed = false → r.written ≠ 0 → exec (.tileWriteBack k) s = .next (s.writeTile k e j)) ∧
          (∀ b a, m = .exact b a → r.failed = false → r.written = 0 →
            let bad := r.tile.mismatch ((cdL r.card : Int) - cdTol r.card) = true
            (¬ bad → exec (.tileWriteBack k) s = .next (s.writeTile k e j)) ∧
            (bad → r.rex = true →
              exec (.tileWriteBack k) s = .next ((s.updRun k e fun q => { q with failed := true }).recordTile k e j)) ∧
            (bad → r.rex = false →
              exec (.tileWriteBack k) s =
                .next (s.redo k e fun q => { q.again ((q.mode.getD (.exact flagExact none)).repeated) with rex := true })))) ) ∧
      (let goesOn := j.norm = true ∨ s.runs j.inst = true ∨ r.finish.isSome = true ∨ r.written ≠ 0 ∨ r.failed = true ∨
        r.unsayable = true ∨ (r.ready = true ∧ s.saveHeld k j.inst r.card = true)
      let held (u : State) (kept : JobRun) : State :=
        ((u.putJob k e { (u.cluster k).job e with st := .yielded, run := some kept }).settleInst j.inst).emitOnce (.matrixJobStart k)
      (goesOn → idle (.engineYield k)) ∧
      (¬ goesOn →
        (r.ready = false → exec (.engineYield k) s = .next (held (s.leaveJob k e) { r with fault := none })) ∧
        (r.ready = true →
          let x := { s with freeCtr := s.freeCtr + 16384 }.saveRows k j.inst (cdSpace r.card) (cdSave r.card) (r.saveArea s.freeCtr)
          exec (.engineYield k) s = .next (held (x.2.leaveJob k e) (r.yielded x.1))))) ∧
      (j.norm = false ∨ r.going = false → idle (.rindNormJob k)) ∧
      (j.norm = true → r.going = true →
        (r.cancelled = true → exec (.rindNormJob k) s = .next (s.endWith k e 6 0)) ∧
        (r.cancelled = false → r.loaded = false →
          let y := s.readBytes j.inst j.addr 64
          (∀ b, y.1 = .ok b → exec (.rindNormJob k) s = .next
            ((y.2.updRun k e fun q => { q with card := BitVec.ofNat 1024 (leNat b), loaded := true }).emitOnce (.rindNormJob k))) ∧
          (∀ cause at', y.1 = .bad cause at' → exec (.rindNormJob k) s = .next (y.2.jobFault k e .read cause at'))) ∧
        (r.cancelled = false → r.loaded = true → exec (.rindNormJob k) s =
          .next (if r.ready then s.normBlock k e (s.normEntry r) r else s.checkRind k e (s.normEntry r))))) ∧
    (let ended := c.jobs.filterMap fun x => match x.2.run with
      | some r => (match r.finish with
        | some code => if r.fault.isNone && !x.2.open then some (x.1, code.toNat) else none
        | none => none)
      | none => none
    exec (.jobEnd k) s = .next (ended.foldl (fun u x => u.finishJob k x.1 x.2) s)) ∧
    (c.clock = .ready ∧ c.running = none →
      exec (.engineClockGate k) s = .next (s.updCluster k fun x => { x with clock := .gated })) ∧
    (c.clock ≠ .ready ∨ c.running ≠ none → idle (.engineClockGate k)) ∧
    (c.clock = .granted →
      exec (.engineWakeReady k) s = .next ((s.updCluster k fun x => { x with clock := .ready }).emitOnce (.matrixJobStart k))) ∧
    (c.clock ≠ .granted → idle (.engineWakeReady k)) ∧
    ((s.die die).wakes = [] → idle (.engineWakeGrant die)) ∧
    (∀ x l, (s.die die).wakes = x :: l →
      let u := ((s.updDie die fun y => { y with wakes := l }).updCluster x fun y => { y with clock := .granted }).emit (.engineWakeReady x)
      exec (.engineWakeGrant die) s = .next (if l = [] then u else u.emitOnce (.engineWakeGrant die)))

/-- The copy unit's, the index engine's and the press's events (spec/13 R281 to R296, spec/14 R317, R321, spec/16 R351, R354): a
channel takes a command and moves beats, and tells of its end; a free index slot takes the oldest command; and a press of eight
equal participants forms and runs eight rounds, or ends with status 2. Each of COPY_BEAT,
COPY_COMPLETION, INDEX_STEP, PRESS_FORMATION and PRESS_ROUND completes so. The schedule of these events is the model's own (DESIGN CHOICE,
log 2). -/
def Obligations.CopyIndexAndPressEvents : Prop :=
  ∀ (s : State) (k n : Nat),
    let idle (i : Instr) : Prop := exec i s = .next s
    let run := ((s.cluster k).channel n).run
    (run = none → exec (.copyBeat k n) s = .next (s.startCopy k n) ∧ idle (.copyCompletion k n)) ∧
    (∀ r, run = some r →
      (r.status.isSome = true ∨ r.fault.isSome = true ∨ s.copyPaused r.body = true → idle (.copyBeat k n)) ∧
      (r.status = none → r.fault = none → s.copyPaused r.body = false →
        (r.rind.todo = [] → exec (.copyBeat k n) s = s.beat k n r) ∧
        (r.rind.todo ≠ [] → exec (.copyBeat k n) s = .next (s.beatRind k n r))) ∧
      (r.status = none → idle (.copyCompletion k n)) ∧
      (∀ st, r.status = some st →
        let b := r.body
        let u := (s.updChannel k n fun c => { c with last := some (reqTag b) }).gateMoved k
        let m : Message := ⟨reqInst b, reqSlot b,
          makeMsg (reqDst b).off.toNat (min r.done 0xFFFFFFFF) (reqTag b).toNat (reqDst b).space.toNat 0 st.toNat, false, some (.channel k n)⟩
        (reqSlot b = 63 → exec (.copyCompletion k n) s =
          .next (((u.updChannel k n fun c => { c with run := none }).emitOnce (.copyBeat k n)).settleInst (reqInst b))) ∧
        (reqSlot b ≠ 63 → m ∈ u.mailFlight → exec (.copyCompletion k n) s = .next u) ∧
        (reqSlot b ≠ 63 → m ∉ u.mailFlight → exec (.copyCompletion k n) s = .next (u.post m)))) ∧
    (∀ x, tabFind (s.cluster k).indexJobs n = some x →
      (x.ended = true →
        (s.sending (.index k n) = true → idle (.indexStep k n)) ∧
        (s.sending (.index k n) = false → exec (.indexStep k n) s = .next (s.freeIndex k n x.cmd.inst))) ∧
      (x.ended = false → x.fault.isSome = true ∨ s.runs x.cmd.inst = false → idle (.indexStep k n)) ∧
      (x.ended = false → x.fault = none → s.runs x.cmd.inst = true →
        (x.desc = none → exec (.indexStep k n) s = s.readIndex k n x) ∧
        (∀ d, x.desc = some d →
          (s.recordHeld x d = true → idle (.indexStep k n)) ∧
          (s.recordHeld x d = false → exec (.indexStep k n) s = s.indexOne k n x d)))) ∧
    (tabFind (s.cluster k).indexJobs n = none →
      ((s.cluster k).indexQueue = [] ∨ indexSlots ≤ n → idle (.indexStep k n)) ∧
      (∀ q r, (s.cluster k).indexQueue = q :: r → n < indexSlots →
        let u := (s.updCluster k fun c => { c with indexQueue := r }).updInst q.inst fun i => { i with foreign := true }
        let w := (span (8 * k) 8).foldl (fun u c => u.wakeIf c (isRoom (.index k))) u
        exec (.indexStep k n) s = .next ((w.putIndex k n { cmd := q }).emit (.indexStep k n)))) ∧
    (let l := (s.cluster k).pressed n
    ((s.cluster k).pressFull n = false → idle (.pressFormation k n)) ∧
    (∀ x r, l = x :: r → (s.cluster k).pressFull n = true →
      ((∃ y ∈ r, y.frag ≠ x.frag ∨ y.tbl ≠ x.tbl) → exec (.pressFormation k n) s = .next (s.endPress k n 2)) ∧
      ((∀ y ∈ r, y.frag = x.frag ∧ y.tbl = x.tbl) →
        let t := s.pressTable x.inst x.tbl
        (t.1.length ≠ 64 ∨ tableValid t.1 = false → exec (.pressFormation k n) s = .next (t.2.endPress k n 2)) ∧
        (t.1.length = 64 → tableValid t.1 = true → exec (.pressFormation k n) s = .next
          ((t.2.updCluster k fun c => { c with press := c.press.map fun y =>
            if y.key = n then { y with formed := true, table := t.1, round := 0 } else y }).emitOnce (.pressRound k n))))) ∧
    (l = [] → idle (.pressRound k n)) ∧
    (∀ x r, l = x :: r →
      (x.formed = false → idle (.pressRound k n)) ∧
      (x.formed = true →
        let m := s.sends l l
        let u := m.1.foldl (fun v y => if y.1.killed then v else v.putRows k y.1.inst y.2.1 y.2.2) m.2
        (x.round = 7 → exec (.pressRound k n) s =
          .next ((l.map fun y => y.core).foldl (fun v c => v.pairMoved c) (u.endPress k n 0))) ∧
        (x.round ≠ 7 → exec (.pressRound k n) s = .next
          ((u.updCluster k fun c => { c with press := c.press.map fun y =>
            if y.key = n then { y with round := y.round + 1 } else y }).emitOnce (.pressRound k n))))))

/-! Instances, castling, the host and the link: their events. -/

/-- Pre-emption, eviction, kill and castling (spec/18 R369, R372 to R388, spec/14 R312, spec/19 R394): an instance halts, and tells the
kernel once every party has; a halted one resumes, or moves to an image that a core restores; a killed one is gone once nothing of it
is left; the swap of a pair waits for its holds, prepares, exchanges, and lets both cores go on; and what comes in the course of it
waits for its end. Each of PREEMPTION_REQUEST, HALT_COMPLETE, KERNEL_KILL_REQUEST, KILL_COMPLETE, RESUME, EVICTION, RESTORE,
FROZEN_THREAD_RESTART, HALTED_THREAD_RESUME, CORE_DRAIN, CLUSTER_RESTORE, SWAP_DUE, SWAP_PREPARE, SWAP_EXCHANGE, SWAP_RESUME, HOLD_EXPIRY
and SWAP_DEFERRAL_LIMIT completes so. The schedule of these events is the model's own (DESIGN CHOICE, log 2). -/
def Obligations.InstanceEvents : Prop :=
  ∀ (s : State) (n c sl image : Nat) (at' : BitVec 64),
    let idle (i : Instr) : Prop := exec i s = .next s
    let pair := s.pair n
    let t := s.thread c sl
    (s.inst n = none → idle (.preemptionRequest n) ∧ idle (.kernelKillRequest n) ∧ idle (.haltComplete n) ∧ idle (.resume n) ∧
      idle (.eviction n image) ∧ idle (.killComplete n)) ∧
    (∀ i, s.inst n = some i →
      (i.st ≠ .live → idle (.preemptionRequest n)) ∧
      (i.st = .live → s.exchanging i.core = true →
        exec (.preemptionRequest n) s = .next (s.afterSwap i.core (.preemptionRequest n))) ∧
      (i.st = .live → s.exchanging i.core = false →
        let u := (s.updInst n fun x => { x with st := .halting }).abandonSwap (pairOf i.core) (some n)
        exec (.preemptionRequest n) s =
          .next (((((u.haltThreads n).withdrawPress n).holdSteps n).yieldJobs n).emitOnce (.haltComplete n))) ∧
      (i.st = .killing → idle (.kernelKillRequest n)) ∧
      (i.st ≠ .killing → i.resident = true → s.exchanging i.core = true →
        exec (.kernelKillRequest n) s = .next (s.afterSwap i.core (.kernelKillRequest n))) ∧
      (i.st ≠ .killing → i.resident = false ∨ s.exchanging i.core = false →
        let v := match i.st with
          | .evicted m => { s with images := tabDel s.images m }
          | _ => s.abandonSwap (pairOf i.core) (some n)
        let v := (v.updInst n fun x => { x with st := .killing, core := if x.resident then x.core else nowhere, evictTo := none }).killThreads n
        let v := v.cores.foldl (fun v e => (v.dropRequests e.1 n).dropHanded e.1 n) v
        let v := (((v.dropCopies n).dropIndex n).discardJobs n).killPress n |>.dropLink n
        let v := v.cores.foldl (fun v e => v.updCore e.1 fun k => { k with mailbox := k.mailbox.filter fun m => m.inst != n }) v
        let v := v.cores.foldl (fun v e => v.pairMoved e.1) v
        exec (.kernelKillRequest n) s = .next (((v.emitOnce (.mailboxDelivery n)).unblocked).emitOnce (.killComplete n))) ∧
      (i.st ≠ .halting ∨ s.allHalted n i = false → idle (.haltComplete n)) ∧
      (i.st = .halting → s.allHalted n i = true → exec (.haltComplete n) s =
        .next (((s.updInst n fun x => { x with st := .halted }).record (.haltComplete n)).requestDone n)) ∧
      (i.st = .halted → exec (.resume n) s = .next (s.goOn n)) ∧
      (i.st ≠ .halted → idle (.resume n)) ∧
      (let k := s.core i.core
      let bad := i.st ≠ .halted ∨ image % 4096 ≠ 0 ∨ Config.hbmBytes < image + Inst.imageSize (k.ownBarriers n).length ∨
        (tabFind s.images image).isSome = true
      let waits := ∃ x ∈ k.imageSlots n, x.2.awaitsReply = true
      let free := s.abandonSwap (pairOf i.core) (some n)
      (bad → idle (.eviction n image)) ∧
      (¬ bad → s.exchanging i.core = true → exec (.eviction n image) s = .next (s.afterSwap i.core (.eviction n image))) ∧
      (¬ bad → s.exchanging i.core = false → waits →
        exec (.eviction n image) s = .next (free.updInst n fun x => { x with evictTo := some image })) ∧
      (¬ bad → s.exchanging i.core = false → ¬ waits → exec (.eviction n image) s = .next (free.evict n i image))) ∧
      (i.st ≠ .killing ∨ s.killPending n = true ∨ s.exchanging i.core = true → idle (.killComplete n)) ∧
      (i.st = .killing → s.killPending n = false → s.exchanging i.core = false →
        let u := { s with orphans := s.orphans.filter fun x => x.1 != n }
        exec (.killComplete n) s = .next (((if i.core = nowhere then { u with insts := tabDel u.insts n } else u.freePlace n i).record
          (.killComplete n)).requestDone n))) ∧
    (tabFind s.images image = none → idle (.restore image c)) ∧
    (∀ g', tabFind s.images image = some g' → s.swapping c = true →
      exec (.restore image c) s = .next (s.afterSwap c (.restore image c))) ∧
    (∀ g', tabFind s.images image = some g' → s.swapping c = false →
      let g := s.readImage image g'
      (s.imageIntact g' = false → exec (.restore image c) s = .next (s.record (.imageRefused image 4))) ∧
      (s.imageIntact g' = true → s.conflicts c g = true → exec (.restore image c) s = .next (s.record (.imageRefused image 5))) ∧
      (s.imageIntact g' = true → s.conflicts c g = false →
        let ready := (s.core c).started = true ∧ (s.core c).drained = false ∧ s.tableFree c g.inst.fmtp = true ∧ s.jobsMove g.number (clusterOf g.inst.core) (clusterOf c) = true
        (¬ ready → idle (.restore image c)) ∧
        (ready → (s.core c).seatAgain g.threads = none → idle (.restore image c)) ∧
        (∀ seats banks, ready → (s.core c).seatAgain g.threads = some seats → (s.core c).banksFor g.inst.packet = some banks →
          g.inst.fmtp = 0 → exec (.restore image c) s = .next (s.place image g c none seats banks)))) ∧
    (t.st = .frozen → exec (.frozenThreadRestart c sl at') s =
      .next (s.releaseThread c sl fun u => { u with mode := .supervisor, inh := false, pc := at' })) ∧
    (t.st ≠ .frozen → idle (.frozenThreadRestart c sl at')) ∧
    (t.st = .stopped → exec (.haltedThreadResume c sl) s = .next (s.releaseThread c sl id)) ∧
    (t.st ≠ .stopped → idle (.haltedThreadResume c sl)) ∧
    (let u := ((s.updCore c fun k => { k with drained := true }).abandonSwap (pairOf c) none).swapOver (pairOf c)
    exec (.coreDrain c) s = .next ((u.residents c).foldl (fun v e => v.emitOnce (.preemptionRequest e.1)) u)) ∧
    exec (.clusterRestore n) s = .next (s.updCluster n fun k => { k with withdrawn := false }) ∧
    (pair.phase ≠ .idle ∨ n ≠ pairOf n → idle (.swapDue n)) ∧
    (pair.phase = .idle → n = pairOf n →
      let u := s.updPair n fun x => { x with retry := false, ignoreHolds := x.ignoreHolds && x.retry }
      let free := u.castling n = 0 ∨ u.pairDrained n = true ∨ u.pairHeld n = false
      (free → exec (.swapDue n) s = .next (u.swapOver n)) ∧
      (¬ free → exec (.swapDue n) s = .next ((u.updPair n fun x => { x with phase := .waiting (u.core n).cyc }).emitOnce (.swapPrepare n)))) ∧
    (∀ since, pair.phase = .waiting since →
      (s.swapWaits n = true → idle (.swapPrepare n)) ∧
      (s.swapWaits n = false → exec (.swapPrepare n) s =
        .next (((s.updPair n fun x => { x with phase := .preparing (s.core n).cyc }).prepareCore n).prepareCore (partner n))) ∧
      ((s.core n).cyc < since + 60000 → idle (.swapDeferralLimit n)) ∧
      (since + 60000 ≤ (s.core n).cyc → exec (.swapDeferralLimit n) s =
        .next ((s.updPair n fun x => { x with ignoreHolds := true }).emitOnce (.swapPrepare n)))) ∧
    (∀ since, pair.phase = .preparing since →
      let early := (s.core n).cyc < since + prepareCycles ∨ (s.cluster (clusterOf n)).pressing = true ∨ s.dirtyPinned n = true ∨ s.dirtyPinned (partner n) = true
      (early → idle (.swapExchange n)) ∧
      (¬ early → exec (.swapExchange n) s =
        .next (((s.exchange n).updPair n fun x => { x with phase := .exchanged }).emitOnce (.swapResume n)))) ∧
    (pair.phase = .exchanged →
      let opened := ((s.updPair n fun x => { x with phase := .idle, ignoreHolds := false, again := none, held := [] }).updCore n
        Core.reopened).updCore (partner n) Core.reopened
      let u := ((((opened.emitAll pair.held).swapOver n).portsMoved n).portsMoved (partner n)).unblocked
      exec (.swapResume n) s = .next ((u.residents n ++ u.residents (partner n)).foldl (fun v e => v.settleInst e.1) u)) ∧
    (pair.phase = .idle → idle (.swapPrepare n) ∧ idle (.swapDeferralLimit n) ∧ idle (.swapExchange n) ∧ idle (.swapResume n)) ∧
    (t.hold = none → idle (.holdExpiry c sl)) ∧
    (∀ h, t.hold = some h →
      ((s.core c).cyc < h + holdCycles → idle (.holdExpiry c sl)) ∧
      (h + holdCycles ≤ (s.core c).cyc → exec (.holdExpiry c sl) s =
        .next ((s.updThread c sl fun u => { u with hold := none }).pairMoved c)))

/-- The host, the hub and the boot (spec/25 R437 to R453, spec/22 R403 to R407): power-good, the boot stages and their errors, the release of the
clusters in order, the features' acceptance, measurements, attestation, alarms and their policy, BAR2 and the submission ring in the order
of the host's posted writes (DEDUCED, log 50), and the hub's registers. SM3 and SM2 are the standards' (PRESUMED, log 71). Each of POWER_GOOD,
BOOT_STAGE, CLUSTER_RESET_RELEASE, MEASUREMENT_EXTEND, FACCEPT0_WRITE, FACCEPT1_WRITE, SQTAIL_WRITE, ATTESTATION_REQUEST, PROVISIONING,
ALARMPOL_WRITE, SECURITY_ALARM, BAR2_READ, BAR2_WRITE, HUB_REGISTER_WRITE, THERMAL_THROTTLE and THROTTLE_RELEASE completes so. The
schedule of these events is the model's own (DESIGN CHOICE, log 2). -/
def Obligations.DeviceEvents : Prop :=
  ∀ (s : State) (k n : Nat) (v : BitVec 64) (w : BitVec 128) (digest : BitVec 256) (b : BootImage) (sources : BitVec 4) (bytes : List Byte) (reg : HubReg),
    let h := s.hub
    let idle (i : Instr) : Prop := exec i s = .next s
    (h.poweredUp = true → idle .powerGood) ∧
    (h.poweredUp = false → exec .powerGood s = .next (s.updHub fun x => { x with poweredUp := true, stage := 1 })) ∧
    (h.stage ≠ 1 → h.stage ≠ 2 → idle (.bootStage b)) ∧
    (h.stage = 1 ∨ h.stage = 2 →
      let n := h.stage.toNat
      (bootErr b n = 0 → exec (.bootStage b) s = .next (s.updHub fun x =>
        { x.extend (n - 1) (sm3 b.bytes) with
          hbmStarted := if n = 2 then 8 else x.hbmStarted
          stage := h.stage + 1, versions := tabPut x.versions (n - 1) b.version })) ∧
      (bootErr b n ≠ 0 →
        exec (.bootStage b) s = .next (s.updHub fun x => { x with err := BitVec.ofNat 8 (bootErr b n), stage := 5 }))) ∧
    (let early := h.stage ≠ 3 ∨ (s.cluster k).released = true ∨ Config.clusters ≤ k ∨ ∃ j ∈ span 0 k, (s.cluster j).released = false
    (early → idle (.clusterResetRelease k)) ∧
    (¬ early →
      let v := (s.updDie (k / 32) fun d => { d with started := true }).measureFirmware k
      let u := (v.updCluster k fun c => { c with released := true }).startCores k
      (k + 1 ≠ Config.clusters → exec (.clusterResetRelease k) s = .next u) ∧
      (k + 1 = Config.clusters → exec (.clusterResetRelease k) s = .next (u.updHub fun x => { x with stage := 4, ready := true })))) ∧
    (h.kernelRuns = true ∧ 2 ≤ n ∧ n < 8 → exec (.measurementExtend n digest) s = .next (s.updHub fun x => x.extend n digest)) ∧
    (¬ (h.kernelRuns = true ∧ 2 ≤ n ∧ n < 8) → idle (.measurementExtend n digest)) ∧
    (h.negotiates = false → idle (.faccept0Write v) ∧ idle (.faccept1Write v)) ∧
    (h.negotiates = true →
      exec (.faccept1Write v) s = .next (s.updHub fun x => { x with accept1 := v }) ∧
      (setOk (h.accept1 ++ v) = true →
        exec (.faccept0Write v) s = .next (s.updHub fun x => { x with accept0 := v, committed := true })) ∧
      (setOk (h.accept1 ++ v) = false →
        exec (.faccept0Write v) s = .next (s.updHub fun x => { x with accept1 := 0, err := 5 }))) ∧
    (let u := s.updHub fun x => { x with sqtail := v }
    (h.hostWrites ≠ [] →
      exec (.sqtailWrite v k) s = .next (s.updHub fun x => { x with hostWrites := x.hostWrites ++ [.sqtailWrite v k] })) ∧
    (h.hostWrites = [] →
      (h.committed = true ∧ k < Config.clusters → exec (.sqtailWrite v k) s = .next (u.submit k Config.ringEntries)) ∧
      (¬ (h.committed = true ∧ k < Config.clusters) → exec (.sqtailWrite v k) s = .next u))) ∧
    (h.kernelRuns = false → idle (.attestationRequest digest)) ∧
    (h.kernelRuns = true →
      (h.identityKey = false → exec (.attestationRequest digest) s = .next (s.record (.attestation none))) ∧
      (h.identityKey = true →
        let r := h.report digest
        let sig := sm2Sign (Config.identityKey h.keySerial) (Config.nonce s.draw.1) (sm3 (r.map beBytes).flatten)
        exec (.attestationRequest digest) s = .next (s.draw.2.record (.attestation (some (r, sig)))))) ∧
    exec .provisioning s = .next (s.updHub fun x => { x with identityKey := true, keySerial := x.keySerial + 1 }) ∧
    (∃ m t c' o : BitVec 2,
      exec (.alarmpolWrite v) s = .next (s.updHub fun x => { x with
        alarmLock := x.alarmLock || v.getLsbD 8, alarmMesh := m, alarmTemp := t, alarmClk := c', alarmVolt := o }) ∧
      (h.alarmLock = true → m.toNat = max h.alarmMesh.toNat (v.extractLsb' 6 2).toNat ∧
        t.toNat = max h.alarmTemp.toNat (v.extractLsb' 4 2).toNat ∧ c'.toNat = max h.alarmClk.toNat (v.extractLsb' 2 2).toNat ∧
        o.toNat = max h.alarmVolt.toNat (v.extractLsb' 0 2).toNat) ∧
      (h.alarmLock = false → m = v.extractLsb' 6 2 ∧ t = v.extractLsb' 4 2 ∧ c' = v.extractLsb' 2 2 ∧ o = v.extractLsb' 0 2)) ∧
    (h.alarmAction sources = none → idle (.securityAlarm sources)) ∧
    (h.alarmAction sources = some 0 →
      let x := Config.freeValue s.draw.1
      exec (.securityAlarm sources) s = .next ((s.draw.2.updHub fun y => { y with counter := x }).record (.alarm sources x))) ∧
    (h.alarmAction sources = some 1 → exec (.securityAlarm sources) s = .next s.packageReset) ∧
    (∀ x, h.alarmAction sources = some x → x ≠ 0 → x ≠ 1 →
      exec (.securityAlarm sources) s = .next ((s.updHub fun y => { y with identityKey := false, sessionKeys := [] }).packageReset)) ∧
    (h.barSize ≤ n → idle (.bar2Read n k)) ∧
    (n < h.barSize → onePiece n k = true → exec (.bar2Read n k) s = .next ((s.barBytes n k).2.record (.hostRead n (s.barBytes n k).1))) ∧
    (n < h.barSize → onePiece n k = false → exec (.bar2Read n k) s = .next (s.emitAll ((pieces (k + 1) n k).map fun x => .bar2Read x.1 x.2))) ∧
    (let put (u : State) (a : Nat) (l : List Byte) : State := (u.sigRelease (barTarget a) none).writeHome .outside none a l
    let next (u : State) (l : List Instr) : State := if l = [] then u else u.emitOnce (.bar2Write 0 [])
    (bytes ≠ [] → onePiece n bytes.length = true → h.hostWrites = [] → s.pinned (.home n) = false →
      (n < Config.hbmBytes → n < h.barSize → exec (.bar2Write n bytes) s = .next (put s n bytes)) ∧
      (Config.hbmBytes ≤ n ∨ h.barSize ≤ n → idle (.bar2Write n bytes))) ∧
    (bytes ≠ [] → onePiece n bytes.length = false ∨ h.hostWrites ≠ [] ∨ s.pinned (.home n) = true →
      exec (.bar2Write n bytes) s = .next ((s.updHub fun x => { x with hostWrites := x.hostWrites ++
        ((pieces (bytes.length + 1) n bytes.length).map fun x => .bar2Write x.1 ((bytes.drop (x.1 - n)).take x.2)) }).emitOnce (.bar2Write 0 []))) ∧
    (h.hostWrites = [] → idle (.bar2Write n [])) ∧
    (∀ a l rest, h.hostWrites = .bar2Write a l :: rest →
      (s.pinned (.home a) = true → idle (.bar2Write n [])) ∧
      (s.pinned (.home a) = false → a < Config.hbmBytes → a < h.barSize → l ≠ [] →
        exec (.bar2Write n []) s = .next (next (put (s.updHub fun x => { x with hostWrites := rest }) a l) rest))) ∧
    (∀ t j rest, h.hostWrites = .sqtailWrite t j :: rest → h.committed = false →
      exec (.bar2Write n []) s = .next (next (s.updHub fun x => { x with hostWrites := rest, sqtail := t }) rest))) ∧
    (let low : Word := w.setWidth 64
    exec (.hubRegisterWrite .sptbr w) s = .next (s.updHub fun x => { x with sptbr := low, sptbrSet := true }) ∧
    (1 ≤ low.toNat ∧ low.toNat ≤ 254 →
      exec (.hubRegisterWrite .devid w) s = .next (s.updHub fun x => { x with devid := low.setWidth 8, devidSet := true })) ∧
    (¬ (1 ≤ low.toNat ∧ low.toNat ≤ 254) → idle (.hubRegisterWrite .devid w)) ∧
    exec (.hubRegisterWrite .rtthr w) s = .next (s.updHub fun x => { x with rtthr := low.setWidth 32 }) ∧
    (1200 ≤ low.toNat ∧ low.toNat ≤ 2000 →
      exec (.hubRegisterWrite .pwrcap w) s = .next (s.updHub fun x => { x with pwrcap := low.toNat })) ∧
    (¬ (1200 ≤ low.toNat ∧ low.toNat ≤ 2000) → idle (.hubRegisterWrite .pwrcap w)) ∧
    exec (.hubRegisterWrite (.castiv n) w) s = .next (s.updDie n fun x => { x with castiv := low.setWidth 5, castivSet := true }) ∧
    exec (.hubRegisterWrite (.tvecd n) w) s = .next (s.updCore n fun x => { x with tvecd := low }) ∧
    (n < 1024 → exec (.hubRegisterWrite (.route k n) w) s =
      .next (s.updCluster k fun c => { c with routes := tabPut c.routes n (routeOf w) })) ∧
    (1024 ≤ n → idle (.hubRegisterWrite (.route k n) w)) ∧
    (n < 4096 → exec (.hubRegisterWrite (.group n) w) s = .next (s.putGroup n w)) ∧
    (4096 ≤ n → idle (.hubRegisterWrite (.group n) w))) ∧
    (∃ u, exec (.hubRegisterWrite reg w) s = .next u ∧ u.mem = s.mem) ∧
    exec (.thermalThrottle n) s = .next (s.updDie n fun d => { d with throttled := true }) ∧
    exec (.throttleRelease n) s = .next (s.updDie n fun d => { d with throttled := false })

/-- The link (spec/22 R401 to R421, spec/23 R426 to R434): a group's stamps rise one by one at its root while every member is within
256, go down the tree, and each member applies them in order or skips a faulted one; contributions and results go up and down the tree, and one of
another tree generation is discarded; a completed scalar step is held for its readers; and a failed link or device is noted. Each of
FLIT_ERROR, LINK_FAILURE, MCST_STAMPING, MCST_APPLICATION, MULTICAST_SKIP, COMBINE_PACKET_ARRIVAL, RESULT_PACKET_ARRIVAL,
SCALAR_STEP_COMPLETION, SLOT_FREE_NOTICE, HOLD_NOTICE, RESUME_NOTICE and TREE_REFORM completes so. The
schedule of these events is the model's own (DESIGN CHOICE, log 2). -/
def Obligations.LinkEvents : Prop :=
  ∀ (s : State) (g path : Nat) (p : CombinePacket) (notice : SlotNotice) (n : BitVec 32) (a b : Nat) (entry : BitVec 128),
    let e := s.group g
    let idle (i : Instr) : Prop := exec i s = .next s
    exec (.flitError path true) s = .next (s.updHub fun h => { h with failedPaths := h.failedPaths ++ [path] }) ∧
    idle (.flitError path false) ∧
    exec (.linkFailure (.link a b)) s = .next (s.updHub fun h => { h with failedPaths := h.failedPaths ++ [65536 + 256 * a + b] }) ∧
    (s.nextStamped g = none → idle (.mcstApplication g) ∧ idle (.multicastSkip g)) ∧
    (∀ x, s.nextStamped g = some x →
      let va : VAddr := ⟨0, x.off⟩
      let stop (cause : Nat) : State := State.updHub { s with
        serial := s.serial + 1
        faults := s.faults ++ [⟨s.serial, .multicast g, va, BitVec.ofNat 5 cause, noInst, .write⟩] } fun h =>
          { h with stamped := h.stamped.map fun y => if y = x then { y with fault := some s.serial } else y }
      (x.fault.isSome = true → idle (.mcstApplication g)) ∧
      (x.fault = none → idle (.multicastSkip g)) ∧
      (∀ f, x.fault = some f → exec (.multicastSkip g) s =
        .next (State.endApplication { s with faults := s.faults.filter fun y => y.number != f } x true)) ∧
      (x.fault = none →
        (s.engineTarget noInst { w := true } va = .page → exec (.mcstApplication g) s = .next (stop 4)) ∧
        (s.engineTarget noInst { w := true } va = .access → exec (.mcstApplication g) s = .next (stop 3)) ∧
        (∀ t, s.engineTarget noInst { w := true } va = .ok t →
          (s.pinned t.place = true → idle (.mcstApplication g)) ∧
          (s.pinned t.place = false →
            let u := (s.takeBack .hub t 8).sigRelease t none
            exec (.mcstApplication g) s = .next ((u.writeTarget .hub t (leBytes x.value.toNat 8)).endApplication x false))))) ∧
    (geCasts e = false → idle (.mcstStamping g none)) ∧
    (geCasts e = true → geRoot e = true → firstRequest g s.hub.requests = none → idle (.mcstStamping g none)) ∧
    (∀ r rest, geCasts e = true → geRoot e = true → firstRequest g s.hub.requests = some (r, rest) →
      (s.mayStamp g = false → idle (.mcstStamping g none)) ∧
      (s.mayStamp g = true →
        let stamp := geStamp e
        let next := (e &&& ~~~((0xFFFFFFFF#128) <<< 32)) ||| ((stamp + 1).setWidth 128 <<< 32)
        let u := (((s.updHub fun h => { h with requests := rest }).putGroup g next).record (.multicastOut g (some stamp) r.off r.value)).stampHere
          g stamp r
        exec (.mcstStamping g none) s =
          .next (if u.hub.requests.any fun x => x.group = g then u.emitOnce (.mcstStamping g none) else u))) ∧
    (∀ o v, geCasts e = true → geRoot e = true → exec (.mcstStamping g (some (o, v))) s =
      exec (.mcstStamping g none) (s.updHub fun h => { h with requests := h.requests ++ [⟨g, o, v, none, noInst, 0⟩] })) ∧
    (geCasts e = true → geRoot e = false → s.stampNow g = none → ∀ q, idle (.mcstStamping g q)) ∧
    (∀ m, geCasts e = true → geRoot e = false → s.stampNow g = some m →
      let down (o v : Word) : State :=
        let u := s.updHub fun h => { h with stamps := tabDel h.stamps g }
        if geNch (u.group g) = 0 then u else u.record (.multicastOut g (some m) o v)
      (∀ o v, geMember e = true →
        exec (.mcstStamping g (some (o, v))) s = .next ((down o v).stampHere g m ⟨g, o, v, none, noInst, 0⟩)) ∧
      (∀ o v, geMember e = false → exec (.mcstStamping g (some (o, v))) s = .next (down o v)) ∧
      (firstRequest g s.hub.requests = none → idle (.mcstStamping g none)) ∧
      (∀ r rest, firstRequest g s.hub.requests = some (r, rest) → exec (.mcstStamping g none) s =
        .next (((down r.off r.value).updHub fun h => { h with requests := rest }).stampHere g m r))) ∧
    (let k := s.group p.group
    let bad := geCollects k = false ∨ p.topo.toNat ≠ geTopo k ∨ p.chunk = 0
    let x := (s.findStep p.group p.stepNo p.scalar).getD (newStep p.group p.stepNo p.scalar p.kind p.chunk p.count)
    let y := { x with below := if x.below.contains p.source then x.below else x.below ++ [p.source] }
    (bad → exec (.combinePacketArrival p) s = .next (s.record (.slotFreeOut p.group p.source))) ∧
    (¬ bad → x.lost = true → exec (.combinePacketArrival p) s = .next (s.lateChild x p)) ∧
    (¬ bad → x.lost = false →
      (p.status = 3 → exec (.combinePacketArrival p) s =
        .next (((s.putStep y).record (.slotFreeOut p.group p.source)).loseStep y)) ∧
      (p.status ≠ 3 → exec (.combinePacketArrival p) s =
        .next ((s.putStep { y with children := y.children ++ [p] }).advance_ p.group p.stepNo p.scalar))) ∧
    (let u := s.record (.slotFreeOut p.group (geParent k))
    let own : CombinePacket := { p with source := s.hub.devid.toNat }
    (bad ∨ geRoot k = true → exec (.resultPacketArrival p) s = .next u) ∧
    (¬ bad → geRoot k = false → p.pass ≠ 1 → exec (.resultPacketArrival p) s = .next ((u.putStep x).publishResult x [own])) ∧
    (∀ v l, ¬ bad → geRoot k = false → p.pass = 1 → p.elems = v :: l →
      let z := { x with exponents := tabPut x.exponents (p.offset / p.chunk) v.toInt }
      exec (.resultPacketArrival p) s =
        .next (((u.putStep z).sendAll (x.below.map fun d => (d, own))).advance_ p.group p.stepNo p.scalar)))) ∧
    (s.findStep g n true = none → idle (.scalarStepCompletion g n)) ∧
    (∀ x, s.findStep g n true = some x →
      (x.answer = none → idle (.scalarStepCompletion g n)) ∧
      (∀ q v l, x.answer = some q → x.mixed = false → q.elems = v :: l →
        let word : Word := BitVec.ofNat 64 (q.status.toNat + q.nonfinite.toNat % 16 * 2 ^ 4 + geTopo e * 2 ^ 8)
        let y := { x with answer := none, answered := true }
        let u := (if y.awaits e then s.putStep y else s.dropStep x).updHub fun h => { h with
          results := keepResult ⟨g, n, resultWord e v, word⟩ h.results
          latest := match tabFind h.latest g with
            | some m => if later n m then tabPut h.latest g n else h.latest
            | none => tabPut h.latest g n }
        let sent := x.ranks.foldl (fun w r => if r.message then
          w.post ⟨r.inst, r.slot, makeMsg (resultWord e v).toNat 0xFFFFFFFF (word.toNat % 2 ^ 16) 0 4 q.status.toNat, false, none⟩ else w) u
        exec (.scalarStepCompletion g n) s = .next (sent.wakeSteps g n (resultWord e v) word))) ∧
    (let c := notice.group
    let key := edgeKey c notice.device
    let u := (s.updHub fun h => { h with
      credits := tabPut h.credits key (h.used c notice.device - 1)
      memberApplied := if geCasts (tabGet 0 h.groups c) then tabPut h.memberApplied key notice.applied else h.memberApplied }).flushOut
    let w := ((u.hub.steps.filter fun x => x.group = c && !x.scalar).foldl
      (fun acc x => acc ++ x.cores.filter fun d => !acc.contains d) []).foldl (fun v d => v.pushEvent d (linkEvent 1 0 c)) u
    exec (.slotFreeNotice notice) s = .next (if w.hub.requests.any fun r => r.group = c then w.emitOnce (.mcstStamping c none) else w)) ∧
    exec (.holdNotice g n) s = .next (s.noteHold g n noInst) ∧
    exec (.resumeNotice g n) s = .next (s.noteResume g n noInst) ∧
    (s.hub.steps = [] → s.hub.requests = [] →
      let u := (s.cores.foldl (fun v x => v.resend x.1 g) (s.putGroup g entry)).updHub fun h => { h with
        steps := h.steps.map fun x => if x.group = g then x.replay else x
        credits := h.credits.filter fun x => x.1 / 256 != g
        outbox := h.outbox.filter fun x => x.2.group != g }
      exec (.treeReform g entry) s = .next u) ∧
    exec (.linkFailure (.device a (b = 1))) s = .next (s.loseDevice a (b = 1))

/-! Register limits and ports (spec/01 R13, R20, spec/04 R83, spec/08 R176, R177, spec/13 R279, spec/22 R415, spec/18 R365). -/

/-- Register limits: an integer or floating instruction that names a register at or beyond the allocation, after renaming, traps with
the lowest such number, and changes nothing else; a light thread that names a port traps with the lowest port. -/
def Obligations.RegisterLimits : Prop :=
  ∀ (s : State) (b a d : BitVec 7) (i : BitVec 8) (h : BitVec 6),
    let beyond (l : List (BitVec 7)) (n : Nat) : Prop := ∃ r ∈ l, isPort r = false ∧ s.cur.rename r.toNat = n ∧ s.cur.bound ≤ n
    let checked (e : Instr) (l : List (BitVec 7)) : Prop :=
      (∀ n, beyond l n → (∀ m, beyond l m → n ≤ m) → exec e s = .next (s.enterTrap s.ic s.is 5 (BitVec.ofNat 64 n) s.cur.pc 0)) ∧
      (s.cur.light = true → (∀ n, ¬ beyond l n) → ∀ p ∈ l, isPort p = true → (∀ q ∈ l, isPort q = true → p.toNat ≤ q.toNat) →
        exec e s = .next (s.enterTrap s.ic s.is 6 (BitVec.ofNat 64 p.toNat) s.cur.pc 0))
    (∀ e ∈ threeFields, checked (e b a d) [a, b, d]) ∧
    (∀ e ∈ threeFloats, checked (e b a d) [a, b, d]) ∧
    (∀ e ∈ twoFields i h, checked (e a d) [a, d]) ∧
    (∀ e ∈ twoFloats, checked (e a d) [a, d])

/-- Ports in a heavy thread's fields: a read of mbx gives the two halves of the thread's oldest message, a read of lnk or of a mesh port
pops its oldest element, a write of lnk or of a mesh port is a release that sends an element, and each waits or raises a port fault
as its rule says. ADDI shows the reads and LIU the writes. -/
def Obligations.Ports : Prop :=
  ∀ (s : State) (i : BitVec 8) (j : BitVec 18) (d p : BitVec 7), s.cur.light = false →
    let k := s.core s.ic
    let v := immUpper j
    let fails (e : Instr) : Prop := exec e s = .next (s.enterTrap s.ic s.is 6 (BitVec.ofNat 64 p.toNat) s.cur.pc 0)
    let reads (x : Word) (u : State) : Prop := exec (.addi i p d) s = .next (wrote u d (x + i.signExtend 64) false)
    (named s.cur [d] → p = 120 →
      (k.oldest s.cur.inst s.is = none → exec (.addi i p d) s = .next (s.park .mail)) ∧
      (∀ m, k.oldest s.cur.inst s.is = some m →
        (m.half = false → s.dirtyPinned s.ic = true → exec (.addi i p d) s = .next (s.park (.room .pin))) ∧
        (m.half = false → s.dirtyPinned s.ic = false → reads (m.body.extractLsb' 0 64)
          ((s.updCore s.ic fun c => { c with mailbox := halfOldest s.cur.inst s.is c.mailbox }).acquireMsg s.ic m.body)) ∧
        (m.half = true → reads (m.body.extractLsb' 64 64)
          ((s.updCore s.ic fun c => { c with mailbox := dropOldest s.cur.inst s.is c.mailbox }).mailRoom s.ic)))) ∧
    (named s.cur [d] → p = 121 →
      (s.is ≠ 63 → fails (.addi i p d)) ∧
      (s.is = 63 → k.lnk = [] → exec (.addi i p d) s = .next (s.park (.element 121))) ∧
      (∀ x r, s.is = 63 → k.lnk = x :: r → reads x.value ((s.updCore s.ic fun c => { c with lnk := r }).wakeIf s.ic (isRoom .lnk)))) ∧
    (named s.cur [d] → 122 ≤ p.toNat → p.toNat ≤ 125 →
      (s.ownsPorts = false → fails (.addi i p d)) ∧
      (s.ownsPorts = true → tabGet [] k.ports (p.toNat - 122) = [] → exec (.addi i p d) s = .next (s.park (.element p.toNat))) ∧
      (∀ x r, s.ownsPorts = true → tabGet [] k.ports (p.toNat - 122) = x :: r →
        let u := (s.updCore s.ic fun c => { c with ports := tabPut c.ports (p.toNat - 122) r }).applySig s.ic x.signature
        (s.dirtyPinned s.ic = true → exec (.addi i p d) s = .next (s.park (.room .pin))) ∧
        (s.dirtyPinned s.ic = false → reads x.value (u.sideMoved u.ic (portOf (p.toNat - 122)))))) ∧
    (p = 120 → fails (.liu j p)) ∧
    (p = 121 →
      (s.is = 63 ∨ v.getLsbD 63 = true → fails (.liu j p)) ∧
      (s.is ≠ 63 → v.getLsbD 63 = false →
        (16 ≤ k.lnk.length → exec (.liu j p) s = .next (s.park (.room .lnk))) ∧
        (k.lnk.length < 16 → s.cur.reds = [] → s.dirtyPinned s.ic = false →
          let u := s.releaseCore s.ic
          let w := u.updCore u.ic fun c => { c with lnk := c.lnk ++ [⟨v, u.cur.inst⟩] }
          exec (.liu j p) s = .next (w.wakeIf w.ic (isElement 121)).advance))) ∧
    (122 ≤ p.toNat → p.toNat ≤ 125 →
      let dir := portOf (p.toNat - 122)
      (s.ownsPorts = false ∨ neighbour s.ic dir = none → fails (.liu j p)) ∧
      (∀ c, s.ownsPorts = true → neighbour s.ic dir = some c →
        let side := portNumber (facing dir)
        let own := portNumber dir
        let full := 4 ≤ (tabGet [] k.sends own).length ∨ s.portRoom c ≤ (tabGet [] (s.core c).ports side).length
        (full → exec (.liu j p) s = .next (s.park (.room (.port p.toNat)))) ∧
        (¬ full → s.cur.reds = [] → s.dirtyPinned s.ic = false →
          let u := s.releaseCore s.ic
          let sent := u.updCore u.ic fun x => { x with sends := tabPut x.sends own (tabGet [] x.sends own ++ [⟨v, (u.core u.ic).carried⟩]) }
          exec (.liu j p) s = .next (sent.emitOnce (.portElementArrival c (facing dir))).advance)))

/-! Frames (spec/01 R12, R13, R27, spec/04 R92, R96, spec/10 R217). -/

/-- The frame of the integer and floating instructions: nothing changes but the destination register, the pc, and, for a floating
one, flags that are added; g0 reads 0 after a write to it; no byte of any memory changes. -/
def Obligations.RegisterFrame : Prop :=
  ∀ (s u : State) (b a d : BitVec 7) (i : BitVec 8) (h : BitVec 6),
    let frame (e : Instr) (l : List (BitVec 7)) : Prop := named s.cur l → exec e s = .next u →
      computes s u ∧ sameBytes s u ∧ (∀ n, n ≠ s.cur.rename d.toNat → u.cur.reg n = s.cur.reg n) ∧ u.cur.reg 0 = 0 ∧
      u.cur.pc = s.cur.pc + 4
    let quiet (e : Instr) (l : List (BitVec 7)) : Prop := named s.cur l → exec e s = .next u → u.cur.fflags = s.cur.fflags
    let adds (e : Instr) (l : List (BitVec 7)) : Prop := named s.cur l → exec e s = .next u →
      (∀ n, s.cur.fflags.getLsbD n = true → u.cur.fflags.getLsbD n = true) ∧ (s.cur.light = true → u.cur.fflags = s.cur.fflags)
    (∀ e ∈ threeFields, frame (e b a d) [a, b, d] ∧ quiet (e b a d) [a, b, d]) ∧
    (∀ e ∈ twoFields i h, frame (e a d) [a, d] ∧ quiet (e a d) [a, d]) ∧
    (∀ e ∈ threeFloats, frame (e b a d) [a, b, d] ∧ adds (e b a d) [a, b, d]) ∧
    (∀ e ∈ twoFloats, frame (e a d) [a, d] ∧ adds (e a d) [a, d])

/-- The frame of the loads and stores. A store to window byte x of a core writes its size in bytes there, lowest first, and no other
byte of any memory; no register of any thread changes where no thread monitors a line; every memory keeps its canonical form. A
store that parks or forfeits changes no byte and no register. A load changes, of the issuing thread's registers, at most rd, and no byte,
unless it meets in its core's cache what another thread has written there, which then goes home (the model's reading of spec/08 R169,
log 60). -/
def Obligations.MemoryFrame : Prop :=
  (∀ e ∈ stores, ∀ (s u : State) (i : BitVec 4) (b a : BitVec 7) (j : BitVec 4) (t : Target), named s.cur [a, b] →
    reaches s { w := true } e.2 (address s a (i ++ j) e.2) t → exec (e.1 i b a j) s = .next u →
    let red := s.cur.redOverlap t.place e.2
    (∀ c x, t.place = .window c x → red = false → banksGrant s (s.bankOf t) = true →
      (∀ k y, memGet (u.core k).sram y =
        if k = c ∧ x ≤ y ∧ y < x + e.2 then (leBytes (X s b).toNat e.2).getD (y - x) 0 else memGet (s.core k).sram y) ∧
      (∀ y, memGet u.mem y = memGet s.mem y) ∧ (∀ y, memGet u.ext y = memGet s.ext y) ∧
      ((s.cores.all fun k => k.2.slots.all fun z => z.2.monitors.isEmpty) = true →
        ∀ k sl n, (u.thread k sl).reg n = (s.thread k sl).reg n) ∧
      (memoriesWf s = true → memoriesWf u = true)) ∧
    (red = true ∨ s.fixed (bypasses s a) true t e.2 = false ∨ banksGrant s (s.bankOf t) = false →
      sameBytes s u ∧ ∀ k sl n, (u.thread k sl).reg n = (s.thread k sl).reg n)) ∧
  (∀ e ∈ loads, ∀ (s u : State) (i : BitVec 8) (a d : BitVec 7) (t : Target), named s.cur [a, d] →
    reaches s { r := true } e.2.1 (address s a i e.2.1) t → exec (e.1 i a d) s = .next u →
    let settled := (∀ pa, t.place ≠ .home pa) ∨ ∀ l ∈ (s.core s.ic).cache, l.dirty = 0 ∨ l.writer = s.cur.id
    let unwatched := (s.cores.all fun k => k.2.slots.all fun z => z.2.monitors.isEmpty) = true
    (settled → sameBytes s u) ∧ u.cur.reg 0 = 0 ∧
      (settled ∨ unwatched → ∀ n, n ≠ s.cur.rename d.toNat → u.cur.reg n = s.cur.reg n))

/-! Reset (spec/25 R438, R442, R444, R445, spec/18 R381, R387, spec/14 R319, spec/07 R179, spec/15 R327). -/

/-- What reset leaves: boot has reached no stage and met no error, no feature is accepted, every measurement register is 0, the alarm
policy and the castling interval have their reset values, every engine is clock-gated, and every memory is in canonical form. And
what a core's start leaves: its cycle counter, its common registers and its seed slots are 0. -/
def Obligations.ResetState : Prop :=
  let r := State.reset
  (r.hub.stage = 0 ∧ r.hub.err = 0 ∧ r.hub.ready = false ∧ r.hub.committed = false ∧ (∀ n, r.accepted n = false) ∧
    (∀ k, tabGet 0 r.hub.measures k = 0) ∧
    r.hub.alarmLock = false ∧ r.hub.alarmMesh = 2 ∧ r.hub.alarmTemp = 1 ∧ r.hub.alarmClk = 1 ∧ r.hub.alarmVolt = 1 ∧
    (∀ d, (r.die d).castiv = 4) ∧ (∀ k, (r.cluster k).clock = .gated) ∧ memoriesWf r = true) ∧
  ∀ (s : State) (k : Nat), s.hub.stage = 3 → (s.cluster k).released = false → k < 128 → (∀ j < k, (s.cluster j).released = true) →
    ∃ u, exec (.clusterResetRelease k) s = .next u ∧ (u.cluster k).released = true ∧
      (k = 127 → u.hub.ready = true ∧ u.hub.stage = 4) ∧
      ∀ c, c / 8 = k → (u.core c).started = true ∧ (u.core c).cyc = 0 ∧
        (∀ n, tabGet 0 (u.core c).common n = 0) ∧ ∀ n, tabGet {} (u.core c).seeds n = ⟨0, 0⟩
end

