-- ==== Sys2Proof/Laws/State.lean ====
section
/-! SUPPORT. What each update of the state leaves alone, field by field, and what it writes. -/

namespace Sys2Proof.Machine

/-! Tables. -/

@[simp] theorem tabGet_tabPut_self {α : Type} (d : α) (t : Tab α) (k : Nat) (v : α) : tabGet d (tabPut t k v) k = v := by
  induction t with
  | nil => simp [tabPut, tabGet]
  | cons e r ih =>
    obtain ⟨j, w⟩ := e
    unfold tabPut
    split
    · simp [tabGet]
    · split
      · simp [tabGet]
      · rename_i h
        simp [tabGet, h, ih]

theorem tabGet_tabPut_other {α : Type} (d : α) (t : Tab α) {k l : Nat} (v : α) (h : l ≠ k) :
    tabGet d (tabPut t k v) l = tabGet d t l := by
  induction t with
  | nil => simp [tabPut, tabGet, Ne.symm h]
  | cons e r ih =>
    obtain ⟨j, w⟩ := e
    unfold tabPut
    split
    · simp [tabGet, Ne.symm h]
    · split
      · rename_i hj
        subst hj
        simp [tabGet, Ne.symm h]
      · simp only [tabGet, ih]

theorem tabPut_tabPut {α : Type} (t : Tab α) (k : Nat) (v w : α) : tabPut (tabPut t k v) k w = tabPut t k w := by
  induction t with
  | nil => simp [tabPut]
  | cons e r ih =>
    obtain ⟨j, x⟩ := e
    by_cases h : k < j
    · simp [tabPut, h]
    · by_cases h2 : j = k
      · simp [tabPut, h2]
      · simp [tabPut, h, h2, ih]

/-! The tables of the state. -/

@[simp] theorem State.core_putCore (s : State) (c : Nat) (k : Core) : (s.putCore c k).core c = k := tabGet_tabPut_self ..
theorem State.core_putCore_other (s : State) {c d : Nat} (k : Core) (h : d ≠ c) : (s.putCore c k).core d = s.core d :=
  tabGet_tabPut_other _ _ _ h
@[simp] theorem State.core_updCore (s : State) (c : Nat) (f : Core → Core) : (s.updCore c f).core c = f (s.core c) :=
  tabGet_tabPut_self ..
theorem State.core_updCore_other (s : State) {c d : Nat} (f : Core → Core) (h : d ≠ c) : (s.updCore c f).core d = s.core d :=
  tabGet_tabPut_other _ _ _ h
@[simp] theorem State.thread_putThread (s : State) (c sl : Nat) (t : Thread) : (s.putThread c sl t).thread c sl = t := by
  simp [State.thread, State.putThread, Core.putThread]
theorem State.thread_putThread_other (s : State) {c sl d e : Nat} (t : Thread) (h : ¬(d = c ∧ e = sl)) :
    (s.putThread c sl t).thread d e = s.thread d e := by
  unfold State.thread State.putThread
  by_cases hd : d = c
  · subst hd
    simp only [State.core_updCore, Core.putThread]
    exact tabGet_tabPut_other _ _ _ (fun he => h ⟨rfl, he⟩)
  · rw [State.core_updCore_other _ _ hd]
@[simp] theorem State.thread_updThread (s : State) (c sl : Nat) (f : Thread → Thread) :
    (s.updThread c sl f).thread c sl = f (s.thread c sl) := State.thread_putThread ..
@[simp] theorem State.cur_updCur (s : State) (f : Thread → Thread) : (s.updCur f).cur = f s.cur := State.thread_putThread ..
theorem State.thread_updCur_other (s : State) {d e : Nat} (f : Thread → Thread) (h : ¬(d = s.ic ∧ e = s.is)) :
    (s.updCur f).thread d e = s.thread d e := State.thread_putThread_other _ _ h

/-- A later write of a thread stands. -/
theorem State.putThread_putThread (s : State) (c sl : Nat) (t u : Thread) : (s.putThread c sl t).putThread c sl u = s.putThread c sl u := by
  simp [State.putThread, State.updCore, State.putCore, State.core, Core.putThread, tabPut_tabPut]

theorem State.updCur_congr (s : State) {f g : Thread → Thread} (h : f s.cur = g s.cur) : s.updCur f = s.updCur g := by
  show s.putThread s.ic s.is (f s.cur) = s.putThread s.ic s.is (g s.cur)
  rw [h]

/-- Two updates of the issuing thread are one. -/
theorem State.updCur_updCur (s : State) (f g : Thread → Thread) : (s.updCur f).updCur g = s.updCur fun t => g (f t) := by
  show (s.updCur f).putThread s.ic s.is (g (s.updCur f).cur) = _
  rw [State.cur_updCur]
  exact State.putThread_putThread ..
@[simp] theorem State.cluster_updCluster (s : State) (k : Nat) (f : Cluster → Cluster) : (s.updCluster k f).cluster k = f (s.cluster k) :=
  tabGet_tabPut_self ..
theorem State.cluster_updCluster_other (s : State) {k l : Nat} (f : Cluster → Cluster) (h : l ≠ k) :
    (s.updCluster k f).cluster l = s.cluster l := tabGet_tabPut_other _ _ _ h
@[simp] theorem State.pair_updPair (s : State) (p : Nat) (f : Pair → Pair) : (s.updPair p f).pair p = f (s.pair p) :=
  tabGet_tabPut_self ..
@[simp] theorem State.die_updDie (s : State) (d : Nat) (f : Die → Die) : (s.updDie d f).die d = f (s.die d) :=
  tabGet_tabPut_self ..
@[simp] theorem State.hub_updHub (s : State) (f : Hub → Hub) : (s.updHub f).hub = f s.hub := rfl

/-- A thread's update leaves what its core holds beside its threads. -/
theorem State.core_putThread (s : State) (c sl : Nat) (t : Thread) : (s.putThread c sl t).core c = (s.core c).putThread sl t := by
  simp [State.putThread]

/-! Fields. -/

@[simp] theorem State.inputs_putCore (s : State) (c : Nat) (k : Core) : (s.putCore c k).inputs = s.inputs := rfl
@[simp] theorem State.agenda_putCore (s : State) (c : Nat) (k : Core) : (s.putCore c k).agenda = s.agenda := rfl
@[simp] theorem State.focus_putCore (s : State) (c : Nat) (k : Core) : (s.putCore c k).focus = s.focus := rfl
@[simp] theorem State.ic_putCore (s : State) (c : Nat) (k : Core) : (s.putCore c k).ic = s.ic := rfl
@[simp] theorem State.is_putCore (s : State) (c : Nat) (k : Core) : (s.putCore c k).is = s.is := rfl
@[simp] theorem State.freeCtr_putCore (s : State) (c : Nat) (k : Core) : (s.putCore c k).freeCtr = s.freeCtr := rfl
@[simp] theorem State.serial_putCore (s : State) (c : Nat) (k : Core) : (s.putCore c k).serial = s.serial := rfl
@[simp] theorem State.mem_putCore (s : State) (c : Nat) (k : Core) : (s.putCore c k).mem = s.mem := rfl
@[simp] theorem State.poison_putCore (s : State) (c : Nat) (k : Core) : (s.putCore c k).poison = s.poison := rfl
@[simp] theorem State.debts_putCore (s : State) (c : Nat) (k : Core) : (s.putCore c k).debts = s.debts := rfl
@[simp] theorem State.ext_putCore (s : State) (c : Nat) (k : Core) : (s.putCore c k).ext = s.ext := rfl
@[simp] theorem State.pairs_putCore (s : State) (c : Nat) (k : Core) : (s.putCore c k).pairs = s.pairs := rfl
@[simp] theorem State.clusters_putCore (s : State) (c : Nat) (k : Core) : (s.putCore c k).clusters = s.clusters := rfl
@[simp] theorem State.diesT_putCore (s : State) (c : Nat) (k : Core) : (s.putCore c k).diesT = s.diesT := rfl
@[simp] theorem State.insts_putCore (s : State) (c : Nat) (k : Core) : (s.putCore c k).insts = s.insts := rfl
@[simp] theorem State.images_putCore (s : State) (c : Nat) (k : Core) : (s.putCore c k).images = s.images := rfl
@[simp] theorem State.faults_putCore (s : State) (c : Nat) (k : Core) : (s.putCore c k).faults = s.faults := rfl
@[simp] theorem State.flight_putCore (s : State) (c : Nat) (k : Core) : (s.putCore c k).flight = s.flight := rfl
@[simp] theorem State.away_putCore (s : State) (c : Nat) (k : Core) : (s.putCore c k).away = s.away := rfl
@[simp] theorem State.orphans_putCore (s : State) (c : Nat) (k : Core) : (s.putCore c k).orphans = s.orphans := rfl
@[simp] theorem State.mailFlight_putCore (s : State) (c : Nat) (k : Core) : (s.putCore c k).mailFlight = s.mailFlight := rfl
@[simp] theorem State.records_putCore (s : State) (c : Nat) (k : Core) : (s.putCore c k).records = s.records := rfl
@[simp] theorem State.hub_putCore (s : State) (c : Nat) (k : Core) : (s.putCore c k).hub = s.hub := rfl

@[simp] theorem State.inputs_updCore (s : State) (c : Nat) (f : Core → Core) : (s.updCore c f).inputs = s.inputs := rfl
@[simp] theorem State.agenda_updCore (s : State) (c : Nat) (f : Core → Core) : (s.updCore c f).agenda = s.agenda := rfl
@[simp] theorem State.focus_updCore (s : State) (c : Nat) (f : Core → Core) : (s.updCore c f).focus = s.focus := rfl
@[simp] theorem State.ic_updCore (s : State) (c : Nat) (f : Core → Core) : (s.updCore c f).ic = s.ic := rfl
@[simp] theorem State.is_updCore (s : State) (c : Nat) (f : Core → Core) : (s.updCore c f).is = s.is := rfl
@[simp] theorem State.freeCtr_updCore (s : State) (c : Nat) (f : Core → Core) : (s.updCore c f).freeCtr = s.freeCtr := rfl
@[simp] theorem State.serial_updCore (s : State) (c : Nat) (f : Core → Core) : (s.updCore c f).serial = s.serial := rfl
@[simp] theorem State.mem_updCore (s : State) (c : Nat) (f : Core → Core) : (s.updCore c f).mem = s.mem := rfl
@[simp] theorem State.poison_updCore (s : State) (c : Nat) (f : Core → Core) : (s.updCore c f).poison = s.poison := rfl
@[simp] theorem State.debts_updCore (s : State) (c : Nat) (f : Core → Core) : (s.updCore c f).debts = s.debts := rfl
@[simp] theorem State.ext_updCore (s : State) (c : Nat) (f : Core → Core) : (s.updCore c f).ext = s.ext := rfl
@[simp] theorem State.pairs_updCore (s : State) (c : Nat) (f : Core → Core) : (s.updCore c f).pairs = s.pairs := rfl
@[simp] theorem State.clusters_updCore (s : State) (c : Nat) (f : Core → Core) : (s.updCore c f).clusters = s.clusters := rfl
@[simp] theorem State.diesT_updCore (s : State) (c : Nat) (f : Core → Core) : (s.updCore c f).diesT = s.diesT := rfl
@[simp] theorem State.insts_updCore (s : State) (c : Nat) (f : Core → Core) : (s.updCore c f).insts = s.insts := rfl
@[simp] theorem State.images_updCore (s : State) (c : Nat) (f : Core → Core) : (s.updCore c f).images = s.images := rfl
@[simp] theorem State.faults_updCore (s : State) (c : Nat) (f : Core → Core) : (s.updCore c f).faults = s.faults := rfl
@[simp] theorem State.flight_updCore (s : State) (c : Nat) (f : Core → Core) : (s.updCore c f).flight = s.flight := rfl
@[simp] theorem State.away_updCore (s : State) (c : Nat) (f : Core → Core) : (s.updCore c f).away = s.away := rfl
@[simp] theorem State.orphans_updCore (s : State) (c : Nat) (f : Core → Core) : (s.updCore c f).orphans = s.orphans := rfl
@[simp] theorem State.mailFlight_updCore (s : State) (c : Nat) (f : Core → Core) : (s.updCore c f).mailFlight = s.mailFlight := rfl
@[simp] theorem State.records_updCore (s : State) (c : Nat) (f : Core → Core) : (s.updCore c f).records = s.records := rfl
@[simp] theorem State.hub_updCore (s : State) (c : Nat) (f : Core → Core) : (s.updCore c f).hub = s.hub := rfl

@[simp] theorem State.inputs_putThread (s : State) (c sl : Nat) (t : Thread) : (s.putThread c sl t).inputs = s.inputs := rfl
@[simp] theorem State.agenda_putThread (s : State) (c sl : Nat) (t : Thread) : (s.putThread c sl t).agenda = s.agenda := rfl
@[simp] theorem State.focus_putThread (s : State) (c sl : Nat) (t : Thread) : (s.putThread c sl t).focus = s.focus := rfl
@[simp] theorem State.ic_putThread (s : State) (c sl : Nat) (t : Thread) : (s.putThread c sl t).ic = s.ic := rfl
@[simp] theorem State.is_putThread (s : State) (c sl : Nat) (t : Thread) : (s.putThread c sl t).is = s.is := rfl
@[simp] theorem State.freeCtr_putThread (s : State) (c sl : Nat) (t : Thread) : (s.putThread c sl t).freeCtr = s.freeCtr := rfl
@[simp] theorem State.serial_putThread (s : State) (c sl : Nat) (t : Thread) : (s.putThread c sl t).serial = s.serial := rfl
@[simp] theorem State.mem_putThread (s : State) (c sl : Nat) (t : Thread) : (s.putThread c sl t).mem = s.mem := rfl
@[simp] theorem State.poison_putThread (s : State) (c sl : Nat) (t : Thread) : (s.putThread c sl t).poison = s.poison := rfl
@[simp] theorem State.debts_putThread (s : State) (c sl : Nat) (t : Thread) : (s.putThread c sl t).debts = s.debts := rfl
@[simp] theorem State.ext_putThread (s : State) (c sl : Nat) (t : Thread) : (s.putThread c sl t).ext = s.ext := rfl
@[simp] theorem State.pairs_putThread (s : State) (c sl : Nat) (t : Thread) : (s.putThread c sl t).pairs = s.pairs := rfl
@[simp] theorem State.clusters_putThread (s : State) (c sl : Nat) (t : Thread) : (s.putThread c sl t).clusters = s.clusters := rfl
@[simp] theorem State.diesT_putThread (s : State) (c sl : Nat) (t : Thread) : (s.putThread c sl t).diesT = s.diesT := rfl
@[simp] theorem State.insts_putThread (s : State) (c sl : Nat) (t : Thread) : (s.putThread c sl t).insts = s.insts := rfl
@[simp] theorem State.images_putThread (s : State) (c sl : Nat) (t : Thread) : (s.putThread c sl t).images = s.images := rfl
@[simp] theorem State.faults_putThread (s : State) (c sl : Nat) (t : Thread) : (s.putThread c sl t).faults = s.faults := rfl
@[simp] theorem State.flight_putThread (s : State) (c sl : Nat) (t : Thread) : (s.putThread c sl t).flight = s.flight := rfl
@[simp] theorem State.away_putThread (s : State) (c sl : Nat) (t : Thread) : (s.putThread c sl t).away = s.away := rfl
@[simp] theorem State.orphans_putThread (s : State) (c sl : Nat) (t : Thread) : (s.putThread c sl t).orphans = s.orphans := rfl
@[simp] theorem State.mailFlight_putThread (s : State) (c sl : Nat) (t : Thread) : (s.putThread c sl t).mailFlight = s.mailFlight := rfl
@[simp] theorem State.records_putThread (s : State) (c sl : Nat) (t : Thread) : (s.putThread c sl t).records = s.records := rfl
@[simp] theorem State.hub_putThread (s : State) (c sl : Nat) (t : Thread) : (s.putThread c sl t).hub = s.hub := rfl

@[simp] theorem State.inputs_updThread (s : State) (c sl : Nat) (f : Thread → Thread) : (s.updThread c sl f).inputs = s.inputs := rfl
@[simp] theorem State.agenda_updThread (s : State) (c sl : Nat) (f : Thread → Thread) : (s.updThread c sl f).agenda = s.agenda := rfl
@[simp] theorem State.focus_updThread (s : State) (c sl : Nat) (f : Thread → Thread) : (s.updThread c sl f).focus = s.focus := rfl
@[simp] theorem State.ic_updThread (s : State) (c sl : Nat) (f : Thread → Thread) : (s.updThread c sl f).ic = s.ic := rfl
@[simp] theorem State.is_updThread (s : State) (c sl : Nat) (f : Thread → Thread) : (s.updThread c sl f).is = s.is := rfl
@[simp] theorem State.freeCtr_updThread (s : State) (c sl : Nat) (f : Thread → Thread) : (s.updThread c sl f).freeCtr = s.freeCtr := rfl
@[simp] theorem State.serial_updThread (s : State) (c sl : Nat) (f : Thread → Thread) : (s.updThread c sl f).serial = s.serial := rfl
@[simp] theorem State.mem_updThread (s : State) (c sl : Nat) (f : Thread → Thread) : (s.updThread c sl f).mem = s.mem := rfl
@[simp] theorem State.poison_updThread (s : State) (c sl : Nat) (f : Thread → Thread) : (s.updThread c sl f).poison = s.poison := rfl
@[simp] theorem State.debts_updThread (s : State) (c sl : Nat) (f : Thread → Thread) : (s.updThread c sl f).debts = s.debts := rfl
@[simp] theorem State.ext_updThread (s : State) (c sl : Nat) (f : Thread → Thread) : (s.updThread c sl f).ext = s.ext := rfl
@[simp] theorem State.pairs_updThread (s : State) (c sl : Nat) (f : Thread → Thread) : (s.updThread c sl f).pairs = s.pairs := rfl
@[simp] theorem State.clusters_updThread (s : State) (c sl : Nat) (f : Thread → Thread) : (s.updThread c sl f).clusters = s.clusters := rfl
@[simp] theorem State.diesT_updThread (s : State) (c sl : Nat) (f : Thread → Thread) : (s.updThread c sl f).diesT = s.diesT := rfl
@[simp] theorem State.insts_updThread (s : State) (c sl : Nat) (f : Thread → Thread) : (s.updThread c sl f).insts = s.insts := rfl
@[simp] theorem State.images_updThread (s : State) (c sl : Nat) (f : Thread → Thread) : (s.updThread c sl f).images = s.images := rfl
@[simp] theorem State.faults_updThread (s : State) (c sl : Nat) (f : Thread → Thread) : (s.updThread c sl f).faults = s.faults := rfl
@[simp] theorem State.flight_updThread (s : State) (c sl : Nat) (f : Thread → Thread) : (s.updThread c sl f).flight = s.flight := rfl
@[simp] theorem State.away_updThread (s : State) (c sl : Nat) (f : Thread → Thread) : (s.updThread c sl f).away = s.away := rfl
@[simp] theorem State.orphans_updThread (s : State) (c sl : Nat) (f : Thread → Thread) : (s.updThread c sl f).orphans = s.orphans := rfl
@[simp] theorem State.mailFlight_updThread (s : State) (c sl : Nat) (f : Thread → Thread) : (s.updThread c sl f).mailFlight = s.mailFlight := rfl
@[simp] theorem State.records_updThread (s : State) (c sl : Nat) (f : Thread → Thread) : (s.updThread c sl f).records = s.records := rfl
@[simp] theorem State.hub_updThread (s : State) (c sl : Nat) (f : Thread → Thread) : (s.updThread c sl f).hub = s.hub := rfl

@[simp] theorem State.inputs_updCur (s : State) (f : Thread → Thread) : (s.updCur f).inputs = s.inputs := rfl
@[simp] theorem State.agenda_updCur (s : State) (f : Thread → Thread) : (s.updCur f).agenda = s.agenda := rfl
@[simp] theorem State.focus_updCur (s : State) (f : Thread → Thread) : (s.updCur f).focus = s.focus := rfl
@[simp] theorem State.ic_updCur (s : State) (f : Thread → Thread) : (s.updCur f).ic = s.ic := rfl
@[simp] theorem State.is_updCur (s : State) (f : Thread → Thread) : (s.updCur f).is = s.is := rfl
@[simp] theorem State.freeCtr_updCur (s : State) (f : Thread → Thread) : (s.updCur f).freeCtr = s.freeCtr := rfl
@[simp] theorem State.serial_updCur (s : State) (f : Thread → Thread) : (s.updCur f).serial = s.serial := rfl
@[simp] theorem State.mem_updCur (s : State) (f : Thread → Thread) : (s.updCur f).mem = s.mem := rfl
@[simp] theorem State.poison_updCur (s : State) (f : Thread → Thread) : (s.updCur f).poison = s.poison := rfl
@[simp] theorem State.debts_updCur (s : State) (f : Thread → Thread) : (s.updCur f).debts = s.debts := rfl
@[simp] theorem State.ext_updCur (s : State) (f : Thread → Thread) : (s.updCur f).ext = s.ext := rfl
@[simp] theorem State.pairs_updCur (s : State) (f : Thread → Thread) : (s.updCur f).pairs = s.pairs := rfl
@[simp] theorem State.clusters_updCur (s : State) (f : Thread → Thread) : (s.updCur f).clusters = s.clusters := rfl
@[simp] theorem State.diesT_updCur (s : State) (f : Thread → Thread) : (s.updCur f).diesT = s.diesT := rfl
@[simp] theorem State.insts_updCur (s : State) (f : Thread → Thread) : (s.updCur f).insts = s.insts := rfl
@[simp] theorem State.images_updCur (s : State) (f : Thread → Thread) : (s.updCur f).images = s.images := rfl
@[simp] theorem State.faults_updCur (s : State) (f : Thread → Thread) : (s.updCur f).faults = s.faults := rfl
@[simp] theorem State.flight_updCur (s : State) (f : Thread → Thread) : (s.updCur f).flight = s.flight := rfl
@[simp] theorem State.away_updCur (s : State) (f : Thread → Thread) : (s.updCur f).away = s.away := rfl
@[simp] theorem State.orphans_updCur (s : State) (f : Thread → Thread) : (s.updCur f).orphans = s.orphans := rfl
@[simp] theorem State.mailFlight_updCur (s : State) (f : Thread → Thread) : (s.updCur f).mailFlight = s.mailFlight := rfl
@[simp] theorem State.records_updCur (s : State) (f : Thread → Thread) : (s.updCur f).records = s.records := rfl
@[simp] theorem State.hub_updCur (s : State) (f : Thread → Thread) : (s.updCur f).hub = s.hub := rfl

@[simp] theorem State.inputs_updCluster (s : State) (k : Nat) (f : Cluster → Cluster) : (s.updCluster k f).inputs = s.inputs := rfl
@[simp] theorem State.agenda_updCluster (s : State) (k : Nat) (f : Cluster → Cluster) : (s.updCluster k f).agenda = s.agenda := rfl
@[simp] theorem State.focus_updCluster (s : State) (k : Nat) (f : Cluster → Cluster) : (s.updCluster k f).focus = s.focus := rfl
@[simp] theorem State.ic_updCluster (s : State) (k : Nat) (f : Cluster → Cluster) : (s.updCluster k f).ic = s.ic := rfl
@[simp] theorem State.is_updCluster (s : State) (k : Nat) (f : Cluster → Cluster) : (s.updCluster k f).is = s.is := rfl
@[simp] theorem State.freeCtr_updCluster (s : State) (k : Nat) (f : Cluster → Cluster) : (s.updCluster k f).freeCtr = s.freeCtr := rfl
@[simp] theorem State.serial_updCluster (s : State) (k : Nat) (f : Cluster → Cluster) : (s.updCluster k f).serial = s.serial := rfl
@[simp] theorem State.mem_updCluster (s : State) (k : Nat) (f : Cluster → Cluster) : (s.updCluster k f).mem = s.mem := rfl
@[simp] theorem State.poison_updCluster (s : State) (k : Nat) (f : Cluster → Cluster) : (s.updCluster k f).poison = s.poison := rfl
@[simp] theorem State.debts_updCluster (s : State) (k : Nat) (f : Cluster → Cluster) : (s.updCluster k f).debts = s.debts := rfl
@[simp] theorem State.ext_updCluster (s : State) (k : Nat) (f : Cluster → Cluster) : (s.updCluster k f).ext = s.ext := rfl
@[simp] theorem State.cores_updCluster (s : State) (k : Nat) (f : Cluster → Cluster) : (s.updCluster k f).cores = s.cores := rfl
@[simp] theorem State.pairs_updCluster (s : State) (k : Nat) (f : Cluster → Cluster) : (s.updCluster k f).pairs = s.pairs := rfl
@[simp] theorem State.diesT_updCluster (s : State) (k : Nat) (f : Cluster → Cluster) : (s.updCluster k f).diesT = s.diesT := rfl
@[simp] theorem State.insts_updCluster (s : State) (k : Nat) (f : Cluster → Cluster) : (s.updCluster k f).insts = s.insts := rfl
@[simp] theorem State.images_updCluster (s : State) (k : Nat) (f : Cluster → Cluster) : (s.updCluster k f).images = s.images := rfl
@[simp] theorem State.faults_updCluster (s : State) (k : Nat) (f : Cluster → Cluster) : (s.updCluster k f).faults = s.faults := rfl
@[simp] theorem State.flight_updCluster (s : State) (k : Nat) (f : Cluster → Cluster) : (s.updCluster k f).flight = s.flight := rfl
@[simp] theorem State.away_updCluster (s : State) (k : Nat) (f : Cluster → Cluster) : (s.updCluster k f).away = s.away := rfl
@[simp] theorem State.orphans_updCluster (s : State) (k : Nat) (f : Cluster → Cluster) : (s.updCluster k f).orphans = s.orphans := rfl
@[simp] theorem State.mailFlight_updCluster (s : State) (k : Nat) (f : Cluster → Cluster) : (s.updCluster k f).mailFlight = s.mailFlight := rfl
@[simp] theorem State.records_updCluster (s : State) (k : Nat) (f : Cluster → Cluster) : (s.updCluster k f).records = s.records := rfl
@[simp] theorem State.hub_updCluster (s : State) (k : Nat) (f : Cluster → Cluster) : (s.updCluster k f).hub = s.hub := rfl

@[simp] theorem State.inputs_updPair (s : State) (p : Nat) (f : Pair → Pair) : (s.updPair p f).inputs = s.inputs := rfl
@[simp] theorem State.agenda_updPair (s : State) (p : Nat) (f : Pair → Pair) : (s.updPair p f).agenda = s.agenda := rfl
@[simp] theorem State.focus_updPair (s : State) (p : Nat) (f : Pair → Pair) : (s.updPair p f).focus = s.focus := rfl
@[simp] theorem State.ic_updPair (s : State) (p : Nat) (f : Pair → Pair) : (s.updPair p f).ic = s.ic := rfl
@[simp] theorem State.is_updPair (s : State) (p : Nat) (f : Pair → Pair) : (s.updPair p f).is = s.is := rfl
@[simp] theorem State.freeCtr_updPair (s : State) (p : Nat) (f : Pair → Pair) : (s.updPair p f).freeCtr = s.freeCtr := rfl
@[simp] theorem State.serial_updPair (s : State) (p : Nat) (f : Pair → Pair) : (s.updPair p f).serial = s.serial := rfl
@[simp] theorem State.mem_updPair (s : State) (p : Nat) (f : Pair → Pair) : (s.updPair p f).mem = s.mem := rfl
@[simp] theorem State.poison_updPair (s : State) (p : Nat) (f : Pair → Pair) : (s.updPair p f).poison = s.poison := rfl
@[simp] theorem State.debts_updPair (s : State) (p : Nat) (f : Pair → Pair) : (s.updPair p f).debts = s.debts := rfl
@[simp] theorem State.ext_updPair (s : State) (p : Nat) (f : Pair → Pair) : (s.updPair p f).ext = s.ext := rfl
@[simp] theorem State.cores_updPair (s : State) (p : Nat) (f : Pair → Pair) : (s.updPair p f).cores = s.cores := rfl
@[simp] theorem State.clusters_updPair (s : State) (p : Nat) (f : Pair → Pair) : (s.updPair p f).clusters = s.clusters := rfl
@[simp] theorem State.diesT_updPair (s : State) (p : Nat) (f : Pair → Pair) : (s.updPair p f).diesT = s.diesT := rfl
@[simp] theorem State.insts_updPair (s : State) (p : Nat) (f : Pair → Pair) : (s.updPair p f).insts = s.insts := rfl
@[simp] theorem State.images_updPair (s : State) (p : Nat) (f : Pair → Pair) : (s.updPair p f).images = s.images := rfl
@[simp] theorem State.faults_updPair (s : State) (p : Nat) (f : Pair → Pair) : (s.updPair p f).faults = s.faults := rfl
@[simp] theorem State.flight_updPair (s : State) (p : Nat) (f : Pair → Pair) : (s.updPair p f).flight = s.flight := rfl
@[simp] theorem State.away_updPair (s : State) (p : Nat) (f : Pair → Pair) : (s.updPair p f).away = s.away := rfl
@[simp] theorem State.orphans_updPair (s : State) (p : Nat) (f : Pair → Pair) : (s.updPair p f).orphans = s.orphans := rfl
@[simp] theorem State.mailFlight_updPair (s : State) (p : Nat) (f : Pair → Pair) : (s.updPair p f).mailFlight = s.mailFlight := rfl
@[simp] theorem State.records_updPair (s : State) (p : Nat) (f : Pair → Pair) : (s.updPair p f).records = s.records := rfl
@[simp] theorem State.hub_updPair (s : State) (p : Nat) (f : Pair → Pair) : (s.updPair p f).hub = s.hub := rfl

@[simp] theorem State.inputs_updDie (s : State) (d : Nat) (f : Die → Die) : (s.updDie d f).inputs = s.inputs := rfl
@[simp] theorem State.agenda_updDie (s : State) (d : Nat) (f : Die → Die) : (s.updDie d f).agenda = s.agenda := rfl
@[simp] theorem State.focus_updDie (s : State) (d : Nat) (f : Die → Die) : (s.updDie d f).focus = s.focus := rfl
@[simp] theorem State.ic_updDie (s : State) (d : Nat) (f : Die → Die) : (s.updDie d f).ic = s.ic := rfl
@[simp] theorem State.is_updDie (s : State) (d : Nat) (f : Die → Die) : (s.updDie d f).is = s.is := rfl
@[simp] theorem State.freeCtr_updDie (s : State) (d : Nat) (f : Die → Die) : (s.updDie d f).freeCtr = s.freeCtr := rfl
@[simp] theorem State.serial_updDie (s : State) (d : Nat) (f : Die → Die) : (s.updDie d f).serial = s.serial := rfl
@[simp] theorem State.mem_updDie (s : State) (d : Nat) (f : Die → Die) : (s.updDie d f).mem = s.mem := rfl
@[simp] theorem State.poison_updDie (s : State) (d : Nat) (f : Die → Die) : (s.updDie d f).poison = s.poison := rfl
@[simp] theorem State.debts_updDie (s : State) (d : Nat) (f : Die → Die) : (s.updDie d f).debts = s.debts := rfl
@[simp] theorem State.ext_updDie (s : State) (d : Nat) (f : Die → Die) : (s.updDie d f).ext = s.ext := rfl
@[simp] theorem State.cores_updDie (s : State) (d : Nat) (f : Die → Die) : (s.updDie d f).cores = s.cores := rfl
@[simp] theorem State.pairs_updDie (s : State) (d : Nat) (f : Die → Die) : (s.updDie d f).pairs = s.pairs := rfl
@[simp] theorem State.clusters_updDie (s : State) (d : Nat) (f : Die → Die) : (s.updDie d f).clusters = s.clusters := rfl
@[simp] theorem State.insts_updDie (s : State) (d : Nat) (f : Die → Die) : (s.updDie d f).insts = s.insts := rfl
@[simp] theorem State.images_updDie (s : State) (d : Nat) (f : Die → Die) : (s.updDie d f).images = s.images := rfl
@[simp] theorem State.faults_updDie (s : State) (d : Nat) (f : Die → Die) : (s.updDie d f).faults = s.faults := rfl
@[simp] theorem State.flight_updDie (s : State) (d : Nat) (f : Die → Die) : (s.updDie d f).flight = s.flight := rfl
@[simp] theorem State.away_updDie (s : State) (d : Nat) (f : Die → Die) : (s.updDie d f).away = s.away := rfl
@[simp] theorem State.orphans_updDie (s : State) (d : Nat) (f : Die → Die) : (s.updDie d f).orphans = s.orphans := rfl
@[simp] theorem State.mailFlight_updDie (s : State) (d : Nat) (f : Die → Die) : (s.updDie d f).mailFlight = s.mailFlight := rfl
@[simp] theorem State.records_updDie (s : State) (d : Nat) (f : Die → Die) : (s.updDie d f).records = s.records := rfl
@[simp] theorem State.hub_updDie (s : State) (d : Nat) (f : Die → Die) : (s.updDie d f).hub = s.hub := rfl

@[simp] theorem State.inputs_updHub (s : State) (f : Hub → Hub) : (s.updHub f).inputs = s.inputs := rfl
@[simp] theorem State.agenda_updHub (s : State) (f : Hub → Hub) : (s.updHub f).agenda = s.agenda := rfl
@[simp] theorem State.focus_updHub (s : State) (f : Hub → Hub) : (s.updHub f).focus = s.focus := rfl
@[simp] theorem State.ic_updHub (s : State) (f : Hub → Hub) : (s.updHub f).ic = s.ic := rfl
@[simp] theorem State.is_updHub (s : State) (f : Hub → Hub) : (s.updHub f).is = s.is := rfl
@[simp] theorem State.freeCtr_updHub (s : State) (f : Hub → Hub) : (s.updHub f).freeCtr = s.freeCtr := rfl
@[simp] theorem State.serial_updHub (s : State) (f : Hub → Hub) : (s.updHub f).serial = s.serial := rfl
@[simp] theorem State.mem_updHub (s : State) (f : Hub → Hub) : (s.updHub f).mem = s.mem := rfl
@[simp] theorem State.poison_updHub (s : State) (f : Hub → Hub) : (s.updHub f).poison = s.poison := rfl
@[simp] theorem State.debts_updHub (s : State) (f : Hub → Hub) : (s.updHub f).debts = s.debts := rfl
@[simp] theorem State.ext_updHub (s : State) (f : Hub → Hub) : (s.updHub f).ext = s.ext := rfl
@[simp] theorem State.cores_updHub (s : State) (f : Hub → Hub) : (s.updHub f).cores = s.cores := rfl
@[simp] theorem State.pairs_updHub (s : State) (f : Hub → Hub) : (s.updHub f).pairs = s.pairs := rfl
@[simp] theorem State.clusters_updHub (s : State) (f : Hub → Hub) : (s.updHub f).clusters = s.clusters := rfl
@[simp] theorem State.diesT_updHub (s : State) (f : Hub → Hub) : (s.updHub f).diesT = s.diesT := rfl
@[simp] theorem State.insts_updHub (s : State) (f : Hub → Hub) : (s.updHub f).insts = s.insts := rfl
@[simp] theorem State.images_updHub (s : State) (f : Hub → Hub) : (s.updHub f).images = s.images := rfl
@[simp] theorem State.faults_updHub (s : State) (f : Hub → Hub) : (s.updHub f).faults = s.faults := rfl
@[simp] theorem State.flight_updHub (s : State) (f : Hub → Hub) : (s.updHub f).flight = s.flight := rfl
@[simp] theorem State.away_updHub (s : State) (f : Hub → Hub) : (s.updHub f).away = s.away := rfl
@[simp] theorem State.orphans_updHub (s : State) (f : Hub → Hub) : (s.updHub f).orphans = s.orphans := rfl
@[simp] theorem State.mailFlight_updHub (s : State) (f : Hub → Hub) : (s.updHub f).mailFlight = s.mailFlight := rfl
@[simp] theorem State.records_updHub (s : State) (f : Hub → Hub) : (s.updHub f).records = s.records := rfl

@[simp] theorem State.inputs_record (s : State) (r : Record) : (s.record r).inputs = s.inputs := rfl
@[simp] theorem State.agenda_record (s : State) (r : Record) : (s.record r).agenda = s.agenda := rfl
@[simp] theorem State.focus_record (s : State) (r : Record) : (s.record r).focus = s.focus := rfl
@[simp] theorem State.ic_record (s : State) (r : Record) : (s.record r).ic = s.ic := rfl
@[simp] theorem State.is_record (s : State) (r : Record) : (s.record r).is = s.is := rfl
@[simp] theorem State.freeCtr_record (s : State) (r : Record) : (s.record r).freeCtr = s.freeCtr := rfl
@[simp] theorem State.serial_record (s : State) (r : Record) : (s.record r).serial = s.serial := rfl
@[simp] theorem State.mem_record (s : State) (r : Record) : (s.record r).mem = s.mem := rfl
@[simp] theorem State.poison_record (s : State) (r : Record) : (s.record r).poison = s.poison := rfl
@[simp] theorem State.debts_record (s : State) (r : Record) : (s.record r).debts = s.debts := rfl
@[simp] theorem State.ext_record (s : State) (r : Record) : (s.record r).ext = s.ext := rfl
@[simp] theorem State.cores_record (s : State) (r : Record) : (s.record r).cores = s.cores := rfl
@[simp] theorem State.pairs_record (s : State) (r : Record) : (s.record r).pairs = s.pairs := rfl
@[simp] theorem State.clusters_record (s : State) (r : Record) : (s.record r).clusters = s.clusters := rfl
@[simp] theorem State.diesT_record (s : State) (r : Record) : (s.record r).diesT = s.diesT := rfl
@[simp] theorem State.insts_record (s : State) (r : Record) : (s.record r).insts = s.insts := rfl
@[simp] theorem State.images_record (s : State) (r : Record) : (s.record r).images = s.images := rfl
@[simp] theorem State.faults_record (s : State) (r : Record) : (s.record r).faults = s.faults := rfl
@[simp] theorem State.flight_record (s : State) (r : Record) : (s.record r).flight = s.flight := rfl
@[simp] theorem State.away_record (s : State) (r : Record) : (s.record r).away = s.away := rfl
@[simp] theorem State.orphans_record (s : State) (r : Record) : (s.record r).orphans = s.orphans := rfl
@[simp] theorem State.mailFlight_record (s : State) (r : Record) : (s.record r).mailFlight = s.mailFlight := rfl
@[simp] theorem State.hub_record (s : State) (r : Record) : (s.record r).hub = s.hub := rfl

@[simp] theorem State.inputs_emit (s : State) (i : Instr) : (s.emit i).inputs = s.inputs := rfl
@[simp] theorem State.focus_emit (s : State) (i : Instr) : (s.emit i).focus = s.focus := rfl
@[simp] theorem State.ic_emit (s : State) (i : Instr) : (s.emit i).ic = s.ic := rfl
@[simp] theorem State.is_emit (s : State) (i : Instr) : (s.emit i).is = s.is := rfl
@[simp] theorem State.freeCtr_emit (s : State) (i : Instr) : (s.emit i).freeCtr = s.freeCtr := rfl
@[simp] theorem State.serial_emit (s : State) (i : Instr) : (s.emit i).serial = s.serial := rfl
@[simp] theorem State.mem_emit (s : State) (i : Instr) : (s.emit i).mem = s.mem := rfl
@[simp] theorem State.poison_emit (s : State) (i : Instr) : (s.emit i).poison = s.poison := rfl
@[simp] theorem State.debts_emit (s : State) (i : Instr) : (s.emit i).debts = s.debts := rfl
@[simp] theorem State.ext_emit (s : State) (i : Instr) : (s.emit i).ext = s.ext := rfl
@[simp] theorem State.cores_emit (s : State) (i : Instr) : (s.emit i).cores = s.cores := rfl
@[simp] theorem State.pairs_emit (s : State) (i : Instr) : (s.emit i).pairs = s.pairs := rfl
@[simp] theorem State.clusters_emit (s : State) (i : Instr) : (s.emit i).clusters = s.clusters := rfl
@[simp] theorem State.diesT_emit (s : State) (i : Instr) : (s.emit i).diesT = s.diesT := rfl
@[simp] theorem State.insts_emit (s : State) (i : Instr) : (s.emit i).insts = s.insts := rfl
@[simp] theorem State.images_emit (s : State) (i : Instr) : (s.emit i).images = s.images := rfl
@[simp] theorem State.faults_emit (s : State) (i : Instr) : (s.emit i).faults = s.faults := rfl
@[simp] theorem State.flight_emit (s : State) (i : Instr) : (s.emit i).flight = s.flight := rfl
@[simp] theorem State.away_emit (s : State) (i : Instr) : (s.emit i).away = s.away := rfl
@[simp] theorem State.orphans_emit (s : State) (i : Instr) : (s.emit i).orphans = s.orphans := rfl
@[simp] theorem State.mailFlight_emit (s : State) (i : Instr) : (s.emit i).mailFlight = s.mailFlight := rfl
@[simp] theorem State.records_emit (s : State) (i : Instr) : (s.emit i).records = s.records := rfl
@[simp] theorem State.hub_emit (s : State) (i : Instr) : (s.emit i).hub = s.hub := rfl

@[simp] theorem State.inputs_emitAll (s : State) (l : List Instr) : (s.emitAll l).inputs = s.inputs := rfl
@[simp] theorem State.focus_emitAll (s : State) (l : List Instr) : (s.emitAll l).focus = s.focus := rfl
@[simp] theorem State.ic_emitAll (s : State) (l : List Instr) : (s.emitAll l).ic = s.ic := rfl
@[simp] theorem State.is_emitAll (s : State) (l : List Instr) : (s.emitAll l).is = s.is := rfl
@[simp] theorem State.freeCtr_emitAll (s : State) (l : List Instr) : (s.emitAll l).freeCtr = s.freeCtr := rfl
@[simp] theorem State.serial_emitAll (s : State) (l : List Instr) : (s.emitAll l).serial = s.serial := rfl
@[simp] theorem State.mem_emitAll (s : State) (l : List Instr) : (s.emitAll l).mem = s.mem := rfl
@[simp] theorem State.poison_emitAll (s : State) (l : List Instr) : (s.emitAll l).poison = s.poison := rfl
@[simp] theorem State.debts_emitAll (s : State) (l : List Instr) : (s.emitAll l).debts = s.debts := rfl
@[simp] theorem State.ext_emitAll (s : State) (l : List Instr) : (s.emitAll l).ext = s.ext := rfl
@[simp] theorem State.cores_emitAll (s : State) (l : List Instr) : (s.emitAll l).cores = s.cores := rfl
@[simp] theorem State.pairs_emitAll (s : State) (l : List Instr) : (s.emitAll l).pairs = s.pairs := rfl
@[simp] theorem State.clusters_emitAll (s : State) (l : List Instr) : (s.emitAll l).clusters = s.clusters := rfl
@[simp] theorem State.diesT_emitAll (s : State) (l : List Instr) : (s.emitAll l).diesT = s.diesT := rfl
@[simp] theorem State.insts_emitAll (s : State) (l : List Instr) : (s.emitAll l).insts = s.insts := rfl
@[simp] theorem State.images_emitAll (s : State) (l : List Instr) : (s.emitAll l).images = s.images := rfl
@[simp] theorem State.faults_emitAll (s : State) (l : List Instr) : (s.emitAll l).faults = s.faults := rfl
@[simp] theorem State.flight_emitAll (s : State) (l : List Instr) : (s.emitAll l).flight = s.flight := rfl
@[simp] theorem State.away_emitAll (s : State) (l : List Instr) : (s.emitAll l).away = s.away := rfl
@[simp] theorem State.orphans_emitAll (s : State) (l : List Instr) : (s.emitAll l).orphans = s.orphans := rfl
@[simp] theorem State.mailFlight_emitAll (s : State) (l : List Instr) : (s.emitAll l).mailFlight = s.mailFlight := rfl
@[simp] theorem State.records_emitAll (s : State) (l : List Instr) : (s.emitAll l).records = s.records := rfl
@[simp] theorem State.hub_emitAll (s : State) (l : List Instr) : (s.emitAll l).hub = s.hub := rfl

@[simp] theorem State.inputs_park (s : State) (w : Wait) : (s.park w).inputs = s.inputs := rfl
@[simp] theorem State.agenda_park (s : State) (w : Wait) : (s.park w).agenda = s.agenda := rfl
@[simp] theorem State.focus_park (s : State) (w : Wait) : (s.park w).focus = s.focus := rfl
@[simp] theorem State.ic_park (s : State) (w : Wait) : (s.park w).ic = s.ic := rfl
@[simp] theorem State.is_park (s : State) (w : Wait) : (s.park w).is = s.is := rfl
@[simp] theorem State.freeCtr_park (s : State) (w : Wait) : (s.park w).freeCtr = s.freeCtr := rfl
@[simp] theorem State.serial_park (s : State) (w : Wait) : (s.park w).serial = s.serial := rfl
@[simp] theorem State.mem_park (s : State) (w : Wait) : (s.park w).mem = s.mem := rfl
@[simp] theorem State.poison_park (s : State) (w : Wait) : (s.park w).poison = s.poison := rfl
@[simp] theorem State.debts_park (s : State) (w : Wait) : (s.park w).debts = s.debts := rfl
@[simp] theorem State.ext_park (s : State) (w : Wait) : (s.park w).ext = s.ext := rfl
@[simp] theorem State.pairs_park (s : State) (w : Wait) : (s.park w).pairs = s.pairs := rfl
@[simp] theorem State.clusters_park (s : State) (w : Wait) : (s.park w).clusters = s.clusters := rfl
@[simp] theorem State.diesT_park (s : State) (w : Wait) : (s.park w).diesT = s.diesT := rfl
@[simp] theorem State.insts_park (s : State) (w : Wait) : (s.park w).insts = s.insts := rfl
@[simp] theorem State.images_park (s : State) (w : Wait) : (s.park w).images = s.images := rfl
@[simp] theorem State.faults_park (s : State) (w : Wait) : (s.park w).faults = s.faults := rfl
@[simp] theorem State.flight_park (s : State) (w : Wait) : (s.park w).flight = s.flight := rfl
@[simp] theorem State.away_park (s : State) (w : Wait) : (s.park w).away = s.away := rfl
@[simp] theorem State.orphans_park (s : State) (w : Wait) : (s.park w).orphans = s.orphans := rfl
@[simp] theorem State.mailFlight_park (s : State) (w : Wait) : (s.park w).mailFlight = s.mailFlight := rfl
@[simp] theorem State.records_park (s : State) (w : Wait) : (s.park w).records = s.records := rfl
@[simp] theorem State.hub_park (s : State) (w : Wait) : (s.park w).hub = s.hub := rfl

@[simp] theorem State.inputs_advance (s : State) : (s.advance).inputs = s.inputs := rfl
@[simp] theorem State.agenda_advance (s : State) : (s.advance).agenda = s.agenda := rfl
@[simp] theorem State.focus_advance (s : State) : (s.advance).focus = s.focus := rfl
@[simp] theorem State.ic_advance (s : State) : (s.advance).ic = s.ic := rfl
@[simp] theorem State.is_advance (s : State) : (s.advance).is = s.is := rfl
@[simp] theorem State.freeCtr_advance (s : State) : (s.advance).freeCtr = s.freeCtr := rfl
@[simp] theorem State.serial_advance (s : State) : (s.advance).serial = s.serial := rfl
@[simp] theorem State.mem_advance (s : State) : (s.advance).mem = s.mem := rfl
@[simp] theorem State.poison_advance (s : State) : (s.advance).poison = s.poison := rfl
@[simp] theorem State.debts_advance (s : State) : (s.advance).debts = s.debts := rfl
@[simp] theorem State.ext_advance (s : State) : (s.advance).ext = s.ext := rfl
@[simp] theorem State.pairs_advance (s : State) : (s.advance).pairs = s.pairs := rfl
@[simp] theorem State.clusters_advance (s : State) : (s.advance).clusters = s.clusters := rfl
@[simp] theorem State.diesT_advance (s : State) : (s.advance).diesT = s.diesT := rfl
@[simp] theorem State.insts_advance (s : State) : (s.advance).insts = s.insts := rfl
@[simp] theorem State.images_advance (s : State) : (s.advance).images = s.images := rfl
@[simp] theorem State.faults_advance (s : State) : (s.advance).faults = s.faults := rfl
@[simp] theorem State.flight_advance (s : State) : (s.advance).flight = s.flight := rfl
@[simp] theorem State.away_advance (s : State) : (s.advance).away = s.away := rfl
@[simp] theorem State.orphans_advance (s : State) : (s.advance).orphans = s.orphans := rfl
@[simp] theorem State.mailFlight_advance (s : State) : (s.advance).mailFlight = s.mailFlight := rfl
@[simp] theorem State.records_advance (s : State) : (s.advance).records = s.records := rfl
@[simp] theorem State.hub_advance (s : State) : (s.advance).hub = s.hub := rfl

@[simp] theorem Core.started_putThread (k : Core) (sl : Nat) (t : Thread) : (k.putThread sl t).started = k.started := rfl
@[simp] theorem Core.cyc_putThread (k : Core) (sl : Nat) (t : Thread) : (k.putThread sl t).cyc = k.cyc := rfl
@[simp] theorem Core.boundaryDone_putThread (k : Core) (sl : Nat) (t : Thread) : (k.putThread sl t).boundaryDone = k.boundaryDone := rfl
@[simp] theorem Core.bankrole_putThread (k : Core) (sl : Nat) (t : Thread) : (k.putThread sl t).bankrole = k.bankrole := rfl
@[simp] theorem Core.sram_putThread (k : Core) (sl : Nat) (t : Thread) : (k.putThread sl t).sram = k.sram := rfl
@[simp] theorem Core.badRows_putThread (k : Core) (sl : Nat) (t : Thread) : (k.putThread sl t).badRows = k.badRows := rfl
@[simp] theorem Core.unspecified_putThread (k : Core) (sl : Nat) (t : Thread) : (k.putThread sl t).unspecified = k.unspecified := rfl
@[simp] theorem Core.cache_putThread (k : Core) (sl : Nat) (t : Thread) : (k.putThread sl t).cache = k.cache := rfl
@[simp] theorem Core.uses_putThread (k : Core) (sl : Nat) (t : Thread) : (k.putThread sl t).uses = k.uses := rfl
@[simp] theorem Core.writeThrough_putThread (k : Core) (sl : Nat) (t : Thread) : (k.putThread sl t).writeThrough = k.writeThrough := rfl
@[simp] theorem Core.noFill_putThread (k : Core) (sl : Nat) (t : Thread) : (k.putThread sl t).noFill = k.noFill := rfl
@[simp] theorem Core.tlb_putThread (k : Core) (sl : Nat) (t : Thread) : (k.putThread sl t).tlb = k.tlb := rfl
@[simp] theorem Core.sigw_putThread (k : Core) (sl : Nat) (t : Thread) : (k.putThread sl t).sigw = k.sigw := rfl
@[simp] theorem Core.sighCur_putThread (k : Core) (sl : Nat) (t : Thread) : (k.putThread sl t).sighCur = k.sighCur := rfl
@[simp] theorem Core.sighPrev_putThread (k : Core) (sl : Nat) (t : Thread) : (k.putThread sl t).sighPrev = k.sighPrev := rfl
@[simp] theorem Core.sigSect_putThread (k : Core) (sl : Nat) (t : Thread) : (k.putThread sl t).sigSect = k.sigSect := rfl
@[simp] theorem Core.sigFull_putThread (k : Core) (sl : Nat) (t : Thread) : (k.putThread sl t).sigFull = k.sigFull := rfl
@[simp] theorem Core.common_putThread (k : Core) (sl : Nat) (t : Thread) : (k.putThread sl t).common = k.common := rfl
@[simp] theorem Core.commonWrites_putThread (k : Core) (sl : Nat) (t : Thread) : (k.putThread sl t).commonWrites = k.commonWrites := rfl
@[simp] theorem Core.seeds_putThread (k : Core) (sl : Nat) (t : Thread) : (k.putThread sl t).seeds = k.seeds := rfl
@[simp] theorem Core.seedWrites_putThread (k : Core) (sl : Nat) (t : Thread) : (k.putThread sl t).seedWrites = k.seedWrites := rfl
@[simp] theorem Core.fmt_putThread (k : Core) (sl : Nat) (t : Thread) : (k.putThread sl t).fmt = k.fmt := rfl
@[simp] theorem Core.fmtWrites_putThread (k : Core) (sl : Nat) (t : Thread) : (k.putThread sl t).fmtWrites = k.fmtWrites := rfl
@[simp] theorem Core.mailbox_putThread (k : Core) (sl : Nat) (t : Thread) : (k.putThread sl t).mailbox = k.mailbox := rfl
@[simp] theorem Core.requests_putThread (k : Core) (sl : Nat) (t : Thread) : (k.putThread sl t).requests = k.requests := rfl
@[simp] theorem Core.backing_putThread (k : Core) (sl : Nat) (t : Thread) : (k.putThread sl t).backing = k.backing := rfl
@[simp] theorem Core.nextRequest_putThread (k : Core) (sl : Nat) (t : Thread) : (k.putThread sl t).nextRequest = k.nextRequest := rfl
@[simp] theorem Core.barriers_putThread (k : Core) (sl : Nat) (t : Thread) : (k.putThread sl t).barriers = k.barriers := rfl
@[simp] theorem Core.ports_putThread (k : Core) (sl : Nat) (t : Thread) : (k.putThread sl t).ports = k.ports := rfl
@[simp] theorem Core.sends_putThread (k : Core) (sl : Nat) (t : Thread) : (k.putThread sl t).sends = k.sends := rfl
@[simp] theorem Core.lnk_putThread (k : Core) (sl : Nat) (t : Thread) : (k.putThread sl t).lnk = k.lnk := rfl
@[simp] theorem Core.linkJobs_putThread (k : Core) (sl : Nat) (t : Thread) : (k.putThread sl t).linkJobs = k.linkJobs := rfl
@[simp] theorem Core.linkWork_putThread (k : Core) (sl : Nat) (t : Thread) : (k.putThread sl t).linkWork = k.linkWork := rfl
@[simp] theorem Core.results_putThread (k : Core) (sl : Nat) (t : Thread) : (k.putThread sl t).results = k.results := rfl
@[simp] theorem Core.migIn_putThread (k : Core) (sl : Nat) (t : Thread) : (k.putThread sl t).migIn = k.migIn := rfl
@[simp] theorem Core.replies_putThread (k : Core) (sl : Nat) (t : Thread) : (k.putThread sl t).replies = k.replies := rfl
@[simp] theorem Core.eccCount_putThread (k : Core) (sl : Nat) (t : Thread) : (k.putThread sl t).eccCount = k.eccCount := rfl
@[simp] theorem Core.tvecd_putThread (k : Core) (sl : Nat) (t : Thread) : (k.putThread sl t).tvecd = k.tvecd := rfl
@[simp] theorem Core.drained_putThread (k : Core) (sl : Nat) (t : Thread) : (k.putThread sl t).drained = k.drained := rfl
@[simp] theorem Core.frozenSwap_putThread (k : Core) (sl : Nat) (t : Thread) : (k.putThread sl t).frozenSwap = k.frozenSwap := rfl
@[simp] theorem Core.busy_putThread (k : Core) (sl : Nat) (t : Thread) : (k.putThread sl t).busy = k.busy := rfl
@[simp] theorem Core.deferred_putThread (k : Core) (sl : Nat) (t : Thread) : (k.putThread sl t).deferred = k.deferred := rfl
@[simp] theorem Core.arriving_putThread (k : Core) (sl : Nat) (t : Thread) : (k.putThread sl t).arriving = k.arriving := rfl

/-! Threads. -/

@[simp] theorem Thread.st_setReg (t : Thread) (n : Nat) (v : Word) (b : Bool) : (t.setReg n v b).st = t.st := by
  unfold Thread.setReg; split <;> rfl
@[simp] theorem Thread.id_setReg (t : Thread) (n : Nat) (v : Word) (b : Bool) : (t.setReg n v b).id = t.id := by
  unfold Thread.setReg; split <;> rfl
@[simp] theorem Thread.light_setReg (t : Thread) (n : Nat) (v : Word) (b : Bool) : (t.setReg n v b).light = t.light := by
  unfold Thread.setReg; split <;> rfl
@[simp] theorem Thread.inst_setReg (t : Thread) (n : Nat) (v : Word) (b : Bool) : (t.setReg n v b).inst = t.inst := by
  unfold Thread.setReg; split <;> rfl
@[simp] theorem Thread.alloc_setReg (t : Thread) (n : Nat) (v : Word) (b : Bool) : (t.setReg n v b).alloc = t.alloc := by
  unfold Thread.setReg; split <;> rfl
@[simp] theorem Thread.block_setReg (t : Thread) (n : Nat) (v : Word) (b : Bool) : (t.setReg n v b).block = t.block := by
  unfold Thread.setReg; split <;> rfl
@[simp] theorem Thread.pw_setReg (t : Thread) (n : Nat) (v : Word) (b : Bool) : (t.setReg n v b).pw = t.pw := by
  unfold Thread.setReg; split <;> rfl
@[simp] theorem Thread.pc_setReg (t : Thread) (n : Nat) (v : Word) (b : Bool) : (t.setReg n v b).pc = t.pc := by
  unfold Thread.setReg; split <;> rfl
@[simp] theorem Thread.mode_setReg (t : Thread) (n : Nat) (v : Word) (b : Bool) : (t.setReg n v b).mode = t.mode := by
  unfold Thread.setReg; split <;> rfl
@[simp] theorem Thread.frm_setReg (t : Thread) (n : Nat) (v : Word) (b : Bool) : (t.setReg n v b).frm = t.frm := by
  unfold Thread.setReg; split <;> rfl
@[simp] theorem Thread.fflags_setReg (t : Thread) (n : Nat) (v : Word) (b : Bool) : (t.setReg n v b).fflags = t.fflags := by
  unfold Thread.setReg; split <;> rfl
@[simp] theorem Thread.rrlo_setReg (t : Thread) (n : Nat) (v : Word) (b : Bool) : (t.setReg n v b).rrlo = t.rrlo := by
  unfold Thread.setReg; split <;> rfl
@[simp] theorem Thread.rrsz_setReg (t : Thread) (n : Nat) (v : Word) (b : Bool) : (t.setReg n v b).rrsz = t.rrsz := by
  unfold Thread.setReg; split <;> rfl
@[simp] theorem Thread.rrb_setReg (t : Thread) (n : Nat) (v : Word) (b : Bool) : (t.setReg n v b).rrb = t.rrb := by
  unfold Thread.setReg; split <;> rfl
@[simp] theorem Thread.latc_setReg (t : Thread) (n : Nat) (v : Word) (b : Bool) : (t.setReg n v b).latc = t.latc := by
  unfold Thread.setReg; split <;> rfl
@[simp] theorem Thread.vxf_setReg (t : Thread) (n : Nat) (v : Word) (b : Bool) : (t.setReg n v b).vxf = t.vxf := by
  unfold Thread.setReg; split <;> rfl
@[simp] theorem Thread.trapen_setReg (t : Thread) (n : Nat) (v : Word) (b : Bool) : (t.setReg n v b).trapen = t.trapen := by
  unfold Thread.setReg; split <;> rfl
@[simp] theorem Thread.vsrc_setReg (t : Thread) (n : Nat) (v : Word) (b : Bool) : (t.setReg n v b).vsrc = t.vsrc := by
  unfold Thread.setReg; split <;> rfl
@[simp] theorem Thread.fmtp_setReg (t : Thread) (n : Nat) (v : Word) (b : Bool) : (t.setReg n v b).fmtp = t.fmtp := by
  unfold Thread.setReg; split <;> rfl
@[simp] theorem Thread.sclp_setReg (t : Thread) (n : Nat) (v : Word) (b : Bool) : (t.setReg n v b).sclp = t.sclp := by
  unfold Thread.setReg; split <;> rfl
@[simp] theorem Thread.tvec_setReg (t : Thread) (n : Nat) (v : Word) (b : Bool) : (t.setReg n v b).tvec = t.tvec := by
  unfold Thread.setReg; split <;> rfl
@[simp] theorem Thread.tepc_setReg (t : Thread) (n : Nat) (v : Word) (b : Bool) : (t.setReg n v b).tepc = t.tepc := by
  unfold Thread.setReg; split <;> rfl
@[simp] theorem Thread.tval_setReg (t : Thread) (n : Nat) (v : Word) (b : Bool) : (t.setReg n v b).tval = t.tval := by
  unfold Thread.setReg; split <;> rfl
@[simp] theorem Thread.tcause_setReg (t : Thread) (n : Nat) (v : Word) (b : Bool) : (t.setReg n v b).tcause = t.tcause := by
  unfold Thread.setReg; split <;> rfl
@[simp] theorem Thread.fspace_setReg (t : Thread) (n : Nat) (v : Word) (b : Bool) : (t.setReg n v b).fspace = t.fspace := by
  unfold Thread.setReg; split <;> rfl
@[simp] theorem Thread.pm_setReg (t : Thread) (n : Nat) (v : Word) (b : Bool) : (t.setReg n v b).pm = t.pm := by
  unfold Thread.setReg; split <;> rfl
@[simp] theorem Thread.inh_setReg (t : Thread) (n : Nat) (v : Word) (b : Bool) : (t.setReg n v b).inh = t.inh := by
  unfold Thread.setReg; split <;> rfl
@[simp] theorem Thread.tscr_setReg (t : Thread) (n : Nat) (v : Word) (b : Bool) : (t.setReg n v b).tscr = t.tscr := by
  unfold Thread.setReg; split <;> rfl
@[simp] theorem Thread.fetcher_setReg (t : Thread) (n : Nat) (v : Word) (b : Bool) : (t.setReg n v b).fetcher = t.fetcher := by
  unfold Thread.setReg; split <;> rfl
@[simp] theorem Thread.cur_setReg (t : Thread) (n : Nat) (v : Word) (b : Bool) : (t.setReg n v b).cur = t.cur := by
  unfold Thread.setReg; split <;> rfl
@[simp] theorem Thread.stop_setReg (t : Thread) (n : Nat) (v : Word) (b : Bool) : (t.setReg n v b).stop = t.stop := by
  unfold Thread.setReg; split <;> rfl
@[simp] theorem Thread.ext_setReg (t : Thread) (n : Nat) (v : Word) (b : Bool) : (t.setReg n v b).ext = t.ext := by
  unfold Thread.setReg; split <;> rfl
@[simp] theorem Thread.monitors_setReg (t : Thread) (n : Nat) (v : Word) (b : Bool) : (t.setReg n v b).monitors = t.monitors := by
  unfold Thread.setReg; split <;> rfl
@[simp] theorem Thread.freshP_setReg (t : Thread) (n : Nat) (v : Word) (b : Bool) : (t.setReg n v b).freshP = t.freshP := by
  unfold Thread.setReg; split <;> rfl
@[simp] theorem Thread.freshRR_setReg (t : Thread) (n : Nat) (v : Word) (b : Bool) : (t.setReg n v b).freshRR = t.freshRR := by
  unfold Thread.setReg; split <;> rfl
@[simp] theorem Thread.reds_setReg (t : Thread) (n : Nat) (v : Word) (b : Bool) : (t.setReg n v b).reds = t.reds := by
  unfold Thread.setReg; split <;> rfl
@[simp] theorem Thread.issued_setReg (t : Thread) (n : Nat) (v : Word) (b : Bool) : (t.setReg n v b).issued = t.issued := by
  unfold Thread.setReg; split <;> rfl
@[simp] theorem Thread.woke_setReg (t : Thread) (n : Nat) (v : Word) (b : Bool) : (t.setReg n v b).woke = t.woke := by
  unfold Thread.setReg; split <;> rfl
@[simp] theorem Thread.granted_setReg (t : Thread) (n : Nat) (v : Word) (b : Bool) : (t.setReg n v b).granted = t.granted := by
  unfold Thread.setReg; split <;> rfl
@[simp] theorem Thread.cause_setReg (t : Thread) (n : Nat) (v : Word) (b : Bool) : (t.setReg n v b).cause = t.cause := by
  unfold Thread.setReg; split <;> rfl
@[simp] theorem Thread.hold_setReg (t : Thread) (n : Nat) (v : Word) (b : Bool) : (t.setReg n v b).hold = t.hold := by
  unfold Thread.setReg; split <;> rfl
@[simp] theorem Thread.forfeits_setReg (t : Thread) (n : Nat) (v : Word) (b : Bool) : (t.setReg n v b).forfeits = t.forfeits := by
  unfold Thread.setReg; split <;> rfl
@[simp] theorem Thread.wants_setReg (t : Thread) (n : Nat) (v : Word) (b : Bool) : (t.setReg n v b).wants = t.wants := by
  unfold Thread.setReg; split <;> rfl
@[simp] theorem Thread.walked_setReg (t : Thread) (n : Nat) (v : Word) (b : Bool) : (t.setReg n v b).walked = t.walked := by
  unfold Thread.setReg; split <;> rfl
@[simp] theorem Thread.seen_setReg (t : Thread) (n : Nat) (v : Word) (b : Bool) : (t.setReg n v b).seen = t.seen := by
  unfold Thread.setReg; split <;> rfl
@[simp] theorem Thread.proxy_setReg (t : Thread) (n : Nat) (v : Word) (b : Bool) : (t.setReg n v b).proxy = t.proxy := by
  unfold Thread.setReg; split <;> rfl
@[simp] theorem Thread.device_setReg (t : Thread) (n : Nat) (v : Word) (b : Bool) : (t.setReg n v b).device = t.device := by
  unfold Thread.setReg; split <;> rfl
@[simp] theorem Thread.st_setPred (t : Thread) (p : BitVec 5) (b c : Bool) : (t.setPred p b c).st = t.st := by
  unfold Thread.setPred; split <;> rfl
@[simp] theorem Thread.id_setPred (t : Thread) (p : BitVec 5) (b c : Bool) : (t.setPred p b c).id = t.id := by
  unfold Thread.setPred; split <;> rfl
@[simp] theorem Thread.light_setPred (t : Thread) (p : BitVec 5) (b c : Bool) : (t.setPred p b c).light = t.light := by
  unfold Thread.setPred; split <;> rfl
@[simp] theorem Thread.inst_setPred (t : Thread) (p : BitVec 5) (b c : Bool) : (t.setPred p b c).inst = t.inst := by
  unfold Thread.setPred; split <;> rfl
@[simp] theorem Thread.alloc_setPred (t : Thread) (p : BitVec 5) (b c : Bool) : (t.setPred p b c).alloc = t.alloc := by
  unfold Thread.setPred; split <;> rfl
@[simp] theorem Thread.block_setPred (t : Thread) (p : BitVec 5) (b c : Bool) : (t.setPred p b c).block = t.block := by
  unfold Thread.setPred; split <;> rfl
@[simp] theorem Thread.regs_setPred (t : Thread) (p : BitVec 5) (b c : Bool) : (t.setPred p b c).regs = t.regs := by
  unfold Thread.setPred; split <;> rfl
@[simp] theorem Thread.pc_setPred (t : Thread) (p : BitVec 5) (b c : Bool) : (t.setPred p b c).pc = t.pc := by
  unfold Thread.setPred; split <;> rfl
@[simp] theorem Thread.mode_setPred (t : Thread) (p : BitVec 5) (b c : Bool) : (t.setPred p b c).mode = t.mode := by
  unfold Thread.setPred; split <;> rfl
@[simp] theorem Thread.frm_setPred (t : Thread) (p : BitVec 5) (b c : Bool) : (t.setPred p b c).frm = t.frm := by
  unfold Thread.setPred; split <;> rfl
@[simp] theorem Thread.fflags_setPred (t : Thread) (p : BitVec 5) (b c : Bool) : (t.setPred p b c).fflags = t.fflags := by
  unfold Thread.setPred; split <;> rfl
@[simp] theorem Thread.rrlo_setPred (t : Thread) (p : BitVec 5) (b c : Bool) : (t.setPred p b c).rrlo = t.rrlo := by
  unfold Thread.setPred; split <;> rfl
@[simp] theorem Thread.rrsz_setPred (t : Thread) (p : BitVec 5) (b c : Bool) : (t.setPred p b c).rrsz = t.rrsz := by
  unfold Thread.setPred; split <;> rfl
@[simp] theorem Thread.rrb_setPred (t : Thread) (p : BitVec 5) (b c : Bool) : (t.setPred p b c).rrb = t.rrb := by
  unfold Thread.setPred; split <;> rfl
@[simp] theorem Thread.latc_setPred (t : Thread) (p : BitVec 5) (b c : Bool) : (t.setPred p b c).latc = t.latc := by
  unfold Thread.setPred; split <;> rfl
@[simp] theorem Thread.vxf_setPred (t : Thread) (p : BitVec 5) (b c : Bool) : (t.setPred p b c).vxf = t.vxf := by
  unfold Thread.setPred; split <;> rfl
@[simp] theorem Thread.trapen_setPred (t : Thread) (p : BitVec 5) (b c : Bool) : (t.setPred p b c).trapen = t.trapen := by
  unfold Thread.setPred; split <;> rfl
@[simp] theorem Thread.vsrc_setPred (t : Thread) (p : BitVec 5) (b c : Bool) : (t.setPred p b c).vsrc = t.vsrc := by
  unfold Thread.setPred; split <;> rfl
@[simp] theorem Thread.fmtp_setPred (t : Thread) (p : BitVec 5) (b c : Bool) : (t.setPred p b c).fmtp = t.fmtp := by
  unfold Thread.setPred; split <;> rfl
@[simp] theorem Thread.sclp_setPred (t : Thread) (p : BitVec 5) (b c : Bool) : (t.setPred p b c).sclp = t.sclp := by
  unfold Thread.setPred; split <;> rfl
@[simp] theorem Thread.tvec_setPred (t : Thread) (p : BitVec 5) (b c : Bool) : (t.setPred p b c).tvec = t.tvec := by
  unfold Thread.setPred; split <;> rfl
@[simp] theorem Thread.tepc_setPred (t : Thread) (p : BitVec 5) (b c : Bool) : (t.setPred p b c).tepc = t.tepc := by
  unfold Thread.setPred; split <;> rfl
@[simp] theorem Thread.tval_setPred (t : Thread) (p : BitVec 5) (b c : Bool) : (t.setPred p b c).tval = t.tval := by
  unfold Thread.setPred; split <;> rfl
@[simp] theorem Thread.tcause_setPred (t : Thread) (p : BitVec 5) (b c : Bool) : (t.setPred p b c).tcause = t.tcause := by
  unfold Thread.setPred; split <;> rfl
@[simp] theorem Thread.fspace_setPred (t : Thread) (p : BitVec 5) (b c : Bool) : (t.setPred p b c).fspace = t.fspace := by
  unfold Thread.setPred; split <;> rfl
@[simp] theorem Thread.pm_setPred (t : Thread) (p : BitVec 5) (b c : Bool) : (t.setPred p b c).pm = t.pm := by
  unfold Thread.setPred; split <;> rfl
@[simp] theorem Thread.inh_setPred (t : Thread) (p : BitVec 5) (b c : Bool) : (t.setPred p b c).inh = t.inh := by
  unfold Thread.setPred; split <;> rfl
@[simp] theorem Thread.tscr_setPred (t : Thread) (p : BitVec 5) (b c : Bool) : (t.setPred p b c).tscr = t.tscr := by
  unfold Thread.setPred; split <;> rfl
@[simp] theorem Thread.fetcher_setPred (t : Thread) (p : BitVec 5) (b c : Bool) : (t.setPred p b c).fetcher = t.fetcher := by
  unfold Thread.setPred; split <;> rfl
@[simp] theorem Thread.cur_setPred (t : Thread) (p : BitVec 5) (b c : Bool) : (t.setPred p b c).cur = t.cur := by
  unfold Thread.setPred; split <;> rfl
@[simp] theorem Thread.stop_setPred (t : Thread) (p : BitVec 5) (b c : Bool) : (t.setPred p b c).stop = t.stop := by
  unfold Thread.setPred; split <;> rfl
@[simp] theorem Thread.ext_setPred (t : Thread) (p : BitVec 5) (b c : Bool) : (t.setPred p b c).ext = t.ext := by
  unfold Thread.setPred; split <;> rfl
@[simp] theorem Thread.monitors_setPred (t : Thread) (p : BitVec 5) (b c : Bool) : (t.setPred p b c).monitors = t.monitors := by
  unfold Thread.setPred; split <;> rfl
@[simp] theorem Thread.fresh_setPred (t : Thread) (p : BitVec 5) (b c : Bool) : (t.setPred p b c).fresh = t.fresh := by
  unfold Thread.setPred; split <;> rfl
@[simp] theorem Thread.freshRR_setPred (t : Thread) (p : BitVec 5) (b c : Bool) : (t.setPred p b c).freshRR = t.freshRR := by
  unfold Thread.setPred; split <;> rfl
@[simp] theorem Thread.reds_setPred (t : Thread) (p : BitVec 5) (b c : Bool) : (t.setPred p b c).reds = t.reds := by
  unfold Thread.setPred; split <;> rfl
@[simp] theorem Thread.issued_setPred (t : Thread) (p : BitVec 5) (b c : Bool) : (t.setPred p b c).issued = t.issued := by
  unfold Thread.setPred; split <;> rfl
@[simp] theorem Thread.woke_setPred (t : Thread) (p : BitVec 5) (b c : Bool) : (t.setPred p b c).woke = t.woke := by
  unfold Thread.setPred; split <;> rfl
@[simp] theorem Thread.granted_setPred (t : Thread) (p : BitVec 5) (b c : Bool) : (t.setPred p b c).granted = t.granted := by
  unfold Thread.setPred; split <;> rfl
@[simp] theorem Thread.cause_setPred (t : Thread) (p : BitVec 5) (b c : Bool) : (t.setPred p b c).cause = t.cause := by
  unfold Thread.setPred; split <;> rfl
@[simp] theorem Thread.hold_setPred (t : Thread) (p : BitVec 5) (b c : Bool) : (t.setPred p b c).hold = t.hold := by
  unfold Thread.setPred; split <;> rfl
@[simp] theorem Thread.forfeits_setPred (t : Thread) (p : BitVec 5) (b c : Bool) : (t.setPred p b c).forfeits = t.forfeits := by
  unfold Thread.setPred; split <;> rfl
@[simp] theorem Thread.wants_setPred (t : Thread) (p : BitVec 5) (b c : Bool) : (t.setPred p b c).wants = t.wants := by
  unfold Thread.setPred; split <;> rfl
@[simp] theorem Thread.walked_setPred (t : Thread) (p : BitVec 5) (b c : Bool) : (t.setPred p b c).walked = t.walked := by
  unfold Thread.setPred; split <;> rfl
@[simp] theorem Thread.seen_setPred (t : Thread) (p : BitVec 5) (b c : Bool) : (t.setPred p b c).seen = t.seen := by
  unfold Thread.setPred; split <;> rfl
@[simp] theorem Thread.proxy_setPred (t : Thread) (p : BitVec 5) (b c : Bool) : (t.setPred p b c).proxy = t.proxy := by
  unfold Thread.setPred; split <;> rfl
@[simp] theorem Thread.device_setPred (t : Thread) (p : BitVec 5) (b c : Bool) : (t.setPred p b c).device = t.device := by
  unfold Thread.setPred; split <;> rfl
@[simp] theorem Thread.st_over (t : Thread) : t.over.st = t.st := rfl
@[simp] theorem Thread.id_over (t : Thread) : t.over.id = t.id := rfl
@[simp] theorem Thread.light_over (t : Thread) : t.over.light = t.light := rfl
@[simp] theorem Thread.inst_over (t : Thread) : t.over.inst = t.inst := rfl
@[simp] theorem Thread.alloc_over (t : Thread) : t.over.alloc = t.alloc := rfl
@[simp] theorem Thread.block_over (t : Thread) : t.over.block = t.block := rfl
@[simp] theorem Thread.regs_over (t : Thread) : t.over.regs = t.regs := rfl
@[simp] theorem Thread.pw_over (t : Thread) : t.over.pw = t.pw := rfl
@[simp] theorem Thread.pc_over (t : Thread) : t.over.pc = t.pc := rfl
@[simp] theorem Thread.mode_over (t : Thread) : t.over.mode = t.mode := rfl
@[simp] theorem Thread.frm_over (t : Thread) : t.over.frm = t.frm := rfl
@[simp] theorem Thread.fflags_over (t : Thread) : t.over.fflags = t.fflags := rfl
@[simp] theorem Thread.rrlo_over (t : Thread) : t.over.rrlo = t.rrlo := rfl
@[simp] theorem Thread.rrsz_over (t : Thread) : t.over.rrsz = t.rrsz := rfl
@[simp] theorem Thread.rrb_over (t : Thread) : t.over.rrb = t.rrb := rfl
@[simp] theorem Thread.latc_over (t : Thread) : t.over.latc = t.latc := rfl
@[simp] theorem Thread.vxf_over (t : Thread) : t.over.vxf = t.vxf := rfl
@[simp] theorem Thread.trapen_over (t : Thread) : t.over.trapen = t.trapen := rfl
@[simp] theorem Thread.vsrc_over (t : Thread) : t.over.vsrc = t.vsrc := rfl
@[simp] theorem Thread.fmtp_over (t : Thread) : t.over.fmtp = t.fmtp := rfl
@[simp] theorem Thread.sclp_over (t : Thread) : t.over.sclp = t.sclp := rfl
@[simp] theorem Thread.tvec_over (t : Thread) : t.over.tvec = t.tvec := rfl
@[simp] theorem Thread.tepc_over (t : Thread) : t.over.tepc = t.tepc := rfl
@[simp] theorem Thread.tval_over (t : Thread) : t.over.tval = t.tval := rfl
@[simp] theorem Thread.tcause_over (t : Thread) : t.over.tcause = t.tcause := rfl
@[simp] theorem Thread.fspace_over (t : Thread) : t.over.fspace = t.fspace := rfl
@[simp] theorem Thread.pm_over (t : Thread) : t.over.pm = t.pm := rfl
@[simp] theorem Thread.inh_over (t : Thread) : t.over.inh = t.inh := rfl
@[simp] theorem Thread.tscr_over (t : Thread) : t.over.tscr = t.tscr := rfl
@[simp] theorem Thread.fetcher_over (t : Thread) : t.over.fetcher = t.fetcher := rfl
@[simp] theorem Thread.cur_over (t : Thread) : t.over.cur = t.cur := rfl
@[simp] theorem Thread.stop_over (t : Thread) : t.over.stop = t.stop := rfl
@[simp] theorem Thread.ext_over (t : Thread) : t.over.ext = t.ext := rfl
@[simp] theorem Thread.monitors_over (t : Thread) : t.over.monitors = t.monitors := rfl
@[simp] theorem Thread.fresh_over (t : Thread) : t.over.fresh = t.fresh := rfl
@[simp] theorem Thread.freshP_over (t : Thread) : t.over.freshP = t.freshP := rfl
@[simp] theorem Thread.freshRR_over (t : Thread) : t.over.freshRR = t.freshRR := rfl
@[simp] theorem Thread.reds_over (t : Thread) : t.over.reds = t.reds := rfl
@[simp] theorem Thread.issued_over (t : Thread) : t.over.issued = none := rfl
@[simp] theorem Thread.woke_over (t : Thread) : t.over.woke = none := rfl
@[simp] theorem Thread.granted_over (t : Thread) : t.over.granted = none := rfl
@[simp] theorem Thread.cause_over (t : Thread) : t.over.cause = t.cause := rfl
@[simp] theorem Thread.hold_over (t : Thread) : t.over.hold = t.hold := rfl
@[simp] theorem Thread.forfeits_over (t : Thread) : t.over.forfeits = 0 := rfl
@[simp] theorem Thread.wants_over (t : Thread) : t.over.wants = [] := rfl
@[simp] theorem Thread.walked_over (t : Thread) : t.over.walked = [] := rfl
@[simp] theorem Thread.seen_over (t : Thread) : t.over.seen = t.seen := rfl
@[simp] theorem Thread.proxy_over (t : Thread) : t.over.proxy = t.proxy := rfl
@[simp] theorem Thread.device_over (t : Thread) : t.over.device = t.device := rfl

@[simp] theorem Thread.reg_over (t : Thread) (n : Nat) : t.over.reg n = t.reg n := rfl
@[simp] theorem Thread.reg_zero (t : Thread) : t.reg 0 = 0 := rfl
theorem Thread.reg_setReg_self (t : Thread) {n : Nat} (v : Word) (b : Bool) (h : n ≠ 0) : (t.setReg n v b).reg n = v := by
  simp [Thread.reg, Thread.setReg, h]
theorem Thread.reg_setReg_other (t : Thread) {n m : Nat} (v : Word) (b : Bool) (h : m ≠ n) : (t.setReg n v b).reg m = t.reg m := by
  unfold Thread.reg Thread.setReg
  split
  · rfl
  · split
    · rfl
    · exact tabGet_tabPut_other _ _ _ h
@[simp] theorem Thread.setReg_zero (t : Thread) (v : Word) (b : Bool) : t.setReg 0 v b = t := rfl

end Sys2Proof.Machine
end

