-- ==== Sys2Proof/Laws/Operands.lean ====
section
/-! SUPPORT. What reading and writing operands comes to, for fields that name registers of the thread. -/

namespace Sys2Proof.Machine

open Safety

theorem named_nil (t : Thread) : named t [] := by
  intro r h
  cases h

theorem named_cons {t : Thread} {r : BitVec 7} {l : List (BitVec 7)} :
    named t (r :: l) ↔ (isPort r = false ∧ t.rename r.toNat < t.bound) ∧ named t l := by
  simp [named]

/-! Limits (spec/01 R14, spec/18 R365). -/

theorem limitNumbers_ok {l : List Nat} {s : State} (k : State → Res) (h : ∀ n ∈ l, s.cur.rename n < s.cur.bound) :
    limitNumbers l k s = k s := by
  have : (l.map s.cur.rename).filter (fun n => s.cur.bound ≤ n) = [] := by
    rw [List.filter_eq_nil_iff]
    intro n hn
    obtain ⟨m, hm, rfl⟩ := List.mem_map.1 hn
    simpa using h m hm
  simp [limitNumbers, this, lowest]

theorem firstPort_named {t : Thread} {l : List (BitVec 7)} (h : named t l) : firstPort l = none := by
  have : l.filter isPort = [] := by
    rw [List.filter_eq_nil_iff]
    intro r hr
    simp [(h r hr).1]
  simp [firstPort, this, lowest]

/-- Fields within the allocation pass the register checks. -/
theorem limit_ok {l : List (BitVec 7)} {s : State} (k : State → Res) (h : named s.cur l) : limit l k s = k s := by
  unfold limit
  rw [limitNumbers_ok]
  · rw [firstPort_named h]
  · intro n hn
    obtain ⟨r, hr, rfl⟩ := List.mem_map.1 hn
    exact (h r (List.mem_filter.1 hr).1).2

/-! Operands (spec/01 R20, spec/04 R83). -/

theorem readSrc_ok {r : BitVec 7} (k : Opnd → State → Res) (s : State) (h : isPort r = false) : readSrc r k s = k (s.cur.opnd r) s := by
  simp [readSrc, h]

theorem writeDst_ok {r : BitVec 7} (v : Word) (fresh : Bool) (k : State → Res) (s : State) (h : isPort r = false) :
    writeDst r v fresh k s = k (s.setRd r v fresh) := by
  simp [writeDst, h]

/-! The shapes of register instructions. -/

theorem unary_ok (f : Word → Word) {a d : BitVec 7} {s : State} (h : named s.cur [a, d]) :
    unary f a d s = .next (s.setRd d (f (s.cur.opnd a).val) (s.cur.opnd a).fresh).advance := by
  have ha := (h a (by simp)).1
  have hd := (h d (by simp)).1
  rw [unary, limit_ok _ h, readSrc_ok _ _ ha, writeDst_ok _ _ _ _ hd, done]

theorem binary_ok (f : Word → Word → Word) {b a d : BitVec 7} {s : State} (h : named s.cur [a, b, d]) :
    binary f b a d s = .next (s.setRd d (f (s.cur.opnd a).val (s.cur.opnd b).val) ((s.cur.opnd a).fresh || (s.cur.opnd b).fresh)).advance := by
  have ha := (h a (by simp)).1
  have hb := (h b (by simp)).1
  have hd := (h d (by simp)).1
  rw [binary, limit_ok _ h, readSrc_ok _ _ ha, readSrc_ok _ _ hb, writeDst_ok _ _ _ _ hd, done]

theorem ternary_ok (f : Word → Word → Word → Word) {b a d : BitVec 7} {s : State} (h : named s.cur [a, b, d]) :
    ternary f b a d s = .next (s.setRd d (f (s.cur.opnd a).val (s.cur.opnd b).val (s.cur.opnd d).val)
      ((s.cur.opnd a).fresh || (s.cur.opnd b).fresh || (s.cur.opnd d).fresh)).advance := by
  have ha := (h a (by simp)).1
  have hb := (h b (by simp)).1
  rw [ternary, limit_ok _ h, readSrc_ok _ _ ha, readSrc_ok _ _ hb, done]

theorem compare_ok (f : Word → Word → Bool) {b a : BitVec 7} (p : BitVec 5) {s : State} (h : named s.cur [a, b]) :
    compare f b a p s = .next (s.updCur fun t => t.setPred p (f (s.cur.opnd a).val (s.cur.opnd b).val)
      ((s.cur.opnd a).fresh || (s.cur.opnd b).fresh)).advance := by
  have ha := (h a (by simp)).1
  have hb := (h b (by simp)).1
  rw [compare, limit_ok _ h, readSrc_ok _ _ ha, readSrc_ok _ _ hb]
  rfl

/-! What a completed register instruction leaves. -/

theorem State.cur_advance (s : State) :
    s.advance.cur =
      { s.cur with pc := s.cur.pc + 4, issued := none, woke := none, granted := none, forfeits := 0, wants := [], walked := [] } :=
  State.cur_updCur ..

theorem State.cur_setRd (s : State) (r : BitVec 7) (v : Word) (fresh : Bool) :
    (s.setRd r v fresh).cur = s.cur.setReg (s.cur.rename r.toNat) v (fresh || (s.cur.active && s.cur.freshRR != 0)) :=
  State.cur_updCur ..

theorem State.thread_advance_other (s : State) {c sl : Nat} (h : ¬(c = s.ic ∧ sl = s.is)) : s.advance.thread c sl = s.thread c sl :=
  State.thread_updCur_other _ _ h

theorem State.thread_setRd_other (s : State) (r : BitVec 7) (v : Word) (fresh : Bool) {c sl : Nat} (h : ¬(c = s.ic ∧ sl = s.is)) :
    (s.setRd r v fresh).thread c sl = s.thread c sl :=
  State.thread_updCur_other _ _ h

end Sys2Proof.Machine
end

