-- ==== Sys2Proof/Laws/Access.lean ====
section
/-! SUPPORT. What the checks of an access come to when it meets no fault, and what loads and stores then do. -/

namespace Sys2Proof.Machine

open Safety

theorem doneLatc_eq (s : State) : doneLatc s = .next (completed s) := rfl

/-- An aligned access that translates goes on with its target. -/
theorem access_ok {need : Need} {size : Nat} {va : VAddr} {t : Target} {s : State} (k : Target → State → Res)
    (h : va.off.toNat % size = 0) (hx : s.xlate s.ic s.is need va = .ok t) (hu : s.unreachable t = false) :
    access need size va k s = k t s := by
  simp [access, h, hx, hu]

/-- A misaligned access traps before it translates. -/
theorem access_misaligned {need : Need} {size : Nat} {va : VAddr} {s : State} (k : Target → State → Res)
    (h : va.off.toNat % size ≠ 0) : access need size va k s = trapAt 2 va s := by
  simp [access, h]

/-- A heavy thread's access stays, and a light thread's at its home. -/
theorem atHome_ok {t : Target} {s : State} (k : State → Res) (h : s.cur.light = true → t.homeCore = some s.ic) : atHome t k s = k s := by
  unfold atHome
  by_cases hl : s.cur.light = true
  · have hh := h hl
    rw [if_neg (by simp [hl])]
    cases hp : t.place <;> simp_all [Target.homeCore]
  · simp [hl]

theorem portReady_ok {r : BitVec 7} {s : State} (k : State → Res) (h : isPort r = false) : portReady r k s = k s := by
  simp [portReady, h]

/-- A load that may be performed now. -/
theorem loadNow_ok {t : Target} {size : Nat} {sgn : Bool} {rd : BitVec 7} {light bypass fr acquire : Bool} {s : State}
    (h : isPort rd = false) (hp : (s.readFor s.ic s.is bypass t size).2.1 = none) :
    loadNow t size sgn rd light bypass fr acquire s =
      .next (completed ((if acquire && !light then (s.readFor s.ic s.is bypass t size).2.2.applySig s.ic ((s.readFor s.ic s.is bypass t size).2.2.sigAcquire t)
        else (s.readFor s.ic s.is bypass t size).2.2).setRd rd (extend size sgn (s.readFor s.ic s.is bypass t size).1) fr)) := by
  rw [loadNow, portReady_ok _ h]
  simp only [hp, writeDst_ok _ _ _ _ h, doneLatc_eq]

/-- A load that meets poison traps and writes nothing. -/
theorem loadNow_poison {t : Target} {size i : Nat} {sgn : Bool} {rd : BitVec 7} {light bypass fr acquire : Bool} {s : State}
    (h : isPort rd = false) (hp : (s.readFor s.ic s.is bypass t size).2.1 = some i) :
    loadNow t size sgn rd light bypass fr acquire s = trapAt 12 (VAddr.plus t.va i) s := by
  rw [loadNow, portReady_ok _ h]
  simp only [hp]

theorem granted_ok {banks : List Nat} {s : State} (k : State → Res) (h : banksGrant s banks = true) : granted banks k s = k s := by
  rw [banksGrant, Bool.not_eq_true'] at h
  rw [granted, if_neg (by rw [h]; decide)]

theorem granted_refused {banks : List Nat} {s : State} (k : State → Res) (h : banksGrant s banks = false) :
    granted banks k s = .next (forfeited s banks) := by
  rw [banksGrant, Bool.not_eq_false'] at h
  rw [granted, if_pos h]
  rfl

/-- A fixed-latency load that a bank refuses forfeits its issue. -/
theorem load_forfeits {size : Nat} {sgn bypass : Bool} {rd : BitVec 7} {va : VAddr} {t : Target} {s : State}
    (h : reaches s { r := true } size va t) (hr : s.cur.redOverlap t.place size = false) (hf : s.fixed bypass false t size = true)
    (hg : banksGrant s (s.bankOf t) = false) : load size sgn rd va bypass s = .next (forfeited s (s.bankOf t)) := by
  obtain ⟨ha, hx, hu, hl⟩ := h
  rw [load, access_ok _ ha hx hu]
  simp [atHome_ok _ hl, hr, hf, granted_refused _ hg]

/-- A fixed-latency load that its banks grant completes at once. -/
theorem load_fixed {size : Nat} {sgn bypass : Bool} {rd : BitVec 7} {va : VAddr} {t : Target} {s : State}
    (h : reaches s { r := true } size va t) (hr : s.cur.redOverlap t.place size = false) (hf : s.fixed bypass false t size = true)
    (hg : banksGrant s (s.bankOf t) = true) : load size sgn rd va bypass s = loadNow t size sgn rd s.cur.light bypass false false s := by
  obtain ⟨ha, hx, hu, hl⟩ := h
  rw [load, access_ok _ ha hx hu]
  simp [atHome_ok _ hl, hr, hf, granted_ok _ hg]

/-- Any other load parks until its home replies. -/
theorem load_parks {size : Nat} {sgn bypass : Bool} {rd : BitVec 7} {va : VAddr} {t : Target} {s : State}
    (h : reaches s { r := true } size va t) (hn : (!s.cur.redOverlap t.place size && s.fixed bypass false t size) = false) :
    load size sgn rd va bypass s = parkAccess (.load t size sgn rd.toNat (bypass || s.cur.redOverlap t.place size) false) s := by
  obtain ⟨ha, hx, hu, hl⟩ := h
  rw [load, access_ok _ ha hx hu]
  simp only [atHome_ok _ hl, hn, Bool.false_eq_true, if_false]

/-- A fixed-latency store that its banks grant completes at once. -/
theorem store_fixed {size : Nat} {bypass : Bool} {data : BitVec 7} {va : VAddr} {t : Target} {s : State} (hd : isPort data = false)
    (h : reaches s { w := true } size va t) (hr : s.cur.redOverlap t.place size = false) (hf : s.fixed bypass true t size = true)
    (hg : banksGrant s (s.bankOf t) = true) :
    store size data va bypass s = .next (completed (s.writeFor s.ic s.is bypass t (leBytes (X s data).toNat size))) := by
  obtain ⟨ha, hx, hu, hl⟩ := h
  rw [store, access_ok _ ha hx hu]
  simp [atHome_ok _ hl, readSrc_ok _ _ hd, hr, hf, granted_ok _ hg, doneLatc_eq, X]

/-- A fixed-latency store that a bank refuses forfeits its issue. -/
theorem store_forfeits {size : Nat} {bypass : Bool} {data : BitVec 7} {va : VAddr} {t : Target} {s : State}
    (h : reaches s { w := true } size va t) (hr : s.cur.redOverlap t.place size = false) (hf : s.fixed bypass true t size = true)
    (hg : banksGrant s (s.bankOf t) = false) : store size data va bypass s = .next (forfeited s (s.bankOf t)) := by
  obtain ⟨ha, hx, hu, hl⟩ := h
  rw [store, access_ok _ ha hx hu]
  simp [atHome_ok _ hl, hr, hf, granted_refused _ hg]

/-- Any other store parks until it is performed. -/
theorem store_parks {size : Nat} {bypass : Bool} {data : BitVec 7} {va : VAddr} {t : Target} {s : State} (hd : isPort data = false)
    (h : reaches s { w := true } size va t) (hn : (!s.cur.redOverlap t.place size && s.fixed bypass true t size) = false) :
    store size data va bypass s = parkAccess (.store t size (X s data) (bypass || s.cur.redOverlap t.place size) none) s := by
  obtain ⟨ha, hx, hu, hl⟩ := h
  rw [store, access_ok _ ha hx hu]
  simp only [atHome_ok _ hl, readSrc_ok _ _ hd, hn, Bool.false_eq_true, if_false, X]

/-! Vector instructions. -/

theorem vectorGate_ok {w : InstrWord} {regs : List (BitVec 7)} {groups : List (BitVec 3)} {implicit : List Nat} {s : State}
    (k : State → Res) (h : vectorReady s regs groups implicit) : vectorGate w regs groups implicit k s = k s := by
  obtain ⟨hf, hr, hg, hi⟩ := h
  have h1 : (regs.map fun r => s.cur.rename r.toNat).filter (fun n => s.cur.bound ≤ n) = [] := by
    rw [List.filter_eq_nil_iff]
    intro n hn
    obtain ⟨r, hr', rfl⟩ := List.mem_map.1 hn
    simpa using hr r hr'
  have h2 : groupLimits s.cur.bound (groups.map (·.toNat)) implicit = [] := by
    have a : (groups.map (·.toNat)).filter (fun k => decide (s.cur.bound < 16 * k + 16)) = [] := by
      rw [List.filter_eq_nil_iff]
      intro n hn
      obtain ⟨r, hr', rfl⟩ := List.mem_map.1 hn
      simpa using hg r hr'
    have b : implicit.filter (fun n => decide (s.cur.bound ≤ n)) = [] := by
      rw [List.filter_eq_nil_iff]
      intro n hn
      simpa using hi n hn
    simp [groupLimits, a, b]
  unfold vectorGate
  rw [if_neg (by simp [hf])]
  simp only [h1, h2, List.append_nil, lowest]

/-- Lanes that all translate go on with their targets. -/
theorem accessAll_ok {need : Need} {s : State} : ∀ {vas : List VAddr} {ts : List Target} (k : List Target → State → Res),
    List.Forall₂ (fun va t => s.xlate s.ic s.is need va = .ok t ∧ s.unreachable t = false) vas ts → accessAll need 1 vas k s = k ts s
  | [], _, k, h => by cases h; rfl
  | va :: r, _, k, h => by
    cases h with
    | cons h1 h2 =>
      rw [accessAll, access_ok _ (Nat.mod_one _) h1.1 h1.2]
      exact accessAll_ok (fun ts s => k (_ :: ts) s) h2

end Sys2Proof.Machine
end

