-- ==== Sys2Proof/Laws/Lanes.lean ====
section
/-! SUPPORT. Lanes of register groups (spec/05 R107): what writing lanes leaves, and the lane by lane results of an instruction. -/

namespace Sys2Proof.Machine

open Safety

theorem pow_lane (w i : Nat) : 2 ^ (w * (i + 1)) = 2 ^ w * 2 ^ (w * i) := by
  rw [← Nat.pow_add]
  congr 1
  rw [Nat.mul_add]
  omega

theorem div_lane (v w i : Nat) : v / 2 ^ (w * (i + 1)) = v / 2 ^ w / 2 ^ (w * i) := by
  rw [pow_lane, Nat.div_div_eq_div_mul]

theorem length_unpackLanes (w : Nat) : ∀ n v, (unpackLanes w v n).length = n
  | 0, _ => rfl
  | n + 1, v => by simp [unpackLanes, length_unpackLanes w n]

theorem getD_unpackLanes (w : Nat) : ∀ n v i, i < n → (unpackLanes w v n).getD i 0 = v / 2 ^ (w * i) % 2 ^ w
  | 0, _, _, h => absurd h (Nat.not_lt_zero _)
  | n + 1, v, 0, _ => by simp [unpackLanes]
  | n + 1, v, i + 1, h => by
    rw [unpackLanes, List.getD_cons_succ, getD_unpackLanes w n _ i (by omega), div_lane]

theorem packLanes_div (w : Nat) : ∀ l i, packLanes w l / 2 ^ (w * i) % 2 ^ w = l.getD i 0 % 2 ^ w
  | [], i => by simp [packLanes]
  | a :: r, 0 => by simp [packLanes]
  | a :: r, i + 1 => by
    have h : (a % 2 ^ w + 2 ^ w * packLanes w r) / 2 ^ w = packLanes w r := by
      rw [Nat.add_mul_div_left _ _ (Nat.two_pow_pos w), Nat.div_eq_of_lt (Nat.mod_lt _ (Nat.two_pow_pos w)), Nat.zero_add]
    rw [packLanes, div_lane, h, packLanes_div w r i, List.getD_cons_succ]

theorem packLanes_groupRegs : ∀ n v, packLanes 64 ((groupRegs v n).map BitVec.toNat) = v % 2 ^ (64 * n)
  | 0, v => by simp [groupRegs, packLanes, Nat.mod_one]
  | n + 1, v => by
    rw [groupRegs, List.map_cons, packLanes, packLanes_groupRegs n, BitVec.toNat_ofNat, Nat.mod_mod, pow_lane]
    exact (Nat.mod_mul ..).symm

theorem length_groupRegs : ∀ n v, (groupRegs v n).length = n
  | 0, _ => rfl
  | n + 1, v => by simp [groupRegs, length_groupRegs n]

/-- A register outside those written keeps its value. -/
theorem Thread.reg_putRegs_other (f : Bool) : ∀ (l : List Word) (t : Thread) (n m : Nat), m < n ∨ n + l.length ≤ m → (t.putRegs n f l).reg m = t.reg m
  | [], _, _, _, _ => rfl
  | v :: r, t, n, m, h => by
    rw [Thread.putRegs, Thread.reg_putRegs_other f r _ (n + 1) m (by simp only [List.length_cons] at h; omega)]
    exact Thread.reg_setReg_other _ _ _ (by simp only [List.length_cons] at h; omega)

/-- The registers written hold their values. -/
theorem Thread.regs_putRegs (f : Bool) : ∀ (l : List Word) (t : Thread) (n : Nat), n ≠ 0 →
    (span n l.length).map (t.putRegs n f l).reg = l
  | [], _, _, _ => rfl
  | v :: r, t, n, h => by
    rw [List.length_cons, span, List.map_cons, Thread.putRegs]
    congr 1
    · rw [Thread.reg_putRegs_other f r _ (n + 1) n (by omega)]
      exact Thread.reg_setReg_self _ _ _ h
    · exact Thread.regs_putRegs f r _ (n + 1) (by omega)

theorem Thread.group_setGroup (t : Thread) {k : Nat} (v : Nat) (f : Bool) (h : k ≠ 0) : (t.setGroup k v f).group k = v % 2 ^ (64 * 16) := by
  have hr := Thread.regs_putRegs f (groupRegs v 16) t (16 * k) (by omega)
  rw [length_groupRegs] at hr
  have hm : ((span (16 * k) 16).map fun n => ((t.setGroup k v f).reg n).toNat) = (groupRegs v 16).map BitVec.toNat := by
    rw [← hr, List.map_map]
    rfl
  rw [Thread.group, hm]
  exact packLanes_groupRegs 16 v

theorem Thread.reg_setGroup_other (t : Thread) (k v : Nat) (f : Bool) {n : Nat} (h : n / 16 ≠ k) : (t.setGroup k v f).reg n = t.reg n := by
  apply Thread.reg_putRegs_other
  rw [length_groupRegs]
  omega

/-- Writing registers changes nothing but registers and their fresh marks. -/
theorem Thread.putRegs_eq (f : Bool) : ∀ (l : List Word) (t : Thread) (n : Nat), ∃ r m, t.putRegs n f l = { t with regs := r, fresh := m }
  | [], t, _ => ⟨t.regs, t.fresh, rfl⟩
  | v :: r, t, n => by
    obtain ⟨a, b, h⟩ : ∃ a b, t.setReg n v f = { t with regs := a, fresh := b } := by
      unfold Thread.setReg
      split
      · exact ⟨t.regs, t.fresh, rfl⟩
      · exact ⟨_, _, rfl⟩
    obtain ⟨c, d, h2⟩ := Thread.putRegs_eq f r (t.setReg n v f) (n + 1)
    refine ⟨c, d, ?_⟩
    rw [Thread.putRegs, h2, h]

theorem Thread.setGroup_eq (t : Thread) (k v : Nat) (f : Bool) : ∃ r m, t.setGroup k v f = { t with regs := r, fresh := m } :=
  Thread.putRegs_eq ..

theorem mod_div_mod (v : Nat) {w i n : Nat} (h : w * i + w ≤ n) : v % 2 ^ n / 2 ^ (w * i) % 2 ^ w = v / 2 ^ (w * i) % 2 ^ w := by
  obtain ⟨m, rfl⟩ : ∃ m, n = w * i + (w + m) := ⟨n - (w * i + w), by omega⟩
  rw [Nat.pow_add, Nat.mod_mul_right_div_self, Nat.pow_add, Nat.mod_mul_right_mod]

/-- The lanes written hold the low bits of their values. -/
theorem lane_setGroup (t : Thread) {k w i : Nat} (l : List Nat) (f : Bool) (h : k ≠ 0) (hi : w * i + w ≤ 64 * 16) :
    lane (t.setGroup k (packLanes w l) f) w k i = l.getD i 0 % 2 ^ w := by
  rw [lane, Thread.group_setGroup _ _ _ h, mod_div_mod _ hi, packLanes_div]

theorem getD_lanes (t : Thread) {w k i : Nat} (h : i < 1024 / w) : (t.lanes w k).getD i 0 = lane t w k i :=
  getD_unpackLanes _ _ _ _ h

theorem length_lanes (t : Thread) (w k : Nat) : (t.lanes w k).length = 1024 / w := length_unpackLanes ..

/-! Results of enabled lanes over old lanes. -/

theorem merge_cons (mask i : Nat) (r : LaneRes) (rs : List LaneRes) (o : Nat) (os : List Nat) :
    merge mask i (r :: rs) (o :: os) =
      if mask.testBit i then (r.1 :: (merge mask (i + 1) rs os).1, Flags.or r.2 (merge mask (i + 1) rs os).2)
      else (o :: (merge mask (i + 1) rs os).1, (merge mask (i + 1) rs os).2) := rfl

theorem merge_getD (mask : Nat) : ∀ (rs : List LaneRes) (os : List Nat) (i j : Nat), rs.length ≤ os.length →
    (merge mask i rs os).1.getD j 0 = if j < rs.length ∧ mask.testBit (i + j) = true then (rs.getD j (0, {})).1 else os.getD j 0
  | [], os, i, j, _ => by simp [merge]
  | r :: rs, [], i, j, h => absurd h (by simp)
  | r :: rs, o :: os, i, 0, _ => by
    rw [merge_cons]
    simp only [List.length_cons, Nat.zero_lt_succ, true_and, Nat.add_zero, List.getD_cons_zero]
    split <;> rfl
  | r :: rs, o :: os, i, j + 1, h => by
    have ih := merge_getD mask rs os (i + 1) j (by simpa using h)
    rw [show i + 1 + j = i + (j + 1) by omega] at ih
    rw [merge_cons]
    simp only [List.length_cons, Nat.add_lt_add_iff_right, List.getD_cons_succ]
    split <;> simpa using ih

theorem vxf_or (a b : Flags) : Flags.vxf (Flags.or a b) false = Flags.vxf a false ||| Flags.vxf b false := by
  obtain ⟨a1, a2, a3, a4, a5, a6⟩ := a
  obtain ⟨b1, b2, b3, b4, b5, b6⟩ := b
  revert a1 a2 a3 a4 a5 a6 b1 b2 b3 b4 b5 b6
  decide

/-- A flag is reported by a merge exactly when an enabled lane reports it. -/
theorem merge_flags (mask b : Nat) : ∀ (rs : List LaneRes) (os : List Nat) (i : Nat), rs.length ≤ os.length →
    ((Flags.vxf (merge mask i rs os).2 false).getLsbD b = true ↔
      ∃ j < rs.length, mask.testBit (i + j) = true ∧ (Flags.vxf (rs.getD j (0, {})).2 false).getLsbD b = true)
  | [], os, i, _ => by
    have : (Flags.vxf ({} : Flags) false) = 0 := by decide
    simp [merge, this]
  | r :: rs, [], i, h => absurd h (by simp)
  | r :: rs, o :: os, i, h => by
    have ih := merge_flags mask b rs os (i + 1) (by simpa using h)
    have shift : (∃ j < (r :: rs).length, mask.testBit (i + j) = true ∧ (Flags.vxf ((r :: rs).getD j (0, {})).2 false).getLsbD b = true) ↔
        (mask.testBit i = true ∧ (Flags.vxf r.2 false).getLsbD b = true) ∨
        ∃ j < rs.length, mask.testBit (i + 1 + j) = true ∧ (Flags.vxf (rs.getD j (0, {})).2 false).getLsbD b = true := by
      constructor
      · rintro ⟨j, hj, h1, h2⟩
        cases j with
        | zero => exact .inl ⟨h1, h2⟩
        | succ j => exact .inr ⟨j, by simpa using hj, by rwa [show i + 1 + j = i + (j + 1) by omega], h2⟩
      · rintro (⟨h1, h2⟩ | ⟨j, hj, h1, h2⟩)
        · exact ⟨0, by simp, h1, h2⟩
        · exact ⟨j + 1, by simpa using hj, by rwa [show i + (j + 1) = i + 1 + j by omega], h2⟩
    rw [shift, ← ih]
    rw [merge_cons]
    split
    · rename_i hm
      rw [vxf_or, BitVec.getLsbD_or]
      simp [hm]
    · rename_i hm
      simp [hm]

theorem length_zip3 (f : Nat → Nat → Nat → LaneRes) : ∀ (as bs cs : List Nat), as.length = cs.length → bs.length = cs.length →
    (zip3 f as bs cs).length = cs.length
  | [], _, [], _, _ => by simp [zip3]
  | a :: as, b :: bs, c :: cs, h1, h2 => by
    simp [zip3, length_zip3 f as bs cs (by simpa using h1) (by simpa using h2)]
  | [], _, c :: cs, h1, _ => absurd h1 (by simp)
  | a :: as, _, [], h1, _ => absurd h1 (by simp)
  | a :: as, [], c :: cs, _, h2 => absurd h2 (by simp)

theorem getD_zip3 (f : Nat → Nat → Nat → LaneRes) : ∀ (as bs cs : List Nat) (j : Nat), as.length = cs.length → bs.length = cs.length →
    j < cs.length → (zip3 f as bs cs).getD j (0, {}) = f (as.getD j 0) (bs.getD j 0) (cs.getD j 0)
  | _, _, [], j, _, _, h => absurd h (by simp)
  | a :: as, b :: bs, c :: cs, 0, _, _, _ => rfl
  | a :: as, b :: bs, c :: cs, j + 1, h1, h2, h => by
    simp only [zip3, List.getD_cons_succ]
    exact getD_zip3 f as bs cs j (by simpa using h1) (by simpa using h2) (by simpa using h)
  | [], _, c :: cs, _, h1, _, _ => absurd h1 (by simp)
  | a :: as, [], c :: cs, _, _, h2, _ => absurd h2 (by simp)

/-! A group and the vector flags are written. -/

/-- Registers and lanes are read from the registers alone. -/
theorem Thread.reg_congr {t u : Thread} (h : t.regs = u.regs) (n : Nat) : t.reg n = u.reg n := by
  unfold Thread.reg
  rw [h]

theorem lane_congr {t u : Thread} (h : t.regs = u.regs) (w k i : Nat) : lane t w k i = lane u w k i := by
  unfold lane Thread.group Thread.reg
  rw [h]

theorem setLanes_eq (s : State) (k w : Nat) (l : List Nat) (fr : Bool) :
    s.setLanes k w l fr = s.updCur fun t =>
      { t with regs := (s.cur.setGroup k (packLanes w l) fr).regs, fresh := (s.cur.setGroup k (packLanes w l) fr).fresh } := by
  apply State.updCur_congr
  obtain ⟨r, q, h⟩ := Thread.setGroup_eq s.cur k (packLanes w l) fr
  simp only [h]

theorem lanes_written (s : State) {k w : Nat} (l : List Nat) (fr : Bool) (hk : k ≠ 0) (hw : w * (1024 / w) = 1024) {t : Thread}
    (ht : t.regs = (s.cur.setGroup k (packLanes w l) fr).regs) :
    (∀ j < 1024 / w, lane t w k j = l.getD j 0 % 2 ^ w) ∧ ∀ n, n / 16 ≠ k → t.reg n = s.cur.reg n := by
  constructor
  · intro j hj
    have hji : w * j + w ≤ 64 * 16 := by
      calc w * j + w = w * (j + 1) := by rw [Nat.mul_add]; omega
        _ ≤ w * (1024 / w) := Nat.mul_le_mul_left w hj
        _ = 64 * 16 := hw
    exact (lane_congr ht ..).trans (lane_setGroup s.cur l fr hk hji)
  · intro n hn
    exact (Thread.reg_congr ht _).trans (Thread.reg_setGroup_other s.cur k _ fr hn)

/-- Going on at the next word changes no register. -/
theorem State.advance_regs (s : State) : s.advance.cur.regs = s.cur.regs := by
  rw [State.cur_advance]

/-- A group is written with the lanes of a list. -/
theorem setLanes_result (s : State) {k w : Nat} (l : List Nat) (fr : Bool) (hk : k ≠ 0) (hw : w * (1024 / w) = 1024) :
    vectorResult s (s.setLanes k w l fr).advance w k (fun j => l.getD j 0) (fun _ => False) := by
  have h := lanes_written s l fr hk hw (t := (s.setLanes k w l fr).advance.cur) (by rw [State.advance_regs, setLanes_eq, State.cur_updCur])
  refine ⟨h.1, ?_, h.2, ?_⟩
  · intro b
    rw [setLanes_eq, State.cur_advance, State.cur_updCur]
    simp
  · rw [setLanes_eq, State.cur_advance, State.cur_updCur]
    generalize s.cur.setGroup k (packLanes w l) fr = g
    exact congrArg State.advance (State.updCur_congr _ rfl)

/-- The same with flags. -/
theorem setLanes_flags_result (s : State) {k w : Nat} (l : List Nat) (fr : Bool) (fl : Flags) (tb : Bool) (hk : k ≠ 0) (hw : w * (1024 / w) = 1024) :
    vectorResult s ((s.setLanes k w l fr).addVxf fl tb).advance w k (fun j => l.getD j 0) (fun b => (Flags.vxf fl tb).getLsbD b = true) := by
  have he : (s.setLanes k w l fr).addVxf fl tb = s.updCur fun t =>
      { t with
        regs := (s.cur.setGroup k (packLanes w l) fr).regs
        fresh := (s.cur.setGroup k (packLanes w l) fr).fresh
        vxf := t.vxf ||| Flags.vxf fl tb } := by
    rw [setLanes_eq]
    generalize s.cur.setGroup k (packLanes w l) fr = g
    exact State.updCur_updCur ..
  have h := lanes_written s l fr hk hw (t := ((s.setLanes k w l fr).addVxf fl tb).advance.cur) (by rw [State.advance_regs, he, State.cur_updCur])
  refine ⟨h.1, ?_, h.2, ?_⟩
  · intro b
    rw [he, State.cur_advance, State.cur_updCur]
    simp
  · rw [he, State.cur_advance, State.cur_updCur]
    generalize s.cur.setGroup k (packLanes w l) fr = g
    exact congrArg State.advance (State.updCur_congr _ rfl)

/-- Results are merged into a group under a mask. -/
theorem merged_result (s : State) {k w : Nat} (m : Bool) (rs : List LaneRes) (fr : Bool) (hk : k ≠ 0) (hw : w * (1024 / w) = 1024)
    (hl : rs.length ≤ 1024 / w) :
    vectorResult s ((s.setLanes k w (merge (s.cur.enabled m) 0 rs (s.cur.lanes w k)).1 fr).addVxf
        (merge (s.cur.enabled m) 0 rs (s.cur.lanes w k)).2 false).advance w k
      (fun j => if j < rs.length ∧ enables s.cur m j = true then (rs.getD j (0, {})).1 else lane s.cur w k j)
      (fun b => ∃ j < rs.length, enables s.cur m j = true ∧ (Flags.vxf (rs.getD j (0, {})).2 false).getLsbD b = true) := by
  have hlen : rs.length ≤ (s.cur.lanes w k).length := by rw [length_lanes]; exact hl
  obtain ⟨h1, h2, h3, h4⟩ := setLanes_flags_result s (merge (s.cur.enabled m) 0 rs (s.cur.lanes w k)).1 fr
    (merge (s.cur.enabled m) 0 rs (s.cur.lanes w k)).2 false hk hw
  refine ⟨?_, ?_, h3, h4⟩
  · intro j hj
    rw [h1 j hj]
    simp only
    rw [merge_getD _ _ _ _ _ hlen, getD_lanes _ hj, Nat.zero_add]
    rfl
  · intro b
    rw [h2 b]
    simp only
    rw [merge_flags _ _ _ _ _ hlen]
    simp only [Nat.zero_add, enables]

theorem putLanes_result (s : State) {k w : Nat} (m : Bool) (rs : List LaneRes) (sources : List Nat) (hk : k ≠ 0) (hw : w * (1024 / w) = 1024)
    (hl : rs.length ≤ 1024 / w) :
    vectorResult s (s.putLanes k w m rs sources false).advance w k
      (fun j => if j < rs.length ∧ enables s.cur m j = true then (rs.getD j (0, {})).1 else lane s.cur w k j)
      (fun b => ∃ j < rs.length, enables s.cur m j = true ∧ (Flags.vxf (rs.getD j (0, {})).2 false).getLsbD b = true) :=
  merged_result s m rs _ hk hw hl

theorem laneWidth_lanes (t : Nat) : laneWidth t * (1024 / laneWidth t) = 1024 := by
  unfold laneWidth
  split <;> rfl

theorem getD_broadcastFirst (l : List Nat) (j : Nat) (h : j < l.length) : (broadcastFirst l).getD j 0 = l.getD 0 0 := by
  cases l with
  | nil => simp at h
  | cons a r =>
    unfold broadcastFirst
    rw [List.getD_eq_getElem?_getD, List.getElem?_map, List.getElem?_eq_getElem h]
    rfl

/-- A lanewise instruction. -/
theorem lanewise_result {w : InstrWord} {width : Nat} {g h k : BitVec 3} {bc m : Bool} (f : Nat → Nat → Nat → LaneRes) {s : State}
    (hv : vectorReady s [] [k, h, g] (maskRegs m)) (hk : k ≠ 0) (hw : width * (1024 / width) = 1024) (hp : 0 < 1024 / width) :
    ∃ u, lanewise w width g h k bc m f s = .next u ∧
      vectorResult s u width k.toNat
        (fun j => if j < 1024 / width ∧ enables s.cur m j = true then
          (f (lane s.cur width h.toNat j) (lane s.cur width g.toNat (if bc then 0 else j)) (lane s.cur width k.toNat j)).1
          else lane s.cur width k.toNat j)
        (fun b => ∃ j < 1024 / width, enables s.cur m j = true ∧
          (Flags.vxf (f (lane s.cur width h.toNat j) (lane s.cur width g.toNat (if bc then 0 else j)) (lane s.cur width k.toNat j)).2 false).getLsbD b = true) := by
  have hkn : k.toNat ≠ 0 := by
    intro c
    apply hk
    apply BitVec.eq_of_toNat_eq
    simpa using c
  let bs := if bc then broadcastFirst (s.cur.lanes width g.toNat) else s.cur.lanes width g.toNat
  have hbl : bs.length = 1024 / width := by
    unfold bs broadcastFirst
    split
    · rw [List.length_map, length_lanes]
    · exact length_lanes ..
  have hb : ∀ j < 1024 / width, bs.getD j 0 = lane s.cur width g.toNat (if bc then 0 else j) := by
    intro j hj
    unfold bs broadcastFirst
    split
    · rw [← getD_lanes _ hp]
      exact getD_broadcastFirst _ _ (by rw [length_lanes]; exact hj)
    · exact getD_lanes _ hj
  have hr := fun fr => merged_result s m (zip3 f (s.cur.lanes width h.toNat) bs (s.cur.lanes width k.toNat)) fr hkn hw
    (by rw [length_zip3 _ _ _ _ (by rw [length_lanes, length_lanes]) (by rw [hbl, length_lanes]), length_lanes])
  rw [lanewise, vectorGate_ok _ hv]
  refine ⟨_, rfl, ?_⟩
  obtain ⟨h1, h2, h3, h4⟩ := hr (s.cur.vecFresh [g.toNat, h.toNat, k.toNat] m)
  have hz : (zip3 f (s.cur.lanes width h.toNat) bs (s.cur.lanes width k.toNat)).length = 1024 / width := by
    rw [length_zip3 _ _ _ _ (by rw [length_lanes, length_lanes]) (by rw [hbl, length_lanes]), length_lanes]
  have hg : ∀ j < 1024 / width, (zip3 f (s.cur.lanes width h.toNat) bs (s.cur.lanes width k.toNat)).getD j (0, {}) =
      f (lane s.cur width h.toNat j) (lane s.cur width g.toNat (if bc then 0 else j)) (lane s.cur width k.toNat j) := by
    intro j hj
    rw [getD_zip3 _ _ _ _ _ (by rw [length_lanes, length_lanes]) (by rw [hbl, length_lanes]) (by rw [length_lanes]; exact hj),
      getD_lanes _ hj, getD_lanes _ hj, hb j hj]
  refine ⟨?_, ?_, h3, h4⟩
  · intro j hj
    rw [h1 j hj]
    simp only
    rw [hz, hg j hj]
  · intro b
    rw [h2 b]
    simp only
    rw [hz]
    constructor
    · rintro (hx | ⟨j, hj, ha, hb'⟩)
      · exact .inl hx
      · rw [hg j hj] at hb'
        exact .inr ⟨j, hj, ha, hb'⟩
    · rintro (hx | ⟨j, hj, ha, hb'⟩)
      · exact .inl hx
      · rw [← hg j hj] at hb'
        exact .inr ⟨j, hj, ha, hb'⟩

end Sys2Proof.Machine
end

