-- ==== Sys2Proof/Laws/Memory.lean ====
section
/-! SUPPORT. Memory: what reading gives after writing, and that every operation keeps the canonical form (DESIGN CHOICE, log 7). -/

namespace Sys2Proof.Machine

/-! Reading after writing. -/

theorem memGet_memErase_self (m : Memory) (k : Nat) : memGet (memErase m k) k = 0 := by
  induction m with
  | nil => rfl
  | cons e r ih =>
    obtain ⟨j, v⟩ := e
    by_cases h : j = k <;> simp [memErase, memGet, h, ih]

theorem memGet_memErase_other (m : Memory) {k l : Nat} (h : l ≠ k) : memGet (memErase m k) l = memGet m l := by
  induction m with
  | nil => rfl
  | cons e r ih =>
    obtain ⟨j, v⟩ := e
    by_cases hj : j = k
    · subst hj
      simp [memErase, memGet, ih, Ne.symm h]
    · simp [memErase, memGet, hj, ih]

theorem memGet_memInsert_self (m : Memory) (k : Nat) (b : Byte) : memGet (memInsert m k b) k = b := by
  induction m with
  | nil => simp [memInsert, memGet]
  | cons e r ih =>
    obtain ⟨j, v⟩ := e
    unfold memInsert
    split
    · simp [memGet]
    · split
      · simp [memGet]
      · rename_i h
        simp [memGet, h, ih]

theorem memGet_memInsert_other (m : Memory) {k l : Nat} (b : Byte) (h : l ≠ k) : memGet (memInsert m k b) l = memGet m l := by
  induction m with
  | nil => simp [memInsert, memGet, Ne.symm h]
  | cons e r ih =>
    obtain ⟨j, v⟩ := e
    unfold memInsert
    split
    · simp [memGet, Ne.symm h]
    · split
      · rename_i hj
        subst hj
        simp [memGet, Ne.symm h]
      · simp only [memGet, ih]

@[simp] theorem memGet_memSet_self (m : Memory) (k : Nat) (b : Byte) : memGet (memSet m k b) k = b := by
  unfold memSet
  split
  · rename_i h
    rw [memGet_memErase_self, h]
  · exact memGet_memInsert_self m k b

theorem memGet_memSet_other (m : Memory) {k l : Nat} (b : Byte) (h : l ≠ k) : memGet (memSet m k b) l = memGet m l := by
  unfold memSet
  split
  · exact memGet_memErase_other m h
  · exact memGet_memInsert_other m b h

/-- Writing leaves every byte outside the written ones alone. -/
theorem memGet_memWrite_other (m : Memory) (k : Nat) (b : List Byte) {l : Nat} (h : l < k ∨ k + b.length ≤ l) :
    memGet (memWrite m k b) l = memGet m l := by
  induction b generalizing m k with
  | nil => rfl
  | cons x r ih =>
    simp only [List.length_cons] at h
    rw [memWrite, ih _ _ (by omega), memGet_memSet_other _ _ (by omega)]

/-- Reading back what was written. -/
theorem memRead_memWrite_self (m : Memory) (k : Nat) (b : List Byte) : memRead (memWrite m k b) k b.length = b := by
  induction b generalizing m k with
  | nil => rfl
  | cons x r ih =>
    rw [memWrite, List.length_cons, memRead, memGet_memWrite_other _ _ _ (by omega), memGet_memSet_self, ih]

theorem memRead_memWrite_other (m : Memory) (k : Nat) (b : List Byte) (a n : Nat) (h : a + n ≤ k ∨ k + b.length ≤ a) :
    memRead (memWrite m k b) a n = memRead m a n := by
  induction n generalizing a with
  | zero => rfl
  | succ n ih => rw [memRead, memRead, memGet_memWrite_other _ _ _ (by omega), ih _ (by omega)]

@[simp] theorem memRead_length (m : Memory) (a n : Nat) : (memRead m a n).length = n := by
  induction n generalizing a with
  | zero => rfl
  | succ n ih => simp [memRead, ih]

/-! The canonical form. -/

/-- A canonical memory all of whose addresses lie beyond k. -/
theorem Memory.wf_cons {k : Nat} {v : Byte} {m : Memory} :
    Memory.wf ((k, v) :: m) = true ↔ v ≠ 0 ∧ (∀ e ∈ m, k < e.1) ∧ Memory.wf m = true := by
  induction m generalizing k v with
  | nil => simp [Memory.wf]
  | cons e r ih =>
    obtain ⟨j, w⟩ := e
    simp only [Memory.wf, Bool.and_eq_true, bne_iff_ne, decide_eq_true_eq, List.mem_cons, forall_eq_or_imp]
    constructor
    · rintro ⟨⟨hv, hk⟩, hw⟩
      refine ⟨hv, ⟨hk, fun e he => ?_⟩, hw⟩
      exact lt_trans hk ((ih.1 hw).2.1 e he)
    · rintro ⟨hv, ⟨hk, -⟩, hw⟩
      exact ⟨⟨hv, hk⟩, hw⟩

theorem memErase_mem {m : Memory} {k : Nat} {e : Nat × Byte} (h : e ∈ memErase m k) : e ∈ m := by
  induction m with
  | nil => exact h
  | cons x r ih =>
    obtain ⟨j, v⟩ := x
    unfold memErase at h
    split at h
    · exact List.mem_cons_of_mem _ (ih h)
    · rcases List.mem_cons.1 h with h | h
      · exact h ▸ List.mem_cons_self
      · exact List.mem_cons_of_mem _ (ih h)

theorem memInsert_mem {m : Memory} {k : Nat} {b : Byte} {e : Nat × Byte} (h : e ∈ memInsert m k b) : e = (k, b) ∨ e ∈ m := by
  induction m with
  | nil => exact .inl (List.mem_singleton.1 h)
  | cons x r ih =>
    obtain ⟨j, v⟩ := x
    unfold memInsert at h
    split at h
    · exact List.mem_cons.1 h
    · split at h
      · rcases List.mem_cons.1 h with h | h
        · exact .inl h
        · exact .inr (List.mem_cons_of_mem _ h)
      · rcases List.mem_cons.1 h with h | h
        · exact .inr (h ▸ List.mem_cons_self)
        · exact (ih h).imp id (List.mem_cons_of_mem _)

theorem memErase_wf {m : Memory} (k : Nat) (h : Memory.wf m = true) : Memory.wf (memErase m k) = true := by
  induction m with
  | nil => rfl
  | cons x r ih =>
    obtain ⟨j, v⟩ := x
    obtain ⟨hv, hl, hr⟩ := Memory.wf_cons.1 h
    unfold memErase
    split
    · exact ih hr
    · exact Memory.wf_cons.2 ⟨hv, fun e he => hl e (memErase_mem he), ih hr⟩

theorem memInsert_wf {m : Memory} (k : Nat) {b : Byte} (hb : b ≠ 0) (h : Memory.wf m = true) : Memory.wf (memInsert m k b) = true := by
  induction m with
  | nil => simpa [memInsert, Memory.wf] using hb
  | cons x r ih =>
    obtain ⟨j, v⟩ := x
    obtain ⟨hv, hl, hr⟩ := Memory.wf_cons.1 h
    unfold memInsert
    split
    · rename_i hk
      refine Memory.wf_cons.2 ⟨hb, fun e he => ?_, h⟩
      rcases List.mem_cons.1 he with he | he
      · exact he ▸ hk
      · exact lt_trans hk (hl e he)
    · split
      · rename_i hj
        subst hj
        exact Memory.wf_cons.2 ⟨hb, hl, hr⟩
      · refine Memory.wf_cons.2 ⟨hv, fun e he => ?_, ih hr⟩
        rcases memInsert_mem he with he | he
        · rw [he]
          show j < k
          omega
        · exact hl e he

theorem memSet_wf {m : Memory} (k : Nat) (b : Byte) (h : Memory.wf m = true) : Memory.wf (memSet m k b) = true := by
  unfold memSet
  split
  · exact memErase_wf k h
  · rename_i hb
    exact memInsert_wf k hb h

theorem memWrite_wf {m : Memory} (k : Nat) (b : List Byte) (h : Memory.wf m = true) : Memory.wf (memWrite m k b) = true := by
  induction b generalizing m k with
  | nil => exact h
  | cons x r ih => exact ih _ (memSet_wf _ _ h)

/-- A bank that leaves a core takes its bytes with it. -/
theorem memFilter_wf {m : Memory} (p : Nat × Byte → Bool) (h : Memory.wf m = true) : Memory.wf (m.filter p) = true := by
  induction m with
  | nil => rfl
  | cons x r ih =>
    obtain ⟨j, v⟩ := x
    obtain ⟨hv, hl, hr⟩ := Memory.wf_cons.1 h
    rw [List.filter_cons]
    split
    · exact Memory.wf_cons.2 ⟨hv, fun e he => hl e (List.mem_filter.1 he).1, ih hr⟩
    · exact ih hr

/-- Equal memories are equal lists: a canonical memory is determined by its bytes. -/
theorem Memory.wf_ext {m n : Memory} (hm : Memory.wf m = true) (hn : Memory.wf n = true) (h : ∀ k, memGet m k = memGet n k) : m = n := by
  have low : ∀ {m : Memory} {k : Nat}, (∀ e ∈ m, k < e.1) → memGet m k = 0 := by
    intro m k hl
    induction m with
    | nil => rfl
    | cons x r ih =>
      obtain ⟨j, v⟩ := x
      have := hl (j, v) List.mem_cons_self
      simp only [memGet]
      rw [if_neg (by simp at this; omega)]
      exact ih fun e he => hl e (List.mem_cons_of_mem _ he)
  induction m generalizing n with
  | nil =>
    cases n with
    | nil => rfl
    | cons y s =>
      obtain ⟨j, w⟩ := y
      obtain ⟨hw, -, -⟩ := Memory.wf_cons.1 hn
      have := h j
      simp [memGet] at this
      exact absurd this.symm hw
  | cons x r ih =>
    obtain ⟨i, v⟩ := x
    obtain ⟨hv, hl, hr⟩ := Memory.wf_cons.1 hm
    cases n with
    | nil =>
      have := h i
      simp [memGet] at this
      exact absurd this hv
    | cons y s =>
      obtain ⟨j, w⟩ := y
      obtain ⟨hw, hs, hn'⟩ := Memory.wf_cons.1 hn
      have hij : i = j := by
        rcases Nat.lt_trichotomy i j with c | c | c
        · have := h i
          rw [show memGet ((j, w) :: s) i = memGet s i by simp [memGet, Nat.ne_of_gt c],
            low (fun e he => lt_trans c (hs e he))] at this
          simp [memGet] at this
          exact absurd this hv
        · exact c
        · have := h j
          rw [show memGet ((i, v) :: r) j = memGet r j by simp [memGet, Nat.ne_of_gt c],
            low (fun e he => lt_trans c (hl e he))] at this
          simp [memGet] at this
          exact absurd this.symm hw
      subst hij
      have hvw : v = w := by simpa [memGet] using h i
      subst hvw
      congr 1
      refine ih hr hn' fun k => ?_
      by_cases hk : i = k
      · subst hk
        rw [low hl, low hs]
      · simpa [memGet, hk] using h k

/-- The device before power-good has every memory in canonical form. -/
theorem reset_memoriesWf : Safety.memoriesWf State.reset = true := rfl

end Sys2Proof.Machine
end

