-- ==== Sys2Proof/Laws/Words.lean ====
section
/-! SUPPORT. Fields of words: each accessor of spec/02 R32 undoes the format that puts its field. -/

namespace Sys2Proof

/-! Bits of a concatenation. -/

theorem extract_append_high {n m : Nat} (a : BitVec n) (b : BitVec m) (k l : Nat) (h : m ≤ k) :
    (a ++ b).extractLsb' k l = a.extractLsb' (k - m) l := by
  ext i hi
  simp only [BitVec.getElem_extractLsb', BitVec.getLsbD_append]
  rw [if_neg (by omega)]
  congr 1
  omega

theorem extract_append_low {n m : Nat} (a : BitVec n) (b : BitVec m) (k l : Nat) (h : k + l ≤ m) :
    (a ++ b).extractLsb' k l = b.extractLsb' k l := by
  ext i hi
  simp only [BitVec.getElem_extractLsb', BitVec.getLsbD_append]
  rw [if_pos (by omega)]

theorem extract_all {n : Nat} (a : BitVec n) : a.extractLsb' 0 n = a := by
  ext i hi
  simp

/-! The fields of each format. -/

theorem opOf_wordR (f4 : BitVec 4) (b : BitVec 7) (a : BitVec 7) (d : BitVec 7) (o : BitVec 7) : opOf (wordR f4 b a d o) = o := by
  unfold opOf wordR
  simp (disch := omega) only [extract_append_high, extract_append_low, Nat.reduceSub, extract_all]

theorem rdOf_wordR (f4 : BitVec 4) (b : BitVec 7) (a : BitVec 7) (d : BitVec 7) (o : BitVec 7) : rdOf (wordR f4 b a d o) = d := by
  unfold rdOf wordR
  simp (disch := omega) only [extract_append_high, extract_append_low, Nat.reduceSub, extract_all]

theorem rs1Of_wordR (f4 : BitVec 4) (b : BitVec 7) (a : BitVec 7) (d : BitVec 7) (o : BitVec 7) : rs1Of (wordR f4 b a d o) = a := by
  unfold rs1Of wordR
  simp (disch := omega) only [extract_append_high, extract_append_low, Nat.reduceSub, extract_all]

theorem rs2Of_wordR (f4 : BitVec 4) (b : BitVec 7) (a : BitVec 7) (d : BitVec 7) (o : BitVec 7) : rs2Of (wordR f4 b a d o) = b := by
  unfold rs2Of wordR
  simp (disch := omega) only [extract_append_high, extract_append_low, Nat.reduceSub, extract_all]

theorem f4Of_wordR (f4 : BitVec 4) (b : BitVec 7) (a : BitVec 7) (d : BitVec 7) (o : BitVec 7) : f4Of (wordR f4 b a d o) = f4 := by
  unfold f4Of wordR
  simp (disch := omega) only [extract_append_high, extract_append_low, Nat.reduceSub, extract_all]

theorem opOf_wordI (f : BitVec 3) (i : BitVec 8) (a : BitVec 7) (d : BitVec 7) (o : BitVec 7) : opOf (wordI f i a d o) = o := by
  unfold opOf wordI
  simp (disch := omega) only [extract_append_high, extract_append_low, Nat.reduceSub, extract_all]

theorem rdOf_wordI (f : BitVec 3) (i : BitVec 8) (a : BitVec 7) (d : BitVec 7) (o : BitVec 7) : rdOf (wordI f i a d o) = d := by
  unfold rdOf wordI
  simp (disch := omega) only [extract_append_high, extract_append_low, Nat.reduceSub, extract_all]

theorem rs1Of_wordI (f : BitVec 3) (i : BitVec 8) (a : BitVec 7) (d : BitVec 7) (o : BitVec 7) : rs1Of (wordI f i a d o) = a := by
  unfold rs1Of wordI
  simp (disch := omega) only [extract_append_high, extract_append_low, Nat.reduceSub, extract_all]

theorem immOf_wordI (f : BitVec 3) (i : BitVec 8) (a : BitVec 7) (d : BitVec 7) (o : BitVec 7) : immOf (wordI f i a d o) = i := by
  unfold immOf wordI
  simp (disch := omega) only [extract_append_high, extract_append_low, Nat.reduceSub, extract_all]

theorem f3iOf_wordI (f : BitVec 3) (i : BitVec 8) (a : BitVec 7) (d : BitVec 7) (o : BitVec 7) : f3iOf (wordI f i a d o) = f := by
  unfold f3iOf wordI
  simp (disch := omega) only [extract_append_high, extract_append_low, Nat.reduceSub, extract_all]

theorem opOf_wordS (i : BitVec 4) (b : BitVec 7) (a : BitVec 7) (j : BitVec 4) (f : BitVec 3) (o : BitVec 7) : opOf (wordS i b a j f o) = o := by
  unfold opOf wordS
  simp (disch := omega) only [extract_append_high, extract_append_low, Nat.reduceSub, extract_all]

theorem f3sOf_wordS (i : BitVec 4) (b : BitVec 7) (a : BitVec 7) (j : BitVec 4) (f : BitVec 3) (o : BitVec 7) : f3sOf (wordS i b a j f o) = f := by
  unfold f3sOf wordS
  simp (disch := omega) only [extract_append_high, extract_append_low, Nat.reduceSub, extract_all]

theorem immLoOf_wordS (i : BitVec 4) (b : BitVec 7) (a : BitVec 7) (j : BitVec 4) (f : BitVec 3) (o : BitVec 7) : immLoOf (wordS i b a j f o) = j := by
  unfold immLoOf wordS
  simp (disch := omega) only [extract_append_high, extract_append_low, Nat.reduceSub, extract_all]

theorem rs1Of_wordS (i : BitVec 4) (b : BitVec 7) (a : BitVec 7) (j : BitVec 4) (f : BitVec 3) (o : BitVec 7) : rs1Of (wordS i b a j f o) = a := by
  unfold rs1Of wordS
  simp (disch := omega) only [extract_append_high, extract_append_low, Nat.reduceSub, extract_all]

theorem rs2Of_wordS (i : BitVec 4) (b : BitVec 7) (a : BitVec 7) (j : BitVec 4) (f : BitVec 3) (o : BitVec 7) : rs2Of (wordS i b a j f o) = b := by
  unfold rs2Of wordS
  simp (disch := omega) only [extract_append_high, extract_append_low, Nat.reduceSub, extract_all]

theorem f4Of_wordS (i : BitVec 4) (b : BitVec 7) (a : BitVec 7) (j : BitVec 4) (f : BitVec 3) (o : BitVec 7) : f4Of (wordS i b a j f o) = i := by
  unfold f4Of wordS
  simp (disch := omega) only [extract_append_high, extract_append_low, Nat.reduceSub, extract_all]

theorem opOf_wordU (i : BitVec 18) (d : BitVec 7) (o : BitVec 7) : opOf (wordU i d o) = o := by
  unfold opOf wordU
  simp (disch := omega) only [extract_append_high, extract_append_low, Nat.reduceSub, extract_all]

theorem rdOf_wordU (i : BitVec 18) (d : BitVec 7) (o : BitVec 7) : rdOf (wordU i d o) = d := by
  unfold rdOf wordU
  simp (disch := omega) only [extract_append_high, extract_append_low, Nat.reduceSub, extract_all]

theorem imm18Of_wordU (i : BitVec 18) (d : BitVec 7) (o : BitVec 7) : imm18Of (wordU i d o) = i := by
  unfold imm18Of wordU
  simp (disch := omega) only [extract_append_high, extract_append_low, Nat.reduceSub, extract_all]

theorem opOf_wordJ (i : BitVec 25) (o : BitVec 7) : opOf (wordJ i o) = o := by
  unfold opOf wordJ
  simp (disch := omega) only [extract_append_high, extract_append_low, Nat.reduceSub, extract_all]

theorem imm25Of_wordJ (i : BitVec 25) (o : BitVec 7) : imm25Of (wordJ i o) = i := by
  unfold imm25Of wordJ
  simp (disch := omega) only [extract_append_high, extract_append_low, Nat.reduceSub, extract_all]

/-- The operand fields of wordR. -/
theorem fields_wordR (f4 : BitVec 4) (b a d o : BitVec 7) :
    rdOf (wordR f4 b a d o) = d ∧ rs1Of (wordR f4 b a d o) = a ∧ rs2Of (wordR f4 b a d o) = b ∧ f4Of (wordR f4 b a d o) = f4 :=
  ⟨rdOf_wordR .., rs1Of_wordR .., rs2Of_wordR .., f4Of_wordR ..⟩

/-- The operand fields of wordI. -/
theorem fields_wordI (f : BitVec 3) (i : BitVec 8) (a d o : BitVec 7) :
    rdOf (wordI f i a d o) = d ∧ rs1Of (wordI f i a d o) = a ∧ immOf (wordI f i a d o) = i ∧ f3iOf (wordI f i a d o) = f :=
  ⟨rdOf_wordI .., rs1Of_wordI .., immOf_wordI .., f3iOf_wordI ..⟩

/-- The operand fields of wordS. -/
theorem fields_wordS (i : BitVec 4) (b a : BitVec 7) (j : BitVec 4) (f : BitVec 3) (o : BitVec 7) :
    f3sOf (wordS i b a j f o) = f ∧ immLoOf (wordS i b a j f o) = j ∧ rs1Of (wordS i b a j f o) = a ∧ rs2Of (wordS i b a j f o) = b ∧ f4Of (wordS i b a j f o) = i :=
  ⟨f3sOf_wordS .., immLoOf_wordS .., rs1Of_wordS .., rs2Of_wordS .., f4Of_wordS ..⟩

/-- The operand fields of wordU. -/
theorem fields_wordU (i : BitVec 18) (d o : BitVec 7) :
    rdOf (wordU i d o) = d ∧ imm18Of (wordU i d o) = i :=
  ⟨rdOf_wordU .., imm18Of_wordU ..⟩

/-! The opcode byte chooses the table. -/

theorem rawDecode_03 (w : InstrWord) (h : opOf w = 0x03#7) : rawDecode w = rawLoad w := by
  unfold rawDecode
  rw [h]
  rfl

theorem rawDecode_07 (w : InstrWord) (h : opOf w = 0x07#7) : rawDecode w = rawVmem w := by
  unfold rawDecode
  rw [h]
  rfl

theorem rawDecode_0b (w : InstrWord) (h : opOf w = 0x0B#7) : rawDecode w = rawTensor w := by
  unfold rawDecode
  rw [h]
  rfl

theorem rawDecode_0f (w : InstrWord) (h : opOf w = 0x0F#7) : rawDecode w = rawOrd w := by
  unfold rawDecode
  rw [h]
  rfl

theorem rawDecode_13 (w : InstrWord) (h : opOf w = 0x13#7) : rawDecode w = rawOpImm w := by
  unfold rawDecode
  rw [h]
  rfl

theorem rawDecode_17 (w : InstrWord) (h : opOf w = 0x17#7) : rawDecode w = rawAddpc w := by
  unfold rawDecode
  rw [h]
  rfl

theorem rawDecode_1b (w : InstrWord) (h : opOf w = 0x1B#7) : rawDecode w = rawPred w := by
  unfold rawDecode
  rw [h]
  rfl

theorem rawDecode_1f (w : InstrWord) (h : opOf w = 0x1F#7) : rawDecode w = rawAddl w := by
  unfold rawDecode
  rw [h]
  rfl

theorem rawDecode_23 (w : InstrWord) (h : opOf w = 0x23#7) : rawDecode w = rawStore w := by
  unfold rawDecode
  rw [h]
  rfl

theorem rawDecode_2b (w : InstrWord) (h : opOf w = 0x2B#7) : rawDecode w = rawMessage w := by
  unfold rawDecode
  rw [h]
  rfl

theorem rawDecode_2f (w : InstrWord) (h : opOf w = 0x2F#7) : rawDecode w = rawAmo w := by
  unfold rawDecode
  rw [h]
  rfl

theorem rawDecode_33 (w : InstrWord) (h : opOf w = 0x33#7) : rawDecode w = rawOp w := by
  unfold rawDecode
  rw [h]
  rfl

theorem rawDecode_37 (w : InstrWord) (h : opOf w = 0x37#7) : rawDecode w = rawLiu w := by
  unfold rawDecode
  rw [h]
  rfl

theorem rawDecode_3b (w : InstrWord) (h : opOf w = 0x3B#7) : rawDecode w = rawMul w := by
  unfold rawDecode
  rw [h]
  rfl

theorem rawDecode_3f (w : InstrWord) (h : opOf w = 0x3F#7) : rawDecode w = rawBit w := by
  unfold rawDecode
  rw [h]
  rfl

theorem rawDecode_43 (w : InstrWord) (h : opOf w = 0x43#7) : rawDecode w = rawFltS w := by
  unfold rawDecode
  rw [h]
  rfl

theorem rawDecode_47 (w : InstrWord) (h : opOf w = 0x47#7) : rawDecode w = rawFltD w := by
  unfold rawDecode
  rw [h]
  rfl

theorem rawDecode_53 (w : InstrWord) (h : opOf w = 0x53#7) : rawDecode w = rawVop w := by
  unfold rawDecode
  rw [h]
  rfl

theorem rawDecode_57 (w : InstrWord) (h : opOf w = 0x57#7) : rawDecode w = rawVcvt w := by
  unfold rawDecode
  rw [h]
  rfl

theorem rawDecode_5b (w : InstrWord) (h : opOf w = 0x5B#7) : rawDecode w = rawSync w := by
  unfold rawDecode
  rw [h]
  rfl

theorem rawDecode_63 (w : InstrWord) (h : opOf w = 0x63#7) : rawDecode w = rawBranch w := by
  unfold rawDecode
  rw [h]
  rfl

theorem rawDecode_67 (w : InstrWord) (h : opOf w = 0x67#7) : rawDecode w = rawJalr w := by
  unfold rawDecode
  rw [h]
  rfl

theorem rawDecode_6f (w : InstrWord) (h : opOf w = 0x6F#7) : rawDecode w = rawJal w := by
  unfold rawDecode
  rw [h]
  rfl

theorem rawDecode_73 (w : InstrWord) (h : opOf w = 0x73#7) : rawDecode w = rawSystem w := by
  unfold rawDecode
  rw [h]
  rfl

theorem rawDecode_7b (w : InstrWord) (h : opOf w = 0x7B#7) : rawDecode w = rawThread w := by
  unfold rawDecode
  rw [h]
  rfl

/-- What the tables answer for the word of a well-formed instruction is what the decoder answers. -/
theorem decode_of_raw {i : Instr} (h : rawDecode (encode i) = .ok i) (w : WellFormed i) : decode (encode i) = .ok i := by
  unfold decode
  rw [h]
  simp [w]

end Sys2Proof
end

