-- ==== Sys2Proof/Laws/PerInstr.lean ====
section
/-! SUPPORT. Per constructor: decoding the word of a well-formed instruction gives the instruction back (spec/02 R31 to R46). -/

section
set_option Elab.async false

namespace Sys2Proof.Laws.RoundTrip

/-- The word that the encoder gives decodes to the instruction. -/
def Statement (i : Instr) : Prop := WellFormed i → decode (encode i) = .ok i

theorem wheelBoundary (core : Nat) : Statement (.wheelBoundary core) := fun h => absurd h (by simp [Machine.fieldsOk])
theorem accessReply (core slot : Nat) : Statement (.accessReply core slot) := fun h => absurd h (by simp [Machine.fieldsOk])
theorem pageTableWalk (core slot : Nat) : Statement (.pageTableWalk core slot) := fun h => absurd h (by simp [Machine.fieldsOk])
theorem faultRetry (record : Nat) : Statement (.faultRetry record) := fun h => absurd h (by simp [Machine.fieldsOk])
theorem faultDeliver (record : Nat) : Statement (.faultDeliver record) := fun h => absurd h (by simp [Machine.fieldsOk])
theorem refreshDue (bank : Nat) : Statement (.refreshDue bank) := fun h => absurd h (by simp [Machine.fieldsOk])
theorem postponedRefresh (bank : Nat) : Statement (.postponedRefresh bank) := fun h => absurd h (by simp [Machine.fieldsOk])
theorem sweep : Statement (.sweep) := fun h => absurd h (by simp [Machine.fieldsOk])
theorem sweepCoreStep (core : Nat) : Statement (.sweepCoreStep core) := fun h => absurd h (by simp [Machine.fieldsOk])
theorem sweepClear : Statement (.sweepClear) := fun h => absurd h (by simp [Machine.fieldsOk])
theorem migrationPacketArrival (core : Nat) : Statement (.migrationPacketArrival core) := fun h => absurd h (by simp [Machine.fieldsOk])
theorem migrationRetry (core slot : Nat) : Statement (.migrationRetry core slot) := fun h => absurd h (by simp [Machine.fieldsOk])
theorem proxy (core : Nat) : Statement (.proxy core) := fun h => absurd h (by simp [Machine.fieldsOk])
theorem proxyReply (core slot : Nat) : Statement (.proxyReply core slot) := fun h => absurd h (by simp [Machine.fieldsOk])
theorem remoteUpdate (core : Nat) : Statement (.remoteUpdate core) := fun h => absurd h (by simp [Machine.fieldsOk])
theorem clusterSchedulerPass (cluster : Nat) : Statement (.clusterSchedulerPass cluster) := fun h => absurd h (by simp [Machine.fieldsOk])
theorem packetPromotion (cluster level : Nat) : Statement (.packetPromotion cluster level) := fun h => absurd h (by simp [Machine.fieldsOk])
theorem stealRequest (thief victim : Nat) : Statement (.stealRequest thief victim) := fun h => absurd h (by simp [Machine.fieldsOk])
theorem stealRoundWait (cluster : Nat) : Statement (.stealRoundWait cluster) := fun h => absurd h (by simp [Machine.fieldsOk])
theorem pendingLaunchMove (cluster entry : Nat) : Statement (.pendingLaunchMove cluster entry) := fun h => absurd h (by simp [Machine.fieldsOk])
theorem dependencyDecrement (handle : BitVec 32) : Statement (.dependencyDecrement handle) := fun h => absurd h (by simp [Machine.fieldsOk])
theorem taskRetirement (inst : Nat) : Statement (.taskRetirement inst) := fun h => absurd h (by simp [Machine.fieldsOk])
theorem mailboxDelivery (inst : Nat) : Statement (.mailboxDelivery inst) := fun h => absurd h (by simp [Machine.fieldsOk])
theorem portElementArrival (core : Nat) (dir : Port) : Statement (.portElementArrival core dir) := fun h => absurd h (by simp [Machine.fieldsOk])
theorem monitorNotice (core slot : Nat) : Statement (.monitorNotice core slot) := fun h => absurd h (by simp [Machine.fieldsOk])
theorem monWaitTimeout (core slot : Nat) : Statement (.monWaitTimeout core slot) := fun h => absurd h (by simp [Machine.fieldsOk])
theorem copyBeat (cluster chan : Nat) : Statement (.copyBeat cluster chan) := fun h => absurd h (by simp [Machine.fieldsOk])
theorem copyCompletion (cluster chan : Nat) : Statement (.copyCompletion cluster chan) := fun h => absurd h (by simp [Machine.fieldsOk])
theorem indexStep (cluster job : Nat) : Statement (.indexStep cluster job) := fun h => absurd h (by simp [Machine.fieldsOk])
theorem matrixJobStart (cluster : Nat) : Statement (.matrixJobStart cluster) := fun h => absurd h (by simp [Machine.fieldsOk])
theorem tileFetch (cluster : Nat) (line : Nat) : Statement (.tileFetch cluster line) := fun h => absurd h (by simp [Machine.fieldsOk])
theorem kGroup (cluster : Nat) : Statement (.kGroup cluster) := fun h => absurd h (by simp [Machine.fieldsOk])
theorem tileWriteBack (cluster : Nat) : Statement (.tileWriteBack cluster) := fun h => absurd h (by simp [Machine.fieldsOk])
theorem jobEnd (cluster : Nat) : Statement (.jobEnd cluster) := fun h => absurd h (by simp [Machine.fieldsOk])
theorem engineClockGate (cluster : Nat) : Statement (.engineClockGate cluster) := fun h => absurd h (by simp [Machine.fieldsOk])
theorem engineWakeGrant (die : Nat) : Statement (.engineWakeGrant die) := fun h => absurd h (by simp [Machine.fieldsOk])
theorem engineWakeReady (cluster : Nat) : Statement (.engineWakeReady cluster) := fun h => absurd h (by simp [Machine.fieldsOk])
theorem engineYield (cluster : Nat) : Statement (.engineYield cluster) := fun h => absurd h (by simp [Machine.fieldsOk])
theorem rindNormJob (cluster : Nat) : Statement (.rindNormJob cluster) := fun h => absurd h (by simp [Machine.fieldsOk])
theorem pressFormation (cluster key : Nat) : Statement (.pressFormation cluster key) := fun h => absurd h (by simp [Machine.fieldsOk])
theorem pressRound (cluster key : Nat) : Statement (.pressRound cluster key) := fun h => absurd h (by simp [Machine.fieldsOk])
theorem preemptionRequest (inst : Nat) : Statement (.preemptionRequest inst) := fun h => absurd h (by simp [Machine.fieldsOk])
theorem haltComplete (inst : Nat) : Statement (.haltComplete inst) := fun h => absurd h (by simp [Machine.fieldsOk])
theorem resume (inst : Nat) : Statement (.resume inst) := fun h => absurd h (by simp [Machine.fieldsOk])
theorem eviction (inst : Nat) (image : Nat) : Statement (.eviction inst image) := fun h => absurd h (by simp [Machine.fieldsOk])
theorem restore (image core : Nat) : Statement (.restore image core) := fun h => absurd h (by simp [Machine.fieldsOk])
theorem kernelKillRequest (inst : Nat) : Statement (.kernelKillRequest inst) := fun h => absurd h (by simp [Machine.fieldsOk])
theorem killComplete (inst : Nat) : Statement (.killComplete inst) := fun h => absurd h (by simp [Machine.fieldsOk])
theorem frozenThreadRestart (core slot : Nat) (pc : BitVec 64) : Statement (.frozenThreadRestart core slot pc) := fun h => absurd h (by simp [Machine.fieldsOk])
theorem coreDrain (core : Nat) : Statement (.coreDrain core) := fun h => absurd h (by simp [Machine.fieldsOk])
theorem clusterRestore (cluster : Nat) : Statement (.clusterRestore cluster) := fun h => absurd h (by simp [Machine.fieldsOk])
theorem swapDue (pair : Nat) : Statement (.swapDue pair) := fun h => absurd h (by simp [Machine.fieldsOk])
theorem swapPrepare (pair : Nat) : Statement (.swapPrepare pair) := fun h => absurd h (by simp [Machine.fieldsOk])
theorem swapExchange (pair : Nat) : Statement (.swapExchange pair) := fun h => absurd h (by simp [Machine.fieldsOk])
theorem swapResume (pair : Nat) : Statement (.swapResume pair) := fun h => absurd h (by simp [Machine.fieldsOk])
theorem holdExpiry (core slot : Nat) : Statement (.holdExpiry core slot) := fun h => absurd h (by simp [Machine.fieldsOk])
theorem swapDeferralLimit (pair : Nat) : Statement (.swapDeferralLimit pair) := fun h => absurd h (by simp [Machine.fieldsOk])
theorem securityAlarm (sources : BitVec 4) : Statement (.securityAlarm sources) := fun h => absurd h (by simp [Machine.fieldsOk])
theorem alarmpolWrite (value : BitVec 64) : Statement (.alarmpolWrite value) := fun h => absurd h (by simp [Machine.fieldsOk])
theorem powerGood : Statement (.powerGood) := fun h => absurd h (by simp [Machine.fieldsOk])
theorem clusterResetRelease (cluster : Nat) : Statement (.clusterResetRelease cluster) := fun h => absurd h (by simp [Machine.fieldsOk])
theorem bootStage (image : BootImage) : Statement (.bootStage image) := fun h => absurd h (by simp [Machine.fieldsOk])
theorem measurementExtend (index : Nat) (digest : BitVec 256) : Statement (.measurementExtend index digest) := fun h => absurd h (by simp [Machine.fieldsOk])
theorem sqtailWrite (tail : BitVec 64) (cluster : Nat) : Statement (.sqtailWrite tail cluster) := fun h => absurd h (by simp [Machine.fieldsOk])
theorem faccept0Write (value : BitVec 64) : Statement (.faccept0Write value) := fun h => absurd h (by simp [Machine.fieldsOk])
theorem bar2Read (addr : Nat) (size : Nat) : Statement (.bar2Read addr size) := fun h => absurd h (by simp [Machine.fieldsOk])
theorem bar2Write (addr : Nat) (bytes : List (BitVec 8)) : Statement (.bar2Write addr bytes) := fun h => absurd h (by simp [Machine.fieldsOk])
theorem attestationRequest (nonce : BitVec 256) : Statement (.attestationRequest nonce) := fun h => absurd h (by simp [Machine.fieldsOk])
theorem hubRegisterWrite (reg : HubReg) (value : BitVec 128) : Statement (.hubRegisterWrite reg value) := fun h => absurd h (by simp [Machine.fieldsOk])
theorem thermalThrottle (die : Nat) : Statement (.thermalThrottle die) := fun h => absurd h (by simp [Machine.fieldsOk])
theorem throttleRelease (die : Nat) : Statement (.throttleRelease die) := fun h => absurd h (by simp [Machine.fieldsOk])
theorem flitError (path : Nat) (failed : Bool) : Statement (.flitError path failed) := fun h => absurd h (by simp [Machine.fieldsOk])
theorem mcstStamping (group : Nat) (other : Option (BitVec 64 × BitVec 64)) : Statement (.mcstStamping group other) := fun h => absurd h (by simp [Machine.fieldsOk])
theorem mcstApplication (group : Nat) : Statement (.mcstApplication group) := fun h => absurd h (by simp [Machine.fieldsOk])
theorem multicastSkip (group : Nat) : Statement (.multicastSkip group) := fun h => absurd h (by simp [Machine.fieldsOk])
theorem combinePacketArrival (packet : CombinePacket) : Statement (.combinePacketArrival packet) := fun h => absurd h (by simp [Machine.fieldsOk])
theorem slotFreeNotice (notice : SlotNotice) : Statement (.slotFreeNotice notice) := fun h => absurd h (by simp [Machine.fieldsOk])
theorem resultPacketArrival (packet : CombinePacket) : Statement (.resultPacketArrival packet) := fun h => absurd h (by simp [Machine.fieldsOk])
theorem scalarStepCompletion (group : Nat) (stepNo : BitVec 32) : Statement (.scalarStepCompletion group stepNo) := fun h => absurd h (by simp [Machine.fieldsOk])
theorem holdNotice (group : Nat) (stepNo : BitVec 32) : Statement (.holdNotice group stepNo) := fun h => absurd h (by simp [Machine.fieldsOk])
theorem resumeNotice (group : Nat) (stepNo : BitVec 32) : Statement (.resumeNotice group stepNo) := fun h => absurd h (by simp [Machine.fieldsOk])
theorem linkFailure (failure : LinkFailure) : Statement (.linkFailure failure) := fun h => absurd h (by simp [Machine.fieldsOk])
theorem treeReform (group : Nat) (entry : BitVec 128) : Statement (.treeReform group entry) := fun h => absurd h (by simp [Machine.fieldsOk])
theorem illegalInstruction (word : BitVec 32) : Statement (.illegalInstruction word) := fun h => absurd h (by simp [Machine.fieldsOk])
theorem instructionFetchFault (cause : BitVec 5) : Statement (.instructionFetchFault cause) := fun h => absurd h (by simp [Machine.fieldsOk])
theorem haltedThreadResume (core slot : Nat) : Statement (.haltedThreadResume core slot) := fun h => absurd h (by simp [Machine.fieldsOk])
theorem faccept1Write (value : BitVec 64) : Statement (.faccept1Write value) := fun h => absurd h (by simp [Machine.fieldsOk])
theorem provisioning : Statement (.provisioning) := fun h => absurd h (by simp [Machine.fieldsOk])
theorem lb (i : BitVec 8) (a : BitVec 7) (d : BitVec 7) : Statement (.lb i a d) := decode_of_raw ((rawDecode_03 _ (opOf_wordI ..)).trans (by
  simp (disch := omega) only [encode, wordLb, rawLoad, fields_wordI, BitVec.toNat_ofNat, Nat.reducePow, Nat.reduceMod]))
theorem lh (i : BitVec 8) (a : BitVec 7) (d : BitVec 7) : Statement (.lh i a d) := decode_of_raw ((rawDecode_03 _ (opOf_wordI ..)).trans (by
  simp (disch := omega) only [encode, wordLh, rawLoad, fields_wordI, BitVec.toNat_ofNat, Nat.reducePow, Nat.reduceMod]))
theorem lw (i : BitVec 8) (a : BitVec 7) (d : BitVec 7) : Statement (.lw i a d) := decode_of_raw ((rawDecode_03 _ (opOf_wordI ..)).trans (by
  simp (disch := omega) only [encode, wordLw, rawLoad, fields_wordI, BitVec.toNat_ofNat, Nat.reducePow, Nat.reduceMod]))
theorem ld (i : BitVec 8) (a : BitVec 7) (d : BitVec 7) : Statement (.ld i a d) := decode_of_raw ((rawDecode_03 _ (opOf_wordI ..)).trans (by
  simp (disch := omega) only [encode, wordLd, rawLoad, fields_wordI, BitVec.toNat_ofNat, Nat.reducePow, Nat.reduceMod]))
theorem lbu (i : BitVec 8) (a : BitVec 7) (d : BitVec 7) : Statement (.lbu i a d) := decode_of_raw ((rawDecode_03 _ (opOf_wordI ..)).trans (by
  simp (disch := omega) only [encode, wordLbu, rawLoad, fields_wordI, BitVec.toNat_ofNat, Nat.reducePow, Nat.reduceMod]))
theorem lhu (i : BitVec 8) (a : BitVec 7) (d : BitVec 7) : Statement (.lhu i a d) := decode_of_raw ((rawDecode_03 _ (opOf_wordI ..)).trans (by
  simp (disch := omega) only [encode, wordLhu, rawLoad, fields_wordI, BitVec.toNat_ofNat, Nat.reducePow, Nat.reduceMod]))
theorem lwu (i : BitVec 8) (a : BitVec 7) (d : BitVec 7) : Statement (.lwu i a d) := decode_of_raw ((rawDecode_03 _ (opOf_wordI ..)).trans (by
  simp (disch := omega) only [encode, wordLwu, rawLoad, fields_wordI, BitVec.toNat_ofNat, Nat.reducePow, Nat.reduceMod]))
theorem sb (i : BitVec 4) (b : BitVec 7) (a : BitVec 7) (j : BitVec 4) : Statement (.sb i b a j) := decode_of_raw ((rawDecode_23 _ (opOf_wordS ..)).trans (by
  simp (disch := omega) only [encode, wordSb, rawStore, fields_wordS, BitVec.toNat_ofNat, Nat.reducePow, Nat.reduceMod]))
theorem sh (i : BitVec 4) (b : BitVec 7) (a : BitVec 7) (j : BitVec 4) : Statement (.sh i b a j) := decode_of_raw ((rawDecode_23 _ (opOf_wordS ..)).trans (by
  simp (disch := omega) only [encode, wordSh, rawStore, fields_wordS, BitVec.toNat_ofNat, Nat.reducePow, Nat.reduceMod]))
theorem sw (i : BitVec 4) (b : BitVec 7) (a : BitVec 7) (j : BitVec 4) : Statement (.sw i b a j) := decode_of_raw ((rawDecode_23 _ (opOf_wordS ..)).trans (by
  simp (disch := omega) only [encode, wordSw, rawStore, fields_wordS, BitVec.toNat_ofNat, Nat.reducePow, Nat.reduceMod]))
theorem sd (i : BitVec 4) (b : BitVec 7) (a : BitVec 7) (j : BitVec 4) : Statement (.sd i b a j) := decode_of_raw ((rawDecode_23 _ (opOf_wordS ..)).trans (by
  simp (disch := omega) only [encode, wordSd, rawStore, fields_wordS, BitVec.toNat_ofNat, Nat.reducePow, Nat.reduceMod]))
theorem vld (a : BitVec 7) (k : BitVec 3) (t : BitVec 4) : Statement (.vld a k t) := decode_of_raw ((rawDecode_07 _ (opOf_wordR ..)).trans (by
  simp (disch := omega) only [encode, wordVld, rawVmem, fields_wordR, extract_append_high, extract_append_low, extract_all, Nat.reduceSub, BitVec.toNat_ofNat, Nat.reducePow, Nat.reduceMod]))
theorem vst (a : BitVec 7) (k : BitVec 3) (t : BitVec 4) : Statement (.vst a k t) := decode_of_raw ((rawDecode_07 _ (opOf_wordR ..)).trans (by
  simp (disch := omega) only [encode, wordVst, rawVmem, fields_wordR, extract_append_high, extract_append_low, extract_all, Nat.reduceSub, BitVec.toNat_ofNat, Nat.reducePow, Nat.reduceMod]))
theorem vlds (b : BitVec 7) (a : BitVec 7) (k : BitVec 3) (t : BitVec 4) : Statement (.vlds b a k t) := decode_of_raw ((rawDecode_07 _ (opOf_wordR ..)).trans (by
  simp (disch := omega) only [encode, wordVlds, rawVmem, fields_wordR, extract_append_high, extract_append_low, extract_all, Nat.reduceSub, BitVec.toNat_ofNat, Nat.reducePow, Nat.reduceMod]))
theorem vsts (b : BitVec 7) (a : BitVec 7) (k : BitVec 3) (t : BitVec 4) : Statement (.vsts b a k t) := decode_of_raw ((rawDecode_07 _ (opOf_wordR ..)).trans (by
  simp (disch := omega) only [encode, wordVsts, rawVmem, fields_wordR, extract_append_high, extract_append_low, extract_all, Nat.reduceSub, BitVec.toNat_ofNat, Nat.reducePow, Nat.reduceMod]))
theorem vldb (a : BitVec 7) (k : BitVec 3) (t : BitVec 4) : Statement (.vldb a k t) := decode_of_raw ((rawDecode_07 _ (opOf_wordR ..)).trans (by
  simp (disch := omega) only [encode, wordVldb, rawVmem, fields_wordR, extract_append_high, extract_append_low, extract_all, Nat.reduceSub, BitVec.toNat_ofNat, Nat.reducePow, Nat.reduceMod]))
theorem mxSubmit (a : BitVec 7) (d : BitVec 7) : Statement (.mxSubmit a d) := decode_of_raw ((rawDecode_0b _ (opOf_wordR ..)).trans (by
  simp (disch := omega) only [encode, wordMxSubmit, rawTensor, fields_wordR, BitVec.toNat_ofNat, Nat.reducePow, Nat.reduceMod]))
theorem mxRun (a : BitVec 7) (d : BitVec 7) : Statement (.mxRun a d) := decode_of_raw ((rawDecode_0b _ (opOf_wordR ..)).trans (by
  simp (disch := omega) only [encode, wordMxRun, rawTensor, fields_wordR, BitVec.toNat_ofNat, Nat.reducePow, Nat.reduceMod]))
theorem jobPoll (a : BitVec 7) (d : BitVec 7) : Statement (.jobPoll a d) := decode_of_raw ((rawDecode_0b _ (opOf_wordR ..)).trans (by
  simp (disch := omega) only [encode, wordJobPoll, rawTensor, fields_wordR, BitVec.toNat_ofNat, Nat.reducePow, Nat.reduceMod]))
theorem jobWait (a : BitVec 7) (d : BitVec 7) : Statement (.jobWait a d) := decode_of_raw ((rawDecode_0b _ (opOf_wordR ..)).trans (by
  simp (disch := omega) only [encode, wordJobWait, rawTensor, fields_wordR, BitVec.toNat_ofNat, Nat.reducePow, Nat.reduceMod]))
theorem jobCancel (a : BitVec 7) (d : BitVec 7) : Statement (.jobCancel a d) := decode_of_raw ((rawDecode_0b _ (opOf_wordR ..)).trans (by
  simp (disch := omega) only [encode, wordJobCancel, rawTensor, fields_wordR, BitVec.toNat_ofNat, Nat.reducePow, Nat.reduceMod]))
theorem mxNorm (a : BitVec 7) (d : BitVec 7) : Statement (.mxNorm a d) := decode_of_raw ((rawDecode_0b _ (opOf_wordR ..)).trans (by
  simp (disch := omega) only [encode, wordMxNorm, rawTensor, fields_wordR, BitVec.toNat_ofNat, Nat.reducePow, Nat.reduceMod]))
theorem mxXchg (a : BitVec 7) (d : BitVec 7) : Statement (.mxXchg a d) := decode_of_raw ((rawDecode_0b _ (opOf_wordR ..)).trans (by
  simp (disch := omega) only [encode, wordMxXchg, rawTensor, fields_wordR, BitVec.toNat_ofNat, Nat.reducePow, Nat.reduceMod]))
theorem cpGo (a : BitVec 7) : Statement (.cpGo a) := decode_of_raw ((rawDecode_0b _ (opOf_wordR ..)).trans (by
  simp (disch := omega) only [encode, wordCpGo, rawTensor, fields_wordR, BitVec.toNat_ofNat, Nat.reducePow, Nat.reduceMod]))
theorem cpWp (a : BitVec 7) (d : BitVec 7) : Statement (.cpWp a d) := decode_of_raw ((rawDecode_0b _ (opOf_wordR ..)).trans (by
  simp (disch := omega) only [encode, wordCpWp, rawTensor, fields_wordR, BitVec.toNat_ofNat, Nat.reducePow, Nat.reduceMod]))
theorem vatInit (b : BitVec 7) (a : BitVec 7) (d : BitVec 7) : Statement (.vatInit b a d) := decode_of_raw ((rawDecode_0b _ (opOf_wordR ..)).trans (by
  simp (disch := omega) only [encode, wordVatInit, rawTensor, fields_wordR, BitVec.toNat_ofNat, Nat.reducePow, Nat.reduceMod]))
theorem vatCvt (b : BitVec 7) (a : BitVec 7) (d : BitVec 7) : Statement (.vatCvt b a d) := decode_of_raw ((rawDecode_0b _ (opOf_wordR ..)).trans (by
  simp (disch := omega) only [encode, wordVatCvt, rawTensor, fields_wordR, BitVec.toNat_ofNat, Nat.reducePow, Nat.reduceMod]))
theorem seedSet (n : BitVec 4) (a : BitVec 7) : Statement (.seedSet n a) := decode_of_raw ((rawDecode_0b _ (opOf_wordR ..)).trans (by
  simp (disch := omega) only [encode, wordSeedSet, rawTensor, fields_wordR, extract_append_high, extract_append_low, extract_all, Nat.reduceSub, BitVec.toNat_ofNat, Nat.reducePow, Nat.reduceMod]))
theorem seedGet (n : BitVec 4) (d : BitVec 7) : Statement (.seedGet n d) := decode_of_raw ((rawDecode_0b _ (opOf_wordR ..)).trans (by
  simp (disch := omega) only [encode, wordSeedGet, rawTensor, fields_wordR, extract_append_high, extract_append_low, extract_all, Nat.reduceSub, BitVec.toNat_ofNat, Nat.reducePow, Nat.reduceMod]))
theorem seedGetG (n : BitVec 4) (d : BitVec 7) : Statement (.seedGetG n d) := decode_of_raw ((rawDecode_0b _ (opOf_wordR ..)).trans (by
  simp (disch := omega) only [encode, wordSeedGetG, rawTensor, fields_wordR, extract_append_high, extract_append_low, extract_all, Nat.reduceSub, BitVec.toNat_ofNat, Nat.reducePow, Nat.reduceMod]))
theorem fmtLd (a : BitVec 7) (d : BitVec 7) : Statement (.fmtLd a d) := decode_of_raw ((rawDecode_0b _ (opOf_wordR ..)).trans (by
  simp (disch := omega) only [encode, wordFmtLd, rawTensor, fields_wordR, BitVec.toNat_ofNat, Nat.reducePow, Nat.reduceMod]))
theorem ixGo (a : BitVec 7) : Statement (.ixGo a) := decode_of_raw ((rawDecode_0b _ (opOf_wordR ..)).trans (by
  simp (disch := omega) only [encode, wordIxGo, rawTensor, fields_wordR, BitVec.toNat_ofNat, Nat.reducePow, Nat.reduceMod]))
theorem ixResume (a : BitVec 7) : Statement (.ixResume a) := decode_of_raw ((rawDecode_0b _ (opOf_wordR ..)).trans (by
  simp (disch := omega) only [encode, wordIxResume, rawTensor, fields_wordR, BitVec.toNat_ofNat, Nat.reducePow, Nat.reduceMod]))
theorem ldaD (s : BitVec 3) (a : BitVec 7) (d : BitVec 7) : Statement (.ldaD s a d) := decode_of_raw ((rawDecode_0f _ (opOf_wordR ..)).trans (by
  simp (disch := omega) only [encode, wordLdaD, rawOrd, fields_wordR, extract_append_high, extract_append_low, extract_all, Nat.reduceSub, BitVec.toNat_ofNat, Nat.reducePow, Nat.reduceMod]))
theorem ldaW (s : BitVec 3) (a : BitVec 7) (d : BitVec 7) : Statement (.ldaW s a d) := decode_of_raw ((rawDecode_0f _ (opOf_wordR ..)).trans (by
  simp (disch := omega) only [encode, wordLdaW, rawOrd, fields_wordR, extract_append_high, extract_append_low, extract_all, Nat.reduceSub, BitVec.toNat_ofNat, Nat.reducePow, Nat.reduceMod]))
theorem stlD (b : BitVec 7) (a : BitVec 7) (s : BitVec 3) : Statement (.stlD b a s) := decode_of_raw ((rawDecode_0f _ (opOf_wordR ..)).trans (by
  simp (disch := omega) only [encode, wordStlD, rawOrd, fields_wordR, extract_append_high, extract_append_low, extract_all, Nat.reduceSub, BitVec.toNat_ofNat, Nat.reducePow, Nat.reduceMod]))
theorem stlW (b : BitVec 7) (a : BitVec 7) (s : BitVec 3) : Statement (.stlW b a s) := decode_of_raw ((rawDecode_0f _ (opOf_wordR ..)).trans (by
  simp (disch := omega) only [encode, wordStlW, rawOrd, fields_wordR, extract_append_high, extract_append_low, extract_all, Nat.reduceSub, BitVec.toNat_ofNat, Nat.reducePow, Nat.reduceMod]))
theorem fence (k : BitVec 5) (s : BitVec 3) : Statement (.fence k s) := decode_of_raw ((rawDecode_0f _ (opOf_wordR ..)).trans (by
  simp (disch := omega) only [encode, wordFence, rawOrd, fields_wordR, extract_append_high, extract_append_low, extract_all, Nat.reduceSub, BitVec.toNat_ofNat, Nat.reducePow, Nat.reduceMod]))
theorem cflush (a : BitVec 7) : Statement (.cflush a) := decode_of_raw ((rawDecode_0f _ (opOf_wordR ..)).trans (by
  simp (disch := omega) only [encode, wordCflush, rawOrd, fields_wordR, extract_append_high, extract_append_low, extract_all, Nat.reduceSub, BitVec.toNat_ofNat, Nat.reducePow, Nat.reduceMod]))
theorem cinv (a : BitVec 7) : Statement (.cinv a) := decode_of_raw ((rawDecode_0f _ (opOf_wordR ..)).trans (by
  simp (disch := omega) only [encode, wordCinv, rawOrd, fields_wordR, extract_append_high, extract_append_low, extract_all, Nat.reduceSub, BitVec.toNat_ofNat, Nat.reducePow, Nat.reduceMod]))
theorem pref (a : BitVec 7) : Statement (.pref a) := decode_of_raw ((rawDecode_0f _ (opOf_wordR ..)).trans (by
  simp (disch := omega) only [encode, wordPref, rawOrd, fields_wordR, extract_append_high, extract_append_low, extract_all, Nat.reduceSub, BitVec.toNat_ofNat, Nat.reducePow, Nat.reduceMod]))
theorem sigrd (e : BitVec 2) (d : BitVec 7) : Statement (.sigrd e d) := decode_of_raw ((rawDecode_0f _ (opOf_wordR ..)).trans (by
  simp (disch := omega) only [encode, wordSigrd, rawOrd, fields_wordR, extract_append_high, extract_append_low, extract_all, Nat.reduceSub, BitVec.toNat_ofNat, Nat.reducePow, Nat.reduceMod]))
theorem addi (i : BitVec 8) (a : BitVec 7) (d : BitVec 7) : Statement (.addi i a d) := decode_of_raw ((rawDecode_13 _ (opOf_wordI ..)).trans (by
  simp (disch := omega) only [encode, wordAddi, rawOpImm, fields_wordI, BitVec.toNat_ofNat, Nat.reducePow, Nat.reduceMod]))
theorem slti (i : BitVec 8) (a : BitVec 7) (d : BitVec 7) : Statement (.slti i a d) := decode_of_raw ((rawDecode_13 _ (opOf_wordI ..)).trans (by
  simp (disch := omega) only [encode, wordSlti, rawOpImm, fields_wordI, BitVec.toNat_ofNat, Nat.reducePow, Nat.reduceMod]))
theorem sltiu (i : BitVec 8) (a : BitVec 7) (d : BitVec 7) : Statement (.sltiu i a d) := decode_of_raw ((rawDecode_13 _ (opOf_wordI ..)).trans (by
  simp (disch := omega) only [encode, wordSltiu, rawOpImm, fields_wordI, BitVec.toNat_ofNat, Nat.reducePow, Nat.reduceMod]))
theorem xori (i : BitVec 8) (a : BitVec 7) (d : BitVec 7) : Statement (.xori i a d) := decode_of_raw ((rawDecode_13 _ (opOf_wordI ..)).trans (by
  simp (disch := omega) only [encode, wordXori, rawOpImm, fields_wordI, BitVec.toNat_ofNat, Nat.reducePow, Nat.reduceMod]))
theorem ori (i : BitVec 8) (a : BitVec 7) (d : BitVec 7) : Statement (.ori i a d) := decode_of_raw ((rawDecode_13 _ (opOf_wordI ..)).trans (by
  simp (disch := omega) only [encode, wordOri, rawOpImm, fields_wordI, BitVec.toNat_ofNat, Nat.reducePow, Nat.reduceMod]))
theorem andi (i : BitVec 8) (a : BitVec 7) (d : BitVec 7) : Statement (.andi i a d) := decode_of_raw ((rawDecode_13 _ (opOf_wordI ..)).trans (by
  simp (disch := omega) only [encode, wordAndi, rawOpImm, fields_wordI, BitVec.toNat_ofNat, Nat.reducePow, Nat.reduceMod]))
theorem slli (h : BitVec 6) (a : BitVec 7) (d : BitVec 7) : Statement (.slli h a d) := decode_of_raw ((rawDecode_13 _ (opOf_wordI ..)).trans (by
  simp (disch := omega) only [encode, wordSlli, rawOpImm, fields_wordI, extract_append_high, extract_append_low, extract_all, Nat.reduceSub, BitVec.toNat_ofNat, Nat.reducePow, Nat.reduceMod]))
theorem srli (h : BitVec 6) (a : BitVec 7) (d : BitVec 7) : Statement (.srli h a d) := decode_of_raw ((rawDecode_13 _ (opOf_wordI ..)).trans (by
  simp (disch := omega) only [encode, wordSrli, rawOpImm, fields_wordI, extract_append_high, extract_append_low, extract_all, Nat.reduceSub, BitVec.toNat_ofNat, Nat.reducePow, Nat.reduceMod]))
theorem srai (h : BitVec 6) (a : BitVec 7) (d : BitVec 7) : Statement (.srai h a d) := decode_of_raw ((rawDecode_13 _ (opOf_wordI ..)).trans (by
  simp (disch := omega) only [encode, wordSrai, rawOpImm, fields_wordI, extract_append_high, extract_append_low, extract_all, Nat.reduceSub, BitVec.toNat_ofNat, Nat.reducePow, Nat.reduceMod]))
theorem rori (h : BitVec 6) (a : BitVec 7) (d : BitVec 7) : Statement (.rori h a d) := decode_of_raw ((rawDecode_13 _ (opOf_wordI ..)).trans (by
  simp (disch := omega) only [encode, wordRori, rawOpImm, fields_wordI, extract_append_high, extract_append_low, extract_all, Nat.reduceSub, BitVec.toNat_ofNat, Nat.reducePow, Nat.reduceMod]))
theorem addpc (i : BitVec 18) (d : BitVec 7) : Statement (.addpc i d) := decode_of_raw ((rawDecode_17 _ (opOf_wordU ..)).trans (by
  simp (disch := omega) only [encode, wordAddpc, rawAddpc, fields_wordU, BitVec.toNat_ofNat, Nat.reducePow, Nat.reduceMod]))
theorem addl (i : BitVec 18) (d : BitVec 7) : Statement (.addl i d) := decode_of_raw ((rawDecode_1f _ (opOf_wordU ..)).trans (by
  simp (disch := omega) only [encode, wordAddl, rawAddl, fields_wordU, BitVec.toNat_ofNat, Nat.reducePow, Nat.reduceMod]))
theorem liu (i : BitVec 18) (d : BitVec 7) : Statement (.liu i d) := decode_of_raw ((rawDecode_37 _ (opOf_wordU ..)).trans (by
  simp (disch := omega) only [encode, wordLiu, rawLiu, fields_wordU, BitVec.toNat_ofNat, Nat.reducePow, Nat.reduceMod]))
theorem peq (b : BitVec 7) (a : BitVec 7) (p : BitVec 5) : Statement (.peq b a p) := decode_of_raw ((rawDecode_1b _ (opOf_wordR ..)).trans (by
  simp (disch := omega) only [encode, wordPeq, rawPred, fields_wordR, extract_append_high, extract_append_low, extract_all, Nat.reduceSub, BitVec.toNat_ofNat, Nat.reducePow, Nat.reduceMod]))
theorem pne (b : BitVec 7) (a : BitVec 7) (p : BitVec 5) : Statement (.pne b a p) := decode_of_raw ((rawDecode_1b _ (opOf_wordR ..)).trans (by
  simp (disch := omega) only [encode, wordPne, rawPred, fields_wordR, extract_append_high, extract_append_low, extract_all, Nat.reduceSub, BitVec.toNat_ofNat, Nat.reducePow, Nat.reduceMod]))
theorem plt (b : BitVec 7) (a : BitVec 7) (p : BitVec 5) : Statement (.plt b a p) := decode_of_raw ((rawDecode_1b _ (opOf_wordR ..)).trans (by
  simp (disch := omega) only [encode, wordPlt, rawPred, fields_wordR, extract_append_high, extract_append_low, extract_all, Nat.reduceSub, BitVec.toNat_ofNat, Nat.reducePow, Nat.reduceMod]))
theorem pge (b : BitVec 7) (a : BitVec 7) (p : BitVec 5) : Statement (.pge b a p) := decode_of_raw ((rawDecode_1b _ (opOf_wordR ..)).trans (by
  simp (disch := omega) only [encode, wordPge, rawPred, fields_wordR, extract_append_high, extract_append_low, extract_all, Nat.reduceSub, BitVec.toNat_ofNat, Nat.reducePow, Nat.reduceMod]))
theorem pltu (b : BitVec 7) (a : BitVec 7) (p : BitVec 5) : Statement (.pltu b a p) := decode_of_raw ((rawDecode_1b _ (opOf_wordR ..)).trans (by
  simp (disch := omega) only [encode, wordPltu, rawPred, fields_wordR, extract_append_high, extract_append_low, extract_all, Nat.reduceSub, BitVec.toNat_ofNat, Nat.reducePow, Nat.reduceMod]))
theorem pgeu (b : BitVec 7) (a : BitVec 7) (p : BitVec 5) : Statement (.pgeu b a p) := decode_of_raw ((rawDecode_1b _ (opOf_wordR ..)).trans (by
  simp (disch := omega) only [encode, wordPgeu, rawPred, fields_wordR, extract_append_high, extract_append_low, extract_all, Nat.reduceSub, BitVec.toNat_ofNat, Nat.reducePow, Nat.reduceMod]))
theorem pand (q : BitVec 5) (r : BitVec 5) (p : BitVec 5) : Statement (.pand q r p) := decode_of_raw ((rawDecode_1b _ (opOf_wordR ..)).trans (by
  simp (disch := omega) only [encode, wordPand, rawPred, fields_wordR, extract_append_high, extract_append_low, extract_all, Nat.reduceSub, BitVec.toNat_ofNat, Nat.reducePow, Nat.reduceMod]))
theorem por (q : BitVec 5) (r : BitVec 5) (p : BitVec 5) : Statement (.por q r p) := decode_of_raw ((rawDecode_1b _ (opOf_wordR ..)).trans (by
  simp (disch := omega) only [encode, wordPor, rawPred, fields_wordR, extract_append_high, extract_append_low, extract_all, Nat.reduceSub, BitVec.toNat_ofNat, Nat.reducePow, Nat.reduceMod]))
theorem pxor (q : BitVec 5) (r : BitVec 5) (p : BitVec 5) : Statement (.pxor q r p) := decode_of_raw ((rawDecode_1b _ (opOf_wordR ..)).trans (by
  simp (disch := omega) only [encode, wordPxor, rawPred, fields_wordR, extract_append_high, extract_append_low, extract_all, Nat.reduceSub, BitVec.toNat_ofNat, Nat.reducePow, Nat.reduceMod]))
theorem pnot (r : BitVec 5) (p : BitVec 5) : Statement (.pnot r p) := decode_of_raw ((rawDecode_1b _ (opOf_wordR ..)).trans (by
  simp (disch := omega) only [encode, wordPnot, rawPred, fields_wordR, extract_append_high, extract_append_low, extract_all, Nat.reduceSub, BitVec.toNat_ofNat, Nat.reducePow, Nat.reduceMod]))
theorem mvp (r : BitVec 5) (d : BitVec 7) : Statement (.mvp r d) := decode_of_raw ((rawDecode_1b _ (opOf_wordR ..)).trans (by
  simp (disch := omega) only [encode, wordMvp, rawPred, fields_wordR, extract_append_high, extract_append_low, extract_all, Nat.reduceSub, BitVec.toNat_ofNat, Nat.reducePow, Nat.reduceMod]))
theorem mvnp (r : BitVec 5) (d : BitVec 7) : Statement (.mvnp r d) := decode_of_raw ((rawDecode_1b _ (opOf_wordR ..)).trans (by
  simp (disch := omega) only [encode, wordMvnp, rawPred, fields_wordR, extract_append_high, extract_append_low, extract_all, Nat.reduceSub, BitVec.toNat_ofNat, Nat.reducePow, Nat.reduceMod]))
theorem prd (d : BitVec 7) : Statement (.prd d) := decode_of_raw ((rawDecode_1b _ (opOf_wordR ..)).trans (by
  simp (disch := omega) only [encode, wordPrd, rawPred, fields_wordR, extract_append_high, extract_append_low, extract_all, Nat.reduceSub, BitVec.toNat_ofNat, Nat.reducePow, Nat.reduceMod]))
theorem pwr (a : BitVec 7) : Statement (.pwr a) := decode_of_raw ((rawDecode_1b _ (opOf_wordR ..)).trans (by
  simp (disch := omega) only [encode, wordPwr, rawPred, fields_wordR, extract_append_high, extract_append_low, extract_all, Nat.reduceSub, BitVec.toNat_ofNat, Nat.reducePow, Nat.reduceMod]))
theorem epush (b : BitVec 7) (a : BitVec 7) (d : BitVec 7) : Statement (.epush b a d) := decode_of_raw ((rawDecode_2b _ (opOf_wordR ..)).trans (by
  simp (disch := omega) only [encode, wordEpush, rawMessage, fields_wordR, BitVec.toNat_ofNat, Nat.reducePow, Nat.reduceMod]))
theorem epop (d : BitVec 7) : Statement (.epop d) := decode_of_raw ((rawDecode_2b _ (opOf_wordR ..)).trans (by
  simp (disch := omega) only [encode, wordEpop, rawMessage, fields_wordR, BitVec.toNat_ofNat, Nat.reducePow, Nat.reduceMod]))
theorem grpPut (b : BitVec 7) (a : BitVec 7) (d : BitVec 7) : Statement (.grpPut b a d) := decode_of_raw ((rawDecode_2b _ (opOf_wordR ..)).trans (by
  simp (disch := omega) only [encode, wordGrpPut, rawMessage, fields_wordR, BitVec.toNat_ofNat, Nat.reducePow, Nat.reduceMod]))
theorem grpGet (a : BitVec 7) (d : BitVec 7) : Statement (.grpGet a d) := decode_of_raw ((rawDecode_2b _ (opOf_wordR ..)).trans (by
  simp (disch := omega) only [encode, wordGrpGet, rawMessage, fields_wordR, BitVec.toNat_ofNat, Nat.reducePow, Nat.reduceMod]))
theorem mcst (b : BitVec 7) (a : BitVec 7) (d : BitVec 7) : Statement (.mcst b a d) := decode_of_raw ((rawDecode_2b _ (opOf_wordR ..)).trans (by
  simp (disch := omega) only [encode, wordMcst, rawMessage, fields_wordR, BitVec.toNat_ofNat, Nat.reducePow, Nat.reduceMod]))
theorem lnkSend (b : BitVec 7) (a : BitVec 7) (d : BitVec 7) : Statement (.lnkSend b a d) := decode_of_raw ((rawDecode_2b _ (opOf_wordR ..)).trans (by
  simp (disch := omega) only [encode, wordLnkSend, rawMessage, fields_wordR, BitVec.toNat_ofNat, Nat.reducePow, Nat.reduceMod]))
theorem lnkRecv (d : BitVec 7) : Statement (.lnkRecv d) := decode_of_raw ((rawDecode_2b _ (opOf_wordR ..)).trans (by
  simp (disch := omega) only [encode, wordLnkRecv, rawMessage, fields_wordR, BitVec.toNat_ofNat, Nat.reducePow, Nat.reduceMod]))
theorem seqRd (a : BitVec 7) (d : BitVec 7) : Statement (.seqRd a d) := decode_of_raw ((rawDecode_2b _ (opOf_wordR ..)).trans (by
  simp (disch := omega) only [encode, wordSeqRd, rawMessage, fields_wordR, BitVec.toNat_ofNat, Nat.reducePow, Nat.reduceMod]))
theorem mbSend (b : BitVec 7) (a : BitVec 7) : Statement (.mbSend b a) := decode_of_raw ((rawDecode_2b _ (opOf_wordR ..)).trans (by
  simp (disch := omega) only [encode, wordMbSend, rawMessage, fields_wordR, BitVec.toNat_ofNat, Nat.reducePow, Nat.reduceMod]))
theorem mbPeek (d : BitVec 7) : Statement (.mbPeek d) := decode_of_raw ((rawDecode_2b _ (opOf_wordR ..)).trans (by
  simp (disch := omega) only [encode, wordMbPeek, rawMessage, fields_wordR, BitVec.toNat_ofNat, Nat.reducePow, Nat.reduceMod]))
theorem mbCount (d : BitVec 7) : Statement (.mbCount d) := decode_of_raw ((rawDecode_2b _ (opOf_wordR ..)).trans (by
  simp (disch := omega) only [encode, wordMbCount, rawMessage, fields_wordR, BitVec.toNat_ofNat, Nat.reducePow, Nat.reduceMod]))
theorem amoAdd (b : BitVec 7) (a : BitVec 7) (d : BitVec 7) : Statement (.amoAdd b a d) := decode_of_raw ((rawDecode_2f _ (opOf_wordR ..)).trans (by
  simp (disch := omega) only [encode, wordAmoAdd, rawAmo, fields_wordR, BitVec.toNat_ofNat, Nat.reducePow, Nat.reduceMod]))
theorem amoAnd (b : BitVec 7) (a : BitVec 7) (d : BitVec 7) : Statement (.amoAnd b a d) := decode_of_raw ((rawDecode_2f _ (opOf_wordR ..)).trans (by
  simp (disch := omega) only [encode, wordAmoAnd, rawAmo, fields_wordR, BitVec.toNat_ofNat, Nat.reducePow, Nat.reduceMod]))
theorem amoOr (b : BitVec 7) (a : BitVec 7) (d : BitVec 7) : Statement (.amoOr b a d) := decode_of_raw ((rawDecode_2f _ (opOf_wordR ..)).trans (by
  simp (disch := omega) only [encode, wordAmoOr, rawAmo, fields_wordR, BitVec.toNat_ofNat, Nat.reducePow, Nat.reduceMod]))
theorem amoXor (b : BitVec 7) (a : BitVec 7) (d : BitVec 7) : Statement (.amoXor b a d) := decode_of_raw ((rawDecode_2f _ (opOf_wordR ..)).trans (by
  simp (disch := omega) only [encode, wordAmoXor, rawAmo, fields_wordR, BitVec.toNat_ofNat, Nat.reducePow, Nat.reduceMod]))
theorem amoMin (b : BitVec 7) (a : BitVec 7) (d : BitVec 7) : Statement (.amoMin b a d) := decode_of_raw ((rawDecode_2f _ (opOf_wordR ..)).trans (by
  simp (disch := omega) only [encode, wordAmoMin, rawAmo, fields_wordR, BitVec.toNat_ofNat, Nat.reducePow, Nat.reduceMod]))
theorem amoMax (b : BitVec 7) (a : BitVec 7) (d : BitVec 7) : Statement (.amoMax b a d) := decode_of_raw ((rawDecode_2f _ (opOf_wordR ..)).trans (by
  simp (disch := omega) only [encode, wordAmoMax, rawAmo, fields_wordR, BitVec.toNat_ofNat, Nat.reducePow, Nat.reduceMod]))
theorem amoMinu (b : BitVec 7) (a : BitVec 7) (d : BitVec 7) : Statement (.amoMinu b a d) := decode_of_raw ((rawDecode_2f _ (opOf_wordR ..)).trans (by
  simp (disch := omega) only [encode, wordAmoMinu, rawAmo, fields_wordR, BitVec.toNat_ofNat, Nat.reducePow, Nat.reduceMod]))
theorem amoMaxu (b : BitVec 7) (a : BitVec 7) (d : BitVec 7) : Statement (.amoMaxu b a d) := decode_of_raw ((rawDecode_2f _ (opOf_wordR ..)).trans (by
  simp (disch := omega) only [encode, wordAmoMaxu, rawAmo, fields_wordR, BitVec.toNat_ofNat, Nat.reducePow, Nat.reduceMod]))
theorem amoSwap (b : BitVec 7) (a : BitVec 7) (d : BitVec 7) : Statement (.amoSwap b a d) := decode_of_raw ((rawDecode_2f _ (opOf_wordR ..)).trans (by
  simp (disch := omega) only [encode, wordAmoSwap, rawAmo, fields_wordR, BitVec.toNat_ofNat, Nat.reducePow, Nat.reduceMod]))
theorem amoCas (b : BitVec 7) (a : BitVec 7) (d : BitVec 7) : Statement (.amoCas b a d) := decode_of_raw ((rawDecode_2f _ (opOf_wordR ..)).trans (by
  simp (disch := omega) only [encode, wordAmoCas, rawAmo, fields_wordR, BitVec.toNat_ofNat, Nat.reducePow, Nat.reduceMod]))
theorem amoFadd (b : BitVec 7) (a : BitVec 7) (d : BitVec 7) : Statement (.amoFadd b a d) := decode_of_raw ((rawDecode_2f _ (opOf_wordR ..)).trans (by
  simp (disch := omega) only [encode, wordAmoFadd, rawAmo, fields_wordR, BitVec.toNat_ofNat, Nat.reducePow, Nat.reduceMod]))
theorem redAdd (b : BitVec 7) (a : BitVec 7) : Statement (.redAdd b a) := decode_of_raw ((rawDecode_2f _ (opOf_wordR ..)).trans (by
  simp (disch := omega) only [encode, wordRedAdd, rawAmo, fields_wordR, BitVec.toNat_ofNat, Nat.reducePow, Nat.reduceMod]))
theorem redMin (b : BitVec 7) (a : BitVec 7) : Statement (.redMin b a) := decode_of_raw ((rawDecode_2f _ (opOf_wordR ..)).trans (by
  simp (disch := omega) only [encode, wordRedMin, rawAmo, fields_wordR, BitVec.toNat_ofNat, Nat.reducePow, Nat.reduceMod]))
theorem redMax (b : BitVec 7) (a : BitVec 7) : Statement (.redMax b a) := decode_of_raw ((rawDecode_2f _ (opOf_wordR ..)).trans (by
  simp (disch := omega) only [encode, wordRedMax, rawAmo, fields_wordR, BitVec.toNat_ofNat, Nat.reducePow, Nat.reduceMod]))
theorem redFadd (b : BitVec 7) (a : BitVec 7) : Statement (.redFadd b a) := decode_of_raw ((rawDecode_2f _ (opOf_wordR ..)).trans (by
  simp (disch := omega) only [encode, wordRedFadd, rawAmo, fields_wordR, BitVec.toNat_ofNat, Nat.reducePow, Nat.reduceMod]))
theorem redVat (b : BitVec 7) (a : BitVec 7) (d : BitVec 7) : Statement (.redVat b a d) := decode_of_raw ((rawDecode_2f _ (opOf_wordR ..)).trans (by
  simp (disch := omega) only [encode, wordRedVat, rawAmo, fields_wordR, BitVec.toNat_ofNat, Nat.reducePow, Nat.reduceMod]))
theorem add (b : BitVec 7) (a : BitVec 7) (d : BitVec 7) : Statement (.add b a d) := decode_of_raw ((rawDecode_33 _ (opOf_wordR ..)).trans (by
  simp (disch := omega) only [encode, wordAdd, rawOp, fields_wordR, BitVec.toNat_ofNat, Nat.reducePow, Nat.reduceMod]))
theorem sub (b : BitVec 7) (a : BitVec 7) (d : BitVec 7) : Statement (.sub b a d) := decode_of_raw ((rawDecode_33 _ (opOf_wordR ..)).trans (by
  simp (disch := omega) only [encode, wordSub, rawOp, fields_wordR, BitVec.toNat_ofNat, Nat.reducePow, Nat.reduceMod]))
theorem and (b : BitVec 7) (a : BitVec 7) (d : BitVec 7) : Statement (.and b a d) := decode_of_raw ((rawDecode_33 _ (opOf_wordR ..)).trans (by
  simp (disch := omega) only [encode, wordAnd, rawOp, fields_wordR, BitVec.toNat_ofNat, Nat.reducePow, Nat.reduceMod]))
theorem or (b : BitVec 7) (a : BitVec 7) (d : BitVec 7) : Statement (.or b a d) := decode_of_raw ((rawDecode_33 _ (opOf_wordR ..)).trans (by
  simp (disch := omega) only [encode, wordOr, rawOp, fields_wordR, BitVec.toNat_ofNat, Nat.reducePow, Nat.reduceMod]))
theorem xor (b : BitVec 7) (a : BitVec 7) (d : BitVec 7) : Statement (.xor b a d) := decode_of_raw ((rawDecode_33 _ (opOf_wordR ..)).trans (by
  simp (disch := omega) only [encode, wordXor, rawOp, fields_wordR, BitVec.toNat_ofNat, Nat.reducePow, Nat.reduceMod]))
theorem andn (b : BitVec 7) (a : BitVec 7) (d : BitVec 7) : Statement (.andn b a d) := decode_of_raw ((rawDecode_33 _ (opOf_wordR ..)).trans (by
  simp (disch := omega) only [encode, wordAndn, rawOp, fields_wordR, BitVec.toNat_ofNat, Nat.reducePow, Nat.reduceMod]))
theorem sll (b : BitVec 7) (a : BitVec 7) (d : BitVec 7) : Statement (.sll b a d) := decode_of_raw ((rawDecode_33 _ (opOf_wordR ..)).trans (by
  simp (disch := omega) only [encode, wordSll, rawOp, fields_wordR, BitVec.toNat_ofNat, Nat.reducePow, Nat.reduceMod]))
theorem srl (b : BitVec 7) (a : BitVec 7) (d : BitVec 7) : Statement (.srl b a d) := decode_of_raw ((rawDecode_33 _ (opOf_wordR ..)).trans (by
  simp (disch := omega) only [encode, wordSrl, rawOp, fields_wordR, BitVec.toNat_ofNat, Nat.reducePow, Nat.reduceMod]))
theorem sra (b : BitVec 7) (a : BitVec 7) (d : BitVec 7) : Statement (.sra b a d) := decode_of_raw ((rawDecode_33 _ (opOf_wordR ..)).trans (by
  simp (disch := omega) only [encode, wordSra, rawOp, fields_wordR, BitVec.toNat_ofNat, Nat.reducePow, Nat.reduceMod]))
theorem ror (b : BitVec 7) (a : BitVec 7) (d : BitVec 7) : Statement (.ror b a d) := decode_of_raw ((rawDecode_33 _ (opOf_wordR ..)).trans (by
  simp (disch := omega) only [encode, wordRor, rawOp, fields_wordR, BitVec.toNat_ofNat, Nat.reducePow, Nat.reduceMod]))
theorem slt (b : BitVec 7) (a : BitVec 7) (d : BitVec 7) : Statement (.slt b a d) := decode_of_raw ((rawDecode_33 _ (opOf_wordR ..)).trans (by
  simp (disch := omega) only [encode, wordSlt, rawOp, fields_wordR, BitVec.toNat_ofNat, Nat.reducePow, Nat.reduceMod]))
theorem sltu (b : BitVec 7) (a : BitVec 7) (d : BitVec 7) : Statement (.sltu b a d) := decode_of_raw ((rawDecode_33 _ (opOf_wordR ..)).trans (by
  simp (disch := omega) only [encode, wordSltu, rawOp, fields_wordR, BitVec.toNat_ofNat, Nat.reducePow, Nat.reduceMod]))
theorem min (b : BitVec 7) (a : BitVec 7) (d : BitVec 7) : Statement (.min b a d) := decode_of_raw ((rawDecode_33 _ (opOf_wordR ..)).trans (by
  simp (disch := omega) only [encode, wordMin, rawOp, fields_wordR, BitVec.toNat_ofNat, Nat.reducePow, Nat.reduceMod]))
theorem max (b : BitVec 7) (a : BitVec 7) (d : BitVec 7) : Statement (.max b a d) := decode_of_raw ((rawDecode_33 _ (opOf_wordR ..)).trans (by
  simp (disch := omega) only [encode, wordMax, rawOp, fields_wordR, BitVec.toNat_ofNat, Nat.reducePow, Nat.reduceMod]))
theorem minu (b : BitVec 7) (a : BitVec 7) (d : BitVec 7) : Statement (.minu b a d) := decode_of_raw ((rawDecode_33 _ (opOf_wordR ..)).trans (by
  simp (disch := omega) only [encode, wordMinu, rawOp, fields_wordR, BitVec.toNat_ofNat, Nat.reducePow, Nat.reduceMod]))
theorem maxu (b : BitVec 7) (a : BitVec 7) (d : BitVec 7) : Statement (.maxu b a d) := decode_of_raw ((rawDecode_33 _ (opOf_wordR ..)).trans (by
  simp (disch := omega) only [encode, wordMaxu, rawOp, fields_wordR, BitVec.toNat_ofNat, Nat.reducePow, Nat.reduceMod]))
theorem mul (b : BitVec 7) (a : BitVec 7) (d : BitVec 7) : Statement (.mul b a d) := decode_of_raw ((rawDecode_3b _ (opOf_wordR ..)).trans (by
  simp (disch := omega) only [encode, wordMul, rawMul, fields_wordR, BitVec.toNat_ofNat, Nat.reducePow, Nat.reduceMod]))
theorem mulh (b : BitVec 7) (a : BitVec 7) (d : BitVec 7) : Statement (.mulh b a d) := decode_of_raw ((rawDecode_3b _ (opOf_wordR ..)).trans (by
  simp (disch := omega) only [encode, wordMulh, rawMul, fields_wordR, BitVec.toNat_ofNat, Nat.reducePow, Nat.reduceMod]))
theorem mulhu (b : BitVec 7) (a : BitVec 7) (d : BitVec 7) : Statement (.mulhu b a d) := decode_of_raw ((rawDecode_3b _ (opOf_wordR ..)).trans (by
  simp (disch := omega) only [encode, wordMulhu, rawMul, fields_wordR, BitVec.toNat_ofNat, Nat.reducePow, Nat.reduceMod]))
theorem mulhsu (b : BitVec 7) (a : BitVec 7) (d : BitVec 7) : Statement (.mulhsu b a d) := decode_of_raw ((rawDecode_3b _ (opOf_wordR ..)).trans (by
  simp (disch := omega) only [encode, wordMulhsu, rawMul, fields_wordR, BitVec.toNat_ofNat, Nat.reducePow, Nat.reduceMod]))
theorem div (b : BitVec 7) (a : BitVec 7) (d : BitVec 7) : Statement (.div b a d) := decode_of_raw ((rawDecode_3b _ (opOf_wordR ..)).trans (by
  simp (disch := omega) only [encode, wordDiv, rawMul, fields_wordR, BitVec.toNat_ofNat, Nat.reducePow, Nat.reduceMod]))
theorem divu (b : BitVec 7) (a : BitVec 7) (d : BitVec 7) : Statement (.divu b a d) := decode_of_raw ((rawDecode_3b _ (opOf_wordR ..)).trans (by
  simp (disch := omega) only [encode, wordDivu, rawMul, fields_wordR, BitVec.toNat_ofNat, Nat.reducePow, Nat.reduceMod]))
theorem rem (b : BitVec 7) (a : BitVec 7) (d : BitVec 7) : Statement (.rem b a d) := decode_of_raw ((rawDecode_3b _ (opOf_wordR ..)).trans (by
  simp (disch := omega) only [encode, wordRem, rawMul, fields_wordR, BitVec.toNat_ofNat, Nat.reducePow, Nat.reduceMod]))
theorem remu (b : BitVec 7) (a : BitVec 7) (d : BitVec 7) : Statement (.remu b a d) := decode_of_raw ((rawDecode_3b _ (opOf_wordR ..)).trans (by
  simp (disch := omega) only [encode, wordRemu, rawMul, fields_wordR, BitVec.toNat_ofNat, Nat.reducePow, Nat.reduceMod]))
theorem clz (a : BitVec 7) (d : BitVec 7) : Statement (.clz a d) := decode_of_raw ((rawDecode_3f _ (opOf_wordR ..)).trans (by
  simp (disch := omega) only [encode, wordClz, rawBit, fields_wordR, BitVec.toNat_ofNat, Nat.reducePow, Nat.reduceMod]))
theorem ctz (a : BitVec 7) (d : BitVec 7) : Statement (.ctz a d) := decode_of_raw ((rawDecode_3f _ (opOf_wordR ..)).trans (by
  simp (disch := omega) only [encode, wordCtz, rawBit, fields_wordR, BitVec.toNat_ofNat, Nat.reducePow, Nat.reduceMod]))
theorem cpop (a : BitVec 7) (d : BitVec 7) : Statement (.cpop a d) := decode_of_raw ((rawDecode_3f _ (opOf_wordR ..)).trans (by
  simp (disch := omega) only [encode, wordCpop, rawBit, fields_wordR, BitVec.toNat_ofNat, Nat.reducePow, Nat.reduceMod]))
theorem sextb (a : BitVec 7) (d : BitVec 7) : Statement (.sextb a d) := decode_of_raw ((rawDecode_3f _ (opOf_wordR ..)).trans (by
  simp (disch := omega) only [encode, wordSextb, rawBit, fields_wordR, BitVec.toNat_ofNat, Nat.reducePow, Nat.reduceMod]))
theorem sexth (a : BitVec 7) (d : BitVec 7) : Statement (.sexth a d) := decode_of_raw ((rawDecode_3f _ (opOf_wordR ..)).trans (by
  simp (disch := omega) only [encode, wordSexth, rawBit, fields_wordR, BitVec.toNat_ofNat, Nat.reducePow, Nat.reduceMod]))
theorem sextw (a : BitVec 7) (d : BitVec 7) : Statement (.sextw a d) := decode_of_raw ((rawDecode_3f _ (opOf_wordR ..)).trans (by
  simp (disch := omega) only [encode, wordSextw, rawBit, fields_wordR, BitVec.toNat_ofNat, Nat.reducePow, Nat.reduceMod]))
theorem zextw (a : BitVec 7) (d : BitVec 7) : Statement (.zextw a d) := decode_of_raw ((rawDecode_3f _ (opOf_wordR ..)).trans (by
  simp (disch := omega) only [encode, wordZextw, rawBit, fields_wordR, BitVec.toNat_ofNat, Nat.reducePow, Nat.reduceMod]))
theorem bswap (a : BitVec 7) (d : BitVec 7) : Statement (.bswap a d) := decode_of_raw ((rawDecode_3f _ (opOf_wordR ..)).trans (by
  simp (disch := omega) only [encode, wordBswap, rawBit, fields_wordR, BitVec.toNat_ofNat, Nat.reducePow, Nat.reduceMod]))
theorem bfx (b : BitVec 7) (a : BitVec 7) (d : BitVec 7) : Statement (.bfx b a d) := decode_of_raw ((rawDecode_3f _ (opOf_wordR ..)).trans (by
  simp (disch := omega) only [encode, wordBfx, rawBit, fields_wordR, BitVec.toNat_ofNat, Nat.reducePow, Nat.reduceMod]))
theorem bfxu (b : BitVec 7) (a : BitVec 7) (d : BitVec 7) : Statement (.bfxu b a d) := decode_of_raw ((rawDecode_3f _ (opOf_wordR ..)).trans (by
  simp (disch := omega) only [encode, wordBfxu, rawBit, fields_wordR, BitVec.toNat_ofNat, Nat.reducePow, Nat.reduceMod]))
theorem bfi (b : BitVec 7) (a : BitVec 7) (d : BitVec 7) : Statement (.bfi b a d) := decode_of_raw ((rawDecode_3f _ (opOf_wordR ..)).trans (by
  simp (disch := omega) only [encode, wordBfi, rawBit, fields_wordR, BitVec.toNat_ofNat, Nat.reducePow, Nat.reduceMod]))
theorem faddS (b : BitVec 7) (a : BitVec 7) (d : BitVec 7) : Statement (.faddS b a d) := decode_of_raw ((rawDecode_43 _ (opOf_wordR ..)).trans (by
  simp (disch := omega) only [encode, wordFaddS, rawFltS, fields_wordR, BitVec.toNat_ofNat, Nat.reducePow, Nat.reduceMod]))
theorem fsubS (b : BitVec 7) (a : BitVec 7) (d : BitVec 7) : Statement (.fsubS b a d) := decode_of_raw ((rawDecode_43 _ (opOf_wordR ..)).trans (by
  simp (disch := omega) only [encode, wordFsubS, rawFltS, fields_wordR, BitVec.toNat_ofNat, Nat.reducePow, Nat.reduceMod]))
theorem fmulS (b : BitVec 7) (a : BitVec 7) (d : BitVec 7) : Statement (.fmulS b a d) := decode_of_raw ((rawDecode_43 _ (opOf_wordR ..)).trans (by
  simp (disch := omega) only [encode, wordFmulS, rawFltS, fields_wordR, BitVec.toNat_ofNat, Nat.reducePow, Nat.reduceMod]))
theorem fdivS (b : BitVec 7) (a : BitVec 7) (d : BitVec 7) : Statement (.fdivS b a d) := decode_of_raw ((rawDecode_43 _ (opOf_wordR ..)).trans (by
  simp (disch := omega) only [encode, wordFdivS, rawFltS, fields_wordR, BitVec.toNat_ofNat, Nat.reducePow, Nat.reduceMod]))
theorem fminS (b : BitVec 7) (a : BitVec 7) (d : BitVec 7) : Statement (.fminS b a d) := decode_of_raw ((rawDecode_43 _ (opOf_wordR ..)).trans (by
  simp (disch := omega) only [encode, wordFminS, rawFltS, fields_wordR, BitVec.toNat_ofNat, Nat.reducePow, Nat.reduceMod]))
theorem fmaxS (b : BitVec 7) (a : BitVec 7) (d : BitVec 7) : Statement (.fmaxS b a d) := decode_of_raw ((rawDecode_43 _ (opOf_wordR ..)).trans (by
  simp (disch := omega) only [encode, wordFmaxS, rawFltS, fields_wordR, BitVec.toNat_ofNat, Nat.reducePow, Nat.reduceMod]))
theorem fsqrtS (a : BitVec 7) (d : BitVec 7) : Statement (.fsqrtS a d) := decode_of_raw ((rawDecode_43 _ (opOf_wordR ..)).trans (by
  simp (disch := omega) only [encode, wordFsqrtS, rawFltS, fields_wordR, BitVec.toNat_ofNat, Nat.reducePow, Nat.reduceMod]))
theorem fcvtSI (a : BitVec 7) (d : BitVec 7) : Statement (.fcvtSI a d) := decode_of_raw ((rawDecode_43 _ (opOf_wordR ..)).trans (by
  simp (disch := omega) only [encode, wordFcvtSI, rawFltS, fields_wordR, BitVec.toNat_ofNat, Nat.reducePow, Nat.reduceMod]))
theorem fcvtSN (a : BitVec 7) (d : BitVec 7) : Statement (.fcvtSN a d) := decode_of_raw ((rawDecode_43 _ (opOf_wordR ..)).trans (by
  simp (disch := omega) only [encode, wordFcvtSN, rawFltS, fields_wordR, BitVec.toNat_ofNat, Nat.reducePow, Nat.reduceMod]))
theorem fcvtIS (a : BitVec 7) (d : BitVec 7) : Statement (.fcvtIS a d) := decode_of_raw ((rawDecode_43 _ (opOf_wordR ..)).trans (by
  simp (disch := omega) only [encode, wordFcvtIS, rawFltS, fields_wordR, BitVec.toNat_ofNat, Nat.reducePow, Nat.reduceMod]))
theorem fcvtNS (a : BitVec 7) (d : BitVec 7) : Statement (.fcvtNS a d) := decode_of_raw ((rawDecode_43 _ (opOf_wordR ..)).trans (by
  simp (disch := omega) only [encode, wordFcvtNS, rawFltS, fields_wordR, BitVec.toNat_ofNat, Nat.reducePow, Nat.reduceMod]))
theorem fcvtWS (a : BitVec 7) (d : BitVec 7) : Statement (.fcvtWS a d) := decode_of_raw ((rawDecode_43 _ (opOf_wordR ..)).trans (by
  simp (disch := omega) only [encode, wordFcvtWS, rawFltS, fields_wordR, BitVec.toNat_ofNat, Nat.reducePow, Nat.reduceMod]))
theorem fcvtNwS (a : BitVec 7) (d : BitVec 7) : Statement (.fcvtNwS a d) := decode_of_raw ((rawDecode_43 _ (opOf_wordR ..)).trans (by
  simp (disch := omega) only [encode, wordFcvtNwS, rawFltS, fields_wordR, BitVec.toNat_ofNat, Nat.reducePow, Nat.reduceMod]))
theorem fcvtSD (a : BitVec 7) (d : BitVec 7) : Statement (.fcvtSD a d) := decode_of_raw ((rawDecode_43 _ (opOf_wordR ..)).trans (by
  simp (disch := omega) only [encode, wordFcvtSD, rawFltS, fields_wordR, BitVec.toNat_ofNat, Nat.reducePow, Nat.reduceMod]))
theorem fcvtSB (a : BitVec 7) (d : BitVec 7) : Statement (.fcvtSB a d) := decode_of_raw ((rawDecode_43 _ (opOf_wordR ..)).trans (by
  simp (disch := omega) only [encode, wordFcvtSB, rawFltS, fields_wordR, BitVec.toNat_ofNat, Nat.reducePow, Nat.reduceMod]))
theorem fcvtBS (a : BitVec 7) (d : BitVec 7) : Statement (.fcvtBS a d) := decode_of_raw ((rawDecode_43 _ (opOf_wordR ..)).trans (by
  simp (disch := omega) only [encode, wordFcvtBS, rawFltS, fields_wordR, BitVec.toNat_ofNat, Nat.reducePow, Nat.reduceMod]))
theorem fclassS (a : BitVec 7) (d : BitVec 7) : Statement (.fclassS a d) := decode_of_raw ((rawDecode_43 _ (opOf_wordR ..)).trans (by
  simp (disch := omega) only [encode, wordFclassS, rawFltS, fields_wordR, BitVec.toNat_ofNat, Nat.reducePow, Nat.reduceMod]))
theorem feqS (b : BitVec 7) (a : BitVec 7) (d : BitVec 7) : Statement (.feqS b a d) := decode_of_raw ((rawDecode_43 _ (opOf_wordR ..)).trans (by
  simp (disch := omega) only [encode, wordFeqS, rawFltS, fields_wordR, BitVec.toNat_ofNat, Nat.reducePow, Nat.reduceMod]))
theorem fltS (b : BitVec 7) (a : BitVec 7) (d : BitVec 7) : Statement (.fltS b a d) := decode_of_raw ((rawDecode_43 _ (opOf_wordR ..)).trans (by
  simp (disch := omega) only [encode, wordFltS, rawFltS, fields_wordR, BitVec.toNat_ofNat, Nat.reducePow, Nat.reduceMod]))
theorem fleS (b : BitVec 7) (a : BitVec 7) (d : BitVec 7) : Statement (.fleS b a d) := decode_of_raw ((rawDecode_43 _ (opOf_wordR ..)).trans (by
  simp (disch := omega) only [encode, wordFleS, rawFltS, fields_wordR, BitVec.toNat_ofNat, Nat.reducePow, Nat.reduceMod]))
theorem ffmaS (b : BitVec 7) (a : BitVec 7) (d : BitVec 7) : Statement (.ffmaS b a d) := decode_of_raw ((rawDecode_43 _ (opOf_wordR ..)).trans (by
  simp (disch := omega) only [encode, wordFfmaS, rawFltS, fields_wordR, BitVec.toNat_ofNat, Nat.reducePow, Nat.reduceMod]))
theorem ffmsS (b : BitVec 7) (a : BitVec 7) (d : BitVec 7) : Statement (.ffmsS b a d) := decode_of_raw ((rawDecode_43 _ (opOf_wordR ..)).trans (by
  simp (disch := omega) only [encode, wordFfmsS, rawFltS, fields_wordR, BitVec.toNat_ofNat, Nat.reducePow, Nat.reduceMod]))
theorem fsgnjS (b : BitVec 7) (a : BitVec 7) (d : BitVec 7) : Statement (.fsgnjS b a d) := decode_of_raw ((rawDecode_43 _ (opOf_wordR ..)).trans (by
  simp (disch := omega) only [encode, wordFsgnjS, rawFltS, fields_wordR, BitVec.toNat_ofNat, Nat.reducePow, Nat.reduceMod]))
theorem faddD (b : BitVec 7) (a : BitVec 7) (d : BitVec 7) : Statement (.faddD b a d) := decode_of_raw ((rawDecode_47 _ (opOf_wordR ..)).trans (by
  simp (disch := omega) only [encode, wordFaddD, rawFltD, fields_wordR, BitVec.toNat_ofNat, Nat.reducePow, Nat.reduceMod]))
theorem fsubD (b : BitVec 7) (a : BitVec 7) (d : BitVec 7) : Statement (.fsubD b a d) := decode_of_raw ((rawDecode_47 _ (opOf_wordR ..)).trans (by
  simp (disch := omega) only [encode, wordFsubD, rawFltD, fields_wordR, BitVec.toNat_ofNat, Nat.reducePow, Nat.reduceMod]))
theorem fmulD (b : BitVec 7) (a : BitVec 7) (d : BitVec 7) : Statement (.fmulD b a d) := decode_of_raw ((rawDecode_47 _ (opOf_wordR ..)).trans (by
  simp (disch := omega) only [encode, wordFmulD, rawFltD, fields_wordR, BitVec.toNat_ofNat, Nat.reducePow, Nat.reduceMod]))
theorem fdivD (b : BitVec 7) (a : BitVec 7) (d : BitVec 7) : Statement (.fdivD b a d) := decode_of_raw ((rawDecode_47 _ (opOf_wordR ..)).trans (by
  simp (disch := omega) only [encode, wordFdivD, rawFltD, fields_wordR, BitVec.toNat_ofNat, Nat.reducePow, Nat.reduceMod]))
theorem fminD (b : BitVec 7) (a : BitVec 7) (d : BitVec 7) : Statement (.fminD b a d) := decode_of_raw ((rawDecode_47 _ (opOf_wordR ..)).trans (by
  simp (disch := omega) only [encode, wordFminD, rawFltD, fields_wordR, BitVec.toNat_ofNat, Nat.reducePow, Nat.reduceMod]))
theorem fmaxD (b : BitVec 7) (a : BitVec 7) (d : BitVec 7) : Statement (.fmaxD b a d) := decode_of_raw ((rawDecode_47 _ (opOf_wordR ..)).trans (by
  simp (disch := omega) only [encode, wordFmaxD, rawFltD, fields_wordR, BitVec.toNat_ofNat, Nat.reducePow, Nat.reduceMod]))
theorem fsqrtD (a : BitVec 7) (d : BitVec 7) : Statement (.fsqrtD a d) := decode_of_raw ((rawDecode_47 _ (opOf_wordR ..)).trans (by
  simp (disch := omega) only [encode, wordFsqrtD, rawFltD, fields_wordR, BitVec.toNat_ofNat, Nat.reducePow, Nat.reduceMod]))
theorem fcvtDI (a : BitVec 7) (d : BitVec 7) : Statement (.fcvtDI a d) := decode_of_raw ((rawDecode_47 _ (opOf_wordR ..)).trans (by
  simp (disch := omega) only [encode, wordFcvtDI, rawFltD, fields_wordR, BitVec.toNat_ofNat, Nat.reducePow, Nat.reduceMod]))
theorem fcvtDN (a : BitVec 7) (d : BitVec 7) : Statement (.fcvtDN a d) := decode_of_raw ((rawDecode_47 _ (opOf_wordR ..)).trans (by
  simp (disch := omega) only [encode, wordFcvtDN, rawFltD, fields_wordR, BitVec.toNat_ofNat, Nat.reducePow, Nat.reduceMod]))
theorem fcvtID (a : BitVec 7) (d : BitVec 7) : Statement (.fcvtID a d) := decode_of_raw ((rawDecode_47 _ (opOf_wordR ..)).trans (by
  simp (disch := omega) only [encode, wordFcvtID, rawFltD, fields_wordR, BitVec.toNat_ofNat, Nat.reducePow, Nat.reduceMod]))
theorem fcvtND (a : BitVec 7) (d : BitVec 7) : Statement (.fcvtND a d) := decode_of_raw ((rawDecode_47 _ (opOf_wordR ..)).trans (by
  simp (disch := omega) only [encode, wordFcvtND, rawFltD, fields_wordR, BitVec.toNat_ofNat, Nat.reducePow, Nat.reduceMod]))
theorem fcvtWD (a : BitVec 7) (d : BitVec 7) : Statement (.fcvtWD a d) := decode_of_raw ((rawDecode_47 _ (opOf_wordR ..)).trans (by
  simp (disch := omega) only [encode, wordFcvtWD, rawFltD, fields_wordR, BitVec.toNat_ofNat, Nat.reducePow, Nat.reduceMod]))
theorem fcvtNwD (a : BitVec 7) (d : BitVec 7) : Statement (.fcvtNwD a d) := decode_of_raw ((rawDecode_47 _ (opOf_wordR ..)).trans (by
  simp (disch := omega) only [encode, wordFcvtNwD, rawFltD, fields_wordR, BitVec.toNat_ofNat, Nat.reducePow, Nat.reduceMod]))
theorem fcvtDS (a : BitVec 7) (d : BitVec 7) : Statement (.fcvtDS a d) := decode_of_raw ((rawDecode_47 _ (opOf_wordR ..)).trans (by
  simp (disch := omega) only [encode, wordFcvtDS, rawFltD, fields_wordR, BitVec.toNat_ofNat, Nat.reducePow, Nat.reduceMod]))
theorem fcvtDB (a : BitVec 7) (d : BitVec 7) : Statement (.fcvtDB a d) := decode_of_raw ((rawDecode_47 _ (opOf_wordR ..)).trans (by
  simp (disch := omega) only [encode, wordFcvtDB, rawFltD, fields_wordR, BitVec.toNat_ofNat, Nat.reducePow, Nat.reduceMod]))
theorem fcvtBD (a : BitVec 7) (d : BitVec 7) : Statement (.fcvtBD a d) := decode_of_raw ((rawDecode_47 _ (opOf_wordR ..)).trans (by
  simp (disch := omega) only [encode, wordFcvtBD, rawFltD, fields_wordR, BitVec.toNat_ofNat, Nat.reducePow, Nat.reduceMod]))
theorem fclassD (a : BitVec 7) (d : BitVec 7) : Statement (.fclassD a d) := decode_of_raw ((rawDecode_47 _ (opOf_wordR ..)).trans (by
  simp (disch := omega) only [encode, wordFclassD, rawFltD, fields_wordR, BitVec.toNat_ofNat, Nat.reducePow, Nat.reduceMod]))
theorem feqD (b : BitVec 7) (a : BitVec 7) (d : BitVec 7) : Statement (.feqD b a d) := decode_of_raw ((rawDecode_47 _ (opOf_wordR ..)).trans (by
  simp (disch := omega) only [encode, wordFeqD, rawFltD, fields_wordR, BitVec.toNat_ofNat, Nat.reducePow, Nat.reduceMod]))
theorem fltD (b : BitVec 7) (a : BitVec 7) (d : BitVec 7) : Statement (.fltD b a d) := decode_of_raw ((rawDecode_47 _ (opOf_wordR ..)).trans (by
  simp (disch := omega) only [encode, wordFltD, rawFltD, fields_wordR, BitVec.toNat_ofNat, Nat.reducePow, Nat.reduceMod]))
theorem fleD (b : BitVec 7) (a : BitVec 7) (d : BitVec 7) : Statement (.fleD b a d) := decode_of_raw ((rawDecode_47 _ (opOf_wordR ..)).trans (by
  simp (disch := omega) only [encode, wordFleD, rawFltD, fields_wordR, BitVec.toNat_ofNat, Nat.reducePow, Nat.reduceMod]))
theorem ffmaD (b : BitVec 7) (a : BitVec 7) (d : BitVec 7) : Statement (.ffmaD b a d) := decode_of_raw ((rawDecode_47 _ (opOf_wordR ..)).trans (by
  simp (disch := omega) only [encode, wordFfmaD, rawFltD, fields_wordR, BitVec.toNat_ofNat, Nat.reducePow, Nat.reduceMod]))
theorem ffmsD (b : BitVec 7) (a : BitVec 7) (d : BitVec 7) : Statement (.ffmsD b a d) := decode_of_raw ((rawDecode_47 _ (opOf_wordR ..)).trans (by
  simp (disch := omega) only [encode, wordFfmsD, rawFltD, fields_wordR, BitVec.toNat_ofNat, Nat.reducePow, Nat.reduceMod]))
theorem fsgnjD (b : BitVec 7) (a : BitVec 7) (d : BitVec 7) : Statement (.fsgnjD b a d) := decode_of_raw ((rawDecode_47 _ (opOf_wordR ..)).trans (by
  simp (disch := omega) only [encode, wordFsgnjD, rawFltD, fields_wordR, BitVec.toNat_ofNat, Nat.reducePow, Nat.reduceMod]))
theorem vadd (g : BitVec 3) (n : BitVec 4) (h : BitVec 3) (m : BitVec 4) (k : BitVec 3) (t : BitVec 4) : Statement (.vadd g n h m k t) := decode_of_raw ((rawDecode_53 _ (opOf_wordR ..)).trans (by
  simp (disch := omega) only [encode, wordVadd, rawVop, fields_wordR, extract_append_high, extract_append_low, extract_all, Nat.reduceSub, BitVec.toNat_ofNat, Nat.reducePow, Nat.reduceMod]))
theorem vsub (g : BitVec 3) (n : BitVec 4) (h : BitVec 3) (m : BitVec 4) (k : BitVec 3) (t : BitVec 4) : Statement (.vsub g n h m k t) := decode_of_raw ((rawDecode_53 _ (opOf_wordR ..)).trans (by
  simp (disch := omega) only [encode, wordVsub, rawVop, fields_wordR, extract_append_high, extract_append_low, extract_all, Nat.reduceSub, BitVec.toNat_ofNat, Nat.reducePow, Nat.reduceMod]))
theorem vmul (g : BitVec 3) (n : BitVec 4) (h : BitVec 3) (m : BitVec 4) (k : BitVec 3) (t : BitVec 4) : Statement (.vmul g n h m k t) := decode_of_raw ((rawDecode_53 _ (opOf_wordR ..)).trans (by
  simp (disch := omega) only [encode, wordVmul, rawVop, fields_wordR, extract_append_high, extract_append_low, extract_all, Nat.reduceSub, BitVec.toNat_ofNat, Nat.reducePow, Nat.reduceMod]))
theorem vfma (g : BitVec 3) (n : BitVec 4) (h : BitVec 3) (m : BitVec 4) (k : BitVec 3) (t : BitVec 4) : Statement (.vfma g n h m k t) := decode_of_raw ((rawDecode_53 _ (opOf_wordR ..)).trans (by
  simp (disch := omega) only [encode, wordVfma, rawVop, fields_wordR, extract_append_high, extract_append_low, extract_all, Nat.reduceSub, BitVec.toNat_ofNat, Nat.reducePow, Nat.reduceMod]))
theorem vfms (g : BitVec 3) (n : BitVec 4) (h : BitVec 3) (m : BitVec 4) (k : BitVec 3) (t : BitVec 4) : Statement (.vfms g n h m k t) := decode_of_raw ((rawDecode_53 _ (opOf_wordR ..)).trans (by
  simp (disch := omega) only [encode, wordVfms, rawVop, fields_wordR, extract_append_high, extract_append_low, extract_all, Nat.reduceSub, BitVec.toNat_ofNat, Nat.reducePow, Nat.reduceMod]))
theorem vmin (g : BitVec 3) (x : BitVec 1) (h : BitVec 3) (m : BitVec 4) (k : BitVec 3) (t : BitVec 4) : Statement (.vmin g x h m k t) := decode_of_raw ((rawDecode_53 _ (opOf_wordR ..)).trans (by
  simp (disch := omega) only [encode, wordVmin, rawVop, fields_wordR, extract_append_high, extract_append_low, extract_all, Nat.reduceSub, BitVec.toNat_ofNat, Nat.reducePow, Nat.reduceMod]))
theorem vmax (g : BitVec 3) (x : BitVec 1) (h : BitVec 3) (m : BitVec 4) (k : BitVec 3) (t : BitVec 4) : Statement (.vmax g x h m k t) := decode_of_raw ((rawDecode_53 _ (opOf_wordR ..)).trans (by
  simp (disch := omega) only [encode, wordVmax, rawVop, fields_wordR, extract_append_high, extract_append_low, extract_all, Nat.reduceSub, BitVec.toNat_ofNat, Nat.reducePow, Nat.reduceMod]))
theorem vand (g : BitVec 3) (x : BitVec 1) (h : BitVec 3) (m : BitVec 4) (k : BitVec 3) (t : BitVec 4) : Statement (.vand g x h m k t) := decode_of_raw ((rawDecode_53 _ (opOf_wordR ..)).trans (by
  simp (disch := omega) only [encode, wordVand, rawVop, fields_wordR, extract_append_high, extract_append_low, extract_all, Nat.reduceSub, BitVec.toNat_ofNat, Nat.reducePow, Nat.reduceMod]))
theorem vor (g : BitVec 3) (x : BitVec 1) (h : BitVec 3) (m : BitVec 4) (k : BitVec 3) (t : BitVec 4) : Statement (.vor g x h m k t) := decode_of_raw ((rawDecode_53 _ (opOf_wordR ..)).trans (by
  simp (disch := omega) only [encode, wordVor, rawVop, fields_wordR, extract_append_high, extract_append_low, extract_all, Nat.reduceSub, BitVec.toNat_ofNat, Nat.reducePow, Nat.reduceMod]))
theorem vxor (g : BitVec 3) (x : BitVec 1) (h : BitVec 3) (m : BitVec 4) (k : BitVec 3) (t : BitVec 4) : Statement (.vxor g x h m k t) := decode_of_raw ((rawDecode_53 _ (opOf_wordR ..)).trans (by
  simp (disch := omega) only [encode, wordVxor, rawVop, fields_wordR, extract_append_high, extract_append_low, extract_all, Nat.reduceSub, BitVec.toNat_ofNat, Nat.reducePow, Nat.reduceMod]))
theorem vshl (g : BitVec 3) (x : BitVec 1) (y : BitVec 1) (h : BitVec 3) (m : BitVec 4) (k : BitVec 3) (t : BitVec 4) : Statement (.vshl g x y h m k t) := decode_of_raw ((rawDecode_53 _ (opOf_wordR ..)).trans (by
  simp (disch := omega) only [encode, wordVshl, rawVop, fields_wordR, extract_append_high, extract_append_low, extract_all, Nat.reduceSub, BitVec.toNat_ofNat, Nat.reducePow, Nat.reduceMod]))
theorem vshr (g : BitVec 3) (x : BitVec 1) (r : BitVec 2) (h : BitVec 3) (m : BitVec 4) (k : BitVec 3) (t : BitVec 4) : Statement (.vshr g x r h m k t) := decode_of_raw ((rawDecode_53 _ (opOf_wordR ..)).trans (by
  simp (disch := omega) only [encode, wordVshr, rawVop, fields_wordR, extract_append_high, extract_append_low, extract_all, Nat.reduceSub, BitVec.toNat_ofNat, Nat.reducePow, Nat.reduceMod]))
theorem vcmp (g : BitVec 3) (x : BitVec 1) (h : BitVec 3) (m : BitVec 4) (t : BitVec 4) : Statement (.vcmp g x h m t) := decode_of_raw ((rawDecode_53 _ (opOf_wordR ..)).trans (by
  simp (disch := omega) only [encode, wordVcmp, rawVop, fields_wordR, extract_append_high, extract_append_low, extract_all, Nat.reduceSub, BitVec.toNat_ofNat, Nat.reducePow, Nat.reduceMod]))
theorem vsel (g : BitVec 3) (h : BitVec 3) (k : BitVec 3) (t : BitVec 4) : Statement (.vsel g h k t) := decode_of_raw ((rawDecode_53 _ (opOf_wordR ..)).trans (by
  simp (disch := omega) only [encode, wordVsel, rawVop, fields_wordR, extract_append_high, extract_append_low, extract_all, Nat.reduceSub, BitVec.toNat_ofNat, Nat.reducePow, Nat.reduceMod]))
theorem vred (y : BitVec 1) (r : BitVec 2) (h : BitVec 3) (m : BitVec 4) (k : BitVec 3) (t : BitVec 4) : Statement (.vred y r h m k t) := decode_of_raw ((rawDecode_53 _ (opOf_wordR ..)).trans (by
  simp (disch := omega) only [encode, wordVred, rawVop, fields_wordR, extract_append_high, extract_append_low, extract_all, Nat.reduceSub, BitVec.toNat_ofNat, Nat.reducePow, Nat.reduceMod]))
theorem vabs (h : BitVec 3) (k : BitVec 3) (t : BitVec 4) : Statement (.vabs h k t) := decode_of_raw ((rawDecode_53 _ (opOf_wordR ..)).trans (by
  simp (disch := omega) only [encode, wordVabs, rawVop, fields_wordR, extract_append_high, extract_append_low, extract_all, Nat.reduceSub, BitVec.toNat_ofNat, Nat.reducePow, Nat.reduceMod]
  rfl))
theorem vneg (h : BitVec 3) (k : BitVec 3) (t : BitVec 4) : Statement (.vneg h k t) := decode_of_raw ((rawDecode_53 _ (opOf_wordR ..)).trans (by
  simp (disch := omega) only [encode, wordVneg, rawVop, fields_wordR, extract_append_high, extract_append_low, extract_all, Nat.reduceSub, BitVec.toNat_ofNat, Nat.reducePow, Nat.reduceMod]
  rfl))
theorem vrcp (h : BitVec 3) (k : BitVec 3) (t : BitVec 4) : Statement (.vrcp h k t) := decode_of_raw ((rawDecode_53 _ (opOf_wordR ..)).trans (by
  simp (disch := omega) only [encode, wordVrcp, rawVop, fields_wordR, extract_append_high, extract_append_low, extract_all, Nat.reduceSub, BitVec.toNat_ofNat, Nat.reducePow, Nat.reduceMod]
  rfl))
theorem vrsq (h : BitVec 3) (k : BitVec 3) (t : BitVec 4) : Statement (.vrsq h k t) := decode_of_raw ((rawDecode_53 _ (opOf_wordR ..)).trans (by
  simp (disch := omega) only [encode, wordVrsq, rawVop, fields_wordR, extract_append_high, extract_append_low, extract_all, Nat.reduceSub, BitVec.toNat_ofNat, Nat.reducePow, Nat.reduceMod]
  rfl))
theorem vexp2 (h : BitVec 3) (k : BitVec 3) (t : BitVec 4) : Statement (.vexp2 h k t) := decode_of_raw ((rawDecode_53 _ (opOf_wordR ..)).trans (by
  simp (disch := omega) only [encode, wordVexp2, rawVop, fields_wordR, extract_append_high, extract_append_low, extract_all, Nat.reduceSub, BitVec.toNat_ofNat, Nat.reducePow, Nat.reduceMod]
  rfl))
theorem vlog2 (h : BitVec 3) (k : BitVec 3) (t : BitVec 4) : Statement (.vlog2 h k t) := decode_of_raw ((rawDecode_53 _ (opOf_wordR ..)).trans (by
  simp (disch := omega) only [encode, wordVlog2, rawVop, fields_wordR, extract_append_high, extract_append_low, extract_all, Nat.reduceSub, BitVec.toNat_ofNat, Nat.reducePow, Nat.reduceMod]
  rfl))
theorem vbcast (h : BitVec 3) (k : BitVec 3) (t : BitVec 4) : Statement (.vbcast h k t) := decode_of_raw ((rawDecode_53 _ (opOf_wordR ..)).trans (by
  simp (disch := omega) only [encode, wordVbcast, rawVop, fields_wordR, extract_append_high, extract_append_low, extract_all, Nat.reduceSub, BitVec.toNat_ofNat, Nat.reducePow, Nat.reduceMod]
  rfl))
theorem vsqn (h : BitVec 3) (k : BitVec 3) (t : BitVec 4) : Statement (.vsqn h k t) := decode_of_raw ((rawDecode_53 _ (opOf_wordR ..)).trans (by
  simp (disch := omega) only [encode, wordVsqn, rawVop, fields_wordR, extract_append_high, extract_append_low, extract_all, Nat.reduceSub, BitVec.toNat_ofNat, Nat.reducePow, Nat.reduceMod]
  rfl))
theorem vcvt (n : BitVec 4) (h : BitVec 3) (m : BitVec 4) (k : BitVec 3) (t : BitVec 4) : Statement (.vcvt n h m k t) := decode_of_raw ((rawDecode_57 _ (opOf_wordR ..)).trans (by
  simp (disch := omega) only [encode, wordVcvt, rawVcvt, fields_wordR, extract_append_high, extract_append_low, extract_all, Nat.reduceSub, BitVec.toNat_ofNat, Nat.reducePow, Nat.reduceMod]))
theorem vdec (n : BitVec 4) (h : BitVec 3) (m : BitVec 4) (k : BitVec 3) (t : BitVec 4) : Statement (.vdec n h m k t) := decode_of_raw ((rawDecode_57 _ (opOf_wordR ..)).trans (by
  simp (disch := omega) only [encode, wordVdec, rawVcvt, fields_wordR, extract_append_high, extract_append_low, extract_all, Nat.reduceSub, BitVec.toNat_ofNat, Nat.reducePow, Nat.reduceMod]))
theorem venc (x : BitVec 1) (h : BitVec 3) (m : BitVec 4) (k : BitVec 3) : Statement (.venc x h m k) := decode_of_raw ((rawDecode_57 _ (opOf_wordR ..)).trans (by
  simp (disch := omega) only [encode, wordVenc, rawVcvt, fields_wordR, extract_append_high, extract_append_low, extract_all, Nat.reduceSub, BitVec.toNat_ofNat, Nat.reducePow, Nat.reduceMod]))
theorem vunpk3 (x : BitVec 1) (h : BitVec 3) (m : BitVec 4) (k : BitVec 3) (t : BitVec 4) : Statement (.vunpk3 x h m k t) := decode_of_raw ((rawDecode_57 _ (opOf_wordR ..)).trans (by
  simp (disch := omega) only [encode, wordVunpk3, rawVcvt, fields_wordR, extract_append_high, extract_append_low, extract_all, Nat.reduceSub, BitVec.toNat_ofNat, Nat.reducePow, Nat.reduceMod]))
theorem vaddsub (g : BitVec 3) (n : BitVec 4) (h : BitVec 3) (m : BitVec 4) (k : BitVec 3) (t : BitVec 4) : Statement (.vaddsub g n h m k t) := decode_of_raw ((rawDecode_57 _ (opOf_wordR ..)).trans (by
  simp (disch := omega) only [encode, wordVaddsub, rawVcvt, fields_wordR, extract_append_high, extract_append_low, extract_all, Nat.reduceSub, BitVec.toNat_ofNat, Nat.reducePow, Nat.reduceMod]))
theorem vdot (g : BitVec 3) (n : BitVec 4) (h : BitVec 3) (m : BitVec 4) (k : BitVec 3) (t : BitVec 4) : Statement (.vdot g n h m k t) := decode_of_raw ((rawDecode_57 _ (opOf_wordR ..)).trans (by
  simp (disch := omega) only [encode, wordVdot, rawVcvt, fields_wordR, extract_append_high, extract_append_low, extract_all, Nat.reduceSub, BitVec.toNat_ofNat, Nat.reducePow, Nat.reduceMod]))
theorem vperm (g : BitVec 3) (x : BitVec 1) (h : BitVec 3) (k : BitVec 3) (t : BitVec 4) : Statement (.vperm g x h k t) := decode_of_raw ((rawDecode_57 _ (opOf_wordR ..)).trans (by
  simp (disch := omega) only [encode, wordVperm, rawVcvt, fields_wordR, extract_append_high, extract_append_low, extract_all, Nat.reduceSub, BitVec.toNat_ofNat, Nat.reducePow, Nat.reduceMod]))
theorem vslide (g : BitVec 3) (x : BitVec 1) (h : BitVec 3) (k : BitVec 3) (t : BitVec 4) : Statement (.vslide g x h k t) := decode_of_raw ((rawDecode_57 _ (opOf_wordR ..)).trans (by
  simp (disch := omega) only [encode, wordVslide, rawVcvt, fields_wordR, extract_append_high, extract_append_low, extract_all, Nat.reduceSub, BitVec.toNat_ofNat, Nat.reducePow, Nat.reduceMod]))
theorem vmxs (g : BitVec 3) (n : BitVec 4) (h : BitVec 3) (m : BitVec 4) (k : BitVec 3) (t : BitVec 4) : Statement (.vmxs g n h m k t) := decode_of_raw ((rawDecode_57 _ (opOf_wordR ..)).trans (by
  simp (disch := omega) only [encode, wordVmxs, rawVcvt, fields_wordR, extract_append_high, extract_append_low, extract_all, Nat.reduceSub, BitVec.toNat_ofNat, Nat.reducePow, Nat.reduceMod]))
theorem barInit (b : BitVec 7) (a : BitVec 7) (d : BitVec 7) : Statement (.barInit b a d) := decode_of_raw ((rawDecode_5b _ (opOf_wordR ..)).trans (by
  simp (disch := omega) only [encode, wordBarInit, rawSync, fields_wordR, extract_append_high, extract_append_low, extract_all, Nat.reduceSub, BitVec.toNat_ofNat, Nat.reducePow, Nat.reduceMod]))
theorem barArrive (s : BitVec 3) (a : BitVec 7) (d : BitVec 7) : Statement (.barArrive s a d) := decode_of_raw ((rawDecode_5b _ (opOf_wordR ..)).trans (by
  simp (disch := omega) only [encode, wordBarArrive, rawSync, fields_wordR, extract_append_high, extract_append_low, extract_all, Nat.reduceSub, BitVec.toNat_ofNat, Nat.reducePow, Nat.reduceMod]))
theorem barWait (s : BitVec 3) (a : BitVec 7) : Statement (.barWait s a) := decode_of_raw ((rawDecode_5b _ (opOf_wordR ..)).trans (by
  simp (disch := omega) only [encode, wordBarWait, rawSync, fields_wordR, extract_append_high, extract_append_low, extract_all, Nat.reduceSub, BitVec.toNat_ofNat, Nat.reducePow, Nat.reduceMod]))
theorem barDrop (s : BitVec 3) (a : BitVec 7) : Statement (.barDrop s a) := decode_of_raw ((rawDecode_5b _ (opOf_wordR ..)).trans (by
  simp (disch := omega) only [encode, wordBarDrop, rawSync, fields_wordR, extract_append_high, extract_append_low, extract_all, Nat.reduceSub, BitVec.toNat_ofNat, Nat.reducePow, Nat.reduceMod]))
theorem monArm (a : BitVec 7) (d : BitVec 7) : Statement (.monArm a d) := decode_of_raw ((rawDecode_5b _ (opOf_wordR ..)).trans (by
  simp (disch := omega) only [encode, wordMonArm, rawSync, fields_wordR, extract_append_high, extract_append_low, extract_all, Nat.reduceSub, BitVec.toNat_ofNat, Nat.reducePow, Nat.reduceMod]))
theorem monWait (s : BitVec 3) (a : BitVec 7) (d : BitVec 7) : Statement (.monWait s a d) := decode_of_raw ((rawDecode_5b _ (opOf_wordR ..)).trans (by
  simp (disch := omega) only [encode, wordMonWait, rawSync, fields_wordR, extract_append_high, extract_append_low, extract_all, Nat.reduceSub, BitVec.toNat_ofNat, Nat.reducePow, Nat.reduceMod]))
theorem monClr : Statement (.monClr) := decode_of_raw ((rawDecode_5b _ (opOf_wordR ..)).trans (by
  simp (disch := omega) only [encode, wordMonClr, rawSync, fields_wordR, extract_append_high, extract_append_low, extract_all, Nat.reduceSub, BitVec.toNat_ofNat, Nat.reducePow, Nat.reduceMod]))
theorem waitc (b : BitVec 7) (a : BitVec 7) (s : BitVec 3) : Statement (.waitc b a s) := decode_of_raw ((rawDecode_5b _ (opOf_wordR ..)).trans (by
  simp (disch := omega) only [encode, wordWaitc, rawSync, fields_wordR, extract_append_high, extract_append_low, extract_all, Nat.reduceSub, BitVec.toNat_ofNat, Nat.reducePow, Nat.reduceMod]))
theorem waitm : Statement (.waitm) := decode_of_raw ((rawDecode_5b _ (opOf_wordR ..)).trans (by
  simp (disch := omega) only [encode, wordWaitm, rawSync, fields_wordR, extract_append_high, extract_append_low, extract_all, Nat.reduceSub, BitVec.toNat_ofNat, Nat.reducePow, Nat.reduceMod]))
theorem putf (b : BitVec 7) (a : BitVec 7) : Statement (.putf b a) := decode_of_raw ((rawDecode_5b _ (opOf_wordR ..)).trans (by
  simp (disch := omega) only [encode, wordPutf, rawSync, fields_wordR, extract_append_high, extract_append_low, extract_all, Nat.reduceSub, BitVec.toNat_ofNat, Nat.reducePow, Nat.reduceMod]))
theorem takef (a : BitVec 7) (d : BitVec 7) : Statement (.takef a d) := decode_of_raw ((rawDecode_5b _ (opOf_wordR ..)).trans (by
  simp (disch := omega) only [encode, wordTakef, rawSync, fields_wordR, extract_append_high, extract_append_low, extract_all, Nat.reduceSub, BitVec.toNat_ofNat, Nat.reducePow, Nat.reduceMod]))
theorem cmnRd (c : BitVec 3) (d : BitVec 7) : Statement (.cmnRd c d) := decode_of_raw ((rawDecode_5b _ (opOf_wordR ..)).trans (by
  simp (disch := omega) only [encode, wordCmnRd, rawSync, fields_wordR, extract_append_high, extract_append_low, extract_all, Nat.reduceSub, BitVec.toNat_ofNat, Nat.reducePow, Nat.reduceMod]))
theorem cmnWr (c : BitVec 3) (a : BitVec 7) : Statement (.cmnWr c a) := decode_of_raw ((rawDecode_5b _ (opOf_wordR ..)).trans (by
  simp (disch := omega) only [encode, wordCmnWr, rawSync, fields_wordR, extract_append_high, extract_append_low, extract_all, Nat.reduceSub, BitVec.toNat_ofNat, Nat.reducePow, Nat.reduceMod]))
theorem beq (i : BitVec 4) (b : BitVec 7) (a : BitVec 7) (j : BitVec 4) : Statement (.beq i b a j) := decode_of_raw ((rawDecode_63 _ (opOf_wordS ..)).trans (by
  simp (disch := omega) only [encode, wordBeq, rawBranch, fields_wordS, BitVec.toNat_ofNat, Nat.reducePow, Nat.reduceMod]))
theorem bne (i : BitVec 4) (b : BitVec 7) (a : BitVec 7) (j : BitVec 4) : Statement (.bne i b a j) := decode_of_raw ((rawDecode_63 _ (opOf_wordS ..)).trans (by
  simp (disch := omega) only [encode, wordBne, rawBranch, fields_wordS, BitVec.toNat_ofNat, Nat.reducePow, Nat.reduceMod]))
theorem blt (i : BitVec 4) (b : BitVec 7) (a : BitVec 7) (j : BitVec 4) : Statement (.blt i b a j) := decode_of_raw ((rawDecode_63 _ (opOf_wordS ..)).trans (by
  simp (disch := omega) only [encode, wordBlt, rawBranch, fields_wordS, BitVec.toNat_ofNat, Nat.reducePow, Nat.reduceMod]))
theorem bge (i : BitVec 4) (b : BitVec 7) (a : BitVec 7) (j : BitVec 4) : Statement (.bge i b a j) := decode_of_raw ((rawDecode_63 _ (opOf_wordS ..)).trans (by
  simp (disch := omega) only [encode, wordBge, rawBranch, fields_wordS, BitVec.toNat_ofNat, Nat.reducePow, Nat.reduceMod]))
theorem bltu (i : BitVec 4) (b : BitVec 7) (a : BitVec 7) (j : BitVec 4) : Statement (.bltu i b a j) := decode_of_raw ((rawDecode_63 _ (opOf_wordS ..)).trans (by
  simp (disch := omega) only [encode, wordBltu, rawBranch, fields_wordS, BitVec.toNat_ofNat, Nat.reducePow, Nat.reduceMod]))
theorem bgeu (i : BitVec 4) (b : BitVec 7) (a : BitVec 7) (j : BitVec 4) : Statement (.bgeu i b a j) := decode_of_raw ((rawDecode_63 _ (opOf_wordS ..)).trans (by
  simp (disch := omega) only [encode, wordBgeu, rawBranch, fields_wordS, BitVec.toNat_ofNat, Nat.reducePow, Nat.reduceMod]))
theorem bp (i : BitVec 4) (p : BitVec 5) (j : BitVec 4) : Statement (.bp i p j) := decode_of_raw ((rawDecode_63 _ (opOf_wordS ..)).trans (by
  simp (disch := omega) only [encode, wordBp, rawBranch, fields_wordS, extract_append_high, extract_append_low, extract_all, Nat.reduceSub, BitVec.toNat_ofNat, Nat.reducePow, Nat.reduceMod]
  rfl))
theorem bnp (i : BitVec 4) (p : BitVec 5) (j : BitVec 4) : Statement (.bnp i p j) := decode_of_raw ((rawDecode_63 _ (opOf_wordS ..)).trans (by
  simp (disch := omega) only [encode, wordBnp, rawBranch, fields_wordS, extract_append_high, extract_append_low, extract_all, Nat.reduceSub, BitVec.toNat_ofNat, Nat.reducePow, Nat.reduceMod]
  rfl))
theorem brb (i : BitVec 4) (a : BitVec 7) (j : BitVec 4) : Statement (.brb i a j) := decode_of_raw ((rawDecode_63 _ (opOf_wordS ..)).trans (by
  simp (disch := omega) only [encode, wordBrb, rawBranch, fields_wordS, BitVec.toNat_ofNat, Nat.reducePow, Nat.reduceMod]))
theorem jalr (i : BitVec 8) (a : BitVec 7) (d : BitVec 7) : Statement (.jalr i a d) := decode_of_raw ((rawDecode_67 _ (opOf_wordI ..)).trans (by
  simp (disch := omega) only [encode, wordJalr, rawJalr, fields_wordI, BitVec.toNat_ofNat, Nat.reducePow, Nat.reduceMod]))
theorem jal (i : BitVec 25) : Statement (.jal i) := decode_of_raw ((rawDecode_6f _ (opOf_wordJ ..)).trans (by
  simp (disch := omega) only [encode, wordJal, rawJal, imm25Of_wordJ, BitVec.toNat_ofNat, Nat.reducePow, Nat.reduceMod]))
theorem trap (a : BitVec 7) : Statement (.trap a) := decode_of_raw ((rawDecode_73 _ (opOf_wordR ..)).trans (by
  simp (disch := omega) only [encode, wordTrap, rawSystem, fields_wordR, BitVec.toNat_ofNat, Nat.reducePow, Nat.reduceMod]))
theorem eret : Statement (.eret) := decode_of_raw ((rawDecode_73 _ (opOf_wordR ..)).trans (by
  simp (disch := omega) only [encode, wordEret, rawSystem, fields_wordR, BitVec.toNat_ofNat, Nat.reducePow, Nat.reduceMod]))
theorem crr (c : BitVec 7) (d : BitVec 7) : Statement (.crr c d) := decode_of_raw ((rawDecode_73 _ (opOf_wordR ..)).trans (by
  simp (disch := omega) only [encode, wordCrr, rawSystem, fields_wordR, BitVec.toNat_ofNat, Nat.reducePow, Nat.reduceMod]))
theorem crw (c : BitVec 7) (a : BitVec 7) (d : BitVec 7) : Statement (.crw c a d) := decode_of_raw ((rawDecode_73 _ (opOf_wordR ..)).trans (by
  simp (disch := omega) only [encode, wordCrw, rawSystem, fields_wordR, BitVec.toNat_ofNat, Nat.reducePow, Nat.reduceMod]))
theorem crs (c : BitVec 7) (a : BitVec 7) (d : BitVec 7) : Statement (.crs c a d) := decode_of_raw ((rawDecode_73 _ (opOf_wordR ..)).trans (by
  simp (disch := omega) only [encode, wordCrs, rawSystem, fields_wordR, BitVec.toNat_ofNat, Nat.reducePow, Nat.reduceMod]))
theorem crc (c : BitVec 7) (a : BitVec 7) (d : BitVec 7) : Statement (.crc c a d) := decode_of_raw ((rawDecode_73 _ (opOf_wordR ..)).trans (by
  simp (disch := omega) only [encode, wordCrc, rawSystem, fields_wordR, BitVec.toNat_ofNat, Nat.reducePow, Nat.reduceMod]))
theorem feat (a : BitVec 7) (d : BitVec 7) : Statement (.feat a d) := decode_of_raw ((rawDecode_73 _ (opOf_wordR ..)).trans (by
  simp (disch := omega) only [encode, wordFeat, rawSystem, fields_wordR, BitVec.toNat_ofNat, Nat.reducePow, Nat.reduceMod]))
theorem featO (a : BitVec 7) (d : BitVec 7) : Statement (.featO a d) := decode_of_raw ((rawDecode_73 _ (opOf_wordR ..)).trans (by
  simp (disch := omega) only [encode, wordFeatO, rawSystem, fields_wordR, BitVec.toNat_ofNat, Nat.reducePow, Nat.reduceMod]))
theorem castleHold (d : BitVec 7) : Statement (.castleHold d) := decode_of_raw ((rawDecode_73 _ (opOf_wordR ..)).trans (by
  simp (disch := omega) only [encode, wordCastleHold, rawSystem, fields_wordR, BitVec.toNat_ofNat, Nat.reducePow, Nat.reduceMod]))
theorem castleFree : Statement (.castleFree) := decode_of_raw ((rawDecode_73 _ (opOf_wordR ..)).trans (by
  simp (disch := omega) only [encode, wordCastleFree, rawSystem, fields_wordR, BitVec.toNat_ofNat, Nat.reducePow, Nat.reduceMod]))
theorem halt : Statement (.halt) := decode_of_raw ((rawDecode_73 _ (opOf_wordR ..)).trans (by
  simp (disch := omega) only [encode, wordHalt, rawSystem, fields_wordR, BitVec.toNat_ofNat, Nat.reducePow, Nat.reduceMod]))
theorem brk : Statement (.brk) := decode_of_raw ((rawDecode_73 _ (opOf_wordR ..)).trans (by
  simp (disch := omega) only [encode, wordBrk, rawSystem, fields_wordR, BitVec.toNat_ofNat, Nat.reducePow, Nat.reduceMod]))
theorem kill (a : BitVec 7) (d : BitVec 7) : Statement (.kill a d) := decode_of_raw ((rawDecode_73 _ (opOf_wordR ..)).trans (by
  simp (disch := omega) only [encode, wordKill, rawSystem, fields_wordR, BitVec.toNat_ofNat, Nat.reducePow, Nat.reduceMod]))
theorem preempt (a : BitVec 7) (d : BitVec 7) : Statement (.preempt a d) := decode_of_raw ((rawDecode_73 _ (opOf_wordR ..)).trans (by
  simp (disch := omega) only [encode, wordPreempt, rawSystem, fields_wordR, BitVec.toNat_ofNat, Nat.reducePow, Nat.reduceMod]))
theorem tlbInv (b : BitVec 7) (a : BitVec 7) : Statement (.tlbInv b a) := decode_of_raw ((rawDecode_73 _ (opOf_wordR ..)).trans (by
  simp (disch := omega) only [encode, wordTlbInv, rawSystem, fields_wordR, BitVec.toNat_ofNat, Nat.reducePow, Nat.reduceMod]))
theorem idle (d : BitVec 7) : Statement (.idle d) := decode_of_raw ((rawDecode_73 _ (opOf_wordR ..)).trans (by
  simp (disch := omega) only [encode, wordIdle, rawSystem, fields_wordR, BitVec.toNat_ofNat, Nat.reducePow, Nat.reduceMod]))
theorem spawn (b : BitVec 7) (a : BitVec 7) (d : BitVec 7) : Statement (.spawn b a d) := decode_of_raw ((rawDecode_7b _ (opOf_wordR ..)).trans (by
  simp (disch := omega) only [encode, wordSpawn, rawThread, fields_wordR, BitVec.toNat_ofNat, Nat.reducePow, Nat.reduceMod]))
theorem spawnl (a : BitVec 7) (d : BitVec 7) : Statement (.spawnl a d) := decode_of_raw ((rawDecode_7b _ (opOf_wordR ..)).trans (by
  simp (disch := omega) only [encode, wordSpawnl, rawThread, fields_wordR, BitVec.toNat_ofNat, Nat.reducePow, Nat.reduceMod]))
theorem exit : Statement (.exit) := decode_of_raw ((rawDecode_7b _ (opOf_wordR ..)).trans (by
  simp (disch := omega) only [encode, wordExit, rawThread, fields_wordR, BitVec.toNat_ofNat, Nat.reducePow, Nat.reduceMod]))
theorem yield : Statement (.yield) := decode_of_raw ((rawDecode_7b _ (opOf_wordR ..)).trans (by
  simp (disch := omega) only [encode, wordYield, rawThread, fields_wordR, BitVec.toNat_ofNat, Nat.reducePow, Nat.reduceMod]))
theorem migrate (a : BitVec 7) : Statement (.migrate a) := decode_of_raw ((rawDecode_7b _ (opOf_wordR ..)).trans (by
  simp (disch := omega) only [encode, wordMigrate, rawThread, fields_wordR, BitVec.toNat_ofNat, Nat.reducePow, Nat.reduceMod]))
theorem tqEnq (a : BitVec 7) (d : BitVec 7) : Statement (.tqEnq a d) := decode_of_raw ((rawDecode_7b _ (opOf_wordR ..)).trans (by
  simp (disch := omega) only [encode, wordTqEnq, rawThread, fields_wordR, BitVec.toNat_ofNat, Nat.reducePow, Nat.reduceMod]))
theorem tqDeq (a : BitVec 7) (d : BitVec 7) : Statement (.tqDeq a d) := decode_of_raw ((rawDecode_7b _ (opOf_wordR ..)).trans (by
  simp (disch := omega) only [encode, wordTqDeq, rawThread, fields_wordR, BitVec.toNat_ofNat, Nat.reducePow, Nat.reduceMod]))
theorem depSet (b : BitVec 7) (a : BitVec 7) (d : BitVec 7) : Statement (.depSet b a d) := decode_of_raw ((rawDecode_7b _ (opOf_wordR ..)).trans (by
  simp (disch := omega) only [encode, wordDepSet, rawThread, fields_wordR, BitVec.toNat_ofNat, Nat.reducePow, Nat.reduceMod]))
theorem depDec (a : BitVec 7) (d : BitVec 7) : Statement (.depDec a d) := decode_of_raw ((rawDecode_7b _ (opOf_wordR ..)).trans (by
  simp (disch := omega) only [encode, wordDepDec, rawThread, fields_wordR, BitVec.toNat_ofNat, Nat.reducePow, Nat.reduceMod]))
theorem launch (a : BitVec 7) (d : BitVec 7) : Statement (.launch a d) := decode_of_raw ((rawDecode_7b _ (opOf_wordR ..)).trans (by
  simp (disch := omega) only [encode, wordLaunch, rawThread, fields_wordR, BitVec.toNat_ofNat, Nat.reducePow, Nat.reduceMod]))
theorem launchW (a : BitVec 7) (d : BitVec 7) : Statement (.launchW a d) := decode_of_raw ((rawDecode_7b _ (opOf_wordR ..)).trans (by
  simp (disch := omega) only [encode, wordLaunchW, rawThread, fields_wordR, BitVec.toNat_ofNat, Nat.reducePow, Nat.reduceMod]))
theorem iterInit (a : BitVec 7) : Statement (.iterInit a) := decode_of_raw ((rawDecode_7b _ (opOf_wordR ..)).trans (by
  simp (disch := omega) only [encode, wordIterInit, rawThread, fields_wordR, BitVec.toNat_ofNat, Nat.reducePow, Nat.reduceMod]))
theorem iterNext (p : BitVec 5) (d : BitVec 7) : Statement (.iterNext p d) := decode_of_raw ((rawDecode_7b _ (opOf_wordR ..)).trans (by
  simp (disch := omega) only [encode, wordIterNext, rawThread, fields_wordR, extract_append_high, extract_append_low, extract_all, Nat.reduceSub, BitVec.toNat_ofNat, Nat.reducePow, Nat.reduceMod]))
theorem dqPush (b : BitVec 7) (a : BitVec 7) (d : BitVec 7) : Statement (.dqPush b a d) := decode_of_raw ((rawDecode_7b _ (opOf_wordR ..)).trans (by
  simp (disch := omega) only [encode, wordDqPush, rawThread, fields_wordR, BitVec.toNat_ofNat, Nat.reducePow, Nat.reduceMod]))
theorem dqPop (d : BitVec 7) : Statement (.dqPop d) := decode_of_raw ((rawDecode_7b _ (opOf_wordR ..)).trans (by
  simp (disch := omega) only [encode, wordDqPop, rawThread, fields_wordR, BitVec.toNat_ofNat, Nat.reducePow, Nat.reduceMod]))
theorem dqSplit (a : BitVec 7) (d : BitVec 7) : Statement (.dqSplit a d) := decode_of_raw ((rawDecode_7b _ (opOf_wordR ..)).trans (by
  simp (disch := omega) only [encode, wordDqSplit, rawThread, fields_wordR, BitVec.toNat_ofNat, Nat.reducePow, Nat.reduceMod]))
theorem dqSteal (d : BitVec 7) : Statement (.dqSteal d) := decode_of_raw ((rawDecode_7b _ (opOf_wordR ..)).trans (by
  simp (disch := omega) only [encode, wordDqSteal, rawThread, fields_wordR, BitVec.toNat_ofNat, Nat.reducePow, Nat.reduceMod]))

end Sys2Proof.Laws.RoundTrip

end
end

