-- ==== Sys2Proof/Tests/Slice0.lean ====
section
/-! SUPPORT. Tests: words of the spec, terms that no word encodes, one state and its operands for the hypotheses of every statement,
and single steps whose results the spec gives. -/

open Sys2Proof Sys2Proof.Machine Sys2Proof.Safety
/-! Words. The numbers are the spec's: those of the opcode table's rows, with fields put in their places, and those of the worked
encodings that the chapters print. -/

section
set_option Elab.async false

theorem test_words_load :
    decode 0x14A14383 = .ok (.lb 165 5 7) ∧
    decode 0x34A14383 = .ok (.lh 165 5 7) ∧
    decode 0x54A14383 = .ok (.lw 165 5 7) ∧
    decode 0x74A14383 = .ok (.ld 165 5 7) ∧
    decode 0x94A14383 = .ok (.lbu 165 5 7) ∧
    decode 0xB4A14383 = .ok (.lhu 165 5 7) ∧
    decode 0xD4A14383 = .ok (.lwu 165 5 7) := by decide
theorem test_words_store :
    decode 0x90C16423 = .ok (.sb 9 6 5 9) ∧
    decode 0x90C164A3 = .ok (.sh 9 6 5 9) ∧
    decode 0x90C16523 = .ok (.sw 9 6 5 9) ∧
    decode 0x90C165A3 = .ok (.sd 9 6 5 9) := by decide
theorem test_words_vectorMemory :
    decode 0x00015C07 = .ok (.vld 5 3 8) ∧
    decode 0x10015C07 = .ok (.vst 5 3 8) ∧
    decode 0x20C15C07 = .ok (.vlds 6 5 3 8) ∧
    decode 0x30C15C07 = .ok (.vsts 6 5 3 8) ∧
    decode 0x40015C07 = .ok (.vldb 5 3 8) := by decide
theorem test_words_tensor :
    decode 0x0001438B = .ok (.mxSubmit 5 7) ∧
    decode 0x1001438B = .ok (.mxRun 5 7) ∧
    decode 0x2001438B = .ok (.jobPoll 5 7) ∧
    decode 0x3001438B = .ok (.jobWait 5 7) ∧
    decode 0x4001438B = .ok (.jobCancel 5 7) ∧
    decode 0x5001438B = .ok (.mxNorm 5 7) ∧
    decode 0x6001438B = .ok (.mxXchg 5 7) ∧
    decode 0x7001400B = .ok (.cpGo 5) ∧
    decode 0x8001438B = .ok (.cpWp 5 7) ∧
    decode 0x90C1438B = .ok (.vatInit 6 5 7) ∧
    decode 0xA0C1438B = .ok (.vatCvt 6 5 7) ∧
    decode 0xB021400B = .ok (.seedSet 1 5) ∧
    decode 0xC020038B = .ok (.seedGet 1 7) ∧
    decode 0xC020438B = .ok (.seedGetG 1 7) ∧
    decode 0xD001438B = .ok (.fmtLd 5 7) ∧
    decode 0xE001400B = .ok (.ixGo 5) ∧
    decode 0xF001400B = .ok (.ixResume 5) := by decide
theorem test_words_orderedAccess :
    decode 0x0081438F = .ok (.ldaD 4 5 7) ∧
    decode 0x1081438F = .ok (.ldaW 4 5 7) ∧
    decode 0x20C1420F = .ok (.stlD 6 5 4) ∧
    decode 0x30C1420F = .ok (.stlW 6 5 4) ∧
    decode 0x4000C20F = .ok (.fence 3 4) ∧
    decode 0x5001400F = .ok (.cflush 5) ∧
    decode 0x6001400F = .ok (.cinv 5) ∧
    decode 0x7001400F = .ok (.pref 5) ∧
    decode 0x8020038F = .ok (.sigrd 1 7) := by decide
theorem test_words_immediate :
    decode 0x14A14393 = .ok (.addi 165 5 7) ∧
    decode 0x34A14393 = .ok (.slti 165 5 7) ∧
    decode 0x54A14393 = .ok (.sltiu 165 5 7) ∧
    decode 0x74A14393 = .ok (.xori 165 5 7) ∧
    decode 0x94A14393 = .ok (.ori 165 5 7) ∧
    decode 0xB4A14393 = .ok (.andi 165 5 7) ∧
    decode 0xC0414393 = .ok (.slli 2 5 7) ∧
    decode 0xC8414393 = .ok (.srli 2 5 7) ∧
    decode 0xD0414393 = .ok (.srai 2 5 7) ∧
    decode 0xD8414393 = .ok (.rori 2 5 7) := by decide
theorem test_words_addpc :
    decode 0xA9694397 = .ok (.addpc 173477 7) := by decide
theorem test_words_addl :
    decode 0xA969439F = .ok (.addl 173477 7) := by decide
theorem test_words_liu :
    decode 0xA96943B7 = .ok (.liu 173477 7) := by decide
theorem test_words_predicate :
    decode 0x00C1419B = .ok (.peq 6 5 3) ∧
    decode 0x10C1419B = .ok (.pne 6 5 3) ∧
    decode 0x20C1419B = .ok (.plt 6 5 3) ∧
    decode 0x30C1419B = .ok (.pge 6 5 3) ∧
    decode 0x40C1419B = .ok (.pltu 6 5 3) ∧
    decode 0x50C1419B = .ok (.pgeu 6 5 3) ∧
    decode 0x6040419B = .ok (.pand 2 1 3) ∧
    decode 0x7040419B = .ok (.por 2 1 3) ∧
    decode 0x8040419B = .ok (.pxor 2 1 3) ∧
    decode 0x9000419B = .ok (.pnot 1 3) ∧
    decode 0xA000439B = .ok (.mvp 1 7) ∧
    decode 0xB000439B = .ok (.mvnp 1 7) ∧
    decode 0xC000039B = .ok (.prd 7) ∧
    decode 0xD001401B = .ok (.pwr 5) := by decide
theorem test_words_message :
    decode 0x00C143AB = .ok (.epush 6 5 7) ∧
    decode 0x100003AB = .ok (.epop 7) ∧
    decode 0x20C143AB = .ok (.grpPut 6 5 7) ∧
    decode 0x300143AB = .ok (.grpGet 5 7) ∧
    decode 0x40C143AB = .ok (.mcst 6 5 7) ∧
    decode 0x50C143AB = .ok (.lnkSend 6 5 7) ∧
    decode 0x600003AB = .ok (.lnkRecv 7) ∧
    decode 0x700143AB = .ok (.seqRd 5 7) ∧
    decode 0x80C17C2B = .ok (.mbSend 6 5) ∧
    decode 0x900003AB = .ok (.mbPeek 7) ∧
    decode 0xA00003AB = .ok (.mbCount 7) := by decide
theorem test_words_atomic :
    decode 0x00C143AF = .ok (.amoAdd 6 5 7) ∧
    decode 0x10C143AF = .ok (.amoAnd 6 5 7) ∧
    decode 0x20C143AF = .ok (.amoOr 6 5 7) ∧
    decode 0x30C143AF = .ok (.amoXor 6 5 7) ∧
    decode 0x40C143AF = .ok (.amoMin 6 5 7) ∧
    decode 0x50C143AF = .ok (.amoMax 6 5 7) ∧
    decode 0x60C143AF = .ok (.amoMinu 6 5 7) ∧
    decode 0x70C143AF = .ok (.amoMaxu 6 5 7) ∧
    decode 0x80C143AF = .ok (.amoSwap 6 5 7) ∧
    decode 0x90C143AF = .ok (.amoCas 6 5 7) ∧
    decode 0xA0C143AF = .ok (.amoFadd 6 5 7) ∧
    decode 0xB0C1402F = .ok (.redAdd 6 5) ∧
    decode 0xC0C1402F = .ok (.redMin 6 5) ∧
    decode 0xD0C1402F = .ok (.redMax 6 5) ∧
    decode 0xE0C1402F = .ok (.redFadd 6 5) ∧
    decode 0xF0C143AF = .ok (.redVat 6 5 7) := by decide
theorem test_words_integer :
    decode 0x00C143B3 = .ok (.add 6 5 7) ∧
    decode 0x10C143B3 = .ok (.sub 6 5 7) ∧
    decode 0x20C143B3 = .ok (.and 6 5 7) ∧
    decode 0x30C143B3 = .ok (.or 6 5 7) ∧
    decode 0x40C143B3 = .ok (.xor 6 5 7) ∧
    decode 0x50C143B3 = .ok (.andn 6 5 7) ∧
    decode 0x60C143B3 = .ok (.sll 6 5 7) ∧
    decode 0x70C143B3 = .ok (.srl 6 5 7) ∧
    decode 0x80C143B3 = .ok (.sra 6 5 7) ∧
    decode 0x90C143B3 = .ok (.ror 6 5 7) ∧
    decode 0xA0C143B3 = .ok (.slt 6 5 7) ∧
    decode 0xB0C143B3 = .ok (.sltu 6 5 7) ∧
    decode 0xC0C143B3 = .ok (.min 6 5 7) ∧
    decode 0xD0C143B3 = .ok (.max 6 5 7) ∧
    decode 0xE0C143B3 = .ok (.minu 6 5 7) ∧
    decode 0xF0C143B3 = .ok (.maxu 6 5 7) := by decide
theorem test_words_multiply :
    decode 0x00C143BB = .ok (.mul 6 5 7) ∧
    decode 0x10C143BB = .ok (.mulh 6 5 7) ∧
    decode 0x20C143BB = .ok (.mulhu 6 5 7) ∧
    decode 0x30C143BB = .ok (.mulhsu 6 5 7) ∧
    decode 0x40C143BB = .ok (.div 6 5 7) ∧
    decode 0x50C143BB = .ok (.divu 6 5 7) ∧
    decode 0x60C143BB = .ok (.rem 6 5 7) ∧
    decode 0x70C143BB = .ok (.remu 6 5 7) := by decide
theorem test_words_bit :
    decode 0x000143BF = .ok (.clz 5 7) ∧
    decode 0x100143BF = .ok (.ctz 5 7) ∧
    decode 0x200143BF = .ok (.cpop 5 7) ∧
    decode 0x300143BF = .ok (.sextb 5 7) ∧
    decode 0x400143BF = .ok (.sexth 5 7) ∧
    decode 0x500143BF = .ok (.sextw 5 7) ∧
    decode 0x600143BF = .ok (.zextw 5 7) ∧
    decode 0x700143BF = .ok (.bswap 5 7) ∧
    decode 0x80C143BF = .ok (.bfx 6 5 7) ∧
    decode 0x90C143BF = .ok (.bfxu 6 5 7) ∧
    decode 0xA0C143BF = .ok (.bfi 6 5 7) := by decide
theorem test_words_single :
    decode 0x00C143C3 = .ok (.faddS 6 5 7) ∧
    decode 0x10C143C3 = .ok (.fsubS 6 5 7) ∧
    decode 0x20C143C3 = .ok (.fmulS 6 5 7) ∧
    decode 0x30C143C3 = .ok (.fdivS 6 5 7) ∧
    decode 0x40C143C3 = .ok (.fminS 6 5 7) ∧
    decode 0x50C143C3 = .ok (.fmaxS 6 5 7) ∧
    decode 0x600143C3 = .ok (.fsqrtS 5 7) ∧
    decode 0x700143C3 = .ok (.fcvtSI 5 7) ∧
    decode 0x702143C3 = .ok (.fcvtSN 5 7) ∧
    decode 0x704143C3 = .ok (.fcvtIS 5 7) ∧
    decode 0x706143C3 = .ok (.fcvtNS 5 7) ∧
    decode 0x708143C3 = .ok (.fcvtWS 5 7) ∧
    decode 0x70A143C3 = .ok (.fcvtNwS 5 7) ∧
    decode 0x70C143C3 = .ok (.fcvtSD 5 7) ∧
    decode 0x70E143C3 = .ok (.fcvtSB 5 7) ∧
    decode 0x710143C3 = .ok (.fcvtBS 5 7) ∧
    decode 0x800143C3 = .ok (.fclassS 5 7) ∧
    decode 0x90C143C3 = .ok (.feqS 6 5 7) ∧
    decode 0xA0C143C3 = .ok (.fltS 6 5 7) ∧
    decode 0xB0C143C3 = .ok (.fleS 6 5 7) ∧
    decode 0xC0C143C3 = .ok (.ffmaS 6 5 7) ∧
    decode 0xD0C143C3 = .ok (.ffmsS 6 5 7) ∧
    decode 0xE0C143C3 = .ok (.fsgnjS 6 5 7) := by decide
theorem test_words_double :
    decode 0x00C143C7 = .ok (.faddD 6 5 7) ∧
    decode 0x10C143C7 = .ok (.fsubD 6 5 7) ∧
    decode 0x20C143C7 = .ok (.fmulD 6 5 7) ∧
    decode 0x30C143C7 = .ok (.fdivD 6 5 7) ∧
    decode 0x40C143C7 = .ok (.fminD 6 5 7) ∧
    decode 0x50C143C7 = .ok (.fmaxD 6 5 7) ∧
    decode 0x600143C7 = .ok (.fsqrtD 5 7) ∧
    decode 0x700143C7 = .ok (.fcvtDI 5 7) ∧
    decode 0x702143C7 = .ok (.fcvtDN 5 7) ∧
    decode 0x704143C7 = .ok (.fcvtID 5 7) ∧
    decode 0x706143C7 = .ok (.fcvtND 5 7) ∧
    decode 0x708143C7 = .ok (.fcvtWD 5 7) ∧
    decode 0x70A143C7 = .ok (.fcvtNwD 5 7) ∧
    decode 0x70C143C7 = .ok (.fcvtDS 5 7) ∧
    decode 0x70E143C7 = .ok (.fcvtDB 5 7) ∧
    decode 0x710143C7 = .ok (.fcvtBD 5 7) ∧
    decode 0x800143C7 = .ok (.fclassD 5 7) ∧
    decode 0x90C143C7 = .ok (.feqD 6 5 7) ∧
    decode 0xA0C143C7 = .ok (.fltD 6 5 7) ∧
    decode 0xB0C143C7 = .ok (.fleD 6 5 7) ∧
    decode 0xC0C143C7 = .ok (.ffmaD 6 5 7) ∧
    decode 0xD0C143C7 = .ok (.ffmsD 6 5 7) ∧
    decode 0xE0C143C7 = .ok (.fsgnjD 6 5 7) := by decide
theorem test_words_vectorOperation :
    decode 0x02285C53 = .ok (.vadd 1 1 2 1 3 8) ∧
    decode 0x12285C53 = .ok (.vsub 1 1 2 1 3 8) ∧
    decode 0x22285C53 = .ok (.vmul 1 1 2 1 3 8) ∧
    decode 0x32285C53 = .ok (.vfma 1 1 2 1 3 8) ∧
    decode 0x42285C53 = .ok (.vfms 1 1 2 1 3 8) ∧
    decode 0x53085C53 = .ok (.vmin 1 1 2 1 3 8) ∧
    decode 0x63085C53 = .ok (.vmax 1 1 2 1 3 8) ∧
    decode 0x73085AD3 = .ok (.vand 1 1 2 1 3 5) ∧
    decode 0x83085AD3 = .ok (.vor 1 1 2 1 3 5) ∧
    decode 0x93085AD3 = .ok (.vxor 1 1 2 1 3 5) ∧
    decode 0xA3885AD3 = .ok (.vshl 1 1 1 2 1 3 5) ∧
    decode 0xB3285AD3 = .ok (.vshr 1 1 1 2 1 3 5) ∧
    decode 0xC3094453 = .ok (.vcmp 1 1 2 5 8) ∧
    decode 0xD2081C53 = .ok (.vsel 1 2 3 8) ∧
    decode 0xE0A89C53 = .ok (.vred 1 1 2 2 3 8) ∧
    decode 0xF0081C53 = .ok (.vabs 2 3 8) ∧
    decode 0xF0281C53 = .ok (.vneg 2 3 8) ∧
    decode 0xF0481C53 = .ok (.vrcp 2 3 8) ∧
    decode 0xF0681C53 = .ok (.vrsq 2 3 8) ∧
    decode 0xF0881C53 = .ok (.vexp2 2 3 8) ∧
    decode 0xF0A81C53 = .ok (.vlog2 2 3 8) ∧
    decode 0xF0C81C53 = .ok (.vbcast 2 3 8) ∧
    decode 0xF0E81C53 = .ok (.vsqn 2 3 8) := by decide
theorem test_words_vectorConversion :
    decode 0x002A1C57 = .ok (.vcvt 1 2 8 3 8) ∧
    decode 0x1028DC57 = .ok (.vdec 1 2 3 3 8) ∧
    decode 0x210A1F57 = .ok (.venc 1 2 8 3) ∧
    decode 0x310A1C57 = .ok (.vunpk3 1 2 8 3 8) ∧
    decode 0x4229DC57 = .ok (.vaddsub 1 1 2 7 3 8) ∧
    decode 0x522A9C57 = .ok (.vdot 1 1 2 10 3 8) ∧
    decode 0x63081C57 = .ok (.vperm 1 1 2 3 8) ∧
    decode 0x73081C57 = .ok (.vslide 1 1 2 3 8) ∧
    decode 0x822B5C57 = .ok (.vmxs 1 1 2 13 3 8) := by decide
theorem test_words_sync :
    decode 0x00C143DB = .ok (.barInit 6 5 7) ∧
    decode 0x108143DB = .ok (.barArrive 4 5 7) ∧
    decode 0x2081405B = .ok (.barWait 4 5) ∧
    decode 0x3081405B = .ok (.barDrop 4 5) ∧
    decode 0x400143DB = .ok (.monArm 5 7) ∧
    decode 0x508143DB = .ok (.monWait 4 5 7) ∧
    decode 0x6000005B = .ok .monClr ∧
    decode 0x70C1425B = .ok (.waitc 6 5 4) ∧
    decode 0x8000005B = .ok .waitm ∧
    decode 0x90C1405B = .ok (.putf 6 5) ∧
    decode 0xA00143DB = .ok (.takef 5 7) ∧
    decode 0xB02003DB = .ok (.cmnRd 1 7) ∧
    decode 0xC021405B = .ok (.cmnWr 1 5) := by decide
theorem test_words_branch :
    decode 0x90C16463 = .ok (.beq 9 6 5 9) ∧
    decode 0x90C164E3 = .ok (.bne 9 6 5 9) ∧
    decode 0x90C16563 = .ok (.blt 9 6 5 9) ∧
    decode 0x90C165E3 = .ok (.bge 9 6 5 9) ∧
    decode 0x90C16663 = .ok (.bltu 9 6 5 9) ∧
    decode 0x90C166E3 = .ok (.bgeu 9 6 5 9) ∧
    decode 0x90602763 = .ok (.bp 9 3 9) ∧
    decode 0x98602763 = .ok (.bnp 9 3 9) ∧
    decode 0x900167E3 = .ok (.brb 9 5 9) := by decide
theorem test_words_jumpRegister :
    decode 0x14A143E7 = .ok (.jalr 165 5 7) := by decide
theorem test_words_jump :
    decode 0xAD2D2D6F = .ok (.jal 22698586) := by decide
theorem test_words_system :
    decode 0x00014073 = .ok (.trap 5) ∧
    decode 0x10000073 = .ok .eret ∧
    decode 0x212003F3 = .ok (.crr 9 7) ∧
    decode 0x312143F3 = .ok (.crw 9 5 7) ∧
    decode 0x412143F3 = .ok (.crs 9 5 7) ∧
    decode 0x512143F3 = .ok (.crc 9 5 7) ∧
    decode 0x600143F3 = .ok (.feat 5 7) ∧
    decode 0x602143F3 = .ok (.featO 5 7) ∧
    decode 0x700003F3 = .ok (.castleHold 7) ∧
    decode 0x80000073 = .ok .castleFree ∧
    decode 0x90000073 = .ok .halt ∧
    decode 0xA0000073 = .ok .brk ∧
    decode 0xB00143F3 = .ok (.kill 5 7) ∧
    decode 0xC00143F3 = .ok (.preempt 5 7) ∧
    decode 0xD0C14073 = .ok (.tlbInv 6 5) ∧
    decode 0xE00003F3 = .ok (.idle 7) := by decide
theorem test_words_thread :
    decode 0x00C143FB = .ok (.spawn 6 5 7) ∧
    decode 0x100143FB = .ok (.spawnl 5 7) ∧
    decode 0x2000007B = .ok .exit ∧
    decode 0x3000007B = .ok .yield ∧
    decode 0x4001407B = .ok (.migrate 5) ∧
    decode 0x500143FB = .ok (.tqEnq 5 7) ∧
    decode 0x600143FB = .ok (.tqDeq 5 7) ∧
    decode 0x70C143FB = .ok (.depSet 6 5 7) ∧
    decode 0x800143FB = .ok (.depDec 5 7) ∧
    decode 0x900143FB = .ok (.launch 5 7) ∧
    decode 0x902143FB = .ok (.launchW 5 7) ∧
    decode 0xA001407B = .ok (.iterInit 5) ∧
    decode 0xB06003FB = .ok (.iterNext 3 7) ∧
    decode 0xC0C143FB = .ok (.dqPush 6 5 7) ∧
    decode 0xD00003FB = .ok (.dqPop 7) ∧
    decode 0xE00143FB = .ok (.dqSplit 5 7) ∧
    decode 0xF00003FB = .ok (.dqSteal 7) := by decide

/-- Worked encodings of spec/02. -/
theorem test_manual_formats :
    decode 0x00000013 = .ok (.addi 0 0 0) ∧ decode 0x00004067 = .ok (.jalr 0 1 0) ∧
    decode 0x60408483 = .ok (.ld 2 2 9) ∧ decode 0x1FE0C193 = .ok (.addi 0xFF 3 3) ∧
    decode 0x12344237 = .ok (.liu 0x048D1 4) ∧ decode 0x059E021F = .ok (.addl 0x01678 4) ∧
    decode 0x0000206F = .ok (.jal 0x40) ∧ decode 0x1041828F = .ok (.ldaW 2 6 5) ∧
    decode 0x902101FB = .ok (.launchW 4 3) ∧ (decode 0x904101FB).isOk = false := by decide

/-- The program of spec/02: the sum of eight doublewords. -/
theorem test_manual_program :
    decode 0x01000193 = .ok (.addi 8 0 3) ∧ decode 0x00000213 = .ok (.addi 0 0 4) ∧ decode 0x60014303 = .ok (.ld 0 5 6) ∧
    decode 0x00C10233 = .ok (.add 6 4 4) ∧ decode 0x01014293 = .ok (.addi 8 5 5) ∧ decode 0xF000F0E3 = .ok (.bne 0xF 0 3 0xC) ∧
    decode 0x008141A3 = .ok (.sd 0 4 5 0) ∧ decode 0x2000007B = .ok .exit := by decide

/-- Worked encodings of spec/04. -/
theorem test_manual_scalar :
    decode 0x40E182BB = .ok (.div 7 6 5) ∧ decode 0xD0610213 = .ok (.srai 3 4 4) ∧ decode 0x20C1419B = .ok (.plt 6 5 3) ∧
    decode 0xC182C543 = .ok (.ffmaS 12 11 10) ∧ decode 0x704182C7 = .ok (.fcvtID 6 5) ∧ decode 0x9FE10183 = .ok (.lbu 0xFF 4 3) ∧
    decode 0xF0603B63 = .ok (.bp 0xF 3 0xE) ∧ decode 0xF8603B63 = .ok (.bnp 0xF 3 0xE) ∧ decode 0xF00537E3 = .ok (.brb 0xF 20 0xD) ∧
    decode 0x0001C0E7 = .ok (.jalr 0 7 1) := by decide

/-- Worked encodings of spec/05. -/
theorem test_manual_vector :
    decode 0x00015C07 = .ok (.vld 5 3 8) ∧ decode 0x20E18B87 = .ok (.vlds 7 6 1 7) ∧ decode 0x36280C53 = .ok (.vfma 3 1 2 0 1 8) ∧
    decode 0x3004D057 = .ok (.vunpk3 0 1 3 2 0) ∧ decode 0x4809B157 = .ok (.vaddsub 4 0 2 6 6 2) := by decide

/-- Worked encodings of spec/09, spec/12, spec/16, spec/19 and spec/23. -/
theorem test_manual_threads :
    decode 0x0101C1FB = .ok (.spawn 8 7 3) ∧ decode 0xB0400A7B = .ok (.iterNext 2 20) ∧ decode 0xF0000A7B = .ok (.dqSteal 20) ∧
    decode 0x102204DB = .ok (.barArrive 1 8 9) ∧ decode 0x2022405B = .ok (.barWait 1 9) ∧ decode 0x508284DB = .ok (.monWait 4 10 9) ∧
    decode 0x70C1425B = .ok (.waitc 6 5 4) := by decide
theorem test_manual_ordered :
    decode 0x0081828F = .ok (.ldaD 4 6 5) ∧ decode 0x20E2020F = .ok (.stlD 7 8 4) ∧ decode 0x4001820F = .ok (.fence 6 4) ∧
    decode 0x5001800F = .ok (.cflush 6) ∧ decode 0x6001800F = .ok (.cinv 6) ∧ decode 0x7001800F = .ok (.pref 6) ∧
    decode 0x8000080F = .ok (.sigrd 0 16) ∧ decode 0x00C1C2AF = .ok (.amoAdd 6 7 5) ∧ decode 0x90C1C2AF = .ok (.amoCas 6 7 5) ∧
    decode 0xB0C1C02F = .ok (.redAdd 6 7) ∧ decode 0xF0C1C42F = .ok (.redVat 6 7 8) := by decide
theorem test_manual_engines :
    decode 0x0001828B = .ok (.mxSubmit 6 5) ∧ decode 0x1001828B = .ok (.mxRun 6 5) ∧ decode 0x3001438B = .ok (.jobWait 5 7) ∧
    decode 0x7005000B = .ok (.cpGo 20) ∧ decode 0x8002048B = .ok (.cpWp 8 9) ∧ decode 0xA0E1828B = .ok (.vatCvt 7 6 5) ∧
    decode 0xB082400B = .ok (.seedSet 4 9) ∧ decode 0xC080050B = .ok (.seedGet 4 10) ∧ decode 0xC080450B = .ok (.seedGetG 4 10) ∧
    decode 0xD002018B = .ok (.fmtLd 8 3) ∧ decode 0x00C502AB = .ok (.epush 6 20 5) ∧ decode 0x10000A2B = .ok (.epop 20) ∧
    decode 0x81423C2B = .ok (.mbSend 10 8) ∧ decode 0xA00004AB = .ok (.mbCount 9) := by decide
theorem test_manual_system :
    decode 0x00014073 = .ok (.trap 5) ∧ decode 0x10000073 = .ok .eret ∧ decode 0x212002F3 = .ok (.crr 9 5) ∧
    decode 0x30018073 = .ok (.crw 0 6 0) ∧ decode 0x412182F3 = .ok (.crs 9 6 5) ∧ decode 0x600182F3 = .ok (.feat 6 5) ∧
    decode 0x700002F3 = .ok (.castleHold 5) ∧ decode 0x80000073 = .ok .castleFree ∧ decode 0x90000073 = .ok .halt ∧
    decode 0xA0000073 = .ok .brk ∧ decode 0xB00182F3 = .ok (.kill 6 5) ∧ decode 0xC00182F3 = .ok (.preempt 6 5) ∧
    decode 0xD0E18073 = .ok (.tlbInv 7 6) ∧ decode 0xE00002F3 = .ok (.idle 5) := by decide
theorem test_manual_links :
    decode 0x20E182AB = .ok (.grpPut 7 6 5) ∧ decode 0x3001842B = .ok (.grpGet 6 8) ∧ decode 0x418284AB = .ok (.mcst 12 10 9) ∧
    decode 0x514301AB = .ok (.lnkSend 10 12 3) ∧ decode 0x60000A2B = .ok (.lnkRecv 20) ∧ decode 0x700345AB = .ok (.seqRd 13 11) := by decide

/-- Words that encode nothing (spec/02 R39): majors without instructions, low bits other than 0b11, all zeros and all ones. -/
theorem test_words_refused : (decode 0x00000027).isOk = false ∧ (decode 0x00000000).isOk = false ∧ (decode 0xFFFFFFFF).isOk = false ∧
    (decode 0x00000012).isOk = false := by decide

/-- One ill-formed term for each check of a field, which the check refuses. -/
theorem test_ill_formed :
    ¬ WellFormed (.wheelBoundary 0) ∧                  -- no word
    ¬ WellFormed (.ld 0 120 5) ∧                       -- a port as a base
    ¬ WellFormed (.ld 0 5 126) ∧                       -- no such register
    ¬ WellFormed (.add 121 122 5) ∧                    -- two ports
    ¬ WellFormed (.addl 0 120) ∧                       -- a port read and written
    ¬ WellFormed (.epop 0) ∧ ¬ WellFormed (.epop 119) ∧ -- no two registers from here on
    ¬ WellFormed (.fence 0 6) ∧                        -- a reserved scope
    ¬ WellFormed (.sigrd 3 16) ∧                       -- no such signature
    ¬ WellFormed (.vld 5 0 8) ∧ ¬ WellFormed (.vld 5 7 8) ∧ -- no such group
    ¬ WellFormed (.vld 5 3 15) ∧                       -- a reserved type
    ¬ WellFormed (.vadd 1 0 2 2 3 8) ∧                 -- a reserved modifier
    ¬ WellFormed (.vadd 1 1 2 0 3 2) ∧                 -- a rounding mode for integers
    ¬ WellFormed (.vand 1 0 2 0 3 8) ∧                 -- a float type for a bit operation
    ¬ WellFormed (.vadd 1 0 2 0 3 9) ∧                 -- no arithmetic on E4M3
    ¬ WellFormed (.vrcp 2 3 2) ∧                       -- an integer type for a float function
    ¬ WellFormed (.vcmp 1 0 2 6 8) ∧                   -- no such relation
    ¬ WellFormed (.vred 0 0 2 3 3 8) ∧                 -- no such reduction
    ¬ WellFormed (.vunpk3 0 2 0 3 4) ∧                 -- a type that VUNPK3 does not write
    ¬ WellFormed (.vaddsub 1 0 2 0 3 8) ∧              -- no such pair
    ¬ WellFormed (.vdot 1 0 2 0 3 8) ∧                 -- no such pair
    ¬ WellFormed (.vmxs 1 0 2 8 3 8) ∧                 -- no MX element type
    ¬ WellFormed (.vdec 0 2 2 3 7) ∧                   -- a part past the group
    ¬ WellFormed (.crr 17 5) ∧ ¬ WellFormed (.crr 40 5) -- no such control register
    := by decide

end

/-! States for the witnesses: a booted device whose core 0 runs one heavy user thread of A = 120 in slot 0, with variations. -/

section
set_option Elab.async false

namespace Witness

/-- The device of State.loaded: page 0 of 1 GiB is in the TLB of core 0, with R, W, X and U. -/
def ready : State := State.reset.loaded
/-- Its thread with these registers. -/
def regs (l : Tab Word) : State := ready.updCur fun t => { t with regs := l }
/-- Its thread in supervisor mode. -/
def boss : State := ready.updCur fun t => { t with mode := .supervisor }
/-- Its thread as a light one. -/
def light : State := ready.updCur fun t => { t with light := true, alloc := 16 }
/-- An access to physical address pa through page 0. -/
def at0 (pa : Nat) : Target := ⟨⟨0, BitVec.ofNat 64 pa⟩, .home pa, 0, 0, false, false⟩
/-- Its task with one scratch bank, bank 2. -/
def banked : State := ready.updInst 0 fun i => { i with scratch := [2] }
/-- An access to byte x of the window's first bank. -/
def inBank (x : Nat) : Target := ⟨⟨0, BitVec.ofNat 64 (0xFFFF000000000000 + x)⟩, .window 0 (2 * 8192 + x), 3, 0, false, false⟩
/-- Its core with a line of the cache: line 0x80, all sectors valid. -/
def cachedLine (dirty : BitVec 128) (poison : BitVec 4) : CacheLine := ⟨0x80, 0, 0, 15, dirty, poison, true, 0, [], 0⟩
/-- Its core holding that line. -/
def caching (dirty : BitVec 128) (poison : BitVec 4) : State := ready.updCore 0 fun k => { k with bankrole := 1, cache := [cachedLine dirty poison] }
/-- Its core holding that line, with its bank taken for the present cycle. -/
def refusing : State := (caching 0 0).updCore 0 fun k => { k with busy := [0] }
/-- The state of a step that neither faults nor is refused. -/
def result : Res → Option State
  | .next s => some s
  | .fault _ => none
  | .refused _ => none
/-- Its thread with registers, and cluster 0's engine pinning that line. -/
def pinned : State := (caching 1 0).updCluster 0 fun c => { c with pins := [⟨0x80, 0, 0x80⟩] }

/-! Words and the step. -/

theorem encodeThenDecode : WellFormed (.ld 0xFE 4 5) := by decide
theorem decodeThenEncode : decode 0x00C10233 = .ok (.add 6 4 4) := by decide
theorem stepRunsDecoded :
    let s := State.reset.withFetchWord 32 0x00C10233
    issues s 0 0 ∧ fetches { s with ic := 0, is := 0 } (at0 0x10000) 0x00C10233 ∧ decode 0x00C10233 = .ok (.add 6 4 4) := by
  unfold issues fetches; decide
theorem stepRunsDecoded_illegal :
    let s := State.reset.withFetchWord 32 0xFFFFFFFF
    issues s 0 0 ∧ fetches { s with ic := 0, is := 0 } (at0 0x10000) 0xFFFFFFFF ∧ (decode 0xFFFFFFFF).isOk = false := by
  unfold issues fetches; decide
/-- Its thread about to fetch from x. -/
def fetching (x : Word) : State := ready.updCur fun t => { t with pc := x }
theorem stepRunsDecoded_faults :
    let need : Need := { x := true, noWindow := true }
    (issues (fetching 0x10002) 0 0 ∧ (fetching 0x10002).cur.pc.toNat % 4 ≠ 0) ∧
    (issues (fetching 0xFFFF000000000000) 0 0 ∧ (fetching 0xFFFF000000000000).xlate 0 0 need ⟨0, 0xFFFF000000000000⟩ = .window) ∧
    (issues (fetching (2 ^ 48)) 0 0 ∧ (fetching (2 ^ 48)).xlate 0 0 need ⟨0, 2 ^ 48⟩ = .access) ∧
    (let s := (fetching 0x10000).updCore 0 fun k => { k with tlb := [⟨0, 0, 2 ^ 30, 0x53, 0⟩] }
    issues s 0 0 ∧ s.xlate 0 0 need ⟨0, 0x10000⟩ = .page) ∧
    (let s : State := { fetching 0x10000 with poison := [0x10000 / 32] }
    issues s 0 0 ∧ s.xlate 0 0 need ⟨0, 0x10000⟩ = .ok (at0 0x10000) ∧ (s.readPlace (at0 0x10000).place 4).2.1.isSome = true) := by
  unfold issues; and_intros <;> decide +kernel
theorem stepTurns :
    ({ State.reset with inputs := [.event .powerGood] } : State).inputs = .event .powerGood :: [] ∧
    ({ State.reset with inputs := [.core 3] } : State).inputs = .core 3 :: [] ∧
    ({ State.reset with inputs := [.outside (.corrected 0)] } : State).inputs = .outside (.corrected 0) :: [] ∧
    State.reset.inputs = [] ∧ ({ State.reset with agenda := [.sweep] } : State).agenda = .sweep :: [] ∧
    (let s := ready.updCore 0 fun k => { k with boundaryDone := false }
    s.inputs = [] ∧ s.agenda = [] ∧ (s.core s.focus).started = true ∧ (s.core s.focus).cyc % 16 = 0 ∧
      (s.core s.focus).boundaryDone = false) ∧
    (let s := ready.updCur fun t => { t with pc := 0x10002 }
    issues s 0 0 ∧ (s.thread 0 0).pc.toNat % 4 ≠ 0) := by
  unfold issues; decide

/-! Scalar instructions. The registers named run from 0 to 119. -/

theorem integerOperations : named ready.cur [0, 119, 5] := by unfold named; decide
theorem multiplicationAndDivision : 8 ≤ (8 : BitVec 4).toNat ∧
    (let s := regs [(5, 7)]
    named s.cur [5, 6, 7] ∧ X s 6 = 0) ∧
    (let s := regs [(5, 0x8000000000000000), (6, -1)]
    named s.cur [5, 6, 7] ∧ X s 5 = BitVec.ofInt 64 (-2 ^ 63) ∧ X s 6 = -1) ∧
    (let s := regs [(5, 0x8000000000000000), (6, 1)]
    named s.cur [5, 6, 7] ∧ X s 6 ≠ 0 ∧ ¬(X s 5 = BitVec.ofInt 64 (-2 ^ 63) ∧ X s 6 = -1)) := by unfold named; decide
theorem bitCounts : named ready.cur [0, 119] ∧ 11 ≤ (11 : BitVec 4).toNat := by unfold named; decide
theorem bitFields : named ready.cur [0, 119, 5] := by unfold named; decide
theorem immediates : named ready.cur [0, 119] := by unfold named; decide
theorem predicates : 14 ≤ (14 : BitVec 4).toNat ∧ named ready.cur [0, 119] ∧ named ready.cur [119] ∧ named ready.cur [0] := by unfold named; decide
theorem floatArithmetic : named ready.cur [0, 119, 5] := by unfold named; decide
theorem floatSelection :
    (let s := regs [(5, 0x7FC00000)]
    named s.cur [5, 6, 7] ∧ Val.isNan (fval .fp32 (X s 5)) = true ∧ Val.isNan (fval .fp64 (X s 5)) = false) ∧
    (let s := regs [(5, 0x7FF8000000000000)]
    named s.cur [5, 6, 7] ∧ Val.isNan (fval .fp64 (X s 5)) = true ∧ Val.isNan (fval .fp32 (X s 5)) = false) := by unfold named; decide
theorem floatComparisons : named ready.cur [0, 119, 5] := by unfold named; decide
theorem floatConversions : named ready.cur [0, 119] := by unfold named; decide
theorem floatNaN :
    (let s := regs [(5, 0x7FC00000)]
    named s.cur [5, 6, 7] ∧ fval .fp32 (X s 5) = .nan) ∧
    (let s := regs [(6, 0x7FF8000000000000)]
    named s.cur [5, 6, 7] ∧ fval .fp64 (X s 6) = .nan) ∧
    (let s := regs [(7, 0x7FC00000)]
    named s.cur [5, 6, 7] ∧ fval .fp32 (X s 7) = .nan) ∧
    (let s := regs [(7, 0x7FF8000000000000)]
    named s.cur [5, 6, 7] ∧ fval .fp64 (X s 7) = .nan) := by unfold named; decide
theorem branches : named ready.cur [0, 119] := by unfold named; decide
theorem loopBranch : named ready.cur [119] ∧ named light.cur [5] ∧ light.cur.light = true := by unfold named; decide
theorem jumps :
    (let s := regs [(5, 0x10000)]
    named s.cur [5, 7] ∧ (X s 5 + BitVec.ofInt 64 ((0xFF : BitVec 8).toInt * 4)).toNat % 4 = 0) ∧
    (let s := regs [(5, 0x10001)]
    named s.cur [5, 7] ∧ (X s 5 + BitVec.ofInt 64 ((0 : BitVec 8).toInt * 4)).toNat % 4 ≠ 0) := by unfold named; decide

/-! Loads and stores. -/

/-- A window access and a cache hit are fixed-latency, and a miss is not. -/
theorem scalarLoads :
    (let s := banked.updCur fun t => { t with regs := [(5, 0xFFFF000000000000)] }
    let va := address s 5 0 8
    named s.cur [5, 7] ∧ reaches s { r := true } 8 va (inBank 0) ∧ s.cur.redOverlap (inBank 0).place 8 = false ∧
      s.fixed (bypasses s 5) false (inBank 0) 8 = true ∧ banksGrant s (s.bankOf (inBank 0)) = true ∧
      (s.readFor s.ic s.is (bypasses s 5) (inBank 0) 8).2.1 = none) ∧
    (let s := (caching 0 1).updCur fun t => { t with regs := [(5, 0x4000)] }
    let va := address s 5 3 8
    named s.cur [5, 7] ∧ reaches s { r := true } 8 va (at0 0x4018) ∧ s.cur.redOverlap (at0 0x4018).place 8 = false ∧
      s.fixed (bypasses s 5) false (at0 0x4018) 8 = true ∧ banksGrant s (s.bankOf (at0 0x4018)) = true ∧
      (s.readFor s.ic s.is (bypasses s 5) (at0 0x4018) 8).2.1 = some 0) ∧
    (let s := refusing.updCur fun t => { t with regs := [(5, 0x4000)] }
    reaches s { r := true } 8 (address s 5 3 8) (at0 0x4018) ∧ s.cur.redOverlap (at0 0x4018).place 8 = false ∧
      s.fixed (bypasses s 5) false (at0 0x4018) 8 = true ∧ banksGrant s (s.bankOf (at0 0x4018)) = false) ∧
    (let s := regs [(5, 0x4000)]
    reaches s { r := true } 1 (address s 5 127 1) (at0 0x407F) ∧ s.fixed (bypasses s 5) false (at0 0x407F) 1 = false) ∧
    (let s := (regs [(5, 0x4000)]).updCur fun t => { t with reds := [⟨0, .home 0x4000, 8, 0⟩] }
    reaches s { r := true } 1 (address s 5 7 1) (at0 0x4007) ∧ s.cur.redOverlap (at0 0x4007).place 1 = true) := by
  unfold named reaches; decide
theorem scalarStores :
    (let s := banked.updCur fun t => { t with regs := [(5, 0xFFFF000000001FF8)] }
    named s.cur [5, 6] ∧ reaches s { w := true } 8 (address s 5 ((0 : BitVec 4) ++ (0 : BitVec 4)) 8) (inBank 0x1FF8) ∧
      s.cur.redOverlap (inBank 0x1FF8).place 8 = false ∧ s.fixed (bypasses s 5) true (inBank 0x1FF8) 8 = true ∧
      banksGrant s (s.bankOf (inBank 0x1FF8)) = true) ∧
    (let s := refusing.updCur fun t => { t with regs := [(5, 0x4000)] }
    reaches s { w := true } 8 (address s 5 ((0 : BitVec 4) ++ (3 : BitVec 4)) 8) (at0 0x4018) ∧
      s.cur.redOverlap (at0 0x4018).place 8 = false ∧
      s.fixed (bypasses s 5) true (at0 0x4018) 8 = true ∧ banksGrant s (s.bankOf (at0 0x4018)) = false) ∧
    (let s := regs [(5, 0x4000)]
    reaches s { w := true } 8 (address s 5 ((0xF : BitVec 4) ++ (0xF : BitVec 4)) 8) (at0 0x3FF8) ∧ s.fixed (bypasses s 5) true (at0 0x3FF8) 8 = false) := by
  unfold named reaches; decide
theorem accessFaults :
    (let s := regs [(5, 0x4007)]
    named s.cur [5, 7] ∧ (address s 5 0 8).off.toNat % 8 ≠ 0) ∧
    (let s := regs [(5, 0x40000000)]
    s.xlate s.ic s.is { r := true } (address s 5 0 8) = .miss ∧ (address s 5 0 8).off.toNat % 8 = 0) ∧
    (let s := regs [(5, 0xFFFF000000000000)]
    s.xlate s.ic s.is { w := true } (address s 5 0 8) = .window) ∧
    (let s := regs [(5, 0x1000000000000)]
    s.xlate s.ic s.is { r := true } (address s 5 0 8) = .access) ∧
    (let s := (regs [(5, 0x4000)]).updCore 0 fun k => { k with tlb := [⟨0, 0, 2 ^ 30, 0x5B, 0⟩] }
    s.xlate s.ic s.is { w := true } (address s 5 0 8) = .page) := by
  unfold named; decide
/-- All lanes in a bank; in a cached line whose bank is taken, or that is poisoned; a lane that misses; one that a pending RED touches. -/
theorem vectorMemory :
    (let s := banked.updCur fun t => { t with regs := [(5, 0xFFFF000000001F80)] }
    let vas := laneAddrs s.cur.space (X s 5) 4 32
    let ts := (span 0 32).map fun i => inBank (0x1F80 + 4 * i)
    vectorReady s [5, 6] [6] [] ∧ (∀ va ∈ vas, va.off.toNat % 4 = 0) ∧
      List.Forall₂ (fun va x => s.xlate s.ic s.is { r := true } va = .ok x ∧ s.unreachable x = false) vas ts ∧
      List.Forall₂ (fun va x => s.xlate s.ic s.is { w := true } va = .ok x ∧ s.unreachable x = false) vas ts ∧
      (ts.any fun x => s.cur.redOverlap x.place 4) = false ∧
      (∀ x ∈ ts, s.fixed (bypasses s 5) false x 4 = true ∧ s.fixed (bypasses s 5) true x 4 = true) ∧
      banksGrant s (ts.map s.bankOf).flatten = true ∧ (s.readLanes s.ic s.is (bypasses s 5) 4 ts).2.1 = none) ∧
    (let s := refusing.updCur fun t => { t with regs := [(5, 0x4000)] }
    let vas := laneAddrs s.cur.space (X s 5) 4 32
    let ts := (span 0 32).map fun i => at0 (0x4000 + 4 * i)
    vectorReady s [5] [6] [] ∧ (∀ va ∈ vas, va.off.toNat % 4 = 0) ∧
      List.Forall₂ (fun va x => s.xlate s.ic s.is { r := true } va = .ok x ∧ s.unreachable x = false) vas ts ∧
      List.Forall₂ (fun va x => s.xlate s.ic s.is { w := true } va = .ok x ∧ s.unreachable x = false) vas ts ∧
      (ts.any fun x => s.cur.redOverlap x.place 4) = false ∧
      (∀ x ∈ ts, s.fixed (bypasses s 5) false x 4 = true ∧ s.fixed (bypasses s 5) true x 4 = true) ∧
      banksGrant s (ts.map s.bankOf).flatten = false) ∧
    (let s := (caching 0 8).updCur fun t => { t with regs := [(5, 0x4000)] }
    let ts := (span 0 32).map fun i => at0 (0x4000 + 4 * i)
    (∀ x ∈ ts, s.fixed (bypasses s 5) false x 4 = true) ∧ banksGrant s (ts.map s.bankOf).flatten = true ∧
      (s.readLanes s.ic s.is (bypasses s 5) 4 ts).2.1 = some ⟨0, 0x4060⟩) ∧
    (let s := regs [(5, 0x4000), (6, 4)]
    let vas := laneAddrs s.cur.space (X s 5) (X s 6) 32
    let ts := (span 0 32).map fun i => at0 (0x4000 + 4 * i)
    vectorReady s [5, 6] [1] [] ∧
      List.Forall₂ (fun va x => s.xlate s.ic s.is { r := true } va = .ok x ∧ s.unreachable x = false) vas ts ∧
      (ts.all fun x => s.fixed (bypasses s 5 || fresh s [6]) false x 4) = false) ∧
    (let s := (regs [(5, 0x4000)]).updCur fun t => { t with reds := [⟨0, .home 0x407C, 4, 0⟩] }
    let ts := (span 0 32).map fun i => at0 (0x4000 + 4 * i)
    (ts.any fun x => s.cur.redOverlap x.place 4) = true) := by
  unfold vectorReady; and_intros <;> decide +kernel

/-! Vector instructions: groups v1 to v6 lie in an allocation of 112 or more. -/

theorem lanewiseResults : (6 : BitVec 3) ≠ 0 ∧ vectorReady ready [] [6, 2, 1] (maskRegs true) ∧ vectorReady ready [] [1, 2, 6] (maskRegs false) := by
  unfold vectorReady; decide
theorem unaryResults : (6 : BitVec 3) ≠ 0 ∧ vectorReady ready [] [6, 1] [] ∧ vectorReady ready [] [6, 2, 1] [12, 13] := by
  unfold vectorReady; decide
theorem compareResults : vectorReady ready [] [6, 1] [12, 13] := by unfold vectorReady; decide
/-- A table that decodes every byte to one value. -/
def tabled : State := ready.updCore 0 fun k => { k with fmt := some [] }
theorem conversionResults :
    (6 : BitVec 3) ≠ 0 ∧ vectorReady ready [] [6, 1] (maskRegs true) ∧ vectorReady ready [] [6, 2, 1] (maskRegs true) ∧
    ready.cur.vsrc.getLsbD 36 = false ∧ (ready.updCur fun t => { t with vsrc := 0x1000000000 }).cur.vsrc.getLsbD 36 = true ∧
    (ready.core ready.ic).fmtSeen ready.is = none ∧ ((tabled.core 0).fmtSeen 0).isSome = true ∧
    (1024 / laneWidth (8 : BitVec 4).toNat) * ((3 : BitVec 4).toNat + 1) ≤ 128 := by unfold vectorReady; decide
theorem accumulateAndPermute :
    (6 : BitVec 3) ≠ 0 ∧ vectorReady ready [] [6, 2, 1] (maskRegs true) ∧ vectorReady ready [] [6, 2, 1] (maskRegs true ++ [14]) ∧
    1024 / laneWidth (1 : BitVec 4).toNat ≤ 1024 / laneWidth (1 : BitVec 4).toNat := by unfold vectorReady; decide
/-- Byte 243 is the lowest illegal one: byte 0 of v1 holds it. -/
theorem ternaryUnpacking :
    (let s := (regs [(16, 243)]).updCur fun t => { t with trapen := true }
    vectorReady s [] [2, 1] (maskRegs true) ∧ s.cur.trapen = true ∧ 0 < (1024 / laneWidth 0 + 4) / 5 ∧ 243 ≤ lane s.cur 8 1 0) ∧
    (let s := regs [(16, 243)]
    s.cur.trapen = false ∧ 243 ≤ lane s.cur 8 1 0) ∧
    (let s := (regs [(16, 242)]).updCur fun t => { t with trapen := true }
    ∀ j < 26, lane s.cur 8 1 j < 243) := by unfold vectorReady; decide

/-! Frames. -/

theorem registerFrame : named ready.cur [0, 119, 5] ∧
    (∃ u, exec (.add 119 0 5) ready = .next u) ∧ (∃ u, exec (.addi 0xFF 119 0) ready = .next u) ∧
    (∃ u, exec (.faddS 119 0 5) ready = .next u) ∧ (∃ u, exec (.fcvtSI 119 5) ready = .next u) :=
  ⟨by unfold named; decide, ⟨_, rfl⟩, ⟨_, rfl⟩, ⟨_, rfl⟩, ⟨_, rfl⟩⟩
theorem memoryFrame :
    (let s := banked.updCur fun t => { t with regs := [(5, 0xFFFF000000001FF8), (6, 0x0123456789ABCDEF)] }
    named s.cur [5, 6] ∧ reaches s { w := true } 8 (address s 5 ((0 : BitVec 4) ++ (0 : BitVec 4)) 8) (inBank 0x1FF8) ∧
      s.cur.redOverlap (inBank 0x1FF8).place 8 = false ∧ banksGrant s (s.bankOf (inBank 0x1FF8)) = true ∧
      (s.cores.all fun k => k.2.slots.all fun z => z.2.monitors.isEmpty) = true ∧ memoriesWf s = true ∧
      (result (exec (.sd 0 6 5 0) s)).map (fun u => memRead (u.core 0).sram 0x5FF8 8) =
        some [0xEF, 0xCD, 0xAB, 0x89, 0x67, 0x45, 0x23, 0x01]) ∧
    (let s := regs [(5, 0x4000)]
    reaches s { w := true } 8 (address s 5 ((0 : BitVec 4) ++ (0 : BitVec 4)) 8) (at0 0x4000) ∧ s.fixed (bypasses s 5) true (at0 0x4000) 8 = false) ∧
    (let s := banked.updCur fun t => { t with regs := [(5, 0xFFFF000000001FF8)] }
    named s.cur [5, 7] ∧ reaches s { r := true } 8 (address s 5 0 8) (inBank 0x1FF8)) ∧
    (∀ l ∈ ((caching 0 0).core 0).cache, l.dirty = 0 ∨ l.writer = (caching 0 0).cur.id) ∧
    (refusing.cores.all fun k => k.2.slots.all fun z => z.2.monitors.isEmpty) = true := by
  unfold named reaches; decide

/-! Ordered accesses, cache control and replies. -/

/-- Its thread parked. -/
def parkedOn (w : Wait) : State := ready.updCur fun t => { t with st := .parked w }
/-- Its thread with a RED to the bytes at 0x4000. -/
def owing (l : Tab Word) : State := (regs l).updCur fun t => { t with reds := [⟨0, .home 0x4000, 8, 0⟩] }

theorem orderedAccesses :
    (2 ≤ (2 : BitVec 3).toNat ∧ ¬ 2 ≤ (1 : BitVec 3).toNat ∧ light.cur.light = true) ∧
    (let s := regs [(5, 0x4000)]
    s.cur.light = false ∧ named s.cur [5, 7] ∧ reaches s { r := true } 8 (address s 5 0 1) (at0 0x4000) ∧
      reaches s { r := true } 4 (address s 5 0 1) (at0 0x4000) ∧ named s.cur [5, 6] ∧
      reaches s { w := true } 8 (address s 5 0 1) (at0 0x4000) ∧ reaches s { w := true } 4 (address s 5 0 1) (at0 0x4000) ∧
      s.cur.reds = [] ∧ s.dirtyPinned s.ic = false) ∧
    (let s := light.updCur fun t => { t with regs := [(5, 0x4000)] }
    s.cur.light = true ∧ named s.cur [5, 6] ∧ reaches s { w := true } 8 (address s 5 0 1) (at0 0x4000) ∧ s.cur.reds = []) ∧
    (let s := owing [(5, 0x4000)]
    named s.cur [5, 6] ∧ reaches s { w := true } 8 (address s 5 0 1) (at0 0x4000) ∧ s.cur.reds ≠ []) := by
  unfold named reaches; and_intros <;> decide
theorem fencesAndSignatures :
    ((0b0100 : BitVec 5).getLsbD 2 = true ∧ (owing []).cur.reds ≠ []) ∧ (0b1011 : BitVec 5).getLsbD 2 = false ∧
    (ready.cur.reds = [] ∧ (decide (2 ≤ (2 : BitVec 3).toNat) && !ready.cur.light) = true ∧
      (decide (2 ≤ (1 : BitVec 3).toNat) && !ready.cur.light) = false ∧ ready.dirtyPinned ready.ic = false) ∧
    ((0b0101 : BitVec 5).getLsbD 2 = true ∧ (0b0101 : BitVec 5).getLsbD 0 = true ∧ pinned.cur.reds = [] ∧
      pinned.dirtyPinned pinned.ic = true) ∧
    light.cur.light = true ∧ (∀ i < 8, ready.cur.rename ((112 : BitVec 7).toNat + i) < ready.cur.bound) := by and_intros <;> decide
theorem cacheControl :
    (let s := regs [(5, 0x4000)]
    named s.cur [5] ∧ ¬ (s.cur.light = true ∨ s.ownSpace (address s 5 0 1).space = false) ∧ s.region (address s 5 0 1) ≠ .window ∧
      s.xlate s.ic s.is { r := true } (address s 5 0 1) = .ok (at0 0x4000) ∧ (at0 0x4000).attr = 0 ∧
      (s.core s.ic).line (0x4000 / 128) = none ∧ s.cacheable s.ic (at0 0x4000) = false) ∧
    (let s := (caching 0 0).updCur fun t => { t with regs := [(5, 0x4000)] }
    s.xlate s.ic s.is { r := true } (address s 5 0 1) = .ok (at0 0x4000) ∧
      (s.core s.ic).line (0x4000 / 128) = some (cachedLine 0 0) ∧ (cachedLine 0 0).dirty = 0 ∧
      s.cacheable s.ic (at0 0x4000) = true ∧ s.fillHeld s.ic 0x4000 = false) ∧
    (let s := (caching 1 0).updCur fun t => { t with regs := [(5, 0x407F)] }
    s.xlate s.ic s.is { r := true } (address s 5 0 1) = .ok (at0 0x407F) ∧
      (s.core s.ic).line (0x407F / 128) = some (cachedLine 1 0) ∧ (cachedLine 1 0).dirty ≠ 0 ∧ s.pinned (at0 0x407F).place = false) ∧
    (let s := pinned.updCur fun t => { t with regs := [(5, 0x4000)] }
    s.xlate s.ic s.is { r := true } (address s 5 0 1) = .ok (at0 0x4000) ∧ (cachedLine 1 0).dirty ≠ 0 ∧
      s.pinned (at0 0x4000).place = true) ∧
    (let s := banked.updCur fun t => { t with regs := [(5, 0xFFFF000000000000)] }
    s.region (address s 5 0 1) = .window ∧ s.xlate s.ic s.is { r := true } (address s 5 0 1) = .ok (inBank 0) ∧ (inBank 0).attr ≠ 0) ∧
    (let s := regs [(5, 0x40000000)]
    s.xlate s.ic s.is { r := true } (address s 5 0 1) = .miss) ∧
    light.cur.light = true ∧ ready.ownSpace 7 = false := by
  unfold named; refine ⟨?_, ?_, ?_, ?_, ?_, ?_, ?_, ?_⟩ <;> decide +kernel
theorem accessReplies :
    (let s := parkedOn (.access (.load (at0 0x4000) 8 false 7 true true))
    (s.thread 0 0).wait = some (.access (.load (at0 0x4000) 8 false 7 true true)) ∧
      ((s.thread 0 0).redOverlap (at0 0x4000).place 8 || s.readHeld 0 0 true (at0 0x4000) 8 || (true && s.dirtyPinned 0)) = false ∧
      isPort (BitVec.ofNat 7 7) = false ∧
      (State.readFor ({ s with ic := 0, is := 0 }.wake 0 0) 0 0 true (at0 0x4000) 8).2.1 = none) ∧
    (let s := { parkedOn (.access (.load (at0 0x4000) 8 false 7 true false)) with poison := [0x4000 / 32] }
    (State.readFor ({ s with ic := 0, is := 0 }.wake 0 0) 0 0 true (at0 0x4000) 8).2.1 = some 0) ∧
    (let s := (owing []).updCur fun t => { t with st := .parked (.access (.load (at0 0x4007) 1 false 7 true false)) }
    (s.thread 0 0).wait = some (.access (.load (at0 0x4007) 1 false 7 true false)) ∧
      (s.thread 0 0).redOverlap (at0 0x4007).place 1 = true) ∧
    (let s := parkedOn (.access (.store (at0 0x4000) 8 1 true none))
    (s.thread 0 0).wait = some (.access (.store (at0 0x4000) 8 1 true none)) ∧
      (s.thread 0 0).redOverlap (at0 0x4000).place 8 = false ∧ s.writeHeld 0 0 true (at0 0x4000) 8 = false) ∧
    (let s := pinned.updCur fun t => { t with st := .parked (.access (.store (at0 0x4000) 8 1 true none)) }
    (s.thread 0 0).wait = some (.access (.store (at0 0x4000) 8 1 true none)) ∧ s.writeHeld 0 0 true (at0 0x4000) 8 = true) ∧
    (let ts := [(0, at0 0x4000), (1, at0 0x4004)]
    let s := parkedOn (.access (.vload ts [] none 4 1 false true))
    (s.thread 0 0).wait = some (.access (.vload ts [] none 4 1 false true)) ∧
      (ts.any fun x => (s.thread 0 0).redOverlap x.2.place 4) = false ∧ (ts.filter fun x => !s.readHeld 0 0 true x.2 4) = ts ∧
      ts ≠ [] ∧ ts.erase (1, at0 0x4004) ≠ [] ∧ [(0, at0 0x4000)].erase (0, at0 0x4000) = []) ∧
    (let s := (owing []).updCur fun t => { t with st := .parked (.access (.vload [(0, at0 0x4004)] [] none 4 1 false true)) }
    ([(0, at0 0x4004)].any fun x => (s.thread 0 0).redOverlap x.2.place 4) = true) ∧
    (let ls : List (Target × BitVec 32) := [(at0 0x4000, 1), (at0 0x4004, 2)]
    let s := parkedOn (.access (.vstore ls 4 true))
    (s.thread 0 0).wait = some (.access (.vstore ls 4 true)) ∧ (ls.any fun x => (s.thread 0 0).redOverlap x.1.place 4) = false ∧
      ((freeLanes 4 [] ls).filter fun x => !s.writeHeld 0 0 true x.1 4) = ls ∧ (s.laneWrite 0 4 ls (at0 0x4000, 1)).2 ≠ [] ∧
      (s.laneWrite 0 4 [(at0 0x4000, 1)] (at0 0x4000, 1)).2 = []) ∧
    (let ls : List (Target × BitVec 32) := [(at0 0x4000, 1)]
    let s := pinned.updCur fun t => { t with st := .parked (.access (.vstore ls 4 true)) }
    (s.thread 0 0).wait = some (.access (.vstore ls 4 true)) ∧
      ((freeLanes 4 [] ls).filter fun x => !s.writeHeld 0 0 true x.1 4) = []) ∧
    ((parkedOn (.access (.done true))).thread 0 0).wait = some (.access (.done true)) := by and_intros <;> decide +kernel

/-! Atomics. -/

/-- A packet that asks for an AMO.ADD (kind 1) or sends a RED.ADD (kind 2) of 1 at 0x4000. -/
def asks (kind f4 : Nat) : MigPacket := ⟨kind, 0, BitVec.ofNat 40 (f4 * 4096), 0, [1, 0], 0, 0, some (at0 0x4000), 0, 0⟩

theorem atomics :
    (let s := regs [(5, 0x4000)]
    let va := address s 5 0 1
    named s.cur [5, 6, 7] ∧ va.off.toNat % 8 = 0 ∧ s.xlate s.ic s.is { r := true, w := true, noWindow := true } va = .ok (at0 0x4000) ∧
      s.xlate s.ic s.is { w := true, noWindow := true } va = .ok (at0 0x4000) ∧
      s.cur.light = false ∧ s.cur.redOverlap (at0 0x4000).place 8 = false ∧ s.cur.reds = [] ∧
      s.queueRoom (at0 0x4000).queue = true ∧ s.dirtyPinned s.ic = false) ∧
    (let s := (regs [(5, 0x4000)]).updCore 0 fun k => { k with migIn := List.replicate 16 (asks 2 11) }
    s.queueRoom (at0 0x4000).queue = false) ∧
    (let s := light.updCur fun t => { t with regs := [(5, 0x4000), (6, 1)] }
    let va := address s 5 0 1
    named s.cur [5, 6, 7] ∧ s.xlate s.ic s.is { r := true, w := true, noWindow := true } va = .ok (at0 0x4000) ∧
      (at0 0x4000).homeCore = some s.ic ∧ s.pinned (at0 0x4000).place = false ∧
      (s.combineAt (.core s.ic) (at0 0x4000) 0 1 0 (some none)).2.1 = none ∧
      (State.combineAt { s with poison := [0x4000 / 32] } (.core s.ic) (at0 0x4000) 0 1 0 (some none)).2.1 = some 0) ∧
    (∀ f v e, (at0 0x4000).place ≠ .mx f v e) ∧ (∀ sp p, (at0 0x4000).place ≠ .remote sp p) :=
  ⟨by unfold named; decide, by decide, by unfold named; decide, fun _ _ _ h => (nomatch h), fun _ _ h => (nomatch h)⟩
/-- Its issuing slot holding a proxy or an update. -/
def seats (p : MigPacket) : State := ready.updCur fun t => { t with light := true, alloc := 16, proxy := some p }
theorem proxies :
    (let s := seats (asks 1 0)
    s.proxyNow 0 = some (asks 1 0) ∧ (asks 1 0).target = some (at0 0x4000) ∧ (asks 1 0).device = 0 ∧
      s.pinned (at0 0x4000).place = false ∧ (asks 1 0).kind = 1 ∧ 0 < Config.cores) ∧
    (let s := seats (asks 2 11)
    s.proxyNow 0 = some (asks 2 11) ∧ (asks 2 11).kind = 2 ∧ s.updateAhead 0 (asks 2 11) = false) ∧
    (let s := (seats { asks 2 11 with serial := 1 }).putThread 0 1 { alloc := 8, proxy := some (asks 2 11) }
    s.updateAhead 0 { asks 2 11 with serial := 1 } = true) ∧
    (let p := { asks 1 0 with device := 7 }
    (seats p).proxyNow 0 = some p ∧ p.device ≠ 0 ∧ (seats p).pinned (at0 0x4000).place = false) ∧
    (let p := { asks 2 11 with device := 7 }
    (seats p).proxyNow 0 = some p ∧ (seats p).updateAhead 0 p = false) ∧
    (let s := (seats (asks 1 0)).updCluster 0 fun c => { c with pins := [⟨0x80, 0, 0x80⟩] }
    s.proxyNow 0 = some (asks 1 0) ∧ s.pinned (at0 0x4000).place = true) ∧
    (let s := (parkedOn (.proxy 7)).updCore 0 fun k => { k with replies := [(0, ⟨5, 0, false, ⟨0, 0⟩⟩)] }
    tabFind (s.core 0).replies 0 = some ⟨5, 0, false, ⟨0, 0⟩⟩ ∧ (s.thread 0 0).wait = some (.proxy 7)) ∧
    (let s := (parkedOn (.proxy 7)).updCore 0 fun k => { k with replies := [(0, ⟨5, 0, true, ⟨0, 0x4000⟩⟩)] }
    tabFind (s.core 0).replies 0 = some ⟨5, 0, true, ⟨0, 0x4000⟩⟩ ∧ (s.thread 0 0).wait = some (.proxy 7)) := by
  and_intros <;> decide +kernel

/-! Barriers, monitors, requests, threads, launches and ranges. -/

/-- Its core with barrier 1023 as given. -/
def barrier (b : Barrier) (l : Tab Word) : State := (regs l).updCore 0 fun k => { k with barriers := [(1023, b)] }
/-- Its core with threads of A = 120 in slots 0 to n − 1, one after another from block 12. -/
def crowd (n : Nat) : State := ready.updCore 0 fun k => { k with
  slots := (span 0 n).map fun i => (i, ({ st := .ready 0 false, alloc := 120, block := 12 + 15 * i } : Thread)) }
/-- A message for slot 0 of instance 0. -/
def mail (half : Bool) : Message := ⟨0, 0, 5, half, none⟩

theorem barriers :
    (let s := barrier {} [(5, 1023), (6, 64)]
    s.cur.light = false ∧ named s.cur [5, 6, 7] ∧ (X s 5).toNat % 1024 = 1023 ∧ (X s 6).toNat = 64 ∧
      ¬ ((tabGet {} (s.core s.ic).barriers 1023 : Barrier).owner = some s.cur.inst) ∧ s.cur.granted = none ∧ s.cur.reds = []) ∧
    (let s := barrier {} [(5, 1023)]
    (X s 6).toNat = 0) ∧
    (let s := barrier {} [(6, 65)]
    64 < (X s 6).toNat) ∧
    (let s := barrier ⟨some 0, 2, 3, 2, 0, []⟩ [(5, 3 * 1024 + 1023), (6, 1)]
    let x : Barrier := tabGet {} (s.core s.ic).barriers 1023
    x.owner = some s.cur.inst ∧ x.mask ≠ 0 ∧ x.mask.getLsbD s.is = false ∧ (X s 5).getLsbD 63 = false ∧
      x.phase = (X s 5).extractLsb' 10 32 ∧ releases s 0 s 0) ∧
    (let s := barrier ⟨some 0, 2, 4, 1, 0, []⟩ [(5, 3 * 1024 + 1023)]
    let x : Barrier := tabGet {} (s.core s.ic).barriers 1023
    x.owner = some s.cur.inst ∧ x.mask.getLsbD s.is = true ∧ x.phase ≠ (X s 5).extractLsb' 10 32 ∧ mayAcquire s 2) ∧
    (pinned.dirtyPinned pinned.ic = true ∧ 2 ≤ (2 : BitVec 3).toNat) ∧
    (let s := barrier ⟨some 0, 2, 4, 1, 0, []⟩ [(5, 2 ^ 63 + 1023)]
    (X s 5).getLsbD 63 = true) ∧
    (let s := barrier ⟨some 1, 2, 0, 0, 0, []⟩ [(5, 1023), (6, 1)]
    let x : Barrier := tabGet {} (s.core s.ic).barriers 1023
    x.owner = some 1 ∧ 1 ≠ s.cur.inst ∧ 1 ≤ (X s 6).toNat) ∧
    (ready.updCur fun t => { t with granted := some 0 }).cur.granted = some 0 := by
  unfold named releases mayAcquire; and_intros <;> decide +kernel
theorem barriers_taken :
    let s : State := { (barrier ⟨some 1, 2, 0, 0, 0, []⟩ [(5, 1023), (6, 1)]) with
      insts := tabPut ready.insts 1 { packet := 0, core := 1, order := 1, scratch := [], operand := [], queues := 0, host := true, fmtp := 0 } }
    (tabGet {} (s.core s.ic).barriers 1023 : Barrier).owner = some 1 ∧ (s.inst 1).isSome = true := by decide +kernel
theorem monitorsAndWaits :
    (let s := regs [(5, 0x4000), (6, 1)]
    let va := address s 5 0 1
    s.cur.light = false ∧ named s.cur [5, 6] ∧ named s.cur [5, 7] ∧ s.xlate s.ic s.is { r := true } va = .ok (at0 0x4000) ∧
      s.cur.monitors = [] ∧ s.cur.granted = none ∧ va.off.toNat % 8 = 0 ∧ s.unreachable (at0 0x4000) = false ∧
      s.cur.redOverlap (at0 0x4000).place 8 = false ∧ s.readHeld s.ic s.is true (at0 0x4000) 8 = false ∧ mayAcquire s 2 ∧
      (s.readFor s.ic s.is true (at0 0x4000) 8).2.1 = none ∧
      leNat (s.readFor s.ic s.is true (at0 0x4000) 8).1 < (X s 6).toNat ∧ (s.core s.ic).oldest s.cur.inst s.is = none) ∧
    (let s := regs [(5, 0x4000)]
    (X s 6).toNat ≤ leNat (s.readFor s.ic s.is true (at0 0x4000) 8).1) ∧
    (let s := ready.updCur fun t => { t with monitors := [⟨.home 0x4000, true, true⟩] }
    (s.cur.monitors.any fun m => m.place = (at0 0x407F).place.block) = true ∧ (s.cur.monitors.any fun m => m.triggered) = true ∧
      ((s.thread 0 0).monitors.any fun m => m.noticed) = true) ∧
    (let s := ready.updCur fun t => { t with monitors := (span 0 4).map fun i => ⟨.home (0x8000 + 128 * i), false, false⟩ }
    (s.cur.monitors.any fun m => m.place = (at0 0x4000).place.block) = false ∧ 4 ≤ s.cur.monitors.length ∧ s.cur.monitors ≠ [] ∧
      (s.cur.monitors.any fun m => m.triggered) = false) ∧
    (ready.updCur fun t => { t with granted := some 0 }).cur.granted = some 0 ∧
    (let s := ready.updCore 0 fun k => { k with mailbox := [mail false] }
    (s.core s.ic).oldest s.cur.inst s.is = some (mail false)) ∧
    ((parkedOn (.monitor 7 1 1 0)).thread 0 0).st = .parked (.monitor 7 1 1 0) := by
  unfold named mayAcquire; and_intros <;> decide +kernel
theorem requestRegisters :
    (let s := ready
    s.cur.light = false ∧ s.cur.rename (5 : BitVec 7).toNat < s.cur.bound ∧ (∀ i < 4, s.cur.rename ((116 : BitVec 7).toNat + i) < s.cur.bound) ∧
      s.cur.reds = [] ∧ s.dirtyPinned s.ic = false ∧ tabFind ((s.releaseCore s.ic).core 0).requests 0 = none ∧
      tabFind (s.core s.ic).requests 0 = none ∧ named s.cur [5]) ∧
    (let s := ready.updCore 0 fun k => { k with requests := [(0, ⟨0, 0, 0, 0⟩)] }
    let u := s.releaseCore s.ic
    tabFind (s.core s.ic).requests 0 = some ⟨0, 0, 0, 0⟩ ∧ tabFind (u.core u.ic).requests 0 = some ⟨0, 0, 0, 0⟩ ∧
      u.backingDepth u.cur.inst ≤ ((u.core u.ic).waitingOf u.cur.inst).length) ∧
    (let s := (ready.updCore 0 fun k => { k with requests := [(0, ⟨0, 0, 0, 0⟩)] }).updInst 0 fun i => { i with queues := 1#256 <<< 32 }
    let u := s.releaseCore s.ic
    ((u.core u.ic).waitingOf u.cur.inst).length < u.backingDepth u.cur.inst) := by
  unfold named; refine ⟨?_, ?_, ?_⟩ <;> decide +kernel
theorem threadControl :
    (let s := regs [(5, 0x10000), (6, 15)]
    s.cur.light = false ∧ named s.cur [5, 6, 7] ∧ (X s 5).toNat % 4 = 0 ∧ (X s 6).toNat % 16 ≠ 0 ∧ (X s 6).toNat < 16 ∧
      (s.core s.ic).freeSlot = some 1 ∧ (s.core s.ic).firstFit 15 = some 27 ∧ (s.core s.ic).firstFit 2 = some 27 ∧
      s.cur.reds = [] ∧ s.dirtyPinned s.ic = false) ∧
    (let s := regs [(5, 0x10002), (6, 16)]
    (X s 5).toNat % 4 ≠ 0 ∧ 16 ≤ (X s 6).toNat ∧ (X s 6).toNat % 16 = 0) ∧
    ((crowd 60).core 0).freeSlot = none ∧
    (((crowd 16).core 0).freeSlot = some 16 ∧ ((crowd 16).core 0).firstFit 15 = none) ∧
    (((crowd 17).core 0).freeSlot = some 17 ∧ ((crowd 17).core 0).firstFit 2 = none) ∧
    (owing []).cur.reds ≠ [] ∧
    (let s := light.updCur fun t => { t with regs := [(5, 0x4000)] }
    s.cur.light = true ∧ named s.cur [5] ∧ s.xlate s.ic s.is {} (address s 5 0 1) = .ok (at0 0x4000) ∧ s.cur.reds = [] ∧
      (at0 0x4000).homeCore = some s.ic) ∧
    (let s := light.updCur fun t => { t with regs := [(5, 0x4080)] }
    s.xlate s.ic s.is {} (address s 5 0 1) = .ok (at0 0x4080) ∧ (at0 0x4080).homeCore = some 1) := by
  unfold named; refine ⟨?_, ?_, ?_, ?_, ?_, ?_, ?_, ?_⟩ <;> decide +kernel
/-- MIGRATE to device 7, whose space is mapped, with feature 9, without it, and with the device lost. -/
theorem threadControl_remote :
    (let s := (light.updCur fun t => { t with regs := [(5, 0x4000)], pw := 7 * 2 ^ 32 + 1 }).updCore 0 fun k => { k with tlb := [⟨7, 0, 2 ^ 30, 0xC7B, 1⟩] }
    let t : Target := ⟨⟨7, 0x4000⟩, .remote 7 0x4000, 3, 0, false, false⟩
    s.xlate s.ic s.is {} (address s 5 0 1) = .ok t ∧ (7 : BitVec 8) ≠ 255 ∧ s.unreachable t = false ∧ s.accepted 9 = true ∧
      (s.updHub fun h => { h with accept0 := 1 }).accepted 9 = false ∧
      (s.updHub fun h => { h with lostDevices := [7] }).unreachable t = true) := by decide +kernel
/-- A packet of one thread with A = 8, and one of none. -/
def packetBytes (threads : Nat) : List Byte := leBytes (2 ^ 326 * 1 + 2 ^ 320 * threads) 64
def packed (threads : Nat) : State := { regs [(5, 0x4000)] with mem := memWrite ready.mem 0x4000 (packetBytes threads) }
theorem launches :
    (let s := packed 1
    let va := address s 5 0 1
    let packet := s.readFor s.ic s.is (bypasses s 5) (at0 0x4000) 64
    s.cur.light = false ∧ named s.cur [5, 7] ∧ va.off.toNat % 64 = 0 ∧ s.unreachable (at0 0x4000) = false ∧
      s.cur.redOverlap (at0 0x4000).place 64 = false ∧ s.xlate s.ic s.is { r := true } va = .ok (at0 0x4000) ∧
      s.readHeld s.ic s.is (bypasses s 5) (at0 0x4000) 64 = false ∧ packet.2.1 = none ∧
      packet.2.2.cur.reds = [] ∧ packet.2.2.dirtyPinned packet.2.2.ic = false ∧ packetOk (BitVec.ofNat 512 (leNat packet.1)) = true ∧
      ((packet.2.2.releaseCore packet.2.2.ic).cluster 0).freeEntry = some 0 ∧
      ((packet.2.2.releaseCore packet.2.2.ic).cluster 0).queued < queueSize) ∧
    (let s := packed 0
    packetOk (BitVec.ofNat 512 (leNat (s.readFor s.ic s.is (bypasses s 5) (at0 0x4000) 64).1)) = false) ∧
    (let s := (packed 1).updCluster 0 fun c => { c with store := (span 0 256).map fun i => (i, ({ full := true } : LaunchEntry)) }
    let packet := s.readFor s.ic s.is (bypasses s 5) (at0 0x4000) 64
    ((packet.2.2.releaseCore packet.2.2.ic).cluster 0).freeEntry = none) ∧
    (let s := (packed 1).updCluster 0 fun c => { c with queue := [(0, List.replicate 1024 ⟨0, 0, 0, false⟩)] }
    let packet := s.readFor s.ic s.is (bypasses s 5) (at0 0x4000) 64
    queueSize ≤ ((packet.2.2.releaseCore packet.2.2.ic).cluster 0).queued) ∧
    (let s := regs [(5, 0x4000)]
    s.xlate s.ic s.is { w := true } (address s 5 0 1) = .ok (at0 0x4000) ∧ (s.cluster (clusterOf s.ic)).topLevel = none) ∧
    (let s := (regs [(5, 0x4000)]).updCluster 0 fun c => { c with queue := [(3, [⟨0, 0, 0, false⟩])] }
    (s.cluster (clusterOf s.ic)).topLevel = some 3 ∧ (s.cluster (clusterOf s.ic)).level 3 = ⟨0, 0, 0, false⟩ :: [] ∧
      s.writeHeld s.ic s.is (bypasses s 5) (at0 0x4000) 64 = false ∧ s.dirtyPinned s.ic = false) ∧
    (named ready.cur [5, 6, 7] ∧ ready.cur.reds = [] ∧ ready.dirtyPinned ready.ic = false) := by
  unfold named; refine ⟨?_, ?_, ?_, ?_, ?_, ?_, ?_⟩ <;> decide +kernel
/-- A nest of one participant, chunks of at least one, one iteration of three extents of 1, and the same one spent. -/
def nest (next p : Nat) : State := { regs [(5, 0x4000)] with
  mem := memWrite ready.mem 0x4000 (leBytes (p * 2 ^ 240 + 2 ^ 224 + 2 ^ 170 + 2 ^ 149 + 2 ^ 128 + 2 ^ 64 + next) 32) }
/-- Its task with a deque of n ranges from 0 to 2. -/
def deque (n : Nat) : State := ready.updInst 0 fun i => { i with deque := List.replicate n (0, 2, 0), queues := 1#256 <<< 96 }
/-- A second task of the same program on core 8, with a deque of n ranges. -/
def victim (n : Nat) : State := { ready with
  insts := tabPut ready.insts 1 { packet := BitVec.ofNat 512 (15 * 2 ^ 326 + 2 ^ 320 + 0x10000), core := 8, order := 1, scratch := [],
                                  operand := [], deque := List.replicate n (0, 2, 0), queues := 0, host := true, fmtp := 0 } }
theorem iterationsAndRanges :
    (let s := regs [(5, 0x4000), (6, 0x4001)]
    s.cur.light = false ∧ named s.cur [5] ∧ (address s 5 0 1).off.toNat % 32 = 0 ∧ (address s 6 0 1).off.toNat % 32 ≠ 0 ∧
      (∀ i < 3, s.cur.rename ((117 : BitVec 7).toNat + i) < s.cur.bound) ∧ s.cur.fetcher = none) ∧
    (let s := (nest 0 1).updCur fun t => { t with fetcher := some ⟨0, 0x4000⟩ }
    let r := ((s.passBy s.ic s.is (at0 0x4000) 32).takeBack (.core s.ic) (at0 0x4000) 32).readTarget (at0 0x4000) 32
    s.cur.fetcher = some ⟨0, 0x4000⟩ ∧ s.cur.cur = s.cur.stop ∧ (0x4000 : Word).toNat % 32 = 0 ∧
      s.xlate s.ic s.is { r := true, w := true } ⟨0, 0x4000⟩ = .ok (at0 0x4000) ∧ s.unreachable (at0 0x4000) = false ∧
      s.cur.redOverlap (at0 0x4000).place 32 = false ∧ s.pinned (at0 0x4000).place = false ∧ r.2.1 = none ∧
      nestBad (leNat r.1) = false ∧ chunkSize (leNat r.1) ≠ 0) ∧
    (let r := (((nest 1 1).passBy 0 0 (at0 0x4000) 32).takeBack (.core 0) (at0 0x4000) 32).readTarget (at0 0x4000) 32
    nestBad (leNat r.1) = false ∧ chunkSize (leNat r.1) = 0) ∧
    (let r := (((nest 0 0).passBy 0 0 (at0 0x4000) 32).takeBack (.core 0) (at0 0x4000) 32).readTarget (at0 0x4000) 32
    nestBad (leNat r.1) = true) ∧
    (let s := ready.updCur fun t => { t with fetcher := some ⟨0, 0x4000⟩, cur := 4, stop := 5 }
    s.cur.fetcher = some ⟨0, 0x4000⟩ ∧ s.cur.cur ≠ s.cur.stop) ∧
    (let s := regs [(5, 0), (6, 1)]
    named s.cur [5, 6, 7] ∧ s.cur.reds = [] ∧ s.dirtyPinned s.ic = false ∧ (X s 5).toNat < (X s 6).toNat ∧ (X s 6).toNat ≤ (X s 6).toNat ∧
      (s.releaseCore s.ic).curInst.depth 1 ≤ (s.releaseCore s.ic).curInst.deque.length ∧ s.curInst.deque = []) ∧
    (let u := (deque 0).releaseCore 0
    u.curInst.deque.length < u.curInst.depth 1 ∧ (deque 1).curInst.deque = (0, 2, 0) :: [] ∧ (deque 1).dirtyPinned 0 = false) ∧
    ((∀ e ∈ (victim 0).victims, e.2.deque = []) ∧ (victim 1).victims.length = 1 ∧ (victim 1).dirtyPinned 0 = false ∧
      stealFrom (List.replicate 1 ((0 : Word), (2 : Word), (0 : BitVec 512))) = some ((1, 2, 0), [(0, 1, 0)])) := by
  unfold named; refine ⟨?_, ?_, ?_, ?_, ?_, ?_, ?_, ?_⟩ <;> decide +kernel

/-! Traps, control registers, levers, messages and links. -/

theorem trapsAndReturns :
    (named ready.cur [5] ∧ ready.cur.light = false ∧ ready.cur.inh = false ∧ ready.cur.mode = .user) ∧
    (light.cur.light = true ∧ (ready.updCur fun t => { t with inh := true }).cur.inh = true) ∧
    ((2 : BitVec 5) ≠ 3 ∧ (2 : BitVec 5) ≠ 4) ∧
    (boss.cur.mode = .supervisor ∧ boss.cur.tepc.toNat % 4 = 0 ∧ (boss.updCur fun t => { t with tepc := 3 }).cur.tepc.toNat % 4 ≠ 0) := by
  unfold named; refine ⟨?_, ?_, ?_, ?_⟩ <;> decide
/-- Numbers at the ends of their ranges: 4, 5 to 8, 9, 11, 12 to 16, 17, 31, 32, 37, 38, 39, 40. -/
theorem controlRegisters :
    (crOk 4 = true ∧ crOk 5 = true ∧ crOk 8 = true ∧ crOk 16 = true ∧ crOk 17 = false ∧ crOk 31 = false ∧ crOk 32 = true ∧
      crOk 39 = true ∧ crOk 40 = false) ∧
    (light.cur.light = true ∧ ready.cur.light = false ∧ named ready.cur [0, 119]) ∧
    (ready.cur.mode = .user ∧ boss.cur.mode = .supervisor ∧ boss.cur.light = false ∧ named boss.cur [5, 7]) := by
  unfold named; refine ⟨?_, ?_, ?_⟩ <;> decide
theorem kernelLevers :
    (ready.cur.light = false ∧ ready.cur.mode = .user) ∧
    (let u := boss.releaseCore boss.ic
    let sel := Dropped.of u (u.cur.opnd 6).val (u.cur.opnd 5).val
    boss.cur.mode = .supervisor ∧ boss.cur.reds = [] ∧ boss.dirtyPinned boss.ic = false ∧ named boss.cur [5, 7] ∧ named boss.cur [5, 6] ∧
      u.liveInst 0 = true ∧ u.preemptible 0 = true ∧ u.liveInst 65535 = false ∧ u.preemptible 65535 = false ∧
      u.pendingThrough (fun t => sel.covers u t) = [] ∧ u.packetsThrough (fun t => sel.covers u t) = []) ∧
    (let s := boss.updCore 0 fun k => { k with slots := tabPut k.slots 1 { st := .parked (.access (.load (at0 0x4000) 8 false 7 true false)) } }
    let u := s.releaseCore s.ic
    let sel := Dropped.of u (u.cur.opnd 6).val (u.cur.opnd 5).val
    u.pendingThrough (fun t => sel.covers u t) ≠ []) ∧
    (ready.cur.hold = none ∧ ready.castling ready.ic ≠ 0 ∧ ready.pairDrained 0 = false ∧ (ready.pair 0).phase = .idle ∧
      (ready.cur.monitors.any fun m => m.triggered) = false ∧ (ready.core ready.ic).oldest ready.cur.inst ready.is = none) ∧
    ((ready.updCur fun t => { t with hold := some 0 }).cur.hold.isSome = true ∧
      (ready.updDie 0 fun d => { d with castiv := 0 }).castling 0 = 0 ∧
      (ready.updCore 0 fun k => { k with drained := true }).pairDrained 0 = true ∧
      ((ready.updPair 0 fun x => { x with phase := .waiting 0 }).pair 0).phase ≠ .idle) ∧
    (((ready.updCur fun t => { t with monitors := [⟨.home 0, true, false⟩] }).cur.monitors.any fun m => m.triggered) = true ∧
      ((ready.updCore 0 fun k => { k with mailbox := [mail false] }).core 0).oldest 0 0 = some (mail false)) := by
  unfold named; refine ⟨?_, ?_, ?_, ?_, ?_, ?_⟩ <;> decide +kernel
theorem mailbox :
    (let s := regs [(5, 0x4000), (6, 59)]
    let u := s.releaseCore s.ic
    s.cur.light = false ∧ (∀ i < 2, s.cur.rename ((118 : BitVec 7).toNat + i) < s.cur.bound) ∧
      (s.core s.ic).mailbox = [] ∧ named s.cur [7] ∧ s.cur.rename (6 : BitVec 7).toNat < s.cur.bound ∧
      (X s 6).toNat % 64 = 59 ∧ s.cur.reds = [] ∧ s.dirtyPinned s.ic = false ∧ u.liveInst 0 = true ∧
      ((u.deliverAll 0 u.mailFlight).mailFlight.any fun m => m.inst = 0) = false ∧
      ((u.deliverAll 0 u.mailFlight).accept ⟨0, 59, 0, false, none⟩).isSome = true) ∧
    (let s := regs [(6, 60)]
    60 ≤ (X s 6).toNat % 64) ∧
    (let s := regs [(6, 0xFFFF0000)]
    (s.releaseCore s.ic).liveInst ((X s 6).toNat / 2 ^ 16 % 2 ^ 16) = false) ∧
    (let s := ready.updCore 0 fun k => { k with mailbox := List.replicate 256 ⟨1, 0, 0, false, none⟩ }
    (s.releaseCore 0).accept ⟨0, 0, 0, false, none⟩ = none) ∧
    (let s : State := { ready.updCore 0 fun k => { k with mailbox := List.replicate 256 ⟨1, 0, 0, false, none⟩ } with mailFlight := [mail false] }
    let u := s.releaseCore 0
    ((u.deliverAll 0 u.mailFlight).mailFlight.any fun m => m.inst = 0) = true) ∧
    (let s := ready.updCore 0 fun k => { k with mailbox := [⟨1, 0, 0, false, none⟩] ++ mail false :: [mail true] }
    (mail false).inst = s.cur.inst ∧ (mail false).slot = s.is ∧ (mail false).half = false ∧ (mail true).half = true ∧ (1 : Nat) ≠ s.cur.inst) := by
  unfold named; refine ⟨?_, ?_, ?_, ?_, ?_⟩ <;> decide +kernel
/-- A group entry: TOPO, NLOC, ROOT, USE, ETYPE, MEMBER. -/
def entry (topo nloc root use type member : Nat) : BitVec 128 :=
  BitVec.ofNat 128 (topo * 2 ^ 112 + nloc * 2 ^ 96 + root * 2 ^ 90 + use * 2 ^ 88 + type * 2 ^ 82 + member * 2 ^ 64)
/-- Its device in group 9 with an entry. -/
def grouped (e : BitVec 128) (l : Tab Word) : State := (regs l).updHub fun h => { h with groups := [(9, e)] }
/-- Its link thread, in slot 63, issues. -/
def linking (s : State) : State := { s with is := 63 }.updCur fun t => { t with st := .seated 15 0, alloc := 120, block := 12 }
/-- A step of group 9 with n chunks of one element here. -/
def chunks (n : Nat) : StepState := { group := 9, stepNo := 4, scalar := false, kind := 0, chunk := 1, count := 0,
                                      parts := (span 0 n).map fun i => ⟨0, i, [0], 0, 63, 0, false⟩ }
theorem held_length : ∀ (n a : Nat) (acc : List (BitVec 32 × Nat)), (∀ k ∈ acc, k.1 = 4 ∧ k.2 < a) →
    (((span a n).map fun i => (⟨0, i, [0], 0, 63, 0, false⟩ : Contribution)).foldl
      (fun acc p => let k := ((4 : BitVec 32), p.offset / 1); if acc.contains k then acc else acc ++ [k]) acc).length = acc.length + n ∧
    ∀ k ∈ (((span a n).map fun i => (⟨0, i, [0], 0, 63, 0, false⟩ : Contribution)).foldl
      (fun acc p => let k := ((4 : BitVec 32), p.offset / 1); if acc.contains k then acc else acc ++ [k]) acc), k.1 = 4
  | 0, _, acc, h => ⟨rfl, fun k hk => (h k hk).1⟩
  | n + 1, a, acc, h => by
    have hc : acc.contains ((4 : BitVec 32), a / 1) = false := by
      rw [Nat.div_one]
      cases hx : acc.contains ((4 : BitVec 32), a) with
      | false => rfl
      | true => exact absurd (h _ (List.contains_iff_mem.1 hx)).2 (Nat.lt_irrefl a)
    have := held_length n (a + 1) (acc ++ [((4 : BitVec 32), a / 1)]) (by
      intro k hk
      rcases List.mem_append.1 hk with hk | hk
      · exact ⟨(h k hk).1, Nat.lt_succ_of_lt (h k hk).2⟩
      · rw [List.mem_singleton.1 hk]; exact ⟨rfl, by simp⟩)
    rw [span, List.map_cons, List.foldl_cons]
    simp only [hc, Bool.false_eq_true, if_false]
    refine ⟨this.1.trans ?_, this.2⟩
    rw [List.length_append]; simp; omega
theorem linkInstructions :
    (light.cur.light = true ∧ (ready.updHub fun h => { h with accept0 := 1 }).accepted 8 = false) ∧
    (let s := grouped (entry 0 1 1 1 8 0) [(5, 0x01400009)]
    let e := s.group (selGroup (X s 5))
    s.cur.light = false ∧ s.accepted 8 = true ∧ named s.cur [5, 6, 7] ∧ (∀ i < 2, s.cur.rename ((118 : BitVec 7).toNat + i) < s.cur.bound) ∧
      selBad (X s 5) = false ∧ geCollects e = true ∧ selRank (X s 5) < geNloc e ∧ s.contributed 9 (selStep (X s 5)) 0 = false ∧
      s.started 9 < 4 ∧ s.cur.reds = [] ∧ s.dirtyPinned s.ic = false ∧ s.getAnswer 9 (selStep (X s 5)) = none) ∧
    (let s := grouped (entry 0 1 1 1 8 0) [(5, 0x01401009)]
    geNloc (s.group 9) ≤ selRank (X s 5)) ∧
    (let s := grouped (entry 0 1 1 2 8 0) [(5, 0x01400009)]
    geCollects (s.group 9) = false ∧ selBad (2 ^ 54) = true) ∧
    (let s := (grouped (entry 0 1 1 1 8 0) [(5, 0x01400009)]).updHub fun h => { h with
      steps := (span 0 4).map fun i => { chunks 0 with stepNo := BitVec.ofNat 32 i, scalar := true, ranks := [⟨1, 0, [0], 0, 0, 0, false⟩] } }
    4 ≤ s.started 9) ∧
    (let s := (grouped (entry 0 1 1 1 8 0) []).updHub fun h => { h with results := [⟨9, 5, 7, 0⟩] }
    s.getAnswer 9 5 = some (7, 0)) ∧
    (let s := grouped (entry 0 1 1 3 8 1) [(5, 0x4000), (6, 9), (13, 9)]
    geCasts (s.group 9) = true ∧ geMember (s.group 9) = true ∧ (X s 6).toNat < 4096 ∧ (X s 5).toNat % 8 = 0 ∧ (X s 5).toNat < 2 ^ 48 ∧
      s.cur.reds = [] ∧ s.dirtyPinned s.ic = false ∧ s.group ((X s 13).toNat % 4096) = entry 0 1 1 3 8 1) ∧
    (let s := grouped (entry 0 1 1 1 8 1) [(5, 0x4004), (6, 4096)]
    geCasts (s.group 9) = false ∧ (X s 5).toNat % 8 ≠ 0 ∧ 4096 ≤ (X s 6).toNat) ∧
    (let s := grouped (entry 0 1 1 1 8 1) [(5, 2 ^ 48)]
    (X s 5).toNat % 8 = 0 ∧ 2 ^ 48 ≤ (X s 5).toNat) := by
  unfold named; refine ⟨?_, ?_, ?_, ?_, ?_, ?_, ?_, ?_, ?_⟩ <;> decide +kernel
/-- A result packet of group 9's step 4. -/
def received : CombinePacket :=
  { group := 9, stepNo := 4, scalar := false, topo := 1, source := 2, kind := 0, count := 0, pass := 0, offset := 0, chunk := 1
    elems := [0], nonfinite := 0, status := 0, last := true }
/-- LNK.SEND: h0 names group 9, TOPO 1, rank 0 and step 4, h1 one element of a chunk of one at offset 0. -/
theorem linkInstructions_send :
    (let s := linking (grouped (entry 1 1 1 1 8 0) [])
    s.is = 63 ∧ s.cur.light = false ∧ (∀ i < 10, s.cur.rename ((110 : BitVec 7).toNat + i) < s.cur.bound) ∧
      s.sendRefused (4 * 2 ^ 32 + 2 ^ 24 + 9) (2 ^ 26 + 2 ^ 10) = false ∧ (4 * 2 ^ 32 + 2 ^ 24 + 9) / 2 ^ 24 % 256 = geTopo (s.group 9) ∧
      (4 * 2 ^ 32 + 9) / 2 ^ 24 % 256 ≠ geTopo (s.group 9) ∧ s.sendRefused (4 * 2 ^ 32 + 9) (2 ^ 26 + 2 ^ 10 + 1) = true ∧
      s.cur.reds = [] ∧ s.dirtyPinned s.ic = false ∧ (s.core s.ic).results = []) ∧
    (let s := (linking (grouped (entry 1 1 1 1 8 0) [])).updCore 0 fun k => { k with results := [received] }
    s.buffersHeld 9 5 0 = false ∧ (s.core s.ic).results = received :: [] ∧ s.mixedUse received.group received.stepNo false = false) ∧
    (let s := (grouped (entry 1 1 1 1 8 0) []).updHub fun h => { h with steps := [chunks (Config.moreBuffers 9 + 1)] }
    s.buffersHeld 9 5 0 = true) ∧
    ready.is ≠ 63 := by
  refine ⟨by decide +kernel, by decide +kernel, ?_, by decide⟩
  · have h := held_length (Config.moreBuffers 9 + 1) 0 [] (by simp)
    unfold State.buffersHeld
    have e : (((grouped (entry 1 1 1 1 8 0) []).updHub fun h => { h with steps := [chunks (Config.moreBuffers 9 + 1)] }).hub.steps.filter
        fun x => decide (x.group = 9) && !x.scalar) = [chunks (Config.moreBuffers 9 + 1)] := by
      show List.filter _ [chunks _] = _
      rw [List.filter_cons_of_pos (by rfl)]; rfl
    simp only [e, List.foldl_cons, List.foldl_nil]
    rw [Bool.and_eq_true, decide_eq_true_eq]
    refine ⟨?_, ?_⟩
    · rw [Bool.not_eq_true', ← Bool.not_eq_true, List.contains_iff_mem]
      intro hx
      exact absurd (h.2 _ hx) (by decide)
    · exact le_of_eq_of_le (Nat.zero_add _).symm (Nat.le_of_eq h.1.symm)

/-! Engines. -/

/-- Its thread in the copy thread's slot. -/
def copying (s : State) : State := { s with is := 62 }.updCur fun t => { t with st := .seated 14 0, alloc := 120, block := 12 }
/-- Cluster 0 with every job entry taken. -/
def jobsFull : Tab JobEntry := (span 0 32).map fun i => (i, ({ st := .accepted } : JobEntry))
/-- A press descriptor of key 1, participant 0, fragments of one row, with the space for them in bank 2. -/
def press (frag : Nat) : State := { banked.updCur fun t => { t with regs := [(5, 0x4000)] } with
  mem := memWrite ready.mem 0x4000 (leBytes (2 ^ 144 + frag * 2 ^ 128 + 1024 * 2 ^ 96) 32) }
theorem enginePushes :
    (let s := regs [(5, 0x4000)]
    let va := address s 5 0 1
    s.cur.light = false ∧ s.cur.reds = [] ∧ s.dirtyPinned s.ic = false ∧ named s.cur [5, 7] ∧ s.accepted 2 = true ∧ s.accepted 4 = true ∧
      s.accepted 6 = true ∧ s.accepted 7 = true ∧ va.off.toNat % 128 = 0 ∧ s.ownSpace va.space = true ∧
      s.xlate s.ic s.is { r := true } va = .ok (at0 0x4000) ∧ s.unreachable (at0 0x4000) = false ∧
      (s.cluster 0).freeJob = some 0 ∧ (s.cluster 0).withdrawn = false ∧ s.cur.redOverlap (at0 0x4000).place 32 = false ∧
      (s.cluster 0).copyQueue.length < copyQueueSize ∧ (s.cluster 0).indexQueue.length < indexQueueSize) ∧
    ((ready.updCluster 0 fun c => { c with jobs := jobsFull }).cluster 0).freeJob = none ∧
    ((ready.updCluster 0 fun c => { c with withdrawn := true }).cluster 0).withdrawn = true ∧
    (copyQueueSize ≤ ((ready.updCluster 0 fun c => { c with copyQueue := List.replicate copyQueueSize 0 }).cluster 0).copyQueue.length ∧
      indexQueueSize ≤ ((ready.updCluster 0 fun c => { c with
        indexQueue := List.replicate indexQueueSize ⟨⟨0, 0⟩, 0, false⟩ }).cluster 0).indexQueue.length) ∧
    ((copying ready).is = 62 ∧ (copying ready).cur.light = false ∧ (∀ i < 4, (copying ready).cur.rename ((116 : BitVec 7).toNat + i) < (copying ready).cur.bound) ∧
      (copying ready).dirtyPinned 0 = false ∧ ready.is ≠ 62) ∧
    ((X ready 6).toNat % 4 = 0 ∧ (X (regs [(6, 1)]) 6).toNat % 4 = 1 ∧ (X (regs [(6, 2)]) 6).toNat % 4 = 2 ∧ (X (regs [(6, 3)]) 6).toNat % 4 = 3) ∧
    (ready.updHub fun h => { h with accept0 := 1 }).accepted 7 = false ∧ (ready.updHub fun h => { h with accept0 := 1 }).accepted 2 = false ∧
    (press 1).readHeld 0 0 (bypasses (press 1) 5) (at0 0x4000) 32 = false ∧
    (let r := (press 1).readFor 0 0 (bypasses (press 1) 5) (at0 0x4000) 32
    let x : BitVec 256 := BitVec.ofNat 256 (leNat r.1)
    r.2.1 = none ∧ xdBad (r.2.2.scratchOf r.2.2.cur.inst) x = false ∧ (r.2.2.cluster (clusterOf r.2.2.ic)).press = []) ∧
    (let r := (press 0).readFor 0 0 (bypasses (press 0) 5) (at0 0x4000) 32
    xdBad (r.2.2.scratchOf r.2.2.cur.inst) (BitVec.ofNat 256 (leNat r.1)) = true) ∧
    (let r := (press 1).readFor 0 0 (bypasses (press 1) 5) (at0 0x4000) 32
    let x : BitVec 256 := BitVec.ofNat 256 (leNat r.1)
    ({ key := 1, p := 0, core := 1, slot := 0, inst := 1, src := 0, dst := 0, frag := 1, tbl := 0 } : Participant).key = xdKey x ∧ xdP x = 0) := by
  unfold named; and_intros <;> decide +kernel
/-- Cluster 0 with job 0 in entry 0. -/
def job (j : JobEntry) : State := ready.updCluster 0 fun c => { c with jobs := [(0, j)] }
theorem engineTools :
    (light.cur.light = true ∧ ready.cur.light = false ∧ named ready.cur [5, 7] ∧ named ready.cur [5, 6, 7] ∧ ready.accepted 2 = true ∧
      (ready.cluster (clusterOf ready.ic)).named 0 = none ∧ ((ready.cluster 0).channel 15).dst = none) ∧
    (let s := job { st := .ended }
    (s.cluster (clusterOf s.ic)).named 0 = some (0, { st := .ended }) ∧ ({ st := .ended } : JobEntry).inst = s.cur.inst) ∧
    (let s := job { st := .running, inst := 1 }
    (s.cluster (clusterOf s.ic)).named 0 = some (0, { st := .running, inst := 1 }) ∧ (1 : Nat) ≠ s.cur.inst) ∧
    ((ready.updCluster 0 fun c => { c with channels := [(15, { dst := some ⟨0, 0⟩ })] }).cluster 0).channel 15 = { dst := some ⟨0, 0⟩ } ∧
    (let s := regs [(5, 0x4000), (6, 256)]
    let va := address s 5 0 1
    va.off.toNat % 16 = 0 ∧ (X s 6).toNat = 256 ∧ va.off.toNat % 4096 + 16 * (X s 6).toNat ≤ 4096 ∧
      s.xlate s.ic s.is { w := true } va = .ok (at0 0x4000) ∧ s.xlate s.ic s.is { r := true } va = .ok (at0 0x4000) ∧
      s.unreachable (at0 0x4000) = false ∧ s.cur.redIn [(at0 0x4000, 16 * 256)] = false ∧
      s.planPinned Config.clusters [(at0 0x4000, 16 * 256)] = false ∧ vatBad (X s 6) = false ∧ vatBad 0x8000 = true ∧
      va.off.toNat % 4 = 0 ∧ va.off.toNat % 4096 ≤ 3072 ∧ s.tableTaken va.off = false) ∧
    (let s := regs [(5, 0x4001), (6, 2 ^ 24 + 1)]
    (address s 5 0 1).off.toNat % 16 ≠ 0 ∧ (address s 5 0 1).off.toNat % 4 ≠ 0 ∧ 2 ^ 24 < (X s 6).toNat) ∧
    (let s := (regs [(5, 0x200000)]).updCore 0 fun k => { k with tlb := [⟨0, 0, 2 ^ 21, 0xCFB, 0⟩] }
    s.xlate s.ic s.is { w := true } ⟨0, 0x1000⟩ = .ok ⟨⟨0, 0x1000⟩, .mx 0 0x1000 false, 3, 0, false, false⟩) ∧
    (let s : State := { ready with
      insts := tabPut ready.insts 1 { packet := 0, core := 0, order := 1, scratch := [], operand := [], queues := 0, host := true, fmtp := 0x8000 } }
    s.tableTaken 0x4000 = true) := by
  unfold named; refine ⟨?_, ?_, ?_, ?_, ?_, ?_, ?_, ?_⟩ <;> decide +kernel
/-- A running job of entry 0. -/
def runningJob (r : JobRun) (norm : Bool) : State :=
  (job { st := .running, norm := norm, run := some r }).updCluster 0 fun c => { c with running := some 0 }
/-- A write-back of an exact tile comes. -/
def done (r : JobRun) : JobRun := { r with loaded := true, ready := true, mode := some (.exact 0 none) }
theorem engineEvents :
    (let a := (job { st := .accepted, norm := true }).cluster 0 |>.jobs.foldl (fun u x => u.readCard 0 x.1) (job { st := .accepted, norm := true })
    (a.cluster 0).running = none ∧ (a.nextJob 0).isSome = true ∧ (a.cluster 0).clock = .gated) ∧
    (ready.nextJob 0 = none ∧ (ready.cluster 0).running = none ∧ ready.runningJob 0 = none ∧ (ready.cluster 0).clock ≠ .ready ∧
      (ready.cluster 0).clock ≠ .granted ∧ (ready.die 0).wakes = []) ∧
    (((ready.updCluster 0 fun c => { c with clock := .ready }).cluster 0).clock = .ready ∧
      ((ready.updCluster 0 fun c => { c with clock := .granted }).cluster 0).clock = .granted ∧
      ((ready.updCluster 0 fun c => { c with clock := .requested }).cluster 0).clock = .requested ∧
      ((ready.updDie 0 fun d => { d with wakes := [0] }).die 0).wakes = 0 :: []) ∧
    (let s := runningJob (done {}) false
    let r := done {}
    s.runningJob 0 = some (0, { st := .running, run := some r }, r) ∧ r.going = true ∧ r.ready = true ∧ tabFind r.lines 0x80 = none ∧
      s.engineTarget 0 { r := true } ⟨0, 0x4000⟩ = .ok (at0 0x4000) ∧ (s.readTarget (at0 0x4000) 128).2.1 = none ∧
      (at0 0x4000).place.banks 128 = none ∧
      ((s.readTarget (at0 0x4000) 128).2.2.pinLine 0 (at0 0x4000) 0x80).isSome = true ∧ r.cancelled = false ∧ r.failed = false ∧ r.written = 0 ∧ r.rex = false ∧
      (s.cluster 0).running ≠ none) ∧
    (let s : State := { runningJob (done {}) false with poison := [0x4000 / 32] }
    (s.readTarget (at0 0x4000) 128).2.1 = some 0) ∧
    (let s := (runningJob {} false).updCluster 1 fun c => { c with pins := (span 0 64).map fun i => ⟨i, setOf (at0 0x4000).slice 0x4000, 0⟩ }
    (s.readTarget (at0 0x4000) 128).2.2.pinLine 0 (at0 0x4000) 0x80 = none) ∧
    ((inBank 0).place.banks 128 = some (0, [2]) ∧ (ready.core 0).started = true ∧ [2].all (ready.core 0).bankFree = true ∧
      [0].all (refusing.core 0).bankFree = false ∧ (State.reset.core 0).started = false) ∧
    (ready.engineTarget 0 { r := true } ⟨0, 0xFFFF000000000000⟩ = .window ∧ ready.engineTarget 0 { r := true } ⟨0, 0x1000000000000⟩ = .access ∧
      ready.engineTarget 0 { r := true } ⟨0, 0x40000000⟩ = .page) ∧
    ((JobRun.going { finish := some 0 }) = false ∧ (done { failed := true }).failed = true ∧ (done { cancelled := true }).written = 0 ∧
      (done { written := 1 }).written ≠ 0 ∧ (done { rex := true }).rex = true) ∧
    (let s := (runningJob {} false).updInst 0 fun i => { i with st := .halting }
    s.runs 0 = false ∧ ({} : JobRun).finish = none ∧ ({} : JobRun).mode = none ∧ ({} : JobRun).ready = false ∧ (done {}).unsayable = false ∧
      s.saveHeld 0 0 (done {}).card = false ∧ (done {}).written = 0 ∧ (done {}).failed = false) := by
  and_intros <;> decide +kernel
theorem engineEvents_norm :
    (let s := runningJob {} true
    s.runningJob 0 = some (0, { st := .running, norm := true, run := some {} }, {}) ∧ JobRun.going {} = true ∧ ({} : JobRun).loaded = false) := by
  decide +kernel
/-- The k-group that a running job adds next: the lines it still misses, a run past 2^48, and none once the tile is complete. -/
def nextRuns (r : JobRun) : List (Int × Nat) :=
  match r.unit with
  | some l => (l.map (pieceRuns r.card)).flatten
  | none => []
theorem engineEvents_units :
    ((done {}).unit.isSome = true ∧ (done { kg := 1 }).unit = none) ∧
    ((nextRuns (done {})).find? runBad = none ∧ ((linesOf (nextRuns (done {}))).filter fun n => (tabFind (done {}).lines n).isNone) ≠ []) ∧
    (let r := done { lines := (linesOf (nextRuns (done {}))).map fun n => (n, 0) }
    ((linesOf (nextRuns r)).filter fun n => (tabFind r.lines n).isNone) = []) ∧
    ((nextRuns (done { card := BitVec.ofNat 1024 (2 ^ 48 - 1) })).find? runBad).isSome = true := by
  refine ⟨?_, ?_, ?_, ?_⟩ <;> decide +kernel
/-- A copy command of channel 0 for slot 5 and for the link thread's slot. -/
def copyOf (slot : Nat) : BitVec 256 := BitVec.ofNat 256 (slot * 2 ^ 230)
def channelOf (r : CopyRun) : State := ready.updCluster 0 fun c => { c with channels := [(0, { run := some r })] }
def eight (frag : Nat) (formed : Bool) (round : Nat) : State := ready.updCluster 0 fun c => { c with
  press := (span 0 8).map fun i => ⟨1, i, i, 0, 0, 0, 1024, if i = 7 then frag else 1, 0, formed, round, [], false⟩ }
theorem copyIndexAndPressEvents :
    (((ready.cluster 0).channel 0).run = none ∧ (((channelOf { body := copyOf 5 }).cluster 0).channel 0).run = some { body := copyOf 5 } ∧
      (channelOf { body := copyOf 5 }).copyPaused (copyOf 5) = false ∧ reqSlot (copyOf 63) = 63 ∧ reqSlot (copyOf 5) ≠ 63) ∧
    ((channelOf { body := copyOf 5, status := some 0 }).mailFlight = [] ∧ (channelOf { body := copyOf 5, fault := some 0 }).copyPaused (copyOf 5) = false) ∧
    (let s := (channelOf { body := 0 }).updInst 0 fun i => { i with st := .evicted 0 }
    s.copyPaused (BitVec.ofNat 256 (0xFFFF000000000000 * 2 ^ 64)) = true) ∧
    (let x : IndexJob := { cmd := ⟨⟨0, 0x4000⟩, 0, false⟩ }
    let s := ready.updCluster 0 fun c => { c with indexJobs := [(0, x)] }
    tabFind (s.cluster 0).indexJobs 0 = some x ∧ x.fault = none ∧ s.runs x.cmd.inst = true ∧ x.desc = none ∧
      tabFind (s.cluster 0).indexJobs 1 = none ∧ (s.cluster 0).indexQueue = [] ∧ 3 < indexSlots ∧ indexSlots ≤ 4) ∧
    (((ready.updCluster 0 fun c => { c with indexQueue := [⟨⟨0, 0x4000⟩, 0, false⟩] }).cluster 0).indexQueue = ⟨⟨0, 0x4000⟩, 0, false⟩ :: []) ∧
    ((ready.cluster 0).pressFull 1 = false ∧ (ready.cluster 0).pressed 1 = []) ∧
    (((eight 1 false 0).cluster 0).pressFull 1 = true ∧ (((eight 1 false 0).cluster 0).pressed 1).length = 8 ∧
      ((((eight 1 false 0).cluster 0).pressed 1).all fun y => y.frag = 1 && y.tbl = 0) = true ∧
      tableValid ((eight 1 false 0).pressTable 0 0).1 = true ∧ ((eight 1 false 0).pressTable 0 0).1.length = 64 ∧
      tableValid (List.replicate 64 0) = false) ∧
    ((((eight 2 false 0).cluster 0).pressed 1).any fun y => y.frag ≠ 1) = true ∧
    ((((eight 1 true 7).cluster 0).pressed 1).all fun y => y.formed && y.round = 7) = true := by
  refine ⟨?_, ?_, ?_, ?_, ?_, ?_, ?_, ?_, ?_⟩ <;> decide +kernel

/-! Events of memory, of the scheduler and of instances. -/

/-- Fault record 0 of its thread, which waits for the answer. -/
def faulting : State := { parkedOn (.fault 0) with faults := [⟨0, .thread 0 0, ⟨0, 0x40000000⟩, 4, 0, .read⟩], serial := 1 }
/-- A light thread's packet from slot 0, under way to core c. -/
def flying (c kind : Nat) : State := { ready with flight := [(c, { asks kind 11 with slot := 0 })] }
theorem memoryEvents :
    (ready.faultRecord 0 = none) ∧
    (faulting.faultRecord 0 = some ⟨0, .thread 0 0, ⟨0, 0x40000000⟩, 4, 0, .read⟩ ∧ faulting.faultedThread 0 = some (0, 0) ∧
      (faulting.thread 0 0).st = .parked (.fault 0) ∧ (faulting.thread 0 0).light = false ∧ (faulting.thread 0 0).inh = false) ∧
    (ready.hub.sweep = .idle ∧ (ready.updHub fun h => { h with sweep := .reporting [] }).hub.sweep = .reporting [] ∧ (3 : Nat) ∉ ([] : List Nat) ∧
      1023 < Config.cores ∧ Config.cores ≤ 1024 ∧ Config.cores ≤ (span 0 1024).length) ∧
    (ready.flight = [] ∧ (flying 1023 0).flight = (1023, { asks 0 11 with slot := 0 }) :: [] ∧ (asks 0 11).kind = 0 ∧ (asks 2 11).kind ≠ 0 ∧
      ((flying 1023 0).core 1023).migIn.length < 16) ∧
    (16 ≤ ((ready.updCore 0 fun k => { k with migIn := List.replicate 16 (asks 2 11) }).core 0).migIn.length) ∧
    (((parkedOn (.migration 1)).thread 0 0).st = .parked (.migration 1) ∧ (parkedOn (.migration 1)).inFlight 0 0 = false ∧
      (parkedOn (.migration 1)).queueRoom 1 = true ∧ (flying 1 0).inFlight 0 0 = true) ∧
    ((light.thread 0 0).light = true ∧ (asks 0 11).device = 0 ∧ ({ asks 0 11 with device := 7 } : MigPacket).device ≠ 0) ∧
    (tabGet 0 ready.debts 31 < 8 ∧ 8 ≤ tabGet 0 ({ ready with debts := [(31, 8)] } : State).debts 31) ∧
    (pinned.dirtyPinned 0 = true ∧ (0 : Nat) ∈ [0] ∧ (0 : Nat) < Config.cores ∧ Config.cores ≤ 1024) := by
  and_intros <;> decide +kernel
/-- A walk that the cluster's TLB serves, one past the tables, and one of an invalid entry. -/
def walking (l : List TlbEntry) : State :=
  ({ parkedOn (.walk ⟨0, 0x40000000⟩ .read) with mem := [] }.updCluster 0 fun c => { c with tlb := l }).updHub fun h => { h with sptbr := 0x8000 }
theorem memoryEvents_walks :
    (((walking [⟨0, 0x40000000, 2 ^ 30, 0x5B, 0⟩]).thread 0 0).wait = some (.walk ⟨0, 0x40000000⟩ .read) ∧
      ((walking [⟨0, 0x40000000, 2 ^ 30, 0x5B, 0⟩]).refillTlb 0 ⟨0, 0x40000000⟩).1 = .leaf 0x40000000 (2 ^ 30) 0x5B 0) ∧
    ((walking []).refillTlb 0 ⟨0, 0x40000000⟩).1 = .access ∧
    (State.refillTlb { walking [] with mem := memWrite [] 0x8000 (leBytes 0x9001 8) } 0 ⟨0, 0x40000000⟩).1 = .page ∧
    (State.refillTlb ((walking []).updHub fun h => { h with sptbr := BitVec.ofNat 64 Config.hbmBytes }) 0 ⟨0, 0x40000000⟩).1 = .hole := by
  and_intros <;> decide +kernel
/-- A packet of one thread with A = 8. -/
def packet1 : BitVec 512 := BitVec.ofNat 512 (leNat (packetBytes 1))
def queued (l : Tab (List QueuedPacket)) : State := ready.updCluster 0 fun c => { c with queue := l, released := true }
def q0 (since : Nat) : QueuedPacket := ⟨packet1, 0, since, false⟩
def stored (full : Bool) (counter : Nat) : State := ready.updCluster 0 fun c => { c with store := [(0, { full := full, counter := counter, packet := packet1 })] }
/-- The kernel has written the registers that dispatch waits for. -/
def kernelWrote (s : State) : State :=
  (span 0 Config.dies).foldl (fun u d => u.updDie d fun x => { x with castivSet := true }) (s.updHub fun h => { h with devidSet := true, sptbrSet := true })
theorem schedulerEvents :
    ((1 : Nat) % 8 ≠ 0 ∧ (ready.cluster 0).withdrawn = false ∧ ready.placeable 0 = none ∧
      ((ready.updCluster 0 fun c => { c with withdrawn := true }).cluster 0).withdrawn = true) ∧
    ((queued [(0, [q0 0])]).placeable 0 = some (0, 0, q0 0) ∧
      (((queued [(0, [q0 0])]).core 0).seats (8 * pktRegs packet1) (pktThreads packet1)) = some [(1, 27)] ∧
      (((queued [(0, [q0 0])]).core 0).banksFor packet1) = some ([], [], []) ∧ (queued [(0, [q0 0])]).newNumber (clusterOf 0) = some 1) ∧
    (match (queued [(0, [q0 0])]).prepare packet1 with
      | .ok _ => true
      | _ => false) = true ∧
    (match (queued [(0, [q0 0])]).prepare (packet1 ||| BitVec.ofNat 512 (0x40000000 * 2 ^ 64)) with
      | .status _ => true
      | _ => false) = true ∧
    ((ready.cluster 0).level 1 = [] ∧ ((queued [(1, [q0 0])]).cluster 0).level 1 = q0 0 :: [] ∧ ((queued [(1, [q0 0])]).cluster 0).wheels < 0 + 4096 ∧
      (((queued [(1, [q0 0])]).updCluster 0 fun c => { c with wheels := 4096 }).cluster 0).wheels = 4096) ∧
    ((queued []).maySteal 0 = true ∧ (queued []).yields 1 = none ∧ ready.maySteal 0 = false ∧ 33 + 1 ≤ ringLength) ∧
    (((queued []).updCluster 1 fun c => { c with withdrawn := true, queue := [(0, [q0 0, q0 0])] }).yields 1 = some (0, q0 0)) ∧
    ((stored true 0).liveEntry 0x80000000 = none ∧ (stored true 1).liveEntry 0x80000000 = some { full := true, counter := 1, packet := packet1 } ∧
      (stored true 2).liveEntry 0x80000000 = some { full := true, counter := 2, packet := packet1 } ∧
      fld 0x80000000 31 31 = 1 ∧ fld 0x80000000 30 23 = 0 ∧ ((stored true 0).cluster 0).queued < queueSize) ∧
    (ready.inst 1 = none ∧ ready.hasThread 0 = true ∧ (kernelWrote (queued [(0, [q0 0])])).kernelReady = true ∧
      (kernelWrote (queued [(0, [q0 0])])).placeable 0 = some (0, 0, q0 0) ∧ State.reset.kernelReady = false) ∧
    (let s := (queued []).updCore 0 fun k => { k with arriving := some (q0 0) }
    ((queued []).core 0).arriving = none ∧ (s.core 0).arriving = some (q0 0) ∧ s.swapping 0 = false ∧ s.dirtyPinned 0 = false ∧
      ((s.updCore 0 fun x => { x with arriving := none }).pairMoved 0).fits 0 (q0 0).packet = true ∧
      (((s.updCore 0 fun x => { x with arriving := none, drained := true }).pairMoved 0).fits 0 (q0 0).packet = false)) ∧
    ((0 : Nat) % 8 = 0 ∧ (1 : Nat) % 8 ≠ 0 ∧ (queued [(1, [q0 0])]).placeable 0 ≠ none) := by
  and_intros <;> decide +kernel
/-- Its task submitted by a program, with its thread gone. -/
def finished : State := ({ ready with insts := [(0, { packet := packet1, core := 0, order := 0, scratch := [], operand := [], queues := 0, host := false, fmtp := 0 })] } : State).updCur
  fun t => { t with st := .free }
theorem schedulerEvents_endings :
    (finished.hasThread 0 = false ∧ finished.hasCopy 0 = false ∧ finished.hasJob 0 = false ∧ (finished.inst 0).isSome = true ∧
      (finished.inst 0).any (fun i => finished.overflowHeld 0 i || i.host || i.st != .live) = false) ∧
    (({ ready with mailFlight := [mail false] } : State).mailFlight = mail false :: [] ∧ (mail false).sender = none ∧
      (ready.accept (mail false)).isSome = true ∧ ready.mailFlight = []) ∧
    ((ready.updCore 0 fun k => { k with mailbox := List.replicate 256 ⟨1, 0, 0, false, none⟩ }).accept (mail false) = none) ∧
    (let s := ready.updCore 0 fun k => { k with sends := [(portNumber .me, [⟨5, 0⟩])] }
    neighbour 1 .mw = some 0 ∧ neighbour 0 .mw = none ∧ portNumber (facing .mw) = portNumber .me ∧
      tabGet [] (s.core 0).sends (portNumber .me) = ⟨5, 0⟩ :: [] ∧ tabGet [] (ready.core 0).sends (portNumber .me) = [] ∧
      s.exchanging 1 = false ∧ s.exchanging 0 = false ∧ (tabGet [] (s.core 1).ports (portNumber .mw)).length < s.portRoom 1) ∧
    ((ready.updPair 0 fun x => { x with phase := .exchanged }).exchanging 0 = true) := by
  refine ⟨?_, ?_, ?_, ?_, ?_⟩ <;> decide +kernel
/-- Its task in a state. -/
def inState (st : InstState) : State := ready.updInst 0 fun i => { i with st := st }
def image1 (intact : Bool) : Image := { number := 0, inst := { packet := packet1, core := 0, order := 0, scratch := [], operand := [], queues := 0, host := true, fmtp := 0 },
                                        threads := [(0, { alloc := 8 })], requests := [], backing := [], barriers := [], ports := none, mailbox := [],
                                        written := [(0x100000, [if intact then 0 else 1])] }
def stored1 (intact : Bool) : State := { ready with insts := [], images := [(0x100000, image1 intact)] }.updCore 0 fun k => { k with slots := [] }
def inPhase (p : SwapPhase) : State := ready.updPair 0 fun x => { x with phase := p }
theorem instanceEvents :
    (ready.inst 1 = none ∧ (ready.inst 0).any (fun i => i.st = .live) = true ∧ ((inState .halting).inst 0).any (fun i => i.st = .halting) = true ∧
      ((inState .halted).inst 0).any (fun i => i.st = .halted && i.core != nowhere) = true ∧
      ((inState .killing).inst 0).any (fun i => i.st = .killing && i.core != nowhere) = true ∧ (inState .killing).killPending 0 = false ∧
      (inState .killing).exchanging 0 = false) ∧
    ((inState .halting).inst 0).any (fun i => (inState .halting).allHalted 0 i) = false ∧
    (let s := (inState .halting).updCur fun t => { t with st := .halted none }
    (s.inst 0).any (fun i => s.allHalted 0 i) = true) ∧
    (0x100000 % 4096 = 0 ∧ 0x100000 + Inst.imageSize ((ready.core 0).ownBarriers 0).length ≤ Config.hbmBytes ∧
      (inPhase .exchanged).exchanging 0 = true ∧ ready.exchanging 0 = false ∧ (ready.inst 0).any (fun i => i.resident) = true ∧ (tabFind ready.images 0x100000).isSome = false ∧ (0x100001 : Nat) % 4096 ≠ 0 ∧
      ((ready.core 0).imageSlots 0).all (fun x => !x.2.awaitsReply) = true ∧
      (((parkedOn (.access (.done true))).core 0).imageSlots 0).any (fun x => x.2.awaitsReply) = true) ∧
    (tabFind ready.images 0x100000 = none ∧ tabFind (stored1 true).images 0x100000 = some (image1 true) ∧
      (stored1 true).imageIntact (image1 true) = true ∧ (stored1 false).imageIntact (image1 false) = false ∧
      (stored1 true).conflicts 0 (image1 true) = false ∧
      ((stored1 true).updCore 0 fun k => { k with barriers := [(7, { owner := some 1 })] }).conflicts 0 { image1 true with barriers := [(7, {})] } = true ∧
      ((stored1 true).core 0).started = true ∧ ((stored1 true).core 0).drained = false ∧ (stored1 true).swapping 0 = false ∧
      (stored1 true).tableFree 0 0 = true ∧ (stored1 true).jobsMove 0 0 0 = true ∧
      (stored1 true).conflicts 0 ((stored1 true).readImage 0x100000 (image1 true)) = false ∧
      ((stored1 true).updPair 0 fun x => { x with phase := .preparing 0 }).swapping 0 = true ∧ (stored1 true).swapping 0 = false ∧
      ((stored1 true).core 0).seatAgain (image1 true).threads = some [(0, 12)] ∧ ((stored1 true).core 0).banksFor packet1 = some ([], [], []) ∧
      (ready.core 0).seatAgain (image1 true).threads = none) ∧
    (((ready.updCur fun t => { t with st := .frozen }).thread 0 0).st = .frozen ∧ ((ready.updCur fun t => { t with st := .stopped }).thread 0 0).st = .stopped ∧
      (ready.thread 0 0).st ≠ .frozen ∧ (ready.thread 0 0).st ≠ .stopped ∧ (ready.thread 0 0).hold = none) ∧
    ((ready.pair 0).phase = .idle ∧ 0 = pairOf 0 ∧ 7 ≠ pairOf 7 ∧ ready.castling 0 ≠ 0 ∧ ready.pairDrained 0 = false ∧ ready.pairHeld 0 = true) ∧
    (((inPhase (.waiting 0)).pair 0).phase = .waiting 0 ∧ (inPhase (.waiting 0)).swapWaits 0 = false ∧
      ((inPhase (.waiting 0)).updCur fun t => { t with hold := some 0 }).swapWaits 0 = true ∧ ((inPhase (.waiting 0)).core 0).cyc < 0 + 60000 ∧
      0 + 60000 ≤ ((ready.updCore 0 fun k => { k with cyc := 60000 }).core 0).cyc) ∧
    (((inPhase (.preparing 0)).pair 0).phase = .preparing 0 ∧ ((inPhase (.preparing 0)).core 0).cyc < 0 + prepareCycles ∧
      ¬ ((ready.updCore 0 fun k => { k with cyc := 4096 }).core 0).cyc < 0 + prepareCycles ∧ ready.dirtyPinned 0 = false ∧
      ready.dirtyPinned (partner 0) = false ∧ (ready.cluster (clusterOf 0)).pressing = false ∧ ((inPhase .exchanged).pair 0).phase = .exchanged) ∧
    (((ready.updCur fun t => { t with hold := some 0 }).thread 0 0).hold = some 0 ∧ (ready.core 0).cyc < 0 + holdCycles ∧
      0 + holdCycles ≤ ((ready.updCore 0 fun k => { k with cyc := 60000 }).core 0).cyc) := by
  and_intros <;> decide +kernel

/-! The host, the hub, the link and ports. -/

def hubbed (f : Hub → Hub) : State := ready.updHub f
theorem deviceEvents :
    (State.reset.hub.poweredUp = false ∧ ready.hub.poweredUp = true ∧ State.reset.hub.stage ≠ 1 ∧ State.reset.hub.stage ≠ 2 ∧
      (hubbed fun h => { h with stage := 2 }).hub.stage = 2) ∧
    ((hubbed fun h => { h with stage := 3 }).hub.stage = 3 ∧ (ready.cluster 0).released = false ∧ ¬ Config.clusters ≤ 127 ∧ 127 + 1 = Config.clusters ∧
      Config.clusters ≤ 128) ∧
    (ready.hub.kernelRuns = true ∧ State.reset.hub.kernelRuns = false ∧ ready.hub.negotiates = false ∧
      (hubbed fun h => { h with committed := false }).hub.negotiates = true) ∧
    (setOk 1 = true ∧ setOk 0xFFF = true ∧ setOk 0 = false ∧ setOk 0x1001 = false ∧ setOk 9 = false) ∧
    (ready.hub.committed = true ∧ 127 < Config.clusters ∧ ready.hub.identityKey = true ∧
      (hubbed fun h => { h with identityKey := false }).hub.identityKey = false) ∧
    (ready.hub.alarmLock = false ∧ ready.hub.alarmAction 0 = none ∧ ready.hub.alarmAction 1 = some 1 ∧ ready.hub.alarmAction 8 = some 2 ∧
      (hubbed fun h => { h with alarmVolt := 0 }).hub.alarmAction 1 = some 0 ∧ (hubbed fun h => { h with alarmLock := true }).hub.alarmLock = true) ∧
    (onePiece 7 1 = true ∧ onePiece 0 8 = true ∧ onePiece 7 2 = false ∧ Config.hbmBytes ≤ Config.hbmBytes ∧ 0x4000 < Config.hbmBytes ∧
      ready.pinned (.home 0x4000) = false ∧ pinned.pinned (.home 0x4000) = true ∧ ready.hub.hostWrites = [] ∧ 0x4000 < ready.hub.barSize ∧
      Config.hbmBytes ≤ Config.hbmBytes ∧ (hubbed fun h => { h with barSize := 0x4000 }).hub.barSize ≤ 0x4000) ∧
    ((hubbed fun h => { h with hostWrites := [.bar2Write 0x4000 [1]] }).hub.hostWrites = .bar2Write 0x4000 [1] :: [] ∧
      (hubbed fun h => { h with hostWrites := [.sqtailWrite 1 0], committed := false }).hub.hostWrites = .sqtailWrite 1 0 :: [] ∧
      (1 : Nat) ≤ (1 : Word).toNat ∧ (254 : Word).toNat ≤ 254 ∧ ¬ (1 ≤ (0 : Word).toNat ∧ (0 : Word).toNat ≤ 254)) := by
  and_intros <;> decide +kernel
/-- HBM4E that does not train fails the loader's stage; an image passes where its signature does, which the model leaves open. -/
theorem deviceEvents_boot :
    (∀ b : BootImage, b.trained = false → bootErr b 2 = 4) ∧
    (∀ b : BootImage, b.trained = true → b.headerDigest = sm3 b.bytes → sm2Verify Config.vendorKey b.headerDigest b.signature = true →
      b.version = Config.rollbackCounter → bootErr b 2 = 0) := by
  refine ⟨fun b h => by simp [bootErr, h], fun b h1 h2 h3 h4 => ?_⟩
  unfold bootErr; rw [if_neg (by simp [h1]), if_neg (by simp [h2]), if_neg (by simp [h3]), if_neg (by simp [h4])]
/-- Group 9's root here, with one store asked for and one stamped. -/
def casting (member stamp : Nat) (fault : Option Nat) : State := (hubbed fun h => { h with
  groups := [(9, entry 1 1 1 3 8 member ||| BitVec.ofNat 128 (stamp * 2 ^ 32))], requests := [⟨9, 0x4000, 5, none, noInst, 0⟩]
  stamped := [⟨9, 0, 0x4000, 5, none, noInst, 0, fault⟩] })
/-- A packet of group 9's step 4, one element of a chunk of one. -/
def up (chunk : Nat) (status : Nat) : CombinePacket :=
  { group := 9, stepNo := 4, scalar := false, topo := 1, source := 2, kind := 0, count := 0, pass := 0, offset := 0, chunk := chunk
    elems := [0], nonfinite := 0, status := BitVec.ofNat 4 status, last := true }
theorem linkEvents :
    (ready.nextStamped 9 = none ∧ geCasts (ready.group 9) = false ∧ geCollects (ready.group 9) = false ∧ ready.findStep 9 4 true = none ∧
      ready.hub.steps = [] ∧ ready.hub.requests = []) ∧
    ((casting 1 0 none).nextStamped 9 = some ⟨9, 0, 0x4000, 5, none, noInst, 0, none⟩ ∧
      (casting 1 0 (some 3)).nextStamped 9 = some ⟨9, 0, 0x4000, 5, none, noInst, 0, some 3⟩ ∧
      (casting 1 0 none).engineTarget noInst { w := true } ⟨0, 0x4000⟩ = .ok (at0 0x4000) ∧
      (casting 1 0 none).engineTarget noInst { w := true } ⟨0, 0x40000000⟩ = .page ∧
      (casting 1 0 none).engineTarget noInst { w := true } ⟨0, 2 ^ 48⟩ = .access ∧
      (casting 1 0 none).pinned (at0 0x4000).place = false ∧ pinned.pinned (at0 0x4000).place = true) ∧
    (geCasts ((casting 1 0 none).group 9) = true ∧ geRoot ((casting 1 0 none).group 9) = true ∧
      firstRequest 9 (casting 1 0 none).hub.requests = some (⟨9, 0x4000, 5, none, noInst, 0⟩, []) ∧ firstRequest 9 [] = none ∧
      (casting 1 256 none).mayStamp 9 = false) ∧
    (let s := hubbed fun h => { h with groups := [(9, entry 1 1 0 3 8 1)], requests := [⟨9, 0x4000, 5, none, noInst, 0⟩] }
    geCasts (s.group 9) = true ∧ geRoot (s.group 9) = false ∧ s.stampNow 9 = some 0 ∧ geMember (s.group 9) = true ∧
      firstRequest 9 s.hub.requests = some (⟨9, 0x4000, 5, none, noInst, 0⟩, []) ∧
      (hubbed fun h => { h with groups := [(9, entry 1 1 0 3 8 0)] }).stampNow 9 = none ∧
      (hubbed fun h => { h with groups := [(9, entry 1 1 0 3 8 0)], stamps := [(9, 7)] }).stampNow 9 = some 7 ∧
      geMember (entry 1 1 0 3 8 0) = false) ∧
    (let s := hubbed fun h => { h with groups := [(9, entry 1 1 1 1 8 0)] }
    geCollects (s.group 9) = true ∧ (up 1 0).topo.toNat = geTopo (s.group 9) ∧ (up 1 0).chunk ≠ 0 ∧ (up 0 0).chunk = 0 ∧ (up 1 3).status = 3 ∧
      (up 1 0).status ≠ 3 ∧ (newStep 9 4 false 0 1 0).lost = false ∧ geRoot (s.group 9) = true ∧
      geRoot ((hubbed fun h => { h with groups := [(9, entry 1 1 0 1 8 0)] }).group 9) = false ∧ (up 1 0).pass ≠ 1 ∧ (up 1 0).elems = 0 :: []) ∧
    (let x : StepState := { chunks 0 with scalar := true, answer := some (up 1 0) }
    let s := hubbed fun h => { h with steps := [x] }
    s.findStep 9 4 true = some x ∧ x.answer = some (up 1 0) ∧ x.mixed = false ∧ ({ x with answer := none } : StepState).answer = none ∧
      ({ x with lost := true } : StepState).lost = true) := by
  and_intros <;> decide +kernel
/-- The root may stamp while every member, heard from or not, is within 256. -/
theorem linkEvents_mayStamp : (casting 1 255 none).mayStamp 9 = true := by
  have h : ∀ l : List Nat, (l.all fun d => d = (casting 1 255 none).hub.devid.toNat ||
      decide ((geStamp ((casting 1 255 none).group 9) - tabGet 0 (casting 1 255 none).hub.memberApplied (edgeKey 9 d)).toNat < 256)) = true := by
    intro l
    rw [List.all_eq_true]
    intro d _
    rw [show tabGet 0 (casting 1 255 none).hub.memberApplied (edgeKey 9 d) = 0 from rfl]
    rw [show decide ((geStamp ((casting 1 255 none).group 9) - (0 : BitVec 32)).toNat < 256) = true by decide +kernel, Bool.or_true]
  unfold State.mayStamp
  simp only [h, Bool.and_true]
  decide +kernel
/-- Register 120 of an allocation of 120 cannot be named; 119 of one of 112 is beyond it. A port of a light thread. -/
theorem registerLimits :
    (let s := ready.updCur fun t => { t with alloc := 112 }
    isPort 112 = false ∧ s.cur.rename (112 : BitVec 7).toNat = 112 ∧ s.cur.bound ≤ 112 ∧ ¬ s.cur.bound ≤ s.cur.rename (111 : BitVec 7).toNat) ∧
    (light.cur.light = true ∧ light.cur.bound = 11 ∧ isPort 120 = true ∧ isPort 125 = true ∧ isPort 126 = false ∧ isPort 10 = false) := by
  refine ⟨?_, ?_⟩ <;> decide
theorem ports :
    (ready.cur.light = false ∧ named ready.cur [5] ∧ (ready.core 0).oldest 0 0 = none ∧ ready.is ≠ 63 ∧ ready.ownsPorts = true ∧
      tabGet [] (ready.core 0).ports (122 - 122) = [] ∧ tabGet [] (ready.core 0).ports (125 - 122) = [] ∧ ready.cur.reds = [] ∧
      ready.dirtyPinned ready.ic = false ∧ (ready.core 0).lnk.length < 16) ∧
    (((ready.updCore 0 fun k => { k with mailbox := [mail false] }).core 0).oldest 0 0 = some (mail false) ∧
      ((ready.updCore 0 fun k => { k with mailbox := [mail true] }).core 0).oldest 0 0 = some (mail true) ∧ (mail true).half = true) ∧
    ((linking ready).is = 63 ∧ ((linking ready).core 0).lnk = [] ∧
      (((linking ready).updCore 0 fun k => { k with lnk := [⟨5, 0⟩] }).core 0).lnk = ⟨5, 0⟩ :: []) ∧
    (16 ≤ ((ready.updCore 0 fun k => { k with lnk := List.replicate 16 ⟨5, 0⟩ }).core 0).lnk.length ∧
      (immUpper 0x20000).getLsbD 63 = true ∧ (immUpper 0x1FFFF).getLsbD 63 = false) ∧
    (tabGet [] ((ready.updCore 0 fun k => { k with ports := [(0, [⟨5, 0⟩])] }).core 0).ports 0 = ⟨5, 0⟩ :: []) ∧
    ((pinned.updCore 0 fun k => { k with mailbox := [mail false], ports := [(0, [⟨5, 0⟩])] }).dirtyPinned 0 = true ∧ (mail false).half = false) ∧
    4 ≤ (tabGet [] ((ready.updCore 0 fun k => { k with sends := [(portNumber .me, List.replicate 4 ⟨5, 0⟩)] }).core 0).sends (portNumber .me)).length ∧
    (tabGet [] (ready.core 0).sends (portNumber .me)).length < 4 ∧
    ((ready.updCur fun t => { t with inst := 1 }).ownsPorts = false) ∧
    (neighbour 0 .me = some 1 ∧ neighbour 0 .mw = none ∧ neighbour 4 .mn = none ∧
      (tabGet [] (ready.core 1).ports (portNumber (facing .me))).length < ready.portRoom 1) ∧
    (ready.portRoom 1 ≤ (tabGet [] ((ready.updCore 1 fun k => { k with ports := [(portNumber (facing .me), List.replicate 4 ⟨5, 0⟩)] }).core 1).ports
      (portNumber (facing .me))).length) := by
  unfold named; and_intros <;> decide +kernel
theorem resetState :
    let s := (hubbed fun h => { h with stage := 3 })
    s.hub.stage = 3 ∧ (s.cluster 0).released = false ∧ (0 : Nat) < 128 ∧ ∀ j < 0, (s.cluster j).released = true := by
  refine ⟨?_, ?_, ?_, ?_⟩ <;> decide
theorem resetState_last :
    let s := State.updHub { State.reset with clusters := (span 0 127).map fun k => (k, { released := true }) } fun h => { h with stage := 3 }
    (s.cluster 127).released = false ∧ ∀ j ∈ span 0 127, (s.cluster j).released = true := by
  refine ⟨?_, ?_⟩ <;> decide +kernel

/-! Single steps. The results are the spec's worked examples, and those that its tables give at the edges. -/

/-- A register of the issuing thread after an instruction. -/
def reg (i : Instr) (s : State) (n : Nat) : Option Word := (result (exec i s)).map fun u => u.cur.reg n
/-- A lane of a group after an instruction. -/
def laneOf (i : Instr) (s : State) (w k j : Nat) : Option Nat := (result (exec i s)).map fun u => lane u.cur w k j

/-- spec/04 R85: −7 by 2, and the lowest value by −1. -/
theorem test_div : reg (.div 7 6 5) (regs [(6, -7), (7, 2)]) 5 = some (-3) ∧ reg (.rem 7 6 5) (regs [(6, -7), (7, 2)]) 5 = some (-1) ∧
    reg (.div 7 6 5) (regs [(6, 2 ^ 63), (7, -1)]) 5 = some (2 ^ 63) ∧ reg (.rem 7 6 5) (regs [(6, 2 ^ 63), (7, -1)]) 5 = some 0 ∧
    reg (.divu 7 6 5) (regs [(6, 9)]) 5 = some 0xFFFFFFFFFFFFFFFF ∧ reg (.remu 7 6 5) (regs [(6, 9)]) 5 = some 9 := by
  refine ⟨?_, ?_, ?_, ?_, ?_, ?_⟩ <;> decide +kernel
/-- spec/04 R87. -/
theorem test_bit_fields : reg (.bfxu 10 9 8) (regs [(9, 0xABCD00), (10, 0x80C)]) 8 = some 0xBC ∧
    reg (.bfx 10 9 8) (regs [(9, 0xABCD00), (10, 0x80C)]) 8 = some 0xFFFFFFFFFFFFFFBC := by decide
/-- spec/04 R88: for k = −1, SLTIU gives 1 for every a but the highest. -/
theorem test_sltiu : reg (.sltiu 0xFF 5 6) (regs [(5, 0xFFFFFFFFFFFFFFFE)]) 6 = some 1 ∧
    reg (.sltiu 0xFF 5 6) (regs [(5, 0xFFFFFFFFFFFFFFFF)]) 6 = some 0 := by decide
/-- spec/02 R50: LI g4, 0x1234_5678 is LIU with 0x48D1 and ADDL with 0x1678. -/
theorem test_li : reg (.liu 0x048D1 4) ready 4 = some 0x12344000 ∧ reg (.addl 0x01678 4) (regs [(4, 0x12344000)]) 4 = some 0x12345678 := by decide
/-- spec/01 R13: g0 reads 0 and discards writes, and R26: the old values are read first. -/
theorem test_g0 : reg (.addi 1 5 0) (regs [(5, 7)]) 0 = some 0 ∧ reg (.add 5 5 5) (regs [(5, 7)]) 5 = some 14 := by decide
/-- spec/04 R95: 2.5 under RNE and under RUP; NX is set. -/
theorem test_convert : reg (.fcvtID 6 5) (regs [(6, 0x4004000000000000)]) 5 = some 2 ∧
    reg (.fcvtID 6 5) ((regs [(6, 0x4004000000000000)]).updCur fun t => { t with frm := 3 }) 5 = some 3 ∧
    ((result (exec (.fcvtID 6 5) (regs [(6, 0x4004000000000000)]))).map fun u => u.cur.fflags) = some 1 := by decide
/-- spec/05 R118: −7 × 3 + 1.5 in FP32. -/
theorem test_vfma : laneOf (.vfma 3 1 2 0 1 8) (regs [(16, 0x3FC00000), (32, 0xC0E00000), (48, 0x40400000)]) 32 1 0 = some 0xC19C0000 := by decide
/-- spec/05 R119: VSHR of −7 by 1 in i8, by RDN, RTZ and RNE. -/
theorem test_vshr : laneOf (.vshr 3 0 2 2 0 1 0) (regs [(32, 0xF9), (48, 1)]) 8 1 0 = some 0xFC ∧
    laneOf (.vshr 3 0 1 2 0 1 0) (regs [(32, 0xF9), (48, 1)]) 8 1 0 = some 0xFD ∧
    laneOf (.vshr 3 0 0 2 0 1 0) (regs [(32, 0xF9), (48, 1)]) 8 1 0 = some 0xFC := by decide +kernel
/-- spec/05 R122: the tree sum of 2^24, 0, 1 and 1. -/
theorem test_vred : laneOf (.vred 0 0 1 0 2 8) (regs [(16, 0x4B800000), (17, 0x3F8000003F800000)]) 32 2 0 = some 0x4B800001 := by decide +kernel
/-- spec/05 R130, spec/03 R74: the byte of five weights 0 unpacks to zeros, and an illegal byte leaves 0 and sets VXF.T. -/
theorem test_vunpk3 : laneOf (.vunpk3 0 1 0 2 0) (regs [(16, 121)]) 8 2 0 = some 0 ∧
    ((result (exec (.vunpk3 0 1 0 2 0) (regs [(16, 243)]))).map fun u => u.cur.vxf.getLsbD 6) = some true := by decide +kernel
/-- spec/18 R368: TRAP enters the handler. -/
theorem test_trap : ((result (exec (.trap 5) ((regs [(5, 9)]).updCur fun t => { t with tvec := 0x2000 }))).map fun u =>
    (u.cur.pc, u.cur.tepc, u.cur.tcause, u.cur.tval, u.cur.mode)) = some (0x2000, 0x10000, 14, 9, .supervisor) := by decide
/-- spec/19 R393: ERET comes back in the mode that TSTAT.PM names. -/
theorem test_eret : ((result (exec .eret (boss.updCur fun t => { t with tepc := 0x3000, inh := true }))).map fun u =>
    (u.cur.pc, u.cur.mode, u.cur.inh)) = some (0x3000, .user, false) ∧
    ((result (exec .eret ready)).map fun u => u.cur.tcause) = some 1 := by decide
/-- spec/04 R102: BRB counts down to 0 and rotates the region. -/
theorem test_brb : ((result (exec (.brb 0xF 20 0xD) ((regs [(20, 2)]).updCur fun t => { t with rrlo := 40, rrsz := 8 }))).map fun u =>
    (u.cur.reg 20, u.cur.rrb, u.cur.pc)) = some (1, 7, 0x10000 - 12) := by decide
/-- spec/04 R96: a store to the scratch bank, and the byte that LBU reads back. -/
theorem test_window : ((result (exec (.sd 0 6 5 0) (banked.updCur fun t => { t with regs := [(5, 0xFFFF000000000000), (6, 0x1122334455667788)] }))).bind
    fun u => reg (.lbu 1 5 7) u 7) = some 0x77 := by decide +kernel
/-- spec/09 R197: LAUNCH of a packet that breaks R146 answers 4. -/
theorem test_launch : reg (.launch 5 7) (packed 0) 7 = some 4 := by decide +kernel
/-- spec/19 R391: a light thread may read CORE_ID, and not VXF. -/
theorem test_crr : reg (.crr 7 5) light 5 = some 0 ∧ ((result (exec (.crr 9 5) light)).map fun u => (u.thread 0 0).st) = some .frozen := by decide
/-- spec/25 R449: a kind 1 record with the value 0x0300_4000 patches the words of LIU g8 and ADDL g8. -/
theorem test_relocation : relocate (fun _ => 0x03000000) 0 (leBytes (2 ^ 32 + 0x4000 * 2 ^ 64) 16) (leBytes 0x437 4 ++ leBytes 0x41F 4) =
    some (leBytes 0x03004437 4 ++ leBytes 0x0000041F 4) := by decide
/-- spec/25 R448: the record of ADD g5, g6, g7 is taken as it stands, and one that names another major is refused. -/
theorem test_portable : finalWord 1 false (leBytes (0x00E182B3 + 0x0C * 2 ^ 32) 8) = some 0x00E182B3 ∧
    finalWord 1 false (leBytes (0x00E182B3 + 0x0D * 2 ^ 32) 8) = none := by decide +kernel
/-- The example of GB/T 32905 (log 71): the digest of the letters a, b and c. -/
theorem test_sm3 : sm3 [0x61, 0x62, 0x63] = 0x66C7F0F462EEEDD9D1F2D46BDC10E4E24167C4875CF2F7A2297DA02B8F4BA8E0 := by decide +kernel
end Witness
end
end

section
/-! The step (spec/01 R19, R25): what an issue fetches, and what it then executes. -/

namespace Sys2Proof.Machine

open Safety

/-! The fetch (spec/01 R19, spec/10 R229). -/

/-- The state in which a slot of a core issues. -/
abbrev State.issuing (s : State) (c sl : Nat) : State := { s with ic := c, is := sl }

/-- What a fetch asks of its page. -/
abbrev fetchNeed : Need := { x := true, noWindow := true }

/-- Four bytes in memory order make their word again. -/
theorem ofNat_leNat_wordBytes (w : InstrWord) : BitVec.ofNat 32 (leNat (wordBytes w)) = w := by
  apply BitVec.eq_of_toNat_eq
  simp only [wordBytes, leNat, BitVec.toNat_ofNat, BitVec.extractLsb'_toNat, Nat.shiftRight_eq_div_pow]
  omega

theorem fetch_misaligned {s : State} (h : s.cur.pc.toNat % 4 ≠ 0) : s.fetch = .fault 2 := by
  simp [State.fetch, h]

section
variable {s : State} (ha : s.cur.pc.toNat % 4 = 0)
include ha

theorem fetch_window (hx : s.xlate s.ic s.is fetchNeed ⟨0, s.cur.pc⟩ = .window) : s.fetch = .fault 7 := by
  simp only [State.fetch, ha, hx, bne_self_eq_false, Bool.false_eq_true, if_false]

theorem fetch_access (hx : s.xlate s.ic s.is fetchNeed ⟨0, s.cur.pc⟩ = .access) : s.fetch = .fault 3 := by
  simp only [State.fetch, ha, hx, bne_self_eq_false, Bool.false_eq_true, if_false]

theorem fetch_page (hx : s.xlate s.ic s.is fetchNeed ⟨0, s.cur.pc⟩ = .page) : s.fetch = .fault 4 := by
  simp only [State.fetch, ha, hx, bne_self_eq_false, Bool.false_eq_true, if_false]

theorem fetch_poisoned {t : Target} (hx : s.xlate s.ic s.is fetchNeed ⟨0, s.cur.pc⟩ = .ok t)
    (hp : (s.readPlace t.place 4).2.1.isSome = true) : s.fetch = .fault 12 := by
  obtain ⟨n, hn⟩ := Option.isSome_iff_exists.1 hp
  simp only [State.fetch, ha, hx, hn, bne_self_eq_false, Bool.false_eq_true, if_false]

end

theorem fetch_word {s : State} {t : Target} {w : InstrWord} (h : fetches s t w) : s.fetch = .word w := by
  obtain ⟨ha, hx, hb, hp⟩ := h
  simp only [State.fetch, ha, hx, hb, hp, ofNat_leNat_wordBytes, bne_self_eq_false, Bool.false_eq_true, if_false]

/-! The issue, by what was fetched. -/

theorem issue_instr {s : State} {c sl : Nat} {w : InstrWord} {i : Instr} (hf : (s.issuing c sl).fetch = .word w)
    (hd : decode w = .ok i) : issue c sl s = ticked c (exec i (s.issuing c sl)) := by
  simp only [issue, hf, hd]

theorem issue_illegal {s : State} {c sl : Nat} {w : InstrWord} {e : _} (hf : (s.issuing c sl).fetch = .word w)
    (hd : decode w = .error e) : issue c sl s = ticked c (exec (.illegalInstruction w) (s.issuing c sl)) := by
  simp only [issue, hf, hd]

theorem issue_fault {s : State} {c sl n : Nat} (hf : (s.issuing c sl).fetch = .fault n) :
    issue c sl s = ticked c (exec (.instructionFetchFault (BitVec.ofNat 5 n)) (s.issuing c sl)) := by
  simp only [issue, hf]

/-- A fetch fault that no kernel answers traps at once, with TVAL the pc. -/
theorem exec_fetchFault_trap {n : BitVec 5} (s : State) (h : (n = 3 || n = 4) = false) :
    exec (.instructionFetchFault n) s = trap n.toNat s.cur.pc s :=
  if_neg (by rw [h]; exact Bool.false_ne_true)

/-! The turn of a core (log 2). -/

theorem step_of_idle {s : State} (hi : s.inputs = []) (ha : s.agenda = []) : step s = cycle s.focus s := by
  simp only [step, hi, ha]

theorem cycle_boundary {s : State} {c : Nat} (hs : (s.core c).started = true) (hc : (s.core c).cyc % 16 = 0)
    (hb : (s.core c).boundaryDone = false) : cycle c s = exec (.wheelBoundary c) s := by
  simp [cycle, hs, hc, hb]

/-- A general thread at its position issues. -/
theorem step_of_issues {s : State} {c sl : Nat} (h : issues s c sl) : step s = issue c sl s := by
  obtain ⟨hi, ha, rfl, hs, hb, hw, hsl, hp⟩ := h
  rw [step_of_idle hi ha]
  have hbd : ((s.core s.focus).cyc % 16 = 0 && !(s.core s.focus).boundaryDone) = false := by
    by_cases hc : (s.core s.focus).cyc % 16 = 0 <;> simp [hc, hb]
  simp [cycle, hs, hbd, hw, hsl, hp]

theorem step_event {s : State} {i : Instr} {r : List Turn} (h : s.inputs = .event i :: r) :
    step s = exec i { s with inputs := r } := by
  simp only [step, h]

theorem step_core {s : State} {c : Nat} {r : List Turn} (h : s.inputs = .core c :: r) :
    step s = cycle c { s with inputs := r } := by
  simp only [step, h]

theorem step_outside {s : State} {o : Outside} {r : List Turn} (h : s.inputs = .outside o :: r) :
    step s = outside o { s with inputs := r } := by
  simp only [step, h]

theorem step_agenda {s : State} {i : Instr} {r : List Instr} (hi : s.inputs = []) (h : s.agenda = i :: r) :
    step s = exec i { s with agenda := r } := by
  simp only [step, hi, h]

end Sys2Proof.Machine

namespace Sys2Proof.Proofs

open Machine Safety

/-- Settles O4: an issue is what its fetch answers, case by case, and then the core's counter advances. -/
theorem stepRunsDecoded : Obligations.StepRunsDecoded := by
  unfold Obligations.StepRunsDecoded
  intro s c sl hs u need pc
  rw [step_of_issues hs]
  refine ⟨fun t w hf => ⟨fun i hd => ?_, fun e hd => ?_⟩, fun hm => ?_,
    fun ha => ⟨fun hx => ?_, fun hx => ?_, fun hx => ?_, fun t hx hp => ?_⟩⟩
  · exact issue_instr (fetch_word hf) hd
  · exact issue_illegal (fetch_word hf) hd
  · exact issue_fault (fetch_misaligned hm)
  · exact issue_fault (fetch_window ha hx)
  · exact issue_fault (fetch_access ha hx)
  · exact issue_fault (fetch_page ha hx)
  · exact issue_fault (fetch_poisoned ha hx hp)

/-- Settles O5: the cases of a turn, and the two fetch faults that trap at once. -/
theorem stepTurns : Obligations.StepTurns := by
  unfold Obligations.StepTurns
  refine ⟨fun _ _ _ => step_event, fun _ _ _ => step_core, fun _ _ _ => step_outside, fun _ _ _ => step_agenda,
    fun s hi ha hs hc hb => ?_, fun s c sl hs hm => ?_, fun s c sl t hs ha hx hp => ?_⟩
  · rw [step_of_idle hi ha, cycle_boundary hs hc hb]
  · rw [step_of_issues hs, issue_fault (fetch_misaligned (s := s.issuing c sl) hm), exec_fetchFault_trap _ (by decide)]
    rfl
  · rw [step_of_issues hs, issue_fault (fetch_poisoned (s := s.issuing c sl) ha hx hp), exec_fetchFault_trap _ (by decide)]
    rfl

end Sys2Proof.Proofs
end

section
/-! Register limits (spec/01 R13, R20, spec/18 R365) and the frame of the integer and floating instructions (spec/01 R12, R27,
spec/04 R92). -/

namespace Sys2Proof.Machine

open Safety

/-! The lowest number of a list. -/

theorem lowest_eq_none {l : List Nat} : lowest l = none ↔ l = [] := by
  cases l with
  | nil => simp [lowest]
  | cons a r => simp only [lowest]; split <;> simp

theorem lowest_mem {l : List Nat} {n : Nat} (h : lowest l = some n) : n ∈ l := by
  induction l generalizing n with
  | nil => cases h
  | cons a r ih =>
    simp only [lowest] at h
    split at h
    · simp_all
    · next b hb =>
      have := ih hb
      obtain rfl : min a b = n := by simpa using h
      rcases Nat.le_total a b with hab | hab <;> simp_all

theorem lowest_le {l : List Nat} {n m : Nat} (h : lowest l = some n) (hm : m ∈ l) : n ≤ m := by
  induction l generalizing n with
  | nil => cases hm
  | cons a r ih =>
    simp only [lowest] at h
    split at h
    · next hr =>
      obtain rfl := lowest_eq_none.1 hr
      simp_all
    · next b hb =>
      obtain rfl : min a b = n := by simpa using h
      rcases List.mem_cons.1 hm with rfl | hm
      · exact Nat.min_le_left ..
      · exact (Nat.min_le_right ..).trans (ih hb hm)

/-- A member that no other lies below is the lowest. -/
theorem lowest_eq_some {l : List Nat} {n : Nat} (hn : n ∈ l) (hl : ∀ m ∈ l, n ≤ m) : lowest l = some n := by
  cases h : lowest l with
  | none => simp [lowest_eq_none.1 h] at hn
  | some m => rw [Nat.le_antisymm (lowest_le h hn) (hl m (lowest_mem h))]

/-! The register checks when a field fails them. -/

/-- Among the fields there is one that renames to n, at or beyond the allocation. -/
def beyond (t : Thread) (l : List (BitVec 7)) (n : Nat) : Prop := ∃ r ∈ l, isPort r = false ∧ t.rename r.toNat = n ∧ t.bound ≤ n

theorem mem_beyond {t : Thread} {l : List (BitVec 7)} {n : Nat} :
    n ∈ ((((l.filter fun r => !isPort r).map (·.toNat)).map t.rename).filter fun n => t.bound ≤ n) ↔ beyond t l n := by
  simp only [beyond, List.mem_filter, List.mem_map, decide_eq_true_eq, Bool.not_eq_true', List.map_map, Function.comp_apply]
  constructor
  · rintro ⟨⟨r, ⟨hr, hp⟩, rfl⟩, hb⟩
    exact ⟨r, hr, hp, rfl, hb⟩
  · rintro ⟨r, hr, hp, rfl, hb⟩
    exact ⟨⟨r, ⟨hr, hp⟩, rfl⟩, hb⟩

/-- The lowest register number beyond the allocation traps. -/
theorem limit_beyond {l : List (BitVec 7)} {s : State} {n : Nat} (k : State → Res) (h : beyond s.cur l n)
    (hl : ∀ m, beyond s.cur l m → n ≤ m) : limit l k s = trap 5 (BitVec.ofNat 64 n) s := by
  rw [limit, limitNumbers, lowest_eq_some (mem_beyond.2 h) fun m hm => hl m (mem_beyond.1 hm)]

theorem within_of_not_beyond {t : Thread} {l : List (BitVec 7)} (h : ∀ n, ¬ beyond t l n) :
    ∀ n ∈ (l.filter fun r => !isPort r).map (·.toNat), t.rename n < t.bound := by
  intro n hn
  obtain ⟨r, hr, rfl⟩ := List.mem_map.1 hn
  obtain ⟨hr, hp⟩ := List.mem_filter.1 hr
  exact Nat.not_le.1 fun hb => h _ ⟨r, hr, by simpa using hp, rfl, hb⟩

/-- A heavy thread's fields that name no number beyond the allocation pass the register checks. -/
theorem limit_heavy {l : List (BitVec 7)} {s : State} (k : State → Res) (hl : s.cur.light = false) (h : ∀ n, ¬ beyond s.cur l n) :
    limit l k s = k s := by
  rw [limit, limitNumbers_ok _ (within_of_not_beyond h)]
  cases firstPort l
  · rfl
  · exact if_neg (by rw [hl]; exact Bool.false_ne_true)

theorem firstPort_eq {l : List (BitVec 7)} {p : BitVec 7} (hp : p ∈ l) (hq : isPort p = true)
    (hl : ∀ q ∈ l, isPort q = true → p.toNat ≤ q.toNat) : firstPort l = some p.toNat := by
  refine lowest_eq_some (List.mem_map.2 ⟨p, List.mem_filter.2 ⟨hp, hq⟩, rfl⟩) fun m hm => ?_
  obtain ⟨q, hmq, rfl⟩ := List.mem_map.1 hm
  obtain ⟨hml, hqp⟩ := List.mem_filter.1 hmq
  exact hl q hml hqp

/-- A light thread's lowest port traps. -/
theorem limit_lightPort {l : List (BitVec 7)} {s : State} {p : BitVec 7} (k : State → Res) (hl : s.cur.light = true)
    (h : ∀ n, ¬ beyond s.cur l n) (hp : p ∈ l) (hq : isPort p = true) (hm : ∀ q ∈ l, isPort q = true → p.toNat ≤ q.toNat) :
    limit l k s = trap 6 (BitVec.ofNat 64 p.toNat) s := by
  rw [limit, limitNumbers_ok _ (within_of_not_beyond h), firstPort_eq hp hq hm]
  exact if_pos hl

/-! The shapes of the integer and floating instructions. -/

/-- The integer instructions of three fields, each with its operation. -/
def binaryOps : List ((BitVec 7 → BitVec 7 → BitVec 7 → Instr) × (Word → Word → Word)) :=
  [(.add, fun x y => x + y), (.sub, fun x y => x - y), (.and, fun x y => x &&& y), (.or, fun x y => x ||| y),
    (.xor, fun x y => x ^^^ y), (.andn, fun x y => x &&& ~~~y), (.sll, opSll), (.srl, opSrl), (.sra, opSra), (.ror, opRor),
    (.slt, fun x y => bit (x.slt y)), (.sltu, fun x y => bit (x.ult y)), (.min, opMin), (.max, opMax), (.minu, opMinu),
    (.maxu, opMaxu), (.mul, fun x y => x * y), (.mulh, opMulh), (.mulhu, opMulhu), (.mulhsu, opMulhsu), (.div, opDiv),
    (.divu, opDivu), (.rem, opRem), (.remu, opRemu), (.bfx, opBfx), (.bfxu, opBfxu)]

/-- The integer instructions of two fields, each with its operation, for an immediate and a shift amount. -/
def unaryOps (i : BitVec 8) (h : BitVec 6) : List ((BitVec 7 → BitVec 7 → Instr) × (Word → Word)) :=
  [(.clz, opClz), (.ctz, opCtz), (.cpop, opCpop), (.bswap, opBswap), (.sextb, opSextb), (.sexth, opSexth), (.sextw, opSextw),
    (.zextw, opZextw), (.addi i, fun x => x + imm8 i), (.slti i, fun x => bit (x.slt (imm8 i))),
    (.sltiu i, fun x => bit (x.ult (imm8 i))), (.xori i, fun x => x ^^^ imm8 i), (.ori i, fun x => x ||| imm8 i),
    (.andi i, fun x => x &&& imm8 i), (.slli h, fun x => opSll x (amount h)), (.srli h, fun x => opSrl x (amount h)),
    (.srai h, fun x => opSra x (amount h)), (.rori h, fun x => opRor x (amount h))]

/-- The floating instructions of three fields, two of them sources, each with its operation. -/
noncomputable def fbinaryOps : List ((BitVec 7 → BitVec 7 → BitVec 7 → Instr) × (Rm → Word → Word → Word × Flags)) :=
  [(.faddS, fadd .fp32), (.fsubS, fsub .fp32), (.fmulS, fmul .fp32), (.fdivS, fdiv .fp32), (.fminS, fminmax false .fp32),
    (.fmaxS, fminmax true .fp32), (.feqS, feq .fp32), (.fltS, forder false .fp32), (.fleS, forder true .fp32),
    (.faddD, fadd .fp64), (.fsubD, fsub .fp64), (.fmulD, fmul .fp64), (.fdivD, fdiv .fp64), (.fminD, fminmax false .fp64),
    (.fmaxD, fminmax true .fp64), (.feqD, feq .fp64), (.fltD, forder false .fp64), (.fleD, forder true .fp64)]

/-- The floating instructions of two fields, each with its operation. -/
noncomputable def funaryOps : List ((BitVec 7 → BitVec 7 → Instr) × (Rm → Word → Word × Flags)) :=
  [(.fsqrtS, fsqrt .fp32), (.fclassS, fclass .fp32), (.fcvtSI, fromInt .fp32 true), (.fcvtSN, fromInt .fp32 false),
    (.fcvtIS, toInt .fp32 (-2 ^ 63) (2 ^ 63 - 1)), (.fcvtNS, toInt .fp32 0 (2 ^ 64 - 1)),
    (.fcvtWS, toInt .fp32 (-2 ^ 31) (2 ^ 31 - 1)), (.fcvtNwS, toInt .fp32 0 (2 ^ 32 - 1)), (.fcvtSD, toFmt .fp64 .fp32),
    (.fcvtSB, toFmt .bf16 .fp32), (.fcvtBS, toFmt .fp32 .bf16), (.fsqrtD, fsqrt .fp64), (.fclassD, fclass .fp64),
    (.fcvtDI, fromInt .fp64 true), (.fcvtDN, fromInt .fp64 false), (.fcvtID, toInt .fp64 (-2 ^ 63) (2 ^ 63 - 1)),
    (.fcvtND, toInt .fp64 0 (2 ^ 64 - 1)), (.fcvtWD, toInt .fp64 (-2 ^ 31) (2 ^ 31 - 1)),
    (.fcvtNwD, toInt .fp64 0 (2 ^ 32 - 1)), (.fcvtDS, toFmt .fp32 .fp64), (.fcvtDB, toFmt .bf16 .fp64),
    (.fcvtBD, toFmt .fp64 .bf16)]

theorem exec_binaryOps (b a d : BitVec 7) (s : State) : ∀ x ∈ binaryOps, exec (x.1 b a d) s = binary x.2 b a d s := by
  simp only [binaryOps, List.forall_mem_cons, List.not_mem_nil, false_implies, implies_true, and_true]
  and_intros <;> rfl

theorem exec_unaryOps (i : BitVec 8) (h : BitVec 6) (a d : BitVec 7) (s : State) :
    ∀ x ∈ unaryOps i h, exec (x.1 a d) s = unary x.2 a d s := by
  simp only [unaryOps, List.forall_mem_cons, List.not_mem_nil, false_implies, implies_true, and_true]
  and_intros <;> rfl

theorem exec_fbinaryOps (b a d : BitVec 7) (s : State) : ∀ x ∈ fbinaryOps, exec (x.1 b a d) s = fbinary x.2 b a d s := by
  simp only [fbinaryOps, List.forall_mem_cons, List.not_mem_nil, false_implies, implies_true, and_true]
  and_intros <;> rfl

theorem exec_funaryOps (a d : BitVec 7) (s : State) : ∀ x ∈ funaryOps, exec (x.1 a d) s = funary x.2 a d s := by
  simp only [funaryOps, List.forall_mem_cons, List.not_mem_nil, false_implies, implies_true, and_true]
  and_intros <;> rfl

theorem exec_threeFields (b a d : BitVec 7) (s : State) {e} (he : e ∈ threeFields) : ∃ f, exec (e b a d) s = binary f b a d s := by
  obtain ⟨x, hx, rfl⟩ := List.mem_map.1 (show e ∈ binaryOps.map Prod.fst from he)
  exact ⟨x.2, exec_binaryOps b a d s x hx⟩

theorem exec_twoFields {i : BitVec 8} {h : BitVec 6} (a d : BitVec 7) (s : State) {e} (he : e ∈ twoFields i h) :
    ∃ f, exec (e a d) s = unary f a d s := by
  obtain ⟨x, hx, rfl⟩ := List.mem_map.1 (show e ∈ (unaryOps i h).map Prod.fst from he)
  exact ⟨x.2, exec_unaryOps i h a d s x hx⟩

theorem exec_threeFloats (b a d : BitVec 7) (s : State) {e} (he : e ∈ threeFloats) : ∃ g, exec (e b a d) s = fbinary g b a d s := by
  obtain ⟨x, hx, rfl⟩ := List.mem_map.1 (show e ∈ fbinaryOps.map Prod.fst from he)
  exact ⟨x.2, exec_fbinaryOps b a d s x hx⟩

theorem exec_twoFloats (a d : BitVec 7) (s : State) {e} (he : e ∈ twoFloats) : ∃ g, exec (e a d) s = funary g a d s := by
  obtain ⟨x, hx, rfl⟩ := List.mem_map.1 (show e ∈ funaryOps.map Prod.fst from he)
  exact ⟨x.2, exec_funaryOps a d s x hx⟩

/-! What the floating shapes give for fields that name registers. -/

theorem fbinary_ok (g : Rm → Word → Word → Word × Flags) {b a d : BitVec 7} {s : State} (h : named s.cur [a, b, d]) :
    fbinary g b a d s = .next (wroteF s d (g s.cur.roundMode (X s a) (X s b)) (fresh s [a, b])) := by
  have ha := (h a (by simp)).1
  have hb := (h b (by simp)).1
  have hd := (h d (by simp)).1
  simp only [fbinary, limit_ok _ h, readSrc_ok _ _ ha, readSrc_ok _ _ hb, writeDst_ok _ _ _ _ hd, done, wroteF, X, fresh, List.any_cons,
    List.any_nil, Bool.or_false]

theorem funary_ok (g : Rm → Word → Word × Flags) {a d : BitVec 7} {s : State} (h : named s.cur [a, d]) :
    funary g a d s = .next (wroteF s d (g s.cur.roundMode (X s a)) (fresh s [a])) := by
  have ha := (h a (by simp)).1
  have hd := (h d (by simp)).1
  simp only [funary, limit_ok _ h, readSrc_ok _ _ ha, writeDst_ok _ _ _ _ hd, done, wroteF, X, fresh, List.any_cons,
    List.any_nil, Bool.or_false]

/-! What a completed register instruction leaves alone. -/

theorem State.addFflags_none (s : State) (d : BitVec 7) (v : Word) (f : Bool) : (s.setRd d v f).addFflags {} = s.setRd d v f := by
  rw [State.setRd, State.addFflags, State.updCur_updCur]
  refine State.updCur_congr _ ?_
  have : Flags.fflags {} = 0#5 := by decide
  split
  · rfl
  · rw [this, BitVec.or_zero]

/-- An integer result is a floating one that reports nothing. -/
theorem wrote_eq_wroteF (s : State) (d : BitVec 7) (v : Word) (f : Bool) : wrote s d v f = wroteF s d (v, {}) f := by
  rw [wroteF, State.addFflags_none, wrote]

/-- A thread whose instruction has written a register and gained flags, before it goes on. -/
def Thread.gain (t : Thread) (d : BitVec 7) (r : Word × Flags) (f : Bool) : Thread :=
  { t.setReg (t.rename d.toNat) r.1 (f || (t.active && t.freshRR != 0)) with
    fflags := if t.light then t.fflags else t.fflags ||| Flags.fflags r.2 }

theorem Thread.setReg_eq (t : Thread) (n : Nat) (v : Word) (b : Bool) :
    t.setReg n v b = { t with regs := (t.setReg n v b).regs, fresh := (t.setReg n v b).fresh } := by
  unfold Thread.setReg
  split <;> rfl

theorem Thread.gain_eq (t : Thread) (d : BitVec 7) (r : Word × Flags) (f : Bool) :
    t.gain d r f = { t with regs := (t.gain d r f).regs, fresh := (t.gain d r f).fresh, fflags := (t.gain d r f).fflags } := by
  unfold Thread.gain
  rw [Thread.setReg_eq]

theorem Thread.reg_gain_other (t : Thread) (d : BitVec 7) (r : Word × Flags) (f : Bool) {n : Nat} (h : n ≠ t.rename d.toNat) :
    (t.gain d r f).reg n = t.reg n :=
  t.reg_setReg_other r.1 (f || (t.active && t.freshRR != 0)) h

theorem wroteF_eq (s : State) (d : BitVec 7) (r : Word × Flags) (f : Bool) :
    wroteF s d r f = (s.updCur fun t => t.gain d r f).advance := by
  rw [wroteF, State.setRd, State.addFflags, State.updCur_updCur]
  refine congrArg State.advance (State.updCur_congr _ ?_)
  rw [Thread.gain, Thread.setReg_eq]
  by_cases hl : s.cur.light = true
  · simp only [hl, if_true]
  · simp only [hl, Bool.false_eq_true, if_false]

theorem sameBytes_updCur (s : State) (f : Thread → Thread) : sameBytes s (s.updCur f) := by
  refine ⟨fun _ => rfl, fun _ => rfl, fun c a => ?_⟩
  by_cases h : c = s.ic
  · subst h
    rw [State.updCur, State.updThread, State.core_putThread, Core.sram_putThread]
  · rw [State.updCur, State.updThread, State.putThread, State.core_updCore_other _ _ h]

theorem cur_wroteF (s : State) (d : BitVec 7) (r : Word × Flags) (f : Bool) :
    (wroteF s d r f).cur = { (s.cur.gain d r f).over with pc := (s.cur.gain d r f).pc + 4 } := by
  rw [wroteF_eq, State.advance, State.cur_updCur, State.cur_updCur]

/-- The frame of a completed register instruction. -/
theorem wroteF_frame (s : State) (d : BitVec 7) (r : Word × Flags) (f : Bool) :
    let u := wroteF s d r f
    computes s u ∧ sameBytes s u ∧ (∀ n, n ≠ s.cur.rename d.toNat → u.cur.reg n = s.cur.reg n) ∧ u.cur.reg 0 = 0 ∧
      u.cur.pc = s.cur.pc + 4 := by
  have hpc : (s.cur.gain d r f).pc = s.cur.pc := by rw [Thread.gain_eq]
  refine ⟨⟨?_, fun c sl h => ?_, ?_⟩, ?_, fun n h => ?_, rfl, ?_⟩
  · rw [cur_wroteF, hpc, Thread.gain_eq]
    rfl
  · rw [wroteF_eq, State.advance, State.updCur_updCur, State.thread_updCur_other _ _ h]
  · rw [wroteF_eq]
    rfl
  · rw [wroteF_eq, State.advance, State.updCur_updCur]
    exact sameBytes_updCur ..
  · rw [cur_wroteF]
    exact Thread.reg_gain_other _ _ _ _ h
  · rw [cur_wroteF, ← hpc]

/-- A completed register instruction adds flags, and for a light thread none (spec/04 R92). -/
theorem wroteF_flags (s : State) (d : BitVec 7) (r : Word × Flags) (f : Bool) :
    (wroteF s d r f).cur.fflags = if s.cur.light then s.cur.fflags else s.cur.fflags ||| Flags.fflags r.2 := by
  rw [cur_wroteF]
  rfl

theorem wrote_flags (s : State) (d : BitVec 7) (v : Word) (f : Bool) : (wrote s d v f).cur.fflags = s.cur.fflags := by
  rw [wrote, State.cur_advance, State.cur_setRd]
  exact Thread.fflags_setReg ..

end Sys2Proof.Machine

namespace Sys2Proof.Proofs

open Machine Safety

/-- An instruction that checks its fields first traps on them as O56 says. -/
theorem limit_traps {s : State} {l : List (BitVec 7)} {k : State → Res} {r : Res} (h : r = limit l k s) :
    (∀ n, beyond s.cur l n → (∀ m, beyond s.cur l m → n ≤ m) →
      r = .next (s.enterTrap s.ic s.is 5 (BitVec.ofNat 64 n) s.cur.pc 0)) ∧
    (s.cur.light = true → (∀ n, ¬ beyond s.cur l n) → ∀ p ∈ l, isPort p = true →
      (∀ q ∈ l, isPort q = true → p.toNat ≤ q.toNat) →
      r = .next (s.enterTrap s.ic s.is 6 (BitVec.ofNat 64 p.toNat) s.cur.pc 0)) :=
  ⟨fun _ hn hl => h.trans (limit_beyond k hn hl), fun hl hb _ hp hq hm => h.trans (limit_lightPort k hl hb hp hq hm)⟩

/-- Settles O56: every instruction of the four lists checks its fields before all else. -/
theorem registerLimits : Obligations.RegisterLimits := by
  unfold Obligations.RegisterLimits
  intro s b a d i h
  refine ⟨fun e he => ?_, fun e he => ?_, fun e he => ?_, fun e he => ?_⟩
  · obtain ⟨f, hf⟩ := exec_threeFields b a d s he
    exact limit_traps hf
  · obtain ⟨g, hg⟩ := exec_threeFloats b a d s he
    exact limit_traps hg
  · obtain ⟨f, hf⟩ := exec_twoFields a d s he
    exact limit_traps hf
  · obtain ⟨g, hg⟩ := exec_twoFloats a d s he
    exact limit_traps hg

/-- What O58 says of an integer instruction, from the state that it leaves. -/
theorem wrote_frame {s u : State} {i : Instr} {d : BitVec 7} {v : Word} {f : Bool} (h : exec i s = .next (wrote s d v f))
    (hu : exec i s = .next u) :
    (computes s u ∧ sameBytes s u ∧ (∀ n, n ≠ s.cur.rename d.toNat → u.cur.reg n = s.cur.reg n) ∧ u.cur.reg 0 = 0 ∧
      u.cur.pc = s.cur.pc + 4) ∧ u.cur.fflags = s.cur.fflags := by
  obtain rfl : wrote s d v f = u := by simpa [h] using hu
  refine ⟨?_, wrote_flags ..⟩
  rw [wrote_eq_wroteF]
  exact wroteF_frame ..

/-- What O58 says of a floating instruction, from the state that it leaves. -/
theorem wroteF_adds {s u : State} {i : Instr} {d : BitVec 7} {r : Word × Flags} {f : Bool} (h : exec i s = .next (wroteF s d r f))
    (hu : exec i s = .next u) :
    (computes s u ∧ sameBytes s u ∧ (∀ n, n ≠ s.cur.rename d.toNat → u.cur.reg n = s.cur.reg n) ∧ u.cur.reg 0 = 0 ∧
      u.cur.pc = s.cur.pc + 4) ∧
    (∀ n, s.cur.fflags.getLsbD n = true → u.cur.fflags.getLsbD n = true) ∧ (s.cur.light = true → u.cur.fflags = s.cur.fflags) := by
  obtain rfl : wroteF s d r f = u := by simpa [h] using hu
  refine ⟨wroteF_frame .., fun n hn => ?_, fun hl => ?_⟩
  · rw [wroteF_flags]
    split
    · exact hn
    · rw [BitVec.getLsbD_or, hn, Bool.true_or]
  · rw [wroteF_flags, if_pos hl]

/-- Settles O58: every instruction of the lists leaves `wrote` or `wroteF`, whose frames are known. -/
theorem registerFrame : Obligations.RegisterFrame := by
  unfold Obligations.RegisterFrame
  intro s u b a d i h
  refine ⟨fun e he => ?_, fun e he => ?_, fun e he => ?_, fun e he => ?_⟩
  · obtain ⟨f, hf⟩ := exec_threeFields b a d s he
    exact ⟨fun hn hu => (wrote_frame (hf.trans (binary_ok f hn)) hu).1, fun hn hu => (wrote_frame (hf.trans (binary_ok f hn)) hu).2⟩
  · obtain ⟨f, hf⟩ := exec_twoFields a d s he
    exact ⟨fun hn hu => (wrote_frame (hf.trans (unary_ok f hn)) hu).1, fun hn hu => (wrote_frame (hf.trans (unary_ok f hn)) hu).2⟩
  · obtain ⟨g, hg⟩ := exec_threeFloats b a d s he
    exact ⟨fun hn hu => (wroteF_adds (hg.trans (fbinary_ok g hn)) hu).1, fun hn hu => (wroteF_adds (hg.trans (fbinary_ok g hn)) hu).2⟩
  · obtain ⟨g, hg⟩ := exec_twoFloats a d s he
    exact ⟨fun hn hu => (wroteF_adds (hg.trans (funary_ok g hn)) hu).1, fun hn hu => (wroteF_adds (hg.trans (funary_ok g hn)) hu).2⟩

end Sys2Proof.Proofs
end

section
/-! Scalar loads and stores (spec/04 R96, R97) and their faults, in the order of spec/10 R229. -/

namespace Sys2Proof.Machine

open Safety

/-! The address and the loaded value. -/

theorem offsetOf_eq (x : Word) (i : BitVec 8) (size : Nat) : offsetOf x i size = x + BitVec.ofInt 64 (i.toInt * size) := by
  rw [offsetOf, BitVec.signExtend, BitVec.ofInt_mul, BitVec.ofInt_natCast]

theorem signed_eq_toInt (w n : Nat) (hw : 0 < w) : signed w n = (BitVec.ofNat w n).toInt := by
  obtain ⟨v, rfl⟩ : ∃ v, w = v + 1 := ⟨w - 1, by omega⟩
  have hp : 2 ^ (v + 1) = 2 * 2 ^ v := by rw [Nat.pow_succ, Nat.mul_comm]
  have hlt : n % 2 ^ (v + 1) < 2 ^ v ↔ 2 * (n % 2 ^ (v + 1)) < 2 ^ (v + 1) := by omega
  simp only [signed, BitVec.toInt, BitVec.toNat_ofNat, Nat.add_sub_cancel, hlt]
  push_cast
  rfl

theorem extend_eq_loaded {size : Nat} (sgn : Bool) (b : List Byte) (h : 0 < size) : extend size sgn b = loaded size sgn b := by
  simp only [extend, loaded, signed_eq_toInt _ _ (Nat.mul_pos (by decide : 0 < 8) h)]

/-! What the instructions come to. -/

/-- A load of the table is the load of its size at its address. -/
theorem exec_loads {e} (he : e ∈ loads) {s : State} {i : BitVec 8} {a d : BitVec 7} (h : named s.cur [a, d]) :
    exec (e.1 i a d) s = load e.2.1 e.2.2 d (address s a i e.2.1) (bypasses s a) s := by
  have hop : exec (e.1 i a d) s = loadOp e.2.1 e.2.2 i a d s := by
    revert he e
    simp only [loads, List.forall_mem_cons, List.not_mem_nil, false_implies, implies_true, and_true]
    and_intros <;> rfl
  rw [hop, loadOp, limit_ok _ h]
  simp only [offsetOf_eq]
  rfl

/-- A store of the table is the store of its size at its address. -/
theorem exec_stores {e} (he : e ∈ stores) {s : State} {i : BitVec 4} {b a : BitVec 7} {j : BitVec 4} (h : named s.cur [a, b]) :
    exec (e.1 i b a j) s = store e.2 b (address s a (i ++ j) e.2) (bypasses s a) s := by
  have hop : exec (e.1 i b a j) s = storeOp e.2 i b a j s := by
    revert he e
    simp only [stores, List.forall_mem_cons, List.not_mem_nil, false_implies, implies_true, and_true]
    and_intros <;> rfl
  rw [hop, storeOp, limit_ok _ h]
  simp only [offsetOf_eq]
  rfl

theorem loads_size : ∀ e ∈ loads, 0 < e.2.1 := by
  simp [loads]

end Sys2Proof.Machine

namespace Sys2Proof.Proofs

open Machine Safety

/-- Settles O20: a load that reaches its target is fixed-latency and granted, fixed-latency and refused, or neither. -/
theorem scalarLoads : Obligations.ScalarLoads := by
  unfold Obligations.ScalarLoads
  intro e he s i a d t hn hr red r
  have hd : isPort d = false := (hn d (by simp)).1
  rw [exec_loads he hn]
  refine ⟨fun h hf hg => load_forfeits hr h hf hg, fun h hf hg => ?_, fun h => ?_⟩
  · rw [load_fixed hr h hf hg]
    refine ⟨fun hp => ?_, fun n hp => loadNow_poison hd hp⟩
    rw [loadNow_ok hd hp, extend_eq_loaded _ _ (loads_size e he)]
    rfl
  · refine load_parks hr ?_
    rcases h with h | h
    · rw [show s.cur.redOverlap t.place e.2.1 = true from h]
      rfl
    · rw [h, Bool.and_false]

/-- Settles O21: a store that reaches its target is fixed-latency and granted, fixed-latency and refused, or neither. -/
theorem scalarStores : Obligations.ScalarStores := by
  unfold Obligations.ScalarStores
  intro e he s i b a j t hn hr red
  have hb : isPort b = false := (hn b (by simp)).1
  rw [exec_stores he hn]
  refine ⟨fun h hf hg => store_forfeits hr h hf hg, fun h hf hg => store_fixed hb hr h hf hg, fun h => store_parks hb hr ?_⟩
  rcases h with h | h
  · rw [show s.cur.redOverlap t.place e.2 = true from h]
    rfl
  · rw [h, Bool.and_false]

/-- The checks of an access, in the order of R229. -/
theorem access_faults (need : Need) (size : Nat) (va : VAddr) (k : Target → State → Res) (s : State) :
    (va.off.toNat % size ≠ 0 → access need size va k s = .next (s.enterTrap s.ic s.is 2 va.off s.cur.pc va.space)) ∧
    (va.off.toNat % size = 0 →
      (s.xlate s.ic s.is need va = .miss → access need size va k s = .next (parked s (.walk va need.kind) (.pageTableWalk s.ic s.is))) ∧
      (s.xlate s.ic s.is need va = .window → access need size va k s = .next (s.enterTrap s.ic s.is 7 va.off s.cur.pc va.space)) ∧
      (∀ code : Nat,
        (s.xlate s.ic s.is need va = .access ∧ code = 3) ∨
        (s.xlate s.ic s.is need va = .page ∧ code = (if s.lostSpace va.space = true then 3 else 4)) ∨
        (∃ t, s.xlate s.ic s.is need va = .ok t ∧ s.unreachable t = true ∧ s.cur.light = false ∧ code = 3) →
        access need size va k s = parkFault code need.kind va s)) := by
  refine ⟨fun h => access_misaligned k h, fun h => ⟨fun hx => ?_, fun hx => ?_, ?_⟩⟩
  · simp only [access, h, hx, bne_self_eq_false, Bool.false_eq_true, if_false]
    rfl
  · simp only [access, h, hx, bne_self_eq_false, Bool.false_eq_true, if_false]
    rfl
  · rintro code (⟨hx, rfl⟩ | ⟨hx, rfl⟩ | ⟨t, hx, hu, hl, rfl⟩)
    · simp only [access, h, hx, bne_self_eq_false, Bool.false_eq_true, if_false]
    · simp only [access, h, hx, bne_self_eq_false, Bool.false_eq_true, if_false]
    · simp only [access, h, hx, hu, hl, bne_self_eq_false, Bool.false_eq_true, if_false, Bool.not_false, Bool.and_self, if_true]

/-- Settles O22: loads and stores begin with the same checks of their access. -/
theorem accessFaults : Obligations.AccessFaults := by
  unfold Obligations.AccessFaults
  refine ⟨fun e he s i a d hn => ?_, fun e he s i b a j hn => ?_⟩
  · beta_reduce
    rw [exec_loads he hn]
    exact access_faults ..
  · beta_reduce
    rw [exec_stores he hn]
    exact access_faults ..

end Sys2Proof.Proofs
end

section
/-! Ports in the fields of a heavy thread (spec/01 R13, spec/04 R83): the mailbox (spec/13 R279), the link queue (spec/22 R415) and the
mesh neighbours (spec/08 R176, R177). -/

namespace Sys2Proof.Machine

open Safety

/-! Fields that name ports. -/

theorem isPort_of_mesh {p : BitVec 7} (h : 122 ≤ p.toNat) (h' : p.toNat ≤ 125) : isPort p = true := by
  simp [isPort]
  omega

/-- Fields of which each is a port or lies within the allocation name no number beyond it. -/
theorem within_of_ports {t : Thread} {l : List (BitVec 7)} (h : ∀ r ∈ l, isPort r = false → t.rename r.toNat < t.bound) (n : Nat) :
    ¬ beyond t l n := by
  rintro ⟨r, hr, hp, rfl, hb⟩
  exact Nat.not_lt.2 hb (h r hr hp)

/-- ADDI from a port to a register: the read, then the sum. -/
theorem exec_addi_port {s : State} {i : BitVec 8} {p d : BitVec 7} (hl : s.cur.light = false) (hp : isPort p = true)
    (hd : named s.cur [d]) :
    exec (.addi i p d) s = readSrc p (fun x u => .next (wrote u d (x.val + i.signExtend 64) x.fresh)) s := by
  obtain ⟨hdp, hdb⟩ := hd d (by simp)
  show unary (fun x => x + imm8 i) p d s = _
  rw [unary, limit_heavy _ hl (within_of_ports (by simp [hp, hdb]))]
  refine congrArg (fun k => readSrc p k s) (funext fun x => funext fun u => ?_)
  rw [writeDst_ok _ _ _ _ hdp]
  rfl

/-- LIU to a port: the write. -/
theorem exec_liu_port {s : State} {j : BitVec 18} {p : BitVec 7} (hl : s.cur.light = false) (hp : isPort p = true) :
    exec (.liu j p) s = writeDst p (immUpper j) false done s :=
  limit_heavy _ hl (within_of_ports (by simp [hp]))

theorem readSrc_mbx (k : Opnd → State → Res) (s : State) : readSrc 120 k s = readMbx k s := rfl

theorem readSrc_lnk (k : Opnd → State → Res) (s : State) : readSrc 121 k s = readLnk k s := rfl

theorem readSrc_mesh {p : BitVec 7} (k : Opnd → State → Res) (s : State) (h : 122 ≤ p.toNat) (h' : p.toNat ≤ 125) :
    readSrc p k s = readMesh p.toNat k s := by
  rw [readSrc, if_pos (isPort_of_mesh h h'), if_neg (by omega), if_neg (by omega)]

theorem writeDst_lnk (v : Word) (f : Bool) (k : State → Res) (s : State) : writeDst 121 v f k s = writeLnk v k s := rfl

theorem writeDst_mesh {p : BitVec 7} (v : Word) (f : Bool) (k : State → Res) (s : State) (h : 122 ≤ p.toNat) (h' : p.toNat ≤ 125) :
    writeDst p v f k s = writeMesh p.toNat v k s := by
  rw [writeDst, if_pos (isPort_of_mesh h h'), if_neg (by omega), if_neg (by omega)]

/-! Acquires and releases that no pin holds (spec/11 R245, R247, spec/14 R304). -/

theorem acquiring_ok {s : State} (k : State → Res) (h : s.dirtyPinned s.ic = false) : acquiring k s = k s :=
  if_neg (by rw [h]; exact Bool.false_ne_true)

theorem acquiring_held {s : State} (k : State → Res) (h : s.dirtyPinned s.ic = true) : acquiring k s = park (.room .pin) s := if_pos h

theorem released_ok {s : State} (k : State → Res) (hr : s.cur.reds = []) (h : s.dirtyPinned s.ic = false) :
    released k s = k (s.releaseCore s.ic) := by
  simp [released, h, hr]

/-! The mailbox. -/

theorem readMbx_empty {s : State} (k : Opnd → State → Res) (h : (s.core s.ic).oldest s.cur.inst s.is = none) :
    readMbx k s = park .mail s := by
  simp only [readMbx, h]

/-- The first read of a message acquires and gives its low half. -/
theorem readMbx_first {s : State} {m : Message} (k : Opnd → State → Res) (h : (s.core s.ic).oldest s.cur.inst s.is = some m)
    (hm : m.half = false) :
    readMbx k s = acquiring (fun s => k ⟨m.body.extractLsb' 0 64, false⟩
      ((s.updCore s.ic fun c => { c with mailbox := halfOldest s.cur.inst s.is c.mailbox }).acquireMsg s.ic m.body)) s := by
  simp only [readMbx, h, hm, Bool.false_eq_true, if_false]
  rfl

/-- The second read gives the high half and removes the message. -/
theorem readMbx_second {s : State} {m : Message} (k : Opnd → State → Res) (h : (s.core s.ic).oldest s.cur.inst s.is = some m)
    (hm : m.half = true) :
    readMbx k s = k ⟨m.body.extractLsb' 64 64, false⟩
      ((s.updCore s.ic fun c => { c with mailbox := dropOldest s.cur.inst s.is c.mailbox }).mailRoom s.ic) := by
  simp only [readMbx, h, hm, if_true]

/-! The link queue. -/

theorem readLnk_fails {s : State} (k : Opnd → State → Res) (h : s.is ≠ 63) : readLnk k s = trap 6 121 s := by
  simp [readLnk, h]

theorem readLnk_empty {s : State} (k : Opnd → State → Res) (h : s.is = 63) (hl : (s.core s.ic).lnk = []) :
    readLnk k s = park (.element 121) s := by
  simp [readLnk, h, hl]

theorem readLnk_pops {s : State} {x : LnkElem} {r : List LnkElem} (k : Opnd → State → Res) (h : s.is = 63)
    (hl : (s.core s.ic).lnk = x :: r) :
    readLnk k s = k ⟨x.value, false⟩ ((s.updCore s.ic fun c => { c with lnk := r }).wakeIf s.ic (isRoom .lnk)) := by
  simp [readLnk, h, hl]

theorem writeLnk_fails {s : State} (v : Word) (k : State → Res) (h : s.is = 63 ∨ v.getLsbD 63 = true) : writeLnk v k s = trap 6 121 s :=
  if_pos (by simpa using h)

theorem writeLnk_open {s : State} {v : Word} (k : State → Res) (h : s.is ≠ 63) (hv : v.getLsbD 63 = false) :
    writeLnk v k s = if 16 ≤ (s.core s.ic).lnk.length then park (.room .lnk) s
      else released (fun s =>
        k ((s.updCore s.ic fun c => { c with lnk := c.lnk ++ [⟨v, s.cur.inst⟩] }).wakeIf s.ic (isElement 121))) s :=
  if_neg (by rw [hv]; simpa using h)

/-! The mesh neighbours. -/

theorem readMesh_fails {s : State} {n : Nat} (k : Opnd → State → Res) (h : s.ownsPorts = false) :
    readMesh n k s = trap 6 (BitVec.ofNat 64 n) s := by
  simp [readMesh, h]

theorem readMesh_empty {s : State} {n : Nat} (k : Opnd → State → Res) (h : s.ownsPorts = true)
    (hl : tabGet [] (s.core s.ic).ports (n - 122) = []) : readMesh n k s = park (.element n) s := by
  simp [readMesh, h, hl]

theorem readMesh_pops {s : State} {n : Nat} {x : Element} {r : List Element} (k : Opnd → State → Res) (h : s.ownsPorts = true)
    (hl : tabGet [] (s.core s.ic).ports (n - 122) = x :: r) :
    readMesh n k s = acquiring (fun s =>
      let u := (s.updCore s.ic fun c => { c with ports := tabPut c.ports (n - 122) r }).applySig s.ic x.signature
      k ⟨x.value, false⟩ (u.sideMoved u.ic (portOf (n - 122)))) s := by
  simp [readMesh, h, hl]

theorem writeMesh_fails {s : State} {n : Nat} (v : Word) (k : State → Res)
    (h : s.ownsPorts = false ∨ neighbour s.ic (portOf (n - 122)) = none) : writeMesh n v k s = trap 6 (BitVec.ofNat 64 n) s := by
  rcases h with h | h
  · simp [writeMesh, h]
  · simp [writeMesh, h]

/-- A port whose send side is full, or the receive side that it faces. -/
theorem portFull_iff {s : State} {c d : Nat} {dir : Port} (h : neighbour c dir = some d) :
    s.portFull c dir = true ↔ 4 ≤ (tabGet [] (s.core c).sends (portNumber dir)).length ∨
      s.portRoom d ≤ (tabGet [] (s.core d).ports (portNumber (facing dir))).length := by
  simp only [State.portFull, h, Bool.or_eq_true, decide_eq_true_eq]
  rfl

theorem writeMesh_full {s : State} {n d : Nat} (v : Word) (k : State → Res) (h : s.ownsPorts = true)
    (hd : neighbour s.ic (portOf (n - 122)) = some d) (hf : s.portFull s.ic (portOf (n - 122)) = true) :
    writeMesh n v k s = park (.room (.port n)) s := by
  simp [writeMesh, h, hd, hf]

theorem writeMesh_sends {s : State} {n d : Nat} (v : Word) (k : State → Res) (h : s.ownsPorts = true)
    (hd : neighbour s.ic (portOf (n - 122)) = some d) (hf : s.portFull s.ic (portOf (n - 122)) = false) :
    writeMesh n v k s = released (fun s =>
      k ((s.updCore s.ic fun c => { c with
        sends := tabPut c.sends (portNumber (portOf (n - 122)))
          (tabGet [] c.sends (portNumber (portOf (n - 122))) ++ [⟨v, (s.core s.ic).carried⟩]) }).emitOnce
        (.portElementArrival d (facing (portOf (n - 122)))))) s := by
  simp [writeMesh, h, hd, hf]

end Sys2Proof.Machine

namespace Sys2Proof.Proofs

open Machine Safety

/-- Settles O57: ADDI and LIU come to the read and the write of their port, whose cases the laws above give. -/
theorem ports : Obligations.Ports := by
  unfold Obligations.Ports
  intro s i j d p hl k v fails reads
  refine ⟨?_, ?_, ?_, ?_, ?_, ?_⟩
  · rintro hd rfl
    simp only [reads, exec_addi_port (p := 120) hl rfl hd, readSrc_mbx]
    refine ⟨fun h => readMbx_empty _ h, fun m h => ⟨fun hm hp => ?_, fun hm hp => ?_, fun hm => readMbx_second _ h hm⟩⟩
    · rw [readMbx_first _ h hm, acquiring_held _ hp]
      rfl
    · rw [readMbx_first _ h hm, acquiring_ok _ hp]
  · rintro hd rfl
    simp only [fails, reads, exec_addi_port (p := 121) hl rfl hd, readSrc_lnk]
    exact ⟨fun h => readLnk_fails _ h, fun h he => readLnk_empty _ h he, fun x r h he => readLnk_pops _ h he⟩
  · intro hd h h'
    simp only [fails, reads, exec_addi_port hl (isPort_of_mesh h h') hd, readSrc_mesh _ _ h h']
    refine ⟨fun ho => readMesh_fails _ ho, fun ho he => readMesh_empty _ ho he, fun x r ho he => ⟨fun hp => ?_, fun hp => ?_⟩⟩
    · rw [readMesh_pops _ ho he, acquiring_held _ hp]
      rfl
    · rw [readMesh_pops _ ho he, acquiring_ok _ hp]
  · rintro rfl
    exact exec_liu_port hl rfl
  · rintro rfl
    simp only [fails, exec_liu_port (p := 121) hl rfl, writeDst_lnk]
    refine ⟨fun h => writeLnk_fails _ _ h, fun h hv => ⟨fun hf => ?_, fun hf hr hp => ?_⟩⟩
    · rw [writeLnk_open _ h hv, if_pos hf]
      rfl
    · rw [writeLnk_open _ h hv, if_neg (Nat.not_le.2 hf), released_ok _ hr hp]
      rfl
  · intro h h'
    simp only [fails, exec_liu_port hl (isPort_of_mesh h h'), writeDst_mesh _ _ _ _ h h']
    refine ⟨fun ho => writeMesh_fails _ _ ho, fun c ho hc => ⟨fun hf => ?_, fun hf hr hp => ?_⟩⟩
    · exact writeMesh_full _ _ ho hc ((portFull_iff hc).2 hf)
    · rw [writeMesh_sends _ _ ho hc (Bool.eq_false_iff.2 fun hn => hf ((portFull_iff hc).1 hn)), released_ok _ hr hp]
      rfl

end Sys2Proof.Proofs
end

section
/-! The frame of loads and stores (spec/01 R27, spec/04 R96, R97): which operations leave every memory alone, and which leave the
registers of every thread alone. -/

namespace Sys2Proof.Machine

open Safety

/-! Entries of tables. -/

theorem tabGet_mem {α : Type} (d : α) (t : Tab α) (k : Nat) : tabGet d t k = d ∨ (k, tabGet d t k) ∈ t := by
  induction t with
  | nil => exact .inl rfl
  | cons e r ih =>
    obtain ⟨j, v⟩ := e
    by_cases h : j = k
    · exact .inr (by simp [tabGet, h])
    · rw [tabGet, if_neg h]
      exact ih.imp id (List.mem_cons_of_mem _)

theorem mem_tabPut {α : Type} {t : Tab α} {k : Nat} {v : α} {e : Nat × α} (h : e ∈ tabPut t k v) : e = (k, v) ∨ e ∈ t := by
  induction t with
  | nil => exact .inl (List.mem_singleton.1 h)
  | cons x r ih =>
    obtain ⟨j, w⟩ := x
    unfold tabPut at h
    split at h
    · exact List.mem_cons.1 h
    · split at h
      · exact (List.mem_cons.1 h).imp id (List.mem_cons_of_mem _)
      · rcases List.mem_cons.1 h with h | h
        · exact .inr (h ▸ List.mem_cons_self)
        · exact (ih h).imp id (List.mem_cons_of_mem _)

/-- A property of the default and of every entry is one of every look-up. -/
theorem tabGet_forall {α : Type} {P : α → Prop} {d : α} {t : Tab α} (hd : P d) (h : ∀ e ∈ t, P e.2) (k : Nat) :
    P (tabGet d t k) := by
  rcases tabGet_mem d t k with hk | hk
  · rwa [hk]
  · exact h _ hk

/-- A property of every entry stays when an entry that has it is put. -/
theorem tabPut_forall {α : Type} {P : α → Prop} {t : Tab α} {v : α} (h : ∀ e ∈ t, P e.2) (hv : P v) (k : Nat) :
    ∀ e ∈ tabPut t k v, P e.2 := by
  intro e he
  rcases mem_tabPut he with rfl | he
  · exact hv
  · exact h e he

/-! What register fields mean and hold. -/

/-- The registers of a thread, what renames its fields, and the lines that it monitors. -/
def Thread.view (t : Thread) : Tab Word × List Monitor × Bool × Nat × BitVec 7 × BitVec 7 × BitVec 7 :=
  (t.regs, t.monitors, t.light, t.alloc, t.rrlo, t.rrsz, t.rrb)

theorem Thread.reg_of_view {t u : Thread} (h : u.view = t.view) (n : Nat) : u.reg n = t.reg n :=
  Thread.reg_congr (congrArg Prod.fst h) n

theorem Thread.monitors_of_view {t u : Thread} (h : u.view = t.view) : u.monitors = t.monitors :=
  congrArg (fun v => v.2.1) h

theorem Thread.rename_of_view {t u : Thread} (h : u.view = t.view) (n : Nat) : u.rename n = t.rename n := by
  simp only [Thread.view, Prod.mk.injEq] at h
  obtain ⟨-, -, hl, ha, hlo, hsz, hb⟩ := h
  unfold Thread.rename Thread.active
  rw [hl, ha, hlo, hsz, hb]

@[simp] theorem Thread.view_wake (t : Thread) (now : Nat) : (t.wake now).view = t.view := by
  unfold Thread.wake
  split <;> rfl

/-! No thread monitors a line. -/

/-- No thread of the core monitors a line. -/
def Core.unwatched (k : Core) : Prop := ∀ z ∈ k.slots, z.2.monitors = []

/-- No thread of the device monitors a line. -/
def State.unwatched (s : State) : Prop := ∀ e ∈ s.cores, e.2.unwatched

theorem State.unwatched_iff (s : State) :
    (s.cores.all fun k => k.2.slots.all fun z => z.2.monitors.isEmpty) = true ↔ s.unwatched := by
  simp [State.unwatched, Core.unwatched, List.all_eq_true, List.isEmpty_iff]

theorem Core.unwatched_default : ({} : Core).unwatched := fun _ hz => absurd hz List.not_mem_nil

theorem State.unwatched_core {s : State} (h : s.unwatched) (c : Nat) : (s.core c).unwatched := tabGet_forall Core.unwatched_default h c

/-! Two relations of states. -/

/-- The same thread issues, every thread's registers are the same and mean the same, and no monitor is armed. -/
structure SameRegs (s u : State) : Prop where
  ic : u.ic = s.ic
  is : u.is = s.is
  view : ∀ c sl, (u.thread c sl).view = (s.thread c sl).view
  unwatched : s.unwatched → u.unwatched

/-- Every memory is the same, and the banks of every core keep their canonical form. -/
structure SameMem (s u : State) : Prop where
  mem : u.mem = s.mem
  ext : u.ext = s.ext
  sram : ∀ c, (u.core c).sram = (s.core c).sram
  wf : (∀ e ∈ s.cores, Memory.wf e.2.sram = true) → ∀ e ∈ u.cores, Memory.wf e.2.sram = true

/-- A change that no register and no memory shows. -/
def Silent (s u : State) : Prop := SameRegs s u ∧ SameMem s u

theorem SameRegs.refl (s : State) : SameRegs s s := ⟨rfl, rfl, fun _ _ => rfl, id⟩

theorem SameMem.refl (s : State) : SameMem s s := ⟨rfl, rfl, fun _ => rfl, id⟩

theorem Silent.refl (s : State) : Silent s s := ⟨.refl s, .refl s⟩

theorem SameRegs.trans {s u v : State} (h : SameRegs s u) (k : SameRegs u v) : SameRegs s v :=
  ⟨k.ic.trans h.ic, k.is.trans h.is, fun c sl => (k.view c sl).trans (h.view c sl), fun hs => k.unwatched (h.unwatched hs)⟩

theorem SameMem.trans {s u v : State} (h : SameMem s u) (k : SameMem u v) : SameMem s v :=
  ⟨k.mem.trans h.mem, k.ext.trans h.ext, fun c => (k.sram c).trans (h.sram c), fun hs => k.wf (h.wf hs)⟩

theorem Silent.trans {s u v : State} (h : Silent s u) (k : Silent u v) : Silent s v := ⟨h.1.trans k.1, h.2.trans k.2⟩

theorem SameRegs.cur {s u : State} (h : SameRegs s u) : u.cur.view = s.cur.view := by
  rw [State.cur, h.ic, h.is]
  exact h.view ..

theorem SameRegs.reg {s u : State} (h : SameRegs s u) (n : Nat) : u.cur.reg n = s.cur.reg n := Thread.reg_of_view h.cur n

theorem SameMem.bytes {s u : State} (h : SameMem s u) : sameBytes s u :=
  ⟨fun _ => by rw [h.mem], fun _ => by rw [h.ext], fun c _ => by rw [h.sram c]⟩

/-! Along a list. -/

theorem SameRegs.foldl {α : Type} {f : State → α → State} {l : List α} (s : State)
    (h : ∀ u, SameRegs s u → ∀ a ∈ l, SameRegs u (f u a)) :
    SameRegs s (l.foldl f s) :=
  List.foldlRecOn (motive := SameRegs s) l f (.refl s) fun _ hu a ha => hu.trans (h _ hu a ha)

theorem SameMem.foldl {α : Type} {f : State → α → State} (l : List α) (s : State) (h : ∀ u a, SameMem u (f u a)) :
    SameMem s (l.foldl f s) :=
  List.foldlRecOn (motive := SameMem s) l f (.refl s) fun _ hu a _ => hu.trans (h _ a)

theorem Silent.foldl {α : Type} {f : State → α → State} (l : List α) (s : State) (h : ∀ u a, Silent u (f u a)) :
    Silent s (l.foldl f s) :=
  List.foldlRecOn (motive := Silent s) l f (.refl s) fun _ hu a _ => hu.trans (h _ a)

/-! What keeps them. -/

theorem SameRegs.of_cores {s u : State} (hc : u.cores = s.cores) (hi : u.ic = s.ic) (hs : u.is = s.is) : SameRegs s u :=
  ⟨hi, hs, fun c sl => by rw [State.thread, State.thread, State.core, State.core, hc], fun h => by rwa [State.unwatched, hc]⟩

theorem SameMem.of_cores {s u : State} (hc : u.cores = s.cores) (hm : u.mem = s.mem) (he : u.ext = s.ext) : SameMem s u :=
  ⟨hm, he, fun c => by rw [State.core, State.core, hc], fun h => by rwa [hc]⟩

/-- A change of a core that leaves its slots alone changes no register. -/
theorem SameRegs.updCore {s : State} {c : Nat} {f : Core → Core} (h : (f (s.core c)).slots = (s.core c).slots) :
    SameRegs s (s.updCore c f) := by
  refine ⟨rfl, rfl, fun d sl => ?_, fun hs => tabPut_forall hs ?_ c⟩
  · rw [State.thread, State.thread]
    by_cases hd : d = c
    · subst hd
      rw [State.core_updCore, h]
    · rw [State.core_updCore_other _ _ hd]
  · rw [Core.unwatched, h]
    exact State.unwatched_core hs c

/-- A change of a core that leaves its banks alone changes no memory. -/
theorem SameMem.updCore {s : State} {c : Nat} {f : Core → Core} (h : (f (s.core c)).sram = (s.core c).sram) : SameMem s (s.updCore c f) := by
  refine ⟨rfl, rfl, fun d => ?_, fun hs => tabPut_forall (P := fun k : Core => Memory.wf k.sram = true) hs ?_ c⟩
  · by_cases hd : d = c
    · subst hd
      rw [State.core_updCore, h]
    · rw [State.core_updCore_other _ _ hd]
  · rw [h]
    exact tabGet_forall (P := fun k : Core => Memory.wf k.sram = true) rfl hs c

theorem SameMem.putThread (s : State) (c sl : Nat) (t : Thread) : SameMem s (s.putThread c sl t) := .updCore rfl

/-- A change of a thread that leaves its view alone. -/
theorem Silent.putThread {s : State} {c sl : Nat} {t : Thread} (h : t.view = (s.thread c sl).view) : Silent s (s.putThread c sl t) := by
  refine ⟨⟨rfl, rfl, fun d e => ?_, fun hs => tabPut_forall hs ?_ c⟩, .putThread ..⟩
  · by_cases hd : d = c ∧ e = sl
    · rw [hd.1, hd.2, State.thread_putThread, h]
    · rw [State.thread_putThread_other _ _ hd]
  · have hm : ∀ z ∈ (s.core c).slots, z.2.monitors = [] := State.unwatched_core hs c
    refine tabPut_forall (P := fun t : Thread => t.monitors = []) hm ?_ sl
    rw [Thread.monitors_of_view h]
    exact tabGet_forall (P := fun t : Thread => t.monitors = []) rfl hm sl

theorem Silent.updCur {s : State} {f : Thread → Thread} (h : (f s.cur).view = s.cur.view) : Silent s (s.updCur f) := .putThread h

theorem Silent.updCore {s : State} {c : Nat} {f : Core → Core} (hs : (f (s.core c)).slots = (s.core c).slots)
    (hm : (f (s.core c)).sram = (s.core c).sram) : Silent s (s.updCore c f) := ⟨.updCore hs, .updCore hm⟩

theorem Silent.of_cores {s u : State} (hc : u.cores = s.cores) (hi : u.ic = s.ic) (hs : u.is = s.is) (hm : u.mem = s.mem)
    (he : u.ext = s.ext) : Silent s u := ⟨.of_cores hc hi hs, .of_cores hc hm he⟩

theorem Silent.emit (s : State) (i : Instr) : Silent s (s.emit i) := .of_cores rfl rfl rfl rfl rfl

theorem Silent.park (s : State) (w : Wait) : Silent s (s.park w) := .updCur rfl

theorem Silent.parked (s : State) (w : Wait) (i : Instr) : Silent s (parked s w i) := (Silent.park s w).trans (.emit _ i)

theorem Silent.forfeited (s : State) (banks : List Nat) : Silent s (forfeited s banks) := .updCur rfl

theorem Silent.advance (s : State) : Silent s s.advance := .updCur rfl

theorem Silent.completed (s : State) : Silent s (completed s) := by
  refine (Silent.updCur ?_).trans (.advance _)
  cases s.cur.issued <;> rfl

theorem Silent.enterTrap (s : State) (code : Nat) (val pc : Word) (space : BitVec 8) :
    Silent s (s.enterTrap s.ic s.is code val pc space) := by
  unfold State.enterTrap
  simp only
  split
  · exact (Silent.putThread (t := { (s.thread s.ic s.is).over with st := .frozen }) rfl).trans (.of_cores rfl rfl rfl rfl rfl)
  · exact .putThread rfl

/-! What a write wakes (spec/09 R209 to R211). -/

theorem touchCounter_silent (s : State) (c sl : Nat) (t : Thread) (p : Place) (n : Nat) : Silent s (s.touchCounter c sl t p n) := by
  unfold State.touchCounter
  split
  · split
    · exact .putThread (Thread.view_wake ..)
    · exact .refl s
  · exact .refl s

theorem touchCounters_silent (s : State) (p : Place) (n : Nat) : Silent s (s.touchCounters p n) :=
  .foldl _ s fun u _ => .foldl _ u fun v _ => touchCounter_silent v ..

theorem touchMonitors_sameMem (s : State) (a : Agent) (skip : Option Nat) (p : Place) (n : Nat) : SameMem s (s.touchMonitors a skip p n) := by
  refine .foldl _ s fun u e => ?_
  split
  · exact .refl u
  · refine .foldl _ u fun v x => ?_
    have hput : SameMem v (if x.2.monitors.isEmpty = true then v else v.putThread e.1 x.1 (x.2.touch e.2.cyc a p n).1) := by
      split
      · exact .refl v
      · exact .putThread ..
    simp only
    split
    · exact hput.trans (Silent.emit _ _).2
    · exact hput

/-- Where no thread monitors a line, no monitor meets a write. -/
theorem touchMonitors_unwatched {s : State} (a : Agent) (skip : Option Nat) (p : Place) (n : Nat) (h : s.unwatched) :
    s.touchMonitors a skip p n = s := by
  refine List.foldlRecOn (motive := fun u => u = s) s.cores _ rfl fun u hu e he => ?_
  have : (e.2.slots.all fun x => x.2.monitors.isEmpty) = true := by
    rw [List.all_eq_true]
    intro z hz
    rw [h e he z hz]
    rfl
  rw [this, Bool.or_true, if_pos rfl, hu]

theorem touch_sameMem (s : State) (a : Agent) (skip : Option Nat) (p : Place) (n : Nat) : SameMem s (s.touch a skip p n) :=
  (touchMonitors_sameMem s a skip p n).trans (touchCounters_silent _ p n).2

theorem touch_sameRegs {s : State} (a : Agent) (skip : Option Nat) (p : Place) (n : Nat) (h : s.unwatched) :
    SameRegs s (s.touch a skip p n) := by
  rw [State.touch, touchMonitors_unwatched _ _ _ _ h]
  exact (touchCounters_silent s p n).1

/-! Writing back (spec/11 R241). -/

theorem rindMarks_sameRegs (s : State) (l : List (Nat × Nat)) : SameRegs s (s.rindMarks l) := by
  refine .foldl s fun u _ e _ => .foldl u fun v _ b _ => ?_
  unfold State.rindMark State.putRindWord
  split
  · exact .of_cores rfl rfl rfl
  · exact .refl v

theorem writeHome_sameRegs {s : State} (a : Agent) (skip : Option Nat) (pa : Nat) (b : List Byte) (h : s.unwatched) :
    SameRegs s (s.writeHome a skip pa b) := by
  have hm : SameRegs s ((s.putHome pa b).rindMarks [(pa, b.length)]) := 
    (SameRegs.of_cores (s := s) (u := s.putHome pa b) rfl rfl rfl).trans (rindMarks_sameRegs ..)
  exact hm.trans (touch_sameRegs _ _ _ _ (hm.unwatched h))

theorem writeBackSector_sameRegs {s : State} (c : Nat) (l : CacheLine) (x : Nat) (h : s.unwatched) :
    SameRegs s (s.writeBackSector c l x) := by
  unfold State.writeBackSector
  split
  · have hk : SameRegs s (s.updCluster (homeSlice (128 * l.line)) fun k => k.sliceUse (128 * l.line) false true) := .of_cores rfl rfl rfl
    have hw := hk.trans (.foldl (f := fun s (r : Nat × List Byte) => s.writeHome (.core c) (some c) (128 * l.line + r.1) r.2)
      (l := l.runs 32 (32 * x)) _ fun u hu r _ => writeHome_sameRegs _ _ _ _ (hu.unwatched (hk.unwatched h)))
    simp only
    split
    · exact hw.trans (.of_cores rfl rfl rfl)
    · exact hw
  · exact .refl s

theorem writeBackLine_sameRegs {s : State} (c line : Nat) (h : s.unwatched) : SameRegs s (s.writeBackLine c line) := by
  unfold State.writeBackLine
  split
  · exact .refl s
  · next l _ =>
    split
    · exact .refl s
    · exact (SameRegs.foldl s fun u hu x _ => writeBackSector_sameRegs c l x (hu.unwatched h)).trans (.updCore rfl)

theorem settleFor_sameRegs {s : State} (c id pa n : Nat) (w : Bool) (h : s.unwatched) : SameRegs s (s.settleFor c id pa n w) :=
  .foldl s fun _ hu l _ => writeBackLine_sameRegs c l.line (hu.unwatched h)

/-- Where every dirty line of the cache is the reader's own, nothing goes home before a read (log 60). -/
theorem settleFor_own {s : State} {c id : Nat} (pa n : Nat) (h : ∀ l ∈ (s.core c).cache, l.dirty = 0 ∨ l.writer = id) :
    s.settleFor c id pa n false = s := by
  have hf : ((s.core c).cache.filter fun l => l.foreign pa n id || (false && l.dirty != 0 && l.writer != id && l.line = pa / 128)) = [] := by
    rw [List.filter_eq_nil_iff]
    intro l hl
    rcases h l hl with hd | hw
    · simp [CacheLine.foreign, hd]
    · simp [CacheLine.foreign, hw]
  rw [State.settleFor, hf, List.foldl_nil]

/-! Reading (spec/10 R219, R241). -/

theorem refresh_silent (s : State) (c seen pa n : Nat) : Silent s (s.refresh c seen pa n) := by
  unfold State.refresh
  simp only
  split
  · exact .refl s
  · refine Silent.trans (u := { s with serial := s.serial + 1 }) (.of_cores rfl rfl rfl rfl rfl) (.foldl _ _ fun u l => .updCore rfl rfl)

theorem sliceUse_silent (s : State) (t : Target) (n : Nat) (w : Bool) : Silent s (s.sliceUse t n w) := by
  unfold State.sliceUse
  split
  · split
    · exact .refl s
    · exact .foldl _ s fun u x => .of_cores rfl rfl rfl rfl rfl
  all_goals exact .refl s

theorem readPlace_silent (s : State) (p : Place) (n : Nat) : Silent s (s.readPlace p n).2.2 := by
  cases p with
  | window c a =>
    simp only [State.readPlace]
    split
    · exact .refl s
    · exact .of_cores rfl rfl rfl rfl rfl
  | home pa => exact .refl s
  | mx f v e => exact .refl s
  | remote sp pa => exact .refl s

theorem readTarget_silent (s : State) (t : Target) (n : Nat) : Silent s (s.readTarget t n).2.2 :=
  (sliceUse_silent s t n false).trans (readPlace_silent _ _ _)

theorem readFor_window {s : State} {t : Target} {c x : Nat} (n : Nat) (bypass : Bool) (h : t.place = .window c x) :
    Silent s (s.readFor s.ic s.is bypass t n).2.2 := by
  have hc : s.cachePa s.ic s.is bypass t = none := by simp [State.cachePa, h]
  have hp : s.passBy s.ic s.is t n = s := by simp [State.passBy, h]
  rw [State.readFor, hc, hp]
  exact readTarget_silent s t n

/-- The state in which a hit is read: the line is used, what another thread has written goes home, and stale sectors are refreshed. -/
def State.hitState (s : State) (pa n : Nat) : State :=
  ((s.updCore s.ic fun k => k.useLine (pa / 128)).settleFor s.ic s.cur.id pa n false).refresh s.ic s.cur.seen pa n

/-- A read that hits leaves its hit state, but for what the reader has seen and the slice has used. -/
theorem readFor_hit {s : State} {t : Target} {pa n : Nat} {bypass : Bool} (hc : s.cachePa s.ic s.is bypass t = some pa)
    (hh : (s.core s.ic).hit pa n = true) : Silent (s.hitState pa n) (s.readFor s.ic s.is bypass t n).2.2 := by
  simp only [State.readFor, hc, hh, if_true]
  rw [show s.thread s.ic s.is = s.cur from rfl, ← State.hitState]
  split
  · exact .putThread rfl
  · exact readTarget_silent ..

theorem hitState_sameRegs {s : State} (pa n : Nat) (h : s.unwatched) : SameRegs s (s.hitState pa n) := by
  have hk : SameRegs s (s.updCore s.ic fun k => k.useLine (pa / 128)) := .updCore rfl
  exact (hk.trans (settleFor_sameRegs _ _ _ _ _ (hk.unwatched h))).trans (refresh_silent ..).1

theorem hitState_own {s : State} (pa n : Nat) (h : ∀ l ∈ (s.core s.ic).cache, l.dirty = 0 ∨ l.writer = s.cur.id) :
    Silent s (s.hitState pa n) := by
  rw [State.hitState, settleFor_own pa n]
  · exact (Silent.updCore rfl rfl).trans (refresh_silent ..)
  · intro l hl
    rw [State.core_updCore, Core.useLine] at hl
    obtain ⟨m, hm, rfl⟩ := List.mem_map.1 hl
    split <;> exact h m hm

/-- A fixed-latency access is to a window, or hits. -/
theorem fixed_cases {s : State} {bypass w : Bool} {t : Target} {n : Nat} (h : s.fixed bypass w t n = true) :
    (∃ c x, t.place = .window c x) ∨
    ∃ pa, t.place = .home pa ∧ s.cachePa s.ic s.is bypass t = some pa ∧ (s.core s.ic).hit pa n = true := by
  cases hp : t.place with
  | window c x => exact .inl ⟨c, x, rfl⟩
  | home pa =>
    simp only [State.fixed, hp] at h
    cases hc : s.cachePa s.ic s.is bypass t with
    | none => simp [hc] at h
    | some qa =>
      simp only [hc, Bool.and_eq_true] at h
      have hq : pa = qa := by
        simp only [State.cachePa, hp] at hc
        split at hc
        · exact Option.some.inj hc
        · cases hc
      subst hq
      exact .inr ⟨pa, rfl, rfl, h.1⟩
  | mx f v e => simp [State.fixed, hp] at h
  | remote sp pa => simp [State.fixed, hp] at h

/-- Every dirty line that a load may meet in its core's cache is the reader's own, or the load meets none. -/
def ownLines (s : State) (t : Target) : Prop :=
  (∀ pa, t.place ≠ .home pa) ∨ ∀ l ∈ (s.core s.ic).cache, l.dirty = 0 ∨ l.writer = s.cur.id

theorem readFor_own {s : State} {bypass : Bool} {t : Target} {n : Nat} (hf : s.fixed bypass false t n = true) (h : ownLines s t) :
    Silent s (s.readFor s.ic s.is bypass t n).2.2 := by
  rcases fixed_cases hf with ⟨c, x, hp⟩ | ⟨pa, hp, hc, hh⟩
  · exact readFor_window n bypass hp
  · exact (hitState_own pa n (h.resolve_left fun hn => hn pa hp)).trans (readFor_hit hc hh)

theorem readFor_unwatched {s : State} {bypass : Bool} {t : Target} {n : Nat} (hf : s.fixed bypass false t n = true) (h : s.unwatched) :
    SameRegs s (s.readFor s.ic s.is bypass t n).2.2 := by
  rcases fixed_cases hf with ⟨c, x, hp⟩ | ⟨pa, hp, hc, hh⟩
  · exact (readFor_window n bypass hp).1
  · exact (hitState_sameRegs pa n h).trans (readFor_hit hc hh).1

/-! Writing to a window (spec/10 R217). -/

theorem length_leBytes (v n : Nat) : (leBytes v n).length = n := by
  induction n generalizing v with
  | zero => rfl
  | succ n ih => rw [leBytes, List.length_cons, ih]

theorem memGet_memWrite (m : Memory) (x : Nat) (b : List Byte) (y : Nat) :
    memGet (memWrite m x b) y = if x ≤ y ∧ y < x + b.length then b.getD (y - x) 0 else memGet m y := by
  induction b generalizing m x with
  | nil =>
    rw [memWrite, if_neg]
    simp
  | cons a r ih =>
    rw [memWrite, ih, List.length_cons]
    by_cases hy : y = x
    · subst hy
      rw [if_neg (by omega), if_pos (by omega), memGet_memSet_self, Nat.sub_self, List.getD_cons_zero]
    · rw [memGet_memSet_other _ _ hy]
      by_cases hr : x + 1 ≤ y ∧ y < x + 1 + r.length
      · rw [if_pos hr, if_pos (by omega), show y - x = y - (x + 1) + 1 by omega, List.getD_cons_succ]
      · rw [if_neg hr, if_neg (by omega)]

theorem writeFor_window {s : State} {t : Target} {c x : Nat} (bypass : Bool) (b : List Byte) (h : t.place = .window c x) :
    s.writeFor s.ic s.is bypass t b = (s.updCore c fun k => k.writeBank x b).touch (.core s.ic) none (.window c x) b.length := by
  have hc : s.cachePa s.ic s.is bypass t = none := by simp [State.cachePa, h]
  simp [State.writeFor, hc, State.passBy, State.noteWrite, State.writeTarget, State.takeBack, State.sliceUse, State.writePlace, h]

/-- A bank write changes the bytes that it writes and no other of any core. -/
theorem sram_writeBank (s : State) (c x : Nat) (b : List Byte) (k y : Nat) :
    memGet ((s.updCore c fun k => k.writeBank x b).core k).sram y =
      if k = c ∧ x ≤ y ∧ y < x + b.length then b.getD (y - x) 0 else memGet (s.core k).sram y := by
  by_cases hk : k = c
  · subst hk
    rw [State.core_updCore, Core.writeBank]
    simp only [memGet_memWrite, true_and]
  · rw [State.core_updCore_other _ _ hk, if_neg fun h => hk h.1]

theorem memoriesWf_iff (s : State) :
    memoriesWf s = true ↔ Memory.wf s.mem = true ∧ Memory.wf s.ext = true ∧ ∀ e ∈ s.cores, Memory.wf e.2.sram = true := by
  simp [memoriesWf, and_assoc]

theorem SameMem.memoriesWf {s u : State} (h : SameMem s u) (hw : memoriesWf s = true) : memoriesWf u = true := by
  obtain ⟨hm, he, hc⟩ := (memoriesWf_iff s).1 hw
  exact (memoriesWf_iff u).2 ⟨by rwa [h.mem], by rwa [h.ext], h.wf hc⟩

theorem writeBank_memoriesWf {s : State} (c x : Nat) (b : List Byte) (h : memoriesWf s = true) :
    memoriesWf (s.updCore c fun k => k.writeBank x b) = true := by
  obtain ⟨hm, he, hc⟩ := (memoriesWf_iff s).1 h
  have hk : Memory.wf (s.core c).sram = true := tabGet_forall (P := fun k : Core => Memory.wf k.sram = true) rfl hc c
  exact (memoriesWf_iff _).2 ⟨hm, he, tabPut_forall (P := fun k : Core => Memory.wf k.sram = true) hc (memWrite_wf _ _ hk) c⟩

/-! What a window store, and a load, leave. -/

section Store
variable {s : State} {t : Target} {c x : Nat} (bypass : Bool) (b : List Byte) (h : t.place = .window c x)
include h

/-- After the bank is written, a completed window store changes no memory. -/
theorem windowStore_sameMem :
    SameMem (s.updCore c fun k => k.writeBank x b) (completed (s.writeFor s.ic s.is bypass t b)) := by
  rw [writeFor_window bypass b h]
  exact (touch_sameMem ..).trans (Silent.completed _).2

theorem windowStore_sram (k y : Nat) :
    memGet ((completed (s.writeFor s.ic s.is bypass t b)).core k).sram y =
      if k = c ∧ x ≤ y ∧ y < x + b.length then b.getD (y - x) 0 else memGet (s.core k).sram y := by
  rw [(windowStore_sameMem bypass b h).sram k, sram_writeBank]

theorem windowStore_wf (hw : memoriesWf s = true) : memoriesWf (completed (s.writeFor s.ic s.is bypass t b)) = true :=
  (windowStore_sameMem bypass b h).memoriesWf (writeBank_memoriesWf c x b hw)

theorem windowStore_sameRegs (hu : s.unwatched) : SameRegs s (completed (s.writeFor s.ic s.is bypass t b)) := by
  have hk : SameRegs s (s.updCore c fun k => k.writeBank x b) := .updCore rfl
  rw [writeFor_window bypass b h]
  exact (hk.trans (touch_sameRegs _ _ _ _ (hk.unwatched hu))).trans (Silent.completed _).1

end Store

/-- A load that completes changes no memory after its read. -/
theorem loaded_sameMem (s : State) (d : BitVec 7) (v : Word) : SameMem s (completed (s.setRd d v false)) :=
  (SameMem.putThread ..).trans (Silent.completed _).2

/-- A load that completes changes no register of its thread but rd after its read. -/
theorem loaded_reg (s : State) (d : BitVec 7) (v : Word) {n : Nat} (h : n ≠ s.cur.rename d.toNat) :
    (completed (s.setRd d v false)).cur.reg n = s.cur.reg n := by
  rw [(Silent.completed _).1.reg, State.cur_setRd, Thread.reg_setReg_other _ _ _ h]

end Sys2Proof.Machine

namespace Sys2Proof.Proofs

open Machine Safety

/-- The states that a load may leave: one that differs in no memory and no register, or one in which it has read and written rd. -/
theorem load_outcomes {e} (he : e ∈ loads) {s u : State} {i : BitVec 8} {a d : BitVec 7} {t : Target} (hn : named s.cur [a, d])
    (hr : reaches s { r := true } e.2.1 (address s a i e.2.1) t) (hx : exec (e.1 i a d) s = .next u) :
    Silent s u ∨ (s.fixed (bypasses s a) false t e.2.1 = true ∧
      ∃ v, u = completed ((s.readFor s.ic s.is (bypasses s a) t e.2.1).2.2.setRd d v false)) := by
  obtain ⟨hforfeit, hnow, hpark⟩ := scalarLoads e he s i a d t hn hr
  by_cases hp : s.cur.redOverlap t.place e.2.1 = true ∨ s.fixed (bypasses s a) false t e.2.1 = false
  · obtain rfl := Host.Outcome.next.inj ((hpark hp).symm.trans hx)
    exact .inl (.parked ..)
  · obtain ⟨hred, hf⟩ : s.cur.redOverlap t.place e.2.1 = false ∧ s.fixed (bypasses s a) false t e.2.1 = true := by simpa using hp
    cases hg : banksGrant s (s.bankOf t) with
    | false =>
      obtain rfl := Host.Outcome.next.inj ((hforfeit hred hf hg).symm.trans hx)
      exact .inl (.forfeited ..)
    | true =>
      obtain ⟨hgood, hbad⟩ := hnow hred hf hg
      cases hq : (s.readFor s.ic s.is (bypasses s a) t e.2.1).2.1 with
      | none =>
        obtain rfl := Host.Outcome.next.inj ((hgood hq).symm.trans hx)
        exact .inr ⟨hf, _, rfl⟩
      | some n =>
        obtain rfl := Host.Outcome.next.inj ((hbad n hq).symm.trans hx)
        exact .inl (.enterTrap ..)

/-- A store that parks or forfeits changes no memory and no register. -/
theorem store_waits {e} (he : e ∈ stores) {s u : State} {i : BitVec 4} {b a : BitVec 7} {j : BitVec 4} {t : Target}
    (hn : named s.cur [a, b]) (hr : reaches s { w := true } e.2 (address s a (i ++ j) e.2) t) (hx : exec (e.1 i b a j) s = .next u)
    (h : s.cur.redOverlap t.place e.2 = true ∨ s.fixed (bypasses s a) true t e.2 = false ∨ banksGrant s (s.bankOf t) = false) :
    Silent s u := by
  obtain ⟨hforfeit, -, hpark⟩ := scalarStores e he s i b a j t hn hr
  by_cases hp : s.cur.redOverlap t.place e.2 = true ∨ s.fixed (bypasses s a) true t e.2 = false
  · obtain rfl := Host.Outcome.next.inj ((hpark hp).symm.trans hx)
    exact .parked ..
  · obtain ⟨hred, hf⟩ : s.cur.redOverlap t.place e.2 = false ∧ s.fixed (bypasses s a) true t e.2 = true := by simpa using hp
    have hg : banksGrant s (s.bankOf t) = false := by simpa [hred, hf] using h
    obtain rfl := Host.Outcome.next.inj ((hforfeit hred hf hg).symm.trans hx)
    exact .forfeited ..

/-- Settles O59: a window store is a bank write and what it wakes, and a load that completes is a read and a write of rd. -/
theorem memoryFrame : Obligations.MemoryFrame := by
  unfold Obligations.MemoryFrame
  constructor
  · intro e he s u i b a j t hn hr hx red
    refine ⟨fun c x hp hred hg => ?_, fun h => ?_⟩
    · have hf : s.fixed (bypasses s a) true t e.2 = true := by simp [State.fixed, hp]
      obtain ⟨-, hnow, -⟩ := scalarStores e he s i b a j t hn hr
      obtain rfl := Host.Outcome.next.inj ((hnow hred hf hg).symm.trans hx)
      have hm := windowStore_sameMem (s := s) (bypasses s a) (leBytes (X s b).toNat e.2) hp
      refine ⟨fun k y => ?_, fun y => by rw [hm.mem]; rfl, fun y => by rw [hm.ext]; rfl, fun hu k sl n => ?_, windowStore_wf _ _ hp⟩
      · rw [windowStore_sram _ _ hp, length_leBytes]
      · exact Thread.reg_of_view ((windowStore_sameRegs _ _ hp ((State.unwatched_iff s).1 hu)).view k sl) n
    · have hs := store_waits he hn hr hx h
      exact ⟨hs.2.bytes, fun k sl n => Thread.reg_of_view (hs.1.view k sl) n⟩
  · intro e he s u i a d t hn hr hx settled unwatched
    rcases load_outcomes he hn hr hx with hs | ⟨hf, v, rfl⟩
    · exact ⟨fun _ => hs.2.bytes, rfl, fun _ n _ => hs.1.reg n⟩
    · refine ⟨fun ho => ((readFor_own hf ho).2.trans (loaded_sameMem ..)).bytes, rfl, fun h n hd => ?_⟩
      have hread : SameRegs s (s.readFor s.ic s.is (bypasses s a) t e.2.1).2.2 := by
        rcases h with ho | hu
        · exact (readFor_own hf ho).1
        · exact readFor_unwatched hf ((State.unwatched_iff s).1 hu)
      rw [loaded_reg, hread.reg]
      rwa [Thread.rename_of_view hread.cur]

end Sys2Proof.Proofs
end

section
/-! The decoder and the encoder undo each other (spec/02 R31 to R46). -/

namespace Sys2Proof.Laws.RoundTrip

/-- The round trip of every instruction, constructor by constructor; the words stand by major opcode (spec/02 R38). -/
theorem decode_encode (i : Instr) : Statement i :=
  Instr.casesOn (motive := Statement) i
    -- steps without a word
    wheelBoundary accessReply pageTableWalk faultRetry faultDeliver refreshDue postponedRefresh sweep sweepCoreStep sweepClear
    migrationPacketArrival migrationRetry proxy proxyReply remoteUpdate clusterSchedulerPass packetPromotion stealRequest
    stealRoundWait pendingLaunchMove dependencyDecrement taskRetirement mailboxDelivery portElementArrival monitorNotice
    monWaitTimeout copyBeat copyCompletion indexStep matrixJobStart tileFetch kGroup tileWriteBack jobEnd engineClockGate
    engineWakeGrant engineWakeReady engineYield rindNormJob pressFormation pressRound preemptionRequest haltComplete resume
    eviction restore kernelKillRequest killComplete frozenThreadRestart coreDrain clusterRestore swapDue swapPrepare
    swapExchange swapResume holdExpiry swapDeferralLimit securityAlarm alarmpolWrite powerGood clusterResetRelease bootStage
    measurementExtend sqtailWrite faccept0Write bar2Read bar2Write attestationRequest hubRegisterWrite thermalThrottle
    throttleRelease flitError mcstStamping mcstApplication multicastSkip combinePacketArrival slotFreeNotice
    resultPacketArrival scalarStepCompletion holdNotice resumeNotice linkFailure treeReform illegalInstruction
    instructionFetchFault haltedThreadResume faccept1Write provisioning
    -- LOAD
    lb lh lw ld lbu lhu lwu
    -- STORE
    sb sh sw sd
    -- VMEM
    vld vst vlds vsts vldb
    -- TENSOR
    mxSubmit mxRun jobPoll jobWait jobCancel mxNorm mxXchg cpGo cpWp vatInit vatCvt seedSet seedGet seedGetG fmtLd ixGo
    ixResume
    -- ORD
    ldaD ldaW stlD stlW fence cflush cinv pref sigrd
    -- OP-IMM
    addi slti sltiu xori ori andi slli srli srai rori
    -- ADDPC, ADDL, LIU
    addpc addl liu
    -- PRED
    peq pne plt pge pltu pgeu pand por pxor pnot mvp mvnp prd pwr
    -- MESSAGE
    epush epop grpPut grpGet mcst lnkSend lnkRecv seqRd mbSend mbPeek mbCount
    -- AMO
    amoAdd amoAnd amoOr amoXor amoMin amoMax amoMinu amoMaxu amoSwap amoCas amoFadd redAdd redMin redMax redFadd redVat
    -- OP
    add sub and or xor andn sll srl sra ror slt sltu min max minu maxu
    -- MUL
    mul mulh mulhu mulhsu div divu rem remu
    -- BIT
    clz ctz cpop sextb sexth sextw zextw bswap bfx bfxu bfi
    -- FLT.S
    faddS fsubS fmulS fdivS fminS fmaxS fsqrtS fcvtSI fcvtSN fcvtIS fcvtNS fcvtWS fcvtNwS fcvtSD fcvtSB fcvtBS fclassS feqS
    fltS fleS ffmaS ffmsS fsgnjS
    -- FLT.D
    faddD fsubD fmulD fdivD fminD fmaxD fsqrtD fcvtDI fcvtDN fcvtID fcvtND fcvtWD fcvtNwD fcvtDS fcvtDB fcvtBD fclassD feqD
    fltD fleD ffmaD ffmsD fsgnjD
    -- VOP
    vadd vsub vmul vfma vfms vmin vmax vand vor vxor vshl vshr vcmp vsel vred vabs vneg vrcp vrsq vexp2 vlog2 vbcast vsqn
    -- VCVT
    vcvt vdec venc vunpk3 vaddsub vdot vperm vslide vmxs
    -- SYNC
    barInit barArrive barWait barDrop monArm monWait monClr waitc waitm putf takef cmnRd cmnWr
    -- BRANCH
    beq bne blt bge bltu bgeu bp bnp brb
    -- JALR, JAL
    jalr jal
    -- SYSTEM
    trap eret crr crw crs crc feat featO castleHold castleFree halt brk kill preempt tlbInv idle
    -- THREAD
    spawn spawnl exit yield migrate tqEnq tqDeq depSet depDec launch launchW iterInit iterNext dqPush dqPop dqSplit dqSteal

end Sys2Proof.Laws.RoundTrip

namespace Sys2Proof

/-- A word of a well-formed instruction decodes to it. -/
theorem decode_word {i : Instr} {w : InstrWord} (he : encode i = w) (h : WellFormed i) : decode w = .ok i :=
  he ▸ Laws.RoundTrip.decode_encode i h

/-- The decoder answers only what the tables read, after it has encoded it again (R40) and checked its fields. -/
theorem decode_ok {w : InstrWord} {i : Instr} (h : decode w = .ok i) : encode i = w ∧ WellFormed i := by
  unfold decode at h
  split at h
  · cases h
  · split_ifs at h with he hw
    obtain rfl := Except.ok.inj h
    exact ⟨he, hw⟩

end Sys2Proof

namespace Sys2Proof.Proofs

/-- Settles O2: the round trip of each constructor. -/
theorem encodeThenDecode : Obligations.EncodeThenDecode := by
  unfold Obligations.EncodeThenDecode
  exact Laws.RoundTrip.decode_encode

/-- Settles O3: the decoder's own last two checks. -/
theorem decodeThenEncode : Obligations.DecodeThenEncode := by
  unfold Obligations.DecodeThenEncode
  intro w i
  exact decode_ok

/-- Settles O1: each of the words is the encoder's word of its instruction. -/
theorem decodedWords : Obligations.DecodedWords := by
  unfold Obligations.DecodedWords
  refine ⟨?_, ?_, ?_, ?_, ?_, ?_, ?_, ?_, ?_⟩ <;> exact decode_word rfl rfl

end Sys2Proof.Proofs
end

section
/-! Traps and the return from them (spec/18 R365, R368, R369, spec/19 R389, R392 to R394). -/

namespace Sys2Proof.Machine

/-! What taking a trap does (spec/18 R368, R369). -/

/-- A heavy thread outside a handler enters its handler. -/
theorem State.enterTrap_enters {s : State} {c sl : Nat} (code : Nat) (val pc : Word) (space : BitVec 8)
    (hl : (s.thread c sl).light = false) (hh : (s.thread c sl).inh = false) :
    s.enterTrap c sl code val pc space = s.putThread c sl ((s.thread c sl).enterHandler code val pc space) := by
  simp [State.enterTrap, hl, hh]

/-- A light thread, and a thread inside its handler, freezes. -/
theorem State.enterTrap_freezes {s : State} {c sl : Nat} (code : Nat) (val pc : Word) (space : BitVec 8)
    (h : (s.thread c sl).light = true ∨ (s.thread c sl).inh = true) :
    s.enterTrap c sl code val pc space =
      (s.putThread c sl { (s.thread c sl).over with st := .frozen }).record (.freeze (s.thread c sl).inst c sl (BitVec.ofNat 5 code)
        val pc (s.thread c sl).tcause (s.thread c sl).tval (s.thread c sl).tepc) := by
  simp [State.enterTrap, h]

/-- A trap changes the trapping thread and the kernel's records, and nothing else. -/
theorem State.enterTrap_frame (s : State) (c sl code : Nat) (val pc : Word) (space : BitVec 8) :
    (s.enterTrap c sl code val pc space).mem = s.mem ∧
    ∀ d e, ¬(d = c ∧ e = sl) → (s.enterTrap c sl code val pc space).thread d e = s.thread d e := by
  by_cases h : (s.thread c sl).light = true ∨ (s.thread c sl).inh = true
  · rw [State.enterTrap_freezes code val pc space h]
    exact ⟨rfl, fun _ _ => State.thread_putThread_other s _⟩
  · obtain ⟨hl, hh⟩ : (s.thread c sl).light = false ∧ (s.thread c sl).inh = false := by simpa using h
    rw [State.enterTrap_enters code val pc space hl hh]
    exact ⟨rfl, fun _ _ => State.thread_putThread_other s _⟩

/-! The gate of a kernel instruction (spec/19 R389). -/

section
variable {s : State} (w : InstrWord) (k : State → Res)

theorem kernelOnly_light (h : s.cur.light = true) : kernelOnly w k s = trap 0 (w.setWidth 64) s := if_pos h

theorem kernelOnly_user (hl : s.cur.light = false) (hm : s.cur.mode = .user) : kernelOnly w k s = trap 1 (w.setWidth 64) s := by
  simp [kernelOnly, heavyOnly, hl, Thread.supervisor, hm, privilege]

theorem kernelOnly_supervisor (hl : s.cur.light = false) (hm : s.cur.mode = .supervisor) : kernelOnly w k s = k s := by
  simp [kernelOnly, heavyOnly, hl, Thread.supervisor, hm]

end

/-! Each instruction. -/

theorem exec_trap {s : State} {a : BitVec 7} (h : Safety.named s.cur [a]) : exec (.trap a) s = trap 14 (Safety.X s a) s :=
  limit_ok _ h

/-- A fetch fault that the kernel answers waits for it, and the wait is none of the instruction's (spec/01 R23). -/
theorem exec_fetchFault_parks {n : BitVec 5} (s : State) (h : n = 3 ∨ n = 4) :
    exec (.instructionFetchFault n) s = fetchWait (parkFault n.toNat .fetch ⟨0, s.cur.pc⟩ s) := if_pos (by simpa using h)

theorem exec_eret (s : State) : exec .eret s = kernelOnly wordEret
    (fun s => if s.cur.tepc.toNat % 4 != 0 then trap 2 s.cur.tepc s else .next s.returnTrap) s := rfl

theorem exec_eret_misaligned {s : State} (hl : s.cur.light = false) (hm : s.cur.mode = .supervisor) (hp : s.cur.tepc.toNat % 4 ≠ 0) :
    exec .eret s = trap 2 s.cur.tepc s := by
  rw [exec_eret, kernelOnly_supervisor _ _ hl hm, if_pos (bne_iff_ne.2 hp)]

theorem exec_eret_returns {s : State} (hl : s.cur.light = false) (hm : s.cur.mode = .supervisor) (hp : s.cur.tepc.toNat % 4 = 0) :
    exec .eret s = .next s.returnTrap := by
  rw [exec_eret, kernelOnly_supervisor _ _ hl hm, if_neg (by simp [hp])]

theorem exec_halt (s : State) : exec .halt s = kernelOnly wordHalt (fun s => .next ((s.updCur fun t => { t.over with
    st := .stopped, pc := t.pc + 4 }).record (.halt s.cur.inst s.ic s.is s.cur.pc))) s := rfl

end Sys2Proof.Machine

namespace Sys2Proof.Proofs

open Machine Safety

/-- Settles O42: every trap is one entry of the handler or one freeze; ERET and HALT pass the kernel's gate first. -/
theorem trapsAndReturns : Obligations.TrapsAndReturns := by
  unfold Obligations.TrapsAndReturns
  intro s a t enters
  have traps {i code val} (h : exec i s = trap code val s) : enters i code val := by
    refine ⟨_, h, fun hl hh => ?_, fun hf => ?_, s.enterTrap_frame ..⟩
    · rw [State.enterTrap_enters code val s.cur.pc 0 hl hh]
      exact ⟨State.thread_putThread .., rfl⟩
    · rw [State.enterTrap_freezes code val s.cur.pc 0 hf]
      exact ⟨State.thread_putThread .., rfl⟩
  refine ⟨fun hn => traps (exec_trap hn), traps rfl, fun w => traps rfl, fun cause h3 h4 => ?_, fun cause h => ?_, fun hl => ?_,
    fun hl hm => ?_, fun hl hm => ⟨fun hp => ?_, fun hp => ?_, ?_⟩⟩
  · exact traps (exec_fetchFault_trap s (by rw [decide_eq_false h3, decide_eq_false h4, Bool.or_self]))
  · exact exec_fetchFault_parks s h
  · exact ⟨traps ((exec_eret s).trans (kernelOnly_light _ _ hl)), traps ((exec_halt s).trans (kernelOnly_light _ _ hl))⟩
  · exact ⟨traps ((exec_eret s).trans (kernelOnly_user _ _ hl hm)), traps ((exec_halt s).trans (kernelOnly_user _ _ hl hm))⟩
  · exact traps (exec_eret_misaligned hl hm hp)
  · exact ⟨_, exec_eret_returns hl hm hp, State.cur_updCur .., rfl⟩
  · exact ⟨_, (exec_halt s).trans (kernelOnly_supervisor _ _ hl hm), State.thread_putThread .., rfl⟩

end Sys2Proof.Proofs
end

section
/-! Floating arithmetic, selection and conversion (spec/04 R91 to R93, R95), and what a NaN operand gives (spec/03 R60, R64). -/

namespace Sys2Proof.Machine

open Safety

theorem named_without_middle {t : Thread} {a b d : BitVec 7} (h : named t [a, b, d]) : named t [a, d] := by
  obtain ⟨ha, hbd⟩ := named_cons.1 h
  exact named_cons.2 ⟨ha, (named_cons.1 hbd).2⟩

/-! What the shapes that take rd or a sign give for fields that name registers. -/

theorem fternary_ok (g : Rm → Word → Word → Word → Word × Flags) {b a d : BitVec 7} {s : State} (h : named s.cur [a, b, d]) :
    fternary g b a d s = .next (wroteF s d (g s.cur.roundMode (X s a) (X s b) (X s d)) (fresh s [a, b, d])) := by
  have ha := (h a (by simp)).1
  have hb := (h b (by simp)).1
  simp only [fternary, limit_ok _ h, readSrc_ok _ _ ha, readSrc_ok _ _ hb, done, wroteF, X, fresh, List.any_cons, List.any_nil,
    Bool.or_false, Bool.or_assoc]

/-- FSGNJ of a NaN writes the canonical NaN and does not read rs2. -/
theorem fsgnj_nan {f : Fmt} {b a d : BitVec 7} {s : State} (h : named s.cur [a, b, d]) (hx : Val.isNan (fval f (X s a)) = true) :
    fsgnj f b a d s = .next (wrote s d (BitVec.ofNat 64 (Fmt.nan f)) (fresh s [a])) := by
  have ha := (h a (by simp)).1
  have hd := (h d (by simp)).1
  rw [X] at hx
  simp only [fsgnj, limit_ok _ h, readSrc_ok _ _ ha, writeDst_ok _ _ _ _ hd, hx, if_true, done, wrote, fresh, List.any_cons,
    List.any_nil, Bool.or_false]

/-- FSGNJ of a number writes it with the sign bit of rs2. -/
theorem fsgnj_number {f : Fmt} {b a d : BitVec 7} {s : State} (h : named s.cur [a, b, d]) (hx : Val.isNan (fval f (X s a)) = false) :
    fsgnj f b a d s = .next (wrote s d (withSign f (X s a) ((X s b).getLsbD (Fmt.width f - 1))) (fresh s [a, b])) := by
  have ha := (h a (by simp)).1
  have hb := (h b (by simp)).1
  have hd := (h d (by simp)).1
  rw [X] at hx
  simp only [fsgnj, limit_ok _ h, readSrc_ok _ _ ha, readSrc_ok _ _ hb, writeDst_ok _ _ _ _ hd, hx, Bool.false_eq_true, if_false,
    done, wrote, X, fresh, List.any_cons, List.any_nil, Bool.or_false]

theorem withSign_eq (f : Fmt) (x : Word) (neg : Bool) :
    withSign f x neg = if neg then BitVec.ofNat 64 (x.toNat % 2 ^ (Fmt.width f - 1) + 2 ^ (Fmt.width f - 1))
      else BitVec.ofNat 64 (x.toNat % 2 ^ (Fmt.width f - 1)) := by
  cases neg <;> rfl

/-! A NaN operand of the exact operations (R92). -/

theorem Val.neg_nan {y : Val} (h : y = .nan) : Val.neg y = .nan := by
  rw [h]
  rfl

theorem Val.add_nan (rm : Rm) {x y : Val} (h : x = .nan ∨ y = .nan) : Val.add rm x y = (.nan, {}) := by
  rcases h with rfl | rfl
  · rfl
  · cases x <;> rfl

theorem Val.mul_nan {x y : Val} (h : x = .nan ∨ y = .nan) : Val.mul x y = (.nan, {}) := by
  rcases h with rfl | rfl
  · rfl
  · cases x <;> rfl

theorem Val.div_nan {x y : Val} (h : x = .nan ∨ y = .nan) : Val.div x y = (.nan, false, {}) := by
  rcases h with rfl | rfl
  · rfl
  · cases x <;> rfl

/-- The factors of a product are an infinity and a zero. -/
def Val.infZero (x y : Val) : Prop := ∃ p q e, (x = .inf p ∧ y = .fin q 0 e) ∨ (y = .inf p ∧ x = .fin q 0 e)

/-- An exact product reports NV for an infinity and a zero, and never anything else. -/
theorem Val.mul_flags (x y : Val) : ∃ nv : Bool, (nv = true ↔ Val.infZero x y) ∧ (Val.mul x y).2 = { nv := nv } := by
  match x, y with
  | .nan, _ => exact ⟨false, by simp [Val.infZero], rfl⟩
  | .inf _, .nan => exact ⟨false, by simp [Val.infZero], rfl⟩
  | .fin .., .nan => exact ⟨false, by simp [Val.infZero], rfl⟩
  | .inf _, .inf _ => exact ⟨false, by simp [Val.infZero], rfl⟩
  | .inf _, .fin _ n _ => exact ⟨n = 0, by simp [Val.infZero], by by_cases h : n = 0 <;> simp [Val.mul, h]⟩
  | .fin _ m _, .inf _ => exact ⟨m = 0, by simp [Val.infZero], by by_cases h : m = 0 <;> simp [Val.mul, h]⟩
  | .fin .., .fin .. => exact ⟨false, by simp [Val.infZero], rfl⟩

theorem Flags.or_none (r : Flags) : Flags.or r {} = r := by
  simp [Flags.or]

/-- A fused operation with a NaN operand reports what its product does. -/
theorem Val.fma_nan (rm : Rm) {x y z : Val} (h : x = .nan ∨ y = .nan ∨ z = .nan) : Val.fma rm x y z = (.nan, (Val.mul x y).2) := by
  have hn : (Val.mul x y).1 = .nan ∨ z = .nan := by
    rcases h with h | h | h
    · exact .inl (by rw [Val.mul_nan (.inl h)])
    · exact .inl (by rw [Val.mul_nan (.inr h)])
    · exact .inr h
  simp only [Val.fma, Val.add_nan rm hn, Flags.or_none]

/-! A NaN operand of the rounded operations (R60, R64 step 1). -/

section
variable {f : Fmt} (hf : Fmt.isMx f = false) (rm : Rm) {x y z : Word}
include hf

theorem roundTo_nan (sticky : Bool) (r : Flags) : roundTo f rm (.nan, sticky, r) = (BitVec.ofNat 64 (Fmt.nan f), r) := by
  simp only [roundTo, roundFlt, hf, Bool.false_eq_true, if_false, Flags.or_none]

theorem fsqrt_nan (h : fval f x = .nan) : fsqrt f rm x = (BitVec.ofNat 64 (Fmt.nan f), {}) := by
  rw [fsqrt, h]
  exact roundTo_nan hf rm ..

theorem fadd_nan (h : fval f x = .nan ∨ fval f y = .nan) : fadd f rm x y = (BitVec.ofNat 64 (Fmt.nan f), {}) := by
  rw [fadd, Val.add_nan rm h]
  exact roundTo_nan hf rm ..

theorem fsub_nan (h : fval f x = .nan ∨ fval f y = .nan) : fsub f rm x y = (BitVec.ofNat 64 (Fmt.nan f), {}) := by
  rw [fsub, Val.add_nan rm (h.imp_right Val.neg_nan)]
  exact roundTo_nan hf rm ..

theorem fmul_nan (h : fval f x = .nan ∨ fval f y = .nan) : fmul f rm x y = (BitVec.ofNat 64 (Fmt.nan f), {}) := by
  rw [fmul, Val.mul_nan h]
  exact roundTo_nan hf rm ..

theorem fdiv_nan (h : fval f x = .nan ∨ fval f y = .nan) : fdiv f rm x y = (BitVec.ofNat 64 (Fmt.nan f), {}) := by
  rw [fdiv, Val.div_nan h]
  exact roundTo_nan hf rm ..

theorem ffma_nan (h : fval f x = .nan ∨ fval f y = .nan ∨ fval f z = .nan) :
    ffma f rm x y z = (BitVec.ofNat 64 (Fmt.nan f), (Val.mul (fval f x) (fval f y)).2) := by
  rw [ffma, Val.fma_nan rm h]
  exact roundTo_nan hf rm ..

theorem ffms_nan (h : fval f x = .nan ∨ fval f y = .nan ∨ fval f z = .nan) :
    ffms f rm x y z = (BitVec.ofNat 64 (Fmt.nan f), (Val.mul (fval f x) (fval f y)).2) := by
  rw [ffms, Val.fma_nan rm (h.imp_right fun h => h.imp_right Val.neg_nan)]
  exact roundTo_nan hf rm ..

end

/-! A NaN operand of the instructions (R92). -/

section
variable {f : Fmt} (hf : Fmt.isMx f = false) {b a d : BitVec 7} {s : State}
include hf

theorem root_nan (h : named s.cur [a, d]) (hx : fval f (X s a) = .nan) :
    funary (fsqrt f) a d s = .next (wroteF s d (BitVec.ofNat 64 (Fmt.nan f), {}) (fresh s [a])) := by
  rw [funary_ok _ h, fsqrt_nan hf _ hx]

variable (h : named s.cur [a, b, d])
include h

/-- A sum, a difference, a product and a quotient leave the same state. -/
theorem arithmetic_nan (hx : fval f (X s a) = .nan ∨ fval f (X s b) = .nan) :
    ∃ t, fbinary (fadd f) b a d s = .next t ∧ fbinary (fsub f) b a d s = .next t ∧ fbinary (fmul f) b a d s = .next t ∧
      fbinary (fdiv f) b a d s = .next t ∧ t = wroteF s d (BitVec.ofNat 64 (Fmt.nan f), {}) (fresh s [a, b]) := by
  simp only [fbinary_ok _ h, fadd_nan hf _ hx, fsub_nan hf _ hx, fmul_nan hf _ hx, fdiv_nan hf _ hx]
  exact ⟨_, rfl, rfl, rfl, rfl, rfl⟩

/-- FFMA and FFMS leave the same state, whose flags are those of the product. -/
theorem fused_nan (hx : fval f (X s a) = .nan ∨ fval f (X s b) = .nan ∨ fval f (X s d) = .nan) :
    ∃ nv : Bool, (nv = true ↔ Val.infZero (fval f (X s a)) (fval f (X s b))) ∧
      ∃ t, fternary (ffma f) b a d s = .next t ∧ fternary (ffms f) b a d s = .next t ∧
        t = wroteF s d (BitVec.ofNat 64 (Fmt.nan f), { nv := nv }) (fresh s [a, b, d]) := by
  obtain ⟨nv, hnv, hr⟩ := Val.mul_flags (fval f (X s a)) (fval f (X s b))
  simp only [fternary_ok _ h, ffma_nan hf _ hx, ffms_nan hf _ hx, hr]
  exact ⟨nv, hnv, _, rfl, rfl, rfl⟩

end

end Sys2Proof.Machine

namespace Sys2Proof.Proofs

open Machine Safety

/-- Settles O12: each instruction is one of three shapes with its own rounded operation. -/
theorem floatArithmetic : Obligations.FloatArithmetic := by
  unfold Obligations.FloatArithmetic
  intro s b a d h
  have h2 := named_without_middle h
  exact ⟨fbinary_ok (fadd .fp32) h, fbinary_ok (fsub .fp32) h, fbinary_ok (fmul .fp32) h, fbinary_ok (fdiv .fp32) h,
    funary_ok (fsqrt .fp32) h2, fternary_ok (ffma .fp32) h, fternary_ok (ffms .fp32) h,
    fbinary_ok (fadd .fp64) h, fbinary_ok (fsub .fp64) h, fbinary_ok (fmul .fp64) h, fbinary_ok (fdiv .fp64) h,
    funary_ok (fsqrt .fp64) h2, fternary_ok (ffma .fp64) h, fternary_ok (ffms .fp64) h⟩

/-- Settles O13: FMIN and FMAX encode the picked value, and FSGNJ splits on a NaN in rs1. -/
theorem floatSelection : Obligations.FloatSelection := by
  unfold Obligations.FloatSelection
  intro s b a d h picks signed no
  have sgnj {f : Fmt} (hx : Val.isNan (fval f (X s a)) = false) :
      fsgnj f b a d s = .next (wrote s d (signed (Fmt.width f)) (fresh s [a, b])) := by
    rw [fsgnj_number h hx, withSign_eq]
  exact ⟨fbinary_ok (fminmax false .fp32) h, fbinary_ok (fminmax true .fp32) h, fsgnj_nan h, sgnj (f := .fp32),
    fbinary_ok (fminmax false .fp64) h, fbinary_ok (fminmax true .fp64) h, fsgnj_nan h, sgnj (f := .fp64)⟩

/-- Settles O15: each conversion reads rs1 as its source, an integer or a format, and rounds once into its target. -/
theorem floatConversions : Obligations.FloatConversions := by
  unfold Obligations.FloatConversions
  intro s a d h
  exact ⟨funary_ok (fromInt .fp32 true) h, funary_ok (fromInt .fp32 false) h,
    funary_ok (toInt .fp32 (-2 ^ 63) (2 ^ 63 - 1)) h, funary_ok (toInt .fp32 0 (2 ^ 64 - 1)) h,
    funary_ok (toInt .fp32 (-2 ^ 31) (2 ^ 31 - 1)) h, funary_ok (toInt .fp32 0 (2 ^ 32 - 1)) h,
    funary_ok (toFmt .fp64 .fp32) h, funary_ok (toFmt .bf16 .fp32) h, funary_ok (toFmt .fp32 .bf16) h,
    funary_ok (fromInt .fp64 true) h, funary_ok (fromInt .fp64 false) h,
    funary_ok (toInt .fp64 (-2 ^ 63) (2 ^ 63 - 1)) h, funary_ok (toInt .fp64 0 (2 ^ 64 - 1)) h,
    funary_ok (toInt .fp64 (-2 ^ 31) (2 ^ 31 - 1)) h, funary_ok (toInt .fp64 0 (2 ^ 32 - 1)) h,
    funary_ok (toFmt .fp32 .fp64) h, funary_ok (toFmt .bf16 .fp64) h, funary_ok (toFmt .fp64 .bf16) h⟩

/-- Settles O16: a NaN operand makes the exact result a NaN, whose rounding is canonical and reports nothing of its own. -/
theorem floatNaN : Obligations.FloatNaN := by
  unfold Obligations.FloatNaN
  intro s b a d h fused
  exact ⟨root_nan (f := .fp32) rfl (named_without_middle h), root_nan (f := .fp64) rfl (named_without_middle h),
    fused_nan (f := .fp32) rfl h, fused_nan (f := .fp64) rfl h,
    arithmetic_nan (f := .fp32) rfl h, arithmetic_nan (f := .fp64) rfl h⟩

end Sys2Proof.Proofs
end

section
/-! The integer instructions OP, MUL, BIT, OP-IMM and the constants (spec/04 R84 to R89). -/

namespace Sys2Proof.Machine

open Safety

/-! What the integer shapes give for fields that name registers, in the terms of the statements. -/

theorem unary_gives (f : Word → Word) {a d : BitVec 7} {s : State} (h : named s.cur [a, d]) :
    unary f a d s = .next (wrote s d (f (X s a)) (fresh s [a])) := by
  simp only [unary_ok f h, wrote, X, fresh, List.any_cons, List.any_nil, Bool.or_false]

theorem binary_gives (f : Word → Word → Word) {b a d : BitVec 7} {s : State} (h : named s.cur [a, b, d]) :
    binary f b a d s = .next (wrote s d (f (X s a) (X s b)) (fresh s [a, b])) := by
  simp only [binary_ok f h, wrote, X, fresh, List.any_cons, List.any_nil, Bool.or_false]

theorem ternary_gives (f : Word → Word → Word → Word) {b a d : BitVec 7} {s : State} (h : named s.cur [a, b, d]) :
    ternary f b a d s = .next (wrote s d (f (X s a) (X s b) (X s d)) (fresh s [a, b, d])) := by
  simp only [ternary_ok f h, wrote, X, fresh, List.any_cons, List.any_nil, Bool.or_false, Bool.or_assoc]

/-- An unused sub-op of an opcode byte is a word that the decoder refuses. -/
theorem decode_of_rawError {w : InstrWord} {e : DecodeError} (h : rawDecode w = .error e) : decode w = .error e := by
  rw [decode, h]

/-! OP (R84): the signed comparisons, by values. -/

theorem opMin_eq (x y : Word) : opMin x y = if x.toInt < y.toInt then x else y := by
  simp only [opMin, BitVec.slt, decide_eq_true_eq]

theorem opMax_eq (x y : Word) : opMax x y = if x.toInt < y.toInt then y else x := by
  simp only [opMax, BitVec.slt, decide_eq_true_eq]

/-! MUL (R85). -/

theorem opDiv_eq_sdiv (x : Word) {y : Word} (h : y ≠ 0) : opDiv x y = x.sdiv y := by
  rw [opDiv, if_neg h]
  exact BitVec.eq_of_toInt_eq (by rw [BitVec.toInt_ofInt, BitVec.toInt_sdiv])

theorem opRem_eq_srem (x : Word) {y : Word} (h : y ≠ 0) : opRem x y = x.srem y := by
  rw [opRem, if_neg h, ← BitVec.toInt_srem, BitVec.ofInt_toInt]

/-- The quotient that does not overflow is the one toward zero, and the remainder has the sign of the dividend. -/
theorem opDiv_opRem {x y : Word} (hy : y ≠ 0) (ho : ¬(x = BitVec.ofInt 64 (-2 ^ 63) ∧ y = -1)) :
    (opDiv x y).toInt * y.toInt + (opRem x y).toInt = x.toInt ∧ (opRem x y).toInt.natAbs < y.toInt.natAbs ∧
      (0 ≤ x.toInt → 0 ≤ (opRem x y).toInt) ∧ (x.toInt ≤ 0 → (opRem x y).toInt ≤ 0) := by
  have hq : (opDiv x y).toInt = x.toInt.tdiv y.toInt := by
    rw [opDiv_eq_sdiv x hy]
    exact BitVec.toInt_sdiv_of_ne_or_ne x y (Decidable.not_and_iff_not_or_not.1 ho)
  have hr : (opRem x y).toInt = x.toInt.tmod y.toInt := by rw [opRem_eq_srem x hy, BitVec.toInt_srem]
  have hy' : y.toInt ≠ 0 := fun h => hy (BitVec.eq_of_toInt_eq h)
  rw [hq, hr]
  refine ⟨Int.tdiv_mul_add_tmod .., ?_, fun h => Int.tmod_nonneg _ h, fun h => ?_⟩
  · rw [Int.natAbs_tmod]
    exact Nat.mod_lt _ (Int.natAbs_pos.2 hy')
  · rw [← Int.neg_nonneg, ← Int.neg_tmod]
    exact Int.tmod_nonneg _ (Int.neg_nonneg.2 h)

theorem opDivu_opRemu (x : Word) {y : Word} (hy : y ≠ 0) :
    (opDivu x y).toNat * y.toNat + (opRemu x y).toNat = x.toNat ∧ (opRemu x y).toNat < y.toNat := by
  have hy' : 0 < y.toNat := Nat.pos_of_ne_zero fun h => hy (BitVec.eq_of_toNat_eq h)
  have hq : (opDivu x y).toNat = x.toNat / y.toNat := by
    rw [opDivu, if_neg hy]
    exact (BitVec.toNat_ofNat ..).trans (Nat.mod_eq_of_lt ((Nat.div_le_self ..).trans_lt x.isLt))
  have hr : (opRemu x y).toNat = x.toNat % y.toNat := by
    rw [opRemu, if_neg hy]
    exact (BitVec.toNat_ofNat ..).trans (Nat.mod_eq_of_lt ((Nat.mod_le ..).trans_lt x.isLt))
  rw [hq, hr]
  exact ⟨Nat.div_add_mod' .., Nat.mod_lt _ hy'⟩

theorem decode_mul_unassigned {f : BitVec 4} (b a d : BitVec 7) (h : 8 ≤ f.toNat) :
    decode (wordR f b a d 0x3B#7) = .error .subOp := by
  obtain ⟨n, hn⟩ := Nat.exists_eq_add_of_le' h
  refine decode_of_rawError ?_
  rw [rawDecode_3b _ (opOf_wordR ..), rawMul, f4Of_wordR, hn]
  rfl

end Sys2Proof.Machine

namespace Sys2Proof.Proofs

open Machine Safety

/-- Settles O6: each instruction is the two-source shape with its own operation. -/
theorem integerOperations : Obligations.IntegerOperations := by
  unfold Obligations.IntegerOperations
  refine ⟨fun s b a d h => ?_, fun b a d => by and_intros <;> rfl⟩
  simp only [← opMin_eq, ← opMax_eq]
  exact ⟨binary_gives (· + ·) h, binary_gives (· - ·) h, binary_gives (· &&& ·) h, binary_gives (· ||| ·) h,
    binary_gives (· ^^^ ·) h, binary_gives (fun x y => x &&& ~~~y) h, binary_gives opSll h, binary_gives opSrl h,
    binary_gives opSra h, binary_gives opRor h, binary_gives (fun x y => bit (x.slt y)) h,
    binary_gives (fun x y => bit (x.ult y)) h, binary_gives opMin h, binary_gives opMax h, binary_gives opMinu h,
    binary_gives opMaxu h⟩

/-- Settles O7: the products are the operations themselves; a division splits on the zero divisor and on the one overflow. -/
theorem multiplicationAndDivision : Obligations.MultiplicationAndDivision := by
  unfold Obligations.MultiplicationAndDivision
  refine ⟨fun s b a d h => ?_, fun b a d => ⟨rfl, rfl, rfl, rfl, rfl, rfl, rfl, rfl, fun f hf => ⟨_, decode_mul_unassigned b a d hf⟩⟩⟩
  intro x y gives
  have div : exec (.div b a d) s = gives (opDiv x y) := binary_gives opDiv h
  have divu : exec (.divu b a d) s = gives (opDivu x y) := binary_gives opDivu h
  have rem : exec (.rem b a d) s = gives (opRem x y) := binary_gives opRem h
  have remu : exec (.remu b a d) s = gives (opRemu x y) := binary_gives opRemu h
  refine ⟨binary_gives (· * ·) h, binary_gives opMulh h, binary_gives opMulhu h, binary_gives opMulhsu h, fun hy => ?_,
    fun hx hy => ?_, fun hy ho => ⟨_, _, div, rem, opDiv_opRem hy ho⟩, fun hy => ⟨_, _, divu, remu, opDivu_opRemu x hy⟩⟩
  · rw [div, divu, rem, remu, hy]
    exact ⟨rfl, rfl, rfl, rfl⟩
  · rw [div, rem, hx, hy]
    exact ⟨congrArg gives (by decide), congrArg gives (by decide)⟩

end Sys2Proof.Proofs
end

section
/-! The bit instructions and bit fields (spec/04 R86, R87), bit by bit. -/

namespace Sys2Proof.Machine

open Safety

/-! Counts of bits. -/

/-- The leading zeros end at the highest bit that is 1. -/
theorem opClz_spec (x : Word) : ∃ n ≤ 64, opClz x = BitVec.ofNat 64 n ∧ (∀ k < n, x.getLsbD (63 - k) = false) ∧
    (n < 64 → x.getLsbD (63 - n) = true) := by
  refine ⟨if x = 0 then 64 else 63 - Nat.log2 x.toNat, ?_, rfl, ?_⟩
  · split <;> omega
  · by_cases hx : x = 0
    · simp [hx]
    · have hn : x.toNat ≠ 0 := fun h => hx (BitVec.eq_of_toNat_eq h)
      have hl : Nat.log2 x.toNat < 64 := (Nat.log2_lt hn).2 x.isLt
      rw [if_neg hx]
      refine ⟨fun k hk => ?_, fun _ => ?_⟩
      · rw [← BitVec.testBit_toNat]
        exact Nat.testBit_lt_two_pow (Nat.lt_log2_self.trans_le (Nat.pow_le_pow_right (by decide) (by omega)))
      · rw [← BitVec.testBit_toNat, show 63 - (63 - Nat.log2 x.toNat) = Nat.log2 x.toNat by omega]
        exact Nat.testBit_log2 hn

/-- The trailing zeros among the low n bits end at the lowest bit that is 1. -/
theorem trailing_spec (n v : Nat) : trailing n v ≤ n ∧ (∀ k < trailing n v, v.testBit k = false) ∧
    (trailing n v < n → v.testBit (trailing n v) = true) := by
  induction n generalizing v with
  | zero => simp [trailing]
  | succ n ih =>
    obtain ⟨hle, hzero, hone⟩ := ih (v / 2)
    rw [trailing]
    split
    · next h => simp [Nat.testBit_zero, h]
    · next h =>
      refine ⟨by omega, fun k hk => ?_, fun hlt => ?_⟩
      · cases k with
        | zero => simp [Nat.testBit_zero, h]
        | succ k => rw [Nat.testBit_succ, hzero k (by omega)]
      · rw [Nat.testBit_succ, hone (by omega)]

theorem opCtz_spec (x : Word) : ∃ n ≤ 64, opCtz x = BitVec.ofNat 64 n ∧ (∀ k < n, x.getLsbD k = false) ∧
    (n < 64 → x.getLsbD n = true) :=
  let ⟨hle, hzero, hone⟩ := trailing_spec 64 x.toNat
  ⟨_, hle, rfl, hzero, hone⟩

theorem ones_eq_countP (n v : Nat) : ones n v = (List.range n).countP v.testBit := by
  induction n generalizing v with
  | zero => rfl
  | succ n ih =>
    have hs : v.testBit ∘ Nat.succ = (v / 2).testBit := funext fun k => Nat.testBit_succ v k
    rw [ones, ih, List.range_succ_eq_map, List.countP_cons, List.countP_map, hs, Nat.testBit_zero]
    rcases Nat.mod_two_eq_zero_or_one v with h | h <;> simp [h, Nat.add_comm]

/-! Bytes. -/

theorem testBit_leNat (l : List Byte) (k : Nat) : (leNat l).testBit k = (l.getD (k / 8) 0).getLsbD (k % 8) := by
  induction l generalizing k with
  | nil => simp [leNat]
  | cons b r ih =>
    rw [leNat, Nat.add_comm, show (256 : Nat) = 2 ^ 8 by rfl, Nat.testBit_two_pow_mul_add _ b.isLt]
    split
    · next h => rw [Nat.div_eq_of_lt h, Nat.mod_eq_of_lt h, List.getD_cons_zero, BitVec.testBit_toNat]
    · next h =>
      obtain ⟨j, rfl⟩ := Nat.exists_eq_add_of_le' (Nat.not_lt.1 h)
      rw [ih, Nat.add_sub_cancel, Nat.add_div_right _ (by decide), Nat.add_mod_right, List.getD_cons_succ]

theorem leBytes_getElem? (v : Nat) {n i : Nat} (h : i < n) : (leBytes v n)[i]? = some (BitVec.ofNat 8 (v / 2 ^ (8 * i))) := by
  induction n generalizing v i with
  | zero => omega
  | succ n ih =>
    rw [leBytes]
    cases i with
    | zero => simp
    | succ i =>
      rw [List.getElem?_cons_succ, ih _ (by omega), Nat.div_div_eq_div_mul, show 8 * (i + 1) = 8 + 8 * i by omega, Nat.pow_add]

theorem opBswap_getLsbD (x : Word) {k : Nat} (h : k < 64) : (opBswap x).getLsbD k = x.getLsbD (8 * (7 - k / 8) + k % 8) := by
  have hb : (leBytes x.toNat 8).reverse.getD (k / 8) 0 = BitVec.ofNat 8 (x.toNat / 2 ^ (8 * (7 - k / 8))) := by
    rw [List.getD_eq_getElem?_getD, List.getElem?_reverse (by rw [length_leBytes]; omega), length_leBytes,
      leBytes_getElem? _ (by omega), Option.getD_some]
  rw [opBswap, BitVec.getLsbD_ofNat, testBit_leNat, hb, BitVec.getLsbD_ofNat, Nat.testBit_div_two_pow, BitVec.testBit_toNat,
    Nat.add_comm]
  simp [h, Nat.mod_lt]

/-! Sign extension. -/

/-- Bits from the sign bit on repeat it. -/
theorem getLsbD_signExtend_min {w : Nat} (v : BitVec w) (hw : 0 < w) {k : Nat} (h : k < 64) :
    (v.signExtend 64).getLsbD k = v.getLsbD (min k (w - 1)) := by
  rw [BitVec.getLsbD_signExtend, decide_eq_true h, Bool.true_and, BitVec.msb_eq_getLsbD_last]
  split
  · rw [Nat.min_eq_left (by omega)]
  · rw [Nat.min_eq_right (by omega)]

theorem getLsbD_signExtend_setWidth (x : Word) (w : Nat) (hw : 0 < w) {k : Nat} (h : k < 64) :
    ((x.setWidth w).signExtend 64).getLsbD k = x.getLsbD (min k (w - 1)) := by
  rw [getLsbD_signExtend_min _ hw h, BitVec.getLsbD_setWidth, decide_eq_true (by omega), Bool.true_and]

theorem opZextw_getLsbD (x : Word) {k : Nat} (h : k < 64) : (opZextw x).getLsbD k = (decide (k < 32) && x.getLsbD k) := by
  rw [opZextw, BitVec.getLsbD_setWidth, BitVec.getLsbD_setWidth, decide_eq_true h, Bool.true_and]

theorem decode_bit_unassigned {f : BitVec 4} (b a d : BitVec 7) (h : 11 ≤ f.toNat) :
    decode (wordR f b a d 0x3F#7) = .error .subOp := by
  obtain ⟨n, hn⟩ := Nat.exists_eq_add_of_le' h
  refine decode_of_rawError ?_
  rw [rawDecode_3f _ (opOf_wordR ..), rawBit, f4Of_wordR, hn]
  rfl

/-! Bit fields (R87). -/

theorem fieldPos_eq (b : Word) : fieldPos b = b.toNat % 64 := rfl

theorem fieldLen_eq (b : Word) : fieldLen b = min (b.toNat / 256 % 128) (64 - fieldPos b) := by
  rw [fieldLen, fld, Nat.shiftRight_eq_div_pow]
  rfl

theorem testBit_fieldVal (x b : Word) (k : Nat) :
    (fieldVal x b).testBit k = (decide (k < fieldLen b) && x.getLsbD (fieldPos b + k)) := by
  rw [fieldVal, Nat.testBit_mod_two_pow, Nat.testBit_div_two_pow, BitVec.testBit_toNat, Nat.add_comm]

theorem opBfxu_getLsbD (x b : Word) {k : Nat} (h : k < 64) :
    (opBfxu x b).getLsbD k = (decide (k < fieldLen b) && x.getLsbD (fieldPos b + k)) := by
  rw [opBfxu, BitVec.getLsbD_ofNat, testBit_fieldVal, decide_eq_true h, Bool.true_and]

theorem opBfx_getLsbD (x b : Word) {k : Nat} (h : k < 64) :
    (opBfx x b).getLsbD k = (decide (0 < fieldLen b) && x.getLsbD (fieldPos b + min k (fieldLen b - 1))) := by
  rcases Nat.eq_zero_or_pos (fieldLen b) with hn | hn
  · simp [opBfx, hn]
  · rw [opBfx, if_neg (Nat.pos_iff_ne_zero.1 hn), signed_eq_toInt _ _ hn]
    have hm : min k (fieldLen b - 1) < fieldLen b := by omega
    exact (getLsbD_signExtend_min _ hn h).trans (by
      rw [BitVec.getLsbD_ofNat, testBit_fieldVal, decide_eq_true hm, decide_eq_true hn, Bool.true_and])

/-- The mask of a field. -/
theorem testBit_fieldMask (n p k : Nat) : ((2 ^ n - 1) * 2 ^ p).testBit k = decide (p ≤ k ∧ k < p + n) := by
  rw [Nat.testBit_mul_two_pow, Nat.testBit_two_pow_sub_one, ← Bool.decide_and, decide_eq_decide]
  omega

theorem opBfi_getLsbD (x b z : Word) {k : Nat} (h : k < 64) :
    (opBfi x b z).getLsbD k =
      if fieldPos b ≤ k ∧ k < fieldPos b + fieldLen b then x.getLsbD (k - fieldPos b) else z.getLsbD k := by
  simp only [opBfi, BitVec.getLsbD_or, BitVec.getLsbD_and, BitVec.getLsbD_not, BitVec.getLsbD_shiftLeft, BitVec.getLsbD_ofNat,
    testBit_fieldMask, h, decide_true, Bool.true_and]
  split
  · next hk => simp [hk, Nat.not_lt.2 hk.1]
  · next hk => simp [hk]

end Sys2Proof.Machine

namespace Sys2Proof.Proofs

open Machine Safety

/-- Settles O8: each instruction is the one-source shape, and its operation is known bit by bit. -/
theorem bitCounts : Obligations.BitCounts := by
  unfold Obligations.BitCounts
  refine ⟨fun s a d h => ?_, fun a d => ⟨rfl, rfl, rfl, rfl, rfl, rfl, rfl, rfl, fun f b hf => ⟨_, decode_bit_unassigned b a d hf⟩⟩⟩
  intro x gives
  have clz : exec (.clz a d) s = gives (opClz x) := unary_gives opClz h
  have ctz : exec (.ctz a d) s = gives (opCtz x) := unary_gives opCtz h
  have cpop : exec (.cpop a d) s = gives (opCpop x) := unary_gives opCpop h
  refine ⟨?_, ?_, ?_, ⟨_, unary_gives opBswap h, fun k hk => opBswap_getLsbD x hk⟩,
    ⟨_, unary_gives opSextb h, fun k hk => getLsbD_signExtend_setWidth x 8 (by decide) hk⟩,
    ⟨_, unary_gives opSexth h, fun k hk => getLsbD_signExtend_setWidth x 16 (by decide) hk⟩,
    ⟨_, unary_gives opSextw h, fun k hk => getLsbD_signExtend_setWidth x 32 (by decide) hk⟩,
    ⟨_, unary_gives opZextw h, fun k hk => opZextw_getLsbD x hk⟩⟩
  · obtain ⟨n, hle, hv, hbits⟩ := opClz_spec x
    exact ⟨n, hle, clz.trans (congrArg gives hv), hbits⟩
  · obtain ⟨n, hle, hv, hbits⟩ := opCtz_spec x
    exact ⟨n, hle, ctz.trans (congrArg gives hv), hbits⟩
  · rw [cpop, opCpop, ones_eq_countP]
    rfl

/-- Settles O9: the descriptor's position and length are those of the statement, and each operation is known bit by bit. -/
theorem bitFields : Obligations.BitFields := by
  unfold Obligations.BitFields
  intro s b a d h
  simp only [← fieldLen_eq, ← fieldPos_eq]
  exact ⟨⟨_, binary_gives opBfx h, fun k hk => opBfx_getLsbD _ _ hk⟩, ⟨_, binary_gives opBfxu h, fun k hk => opBfxu_getLsbD _ _ hk⟩,
    ⟨_, ternary_gives opBfi h, fun k hk => opBfi_getLsbD _ _ _ hk⟩, rfl, rfl, rfl⟩

end Sys2Proof.Proofs
end

section
/-! Immediates and constants (spec/04 R88, R89). -/

namespace Sys2Proof.Machine

open Safety

theorem named_rd {t : Thread} {a d : BitVec 7} (h : named t [a, d]) : named t [d] := (named_cons.1 h).2

theorem slt_imm8 (x : Word) (i : BitVec 8) : x.slt (imm8 i) = decide (x.toInt < i.toInt) := by
  rw [BitVec.slt, imm8, BitVec.toInt_signExtend_of_le (by decide)]

/-- A shift amount of the word is below 64. -/
theorem toNat_amount (h : BitVec 6) : (amount h).toNat % 64 = h.toNat := by
  have := h.isLt
  rw [amount, BitVec.toNat_setWidth]
  omega

theorem immUpper_eq (i : BitVec 18) : immUpper i = BitVec.ofInt 64 (i.toInt * 2 ^ 14) := by
  have : (i ++ (0 : BitVec 14)).toInt = i.toInt * 2 ^ 14 := by
    rw [BitVec.toInt_append, Int.mul_comm]
    simp
  rw [immUpper, BitVec.signExtend, this]

theorem exec_liu {i : BitVec 18} {d : BitVec 7} {s : State} (h : named s.cur [d]) :
    exec (.liu i d) s = .next (wrote s d (immUpper i) false) :=
  (limit_ok _ h).trans (writeDst_ok _ _ _ _ (h d (by simp)).1)

theorem exec_addpc {i : BitVec 18} {d : BitVec 7} {s : State} (h : named s.cur [d]) :
    exec (.addpc i d) s = .next (wrote s d (s.cur.pc + immUpper i) false) := by
  show limit [d] (fun s => writeDst d (s.cur.pc + immUpper i) false done s) s = _
  rw [limit_ok _ h, writeDst_ok _ _ _ _ (h d (by simp)).1]
  rfl

theorem exec_addl {i : BitVec 18} {d : BitVec 7} {s : State} (h : named s.cur [d]) :
    exec (.addl i d) s = .next (wrote s d (X s d + BitVec.ofInt 64 i.toInt) (fresh s [d])) := by
  show limit [d] (fun s => done (s.setRd d ((s.cur.opnd d).val + i.signExtend 64) (s.cur.opnd d).fresh)) s = _
  rw [limit_ok _ h, fresh, List.any_cons, List.any_nil, Bool.or_false]
  rfl

end Sys2Proof.Machine

namespace Sys2Proof.Proofs

open Machine Safety

/-- Settles O10: OP-IMM is the one-source shape with the immediate in its operation; the constants write rd at once. -/
theorem immediates : Obligations.Immediates := by
  unfold Obligations.Immediates
  refine ⟨fun s a d h => ?_, fun i a d => by and_intros <;> rfl, fun h a d => by and_intros <;> rfl,
    fun i d => by and_intros <;> rfl⟩
  have hd := named_rd h
  refine ⟨fun i => ?_, fun n => ?_, fun i => ?_⟩
  · rw [← slt_imm8]
    exact ⟨unary_gives (· + imm8 i) h, unary_gives (fun x => bit (x.slt (imm8 i))) h, unary_gives (fun x => bit (x.ult (imm8 i))) h,
      unary_gives (· ^^^ imm8 i) h, unary_gives (· ||| imm8 i) h, unary_gives (· &&& imm8 i) h⟩
  · rw [← toNat_amount n]
    exact ⟨unary_gives (opSll · (amount n)) h, unary_gives (opSrl · (amount n)) h, unary_gives (opSra · (amount n)) h,
      unary_gives (opRor · (amount n)) h⟩
  · rw [← immUpper_eq]
    exact ⟨exec_liu hd, exec_addpc hd, exec_addl hd⟩

end Sys2Proof.Proofs
end

section
/-! Floating comparisons and classes (spec/04 R94). -/

namespace Sys2Proof.Machine

open Safety

theorem forder_lt (f : Fmt) (rm : Rm) (x y : Word) :
    forder false f rm x y = (truth (Val.lt (fval f x) (fval f y)), { nv := Val.isNan (fval f x) || Val.isNan (fval f y) }) := by
  rw [forder, Bool.false_and, Bool.or_false]
  rfl

/-- What each bit number of FCLASS says of a value. -/
def Val.hasClass (f : Fmt) (v : Val) (k : Nat) : Prop :=
  (k = 8 ↔ v = .nan) ∧ (k = 0 ↔ v = .inf true) ∧ (k = 7 ↔ v = .inf false) ∧
  (k = 3 ↔ ∃ e, v = .fin true 0 e) ∧ (k = 4 ↔ ∃ e, v = .fin false 0 e) ∧
  (k = 2 ↔ ∃ n e, v = .fin true n e ∧ 0 < n ∧ n < 2 ^ Fmt.m f) ∧ (k = 5 ↔ ∃ n e, v = .fin false n e ∧ 0 < n ∧ n < 2 ^ Fmt.m f) ∧
  (k = 1 ↔ ∃ n e, v = .fin true n e ∧ 2 ^ Fmt.m f ≤ n) ∧ (k = 6 ↔ ∃ n e, v = .fin false n e ∧ 2 ^ Fmt.m f ≤ n)

/-- A finite value is a zero, or subnormal, or normal, with either sign. -/
theorem classOf_hasClass (f : Fmt) (v : Val) : classOf f v ≤ 8 ∧ Val.hasClass f v (classOf f v) := by
  unfold Val.hasClass
  cases v with
  | nan => simp [classOf]
  | inf neg => cases neg <;> simp [classOf]
  | fin neg n e =>
    rcases Nat.eq_zero_or_pos n with rfl | hz
    · cases neg <;> simp [classOf]
    · have hn := Nat.pos_iff_ne_zero.1 hz
      rcases Nat.lt_or_ge n (2 ^ Fmt.m f) with hs | hs
      · cases neg <;> simp [classOf, hn, hs, hz]
      · cases neg <;> simp [classOf, hn, hs, Nat.not_lt.2 hs]

end Sys2Proof.Machine

namespace Sys2Proof.Proofs

open Machine Safety

/-- Settles O14: a comparison is one operation on the two values, and the class is the value's own. -/
theorem floatComparisons : Obligations.FloatComparisons := by
  unfold Obligations.FloatComparisons
  intro s b a d h x y nan no gives
  have h2 := named_without_middle h
  have lt (f : Fmt) : fbinary (forder false f) b a d s = gives (Val.lt (x f) (y f)) (nan f) := by
    rw [fbinary_ok _ h, forder_lt]
  have cls (f : Fmt) : ∃ k ≤ 8, funary (fclass f) a d s = .next (wroteF s d (BitVec.ofNat 64 (2 ^ k), no) (fresh s [a])) ∧
      Val.hasClass f (x f) k :=
    ⟨_, (classOf_hasClass f (x f)).1, funary_ok (fclass f) h2, (classOf_hasClass f (x f)).2⟩
  exact ⟨fbinary_ok (feq .fp32) h, lt .fp32, fbinary_ok (forder true .fp32) h, cls .fp32,
    fbinary_ok (feq .fp64) h, lt .fp64, fbinary_ok (forder true .fp64) h, cls .fp64, rfl, rfl, rfl, rfl, rfl, rfl, rfl, rfl⟩

end Sys2Proof.Proofs
end

section
/-! Branches and jumps (spec/04 R100 to R104). -/

namespace Sys2Proof.Machine

open Safety

theorem branchTarget_eq (i j : BitVec 4) (pc : Word) : branchTarget i j pc = pc + BitVec.ofInt 64 ((i ++ j).toInt * 4) :=
  offsetOf_eq pc (i ++ j) 4

theorem advance_eq_went (s : State) : s.advance = went s (s.cur.pc + 4) := State.updCur_congr s rfl

/-- A branch goes to its target or on to the next word. -/
theorem branchTo_eq (taken : Bool) (target : Word) (s : State) :
    branchTo taken target s = .next (went s (if taken then target else s.cur.pc + 4)) := by
  cases taken with
  | false => exact congrArg Host.Outcome.next (advance_eq_went s)
  | true => rfl

theorem branchIf_ok (f : Word → Word → Bool) (i j : BitVec 4) {b a : BitVec 7} {s : State} (h : named s.cur [a, b]) :
    branchIf f i b a j s =
      .next (went s (if f (X s a) (X s b) then s.cur.pc + BitVec.ofInt 64 ((i ++ j).toInt * 4) else s.cur.pc + 4)) := by
  have ha := (h a (by simp)).1
  have hb := (h b (by simp)).1
  rw [branchIf, limit_ok _ h, readSrc_ok _ _ ha, readSrc_ok _ _ hb, branchTo_eq, branchTarget_eq]
  rfl

theorem branchPred_eq (sense : Bool) (i : BitVec 4) (p : BitVec 5) (j : BitVec 4) (s : State) :
    branchPred sense i p j s =
      .next (went s (if s.cur.pred p == sense then s.cur.pc + BitVec.ofInt 64 ((i ++ j).toInt * 4) else s.cur.pc + 4)) := by
  rw [branchPred, branchTo_eq, branchTarget_eq]

theorem not_slt (x y : Word) : (!x.slt y) = decide (y.toInt ≤ x.toInt) := by
  rw [BitVec.slt, ← decide_not, decide_eq_decide, Int.not_lt]

theorem not_ult (x y : Word) : (!x.ult y) = decide (y.toNat ≤ x.toNat) := by
  rw [BitVec.ult, ← decide_not, decide_eq_decide, Nat.not_lt]

/-! What going on at an address leaves of the issuing thread. -/

section
variable (s : State) (pc : Word)

theorem cur_went : (went s pc).cur = { s.cur.over with pc := pc } := State.cur_updCur ..

@[simp] theorem reg_went (n : Nat) : (went s pc).cur.reg n = s.cur.reg n := by rw [cur_went]; rfl
@[simp] theorem pc_went : (went s pc).cur.pc = pc := by rw [cur_went]
@[simp] theorem pw_went : (went s pc).cur.pw = s.cur.pw := by rw [cur_went]; rfl
@[simp] theorem rrlo_went : (went s pc).cur.rrlo = s.cur.rrlo := by rw [cur_went]; rfl
@[simp] theorem rrsz_went : (went s pc).cur.rrsz = s.cur.rrsz := by rw [cur_went]; rfl
@[simp] theorem rrb_went : (went s pc).cur.rrb = s.cur.rrb := by rw [cur_went]; rfl
@[simp] theorem mem_went : (went s pc).mem = s.mem := rfl

theorem thread_went_other {c sl : Nat} (h : ¬(c = s.ic ∧ sl = s.is)) : (went s pc).thread c sl = s.thread c sl :=
  State.thread_updCur_other _ _ h

end

/-! The rotation (spec/01 R21) and BRB (R102). -/

theorem Thread.rotate_eq (t : Thread) : t.rotate = { t with rrb := t.rotate.rrb } := by
  unfold Thread.rotate
  split <;> rfl

theorem Thread.active_setReg (t : Thread) (n : Nat) (v : Word) (b : Bool) : (t.setReg n v b).active = t.active := by
  simp only [Thread.active, Thread.light_setReg, Thread.rrsz_setReg, Thread.rrlo_setReg, Thread.alloc_setReg]

theorem Thread.toNat_rrb_rotate (t : Thread) :
    t.rotate.rrb.toNat = if t.active then (t.rrb.toNat + t.rrsz.toNat - 1) % t.rrsz.toNat else t.rrb.toNat := by
  unfold Thread.rotate
  split
  · next h =>
    have hz : t.rrsz.toNat ≠ 0 := by
      simp only [Thread.active, Bool.and_eq_true, decide_eq_true_eq] at h
      exact h.1.1.2
    have hlt := (Nat.mod_lt (t.rrb.toNat + t.rrsz.toNat - 1) (Nat.pos_of_ne_zero hz)).trans t.rrsz.isLt
    exact (BitVec.toNat_ofNat ..).trans (Nat.mod_eq_of_lt hlt)
  · rfl

/-- BRB's thread before it goes on: the count register is written under its old name, then the region rotates. -/
def Thread.loopStep (t : Thread) (a : BitVec 7) : Thread :=
  (t.setReg (t.rename a.toNat) (t.reg (t.rename a.toNat) - 1) ((t.opnd a).fresh || (t.active && t.freshRR != 0))).rotate

section
variable (t : Thread) (a : BitVec 7)

/-- A count in a register is decremented. -/
theorem Thread.reg_loopStep_self :
    (t.loopStep a).reg (t.rename a.toNat) = if t.rename a.toNat = 0 then 0 else t.reg (t.rename a.toNat) - 1 := by
  rw [Thread.loopStep, Thread.rotate_eq]
  split
  · next h => rw [h]; rfl
  · next h => exact Thread.reg_setReg_self _ _ _ h

theorem Thread.reg_loopStep_other {m : Nat} (h : m ≠ t.rename a.toNat) : (t.loopStep a).reg m = t.reg m := by
  rw [Thread.loopStep, Thread.rotate_eq]
  exact Thread.reg_setReg_other _ _ _ h

theorem Thread.toNat_rrb_loopStep :
    (t.loopStep a).rrb.toNat = if t.active then (t.rrb.toNat + t.rrsz.toNat - 1) % t.rrsz.toNat else t.rrb.toNat := by
  rw [Thread.loopStep, Thread.toNat_rrb_rotate, Thread.active_setReg, Thread.rrb_setReg, Thread.rrsz_setReg]

/-- BRB's thread keeps all but registers, their marks and the rotation's base. -/
theorem Thread.loopStep_eq :
    t.loopStep a = { t with regs := (t.loopStep a).regs, fresh := (t.loopStep a).fresh, rrb := (t.loopStep a).rrb } := by
  rw [Thread.loopStep, Thread.rotate_eq, Thread.setReg_eq]

@[simp] theorem Thread.pc_loopStep : (t.loopStep a).pc = t.pc := by rw [Thread.loopStep_eq]
@[simp] theorem Thread.rrlo_loopStep : (t.loopStep a).rrlo = t.rrlo := by rw [Thread.loopStep_eq]
@[simp] theorem Thread.rrsz_loopStep : (t.loopStep a).rrsz = t.rrsz := by rw [Thread.loopStep_eq]
@[simp] theorem Thread.pw_loopStep : (t.loopStep a).pw = t.pw := by rw [Thread.loopStep_eq]

end


theorem exec_brb (i : BitVec 4) {a : BitVec 7} (j : BitVec 4) {s : State} (h : named s.cur [a]) :
    exec (.brb i a j) s = .next (went (s.updCur fun t => t.loopStep a)
      (if X s a - 1 ≠ 0 then s.cur.pc + BitVec.ofInt 64 ((i ++ j).toInt * 4) else s.cur.pc + 4)) := by
  have hl : (s.setRd a (X s a - 1) (s.cur.opnd a).fresh).updCur Thread.rotate = s.updCur fun t => t.loopStep a := by
    rw [State.setRd, State.updCur_updCur]
    exact State.updCur_congr s rfl
  have hpc : (s.updCur fun t => t.loopStep a).cur.pc = s.cur.pc := by rw [State.cur_updCur, Thread.pc_loopStep]
  show limit [a] (fun s => branchTo (X s a - 1 ≠ 0) (branchTarget i j s.cur.pc)
    ((s.setRd a (X s a - 1) (s.cur.opnd a).fresh).updCur Thread.rotate)) s = _
  rw [limit_ok _ h, hl, branchTo_eq, branchTarget_eq, hpc]
  simp only [decide_eq_true_eq]

/-! Jumps (R103, R104). -/

/-- The target of a JALR: rs1 as it is before rd is written. -/
theorem exec_jalr (i : BitVec 8) {a d : BitVec 7} {s : State} (h : named s.cur [a, d]) :
    exec (.jalr i a d) s =
      if (X s a + BitVec.ofInt 64 (i.toInt * 4)).toNat % 4 ≠ 0 then trap 2 (X s a + BitVec.ofInt 64 (i.toInt * 4)) s
      else .next (went (s.setRd d (s.cur.pc + 4) false) (X s a + BitVec.ofInt 64 (i.toInt * 4))) := by
  have htarget : offsetOf (X s a) i 4 = X s a + BitVec.ofInt 64 (i.toInt * 4) := offsetOf_eq ..
  rw [← htarget]
  show limit [a, d] (fun s => if (offsetOf (X s a) i 4).toNat % 4 ≠ 0 then trap 2 (offsetOf (X s a) i 4) s
    else jump (offsetOf (X s a) i 4) (s.setRd d (s.cur.pc + 4) false)) s = _
  rw [limit_ok _ h]
  rfl

end Sys2Proof.Machine

namespace Sys2Proof.Proofs

open Machine Safety

/-- Settles O17: every branch is one shape with its own condition. -/
theorem branches : Obligations.Branches := by
  unfold Obligations.Branches
  refine ⟨fun s i j => ⟨fun b a h => ?_, fun p => ?_⟩, fun i b a j p => by and_intros <;> rfl⟩
  · simp only [← not_slt, ← not_ult]
    exact ⟨branchIf_ok (fun x y => x = y) i j h, branchIf_ok (fun x y => x ≠ y) i j h, branchIf_ok (fun x y => x.slt y) i j h,
      branchIf_ok (fun x y => !x.slt y) i j h, branchIf_ok (fun x y => x.ult y) i j h, branchIf_ok (fun x y => !x.ult y) i j h⟩
  · have hp := branchPred_eq true i p j s
    have hn := branchPred_eq false i p j s
    rw [beq_true] at hp
    rw [beq_false] at hn
    exact ⟨hp, hn⟩

/-- Settles O18: BRB is one step of its own thread, which then goes on. -/
theorem loopBranch : Obligations.LoopBranch := by
  unfold Obligations.LoopBranch
  intro s i a j h
  refine ⟨_, exec_brb i j h, ?_⟩
  simp only [reg_went, rrb_went, pc_went, rrlo_went, rrsz_went, pw_went, mem_went, State.cur_updCur, Thread.rrlo_loopStep,
    Thread.rrsz_loopStep, Thread.pw_loopStep, State.mem_updCur]
  refine ⟨s.cur.reg_loopStep_self a, fun m hm => s.cur.reg_loopStep_other a hm, s.cur.toNat_rrb_loopStep a, rfl, trivial, trivial,
    trivial, trivial, fun c sl hc => ?_, fun hl => ?_, rfl⟩
  · exact (thread_went_other (s.updCur _) _ hc).trans (State.thread_updCur_other _ _ hc)
  · have hrrb := s.cur.toNat_rrb_loopStep a
    rw [if_neg (by simp [Thread.active, hl])] at hrrb
    exact BitVec.eq_of_toNat_eq hrrb

/-- Settles O19: JAL writes g1 as it is numbered; JALR splits on its target's alignment. -/
theorem jumps : Obligations.Jumps := by
  unfold Obligations.Jumps
  refine ⟨fun s i => ?_, fun s i a d h => ⟨fun ht => ?_, fun ht => ?_⟩, fun i k a d => ⟨rfl, rfl⟩⟩
  · rw [BitVec.ofInt_mul]
    rfl
  · rw [exec_jalr i h, if_neg (not_not.2 ht)]
  · rw [exec_jalr i h, if_pos ht]
    rfl

end Sys2Proof.Proofs
end

section
/-! Replies to parked accesses (spec/04 R97, spec/05 R117, R134, spec/12 R271). -/

namespace Sys2Proof.Machine

open Safety

/-! The event around the access: what it leaves is `replied`. -/

theorem replied_of_waits {s : State} {c sl : Nat} {p : Pend} (h : (s.thread c sl).wait = some (.access p)) : replied c sl s = s := by
  simp only [replied, h]

section
variable {s u : State} {c sl : Nat} {p : Pend}

theorem exec_accessReply_next (h : replyTo c sl s = .next u) : exec (.accessReply c sl) s = .next (replied c sl u) := by
  show execAccessReply c sl s = _
  simp only [execAccessReply, h, replied]
  generalize (u.thread c sl).wait = w
  cases w with
  | none => rfl
  | some w => cases w <;> rfl

variable (hw : (s.thread c sl).wait = some (.access p))
include hw

/-- An access other than those of VAT.CVT and FMT.LD is performed as its kind says. -/
theorem replyTo_performs (hv : ∀ t rd k, p ≠ .vatRead t rd k) (ht : ∀ l off rd, p ≠ .tableRead l off rd) :
    replyTo c sl s = performAccess c sl p s := by
  cases p with
  | vatRead => exact absurd rfl (hv _ _ _)
  | tableRead => exact absurd rfl (ht _ _ _)
  | load | store | vload | vstore | done => simp only [replyTo, hw]

/-- An access that is held goes on waiting. -/
theorem exec_accessReply_held (h : replyTo c sl s = .next s) : exec (.accessReply c sl) s = .next s := by
  rw [exec_accessReply_next h, replied_of_waits hw]

end

/-! One lane of several, picked in no order. -/

theorem State.pick_lt (s : State) {n : Nat} (h : 0 < n) : (s.pick n).1 < n := by
  unfold State.pick
  split
  · exact h
  · exact Nat.mod_lt _ h

/-- What is picked of a list that is not empty is in it. -/
theorem State.pick_mem {α : Type} (s : State) {l : List α} (h : l ≠ []) : ∃ x ∈ l, l[(s.pick l.length).1]? = some x :=
  let hlt := s.pick_lt (List.length_pos_iff.2 h)
  ⟨_, List.getElem_mem hlt, List.getElem?_eq_getElem hlt⟩

/-- The lanes of a load that no pin holds. -/
def State.readyLoads (s : State) (c sl : Nat) (bypass : Bool) (size : Nat) (ts : List (Nat × Target)) : List (Nat × Target) :=
  ts.filter fun x => !s.readHeld c sl bypass x.2 size

/-- The lanes of a store that neither an earlier lane nor a pin holds. -/
def State.readyStores (s : State) (c sl : Nat) (bypass : Bool) (size : Nat) (ls : List Lane) : List Lane :=
  (freeLanes size [] ls).filter fun x => !s.writeHeld c sl bypass x.1 size

section
variable {s : State} {c sl size group : Nat} {broadcast bypass : Bool}

theorem performLoadLane_none {ts : List (Nat × Target)} {got : Tab Nat} {bad : Option VAddr}
    (h : s.readyLoads c sl bypass size ts = []) : performLoadLane c sl ts got bad size group broadcast bypass s = .next s := by
  rw [State.readyLoads] at h
  simp only [performLoadLane, h, List.getElem?_nil]

theorem performLoadLane_picked {ts : List (Nat × Target)} {got : Tab Nat} {bad : Option VAddr} {x : Nat × Target} {p : Nat × State}
    (hp : s.pick (s.readyLoads c sl bypass size ts).length = p) (h : (s.readyLoads c sl bypass size ts)[p.1]? = some x) :
    performLoadLane c sl ts got bad size group broadcast bypass s =
      let r := p.2.readLane c sl bypass size x.2
      if ts.erase x = [] then
        resume c sl (lanesLoaded ((tabPut got x.1 r.1).map (·.2)) (lowerVa bad r.2.1) size group broadcast true) r.2.2
      else accessOn c sl (.vload (ts.erase x) (tabPut got x.1 r.1) (lowerVa bad r.2.1) size group broadcast bypass) r.2.2 := by
  subst hp
  rw [State.readyLoads] at h
  simp only [performLoadLane, h]
  rfl

theorem performStoreLane_none {ls : List Lane} (h : s.readyStores c sl bypass size ls = []) :
    performStoreLane c sl ls size bypass s = .next s := by
  rw [State.readyStores] at h
  simp only [performStoreLane, h, List.getElem?_nil]

theorem performStoreLane_picked {ls : List Lane} {x : Lane} {p : Nat × State}
    (hp : s.pick (s.readyStores c sl bypass size ls).length = p) (h : (s.readyStores c sl bypass size ls)[p.1]? = some x) :
    performStoreLane c sl ls size bypass s =
      let w := p.2.laneWrite c size ls x
      let u := p.2.writeFor c sl bypass w.1.1 w.1.2
      if w.2 = [] then resume c sl doneLatc u else accessOn c sl (.vstore w.2 size bypass) u := by
  subst hp
  rw [State.readyStores] at h
  simp only [performStoreLane, h]
  rfl

end

section
variable {lanes : List Nat} {bad : Option VAddr} {size group : Nat} {broadcast parked : Bool} {s : State}

/-- Lanes that met no poison stand in their group. -/
theorem lanesLoaded_whole (h : bad = none) : lanesLoaded lanes bad size group broadcast parked s =
    .next (completed (s.updCur fun t => t.setGroup group (packLanes (8 * size)
      (if broadcast then (span 0 (128 / size)).map fun _ => lanes.headD 0 else lanes)) parked)) := by
  rw [h]
  rfl

theorem lanesLoaded_poison {va : VAddr} (h : bad = some va) : lanesLoaded lanes bad size group broadcast parked s = trapAt 12 va s := by
  rw [h]
  rfl

end

end Sys2Proof.Machine

namespace Sys2Proof.Proofs

open Machine Safety

/-- Settles O33: each kind of access is held, or performed whole, or, for lanes, performed by one that is picked. -/
theorem accessReplies : Obligations.AccessReplies := by
  unfold Obligations.AccessReplies
  intro s c sl t v goes
  refine ⟨fun tg size sgn rd bypass acquire hw => ?_, fun tg size data bypass release hw => ?_,
    fun ts got bad size group broadcast bypass hw => ?_, fun ls size bypass hw => ?_, fun latc hw => ?_⟩
  all_goals have hr := replyTo_performs hw nofun nofun
  · intro held r
    refine ⟨fun hh => exec_accessReply_held hw (hr.trans (if_pos hh)), fun hh hp => ?_⟩
    have hl : replyTo c sl s = loadNow tg size sgn (BitVec.ofNat 7 rd) t.light bypass (!acquire) acquire v :=
      hr.trans (if_neg (Bool.eq_false_iff.1 hh))
    exact ⟨fun hn => exec_accessReply_next (hl.trans (loadNow_ok (s := v) hp hn)),
      fun i hi => exec_accessReply_next (hl.trans (loadNow_poison (s := v) hp hi))⟩
  · intro held u w
    exact ⟨fun hh => exec_accessReply_held hw (hr.trans (if_pos hh)),
      fun hh => exec_accessReply_next (hr.trans (if_neg (Bool.eq_false_iff.1 hh)))⟩
  · intro red free
    refine ⟨fun hh => exec_accessReply_held hw (hr.trans ?_), fun hred hf => ?_⟩
    · by_cases hred : red = true
      · exact if_pos hred
      · exact (if_neg hred).trans (performLoadLane_none (hh.resolve_left hred))
    · obtain ⟨x, hx, hpick⟩ := s.pick_mem hf
      have hl := (hr.trans (if_neg (Bool.eq_false_iff.1 hred))).trans (performLoadLane_picked rfl hpick)
      refine ⟨x, hx, fun he => ?_, fun he => ?_⟩
      · exact exec_accessReply_next (hl.trans (if_neg he))
      · replace hl := hl.trans (if_pos he)
        exact ⟨fun hb => exec_accessReply_next (hl.trans (lanesLoaded_whole hb)),
          fun va hb => exec_accessReply_next (hl.trans (lanesLoaded_poison hb))⟩
  · intro red free
    refine ⟨fun hh => exec_accessReply_held hw (hr.trans ?_), fun hred hf => ?_⟩
    · by_cases hred : red = true
      · exact if_pos hred
      · exact (if_neg hred).trans (performStoreLane_none (hh.resolve_left hred))
    · obtain ⟨x, hx, hpick⟩ := s.pick_mem hf
      have hl := (hr.trans (if_neg (Bool.eq_false_iff.1 hred))).trans (performStoreLane_picked rfl hpick)
      exact ⟨x, hx, fun he => exec_accessReply_next (hl.trans (if_neg he)), fun he => exec_accessReply_next (hl.trans (if_pos he))⟩
  · refine exec_accessReply_next (hr.trans ?_)
    cases latc <;> rfl

end Sys2Proof.Proofs
end

section
/-! Lists of lanes, and what an instruction writes to the lanes of a group (spec/05 R107, R114). -/

namespace Sys2Proof.Machine

open Safety

/-! Lanes. -/

theorem group_toNat_ne_zero {k : BitVec 3} (h : k ≠ 0) : k.toNat ≠ 0 :=
  fun c => h (BitVec.eq_of_toNat_eq c)

theorem getElem_lanes (t : Thread) {w k j : Nat} (h : j < (t.lanes w k).length) : (t.lanes w k)[j] = lane t w k j := by
  rw [← List.getD_eq_getElem _ 0 h, getD_lanes _ (length_lanes t w k ▸ h)]

theorem mem_lanes {t : Thread} {w k a : Nat} : a ∈ t.lanes w k ↔ ∃ j < 1024 / w, lane t w k j = a := by
  simp only [List.mem_iff_getElem, getElem_lanes, length_lanes, exists_prop]

theorem laneCount_pos (t : Nat) : 0 < 1024 / laneWidth t := by
  unfold laneWidth
  split <;> decide

theorem laneCount_le (t : Nat) : 1024 / laneWidth t ≤ 128 := by
  unfold laneWidth
  split <;> decide

/-- Without M every lane of a group is enabled. -/
theorem enables_unmasked (t : Thread) {j : Nat} (h : j < 128) : enables t false j = true := by
  rw [enables, Thread.enabled, if_neg (by decide), Nat.testBit_two_pow_sub_one, decide_eq_true h]

/-! Lists of consecutive numbers. -/

theorem span_eq_range' : ∀ a n, span a n = List.range' a n
  | _, 0 => rfl
  | a, n + 1 => congrArg (a :: ·) (span_eq_range' (a + 1) n)

theorem length_span (a n : Nat) : (span a n).length = n := by
  rw [span_eq_range', List.length_range']

theorem getElem_span (a n j : Nat) (h : j < (span a n).length) : (span a n)[j] = a + j := by
  simp only [span_eq_range', List.getElem_range', Nat.one_mul]

/-! Flags. -/

theorem vxf_none : Flags.vxf {} false = 0#7 := by decide

theorem getLsbD_vxf_none (b : Nat) : (Flags.vxf {} false).getLsbD b = false := by
  rw [vxf_none, BitVec.getLsbD_zero]

/-- Flags gathered along a list are those of its results. -/
theorem foldl_flags (b : Nat) : ∀ (rs : List LaneRes) (x : Flags),
    (Flags.vxf (rs.foldl (fun x r => Flags.or x r.2) x) false).getLsbD b = true ↔
      (Flags.vxf x false).getLsbD b = true ∨ ∃ r ∈ rs, (Flags.vxf r.2 false).getLsbD b = true
  | [], x => by simp
  | r :: rs, x => by
    rw [List.foldl_cons, foldl_flags b rs, vxf_or, BitVec.getLsbD_or]
    simp [or_assoc]

/-- Reporting no flag changes nothing. -/
theorem setLanes_addVxf_none (s : State) (k w : Nat) (l : List Nat) (fr : Bool) :
    (s.setLanes k w l fr).addVxf {} false = s.setLanes k w l fr := by
  refine (State.updCur_updCur ..).trans (State.updCur_congr _ ?_)
  rw [vxf_none, BitVec.or_zero]

/-! Instructions that write lanes. -/

/-- The checks of an instruction whose nibble of vs2 holds M. -/
theorem vectorGate_mods {word : InstrWord} {groups : List (BitVec 3)} {n : BitVec 4} {s : State} (k : State → Res)
    (h : vectorReady s [] groups (maskRegs (n.getLsbD 3))) : vectorGate word [] groups (maskRegs (modsOf n).m) k s = k s :=
  vectorGate_ok k h

theorem vectorResult_congr {s u : State} {w k : Nat} {value value' : Nat → Nat} {reports reports' : Nat → Prop}
    (h : vectorResult s u w k value reports) (hv : ∀ j < 1024 / w, value j = value' j) (hr : ∀ b, reports b ↔ reports' b) :
    vectorResult s u w k value' reports' := by
  obtain ⟨hlanes, hflags, hregs, hrest⟩ := h
  exact ⟨fun j hj => hv j hj ▸ hlanes j hj, fun b => (hflags b).trans (or_congr_right (hr b)), hregs, hrest⟩

section
variable {s : State} {i : Instr} {r : Nat → LaneRes} {k w : Nat}

/-- Results put into the low lanes of a group under the mask, given one by one. -/
theorem putLanes_values {m : Bool} {rs : List LaneRes} (sources : List Nat) {count : Nat} (hk : k ≠ 0) (hw : w * (1024 / w) = 1024)
    (hl : rs.length = count) (hc : count ≤ 1024 / w) (hr : ∀ j (h : j < rs.length), rs[j] = r j) :
    vectorResult s (s.putLanes k w m rs sources false).advance w k
      (fun j => if j < count ∧ enables s.cur m j = true then (r j).1 else lane s.cur w k j)
      (fun b => ∃ j < count, enables s.cur m j = true ∧ (Flags.vxf (r j).2 false).getLsbD b = true) := by
  subst hl
  have hg : ∀ j < rs.length, rs.getD j (0, {}) = r j := fun j h => (List.getD_eq_getElem _ _ h).trans (hr j h)
  refine vectorResult_congr (putLanes_result s m rs sources hk hw hc) (fun j _ => ?_) fun b => ?_
  · by_cases h : j < rs.length
    · simp only [hg j h]
    · simp only [h, false_and, if_false]
  · exact exists_congr fun j => and_congr_right fun h => by rw [hg j h]

theorem putLanes_writes {m : Bool} {rs : List LaneRes} {sources : List Nat} {count : Nat}
    (he : exec i s = done (s.putLanes k w m rs sources false)) (hk : k ≠ 0) (hw : w * (1024 / w) = 1024)
    (hl : rs.length = count) (hc : count ≤ 1024 / w) (hr : ∀ j (h : j < rs.length), rs[j] = r j) :
    writesLanes s i w count k m r :=
  ⟨_, he, putLanes_values sources hk hw hl hc hr⟩

/-- All lanes of a group written, with flags gathered over them. -/
theorem setLanes_writes {t : Nat} {l : List Nat} {fr : Bool} {fl : Flags}
    (he : exec i s = done ((s.setLanes k (laneWidth t) l fr).addVxf fl false)) (hk : k ≠ 0)
    (hl : ∀ j < 1024 / laneWidth t, l.getD j 0 = (r j).1)
    (hf : ∀ b, (Flags.vxf fl false).getLsbD b = true ↔ ∃ j < 1024 / laneWidth t, (Flags.vxf (r j).2 false).getLsbD b = true) :
    writesLanes s i (laneWidth t) (1024 / laneWidth t) k false r := by
  have hen : ∀ j < 1024 / laneWidth t, enables s.cur false j = true :=
    fun j hj => enables_unmasked _ (hj.trans_le (laneCount_le t))
  refine ⟨_, he, vectorResult_congr (setLanes_flags_result s l fr fl false hk (laneWidth_lanes t)) (fun j hj => ?_) fun b => (hf b).trans ?_⟩
  · simp only [hj, hen j hj, and_self, if_true, hl j hj]
  · exact exists_congr fun j => and_congr_right fun hj => by simp only [hen j hj, true_and]

/-- The same without flags. -/
theorem setLanes_writes_quietly {t : Nat} {l : List Nat} {fr : Bool} {v : Nat → Nat}
    (he : exec i s = done (s.setLanes k (laneWidth t) l fr)) (hk : k ≠ 0) (hl : ∀ j < 1024 / laneWidth t, l.getD j 0 = v j) :
    writesLanes s i (laneWidth t) (1024 / laneWidth t) k false fun j => (v j, {}) :=
  setLanes_writes (fl := {}) (by rw [he, setLanes_addVxf_none]) hk hl fun b => by simp [getLsbD_vxf_none]

/-- A result in lane 0, and 0 in every other lane. -/
theorem setLanes_writes_lane0 {t : Nat} {x : LaneRes} {fr : Bool}
    (he : exec i s = done ((s.setLanes k (laneWidth t) [x.1] fr).addVxf x.2 false)) (hk : k ≠ 0) :
    writesLanes s i (laneWidth t) (1024 / laneWidth t) k false fun j => if j = 0 then x else (0, {}) := by
  refine setLanes_writes he hk (fun j _ => ?_) fun b => ⟨fun h => ⟨0, laneCount_pos t, h⟩, ?_⟩
  · cases j <;> rfl
  · rintro ⟨j, -, h⟩
    cases j with
    | zero => exact h
    | succ j => exact absurd h (by simp [getLsbD_vxf_none])

end

/-! What goes on after lanes were put. -/

/-- An update that goes on at the next word as the thread does may come before it or after. -/
theorem State.advance_updCur (s : State) {f : Thread → Thread}
    (h : ∀ t : Thread, { (f t).over with pc := (f t).pc + 4 } = f { t.over with pc := t.pc + 4 }) :
    (s.updCur f).advance = s.advance.updCur f := by
  rw [State.advance, State.advance, State.updCur_updCur, State.updCur_updCur]
  exact State.updCur_congr _ (h s.cur)

theorem putLanes_updCur_id (s : State) (k w : Nat) (m : Bool) (rs : List LaneRes) (sources : List Nat) (tb : Bool) :
    ((s.putLanes k w m rs sources tb).updCur fun u => u) = s.putLanes k w m rs sources tb := by
  simp only [State.putLanes, State.addVxf, State.updCur_updCur]

/-- Fresh marks and flags gained before going on. -/
theorem vectorResult_gain {u : State} {w k : Nat} {value : Nat → Nat} {reports : Nat → Prop} (fr : BitVec 128) (fl : BitVec 7)
    (h : vectorResult s u.advance w k value reports) :
    vectorResult s (u.updCur fun t => { t with fresh := t.fresh ||| fr, vxf := t.vxf ||| fl }).advance w k value
      fun b => reports b ∨ fl.getLsbD b = true := by
  obtain ⟨hlanes, hflags, hregs, hrest⟩ := h
  rw [State.cur_advance] at hlanes hflags hregs hrest
  rw [vectorResult, State.cur_advance, State.cur_updCur]
  refine ⟨hlanes, fun b => ?_, hregs, ?_⟩
  · rw [BitVec.getLsbD_or, Bool.or_eq_true, hflags b, or_assoc]
  · rw [State.advance_updCur _ fun _ => rfl, hrest, ← State.advance_updCur _ fun _ => rfl, State.updCur_updCur]

end Sys2Proof.Machine
end

section
/-! Vector loads and stores (spec/05 R116, R117): lanes that all reach their targets. -/

namespace Sys2Proof.Machine

open Safety

/-- Every lane is aligned, translates, and its device answers. -/
def lanesReach (s : State) (need : Need) (size : Nat) (vas : List VAddr) (ts : List Target) : Prop :=
  (∀ va ∈ vas, va.off.toNat % size = 0) ∧
  List.Forall₂ (fun va t => s.xlate s.ic s.is need va = .ok t ∧ s.unreachable t = false) vas ts

/-- Some lane shares a byte with a pending RED of the thread (spec/12 R271). -/
def State.lanesRed (s : State) (size : Nat) (ts : List Target) : Bool := ts.any fun t => s.cur.redOverlap t.place size

theorem find_misaligned {size : Nat} {vas : List VAddr} (h : ∀ va ∈ vas, va.off.toNat % size = 0) :
    (vas.find? fun va => va.off.toNat % size != 0) = none :=
  List.find?_eq_none.2 fun va hva => by simp [h va hva]

section
variable {s : State} {size group : Nat} {broadcast bypass : Bool} {vas : List VAddr} {ts : List Target}

/-! A vector load whose lanes reach their targets. -/

theorem vload_reached (h : lanesReach s { r := true } size vas ts) :
    vload size group broadcast vas bypass s =
      if !s.lanesRed size ts && ts.all fun t => s.fixed bypass false t size then
        granted (ts.map s.bankOf).flatten (vloadNow ts size group broadcast bypass) s
      else parkAccess (.vload ((span 0 ts.length).zip ts) [] none size group broadcast (bypass || s.lanesRed size ts)) s := by
  obtain ⟨ha, hx⟩ := h
  simp only [vload, find_misaligned ha]
  exact accessAll_ok _ hx

theorem vload_forfeits (h : lanesReach s { r := true } size vas ts) (hr : s.lanesRed size ts = false)
    (hf : ∀ t ∈ ts, s.fixed bypass false t size = true) (hg : banksGrant s (ts.map s.bankOf).flatten = false) :
    vload size group broadcast vas bypass s = .next (forfeited s (ts.map s.bankOf).flatten) := by
  rw [vload_reached h, hr, List.all_eq_true.2 hf]
  exact (if_pos rfl).trans (granted_refused _ hg)

theorem vload_fixed (h : lanesReach s { r := true } size vas ts) (hr : s.lanesRed size ts = false)
    (hf : ∀ t ∈ ts, s.fixed bypass false t size = true) (hg : banksGrant s (ts.map s.bankOf).flatten = true) :
    vload size group broadcast vas bypass s = vloadNow ts size group broadcast bypass s := by
  rw [vload_reached h, hr, List.all_eq_true.2 hf]
  exact (if_pos rfl).trans (granted_ok _ hg)

theorem vload_parks (h : lanesReach s { r := true } size vas ts)
    (hn : s.lanesRed size ts = true ∨ (ts.all fun t => s.fixed bypass false t size) = false) :
    vload size group broadcast vas bypass s =
      .next (parked s (.access (.vload ((span 0 ts.length).zip ts) [] none size group broadcast (bypass || s.lanesRed size ts)))
        (.accessReply s.ic s.is)) := by
  rw [vload_reached h, if_neg (by rcases hn with hn | hn <;> simp [hn])]
  rfl

/-! A vector store whose lanes reach their targets. -/

/-- The lanes of a store with their bytes. -/
def storeLanes (ts : List Target) (lanes : List Nat) : List Lane := ts.zip (lanes.map fun v => BitVec.ofNat 32 v)

variable {lanes : List Nat}

theorem vstore_reached (h : lanesReach s { w := true } size vas ts) :
    vstore size lanes vas bypass s =
      if !s.lanesRed size ts && ts.all fun t => s.fixed bypass true t size then
        granted (ts.map s.bankOf).flatten
          (fun s => doneLatc (s.writeLanes s.ic s.is bypass size (storeLanes ts lanes).length (storeLanes ts lanes))) s
      else parkAccess (.vstore (storeLanes ts lanes) size (bypass || s.lanesRed size ts)) s := by
  obtain ⟨ha, hx⟩ := h
  simp only [vstore, find_misaligned ha]
  exact accessAll_ok _ hx

theorem vstore_forfeits (h : lanesReach s { w := true } size vas ts) (hr : s.lanesRed size ts = false)
    (hf : ∀ t ∈ ts, s.fixed bypass true t size = true) (hg : banksGrant s (ts.map s.bankOf).flatten = false) :
    vstore size lanes vas bypass s = .next (forfeited s (ts.map s.bankOf).flatten) := by
  rw [vstore_reached h, hr, List.all_eq_true.2 hf]
  exact (if_pos rfl).trans (granted_refused _ hg)

theorem vstore_fixed (h : lanesReach s { w := true } size vas ts) (hr : s.lanesRed size ts = false)
    (hf : ∀ t ∈ ts, s.fixed bypass true t size = true) (hg : banksGrant s (ts.map s.bankOf).flatten = true) :
    vstore size lanes vas bypass s =
      .next (completed (s.writeLanes s.ic s.is bypass size (storeLanes ts lanes).length (storeLanes ts lanes))) := by
  rw [vstore_reached h, hr, List.all_eq_true.2 hf]
  exact (if_pos rfl).trans (granted_ok _ hg)

theorem vstore_parks (h : lanesReach s { w := true } size vas ts)
    (hn : s.lanesRed size ts = true ∨ (ts.all fun t => s.fixed bypass true t size) = false) :
    vstore size lanes vas bypass s =
      .next (parked s (.access (.vstore (storeLanes ts lanes) size (bypass || s.lanesRed size ts))) (.accessReply s.ic s.is)) := by
  rw [vstore_reached h, if_neg (by rcases hn with hn | hn <;> simp [hn])]
  rfl

end

/-! What the instructions come to. -/

section
variable {s : State} {k : BitVec 3} {b a : BitVec 7} {t : BitVec 4}

theorem exec_vld (h : vectorReady s [a] [k] []) : exec (.vld a k t) s =
    vload (laneBytes t) k.toNat false (laneAddrs s.cur.space (X s a) (BitVec.ofNat 64 (laneBytes t)) (128 / laneBytes t)) (bypasses s a) s := by
  show vloadOp (wordVld a k t) [a] a (unitStride t) k t s = _
  rw [vloadOp, vectorGate_ok _ h]
  simp only [unitStride, Bool.or_false]
  rfl

theorem exec_vlds (h : vectorReady s [a, b] [k] []) : exec (.vlds b a k t) s =
    vload (laneBytes t) k.toNat false (laneAddrs s.cur.space (X s a) (X s b) (128 / laneBytes t)) (bypasses s a || fresh s [b]) s := by
  show vloadOp (wordVlds b a k t) [a, b] a (fun s => s.cur.opnd b) k t s = _
  rw [vloadOp, vectorGate_ok _ h]
  simp only [fresh, List.any_cons, List.any_nil, Bool.or_false]
  rfl

theorem exec_vldb (h : vectorReady s [a] [k] []) : exec (.vldb a k t) s =
    vload (laneBytes t) k.toNat true [⟨s.cur.space, X s a⟩] (bypasses s a) s := by
  show execVldb a k t s = _
  rw [execVldb, vectorGate_ok _ h]
  rfl

theorem exec_vst (h : vectorReady s [a] [k] []) : exec (.vst a k t) s =
    vstore (laneBytes t) (unpackLanes (8 * laneBytes t) (s.cur.group k.toNat) (128 / laneBytes t))
      (laneAddrs s.cur.space (X s a) (BitVec.ofNat 64 (laneBytes t)) (128 / laneBytes t)) (bypasses s a) s := by
  show vstoreOp (wordVst a k t) [a] a (unitStride t) k t s = _
  rw [vstoreOp, vectorGate_ok _ h]
  simp only [unitStride, Bool.or_false]
  rfl

theorem exec_vsts (h : vectorReady s [a, b] [k] []) : exec (.vsts b a k t) s =
    vstore (laneBytes t) (unpackLanes (8 * laneBytes t) (s.cur.group k.toNat) (128 / laneBytes t))
      (laneAddrs s.cur.space (X s a) (X s b) (128 / laneBytes t)) (bypasses s a || fresh s [b]) s := by
  show vstoreOp (wordVsts b a k t) [a, b] a (fun s => s.cur.opnd b) k t s = _
  rw [vstoreOp, vectorGate_ok _ h]
  simp only [fresh, List.any_cons, List.any_nil, Bool.or_false]
  rfl

end

/-- VLDB's one element in every lane. -/
theorem broadcast_lanes (n : Nat) (l : List Nat) :
    (if true = true then (span 0 n).map fun _ => l.headD 0 else l) = List.replicate n (l.headD 0) := by
  rw [if_pos rfl, List.map_const', length_span]

end Sys2Proof.Machine

namespace Sys2Proof.Proofs

open Machine Safety

/-- Settles O23: a load or store whose lanes reach their targets is fixed-latency and granted, fixed-latency and refused, or neither. -/
theorem vectorMemory : Obligations.VectorMemory := by
  unfold Obligations.VectorMemory
  intro s b a k t ts w group red banks ready load store at_
  have hload {i regs vas fr} (lanes : List Nat → List Nat) (bc : Bool)
      (hi : vectorReady s regs [k] [] → exec i s = vload w k.toNat bc vas fr s)
      (hl : ∀ l : List Nat, (if bc = true then (span 0 (128 / w)).map fun _ => l.headD 0 else l) = lanes l) :
      load i regs vas lanes fr := by
    rintro ⟨hv, hreach⟩
    rw [hi hv]
    refine ⟨fun hr hf hg => vload_forfeits hreach hr hf hg, fun hr hf hg => ?_, fun hn => ⟨bc, vload_parks hreach hn⟩⟩
    rw [vload_fixed hreach hr hf hg]
    exact ⟨fun hp => (lanesLoaded_whole hp).trans (by rw [hl]), fun va hp => lanesLoaded_poison hp⟩
  have hstore {i regs vas fr}
      (hi : vectorReady s regs [k] [] →
        exec i s = vstore w (unpackLanes (8 * w) (s.cur.group k.toNat) (128 / w)) vas fr s) : store i regs vas fr := by
    rintro ⟨hv, hreach⟩
    rw [hi hv]
    exact ⟨fun hr hf hg => vstore_forfeits hreach hr hf hg, fun hr hf hg => vstore_fixed hreach hr hf hg, fun hn => vstore_parks hreach hn⟩
  exact ⟨hload id false exec_vld fun _ => rfl, hload id false exec_vlds fun _ => rfl,
    hload (fun l => List.replicate (128 / w) (l.headD 0)) true exec_vldb (broadcast_lanes _), hstore exec_vst, hstore exec_vsts⟩

end Sys2Proof.Proofs
end

section
/-! The lanewise instructions (spec/05 R118, R119, R121). -/

namespace Sys2Proof.Machine

open Safety

/-- A lanewise instruction, with the lanes of its sources in place. -/
theorem lanewise_writes {word : InstrWord} {t : Nat} {g h k : BitVec 3} {mod_ : BitVec 4} {m : Bool}
    {f : Nat → Nat → Nat → LaneRes} {s : State} {i : Instr} {r : Nat → LaneRes}
    (he : exec i s = lanewise word (laneWidth t) g h k (mod_ = 1) m f s) (hv : vectorReady s [] [k, h, g] (maskRegs m)) (hk : k ≠ 0)
    (hr : ∀ j, f (lane s.cur (laneWidth t) h.toNat j) (lane s.cur (laneWidth t) g.toNat (if mod_ = 1 then 0 else j))
      (lane s.cur (laneWidth t) k.toNat j) = r j) :
    writesLanes s i (laneWidth t) (1024 / laneWidth t) k.toNat m r := by
  obtain rfl : _ = r := funext hr
  have h := lanewise_result (w := word) (bc := mod_ = 1) f hv hk (laneWidth_lanes t) (laneCount_pos t)
  simp only [decide_eq_true_eq] at h
  rwa [writesLanes, he]

end Sys2Proof.Machine

namespace Sys2Proof.Proofs

open Machine Safety

/-- Settles O24: each instruction is the lanewise shape with its own formula. -/
theorem lanewiseResults : Obligations.LanewiseResults := by
  unfold Obligations.LanewiseResults
  intro s g h k n m t x y r w e M S RM a b c hk
  refine ⟨fun hv => ?_, fun hv => ?_⟩
  · exact ⟨lanewise_writes (rfl : exec (.vadd g n h m k t) s = execVadd g n h m k t s) hv hk fun _ => rfl,
      lanewise_writes (rfl : exec (.vsub g n h m k t) s = execVsub g n h m k t s) hv hk fun _ => rfl,
      lanewise_writes (rfl : exec (.vmul g n h m k t) s = execVmul g n h m k t s) hv hk fun _ => rfl,
      lanewise_writes (rfl : exec (.vfma g n h m k t) s = execVfma g n h m k t s) hv hk fun _ => rfl,
      lanewise_writes (rfl : exec (.vfms g n h m k t) s = execVfms g n h m k t s) hv hk fun _ => rfl⟩
  · exact ⟨lanewise_writes (rfl : exec (.vmin g x h m k t) s = execVmin g x h m k t s) hv hk fun _ => rfl,
      lanewise_writes (rfl : exec (.vmax g x h m k t) s = execVmax g x h m k t s) hv hk fun _ => rfl,
      lanewise_writes (rfl : exec (.vand g x h m k t) s = execVand g x h m k t s) hv hk fun _ => rfl,
      lanewise_writes (rfl : exec (.vor g x h m k t) s = execVor g x h m k t s) hv hk fun _ => rfl,
      lanewise_writes (rfl : exec (.vxor g x h m k t) s = execVxor g x h m k t s) hv hk fun _ => rfl,
      lanewise_writes (rfl : exec (.vshl g x y h m k t) s = execVshl g x y h m k t s) hv hk fun _ => rfl,
      lanewise_writes (rfl : exec (.vshr g x r h m k t) s = execVshr g x r h m k t s) hv hk fun _ => rfl⟩

end Sys2Proof.Proofs
end

section
/-! The unary instructions, broadcast, selection and reductions (spec/05 R119, R121 to R123). -/

namespace Sys2Proof.Machine

open Safety

/-- Selected lanes, one by one. -/
theorem getD_selectLanes (mask : Nat) : ∀ (as bs : List Nat) (i j : Nat), as.length = bs.length → j < as.length →
    (selectLanes mask i as bs).getD j 0 = if mask.testBit (i + j) then as.getD j 0 else bs.getD j 0
  | [], _, _, _, _, hj => absurd hj (Nat.not_lt_zero _)
  | _ :: _, [], _, _, hl, _ => absurd hl (by simp)
  | a :: as, b :: bs, i, 0, _, _ => rfl
  | a :: as, b :: bs, i, j + 1, hl, hj => by
    rw [selectLanes, List.getD_cons_succ, getD_selectLanes mask as bs (i + 1) j (by simpa using hl) (by simpa using hj),
      List.getD_cons_succ, List.getD_cons_succ, Nat.add_right_comm, Nat.add_assoc]

section
variable {s : State} {i : Instr} {r : Nat → LaneRes} {g h k : BitVec 3} {t : BitVec 4}

theorem unaryLanes_writes {word : InstrWord} {f : Nat → LaneRes} (he : exec i s = unaryLanes word h k t f s)
    (hv : vectorReady s [] [k, h] []) (hk : k ≠ 0) (hr : ∀ j, f (lane s.cur (laneWidth t.toNat) h.toNat j) = r j) :
    writesLanes s i (laneWidth t.toNat) (1024 / laneWidth t.toNat) k.toNat false r := by
  rw [unaryLanes, vectorGate_ok _ hv] at he
  refine setLanes_writes he (group_toNat_ne_zero hk) (fun j hj => ?_) fun b => ?_
  · rw [List.map_map, List.getD_eq_getElem _ _ (by rwa [List.length_map, length_lanes]), List.getElem_map, getElem_lanes,
      Function.comp_apply, hr]
  · simp only [foldl_flags, getLsbD_vxf_none, List.mem_map, mem_lanes, Bool.false_eq_true, false_or]
    constructor
    · rintro ⟨_, ⟨_, ⟨j, hj, rfl⟩, rfl⟩, hb⟩
      exact ⟨j, hj, hr j ▸ hb⟩
    · rintro ⟨j, hj, hb⟩
      exact ⟨_, ⟨_, ⟨j, hj, rfl⟩, rfl⟩, (hr j).symm ▸ hb⟩

theorem vbcast_writes (hv : vectorReady s [] [k, h] []) (hk : k ≠ 0) :
    writesLanes s (.vbcast h k t) (laneWidth t.toNat) (1024 / laneWidth t.toNat) k.toNat false
      fun _ => (lane s.cur (laneWidth t.toNat) h.toNat 0, {}) := by
  have he : exec (.vbcast h k t) s = execVbcast h k t s := rfl
  rw [execVbcast, vectorGate_ok _ hv] at he
  refine setLanes_writes_quietly he (group_toNat_ne_zero hk) fun j hj => ?_
  rw [getD_broadcastFirst _ _ (by rwa [length_lanes]), getD_lanes _ (laneCount_pos _)]

theorem vsel_writes (hv : vectorReady s [] [k, h, g] [12, 13]) (hk : k ≠ 0) :
    writesLanes s (.vsel g h k t) (laneWidth t.toNat) (1024 / laneWidth t.toNat) k.toNat false
      fun j => (if s.cur.mask.testBit j then lane s.cur (laneWidth t.toNat) h.toNat j else lane s.cur (laneWidth t.toNat) g.toNat j, {}) := by
  have he : exec (.vsel g h k t) s = execVsel g h k t s := rfl
  rw [execVsel, vectorGate_ok _ hv] at he
  refine setLanes_writes_quietly he (group_toNat_ne_zero hk) fun j hj => ?_
  rw [getD_selectLanes _ _ _ _ _ (by rw [length_lanes, length_lanes]) (by rwa [length_lanes]), getD_lanes _ hj, getD_lanes _ hj, Nat.zero_add]

theorem vsqn_writes (hv : vectorReady s [] [k, h] []) (hk : k ≠ 0) :
    let e := squaredNorm (elemOf t.toNat) (s.cur.lanes (laneWidth t.toNat) h.toNat)
    let q := roundFlt .fp32 e.1 false .rne false
    writesLanes s (.vsqn h k t) 32 32 k.toNat false fun j => if j = 0 then (q.1, Flags.or e.2.2 q.2) else (0, {}) := by
  have he : exec (.vsqn h k t) s = execVsqn h k t s := rfl
  rw [execVsqn, vectorGate_ok _ hv] at he
  exact setLanes_writes_lane0 (t := 2) he (group_toNat_ne_zero hk)

theorem vred_writes {y : BitVec 1} {rm : BitVec 2} {m : BitVec 4} (hv : vectorReady s [] [k, h] []) (hk : k ≠ 0) :
    writesLanes s (.vred y rm h m k t) (laneWidth t.toNat) (1024 / laneWidth t.toNat) k.toNat false fun j =>
      if j = 0 then reduce (elemOf t.toNat) m.toNat (y = 1) (rmOf rm.toNat) (s.cur.lanes (laneWidth t.toNat) h.toNat) else (0, {}) := by
  have he : exec (.vred y rm h m k t) s = execVred y rm h m k t s := rfl
  rw [execVred, vectorGate_ok _ hv] at he
  exact setLanes_writes_lane0 he (group_toNat_ne_zero hk)

end

end Sys2Proof.Machine

namespace Sys2Proof.Proofs

open Machine Safety

/-- Settles O25: the unary shape with each function, and what broadcast, norm, reduction and selection write. -/
theorem unaryResults : Obligations.UnaryResults := by
  unfold Obligations.UnaryResults
  intro s g h k t m y r w e a all hk
  refine ⟨fun hv => ⟨?_, ?_, ?_, ?_, ?_, ?_, vbcast_writes hv hk, vsqn_writes hv hk, vred_writes hv hk⟩, fun hv => vsel_writes hv hk⟩
  · exact unaryLanes_writes (rfl : exec (.vabs h k t) s = execVabs h k t s) hv hk fun _ => rfl
  · exact unaryLanes_writes (rfl : exec (.vneg h k t) s = execVneg h k t s) hv hk fun _ => rfl
  · exact unaryLanes_writes (rfl : exec (.vrcp h k t) s = execVrcp h k t s) hv hk fun _ => rfl
  · exact unaryLanes_writes (rfl : exec (.vrsq h k t) s = execVrsq h k t s) hv hk fun _ => rfl
  · exact unaryLanes_writes (rfl : exec (.vexp2 h k t) s = execVexp2 h k t s) hv hk fun _ => rfl
  · exact unaryLanes_writes (rfl : exec (.vlog2 h k t) s = execVlog2 h k t s) hv hk fun _ => rfl

end Sys2Proof.Proofs
end

section
/-! VCMP (spec/05 R120): the mask that a comparison writes. -/

namespace Sys2Proof.Machine

open Safety

/-! The compared lanes. -/

/-- VCMP compares lane i: M is 0, or the old mask enables it. -/
def compares (m : Bool) (mask i : Nat) : Bool := !(m && !mask.testBit i)

section
variable (t : Elem) (rel : Nat) (m : Bool) (mask : Nat)

theorem compareLanes_cons (i a b : Nat) (as bs : List Nat) :
    compareLanes t rel m mask i (a :: as) (b :: bs) =
      let x := compareLanes t rel m mask (i + 1) as bs
      if compares m mask i then ((laneRel t rel a b).1 :: x.1, Flags.or (laneRel t rel a b).2 x.2) else (false :: x.1, x.2) := by
  rw [compareLanes, compares]
  cases m && !mask.testBit i <;> rfl

/-- A compared lane's bit is its relation, and another's is 0. -/
theorem getD_compareLanes : ∀ (as bs : List Nat) (i j : Nat), as.length = bs.length →
    (compareLanes t rel m mask i as bs).1.getD j false =
      (decide (j < as.length) && compares m mask (i + j) && (laneRel t rel (as.getD j 0) (bs.getD j 0)).1)
  | [], _, _, _, _ => by simp [compareLanes]
  | _ :: _, [], _, _, hl => absurd hl (by simp)
  | a :: as, b :: bs, i, 0, _ => by
    rw [compareLanes_cons, Nat.add_zero]
    cases compares m mask i <;> simp
  | a :: as, b :: bs, i, j + 1, hl => by
    have ih := getD_compareLanes as bs (i + 1) j (by simpa using hl)
    rw [Nat.add_right_comm, Nat.add_assoc] at ih
    rw [compareLanes_cons]
    cases compares m mask i <;> simpa using ih

/-- The flags of a comparison are those of its compared lanes. -/
theorem compareLanes_flags (b : Nat) : ∀ (as bs : List Nat) (i : Nat), as.length = bs.length →
    ((Flags.vxf (compareLanes t rel m mask i as bs).2 false).getLsbD b = true ↔
      ∃ j < as.length, compares m mask (i + j) = true ∧ (Flags.vxf (laneRel t rel (as.getD j 0) (bs.getD j 0)).2 false).getLsbD b = true)
  | [], _, _, _ => by simp [compareLanes, getLsbD_vxf_none]
  | _ :: _, [], _, hl => absurd hl (by simp)
  | x :: as, y :: bs, i, hl => by
    have ih := compareLanes_flags b as bs (i + 1) (by simpa using hl)
    rw [compareLanes_cons, List.length_cons, Nat.exists_lt_succ_left]
    simp only [List.getD_cons_zero, List.getD_cons_succ, Nat.add_zero, ← Nat.add_assoc, Nat.add_right_comm i _ 1, ← ih]
    cases compares m mask i <;> simp [vxf_or]

end

/-! The mask as a number. -/

theorem testBit_bitsNat : ∀ (l : List Bool) (j : Nat), (bitsNat l).testBit j = l.getD j false
  | [], j => by simp [bitsNat]
  | b :: r, 0 => by cases b <;> simp [bitsNat, Nat.testBit_zero]
  | b :: r, j + 1 => by
    have h : ((if b then 1 else 0) + 2 * bitsNat r) / 2 = bitsNat r := by split <;> omega
    rw [bitsNat, Nat.testBit_succ, h, testBit_bitsNat r j, List.getD_cons_succ]

/-- The mask registers g12 and g13 with the bits of a number. -/
def Thread.setMask (t : Thread) (v : Nat) (fresh : Bool) : Thread :=
  (t.setReg 12 (BitVec.ofNat 64 v) fresh).setReg 13 (BitVec.ofNat 64 (v / 2 ^ 64)) fresh

theorem Thread.mask_setMask (t : Thread) (v : Nat) (fresh : Bool) : (t.setMask v fresh).mask = v % 2 ^ 128 := by
  rw [Thread.mask, Thread.setMask, Thread.reg_setReg_self _ _ _ (by decide), Thread.reg_setReg_other _ _ _ (by decide),
    Thread.reg_setReg_self _ _ _ (by decide), BitVec.toNat_ofNat, BitVec.toNat_ofNat, ← Nat.mod_mul, ← Nat.pow_add]

theorem Thread.reg_setMask_other (t : Thread) (v : Nat) (fresh : Bool) {n : Nat} (h12 : n ≠ 12) (h13 : n ≠ 13) :
    (t.setMask v fresh).reg n = t.reg n := by
  rw [Thread.setMask, Thread.reg_setReg_other _ _ _ h13, Thread.reg_setReg_other _ _ _ h12]

/-- The issuing thread's mask is written, with flags. -/
theorem setMask_result (s : State) (v : Nat) (fresh : Bool) (fl : Flags) :
    ∃ u, done ((s.updCur fun t => t.setMask v fresh).addVxf fl false) = .next u ∧
      u.cur.mask = v % 2 ^ 128 ∧ u.cur.vxf = s.cur.vxf ||| Flags.vxf fl false ∧
      (∀ n, n ≠ 12 → n ≠ 13 → u.cur.reg n = s.cur.reg n) ∧
      u = (s.updCur fun t => { t with regs := u.cur.regs, fresh := u.cur.fresh, vxf := u.cur.vxf }).advance := by
  have hu : (s.updCur fun t => t.setMask v fresh).addVxf fl false = s.updCur fun t =>
      { t with regs := (s.cur.setMask v fresh).regs, fresh := (s.cur.setMask v fresh).fresh, vxf := t.vxf ||| Flags.vxf fl false } :=
    (State.updCur_updCur ..).trans (State.updCur_congr _ rfl)
  rw [hu]
  refine ⟨_, rfl, ?_⟩
  rw [State.cur_advance, State.cur_updCur]
  refine ⟨?_, rfl, fun n h12 h13 => ?_, congrArg State.advance (State.updCur_congr _ rfl)⟩
  · exact Thread.mask_setMask s.cur v fresh
  · exact Thread.reg_setMask_other s.cur v fresh h12 h13

theorem exec_vcmp {s : State} {g h : BitVec 3} {x : BitVec 1} {m t : BitVec 4} (hv : vectorReady s [] [h, g] [12, 13]) :
    let r := compareLanes (elemOf t.toNat) m.toNat (x = 1) s.cur.mask 0 (s.cur.lanes (laneWidth t.toNat) h.toNat)
      (s.cur.lanes (laneWidth t.toNat) g.toNat)
    exec (.vcmp g x h m t) s =
      done ((s.updCur fun u => u.setMask (bitsNat r.1) (s.cur.vecFresh [g.toNat, h.toNat] (x = 1))).addVxf r.2 false) := by
  show execVcmp g x h m t s = _
  rw [execVcmp, vectorGate_ok _ hv]
  rfl

end Sys2Proof.Machine

namespace Sys2Proof.Proofs

open Machine Safety

/-- Settles O26: the bits and the flags of the compared lanes, and the two mask registers that they are written to. -/
theorem compareResults : Obligations.CompareResults := by
  unfold Obligations.CompareResults
  intro s g h x m t hv w e rel compared
  have hcompared (j : Nat) : compared j = (decide (j < 1024 / w) && compares (x = 1) s.cur.mask j) := by
    have hx : x = 0 ∨ x = 1 := by revert x; decide
    rcases hx with rfl | rfl <;> simp [compared, compares]
  have hlen : (s.cur.lanes w h.toNat).length = (s.cur.lanes w g.toNat).length := by rw [length_lanes, length_lanes]
  obtain ⟨u, hu, hmask, hvxf, hregs, hrest⟩ := setMask_result s _ _ _
  refine ⟨u, (exec_vcmp hv).trans hu, fun j hj => ?_, fun b => ?_, hregs, hrest⟩
  · rw [hmask, Nat.testBit_mod_two_pow, decide_eq_true hj, Bool.true_and, testBit_bitsNat, getD_compareLanes _ _ _ _ _ _ _ _ hlen,
      hcompared, length_lanes, Nat.zero_add]
    by_cases hw : j < 1024 / w
    · rw [getD_lanes _ hw, getD_lanes _ hw]
    · simp [hw]
  · rw [hvxf, BitVec.getLsbD_or, Bool.or_eq_true, compareLanes_flags _ _ _ _ _ _ _ _ hlen, length_lanes]
    refine or_congr_right (exists_congr fun j => ?_)
    rw [hcompared, Nat.zero_add, Bool.and_eq_true, decide_eq_true_eq, and_assoc]
    exact and_congr_right fun hw => by rw [getD_lanes _ hw, getD_lanes _ hw]

end Sys2Proof.Proofs
end

section
/-! Vector conversions, the decode table and block scales (spec/05 R125 to R129). -/

namespace Sys2Proof.Machine

open Safety

/-! Lanes with their numbers. -/

theorem length_indexed : ∀ (i : Nat) (l : List Nat), (indexed i l).length = l.length
  | _, [] => rfl
  | i, _ :: r => congrArg (· + 1) (length_indexed (i + 1) r)

theorem getElem_indexed : ∀ (i : Nat) (l : List Nat) (j : Nat) (h : j < (indexed i l).length),
    (indexed i l)[j] = (i + j, l[j]'(length_indexed i l ▸ h))
  | _, [], _, h => absurd h (Nat.not_lt_zero _)
  | _, _ :: _, 0, _ => rfl
  | i, _ :: r, j + 1, h => by
    simp only [indexed, List.getElem_cons_succ, getElem_indexed (i + 1) r, Nat.add_right_comm, Nat.add_assoc]

/-! What VCVT leaves of VSRC. -/

theorem Thread.vsrc_setGroup (t : Thread) (k v : Nat) (f : Bool) : (t.setGroup k v f).vsrc = t.vsrc := by
  obtain ⟨r, m, h⟩ := t.setGroup_eq k v f
  rw [h]

theorem State.vsrc_putLanes (s : State) (k w : Nat) (m : Bool) (rs : List LaneRes) (sources : List Nat) (tb : Bool) :
    (s.putLanes k w m rs sources tb).cur.vsrc = s.cur.vsrc := by
  simp only [State.putLanes, State.addVxf, State.setLanes, State.cur_updCur, Thread.vsrc_setGroup]

/-! VCVT. -/

/-- VCVT's results: as many low lanes as both types have, each rounded by the mode of its lane. -/
def convertLanes (src dst : Elem) (sat : Bool) (rm : Nat → Rm) (count : Nat) (l : List Nat) : List LaneRes :=
  ((indexed 0 l).take count).map fun p => laneConvert src dst sat (rm p.1) p.2

theorem length_convertLanes (src dst : Elem) (sat : Bool) (rm : Nat → Rm) (count : Nat) (l : List Nat) :
    (convertLanes src dst sat rm count l).length = min count l.length := by
  simp only [convertLanes, List.length_map, List.length_take, length_indexed]

/-- VSRC after a stochastic conversion: ROW advances. -/
def nextRow (v : BitVec 37) : BitVec 37 := v.extractLsb' 16 21 ++ (v.extractLsb' 0 16 + 1#16)

section
variable {s : State} {g h k : BitVec 3} {n m t : BitVec 4} {x : BitVec 1} {table : DecodeTable}

/-- The rounding mode of a lane of VCVT: RM, or the draw of the lane under VSRC.EN. -/
def State.convertMode (s : State) (n : BitVec 4) (j : Nat) : Rm :=
  if s.cur.vsrc.getLsbD 36 then
    .sr (srU ((s.core s.ic).seedSeen s.is (fld s.cur.vsrc.toNat 35 32)).value (fld s.cur.vsrc.toNat 15 0) j (fld s.cur.vsrc.toNat 31 16))
  else rmOf (n.toNat % 4)

/-- VCVT's results put into their group. -/
def State.converted (s : State) (n : BitVec 4) (h : BitVec 3) (m : BitVec 4) (k : BitVec 3) (t : BitVec 4) : State :=
  s.putLanes k.toNat (laneWidth t.toNat) (n.getLsbD 3)
    (convertLanes (elemOf m.toNat) (elemOf t.toNat) (n.getLsbD 2) (s.convertMode n)
      (min (1024 / laneWidth m.toNat) (1024 / laneWidth t.toNat)) (s.cur.lanes (laneWidth m.toNat) h.toNat)) [h.toNat] false

theorem exec_vcvt (hv : vectorReady s [] [k, h] (maskRegs (n.getLsbD 3))) : exec (.vcvt n h m k t) s =
    done ((s.converted n h m k t).updCur fun u => if s.cur.vsrc.getLsbD 36 then { u with vsrc := nextRow u.vsrc } else u) := by
  show execVcvt n h m k t s = _
  rw [execVcvt, vectorGate_mods _ hv]
  rfl

/-- Each lane of VCVT by its mode. -/
theorem converted_values (hk : k ≠ 0) :
    vectorResult s (s.converted n h m k t).advance (laneWidth t.toNat) k.toNat
      (fun j => if j < min (1024 / laneWidth m.toNat) (1024 / laneWidth t.toNat) ∧ enables s.cur (n.getLsbD 3) j = true then
        (laneConvert (elemOf m.toNat) (elemOf t.toNat) (n.getLsbD 2) (s.convertMode n j) (lane s.cur (laneWidth m.toNat) h.toNat j)).1
        else lane s.cur (laneWidth t.toNat) k.toNat j)
      (fun b => ∃ j < min (1024 / laneWidth m.toNat) (1024 / laneWidth t.toNat), enables s.cur (n.getLsbD 3) j = true ∧
        (Flags.vxf (laneConvert (elemOf m.toNat) (elemOf t.toNat) (n.getLsbD 2) (s.convertMode n j)
          (lane s.cur (laneWidth m.toNat) h.toNat j)).2 false).getLsbD b = true) := by
  refine putLanes_values _ (group_toNat_ne_zero hk) (laneWidth_lanes _) ?_ (min_le_right _ _) fun j hj => ?_
  · rw [length_convertLanes, length_lanes]
    omega
  · simp only [convertLanes, List.getElem_map, List.getElem_take, getElem_indexed, getElem_lanes, Nat.zero_add]

/-- Without VSRC.EN every lane rounds by RM. -/
theorem vcvt_writes (hv : vectorReady s [] [k, h] (maskRegs (n.getLsbD 3))) (hk : k ≠ 0) (hen : s.cur.vsrc.getLsbD 36 = false) :
    writesLanes s (.vcvt n h m k t) (laneWidth t.toNat) (min (1024 / laneWidth m.toNat) (1024 / laneWidth t.toNat)) k.toNat (n.getLsbD 3)
      fun j => laneConvert (elemOf m.toNat) (elemOf t.toNat) (n.getLsbD 2) (rmOf (n.toNat % 4))
        (lane s.cur (laneWidth m.toNat) h.toNat j) := by
  have he := exec_vcvt (m := m) (t := t) hv
  simp only [hen, Bool.false_eq_true, if_false] at he
  rw [State.converted, putLanes_updCur_id] at he
  have hr := converted_values (s := s) (n := n) (h := h) (m := m) (t := t) hk
  simp only [State.convertMode, hen, Bool.false_eq_true, if_false] at hr
  exact ⟨_, he, hr⟩

/-- Under VSRC.EN every lane rounds by its draw, and ROW advances. -/
theorem exec_vcvt_stochastic (hv : vectorReady s [] [k, h] (maskRegs (n.getLsbD 3))) (hen : s.cur.vsrc.getLsbD 36 = true) :
    exec (.vcvt n h m k t) s = .next ((s.converted n h m k t).advance.updCur fun u => { u with vsrc := nextRow s.cur.vsrc }) := by
  have hc : ((s.converted n h m k t).updCur fun u => { u with vsrc := nextRow u.vsrc }) =
      (s.converted n h m k t).updCur fun u => { u with vsrc := nextRow s.cur.vsrc } := by
    refine State.updCur_congr _ ?_
    rw [State.converted, State.vsrc_putLanes]
  rw [exec_vcvt hv]
  simp only [hen, if_true]
  rw [done, hc, State.advance_updCur]
  exact fun _ => rfl

/-! VDEC and VENC. -/

theorem exec_vdec_tableless (hv : vectorReady s [] [k, h] (maskRegs (n.getLsbD 3))) (hf : (s.core s.ic).fmtSeen s.is = none) :
    exec (.vdec n h m k t) s = .next (s.enterTrap s.ic s.is 9 0 s.cur.pc 0) := by
  show execVdec n h m k t s = _
  rw [execVdec, vectorGate_mods _ hv]
  simp only [hf]
  rfl

theorem vdec_writes (hv : vectorReady s [] [k, h] (maskRegs (n.getLsbD 3))) (hk : k ≠ 0)
    (hf : (s.core s.ic).fmtSeen s.is = some table) (hm : 1024 / laneWidth t.toNat * (m.toNat + 1) ≤ 128) :
    writesLanes s (.vdec n h m k t) (laneWidth t.toNat) (1024 / laneWidth t.toNat) k.toNat (n.getLsbD 3)
      fun j => roundElem (elemOf t.toNat) (tableVal table (lane s.cur 8 h.toNat (1024 / laneWidth t.toNat * m.toNat + j))) false
        (rmOf (n.toNat % 4)) (n.getLsbD 2 && elemOf t.toNat != .flt .fp32) := by
  have he : exec (.vdec n h m k t) s = execVdec n h m k t s := rfl
  rw [execVdec, vectorGate_mods _ hv] at he
  simp only [hf] at he
  refine putLanes_writes he (group_toNat_ne_zero hk) (laneWidth_lanes _) ?_ le_rfl fun j hj => ?_
  · rw [List.length_map, List.length_take, List.length_drop, length_lanes]
    rw [Nat.mul_succ] at hm
    omega
  · simp only [List.getElem_map, List.getElem_take, List.getElem_drop, getElem_lanes]
    rfl

theorem exec_venc_tableless (hv : vectorReady s [] [k, h] (maskRegs (x = 1))) (hf : (s.core s.ic).fmtSeen s.is = none) :
    exec (.venc x h m k) s = .next (s.enterTrap s.ic s.is 9 0 s.cur.pc 0) := by
  show execVenc x h m k s = _
  rw [execVenc, vectorGate_ok _ hv]
  simp only [hf]
  rfl

theorem venc_writes (hv : vectorReady s [] [k, h] (maskRegs (x = 1))) (hk : k ≠ 0) (hf : (s.core s.ic).fmtSeen s.is = some table) :
    writesLanes s (.venc x h m k) 8 (1024 / laneWidth m.toNat) k.toNat (x = 1)
      fun j => encodeD8 table (Elem.decode (elemOf m.toNat) (lane s.cur (laneWidth m.toNat) h.toNat j)) := by
  have he : exec (.venc x h m k) s = execVenc x h m k s := rfl
  rw [execVenc, vectorGate_ok _ hv] at he
  simp only [hf] at he
  refine putLanes_writes he (group_toNat_ne_zero hk) rfl ?_ (laneCount_le _) fun j hj => ?_
  · rw [List.length_map, length_lanes]
  · rw [List.getElem_map, getElem_lanes]

/-! VMXS. -/

theorem vmxs_writes (hv : vectorReady s [] [k, h, g] (maskRegs (n.getLsbD 3))) (hk : k ≠ 0) :
    writesLanes s (.vmxs g n h m k t) (laneWidth t.toNat) (1024 / laneWidth t.toNat) k.toNat (n.getLsbD 3)
      fun j => roundElem (elemOf t.toNat) (mxScale (lane s.cur 8 g.toNat (j / 32)) (toF19 (elemOf m.toNat) (lane s.cur 8 h.toNat j)))
        false (rmOf (n.toNat % 4)) (n.getLsbD 2) := by
  have he : exec (.vmxs g n h m k t) s = execVmxs g n h m k t s := rfl
  rw [execVmxs, vectorGate_mods _ hv] at he
  have hlen : (scaleLanes (elemOf m.toNat) (elemOf t.toNat) (n.getLsbD 2) (rmOf (n.toNat % 4)) (s.cur.lanes 8 g.toNat)
      ((s.cur.lanes 8 h.toNat).take (1024 / laneWidth t.toNat))).length = 1024 / laneWidth t.toNat := by
    rw [scaleLanes, List.length_map, length_indexed, List.length_take, length_lanes]
    exact min_eq_left (laneCount_le _)
  refine putLanes_writes he (group_toNat_ne_zero hk) (laneWidth_lanes _) hlen le_rfl fun j hj => ?_
  have hj' : j / 32 < 1024 / 8 := by
    have := laneCount_le t.toNat
    have := hlen ▸ hj
    omega
  simp only [scaleLanes, List.getElem_map, getElem_indexed, List.getElem_take, getElem_lanes, Nat.zero_add, getD_lanes _ hj']
  rfl

end

end Sys2Proof.Machine

namespace Sys2Proof.Proofs

open Machine Safety

/-- Settles O27: VCVT splits on VSRC.EN, VDEC and VENC on the table that the thread sees, and VMXS writes scaled lanes. -/
theorem conversionResults : Obligations.ConversionResults := by
  unfold Obligations.ConversionResults
  intro s g h k n m t x w src dst M S RM a hk
  refine ⟨fun hv => ⟨vcvt_writes hv hk, fun hen => ?_, exec_vdec_tableless hv, fun table => vdec_writes hv hk⟩,
    fun hv => ⟨exec_venc_tableless hv, fun table => venc_writes hv hk⟩, fun hv => vmxs_writes hv hk⟩
  have hr := converted_values (s := s) (n := n) (h := h) (m := m) (t := t) hk
  simp only [State.convertMode, hen, if_true] at hr
  exact ⟨_, _, exec_vcvt_stochastic hv hen, hr, rfl⟩

end Sys2Proof.Proofs
end

section
/-! Add-subtract, dot products, permutes and slides (spec/05 R131 to R133). -/

namespace Sys2Proof.Machine

open Safety

/-! Lists side by side. -/

theorem zip3_eq_zipWith (f : Nat → Nat → Nat → LaneRes) : ∀ as bs cs : List Nat,
    zip3 f as bs cs = List.zipWith (fun a p => f a p.1 p.2) as (bs.zip cs)
  | [], _, _ => rfl
  | _ :: _, [], _ => rfl
  | _ :: _, _ :: _, [] => rfl
  | a :: as, b :: bs, c :: cs => congrArg (f a b c :: ·) (zip3_eq_zipWith f as bs cs)

theorem dotLanes_eq_zipWith (src : Elem) (sat : Bool) (rm : Rm) : ∀ (as bs : List (List Nat)) (cs : List Nat),
    dotLanes src sat rm as bs cs = List.zipWith (fun a p => laneDot src sat rm a p.1 p.2) as (bs.zip cs)
  | [], _, _ => rfl
  | _ :: _, [], _ => rfl
  | _ :: _, _ :: _, [] => rfl
  | a :: as, b :: bs, c :: cs => congrArg (laneDot src sat rm a b c :: ·) (dotLanes_eq_zipWith src sat rm as bs cs)

/-! Groups of lanes. -/

theorem length_chunks (n : Nat) : ∀ (k : Nat) (l : List Nat), (chunks n k l).length = k
  | 0, _ => rfl
  | k + 1, l => congrArg (· + 1) (length_chunks n k (l.drop n))

theorem getElem_chunks (n : Nat) : ∀ (k : Nat) (l : List Nat) (j : Nat) (h : j < (chunks n k l).length),
    (chunks n k l)[j] = (l.drop (n * j)).take n
  | 0, _, _, h => absurd h (Nat.not_lt_zero _)
  | _ + 1, l, 0, _ => by simp [chunks]
  | k + 1, l, j + 1, h => by
    simp only [chunks, List.getElem_cons_succ, getElem_chunks n k, List.drop_drop, Nat.mul_succ, Nat.add_comm]

/-- The lanes of a group of n, from lane n · j on. -/
theorem take_drop_lanes (t : Thread) {w k n j : Nat} (h : n * (j + 1) ≤ 1024 / w) :
    ((t.lanes w k).drop (n * j)).take n = (span 0 n).map fun i => lane t w k (n * j + i) := by
  rw [Nat.mul_succ] at h
  refine List.ext_getElem ?_ fun i h1 h2 => ?_
  · rw [List.length_take, List.length_drop, List.length_map, length_lanes, length_span]
    omega
  · simp only [List.getElem_take, List.getElem_drop, List.getElem_map, getElem_lanes, getElem_span, Nat.zero_add]

/-- A word of 32 bits holds 32 / w lanes, and a group 32 such words. -/
theorem word_lanes (t : Nat) : 32 / laneWidth t * 32 = 1024 / laneWidth t := by
  unfold laneWidth
  split <;> rfl

section
variable {s : State} {g h k : BitVec 3} {n m t : BitVec 4} {x : BitVec 1}

theorem vaddsub_writes (hv : vectorReady s [] [k, h, g] (maskRegs (n.getLsbD 3))) (hk : k ≠ 0)
    (hc : 1024 / laneWidth t.toNat ≤ 1024 / laneWidth m.toNat) :
    writesLanes s (.vaddsub g n h m k t) (laneWidth t.toNat) (1024 / laneWidth t.toNat) k.toNat (n.getLsbD 3) fun j =>
      laneAddsub (elemOf m.toNat) (elemOf t.toNat) (n.getLsbD 2) (rmOf (n.toNat % 4)) (lane s.cur (laneWidth m.toNat) h.toNat j)
        (lane s.cur (laneWidth m.toNat) g.toNat j) (lane s.cur (laneWidth t.toNat) k.toNat j) := by
  have he : exec (.vaddsub g n h m k t) s = execVaddsub g n h m k t s := rfl
  rw [execVaddsub, vectorGate_mods _ hv] at he
  simp only [zip3_eq_zipWith] at he
  refine putLanes_writes he (group_toNat_ne_zero hk) (laneWidth_lanes _) ?_ le_rfl fun j hj => ?_
  · simp only [List.length_zipWith, List.length_zip, length_lanes]
    omega
  · simp only [List.getElem_zipWith, List.getElem_zip, getElem_lanes]
    rfl

/-- The lanes of word j of a group. -/
def Thread.wordLanes (t : Thread) (w k j : Nat) : List Nat := (span 0 (32 / w)).map fun i => lane t w k (32 / w * j + i)

theorem getElem_chunks_lanes (u : Thread) (m k j : Nat) (h : j < (chunks (32 / laneWidth m) 32 (u.lanes (laneWidth m) k)).length) :
    (chunks (32 / laneWidth m) 32 (u.lanes (laneWidth m) k))[j] = u.wordLanes (laneWidth m) k j := by
  rw [getElem_chunks, Thread.wordLanes, take_drop_lanes]
  rw [length_chunks] at h
  rw [← word_lanes]
  exact Nat.mul_le_mul_left _ h

theorem vdot_writes (hv : vectorReady s [] [k, h, g] (maskRegs (n.getLsbD 3))) (hk : k ≠ 0) :
    writesLanes s (.vdot g n h m k t) 32 32 k.toNat (n.getLsbD 3) fun j =>
      laneDot (elemOf m.toNat) (n.getLsbD 2) (rmOf (n.toNat % 4)) (s.cur.wordLanes (laneWidth m.toNat) h.toNat j)
        (s.cur.wordLanes (laneWidth m.toNat) g.toNat j) (lane s.cur 32 k.toNat j) := by
  have he : exec (.vdot g n h m k t) s = execVdot g n h m k t s := rfl
  rw [execVdot, vectorGate_mods _ hv] at he
  simp only [dotLanes_eq_zipWith] at he
  refine putLanes_writes he (group_toNat_ne_zero hk) rfl ?_ le_rfl fun j hj => ?_
  · simp only [List.length_zipWith, List.length_zip, length_chunks, length_lanes]
    rfl
  · simp only [List.getElem_zipWith, List.getElem_zip, getElem_lanes, getElem_chunks_lanes]
    rfl

/-! Permutes and slides. -/

theorem vperm_writes (hv : vectorReady s [] [k, h, g] (maskRegs (x = 1))) (hk : k ≠ 0) :
    writesLanes s (.vperm g x h k t) (laneWidth t.toNat) (1024 / laneWidth t.toNat) k.toNat (x = 1) fun j =>
      (lane s.cur (laneWidth t.toNat) h.toNat (lane s.cur (laneWidth t.toNat) g.toNat j % (1024 / laneWidth t.toNat)), {}) := by
  have he : exec (.vperm g x h k t) s = execVperm g x h k t s := rfl
  rw [execVperm, vectorGate_ok _ hv] at he
  refine putLanes_writes he (group_toNat_ne_zero hk) (laneWidth_lanes _) ?_ le_rfl fun j hj => ?_
  · rw [List.length_map, length_lanes]
  · rw [List.getElem_map, getElem_lanes, getD_lanes _ (Nat.mod_lt _ (laneCount_pos _))]

/-- Lane i of two groups side by side, and 0 where there is none. -/
def slideLane (t : Thread) (w h g : Nat) (i : Int) : Nat :=
  if i < 0 then 0
  else if i < (1024 / w : Nat) then lane t w h i.toNat
  else if i < (2 * (1024 / w) : Nat) then lane t w g (i.toNat - 1024 / w)
  else 0

theorem slideLane_eq (t : Thread) (w h g : Nat) (i : Int) :
    (if i < 0 then 0 else (t.lanes w h ++ t.lanes w g).getD i.toNat 0) = slideLane t w h g i := by
  have hlen : (t.lanes w h).length = 1024 / w := length_lanes ..
  by_cases h0 : i < 0
  · rw [slideLane, if_pos h0, if_pos h0]
  obtain ⟨j, rfl⟩ := Int.eq_ofNat_of_zero_le (not_lt.1 h0)
  rw [slideLane, if_neg h0, if_neg h0]
  simp only [Int.toNat_natCast, Nat.cast_lt]
  by_cases h1 : j < 1024 / w
  · rw [if_pos h1, List.getD_append _ _ _ _ (hlen ▸ h1), getD_lanes _ h1]
  rw [if_neg h1, List.getD_append_right _ _ _ _ (by omega), hlen]
  by_cases h2 : j < 2 * (1024 / w)
  · rw [if_pos (by exact_mod_cast h2), getD_lanes _ (by omega)]
  · rw [if_neg (by exact_mod_cast h2), List.getD_eq_default _ _ (by rw [length_lanes]; omega)]

/-- VSLIDE's results put into their group. -/
def State.slid (s : State) (g : BitVec 3) (x : BitVec 1) (h k : BitVec 3) (t : BitVec 4) : State :=
  s.putLanes k.toNat (laneWidth t.toNat) (x = 1)
    ((span 0 (1024 / laneWidth t.toNat)).map fun (j : Nat) =>
      (slideLane s.cur (laneWidth t.toNat) h.toNat g.toNat (j + (s.cur.reg 14).toInt), {})) [h.toNat, g.toNat] false

/-- VSLIDE also marks its group fresh where g14 is. -/
theorem exec_vslide (hv : vectorReady s [] [k, h, g] (maskRegs (x = 1) ++ [14])) : ∃ fr, exec (.vslide g x h k t) s =
    done ((s.slid g x h k t).updCur fun u => { u with fresh := u.fresh ||| fr, vxf := u.vxf ||| 0#7 }) := by
  have he : exec (.vslide g x h k t) s = execVslide g x h k t s := rfl
  rw [execVslide, vectorGate_ok _ hv] at he
  simp only [slideLane_eq] at he
  refine ⟨if s.cur.isFresh 14 then 0xFFFF#128 <<< (16 * k.toNat) else 0#128, he.trans (congrArg done ?_)⟩
  by_cases hf : s.cur.isFresh 14 = true
  · simp only [if_pos hf, BitVec.or_zero]
    rfl
  · simp only [if_neg hf, BitVec.or_zero]
    exact (putLanes_updCur_id ..).symm

theorem vslide_writes (hv : vectorReady s [] [k, h, g] (maskRegs (x = 1) ++ [14])) (hk : k ≠ 0) :
    writesLanes s (.vslide g x h k t) (laneWidth t.toNat) (1024 / laneWidth t.toNat) k.toNat (x = 1) fun j =>
      (slideLane s.cur (laneWidth t.toNat) h.toNat g.toNat (j + (s.cur.reg 14).toInt), {}) := by
  obtain ⟨fr, he⟩ := exec_vslide (t := t) hv
  refine ⟨_, he, vectorResult_congr (vectorResult_gain fr 0#7 (putLanes_values _ (group_toNat_ne_zero hk) (laneWidth_lanes _) ?_ le_rfl
    fun j hj => ?_)) (fun _ _ => rfl) fun b => ?_⟩
  · rw [List.length_map, length_span]
  · rw [List.getElem_map, getElem_span, Nat.zero_add]
  · simp

end

end Sys2Proof.Machine

namespace Sys2Proof.Proofs

open Machine Safety

/-- Settles O28: side by side lanes, words of lanes, picked lanes and slid lanes, each put into its group. -/
theorem accumulateAndPermute : Obligations.AccumulateAndPermute := by
  unfold Obligations.AccumulateAndPermute
  intro s g h k n m t x w wm src M S RM part hk
  exact ⟨fun hv => ⟨vaddsub_writes hv hk, vdot_writes hv hk⟩, fun hv => vperm_writes hv hk, fun hv => vslide_writes hv hk⟩

end Sys2Proof.Proofs
end

section
/-! VUNPK3 (spec/05 R130): five weights to a byte. -/

namespace Sys2Proof.Machine

open Safety

/-! Lists of equal lists. -/

theorem length_flatten_uniform {α : Type} {n : Nat} : ∀ {ls : List (List α)}, (∀ l ∈ ls, l.length = n) → ls.flatten.length = n * ls.length
  | [], _ => rfl
  | l :: ls, h => by
    rw [List.flatten_cons, List.length_append, h l (by simp), length_flatten_uniform fun l hl => h l (by simp [hl]), List.length_cons,
      Nat.mul_succ, Nat.add_comm]

theorem getD_flatten_uniform {α : Type} {n : Nat} (d : α) (hn : 0 < n) : ∀ {ls : List (List α)} (j : Nat), (∀ l ∈ ls, l.length = n) →
    ls.flatten.getD j d = (ls.getD (j / n) []).getD (j % n) d
  | [], j, _ => by simp
  | l :: ls, j, h => by
    have hl : l.length = n := h l (by simp)
    rw [List.flatten_cons]
    by_cases hj : j < n
    · rw [List.getD_append _ _ _ _ (hl ▸ hj), Nat.div_eq_of_lt hj, Nat.mod_eq_of_lt hj, List.getD_cons_zero]
    · obtain ⟨i, rfl⟩ : ∃ i, j = i + n := ⟨j - n, by omega⟩
      rw [List.getD_append_right _ _ _ _ (by omega), hl, Nat.add_sub_cancel, getD_flatten_uniform d hn i fun l hl => h l (by simp [hl]),
        Nat.add_div_right _ hn, List.getD_cons_succ, Nat.add_mod_right]

/-! Weights. -/

theorem length_weights (b : Nat) : (weights b).length = 5 := by
  unfold weights
  split
  · rfl
  · rw [unpack3, List.length_map, length_span]

/-- Weight i of a byte: an illegal one holds zeros. -/
theorem getD_weights (b i : Nat) : (weights b).getD i 0 = if 243 ≤ b then 0 else (unpack3 b).getD i 0 := by
  rw [weights]
  split
  · rcases i with _ | _ | _ | _ | _ | i <;> rfl
  · rfl

/-! The T flag. -/

theorem vxf_ternary (f : Flags) (t : Bool) : Flags.vxf f t = Flags.vxf f false ||| (BitVec.ofBool t ++ 0#6) := by
  obtain ⟨a, b, c, d, e, g⟩ := f
  revert a b c d e g t
  decide

theorem getLsbD_ternary (t : Bool) (b : Nat) : (BitVec.ofBool t ++ 0#6).getLsbD b = true ↔ b = 6 ∧ t = true := by
  rw [BitVec.getLsbD_append, BitVec.getLsbD_zero, BitVec.getLsbD_ofBool]
  by_cases hb : b < 6
  · simp [hb, hb.ne]
  · simp [hb, show b - 6 = 0 ↔ b = 6 by omega]

theorem putLanes_ternary (s : State) (k w : Nat) (m : Bool) (rs : List LaneRes) (sources : List Nat) (tb : Bool) :
    s.putLanes k w m rs sources tb = (s.putLanes k w m rs sources false).updCur fun t =>
      { t with fresh := t.fresh ||| 0#128, vxf := t.vxf ||| (BitVec.ofBool tb ++ 0#6) } := by
  simp only [State.putLanes, State.addVxf, State.updCur_updCur, vxf_ternary _ tb, BitVec.or_zero, BitVec.or_assoc]

/-! The packed bytes. -/

/-- Byte j of a group, and a byte of five zeros past its end. -/
def Thread.packedByte (t : Thread) (h j : Nat) : Nat := if j ≤ 127 then lane t 8 h j else 121

/-- The bytes that L weights are unpacked from, each with its number. -/
def Thread.packedBytes (t : Thread) (h first L : Nat) : List (Nat × Nat) := (span first ((L + 4) / 5)).map fun j => (j, t.packedByte h j)

theorem packedByte_eq (t : Thread) (h j : Nat) : (if j ≤ 127 then (t.lanes 8 h).getD j 0 else 121) = t.packedByte h j := by
  rw [Thread.packedByte]
  split
  · exact getD_lanes _ (by omega)
  · rfl

/-- The lanes of the weights of bytes. -/
def ternaryLanes (dst : Elem) (L : Nat) (bytes : List (Nat × Nat)) : List LaneRes :=
  ((bytes.map fun p => weights p.2).flatten.take L).map (weightLane dst)

section
variable {s : State} {h k : BitVec 3} {m t : BitVec 4} {x : BitVec 1}

/-- The bytes that VUNPK3 checks. -/
def State.unpacked (s : State) (h : BitVec 3) (m t : BitVec 4) : List (Nat × Nat) :=
  s.cur.packedBytes h.toNat (8 * m.toNat) (1024 / laneWidth t.toNat)

/-- The lowest illegal byte among them, with its number. -/
def State.illegalByte (s : State) (h : BitVec 3) (m t : BitVec 4) : Option (Nat × Nat) := (s.unpacked h m t).find? fun p => 243 ≤ p.2

theorem exec_vunpk3_traps (hv : vectorReady s [] [k, h] (maskRegs (x = 1))) {p : Nat × Nat} (hp : s.illegalByte h m t = some p)
    (ht : s.cur.trapen = true) :
    exec (.vunpk3 x h m k t) s = .next (s.enterTrap s.ic s.is 9 (BitVec.ofNat 64 p.1) s.cur.pc 0) := by
  show execVunpk3 x h m k t s = _
  rw [execVunpk3, vectorGate_ok _ hv]
  simp only [packedByte_eq]
  rw [State.illegalByte, State.unpacked, Thread.packedBytes] at hp
  simp only [hp, ht]
  rfl

theorem exec_vunpk3 (hv : vectorReady s [] [k, h] (maskRegs (x = 1))) (hn : s.illegalByte h m t = none ∨ s.cur.trapen = false) :
    exec (.vunpk3 x h m k t) s = done (s.putLanes k.toNat (laneWidth t.toNat) (x = 1)
      (ternaryLanes (elemOf t.toNat) (1024 / laneWidth t.toNat) (s.unpacked h m t)) [h.toNat] (s.illegalByte h m t).isSome) := by
  show execVunpk3 x h m k t s = _
  rw [execVunpk3, vectorGate_ok _ hv]
  simp only [packedByte_eq]
  rw [State.illegalByte, State.unpacked, Thread.packedBytes] at *
  rcases hn with hn | hn
  · simp only [hn]
    rfl
  · simp only [hn]
    generalize List.find? _ (List.map _ (span _ _)) = bad
    cases bad <;> rfl

/-! What is unpacked. -/

theorem length_unpacked : (s.unpacked h m t).length = (1024 / laneWidth t.toNat + 4) / 5 := by
  rw [State.unpacked, Thread.packedBytes, List.length_map, length_span]

theorem getElem_unpacked (j : Nat) (hj : j < (s.unpacked h m t).length) :
    (s.unpacked h m t)[j] = (8 * m.toNat + j, s.cur.packedByte h.toNat (8 * m.toNat + j)) := by
  simp only [State.unpacked, Thread.packedBytes, List.getElem_map, getElem_span]

/-- Byte j of those checked is illegal. -/
def State.illegalAt (s : State) (h : BitVec 3) (m t : BitVec 4) (j : Nat) : Prop :=
  j < (1024 / laneWidth t.toNat + 4) / 5 ∧ 243 ≤ s.cur.packedByte h.toNat (8 * m.toNat + j)

theorem illegalByte_isSome : (s.illegalByte h m t).isSome = true ↔ ∃ j, s.illegalAt h m t j := by
  simp only [State.illegalByte, List.find?_isSome, List.mem_iff_getElem, getElem_unpacked, length_unpacked, State.illegalAt,
    decide_eq_true_eq]
  constructor
  · rintro ⟨_, ⟨j, hj, rfl⟩, hb⟩
    exact ⟨j, hj, hb⟩
  · rintro ⟨j, hj, hb⟩
    exact ⟨_, ⟨j, hj, rfl⟩, hb⟩

/-- The first illegal byte is the lowest. -/
theorem illegalByte_lowest {j : Nat} (hj : s.illegalAt h m t j) (hmin : ∀ i < j, ¬ s.illegalAt h m t i) :
    s.illegalByte h m t = some (8 * m.toNat + j, s.cur.packedByte h.toNat (8 * m.toNat + j)) := by
  obtain ⟨hlt, hb⟩ := hj
  refine List.find?_eq_some_iff_getElem.2 ⟨decide_eq_true hb, j, length_unpacked ▸ hlt, getElem_unpacked .., fun i hi => ?_⟩
  have := hmin i hi
  simp only [getElem_unpacked, Bool.not_eq_true', decide_eq_false_iff_not]
  exact fun hc => this ⟨hi.trans hlt, hc⟩

/-- Weight j of those unpacked. -/
def State.weightAt (s : State) (h : BitVec 3) (m : BitVec 4) (j : Nat) : Int :=
  (weights (s.cur.packedByte h.toNat (8 * m.toNat + j / 5))).getD (j % 5) 0

theorem mem_weights_length {bytes : List (Nat × Nat)} : ∀ l ∈ bytes.map fun p => weights p.2, l.length = 5 := by
  simp only [List.forall_mem_map]
  exact fun p _ => length_weights p.2

theorem length_ternaryLanes (dst : Elem) : (ternaryLanes dst (1024 / laneWidth t.toNat) (s.unpacked h m t)).length = 1024 / laneWidth t.toNat := by
  rw [ternaryLanes, List.length_map, List.length_take, length_flatten_uniform mem_weights_length, List.length_map, length_unpacked]
  omega

theorem getElem_ternaryLanes (dst : Elem) (j : Nat) (hj : j < (ternaryLanes dst (1024 / laneWidth t.toNat) (s.unpacked h m t)).length) :
    (ternaryLanes dst (1024 / laneWidth t.toNat) (s.unpacked h m t))[j] = weightLane dst (s.weightAt h m j) := by
  have hlt : j / 5 < (s.unpacked h m t).length := by
    rw [length_ternaryLanes] at hj
    rw [length_unpacked]
    omega
  have hbyte : ((s.unpacked h m t).map fun p => weights p.2).getD (j / 5) [] =
      weights (s.cur.packedByte h.toNat (8 * m.toNat + j / 5)) := by
    rw [List.getD_eq_getElem _ _ (by rwa [List.length_map]), List.getElem_map, getElem_unpacked]
  simp only [ternaryLanes, List.getElem_map, List.getElem_take]
  rw [← List.getD_eq_getElem _ 0, getD_flatten_uniform 0 (by decide) j mem_weights_length, hbyte, State.weightAt]

theorem vunpk3_result (hk : k ≠ 0) : vectorResult s (s.putLanes k.toNat (laneWidth t.toNat) (x = 1)
      (ternaryLanes (elemOf t.toNat) (1024 / laneWidth t.toNat) (s.unpacked h m t)) [h.toNat] (s.illegalByte h m t).isSome).advance
    (laneWidth t.toNat) k.toNat
    (fun j => if enables s.cur (x = 1) j = true then (roundElem (elemOf t.toNat) (Val.ofInt (s.weightAt h m j)) false .rne false).1
      else lane s.cur (laneWidth t.toNat) k.toNat j)
    (fun b => b = 6 ∧ ∃ j, s.illegalAt h m t j) := by
  rw [putLanes_ternary]
  refine vectorResult_congr (vectorResult_gain _ _ (putLanes_values (r := fun j => weightLane (elemOf t.toNat) (s.weightAt h m j)) _
    (group_toNat_ne_zero hk) (laneWidth_lanes _) (length_ternaryLanes _) le_rfl (getElem_ternaryLanes _))) (fun j hj => ?_) fun b => ?_
  · simp only [hj, true_and]
    rfl
  · have hquiet : ∀ j, (Flags.vxf (weightLane (elemOf t.toNat) (s.weightAt h m j)).2 false).getLsbD b = false := fun _ => getLsbD_vxf_none b
    simp only [hquiet, Bool.false_eq_true, and_false, exists_false, false_or, getLsbD_ternary, illegalByte_isSome]

end

end Sys2Proof.Machine

namespace Sys2Proof.Proofs

open Machine Safety

/-- Settles O29: the lowest illegal byte traps where TRAPEN.T is set, and else the weights are put and T tells of illegal bytes. -/
theorem ternaryUnpacking : Obligations.TernaryUnpacking := by
  unfold Obligations.TernaryUnpacking
  intro s h k m t x hk hv w L byte bad weight
  refine ⟨fun j hj hmin ht => exec_vunpk3_traps hv (illegalByte_lowest hj hmin) ht, fun hn => ⟨_, exec_vunpk3 hv ?_, ?_⟩⟩
  · refine hn.imp_left fun hnone => ?_
    rw [← Option.not_isSome_iff_eq_none, illegalByte_isSome]
    exact not_exists.2 hnone
  · have hweight (j : Nat) : weight j = s.weightAt h m j := (getD_weights _ _).symm
    simp only [hweight]
    exact vunpk3_result hk

end Sys2Proof.Proofs
end

section
/-! Packets (spec/07 R155, R156, R158, spec/09 R197 to R200): LAUNCH, the task queue and the task graph. -/

namespace Sys2Proof.Machine

open Safety

section
variable {s : State}

theorem heavyOnly_ok (w : InstrWord) (k : State → Res) (h : s.cur.light = false) : heavyOnly w k s = k s := if_neg (by simp [h])

theorem afterReds_ok (k : State → Res) (h : s.cur.reds = []) : afterReds k s = k s := if_neg (by simp [h])

/-- An access without a displacement. -/
theorem dataAddr_eq (a : BitVec 7) : s.dataAddr (s.cur.opnd a).val = address s a 0 1 :=
  congrArg (VAddr.mk s.cur.space) (BitVec.add_zero _).symm

/-- The release of the issuing thread: a light thread releases nothing, and its signature is all ones. -/
theorem releasing_ok (k : BitVec 512 → State → Res) (hr : s.cur.reds = []) (h : s.cur.light = true ∨ s.dirtyPinned s.ic = false) :
    let u := if s.cur.light then s else s.releaseCore s.ic
    releasing k s = k (if s.cur.light then allOnes512 else (u.core u.ic).carried) u := by
  cases hl : s.cur.light with
  | true => simp only [releasing, hl, if_true, afterReds_ok _ hr]
  | false =>
    have hp := h.resolve_left (by simp [hl])
    simp only [releasing, hl, Bool.false_eq_true, if_false, released_ok _ hr hp]

/-- A packet that is read without poison, hold or trap is released before its instruction goes on. -/
theorem withPacket_ok {a : BitVec 7} {t : Target} (k : Packet → State → Res) {r : List Byte × Option Nat × State}
    (hread : s.readFor s.ic s.is (bypasses s a) t 64 = r) (ha : (address s a 0 1).off.toNat % 64 = 0)
    (hx : s.xlate s.ic s.is { r := true } (address s a 0 1) = .ok t) (hu : s.unreachable t = false)
    (ho : s.cur.redOverlap t.place 64 = false) (hh : s.readHeld s.ic s.is (bypasses s a) t 64 = false) (hp : r.2.1 = none)
    (hr : r.2.2.cur.reds = []) (hd : r.2.2.dirtyPinned r.2.2.ic = false) :
    withPacket a k s = k (BitVec.ofNat 512 (leNat r.1)) (r.2.2.releaseCore r.2.2.ic) := by
  subst hread
  rw [bypasses] at *
  simp only [withPacket, dataAddr_eq, access_ok _ ha hx hu, peekOr, State.freshAddr, ho, hh, hp, released_ok _ hr hd, Bool.false_eq_true,
    if_false]

end

/-! What follows the packet. -/

section
variable {s r : State} {a d : BitVec 7} {p : Packet} (hl : s.cur.light = false) (hn : named s.cur [a, d])
  (hw : ∀ k, withPacket a k s = k p r)
include hl hn hw

theorem launch_refused (w : InstrWord) (waits : Bool) (hp : packetOk p = false) : launch w waits a d s = statusAway d 4 r := by
  rw [launch, heavyOnly_ok _ _ hl, limit_ok _ hn, hw]
  simp only [hp, Bool.not_false, if_true]

theorem launch_full (w : InstrWord) (waits : Bool) (hp : packetOk p = true) (hf : (r.cluster (clusterOf r.ic)).freeEntry = none) :
    launch w waits a d s = if waits then park (.room (.entry (clusterOf r.ic))) r else statusAway d 1 r := by
  rw [launch, heavyOnly_ok _ _ hl, limit_ok _ hn, hw]
  simp only [hp, hf, Bool.not_true, Bool.false_eq_true, if_false]

theorem launch_stored (w : InstrWord) (waits : Bool) (hp : packetOk p = true) {e : Nat}
    (hf : (r.cluster (clusterOf r.ic)).freeEntry = some e) :
    let f := r.fillEntry (clusterOf r.ic) e p (r.core r.ic).carried
    launch w waits a d s = statusAway d f.1 f.2 := by
  rw [launch, heavyOnly_ok _ _ hl, limit_ok _ hn, hw]
  simp only [hp, hf, Bool.not_true, Bool.false_eq_true, if_false]

theorem exec_tqEnq_refused (hp : packetOk p = false) : exec (.tqEnq a d) s = statusAway d 4 r := by
  show execTqEnq a d s = _
  rw [execTqEnq, heavyOnly_ok _ _ hl, limit_ok _ hn, hw]
  simp only [hp, Bool.not_false, if_true]

theorem exec_tqEnq (hp : packetOk p = true) :
    exec (.tqEnq a d) s =
      if queueSize ≤ (r.cluster (clusterOf r.ic)).queued then statusAway d 1 r
      else statusAway d 0 (r.enqueue (clusterOf r.ic) p (r.core r.ic).carried false) := by
  show execTqEnq a d s = _
  rw [execTqEnq, heavyOnly_ok _ _ hl, limit_ok _ hn, hw]
  simp only [hp, Bool.not_true, Bool.false_eq_true, if_false]

end

section
variable {s : State} {a d : BitVec 7} {t : Target} (hl : s.cur.light = false) (hn : named s.cur [a, d])
  (ha : (address s a 0 1).off.toNat % 64 = 0) (hx : s.xlate s.ic s.is { w := true } (address s a 0 1) = .ok t)
  (hu : s.unreachable t = false)
include hl hn ha hx hu

theorem exec_tqDeq_empty (hq : (s.cluster (clusterOf s.ic)).topLevel = none) : exec (.tqDeq a d) s = statusAway d 5 s := by
  show execTqDeq a d s = _
  simp only [execTqDeq, heavyOnly_ok _ _ hl, limit_ok _ hn, dataAddr_eq, access_ok _ ha hx hu, hq]

/-- The head of the highest level is taken, and its releases are acquired before it is stored. -/
theorem exec_tqDeq_head {l : Nat} {q : QueuedPacket} {rest : List QueuedPacket} (hq : (s.cluster (clusterOf s.ic)).topLevel = some l)
    (hlevel : (s.cluster (clusterOf s.ic)).level l = q :: rest) (ho : s.cur.redOverlap t.place 64 = false)
    (hh : s.writeHeld s.ic s.is (bypasses s a) t 64 = false) (hd : s.dirtyPinned s.ic = false) :
    let u := (s.updCluster (clusterOf s.ic) fun c => c.dropHead l).queueRoomMade (clusterOf s.ic)
    let v := u.applySig u.ic q.signature
    exec (.tqDeq a d) s = statusAway d 0 (v.writeFor v.ic v.is (bypasses s a) t (leBytes q.packet.toNat 64)) := by
  show execTqDeq a d s = _
  rw [bypasses] at *
  simp only [execTqDeq, heavyOnly_ok _ _ hl, limit_ok _ hn, dataAddr_eq, access_ok _ ha hx hu, hq, hlevel, ho, State.freshAddr, hh, hd,
    Bool.or_self, Bool.false_eq_true, if_false]

end

/-! The task graph: a counter is changed after the release. -/

section
variable {s : State} {a b d : BitVec 7} (hr : s.cur.reds = []) (h : s.cur.light = true ∨ s.dirtyPinned s.ic = false)
include hr h

theorem exec_depSet (hn : named s.cur [a, b, d]) :
    let u := if s.cur.light then s else s.releaseCore s.ic
    let x := u.addCount ((X s a).toNat % 2 ^ 32) (X s b).toNat (if s.cur.light then allOnes512 else (u.core u.ic).carried)
    exec (.depSet b a d) s = statusAway d x.1 x.2 := by
  show execDepSet b a d s = _
  rw [execDepSet, limit_ok _ hn, releasing_ok _ hr h]
  rfl

theorem exec_depDec (hn : named s.cur [a, d]) :
    let u := if s.cur.light then s else s.releaseCore s.ic
    let x := u.decrement ((X s a).toNat % 2 ^ 32) (if s.cur.light then allOnes512 else (u.core u.ic).carried)
    exec (.depDec a d) s = statusAway d x.1 x.2 := by
  show execDepDec a d s = _
  rw [execDepDec, limit_ok _ hn, releasing_ok _ hr h]
  rfl

end

end Sys2Proof.Machine

namespace Sys2Proof.Proofs

open Machine Safety

/-- Settles O40: a packet that is read is refused, stored or queued by its checks; a dequeue takes the head; the graph's counters change
after the release. -/
theorem launches : Obligations.Launches := by
  unfold Obligations.Launches
  intro s a b d t va k after packet p r rk
  refine ⟨fun hl hn ha hu ho => ⟨fun hx hh hpoison hreds hd => ?_, fun hx => ⟨fun hq => ?_, fun l q rest hq hlevel hh hd => ?_⟩⟩,
    fun hr hpin => ⟨exec_depSet hr hpin, exec_depDec hr hpin⟩⟩
  · have hw (k) : withPacket a k s = k p r := withPacket_ok k rfl ha hx hu ho hh hpoison hreds hd
    refine ⟨fun hp => ⟨launch_refused hl hn hw _ _ hp, launch_refused hl hn hw _ _ hp, exec_tqEnq_refused hl hn hw hp⟩, fun hp =>
      ⟨fun hf => ⟨launch_full hl hn hw _ false hp hf, launch_full hl hn hw _ true hp hf⟩,
        fun e hf => ⟨launch_stored hl hn hw _ false hp hf, launch_stored hl hn hw _ true hp hf⟩, fun hfull => ?_, fun hroom => ?_⟩⟩
    · exact (exec_tqEnq hl hn hw hp).trans (if_pos hfull)
    · exact (exec_tqEnq hl hn hw hp).trans (if_neg (Nat.not_le.2 hroom))
  · exact exec_tqDeq_empty hl hn ha hx hu hq
  · exact exec_tqDeq_head hl hn ha hx hu hq hlevel ho hh hd

end Sys2Proof.Proofs
end

section
/-! Events of memory (spec/10 R228, R230, R231, R238, R239, spec/11 R251, spec/07 R154). -/

namespace Sys2Proof.Machine

/-! Page walks. -/

section
variable {s : State} {c sl : Nat} {va : VAddr} {kind : AccessKind} (hw : (s.thread c sl).wait = some (.walk va kind))
include hw

theorem exec_pageTableWalk_leaf {base size : Nat} {leaf : Word} {k : BitVec 2} (h : (s.refillTlb c va).1 = .leaf base size leaf k) :
    exec (.pageTableWalk c sl) s = .next ((((s.refillTlb c va).2.updThread c sl fun t =>
      { t with walked := t.walked ++ [⟨s.normSpace va.space, base, size, leaf, k⟩] }).wake c sl).settleHalted c sl) := by
  show execPageTableWalk c sl s = _
  simp only [execPageTableWalk, hw, h]

theorem exec_pageTableWalk_access (h : (s.refillTlb c va).1 = .access) :
    exec (.pageTableWalk c sl) s = .next (((s.refillTlb c va).2.faultThread c sl 3 kind va).settleHalted c sl) := by
  show execPageTableWalk c sl s = _
  simp only [execPageTableWalk, hw, h]

theorem exec_pageTableWalk_page (h : (s.refillTlb c va).1 = .page) :
    exec (.pageTableWalk c sl) s =
      .next (((s.refillTlb c va).2.faultThread c sl (if s.lostSpace va.space then 3 else 4) kind va).settleHalted c sl) := by
  show execPageTableWalk c sl s = _
  simp only [execPageTableWalk, hw, h]

theorem exec_pageTableWalk_hole (h : (s.refillTlb c va).1 = .hole) : exec (.pageTableWalk c sl) s = .fault .nothingThere := by
  show execPageTableWalk c sl s = _
  simp only [execPageTableWalk, hw, h]

end

/-- A walk for which no thread waits changes nothing. -/
theorem exec_pageTableWalk_idle {s : State} {c sl : Nat} (h : ∀ va kind, (s.thread c sl).wait ≠ some (.walk va kind)) :
    exec (.pageTableWalk c sl) s = .next s := by
  show execPageTableWalk c sl s = _
  unfold execPageTableWalk
  split
  · next va kind hw => exact absurd hw (h va kind)
  · rfl

/-! The kernel's answers to a thread's fault. -/

theorem Thread.wake_parked {t : Thread} {w : Wait} (now : Nat) (h : t.st = .parked w) :
    t.wake now = { t with st := .ready now false, woke := some now } := by
  simp only [Thread.wake, h]

theorem Thread.wait_parked {t : Thread} {w : Wait} (h : t.st = .parked w) : t.wait = some w := by
  simp only [Thread.wait, h]

theorem State.thread_wake (s : State) (c sl : Nat) : (s.wake c sl).thread c sl = (s.thread c sl).wake (s.core c).cyc :=
  State.thread_updThread ..

/-- No record of the number is left. -/
theorem State.dropFault_faults (s : State) (n : Nat) : ∀ g ∈ (s.dropFault n).faults, g.number ≠ n :=
  fun _ hg => bne_iff_ne.1 (List.mem_filter.1 hg).2

theorem exec_faultRetry_none {s : State} {n : Nat} (h : s.faultRecord n = none) : exec (.faultRetry n) s = .next s := by
  show execFaultRetry n s = _
  simp only [execFaultRetry, h]

theorem exec_faultDeliver_none {s : State} {n : Nat} (h : s.faultRecord n = none) : exec (.faultDeliver n) s = .next s := by
  show execFaultDeliver n s = _
  simp only [execFaultDeliver, h]

section
variable {s : State} {n c sl core slot : Nat} {f : FaultRecord} (hf : s.faultRecord n = some f) (hwho : f.who = .thread core slot)
  (ht : s.faultedThread n = some (c, sl))
include hf hwho ht

theorem exec_faultRetry_thread :
    exec (.faultRetry n) s = .next ((s.dropFault n).updThread c sl fun t => t.afresh (s.core c).cyc) := by
  have hn : f.number = n := by simpa using List.find?_some hf
  have ht' : (s.dropFault n).faultedThread n = some (c, sl) := ht
  show execFaultRetry n s = _
  simp only [execFaultRetry, hf, State.retry, hwho, hn, ht']
  rfl

theorem exec_faultDeliver_thread :
    exec (.faultDeliver n) s =
      .next (((s.dropFault n).wake c sl).enterTrap c sl f.code.toNat f.va.off (s.thread c sl).pc f.va.space) := by
  have hn : f.number = n := by simpa using List.find?_some hf
  show execFaultDeliver n s = _
  simp only [execFaultDeliver, hf, State.deliver, hwho, hn, ht]

end

/-- A parked heavy thread outside a handler wakes into its handler. -/
theorem State.wake_enterTrap {s : State} {c sl : Nat} {w : Wait} (code : Nat) (val pc : Word) (space : BitVec 8)
    (hw : (s.thread c sl).st = .parked w) (hl : (s.thread c sl).light = false) (hh : (s.thread c sl).inh = false) :
    (s.wake c sl).enterTrap c sl code val pc space = (s.wake c sl).putThread c sl
      (Thread.enterHandler { s.thread c sl with st := .ready (s.core c).cyc false, woke := some (s.core c).cyc } code val pc space) := by
  have ht : (s.wake c sl).thread c sl = _ := (s.thread_wake c sl).trans (Thread.wake_parked _ hw)
  rw [State.enterTrap_enters, ht]
  · rw [ht]; exact hl
  · rw [ht]; exact hh

/-! Refresh. -/

theorem mem_span {a n m : Nat} : m ∈ span a n ↔ a ≤ m ∧ m < a + n := by
  rw [span_eq_range', List.mem_range'_1]

theorem mem_pseudoBanks {m n : Nat} : m ∈ pseudoBanks n ↔ m / 16 = n / 16 := by
  rw [pseudoBanks, mem_span]
  omega

/-- A value written under every key of a list. -/
theorem tabGet_foldl_tabPut {α : Type} (d v : α) (m : Nat) : ∀ (l : List Nat) (t : Tab α),
    tabGet d (l.foldl (fun t b => tabPut t b v) t) m = if m ∈ l then v else tabGet d t m
  | [], t => by simp
  | b :: l, t => by
    rw [List.foldl_cons, tabGet_foldl_tabPut d v m l]
    by_cases hm : m = b
    · subst hm
      simp
    · simp [hm, tabGet_tabPut_other]

/-- A debt below eight: a free value says whether the refresh is postponed. -/
theorem exec_refreshDue {s : State} {n : Nat} (h : tabGet 0 s.debts n < 8) :
    exec (.refreshDue n) s = .next { s.draw.2 with
      debts := if (Config.freeValue s.draw.1).getLsbD 0 then tabPut s.debts n (tabGet 0 s.debts n + 1) else s.debts } := by
  show execRefreshDue n s = _
  rw [execRefreshDue, if_neg (show ¬ maxDebt ≤ tabGet 0 s.debts n from Nat.not_le.2 h)]
  simp only
  split <;> rfl

theorem exec_refreshDue_all {s : State} {n : Nat} (h : 8 ≤ tabGet 0 s.debts n) :
    exec (.refreshDue n) s = .next { s with debts := (s.refreshAll n).debts } := by
  show execRefreshDue n s = _
  rw [execRefreshDue, if_pos (show maxDebt ≤ tabGet 0 s.debts n from h), State.refreshAll]

theorem tabGet_refreshAll (s : State) (n m : Nat) :
    tabGet 0 (s.refreshAll n).debts m = if m / 16 = n / 16 then 0 else tabGet 0 s.debts m := by
  simp only [State.refreshAll, tabGet_foldl_tabPut, mem_pseudoBanks]

/-! The sweep. -/

section
variable {s : State} (h : s.hub.sweep = .idle)
include h

theorem exec_sweep_idle :
    exec .sweep s = .next ({ s with
      cores := s.cores.map fun (e : Nat × Core) => (e.1, { e.2 with sighPrev := e.2.sighPrev ||| e.2.sighCur, sighCur := 0 })
      clusters := s.clusters.map fun (e : Nat × Cluster) => (e.1, { e.2 with sigs := e.2.sigs.map SigEntry.age })
      hub := { s.hub with sweep := .reporting [] } }.emitAll ((span 0 Config.cores).map Instr.sweepCoreStep)) := by
  show execSweep s = _
  simp only [execSweep, h]
  rfl

theorem exec_sweepCoreStep_idle (c : Nat) : exec (.sweepCoreStep c) s = .next s := by
  show execSweepCoreStep c s = _
  simp only [execSweepCoreStep, h]

theorem exec_sweepClear_idle : exec .sweepClear s = .next s := by
  show execSweepClear s = _
  simp only [execSweepClear, h]

end

section
variable {s : State} {l : List Nat} {c : Nat} (h : s.hub.sweep = .reporting l)
include h

theorem exec_sweep_reporting : exec .sweep s = .next (s.updHub fun h => { h with sweepDue := true }) := by
  show execSweep s = _
  simp only [execSweep, h]

theorem exec_sweepCoreStep_held (hc : c ∈ l ∨ Config.cores ≤ c ∨ s.dirtyPinned c = true) : exec (.sweepCoreStep c) s = .next s := by
  show execSweepCoreStep c s = _
  simp only [execSweepCoreStep, h]
  exact if_pos (by simpa [or_assoc] using hc)

theorem exec_sweepCoreStep_reports (hc : c ∉ l) (hlt : c < Config.cores) (hd : s.dirtyPinned c = false) :
    let u := (s.sweepCore c).updHub fun h => { h with sweep := .reporting (l ++ [c]) }
    exec (.sweepCoreStep c) s = .next (if l.length + 1 = Config.cores then u.emitOnce .sweepClear else u) := by
  show execSweepCoreStep c s = _
  simp only [execSweepCoreStep, h]
  exact if_neg (by simp [hc, Nat.not_le.2 hlt, hd])

theorem exec_sweepClear_early (hl : l.length < Config.cores) : exec .sweepClear s = .next s := by
  show execSweepClear s = _
  simp only [execSweepClear, h, if_pos hl]

theorem exec_sweepClear_clears (hl : Config.cores ≤ l.length) :
    let u := { s with
      cores := s.cores.map fun (e : Nat × Core) => (e.1, { e.2 with sighPrev := 0 })
      clusters := s.clusters.map fun (e : Nat × Cluster) => (e.1, { e.2 with sigs := e.2.sigs.map fun x => { x with prev := 0 } })
      hub := { s.hub with sweep := .idle, sweepDue := false } }
    exec .sweepClear s = .next (if s.hub.sweepDue then u.emitOnce .sweep else u) := by
  show execSweepClear s = _
  simp only [execSweepClear, h, if_neg (Nat.not_lt.2 hl)]
  rfl

end

/-! Migrants. -/

theorem firstFor_none {held : MigPacket → Bool} {c : Nat} : ∀ {l : List (Nat × MigPacket)}, (∀ e ∈ l, e.1 ≠ c) → firstFor held c l = none
  | [], _ => rfl
  | e :: l, h => by
    obtain ⟨he, hl⟩ := List.forall_mem_cons.1 h
    simp [firstFor, he, firstFor_none hl]

/-- Of the packets to a core of this device none is held. -/
theorem firstFor_head {held : MigPacket → Bool} {c : Nat} {p : MigPacket} (l : List (Nat × MigPacket)) (h : held p = false) :
    firstFor held c ((c, p) :: l) = some (p, l) := by
  simp [firstFor, h]

theorem exec_migrationPacketArrival_none {s : State} {c : Nat} (h : ∀ e ∈ s.flight, e.1 ≠ c) :
    exec (.migrationPacketArrival c) s = .next s := by
  show execMigrationPacketArrival c s = _
  simp only [execMigrationPacketArrival, firstFor_none h]

theorem exec_migrationPacketArrival {s : State} {c : Nat} {p : MigPacket} {l : List (Nat × MigPacket)} (hc : c < 1024)
    (h : s.flight = (c, p) :: l) :
    let left : State := { s with flight := l }
    let freed := if p.kind = 0 ∧ p.device = 0 then left.freeThread p.core p.slot else left
    exec (.migrationPacketArrival c) s =
      if 16 ≤ (s.core c).migIn.length then .next s
      else .next (State.serveQueue c 17 (freed.updCore c fun k => { k with migIn := k.migIn ++ [p] })) := by
  have hlt : ¬ Config.cores ≤ c := Nat.not_le.2 hc
  show execMigrationPacketArrival c s = _
  rw [execMigrationPacketArrival, h, firstFor_head l (by simp [hlt])]
  simp only [hlt, decide_false, Bool.and_false, Bool.false_eq_true, if_false, Bool.and_eq_true, decide_eq_true_eq]

section
variable {s : State} {c sl home : Nat} (hw : (s.thread c sl).st = .parked (.migration home))
include hw

theorem exec_migrationRetry_waits (h : s.inFlight c sl = true ∨ s.queueRoom home = false) : exec (.migrationRetry c sl) s = .next s := by
  show execMigrationRetry c sl s = _
  simp only [execMigrationRetry, Thread.wait_parked hw]
  exact if_pos (by simpa using h)

theorem exec_migrationRetry_light (hf : s.inFlight c sl = false) (hr : s.queueRoom home = true) (hl : (s.thread c sl).light = true) :
    exec (.migrationRetry c sl) s = .next (s.sendPacket home ((s.thread c sl).packet c sl)) := by
  show execMigrationRetry c sl s = _
  simp only [execMigrationRetry, Thread.wait_parked hw, hf, hr, hl, hw, Bool.not_true, Bool.or_self, Bool.false_eq_true, if_false, if_true]

theorem exec_migrationRetry_heavy (hf : s.inFlight c sl = false) (hr : s.queueRoom home = true) (hl : (s.thread c sl).light = false) :
    exec (.migrationRetry c sl) s = .next (s.updThread c sl fun t =>
      { t with st := .ready (s.core c).cyc false, woke := some (s.core c).cyc }) := by
  show execMigrationRetry c sl s = _
  simp only [execMigrationRetry, Thread.wait_parked hw, hf, hr, hl, Bool.not_true, Bool.or_self, Bool.false_eq_true, if_false]
  rw [State.wake, State.updThread, Thread.wake_parked _ hw]
  rfl

end

end Sys2Proof.Machine

namespace Sys2Proof.Proofs

open Machine Safety

/-- Settles O49: each event is one case of what waits for it: the walk's answer, the record's thread, the debt, the sweep's phase, the
packet's room. -/
theorem memoryEvents : Obligations.MemoryEvents := by
  unfold Obligations.MemoryEvents
  intro s n c sl
  refine ⟨fun va kind hw => ⟨fun _ _ _ _ => exec_pageTableWalk_leaf hw, exec_pageTableWalk_access hw, exec_pageTableWalk_page hw,
      exec_pageTableWalk_hole hw⟩, exec_pageTableWalk_idle, fun h => ⟨exec_faultRetry_none h, exec_faultDeliver_none h⟩,
    fun f core slot hf hwho ht => ⟨exec_faultRetry_thread hf hwho ht, fun hw hl hh => ?_⟩, exec_refreshDue,
    fun h => ⟨(s.refreshAll n).debts, exec_refreshDue_all h, tabGet_refreshAll s n⟩, rfl,
    fun h => ⟨exec_sweep_idle h, exec_sweepCoreStep_idle h c, exec_sweepClear_idle h⟩,
    fun l h => ⟨exec_sweep_reporting h, exec_sweepCoreStep_held h, exec_sweepCoreStep_reports h, exec_sweepClear_early h,
      exec_sweepClear_clears h⟩, exec_migrationPacketArrival_none, fun p l hc h => ?_,
    fun home hw => ⟨exec_migrationRetry_waits hw, fun hf hr => ⟨exec_migrationRetry_light hw hf hr, exec_migrationRetry_heavy hw hf hr⟩⟩⟩
  · have henter := State.wake_enterTrap (s := s.dropFault n) f.code.toNat f.va.off (s.thread c sl).pc f.va.space hw hl hh
    refine ⟨_, exec_faultDeliver_thread hf hwho ht, ?_⟩
    rw [henter, State.thread_putThread]
    exact ⟨s.dropFault_faults n, rfl, rfl, rfl, BitVec.ofNat_toNat .., rfl, rfl, rfl, rfl⟩
  · have harrive := exec_migrationPacketArrival hc h
    refine ⟨fun hfull => harrive.trans (if_pos hfull), fun hroom => ⟨fun hk hd => ?_, fun hother => ?_⟩⟩
    · rw [harrive, if_neg (Nat.not_le.2 hroom), if_pos ⟨hk, hd⟩]
    · rw [harrive, if_neg (Nat.not_le.2 hroom), if_neg (not_and_or.2 hother)]

end Sys2Proof.Proofs
end

section
/-! The scheduler's events (spec/07 R138, R141, R147 to R151, R155 to R160): dispatch, promotion, stealing, launches, dependencies and
retirement. -/

namespace Sys2Proof.Machine

theorem State.updCluster_congr (s : State) {k : Nat} {f g : Cluster → Cluster} (h : f (s.cluster k) = g (s.cluster k)) :
    s.updCluster k f = s.updCluster k g := by
  rw [State.updCluster, State.updCluster, h]

/-! A dispatch takes effect at its core's boundary (R138, R147, R148). -/

theorem arrive_none {s : State} {c : Nat} (h : (s.core c).arriving = none) : s.arrive c = .next s := by
  simp only [State.arrive, h]

/-- A core that awaits no packet any more. -/
def State.received (s : State) (c : Nat) : State := (s.updCore c fun x => { x with arriving := none }).pairMoved c

section
variable {s : State} {c : Nat} {q : QueuedPacket} (h : (s.core c).arriving = some q)
include h

theorem arrive_held (hs : s.swapping c = true ∨ s.dirtyPinned c = true) : s.arrive c = .next s := by
  simp only [State.arrive, h]
  exact if_pos (by simpa using hs)

variable (hs : s.swapping c = false) (hd : s.dirtyPinned c = false)
include hs hd

/-- What fits no longer goes back to its queue. -/
theorem arrive_unfit (hf : (s.received c).fits c q.packet = false) : s.arrive c = .next ((s.received c).putBack (clusterOf c) q) := by
  rw [State.received] at *
  simp only [State.arrive, h, hs, hd, hf, Bool.or_self, Bool.false_eq_true, if_false]

theorem arrive_fits (hf : (s.received c).fits c q.packet = true) : s.arrive c = (s.received c).dispatch c q := by
  rw [State.received] at *
  simp only [State.arrive, h, hs, hd, hf, Bool.or_self, Bool.false_eq_true, if_false, if_true]

end

theorem dispatch_status {s : State} {c : Nat} {q : QueuedPacket} {n : Nat} (h : s.prepare q.packet = .status n) :
    s.dispatch c q = .next (s.record (.dispatchFailed q.packet n)) := by
  simp only [State.dispatch, h]

theorem dispatch_starts {s : State} {c n : Nat} {q : QueuedPacket} {x : Prepared} {seats : List (Nat × Nat)}
    {banks : List Nat × List Nat × List Nat} (h : s.prepare q.packet = .ok x)
    (hs : (s.core c).seats (8 * pktRegs q.packet) (pktThreads q.packet) = some seats) (hb : (s.core c).banksFor q.packet = some banks)
    (hn : s.newNumber (clusterOf c) = some n) : s.dispatch c q = .next (s.start c q x seats banks n) := by
  simp only [State.dispatch, h, hs, hb, hn]

/-! The wheel boundary (R141). -/

/-- The wheel's threads are seated, unless the core's swap freezes them. -/
def State.seated (s : State) (c : Nat) : State :=
  if (s.core c).frozenSwap then s.updCore c fun x => { x with boundaryDone := true } else s.updCore c Core.boundary

theorem boundaryDone_seated (s : State) (c : Nat) : ((s.seated c).core c).boundaryDone = true := by
  unfold State.seated
  split
  · rw [State.core_updCore]
  · rw [State.core_updCore, Core.boundary]

theorem exec_wheelBoundary {s v w : State} {c : Nat} (hpass : c % 8 = 0 → exec (.clusterSchedulerPass (c / 8)) s = .next v)
    (hnone : c % 8 ≠ 0 → v = s) (ha : v.arrive c = .next w) :
    exec (.wheelBoundary c) s = .next ((State.serveQueue c 17 w).seated c) := by
  have hp : (if c % 8 = 0 then execClusterSchedulerPass (clusterOf c) s else .next s) = .next v := by
    split
    · next h => exact hpass h
    · next h => rw [hnone h]
  show execWheelBoundary c s = _
  simp only [execWheelBoundary, hp, ha]
  rfl

/-! The scheduler's pass (R158 to R160). -/

/-- A cluster whose wheel a pass has counted, with its promotions. -/
def State.turned (s : State) (k : Nat) : State :=
  s.updCluster k fun x => ((({ x with wheels := x.wheels + 1 } : Cluster).promote 1 queueSize).promote 2 queueSize).promote 3 queueSize

section
variable {s : State} {k : Nat}

theorem exec_clusterSchedulerPass_idle (h : ((s.turned k).cluster k).withdrawn = true ∨ (s.turned k).kernelReady = false) :
    exec (.clusterSchedulerPass k) s = .next (s.turned k) :=
  if_pos (show (((s.turned k).cluster k).withdrawn || !(s.turned k).kernelReady) = true by simpa using h)

variable (hw : ((s.turned k).cluster k).withdrawn = false) (hr : (s.turned k).kernelReady = true)
include hw hr

theorem exec_clusterSchedulerPass_steals (h : (s.turned k).placeable k = none) :
    exec (.clusterSchedulerPass k) s = .next ((s.turned k).steal k) := by
  show execClusterSchedulerPass k s = _
  rw [State.turned] at *
  simp only [execClusterSchedulerPass, hw, hr, h, Bool.not_true, Bool.or_self, Bool.false_eq_true, if_false]

/-- The head leaves its level for the core that is to take it. -/
theorem exec_clusterSchedulerPass_dispatches {l d : Nat} {q : QueuedPacket} (h : (s.turned k).placeable k = some (l, d, q)) :
    exec (.clusterSchedulerPass k) s =
      .next ((((s.turned k).updCluster k fun x => x.dropHead l).queueRoomMade k).updCore d fun x => { x with arriving := some q }) := by
  show execClusterSchedulerPass k s = _
  rw [State.turned] at *
  simp only [execClusterSchedulerPass, hw, hr, h, Bool.not_true, Bool.or_self, Bool.false_eq_true, if_false]

end

/-! Promotion (R158). -/

section
variable (x : Cluster) (l : Nat)

theorem Cluster.promote_empty (n : Nat) (h : x.level l = []) : x.promote l n = x := by
  cases n with
  | zero => rfl
  | succ n => simp only [Cluster.promote, h]

/-- Level 0 and a head whose wait is not over keep their packets. -/
theorem Cluster.promote_waits {q : QueuedPacket} {r : List QueuedPacket} (n : Nat) (hq : x.level l = q :: r)
    (h : l = 0 ∨ x.wheels < q.since + 4096) : x.promote l n = x := by
  cases n with
  | zero => rfl
  | succ n =>
    simp only [Cluster.promote, hq]
    exact if_pos (Bool.or_eq_true_iff.2 (h.imp decide_eq_true decide_eq_true))

/-- The only packet of a level goes to the tail of the next higher one. -/
theorem Cluster.promote_single {q : QueuedPacket} (n : Nat) (hl : 0 < l) (hq : x.level l = [q]) (h : q.since + 4096 ≤ x.wheels) :
    x.promote l (n + 1) =
      { x with queue := tabPut (tabPut x.queue l []) (l - 1) (x.level (l - 1) ++ [{ q with since := x.wheels }]) } := by
  have hgo : ¬ (decide (l = 0) || decide (x.wheels < q.since + promoteAfter)) = true := by
    simpa only [Bool.or_eq_true, decide_eq_true_eq, not_or] using ⟨hl.ne', Nat.not_lt.2 h⟩
  rw [Cluster.promote, hq]
  simp only [if_neg hgo]
  exact Cluster.promote_empty _ _ _ ((tabGet_tabPut_other _ _ _ (by omega)).trans (tabGet_tabPut_self ..))

end

theorem exec_packetPromotion_waits {s : State} {k l : Nat}
    (h : l = 0 ∨ (s.cluster k).level l = [] ∨ ∃ q r, (s.cluster k).level l = q :: r ∧ (s.cluster k).wheels < q.since + 4096) :
    exec (.packetPromotion k l) s = .next (s.updCluster k fun _ => s.cluster k) := by
  refine congrArg Host.Outcome.next (s.updCluster_congr ?_)
  obtain hl | hempty | ⟨q, r, hq, hwait⟩ := h
  · cases hq : (s.cluster k).level l with
    | nil => exact Cluster.promote_empty _ _ _ hq
    | cons q r => exact Cluster.promote_waits _ _ _ hq (.inl hl)
  · exact Cluster.promote_empty _ _ _ hempty
  · exact Cluster.promote_waits _ _ _ hq (.inr hwait)

theorem exec_packetPromotion_single {s : State} {k l : Nat} {q : QueuedPacket} (hl : 0 < l) (hq : (s.cluster k).level l = [q])
    (h : q.since + 4096 ≤ (s.cluster k).wheels) :
    exec (.packetPromotion k l) s = .next (s.updCluster k fun y => { y with
      queue := tabPut (tabPut y.queue l []) (l - 1) ((s.cluster k).level (l - 1) ++ [{ q with since := (s.cluster k).wheels }]) }) :=
  congrArg Host.Outcome.next (s.updCluster_congr (Cluster.promote_single _ _ 1023 hl hq h))

/-! Stealing (R159, R160). -/

/-- A thief whose request is answered. -/
def State.answered (s : State) (thief : Nat) : State := s.updCluster thief fun x => { x with stealAsked := false }

section
variable {s : State} {thief victim : Nat}

theorem exec_stealRequest_refused (h : (s.answered thief).maySteal thief = false ∨ thief = victim) :
    exec (.stealRequest thief victim) s = .next (s.answered thief) :=
  if_pos (show (!(s.answered thief).maySteal thief || decide (thief = victim)) = true by simpa using h)

variable (hs : (s.answered thief).maySteal thief = true) (hne : thief ≠ victim)
include hs hne

theorem exec_stealRequest_yields {l : Nat} {q : QueuedPacket} (hy : (s.answered thief).yields victim = some (l, q)) :
    exec (.stealRequest thief victim) s =
      .next (((((s.answered thief).updCluster victim fun x => x.dropHead l).queueRoomMade victim).enqueue thief q.packet q.signature
        q.host).updCluster thief fun x => { x with stealNext := 0 }) := by
  show execStealRequest thief victim s = _
  rw [State.answered] at *
  simp only [execStealRequest, hs, hy, hne, decide_false, Bool.not_true, Bool.or_self, Bool.false_eq_true, if_false]

/-- A victim that yields nothing is followed by the next one, or by the wait after a full round. -/
theorem exec_stealRequest_next (hy : (s.answered thief).yields victim = none) :
    let i := ((s.answered thief).cluster thief).stealNext + 1
    exec (.stealRequest thief victim) s =
      if i < ringLength then .next (((s.answered thief).updCluster thief fun x => { x with stealNext := i }).askNext thief)
      else .next ((s.answered thief).updCluster thief fun x => { x with stealNext := 0, stealWait := some x.wheels }) := by
  show execStealRequest thief victim s = _
  rw [State.answered] at *
  simp only [execStealRequest, hs, hy, hne, decide_false, Bool.not_true, Bool.or_self, Bool.false_eq_true, if_false]

end

/-- A thief at the start of a round. -/
def State.newRound (s : State) (k : Nat) : State := s.updCluster k fun x => { x with stealWait := none, stealNext := 0 }

section
variable {s : State} {k : Nat}

theorem exec_stealRoundWait_asks (hs : (s.newRound k).maySteal k = true) (ha : ((s.newRound k).cluster k).stealAsked = false) :
    exec (.stealRoundWait k) s = .next ((s.newRound k).askNext k) :=
  if_pos (show ((s.newRound k).maySteal k && !((s.newRound k).cluster k).stealAsked) = true by rw [hs, ha]; rfl)

theorem exec_stealRoundWait_held (h : (s.newRound k).maySteal k = false ∨ ((s.newRound k).cluster k).stealAsked = true) :
    exec (.stealRoundWait k) s = .next (s.newRound k) :=
  if_neg (show ¬((s.newRound k).maySteal k && !((s.newRound k).cluster k).stealAsked) = true by rcases h with h | h <;> simp [h])

end

/-! The pending-launch store (R155, R156). -/

/-- An entry of a cluster's store. -/
def State.stored (s : State) (k n : Nat) : LaunchEntry := tabGet {} (s.cluster k).store n

section
variable {s : State} {k n : Nat}

theorem exec_pendingLaunchMove_waits
    (h : (s.stored k n).full = false ∨ (s.stored k n).counter ≠ 0 ∨ queueSize ≤ (s.cluster k).queued) :
    exec (.pendingLaunchMove k n) s = .next s := by
  refine if_neg (show ¬((s.stored k n).full && decide ((s.stored k n).counter = 0) &&
    decide ((s.cluster k).queued < queueSize)) = true from ?_)
  rw [← Nat.not_lt] at h
  obtain h | h | h := h <;> simp [h]

theorem exec_pendingLaunchMove_moves (hf : (s.stored k n).full = true) (hc : (s.stored k n).counter = 0)
    (hq : (s.cluster k).queued < queueSize) :
    let moved := (s.updCluster k fun y => { y with store := tabPut y.store n { s.stored k n with full := false } }).enqueue k
      (s.stored k n).packet (s.stored k n).signature false
    exec (.pendingLaunchMove k n) s = .next ((span (8 * k) 8).foldl (fun u d => u.wakeIf d (isRoom (.entry k))) moved) :=
  if_pos (show ((s.stored k n).full && decide ((s.stored k n).counter = 0) && decide ((s.cluster k).queued < queueSize)) = true
    by simp [hf, hc, hq])

end

/-- An absent handle names no entry. -/
theorem liveEntry_absent {s : State} {h : Nat} (ha : fld h 31 31 ≠ 1) : s.liveEntry h = none := if_neg (by simp [ha])

theorem exec_dependencyDecrement_none {s : State} {h : BitVec 32}
    (hn : fld h.toNat 31 31 = 0 ∨ fld h.toNat 30 23 ≠ 0 ∨ s.liveEntry h.toNat = none) : exec (.dependencyDecrement h) s = .next s := by
  show execDependencyDecrement h s = _
  rw [execDependencyDecrement, State.decrement]
  split
  · rfl
  · next hgood =>
    have hlive : s.liveEntry h.toNat = none := by
      obtain h0 | hr | hl := hn
      · exact liveEntry_absent (by simp [h0])
      · exact liveEntry_absent fun h1 => hgood (by simp [h1, hr])
      · exact hl
    simp only [hlive]

theorem exec_dependencyDecrement {s : State} {h : BitVec 32} {x : LaunchEntry} (hr : fld h.toNat 30 23 = 0)
    (hx : s.liveEntry h.toNat = some x) :
    let u := s.putEntry h.toNat { x with counter := x.counter - 1 }
    exec (.dependencyDecrement h) s =
      .next (if x.counter = 1 then u.emitOnce (.pendingLaunchMove (handleCluster h.toNat) (handleEntry h.toNat)) else u) := by
  have hsig : x.signature ||| 0 = x.signature := BitVec.or_zero
  show execDependencyDecrement h s = _
  rw [execDependencyDecrement, State.decrement, if_neg (by simp [hr])]
  simp only [hx, hsig]
  split <;> rfl

/-! Retirement (R151, R157). -/

theorem exec_taskRetirement_none {s : State} {n : Nat} (h : s.inst n = none) : exec (.taskRetirement n) s = .next s := by
  show execTaskRetirement n s = _
  simp only [execTaskRetirement, h]

/-- The cores whose caches a task's end releases. -/
def Inst.held (i : Inst) : List Nat := if i.host then i.cores else [i.core]

/-- Something of a task is left, or a pin holds a line of its cores. -/
def State.busy (s : State) (n : Nat) (i : Inst) : Prop :=
  s.hasThread n = true ∨ s.hasCopy n = true ∨ s.hasJob n = true ∨ s.overflowHeld n i = true ∨ i.held.any s.dirtyPinned = true

section
variable {s : State} {n : Nat} {i : Inst} (h : s.inst n = some i)
include h

theorem exec_taskRetirement_waits (hb : i.st ≠ .live ∨ s.busy n i) : exec (.taskRetirement n) s = .next s := by
  rw [State.busy, Inst.held] at hb
  show execTaskRetirement n s = _
  simp only [execTaskRetirement, h]
  exact if_pos (by simpa only [Bool.or_eq_true, bne_iff_ne, or_assoc] using hb)

theorem exec_taskRetirement_ends (hl : i.st = .live) (hb : ¬ s.busy n i) :
    let r := i.held.foldl (fun u d => u.releaseCore d) s
    let sig := if i.foreign then allOnes512 else (r.core i.core).carried
    let left := ((r.freePlace n i).successor (pktSucc i.packet 0) sig).successor (pktSucc i.packet 1) sig
    exec (.taskRetirement n) s = .next (if i.host then left.hostCompletes n else left) := by
  have hidle : ¬(i.st ≠ .live ∨ s.busy n i) := not_or.2 ⟨not_not.2 hl, hb⟩
  rw [State.busy, Inst.held] at hidle
  show execTaskRetirement n s = _
  simp only [execTaskRetirement, h]
  exact if_neg (by simpa only [Bool.or_eq_true, bne_iff_ne, or_assoc] using hidle)

end

end Sys2Proof.Machine
end

section
/-! Messages and elements in order (spec/13 R279, spec/08 R177). -/

namespace Sys2Proof.Machine

/-! The mailbox. -/

section
variable {s : State} {m : Message} {l : List Message} {n : Nat} (h : s.mailFlight = m :: l) (hm : m.inst = n)
include h hm

theorem exec_mailboxDelivery_held (ha : s.accept m = none) : exec (.mailboxDelivery n) s = .next (s.deliverAll n l) := by
  show execMailboxDelivery n s = _
  simp only [execMailboxDelivery, h, State.deliverAll, hm, bne_self_eq_false, Bool.false_eq_true, if_false, ha]

/-- A thread's message that is accepted leaves, and the later ones follow. -/
theorem exec_mailboxDelivery_accepted {u : State} (hs : m.sender = none) (ha : s.accept m = some u) :
    exec (.mailboxDelivery n) s = .next (State.deliverAll { u with mailFlight := u.mailFlight.erase m } n l) := by
  show execMailboxDelivery n s = _
  simp only [execMailboxDelivery, h, State.deliverAll, hm, bne_self_eq_false, Bool.false_eq_true, if_false, ha, hs, State.sent]

end

theorem exec_mailboxDelivery_none {s : State} (n : Nat) (h : s.mailFlight = []) : exec (.mailboxDelivery n) s = .next s := by
  show execMailboxDelivery n s = _
  simp only [execMailboxDelivery, h, State.deliverAll]

/-! Ports. -/

theorem exec_portElementArrival_edge {s : State} {c : Nat} {dir : Port} (h : neighbour c dir = none) :
    exec (.portElementArrival c dir) s = .next s := by
  show execPortElementArrival c dir s = _
  simp only [execPortElementArrival, h]

/-- No element of a neighbour's send side may join a receive side now. -/
def State.portHeld (s : State) (c d side : Nat) : Prop :=
  s.exchanging c = true ∨ s.exchanging d = true ∨ s.portRoom c ≤ (tabGet [] (s.core c).ports side).length

section
variable {s : State} {c d : Nat} {dir : Port} (hd : neighbour c dir = some d)
include hd

theorem exec_portElementArrival_none (h : tabGet [] (s.core d).sends (portNumber (facing dir)) = []) :
    exec (.portElementArrival c dir) s = .next s := by
  show execPortElementArrival c dir s = _
  simp only [execPortElementArrival, hd, h]

variable {e : Element} {l : List Element} (h : tabGet [] (s.core d).sends (portNumber (facing dir)) = e :: l)
include h

theorem exec_portElementArrival_held (hh : s.portHeld c d (portNumber dir)) : exec (.portElementArrival c dir) s = .next s := by
  rw [State.portHeld] at hh
  show execPortElementArrival c dir s = _
  simp only [execPortElementArrival, hd, h]
  exact if_pos (by simpa only [Bool.or_eq_true, decide_eq_true_eq, or_assoc] using hh)

theorem exec_portElementArrival_joins (hh : ¬ s.portHeld c d (portNumber dir)) :
    let side := portNumber dir
    let joined : State := (s.updCore d fun x => { x with sends := tabPut x.sends (portNumber (facing dir)) l }).updCore c fun x => { x with
      ports := tabPut x.ports side (tabGet [] x.ports side ++ [e]) }
    exec (.portElementArrival c dir) s = .next ((joined.wakeIf c (isElement (122 + side))).sideMoved c dir) := by
  rw [State.portHeld] at hh
  show execPortElementArrival c dir s = _
  simp only [execPortElementArrival, hd, h]
  exact if_neg (by simpa only [Bool.or_eq_true, decide_eq_true_eq, or_assoc] using hh)

end

end Sys2Proof.Machine

namespace Sys2Proof.Proofs

open Machine Safety

/-- Settles O50: each event goes on from what it finds: a packet that fits or not, a victim that yields or not, a live entry or none, an end
of a task or not yet, room or none. -/
theorem schedulerEvents : Obligations.SchedulerEvents := by
  unfold Obligations.SchedulerEvents
  intro s k c n level thief victim h dir boundary
  refine ⟨fun v w hpass hnone ha => ⟨exec_wheelBoundary hpass hnone ha, boundaryDone_seated _ c⟩, arrive_none, fun q hq =>
      ⟨arrive_held hq, fun hs hd => ⟨arrive_unfit hq hs hd, fun hf => ⟨fun i hp => ?_, fun x seats banks i hp hseats hbanks hi => ?_⟩⟩⟩,
    ⟨exec_clusterSchedulerPass_idle, fun hw hr => ⟨exec_clusterSchedulerPass_steals hw hr, fun l d q =>
      exec_clusterSchedulerPass_dispatches hw hr⟩⟩,
    ⟨exec_packetPromotion_waits, fun q => exec_packetPromotion_single⟩,
    ⟨exec_stealRequest_refused, fun hs hne => ⟨fun l q => exec_stealRequest_yields hs hne, fun hy => ⟨fun hi => ?_, fun hi => ?_⟩⟩⟩,
    ⟨exec_stealRoundWait_asks, exec_stealRoundWait_held⟩, ⟨exec_pendingLaunchMove_waits, exec_pendingLaunchMove_moves⟩,
    ⟨exec_dependencyDecrement_none, fun x _ hr hx => ⟨fun h1 => ?_, fun h1 => ?_⟩⟩, exec_taskRetirement_none, fun i hi =>
      ⟨exec_taskRetirement_waits hi, exec_taskRetirement_ends hi⟩, exec_mailboxDelivery_none n, fun m l hl hm hs =>
      ⟨exec_mailboxDelivery_held hl hm, fun u => exec_mailboxDelivery_accepted hl hm hs⟩, exec_portElementArrival_edge, fun d hd =>
      ⟨exec_portElementArrival_none hd, fun e l he => ⟨exec_portElementArrival_held hd he, exec_portElementArrival_joins hd he⟩⟩⟩
  · exact (arrive_fits hq hs hd hf).trans (dispatch_status hp)
  · exact (arrive_fits hq hs hd hf).trans (dispatch_starts hp hseats hbanks hi)
  · exact (exec_stealRequest_next hs hne hy).trans (if_pos hi)
  · exact (exec_stealRequest_next hs hne hy).trans (if_neg (Nat.not_lt.2 hi))
  · exact (exec_dependencyDecrement hr hx).trans (congrArg Host.Outcome.next (if_pos h1))
  · exact (exec_dependencyDecrement hr hx).trans (congrArg Host.Outcome.next (if_neg h1))

end Sys2Proof.Proofs
end

section
/-! Barriers (spec/09 R206 to R208): scopes of releases and acquires, and what each barrier instruction finds in its barrier. -/

namespace Sys2Proof.Machine

open Safety

/-! Releases and acquires of a scope (spec/11 R252). -/

section
variable {s : State} {sc : BitVec 3}

theorem State.acquireScope_eq (s : State) (sc : BitVec 3) (g : BitVec 512) : s.acquireScope sc g = acquires s sc g := by
  simp only [State.acquireScope, acquires, wideScope, decide_eq_true_eq]

theorem acquiringScope_ok (k : State → Res) (h : mayAcquire s sc) : acquiringScope sc k s = k s := by
  by_cases hw : 2 ≤ sc.toNat
  · simp only [acquiringScope, wideScope, hw, decide_true, if_true, acquiring_ok k (h hw)]
  · simp only [acquiringScope, wideScope, hw, decide_false, Bool.false_eq_true, if_false]

theorem acquiringScope_held (k : State → Res) (h : ¬ mayAcquire s sc) : acquiringScope sc k s = park (.room .pin) s := by
  obtain ⟨hw, hp⟩ : 2 ≤ sc.toNat ∧ s.dirtyPinned s.ic = true := by simpa [mayAcquire] using h
  simp only [acquiringScope, wideScope, hw, decide_true, if_true, acquiring_held k hp]

/-- A release that passes goes on with its signature: nothing to do for the thread alone, the REDs within the core, and the steps of
R245 beyond it. -/
theorem releaseScope_ok {u : State} {g : BitVec 512} (k : BitVec 512 → State → Res) (h : releases s sc u g) :
    releaseScope sc k s = k g u := by
  rcases h with ⟨rfl, rfl, rfl⟩ | ⟨rfl, hr, rfl, rfl⟩ | ⟨hw, hr, hd, rfl, rfl⟩
  · rfl
  · exact afterReds_ok _ hr
  · rw [releaseScope, if_pos (show wideScope sc = true from decide_eq_true hw), released_ok _ hr hd]

end

/-! Each instruction, by what it finds in the barrier that its register names. -/

/-- The barrier of the issuing core that a register names. -/
def State.namedBarrier (s : State) (a : BitVec 7) : Barrier := (s.core s.ic).barrier (barrierOf (X s a))

/-- A barrier may not be set up: a live owner other than the thread's own holds it, or some thread waits in it. -/
def State.barrierTaken (s : State) (x : Barrier) : Prop :=
  (∃ o, x.owner = some o ∧ o ≠ s.cur.inst ∧ (s.inst o).isSome = true) ∨ (x.owner = some s.cur.inst ∧ x.mask ≠ 0)

theorem exec_barInit {s : State} {a b d : BitVec 7} [Decidable (s.barrierTaken (s.namedBarrier a))] (hl : s.cur.light = false)
    (hn : named s.cur [a, b, d]) :
    exec (.barInit b a d) s =
      if (X s b).toNat = 0 ∨ 64 < (X s b).toNat then .next (wrote s d 4 false)
      else if s.barrierTaken (s.namedBarrier a) then .next (wrote s d 1 false)
      else .next (wrote (s.putBarrier s.ic (barrierOf (X s a))
        { s.namedBarrier a with owner := some s.cur.inst, count := (X s b).toNat, mask := 0, opening := 0 }) d 0 false) := by
  show execBarInit b a d s = _
  rw [execBarInit, heavyOnly_ok _ _ hl, limit_ok _ hn]
  refine ite_congr (by simp [X]) (fun _ => rfl) fun _ => ite_congr ?_ (fun _ => rfl) fun _ => rfl
  rw [← X, ← State.namedBarrier, State.barrierTaken]
  cases (s.namedBarrier a).owner <;> simp

section
variable {s : State} {sc : BitVec 3} {a d : BitVec 7} (hl : s.cur.light = false)
include hl

theorem exec_barArrive_notOwned (hn : named s.cur [a, d]) (ho : (s.namedBarrier a).owner ≠ some s.cur.inst) :
    exec (.barArrive sc a d) s = .next (wrote s d (BitVec.ofNat 64 (2 ^ 63 + barrierOf (X s a))) false) := by
  show execBarArrive sc a d s = _
  rw [execBarArrive, heavyOnly_ok _ _ hl, limit_ok _ hn]
  exact if_pos (bne_iff_ne.2 ho)

theorem exec_barArrive_waits (hn : named s.cur [a, d]) (ho : (s.namedBarrier a).owner = some s.cur.inst)
    (hm : (s.namedBarrier a).mask.getLsbD s.is = true) :
    exec (.barArrive sc a d) s = .next (s.park (.barrierOpen (barrierOf (X s a)))) := by
  show execBarArrive sc a d s = _
  rw [execBarArrive, heavyOnly_ok _ _ hl, limit_ok _ hn]
  exact (if_neg (mt bne_iff_ne.1 (not_not.2 ho))).trans (if_pos hm)

theorem exec_barArrive_joins (hn : named s.cur [a, d]) (ho : (s.namedBarrier a).owner = some s.cur.inst)
    (hm : (s.namedBarrier a).mask.getLsbD s.is = false) {u : State} {g : BitVec 512} (hr : releases s sc u g) :
    let n := barrierOf (X s a)
    let x := s.namedBarrier a
    let m := x.mask ||| (1#64 <<< u.is)
    let v := u.putBarrier u.ic n { x with mask := m, opening := x.opening ||| g }
    exec (.barArrive sc a d) s =
      .next (wrote (if onesIn m = x.count then v.completePhase v.ic n else v) d (BitVec.ofNat 64 (x.phase.toNat * 1024 + n)) false) := by
  show execBarArrive sc a d s = _
  rw [execBarArrive, heavyOnly_ok _ _ hl, limit_ok _ hn]
  exact ((if_neg (mt bne_iff_ne.1 (not_not.2 ho))).trans (if_neg (Bool.eq_false_iff.1 hm))).trans (releaseScope_ok _ hr)

theorem exec_barWait_granted (hn : named s.cur [a]) {g : BitVec 512} (hg : s.cur.granted = some g) (ha : mayAcquire s sc) :
    exec (.barWait sc a) s = .next (acquires s sc g).advance := by
  show execBarWait sc a s = _
  simp only [execBarWait, heavyOnly_ok _ _ hl, limit_ok _ hn, hg, acquiringScope_ok _ ha, State.acquireScope_eq, done]

theorem exec_barWait {x : Barrier} (hn : named s.cur [a]) (hg : s.cur.granted = none) (hx : s.namedBarrier a = x) :
    let p : BitVec 32 := (X s a).extractLsb' 10 32
    exec (.barWait sc a) s =
      if (X s a).getLsbD 63 = true ∨ x.owner ≠ some s.cur.inst then .next s.advance
      else if x.phase ≠ p then acquiringScope sc (fun s => .next (acquires s sc (tabGet 0 x.completed p.toNat)).advance) s
      else .next (s.park (.barrier (barrierOf (X s a)) p sc)) := by
  subst hx
  show execBarWait sc a s = _
  simp only [execBarWait, heavyOnly_ok _ _ hl, limit_ok _ hn, hg, State.acquireScope_eq, done]
  exact ite_congr (by simp [X, State.namedBarrier]) (fun _ => rfl) fun _ =>
    ite_congr (by simp [X, State.namedBarrier]) (fun _ => rfl) fun _ => rfl

theorem exec_barDrop_notOwned (hn : named s.cur [a]) (ho : (s.namedBarrier a).owner ≠ some s.cur.inst) :
    exec (.barDrop sc a) s = .next s.advance := by
  show execBarDrop sc a s = _
  rw [execBarDrop, heavyOnly_ok _ _ hl, limit_ok _ hn]
  exact if_pos (bne_iff_ne.2 ho)

theorem exec_barDrop_waits (hn : named s.cur [a]) (ho : (s.namedBarrier a).owner = some s.cur.inst)
    (hm : (s.namedBarrier a).mask.getLsbD s.is = true) :
    exec (.barDrop sc a) s = .next (s.park (.barrierOpen (barrierOf (X s a)))) := by
  show execBarDrop sc a s = _
  rw [execBarDrop, heavyOnly_ok _ _ hl, limit_ok _ hn]
  exact (if_neg (mt bne_iff_ne.1 (not_not.2 ho))).trans (if_pos hm)

theorem exec_barDrop_leaves (hn : named s.cur [a]) (ho : (s.namedBarrier a).owner = some s.cur.inst)
    (hm : (s.namedBarrier a).mask.getLsbD s.is = false) {u : State} {g : BitVec 512} (hr : releases s sc u g) :
    let n := barrierOf (X s a)
    let x := s.namedBarrier a
    let c := x.count - 1
    let v := u.putBarrier u.ic n { x with count := c, opening := x.opening ||| g, owner := if c = 0 then none else x.owner }
    exec (.barDrop sc a) s =
      .next (if c != 0 && x.mask != 0 && onesIn x.mask = c then v.completePhase v.ic n else v).advance := by
  show execBarDrop sc a s = _
  rw [execBarDrop, heavyOnly_ok _ _ hl, limit_ok _ hn]
  exact ((if_neg (mt bne_iff_ne.1 (not_not.2 ho))).trans (if_neg (Bool.eq_false_iff.1 hm))).trans (releaseScope_ok _ hr)

end

/-- The phase that ends leaves its signature under its number, and the next one is open and empty. -/
theorem barrier_completePhase (s : State) (c k : Nat) :
    let y := (s.core c).barrier k
    ((s.completePhase c k).core c).barrier k =
      { y with phase := y.phase + 1, mask := 0, completed := tabPut y.completed y.phase.toNat y.opening, opening := 0 } := by
  simp only [State.completePhase, State.core_updCore, Core.barrier, tabGet_tabPut_self]

end Sys2Proof.Machine

namespace Sys2Proof.Proofs

open Machine Safety

/-- Settles O36: each instruction is one case of its barrier's owner, arrived threads and phase, after the release or before the acquire
of its scope. -/
theorem barriers : Obligations.Barriers := by
  unfold Obligations.Barriers
  intro s sc a b d hl barrier n x own count busy
  classical
  refine ⟨fun hn => ⟨fun hc => ?_, fun h1 h64 hb => ?_, fun h1 h64 hb => ?_⟩,
    fun hn => ⟨exec_barArrive_notOwned hl hn, exec_barArrive_waits hl hn, fun ho hm _ _ => exec_barArrive_joins hl hn ho hm⟩,
    fun hn => ⟨fun _ => exec_barWait_granted hl hn, fun hg => ?_, exec_barDrop_notOwned hl hn, exec_barDrop_waits hl hn,
      fun ho hm _ _ => exec_barDrop_leaves hl hn ho hm⟩, barrier_completePhase s⟩
  · exact (exec_barInit hl hn).trans (if_pos hc)
  · have hc : ¬ (count = 0 ∨ 64 < count) := by omega
    exact (exec_barInit hl hn).trans ((if_neg hc).trans (if_pos hb))
  · have hc : ¬ (count = 0 ∨ 64 < count) := by omega
    exact (exec_barInit hl hn).trans ((if_neg hc).trans (if_neg hb))
  · have hwait : exec (.barWait sc a) s = _ := exec_barWait (x := x) hl hn hg rfl
    have howned (h63 : (X s a).getLsbD 63 = false) (ho : own) : ¬ ((X s a).getLsbD 63 = true ∨ x.owner ≠ some s.cur.inst) :=
      not_or.2 ⟨Bool.eq_false_iff.1 h63, not_not.2 ho⟩
    refine ⟨fun h => hwait.trans (if_pos h), fun h63 ho hp ha => ?_, fun h63 ho hp => ?_, fun h63 ho hp ha => ?_⟩
    · exact hwait.trans ((if_neg (howned h63 ho)).trans ((if_pos hp).trans (acquiringScope_ok _ ha)))
    · rw [hp]
      exact hwait.trans ((if_neg (howned h63 ho)).trans (if_neg (not_not.2 hp)))
    · exact hwait.trans ((if_neg (howned h63 ho)).trans ((if_pos hp).trans (acquiringScope_held _ ha)))

end Sys2Proof.Proofs
end

section
/-! Monitors, counter waits and message waits (spec/09 R209 to R212), and the notices and timeouts that end them. -/

namespace Sys2Proof.Machine

open Safety

section
variable {s : State} {sc : BitVec 3} {a b d : BitVec 7} (hl : s.cur.light = false)
include hl

/-- Arming only translates: a block that is armed already is left, and a fifth one refused. -/
theorem exec_monArm {t : Target} (hn : named s.cur [a, d])
    (hx : s.xlate s.ic s.is { r := true } (address s a 0 1) = .ok t) (hu : s.unreachable t = false) :
    exec (.monArm a d) s =
      if (s.cur.monitors.any fun m => m.place = t.place.block) = true then .next (wrote s d 0 false)
      else if 4 ≤ s.cur.monitors.length then .next (wrote s d 1 false)
      else .next (wrote (s.updCur fun u => { u with monitors := u.monitors ++ [⟨t.place.block, false, false⟩] }) d 0 false) := by
  show execMonArm a d s = _
  rw [execMonArm, heavyOnly_ok _ _ hl, limit_ok _ hn, dataAddr_eq, access_ok _ (Nat.mod_one _) hx hu]
  rfl

theorem exec_monWait (hn : named s.cur [a, d]) :
    exec (.monWait sc a d) s =
      if s.cur.monitors = [] then .next (wrote s d 4 false)
      else if (s.cur.monitors.any fun m => m.triggered) = true then .next (wrote (s.updCur Thread.clearTriggered) d 1 false)
      else .next (s.park (.monitor (s.cur.rename d.toNat) (if (X s a).toNat = 0 then 0 else (X s a).toNat + 1) sc s.ic)) := by
  show execMonWait sc a d s = _
  rw [execMonWait, heavyOnly_ok _ _ hl, limit_ok _ hn]
  rfl

theorem exec_monClr : exec .monClr s = .next (s.updCur fun u => { u with monitors := [] }).advance := by
  show execMonClr s = _
  rw [execMonClr, heavyOnly_ok _ _ hl, done]

theorem exec_waitm :
    exec .waitm s = if ((s.core s.ic).oldest s.cur.inst s.is).isSome = true then .next s.advance else .next (s.park .mail) := by
  show execWaitm s = _
  rw [execWaitm, heavyOnly_ok _ _ hl, done, park]

theorem exec_waitc_granted (hn : named s.cur [a, b]) {g : BitVec 512} (hg : s.cur.granted = some g) (ha : mayAcquire s sc) :
    exec (.waitc b a sc) s = .next (completed (acquires s sc g)) := by
  show execWaitc b a sc s = _
  simp only [execWaitc, heavyOnly_ok _ _ hl, limit_ok _ hn, hg, acquiringScope_ok _ ha, State.acquireScope_eq, doneLatc_eq]

/-- A counter that is read without poison, hold or trap ends the wait, or holds the thread, by its value. -/
theorem exec_waitc {t : Target} {r : List Byte × Option Nat × State} (hn : named s.cur [a, b]) (hg : s.cur.granted = none)
    (h8 : (address s a 0 1).off.toNat % 8 = 0) (hx : s.xlate s.ic s.is { r := true } (address s a 0 1) = .ok t)
    (hu : s.unreachable t = false) (ho : s.cur.redOverlap t.place 8 = false) (hh : s.readHeld s.ic s.is true t 8 = false)
    (ha : mayAcquire s sc) (hread : s.readFor s.ic s.is true t 8 = r) (hp : r.2.1 = none) :
    exec (.waitc b a sc) s =
      if (X s b).toNat ≤ leNat r.1 then parkAccess (.done true) (acquires r.2.2 sc (r.2.2.sigAcquire t))
      else .next (r.2.2.park (.counter t (X s b) sc)) := by
  have hpin : (wideScope sc && s.dirtyPinned s.ic) = false := by
    rw [Bool.and_eq_false_imp]
    exact fun hw => ha (of_decide_eq_true hw)
  show execWaitc b a sc s = _
  simp only [execWaitc, heavyOnly_ok _ _ hl, limit_ok _ hn, hg, dataAddr_eq, access_ok _ h8 hx hu, ho, hh, hpin, hread, hp,
    State.acquireScope_eq, Bool.or_self, Bool.false_eq_true, if_false]
  rfl

end

/-! What ends a wait. -/

theorem exec_monitorNotice {s : State} {c sl : Nat} (h : ((s.thread c sl).monitors.any fun m => m.noticed) = true) :
    let t := s.thread c sl
    exec (.monitorNotice c sl) s =
      .next (s.putThread c sl
        (({ t with monitors := t.monitors.map fun m => { m with triggered := m.triggered || m.noticed, noticed := false } } : Thread).wakeCause
          (s.core c).cyc 1)) :=
  if_pos h

/-- A count of one is the last cycle of a timeout. -/
theorem exec_monWaitTimeout {s : State} {c sl rd k : Nat} {sc : BitVec 3} (h : (s.thread c sl).st = .parked (.monitor rd 1 sc k)) :
    exec (.monWaitTimeout c sl) s = .next (s.putThread c sl ((s.thread c sl).wakeCause (s.core c).cyc 2)) := by
  show execMonWaitTimeout c sl s = _
  simp only [execMonWaitTimeout, h]

end Sys2Proof.Machine

namespace Sys2Proof.Proofs

open Machine Safety

/-- Settles O37: arming, waiting and counting are each split as the instruction splits them, and an event wakes its thread by its cause. -/
theorem monitorsAndWaits : Obligations.MonitorsAndWaits := by
  unfold Obligations.MonitorsAndWaits
  intro s sc a b d va
  refine ⟨fun hl => ⟨fun hn => ⟨fun t hx hu => ?_, fun hm => ?_, fun ht => ?_, fun hm ht => ?_⟩, exec_monClr hl, fun ⟨m, hm⟩ => ?_,
    fun hm => ?_, fun hn => ⟨fun _ => exec_waitc_granted hl hn, fun hg t h8 hx hu ho hh ha hp => ?_⟩⟩,
    fun c sl => ⟨exec_monitorNotice, fun _ _ _ => exec_monWaitTimeout⟩⟩
  · have harm := exec_monArm hl hn hx hu
    exact ⟨fun h => harm.trans (if_pos h), fun h => ⟨fun h4 => harm.trans ((if_neg (Bool.eq_false_iff.1 h)).trans (if_pos h4)),
      fun h4 => harm.trans ((if_neg (Bool.eq_false_iff.1 h)).trans (if_neg (Nat.not_le.2 h4)))⟩⟩
  · exact (exec_monWait hl hn).trans (if_pos hm)
  · have hm : s.cur.monitors ≠ [] := by rintro hm; simp [hm] at ht
    exact (exec_monWait hl hn).trans ((if_neg hm).trans (if_pos ht))
  · exact (exec_monWait hl hn).trans ((if_neg hm).trans (if_neg (Bool.eq_false_iff.1 ht)))
  · exact (exec_waitm hl).trans (if_pos (by rw [hm]; rfl))
  · exact (exec_waitm hl).trans (if_neg (by rw [hm]; exact Bool.false_ne_true))
  · have hwait : exec (.waitc b a sc) s = _ := exec_waitc hl hn hg h8 hx hu ho hh ha rfl hp
    exact ⟨fun h => hwait.trans (if_pos h), fun h => hwait.trans (if_neg (Nat.not_le.2 h))⟩

end Sys2Proof.Proofs
end

section
/-! Threads (spec/09 R191 to R196): their creation after a release, their end, their yield, and the migration of light threads. -/

namespace Sys2Proof.Machine

open Safety

/-! SPAWN and SPAWNL (R191, R192). -/

/-- The heavy child of the issuing thread, with the registers g3 to g8 that its allocation holds. -/
def State.heavyChild (s : State) (entry : Word) (shape block : Nat) : Thread :=
  let fmtp := match s.inst s.cur.inst with
    | some i => i.fmtp
    | none => s.cur.fmtp
  (s.freshThread s.ic s.cur.inst fmtp s.cur.sclp entry (8 * shape) block s.now).putRegs 3 false (inherited s.cur 3 6 (8 * shape))

/-- The light child of the issuing thread, with the registers g3 to g10 and the issuer's pw. -/
def State.lightChild (s : State) (entry : Word) (block : Nat) : Thread :=
  Thread.putRegs
    { st := .ready s.now false, light := true, inst := s.cur.inst, alloc := 16, block := block
      pw := (s.cur.pw.extractLsb' 0 40).setWidth 64, pc := entry, device := s.cur.device } 3 false (inherited s.cur 3 8 11)

section
variable {s : State} {a b d : BitVec 7}

theorem exec_spawn_bad (hl : s.cur.light = false) (hn : named s.cur [a, b, d])
    (h : (X s a).toNat % 4 ≠ 0 ∨ (X s b).toNat % 16 = 0 ∨ 16 ≤ (X s b).toNat) :
    exec (.spawn b a d) s = .next (wrote s d 4 false) := by
  show execSpawn b a d s = _
  rw [execSpawn, heavyOnly_ok _ _ hl, limit_ok _ hn]
  exact if_pos (by simpa [X, or_assoc] using h)

/-- An aligned entry and a shape that an allocation has: a slot is looked for, then blocks, and then the child starts. -/
theorem exec_spawn (hl : s.cur.light = false) (hn : named s.cur [a, b, d]) (h4 : (X s a).toNat % 4 = 0)
    (hne : (X s b).toNat % 16 ≠ 0) (h16 : (X s b).toNat < 16) :
    exec (.spawn b a d) s =
      (s.core s.ic).freeSlot.elim (.next (wrote s d 1 false)) fun sl =>
        ((s.core s.ic).firstFit (X s b).toNat).elim (.next (wrote s d 2 false)) fun block =>
          released (fun u => .next (wrote (u.startThread u.ic sl (u.heavyChild (X s a) (X s b).toNat block)) d 0 false)) s := by
  have hok : ¬ (((X s a).toNat % 4 != 0 || (X s b).toNat % 16 = 0 || 16 ≤ (X s b).toNat) = true) := by simp [h4, hne, h16]
  show execSpawn b a d s = _
  rw [execSpawn, heavyOnly_ok _ _ hl, limit_ok _ hn]
  refine (if_neg hok).trans ?_
  rw [X, X]
  cases (s.core s.ic).freeSlot with
  | none => rfl
  | some sl => cases (s.core s.ic).firstFit (s.cur.opnd b).val.toNat <;> rfl

theorem exec_spawnl_bad (hn : named s.cur [a, d]) (h : (X s a).toNat % 4 ≠ 0) :
    exec (.spawnl a d) s = .next (wrote s d 4 false) := by
  show execSpawnl a d s = _
  rw [execSpawnl, limit_ok _ hn]
  exact if_pos (bne_iff_ne.2 h)

theorem exec_spawnl (hn : named s.cur [a, d]) (h4 : (X s a).toNat % 4 = 0) :
    exec (.spawnl a d) s =
      (s.core s.ic).freeSlot.elim (.next (wrote s d 1 false)) fun sl =>
        ((s.core s.ic).firstFit 2).elim (.next (wrote s d 2 false)) fun block =>
          released (fun u => .next (wrote ((u.startThread u.ic sl (u.lightChild (X s a) block)).updInst u.cur.inst fun i =>
            { i with foreign := true }) d 0 false)) s := by
  show execSpawnl a d s = _
  rw [execSpawnl, limit_ok _ hn]
  refine (if_neg (mt bne_iff_ne.1 (not_not.2 h4))).trans ?_
  cases (s.core s.ic).freeSlot with
  | none => rfl
  | some sl => cases (s.core s.ic).firstFit 2 <;> rfl

end

/-! EXIT, YIELD and MIGRATE (R194 to R196). -/

theorem exec_exit {s : State} (h : s.cur.reds = []) : exec .exit s = .next (s.endThread s.ic s.is) := by
  show execExit s = _
  rw [execExit, afterReds_ok _ h]

theorem exec_exit_waits {s : State} (h : s.cur.reds ≠ []) : exec .exit s = .next (s.park .reds) := if_pos (bne_iff_ne.2 h)

/-- A thread that is ready from a cycle on, behind the others of that cycle; a halted one stays halted. -/
def Thread.readyBehind (since : Nat) (t : Thread) : Thread := { t with
  st := match t.st with
    | .halted w => .halted w
    | .free | .ready _ _ | .seated _ _ | .parked _ | .frozen | .stopped => .ready since true }

theorem exec_yield (s : State) : exec .yield s = .next (s.advance.updCur (Thread.readyBehind ((s.now / 16 + 1) * 16))) := rfl

/-- The issuing light thread gone on to the next word, and on its way to a home where its queue takes it now. -/
def State.leaving (s : State) (home : Nat) : State :=
  let u := s.advance
  let v := u.park (.migration home)
  if u.queueRoom home then v.sendPacket home (u.cur.packet u.ic u.is) else v

theorem migrate_advance {s : State} (home : Nat) (h : s.cur.reds = []) : migrate home s.advance = .next (s.leaving home) := by
  have hr : s.advance.cur.reds = [] := by rw [State.cur_advance, h]
  exact if_neg (by simp [hr])

/-- A light thread's access goes on with its target, whether or not the target's device answers. -/
theorem access_light {need : Need} {size : Nat} {va : VAddr} {t : Target} {s : State} (k : Target → State → Res)
    (hl : s.cur.light = true) (h : va.off.toNat % size = 0) (hx : s.xlate s.ic s.is need va = .ok t) : access need size va k s = k t s := by
  simp [access, h, hx, hl]

section
variable {s : State} {a : BitVec 7} {t : Target} (hl : s.cur.light = true) (hn : named s.cur [a])
  (hx : s.xlate s.ic s.is {} (address s a 0 1) = .ok t)
include hl hn hx

/-- A place of this device whose home is the issuing core. -/
theorem exec_migrate_stays (h : (∃ c w, t.place = .window c w) ∨
      (((∃ pa, t.place = .home pa) ∨ ∃ f v e, t.place = .mx f v e) ∧ t.homeCore = some s.ic)) :
    exec (.migrate a) s = .next s.advance := by
  show execMigrate a s = _
  simp only [execMigrate, hl, Bool.not_true, Bool.false_eq_true, if_false, limit_ok _ hn, dataAddr_eq, access_light _ hl (Nat.mod_one _) hx]
  rcases h with ⟨c, w, hp⟩ | ⟨⟨pa, hp⟩ | ⟨f, v, e, hp⟩, hh⟩
  · simp only [hp, done]
  · simp only [hp, hh, if_true, done]
  · simp only [hp, hh, if_true, done]

variable (hr : s.cur.reds = [])
include hr

theorem exec_migrate_moves (h : (∃ pa, t.place = .home pa) ∨ ∃ f v e, t.place = .mx f v e) (hh : t.homeCore ≠ some s.ic) :
    exec (.migrate a) s = .next (s.leaving (t.homeCore.getD 0)) := by
  show execMigrate a s = _
  simp only [execMigrate, hl, Bool.not_true, Bool.false_eq_true, if_false, limit_ok _ hn, dataAddr_eq, access_light _ hl (Nat.mod_one _) hx,
    hr, bne_self_eq_false, migrate_advance _ hr]
  rcases h with ⟨pa, hp⟩ | ⟨f, v, e, hp⟩
  · simp only [hp, hh, if_false]
  · simp only [hp, hh, if_false]

/-- Another device takes the thread where it answers and light threads may cross to it. -/
theorem exec_migrate_remote {sp p : Nat} (hp : t.place = .remote sp p) :
    exec (.migrate a) s =
      if sp = 255 ∨ s.unreachable t = true ∨ s.accepted 9 = false then
        .next (s.enterTrap s.ic s.is 8 (address s a 0 1).off s.cur.pc (address s a 0 1).space)
      else .next (s.leaving t.queue) := by
  show execMigrate a s = _
  simp only [execMigrate, hl, Bool.not_true, Bool.false_eq_true, if_false, limit_ok _ hn, dataAddr_eq, access_light _ hl (Nat.mod_one _) hx,
    hr, bne_self_eq_false, migrate_advance _ hr, hp]
  exact ite_congr (by simp [or_assoc]) (fun _ => rfl) fun _ => rfl

end

end Sys2Proof.Machine

namespace Sys2Proof.Proofs

open Machine Safety

/-- Settles O39: a child starts after the release where a slot and blocks are found; a thread ends once its REDs are performed; a light
thread migrates by where its target stands. -/
theorem threadControl : Obligations.ThreadControl := by
  unfold Obligations.ThreadControl
  intro s a b d entry shape va child lightChild moved
  refine ⟨fun hl hn => ⟨exec_spawn_bad hl hn, fun h4 hne h16 => ?_⟩, fun hn => ⟨exec_spawnl_bad hn, fun h4 => ?_⟩, exec_exit,
    exec_exit_waits, ⟨_, exec_yield s, ?_⟩, fun hl hn t hx hr => ⟨exec_migrate_stays hl hn hx, exec_migrate_moves hl hn hx hr,
      fun sp p hp hsp hu h9 => ?_, fun sp p hp hbad => (exec_migrate_remote hl hn hx hr hp).trans (if_pos hbad)⟩⟩
  · have hspawn := exec_spawn hl hn h4 hne h16
    refine ⟨fun hs => ?_, fun sl hs => ⟨fun hb => ?_, fun block hb hr hd => ?_⟩⟩
    · rw [hspawn, hs]
      rfl
    · rw [hspawn, hs, Option.elim, hb]
      rfl
    · rw [hspawn, hs, Option.elim, hb, Option.elim, released_ok _ hr hd]
      rfl
  · have hspawn := exec_spawnl hn h4
    refine ⟨fun hs => ?_, fun sl hs => ⟨fun hb => ?_, fun block hb hr hd => ?_⟩⟩
    · rw [hspawn, hs]
      rfl
    · rw [hspawn, hs, Option.elim, hb]
      rfl
    · rw [hspawn, hs, Option.elim, hb, Option.elim, released_ok _ hr hd]
      rfl
  · exact (State.cur_updCur ..).trans (congrArg (Thread.readyBehind _) (State.cur_advance s))
  · exact (exec_migrate_remote hl hn hx hr hp).trans (if_neg (by simp [hsp, hu, h9]))

end Sys2Proof.Proofs
end

section
/-! Iterations (spec/09 R202, spec/07 R161) and the range deque (spec/09 R203 to R205, spec/07 R163 to R165). -/

namespace Sys2Proof.Machine

open Safety

/-! Consecutive register fields within the allocation. -/

theorem span_within {t : Thread} {n m : Nat} (h : ∀ i < m, t.rename (n + i) < t.bound) : ∀ j ∈ span n m, t.rename j < t.bound := by
  intro j hj
  obtain ⟨hlo, hhi⟩ := mem_span.1 hj
  simpa [Nat.add_sub_cancel' hlo] using h (j - n) (by omega)

theorem limitNumbers_span {s : State} {n m : Nat} (k : State → Res) (h : ∀ i < m, s.cur.rename (n + i) < s.cur.bound) :
    limitNumbers (span n m) k s = k s :=
  limitNumbers_ok k (span_within h)

theorem limitNumbers_cons_span {s : State} {a n m : Nat} (k : State → Res) (ha : s.cur.rename a < s.cur.bound)
    (h : ∀ i < m, s.cur.rename (n + i) < s.cur.bound) : limitNumbers (a :: span n m) k s = k s :=
  limitNumbers_ok k (List.forall_mem_cons.2 ⟨ha, span_within h⟩)

/-! The iteration fetcher. -/

theorem exec_iterInit {s : State} {a : BitVec 7} (hl : s.cur.light = false) (hn : named s.cur [a]) :
    exec (.iterInit a) s =
      if (address s a 0 1).off.toNat % 32 ≠ 0 then trapAt 2 (address s a 0 1) s
      else .next (s.updCur fun t => { t with fetcher := some (address s a 0 1), cur := 0, stop := 0 }).advance := by
  show execIterInit a s = _
  rw [execIterInit, heavyOnly_ok _ _ hl, limit_ok _ hn, dataAddr_eq]
  exact ite_congr (by simp) (fun _ => rfl) fun _ => rfl

section
variable {s : State} {d : BitVec 7} {p : BitVec 5} (hl : s.cur.light = false)
  (hroom : ∀ i < 3, s.cur.rename (d.toNat + i) < s.cur.bound)
include hl hroom

theorem exec_iterNext_none (hf : s.cur.fetcher = none) : exec (.iterNext p d) s = .next (s.iterFail p d 6).advance := by
  show execIterNext p d s = _
  simp only [execIterNext, heavyOnly_ok _ _ hl, limitNumbers_span _ hroom, hf, done]

variable {va : VAddr} (hf : s.cur.fetcher = some va)
include hf

theorem exec_iterNext_gives (hc : s.cur.cur ≠ s.cur.stop) : exec (.iterNext p d) s = .next (s.iterGive p d).advance := by
  show execIterNext p d s = _
  simp only [execIterNext, heavyOnly_ok _ _ hl, limitNumbers_span _ hroom, hf, done, bne_iff_ne.2 hc, if_true]

end

/-- The descriptor as a claim reads it at its home: what the thread's core holds of it goes home first. -/
def State.readDescriptor (s : State) (t : Target) : List Byte × Option Nat × State :=
  ((s.passBy s.ic s.is t 32).takeBack (.core s.ic) t 32).readTarget t 32

/-- A chunk of a valid nest is claimed: the descriptor's next iteration moves on at its home, and the thread holds the chunk. -/
def State.claimChunk (s : State) (t : Target) (n : Nat) : State :=
  ((s.noteWrite s.ic t 8).writeTarget (.core s.ic) t (leBytes (fld n 63 0 + chunkSize n) 8)).updCur fun u =>
    { u with cur := fld n 63 0, stop := fld n 63 0 + chunkSize n, ext := BitVec.ofNat 64 (fld n 191 128) }

/-- A thread without a chunk whose descriptor is read without poison, hold or trap: an invalid nest and a spent one fail, and another's
next chunk is claimed. -/
theorem exec_iterNext_claims {s u : State} {d : BitVec 7} {p : BitVec 5} {va : VAddr} {t : Target} {bytes : List Byte}
    (hl : s.cur.light = false) (hroom : ∀ i < 3, s.cur.rename (d.toNat + i) < s.cur.bound) (hf : s.cur.fetcher = some va)
    (hc : s.cur.cur = s.cur.stop) (h32 : va.off.toNat % 32 = 0) (hx : s.xlate s.ic s.is { r := true, w := true } va = .ok t)
    (hu : s.unreachable t = false) (ho : s.cur.redOverlap t.place 32 = false) (hpin : s.pinned t.place = false)
    (hr : s.readDescriptor t = (bytes, none, u)) :
    let n := leNat bytes
    exec (.iterNext p d) s =
      if nestBad n = true then parkAccess (.done true) (u.iterFail p d 4)
      else if chunkSize n = 0 then parkAccess (.done true) (u.iterFail p d 6)
      else parkAccess (.done true) ((u.claimChunk t n).iterGive p d) := by
  rw [State.readDescriptor] at hr
  show execIterNext p d s = _
  simp only [execIterNext, heavyOnly_ok _ _ hl, limitNumbers_span _ hroom, hf, hc, bne_self_eq_false, access_ok _ h32 hx hu, ho, hpin, hr,
    Bool.false_eq_true, if_false]
  rfl

/-! The owner's end of the deque. -/

theorem exec_dqPush {s : State} {a b d : BitVec 7} (hl : s.cur.light = false) (hn : named s.cur [a, b, d]) (hr : s.cur.reds = [])
    (hd : s.dirtyPinned s.ic = false) :
    let u := s.releaseCore s.ic
    exec (.dqPush b a d) s =
      if (X s b).toNat ≤ (X s a).toNat then .next (wrote u d 4 false)
      else if u.curInst.depth 1 ≤ u.curInst.deque.length then .next (wrote u d 1 false)
      else .next (wrote (u.updInst u.cur.inst fun i => { i with deque := (X s a, X s b, (u.core u.ic).carried) :: i.deque }) d 0 false) := by
  show execDqPush b a d s = _
  rw [execDqPush, heavyOnly_ok _ _ hl, limit_ok _ hn]
  exact released_ok _ hr hd

/-- The issuing thread's deque as given, after the acquire of a range that is taken from it. -/
def State.tookRange (s : State) (rest : List Range) (g : BitVec 512) : State :=
  (s.updInst s.cur.inst fun i => { i with deque := rest }).applySig s.ic g

section
variable {s : State} {a d : BitVec 7} (hl : s.cur.light = false) (hroom : ∀ i < 2, s.cur.rename (d.toNat + i) < s.cur.bound)
include hl hroom

theorem exec_dqPop_empty (h : s.curInst.deque = []) : exec (.dqPop d) s = .next (s.putRange d 0 0).advance := by
  show execDqPop d s = _
  simp only [execDqPop, heavyOnly_ok _ _ hl, limitNumbers_span _ hroom, h, done]

theorem exec_dqPop {x : Range} {r : List Range} (h : s.curInst.deque = x :: r) (hd : s.dirtyPinned s.ic = false) :
    exec (.dqPop d) s = .next ((s.tookRange r x.2.2).putRange d x.1 x.2.1).advance := by
  show execDqPop d s = _
  simp only [execDqPop, heavyOnly_ok _ _ hl, limitNumbers_span _ hroom, h, acquiring_ok _ hd, done, State.tookRange]

theorem exec_dqSplit_empty (ha : s.cur.rename a.toNat < s.cur.bound) (h : s.curInst.deque = []) :
    exec (.dqSplit a d) s = .next (s.putRange d 0 0).advance := by
  show execDqSplit a d s = _
  simp only [execDqSplit, heavyOnly_ok _ _ hl, limitNumbers_cons_span _ ha hroom, h, done]

/-- The split takes from the bottom range as many iterations as are asked for, at least one and at most all. -/
theorem exec_dqSplit {x : Range} {r : List Range} (ha : s.cur.rename a.toNat < s.cur.bound) (h : s.curInst.deque = x :: r)
    (hd : s.dirtyPinned s.ic = false) :
    let mid := BitVec.ofNat 64 (x.1.toNat + min (max 1 (X s a).toNat) (x.2.1.toNat - x.1.toNat))
    exec (.dqSplit a d) s =
      .next ((s.tookRange (if mid = x.2.1 then r else (mid, x.2.1, x.2.2) :: r) x.2.2).putRange d x.1 mid).advance := by
  show execDqSplit a d s = _
  simp only [execDqSplit, heavyOnly_ok _ _ hl, limitNumbers_cons_span _ ha hroom, h, acquiring_ok _ hd, done]
  rfl

/-! The thief's end of the deque. -/

theorem exec_dqSteal_none (h : ∀ e ∈ s.victims, e.2.deque = []) :
    exec (.dqSteal d) s = parkAccess (.done true) (s.putRange d 0 0) := by
  have hnone : (s.victims.findSome? fun e => (stealFrom e.2.deque).map fun x => (e.1, x)) = none := by
    rw [List.findSome?_eq_none_iff]
    intro e he
    rw [h e he]
    rfl
  show execDqSteal d s = _
  simp only [execDqSteal, heavyOnly_ok _ _ hl, limitNumbers_span _ hroom, hnone]

/-- The first victim that holds a range loses the range that a steal takes. -/
theorem exec_dqSteal {before after : List (Nat × Inst)} {e : Nat × Inst} {x : Range} {rest : List Range}
    (hv : s.victims = before ++ e :: after) (hb : ∀ f ∈ before, f.2.deque = []) (hx : stealFrom e.2.deque = some (x, rest))
    (hd : s.dirtyPinned s.ic = false) :
    let v := s.updInst e.1 fun i => { i with deque := rest }
    exec (.dqSteal d) s = parkAccess (.done true) ((v.applySig s.ic x.2.2).putRange d x.1 x.2.1) := by
  have hfirst : (s.victims.findSome? fun e => (stealFrom e.2.deque).map fun x => (e.1, x)) = some (e.1, x, rest) := by
    rw [hv, List.findSome?_append, List.findSome?_eq_none_iff.2, Option.none_or, List.findSome?_cons, hx]
    · rfl
    · intro f hf
      rw [hb f hf]
      rfl
  show execDqSteal d s = _
  simp only [execDqSteal, heavyOnly_ok _ _ hl, limitNumbers_span _ hroom, hfirst, acquiring_ok _ hd]

end

end Sys2Proof.Machine

namespace Sys2Proof.Proofs

open Machine Safety

/-- Settles O41: an iteration is given from the chunk that is held, or from one that is claimed at the descriptor's home; a range is taken
from the bottom by its owner, and from the first victim that holds one by a thief. -/
theorem iterationsAndRanges : Obligations.IterationsAndRanges := by
  unfold Obligations.IterationsAndRanges
  intro s a b d p hl lo hi pair later fail room u took
  refine ⟨fun hn => ?_, fun hroom => ⟨exec_iterNext_none hl hroom, fun va => exec_iterNext_gives hl hroom, ?_⟩, fun hn hr hd => ?_,
    fun hroom => ⟨fun h => ⟨exec_dqPop_empty hl hroom h, fun ha => exec_dqSplit_empty hl hroom ha h⟩,
      fun x r h hd => ⟨exec_dqPop hl hroom h hd, fun ha => exec_dqSplit hl hroom ha h hd⟩, exec_dqSteal_none hl hroom,
      fun _ _ _ _ _ => exec_dqSteal hl hroom⟩⟩
  · have hinit := exec_iterInit hl hn
    exact ⟨fun h => hinit.trans (if_pos h), fun h => hinit.trans (if_neg (not_not.2 h))⟩
  · intro va t hf hc h32 hx hu ho hpin r n hp
    have hr : s.readDescriptor t = (r.1, none, r.2.2) := by rw [← hp]; rfl
    have hnext : exec (.iterNext p d) s = _ := exec_iterNext_claims hl hroom hf hc h32 hx hu ho hpin hr
    refine ⟨fun hbad => hnext.trans (if_pos hbad), fun hok hspent => ?_, fun hok hleft => ⟨r.2.2.claimChunk t n, ?_, ?_⟩⟩
    · exact hnext.trans ((if_neg (Bool.eq_false_iff.1 hok)).trans (if_pos hspent))
    · exact hnext.trans ((if_neg (Bool.eq_false_iff.1 hok)).trans (if_neg hleft))
    · rw [State.claimChunk, State.cur_updCur]
      exact ⟨rfl, rfl, rfl⟩
  · have hpush := exec_dqPush hl hn hr hd
    refine ⟨fun h => hpush.trans (if_pos h), fun h hfull => ?_, fun h hfree => ?_⟩
    · exact hpush.trans ((if_neg (Nat.not_le.2 h)).trans (if_pos hfull))
    · exact hpush.trans ((if_neg (Nat.not_le.2 h)).trans (if_neg (Nat.not_le.2 hfree)))

end Sys2Proof.Proofs
end

section
/-! Proxies, their replies and remote updates (spec/11 R254, R256, spec/12 R269 to R271). -/

namespace Sys2Proof.Machine

open Safety

/-! Whose packet it is: that of a core of this device, or another device's (spec/22 R405). -/

section
variable {s : State} {p : MigPacket}

/-- A core of this device releases with the signature that its packet carries. -/
theorem MigPacket.agent_own (h : p.device = 0) : p.agent = .core p.core := if_pos h

theorem MigPacket.release_own (h : p.device = 0) : p.release = some p.carried := if_pos h

theorem MigPacket.agent_outside (h : p.device ≠ 0) : p.agent = .outside := if_neg h

theorem MigPacket.release_outside (h : p.device ≠ 0) : p.release = none := if_neg h

/-- No cache of this device holds a copy for another device. -/
theorem State.dropCopy_outside (s : State) (t : Target) (n : Nat) (h : p.device ≠ 0) : s.dropCopy p t n = s := by
  unfold State.dropCopy
  split
  · exact if_neg h
  all_goals rfl

/-- The reply waits at the origin slot, unless its thread has been killed. -/
theorem State.reply_own (s : State) (r : AmoReply) (n : Nat) (h : p.device = 0) :
    s.reply p r n = if s.awaitsProxy p then
      (s.updCore p.core fun k => { k with replies := tabPut k.replies p.slot r }).emit (.proxyReply p.core p.slot) else s :=
  if_neg (by simp [h])

/-- The reply to another device goes out to it. -/
theorem State.reply_outside (s : State) (r : AmoReply) (n : Nat) (h : p.device ≠ 0) :
    s.reply p r n =
      s.record (.deviceRead p.device (64 * p.core + p.slot) (if r.poisoned then none else some (leBytes r.old.toNat n))) :=
  if_pos (by simpa using h)

end

theorem proxyHeld_seated {s : State} {c : Nat} (h : c < Config.cores) :
    proxyHeld c s = .next (s.updThread c s.is fun u => { u with st := .parked (.room .pin) }) :=
  congrArg Host.Outcome.next (if_pos h)

/-! At the home: a pin or an earlier update holds the packet, or it is combined. -/

section
variable {s : State} {c : Nat} {p : MigPacket} {t : Target} (hp : s.proxyNow c = some p) (ht : p.target = some t)
include hp ht

theorem exec_proxy_held (hk : p.kind = 1) (hpin : s.pinned t.place = true) : exec (.proxy c) s = proxyHeld c s := by
  show execProxy c s = _
  simp only [execProxy, hp, hk, ht]
  exact if_pos hpin

theorem exec_proxy_combines (hk : p.kind = 1) (hpin : s.pinned t.place = false) :
    let size := amoSize (fld p.pw.toNat 15 12)
    let r := s.combineAt p.agent t (fld p.pw.toNat 15 12) (p.g.getD 0 0).toNat (p.g.getD 1 0).toNat (some p.release)
    let u := r.2.2.dropCopy p t size
    let reply : AmoReply := ⟨BitVec.ofNat 64 r.1, u.sigAcquire t, r.2.1.isSome, VAddr.plus t.va (r.2.1.getD 0)⟩
    exec (.proxy c) s = .next ((u.reply p reply size).proxyOver c p) := by
  show execProxy c s = _
  simp only [execProxy, hp, hk, ht]
  exact if_neg (Bool.eq_false_iff.1 hpin)

theorem exec_remoteUpdate_held (hk : p.kind = 2) (hheld : s.pinned t.place = true ∨ s.updateAhead c p = true) :
    exec (.remoteUpdate c) s = proxyHeld c s := by
  show execRemoteUpdate c s = _
  simp only [execRemoteUpdate, hp, hk, ht]
  exact if_pos (Bool.or_eq_true_iff.2 hheld)

theorem exec_remoteUpdate_combines (hk : p.kind = 2) (hpin : s.pinned t.place = false) (hahead : s.updateAhead c p = false) :
    let size := amoSize (fld p.pw.toNat 15 12)
    let r := s.combineAt p.agent t (fld p.pw.toNat 15 12) (p.g.getD 0 0).toNat (p.g.getD 1 0).toNat none
    let u := (if r.2.1.isSome then r.2.2.record (.redDropped p.inst) else r.2.2).dropCopy p t size
    exec (.remoteUpdate c) s = .next ((if p.device = 0 then u.redDone p.core p.slot p.serial else u).proxyOver c p) := by
  show execRemoteUpdate c s = _
  simp only [execRemoteUpdate, hp, hk, ht]
  exact if_neg (by simp [hpin, hahead])

end

/-! At the origin: the reply is taken from the slot, and its thread goes on or traps. -/

section
variable {s : State} {c sl rd : Nat} {r : AmoReply} (hr : tabFind (s.core c).replies sl = some r)
  (hw : (s.thread c sl).wait = some (.proxy rd))
include hr hw

theorem exec_proxyReply_writes (hn : r.poisoned = false) :
    let u := s.updCore c fun k => { k with replies := tabDel k.replies sl }
    let v := { u with ic := c, is := sl }.wake c sl
    exec (.proxyReply c sl) s =
      .next ((completed ((v.applySig c r.signature).setRd (BitVec.ofNat 7 rd) r.old false)).settleHalted c sl) := by
  show execProxyReply c sl s = _
  simp only [execProxyReply, hr, hw, resume, hn, Bool.false_eq_true, if_false, doneLatc_eq, haltSettled]

theorem exec_proxyReply_traps (hn : r.poisoned = true) :
    let u := s.updCore c fun k => { k with replies := tabDel k.replies sl }
    let v := { u with ic := c, is := sl }.wake c sl
    exec (.proxyReply c sl) s = .next ((v.enterTrap v.ic v.is 12 r.place.off v.cur.pc r.place.space).settleHalted c sl) := by
  show execProxyReply c sl s = _
  simp only [execProxyReply, hr, hw, resume, hn, if_true, trapAt, haltSettled]

end

end Sys2Proof.Machine

namespace Sys2Proof.Proofs

open Machine Safety

/-- Settles O35: a packet of this device and one of another differ in the agent, the release, the copy that is dropped and the way of the
reply; a packet that a pin or an earlier update holds waits in its slot; a reply completes its AMO or traps. -/
theorem proxies : Obligations.Proxies := by
  unfold Obligations.Proxies
  intro s c sl p t f4 b e
  refine ⟨fun hp ht hown hpin => ⟨fun hk => ?_, fun hk hahead => ?_⟩, fun hp ht hout hpin => ⟨fun hk => ?_, fun hk hahead => ?_⟩,
    fun hp ht hc => ⟨fun hk hpin => ?_, fun hk hheld => ?_⟩,
    fun r rd hr hw => ⟨exec_proxyReply_writes hr hw, exec_proxyReply_traps hr hw⟩⟩
  · rw [exec_proxy_combines hp ht hk hpin, MigPacket.agent_own hown, MigPacket.release_own hown, State.reply_own _ _ _ hown]
    rfl
  · rw [exec_remoteUpdate_combines hp ht hk hpin hahead, MigPacket.agent_own hown, if_pos hown]
  · rw [exec_proxy_combines hp ht hk hpin, MigPacket.agent_outside hout, MigPacket.release_outside hout,
      State.dropCopy_outside _ _ _ hout, State.reply_outside _ _ _ hout]
  · rw [exec_remoteUpdate_combines hp ht hk hpin hahead, MigPacket.agent_outside hout, if_neg hout,
      State.dropCopy_outside _ _ _ hout]
  · exact (exec_proxy_held hp ht hk hpin).trans (proxyHeld_seated hc)
  · exact (exec_remoteUpdate_held hp ht hk hheld).trans (proxyHeld_seated hc)

end Sys2Proof.Proofs
end

section
/-! Acquire loads, release stores, fences, signatures and cache control (spec/12 R259 to R266). -/

namespace Sys2Proof.Machine

open Safety

/-! Shared checks. -/

section
variable {s : State}

/-- The field checks turn on the state alone, so that what follows them counts only there. -/
theorem limit_congr (l : List (BitVec 7)) {k j : State → Res} (h : k s = j s) : limit l k s = limit l j s := by
  simp only [limit, limitNumbers, h]

theorem afterReds_waits (k : State → Res) (h : s.cur.reds ≠ []) : afterReds k s = .next (s.park .reds) := if_pos (bne_iff_ne.2 h)

theorem released_pinned (k : State → Res) (h : s.dirtyPinned s.ic = true) : released k s = .next (s.park (.room .pin)) := if_pos h

theorem released_waits (k : State → Res) (hd : s.dirtyPinned s.ic = false) (hr : s.cur.reds ≠ []) :
    released k s = .next ((s.writeBackAll s.ic).park .reds) :=
  (if_neg (Bool.eq_false_iff.1 hd)).trans (if_pos (bne_iff_ne.2 hr))

theorem offsetOf_zero (x : Word) (size : Nat) : offsetOf x 0 size = x := by simp [offsetOf]

/-- Without a displacement the size of an access does not matter to its address. -/
theorem address_zero (a : BitVec 7) (size : Nat) : address s a 0 size = address s a 0 1 := by simp [address]

end

/-! LDA and STL (R261, R262). -/

section
variable {s : State} {size : Nat} {sc : BitVec 3} {a b d : BitVec 7} {t : Target}

/-- At a narrow scope, or for a light thread, it is the load without a displacement. -/
theorem acquireLoad_plain (sgn : Bool) (h : ¬ 2 ≤ sc.toNat ∨ s.cur.light = true) :
    acquireLoad size sgn sc a d s = loadOp size sgn 0 a d s := by
  have hw : (wideScope sc && !s.cur.light) = false := Bool.and_eq_false_iff.2 (h.imp decide_eq_false fun hl => by rw [hl]; rfl)
  exact limit_congr _ (by simp only [hw, offsetOf_zero, Bool.false_eq_true, if_false])

theorem acquireLoad_wide (sgn : Bool) (hw : 2 ≤ sc.toNat) (hl : s.cur.light = false) (hn : named s.cur [a, d])
    (hr : reaches s { r := true } size (address s a 0 1) t) :
    acquireLoad size sgn sc a d s = .next (parked s (.access (.load t size sgn d.toNat true true)) (.accessReply s.ic s.is)) := by
  obtain ⟨ha, hx, hu, -⟩ := hr
  have hs : (wideScope sc && !s.cur.light) = true := by simp [wideScope, hw, hl]
  rw [acquireLoad, limit_ok _ hn]
  simp only [hs, if_true, dataAddr_eq, access_ok _ ha hx hu]
  rfl

section
variable (hn : named s.cur [a, b]) (hr : reaches s { w := true } size (address s a 0 1) t)
include hn hr

/-- A store that reaches its target is a light thread's at its home, a release of R245, or a plain store after the thread's REDs. -/
theorem releaseStore_reaches :
    releaseStore size b a sc s =
      if s.cur.light = true then afterReds (parkAccess (.store t size (X s b) true (some 0))) s
      else if wideScope sc = true then
        released (fun u => parkAccess (.store t size (X s b) true (some (u.core u.ic).carried)) u) s
      else afterReds (store size b (address s a 0 1) (bypasses s a)) s := by
  obtain ⟨ha, hx, hu, hl⟩ := hr
  rw [releaseStore, limit_ok _ hn]
  simp only [dataAddr_eq, access_ok _ ha hx hu, atHome_ok _ hl]
  rfl

variable (sc)

theorem releaseStore_light (hl : s.cur.light = true) :
    releaseStore size b a sc s = afterReds (parkAccess (.store t size (X s b) true (some 0))) s :=
  (releaseStore_reaches hn hr).trans (if_pos hl)

variable {sc} (hl : s.cur.light = false)
include hl

theorem releaseStore_wide (hw : 2 ≤ sc.toNat) :
    releaseStore size b a sc s =
      released (fun u => parkAccess (.store t size (X s b) true (some (u.core u.ic).carried)) u) s := by
  rw [releaseStore_reaches hn hr, if_neg (by simp [hl]), if_pos (show wideScope sc = true from decide_eq_true hw)]

theorem releaseStore_narrow (hw : ¬ 2 ≤ sc.toNat) :
    releaseStore size b a sc s = afterReds (store size b (address s a 0 1) (bypasses s a)) s := by
  rw [releaseStore_reaches hn hr, if_neg (by simp [hl]), if_neg (show ¬ wideScope sc = true from by simpa [wideScope] using hw)]

end

end

end Sys2Proof.Machine

namespace Sys2Proof.Proofs

open Machine Safety

/-- What O30 says of an LDA, by the load that it is at a narrow scope. -/
theorem acquireLoad_orders {s : State} {sc : BitVec 3} {a d : BitVec 7} {t : Target} {i j : Instr} {size : Nat} {sgn : Bool}
    (hi : exec i s = acquireLoad size sgn sc a d s) (hj : exec j s = loadOp size sgn 0 a d s) :
    (¬ 2 ≤ sc.toNat ∨ s.cur.light = true → exec i s = exec j s) ∧
    (2 ≤ sc.toNat → s.cur.light = false → named s.cur [a, d] → reaches s { r := true } size (address s a 0 1) t →
      exec i s = .next (parked s (.access (.load t size sgn d.toNat true true)) (.accessReply s.ic s.is))) :=
  ⟨fun h => hi.trans ((acquireLoad_plain sgn h).trans hj.symm),
    fun hw hl hn hr => hi.trans (acquireLoad_wide sgn hw hl hn hr)⟩

/-- What O30 says of an STL, by the store that it is at a narrow scope. -/
theorem releaseStore_orders {s : State} {sc : BitVec 3} {a b : BitVec 7} {t : Target} {i j : Instr} {size : Nat}
    (hi : exec i s = releaseStore size b a sc s) (hj : (j, size) ∈ stores.map fun e => (e.1 0 b a 0, e.2))
    (hn : named s.cur [a, b]) (hr : reaches s { w := true } size (address s a 0 1) t) :
    (s.cur.light = false → ¬ 2 ≤ sc.toNat → s.cur.reds = [] → exec i s = exec j s) ∧
    (s.cur.light = true → s.cur.reds = [] →
      exec i s = .next (parked s (.access (.store t size (X s b) true (some 0))) (.accessReply s.ic s.is))) ∧
    (s.cur.light = false → 2 ≤ sc.toNat → s.cur.reds = [] → s.dirtyPinned s.ic = false →
      let r := s.releaseCore s.ic
      exec i s = .next (parked r (.access (.store t size (X s b) true (some (r.core r.ic).carried))) (.accessReply r.ic r.is))) ∧
    (s.cur.light = true ∨ ¬ 2 ≤ sc.toNat → s.cur.reds ≠ [] → exec i s = .next (s.park .reds)) ∧
    (s.cur.light = false → 2 ≤ sc.toNat → s.dirtyPinned s.ic = true → exec i s = .next (s.park (.room .pin))) ∧
    (s.cur.light = false → 2 ≤ sc.toNat → s.dirtyPinned s.ic = false → s.cur.reds ≠ [] →
      exec i s = .next ((s.writeBackAll s.ic).park .reds)) := by
  have hplain : exec j s = store size b (address s a 0 1) (bypasses s a) s := by
    obtain ⟨e, he, hej⟩ := List.mem_map.1 hj
    obtain ⟨rfl, rfl⟩ := Prod.mk.inj hej
    rw [exec_stores he hn, show ((0 : BitVec 4) ++ (0 : BitVec 4)) = (0 : BitVec 8) from rfl, address_zero]
  rw [hi]
  refine ⟨fun hl hw hred => ?_, fun hl hred => ?_, fun hl hw hred hd => ?_, fun h hred => ?_, fun hl hw hd => ?_,
    fun hl hw hd hred => ?_⟩
  · rw [releaseStore_narrow hn hr hl hw, afterReds_ok _ hred, hplain]
  · rw [releaseStore_light sc hn hr hl, afterReds_ok _ hred]
    rfl
  · rw [releaseStore_wide hn hr hl hw, released_ok _ hred hd]
    rfl
  · cases hl : s.cur.light with
    | true => rw [releaseStore_light sc hn hr hl, afterReds_waits _ hred]
    | false => rw [releaseStore_narrow hn hr hl (h.resolve_left (by simp [hl])), afterReds_waits _ hred]
  · rw [releaseStore_wide hn hr hl hw, released_pinned _ hd]
  · rw [releaseStore_wide hn hr hl hw, released_waits _ hd hred]

/-- Settles O30: an LDA is a load and an STL a store, each at its home where its scope is wide. -/
theorem orderedAccesses : Obligations.OrderedAccesses := by
  unfold Obligations.OrderedAccesses
  intro s sc a b d t wide va
  exact ⟨List.forall_mem_cons.2 ⟨acquireLoad_orders rfl rfl, List.forall_mem_singleton.2 (acquireLoad_orders rfl rfl)⟩,
    List.forall_mem_cons.2 ⟨releaseStore_orders rfl (by simp [stores]),
      List.forall_mem_singleton.2 (releaseStore_orders rfl (by simp [stores]))⟩⟩

end Sys2Proof.Proofs

namespace Sys2Proof.Machine

open Safety

/-! FENCE and SIGRD (R263, R266). -/

section
variable {s : State} {k : BitVec 5} {sc : BitVec 3}

/-- The fence does the work of R263's table: a heavy thread's, at a scope of a cluster or wider. -/
def State.fenceWide (s : State) (sc : BitVec 3) : Bool := decide (2 ≤ sc.toNat) && !s.cur.light

/-- The fence writes back: it holds PW before some later operation. -/
def State.fenceBack (s : State) (k : BitVec 5) (sc : BitVec 3) : Bool :=
  s.fenceWide sc && k.getLsbD 2 && (k.getLsbD 1 || k.getLsbD 0 || k.getLsbD 4)

/-- The fence acquires all memory: it holds PR before SR. -/
def State.fenceAcquires (s : State) (k : BitVec 5) (sc : BitVec 3) : Bool := s.fenceWide sc && k.getLsbD 3 && k.getLsbD 1

/-- The state after a fence's write-backs. -/
def State.fenced (s : State) (k : BitVec 5) (sc : BitVec 3) : State := if s.fenceBack k sc then s.writeBackAll s.ic else s

/-- The branches of a fence: a pin holds it, the thread's REDs do, or it does its work and ends. -/
theorem exec_fence :
    exec (.fence k sc) s =
      if ((s.fenceBack k sc || s.fenceAcquires k sc) && s.dirtyPinned s.ic) = true then .next (s.park (.room .pin))
      else
        let v := s.fenced k sc
        if (k.getLsbD 2 && v.cur.reds != []) = true then .next (v.park .reds)
        else
          let u := if s.fenceBack k sc && k.getLsbD 0 then v.releaseCore v.ic else v
          let u := if s.fenceWide sc && k.getLsbD 1 && (k.getLsbD 2 || k.getLsbD 4) then u.seesAll else u
          .next (if s.fenceAcquires k sc then u.applySig u.ic allOnes512 else u).advance := rfl

theorem exec_fence_pinned (h : s.fenceBack k sc = true ∨ s.fenceAcquires k sc = true) (hd : s.dirtyPinned s.ic = true) :
    exec (.fence k sc) s = .next (s.park (.room .pin)) :=
  exec_fence.trans (if_pos (Bool.and_eq_true_iff.2 ⟨Bool.or_eq_true_iff.2 h, hd⟩))

section
variable (h : (s.fenceBack k sc = false ∧ s.fenceAcquires k sc = false) ∨ s.dirtyPinned s.ic = false)
include h

theorem fence_unheld : ((s.fenceBack k sc || s.fenceAcquires k sc) && s.dirtyPinned s.ic) = false := by
  rcases h with ⟨hb, ha⟩ | hd
  · rw [hb, ha, Bool.or_self, Bool.false_and]
  · rw [hd, Bool.and_false]

theorem exec_fence_waits (hp : k.getLsbD 2 = true) (hr : (s.fenced k sc).cur.reds ≠ []) :
    exec (.fence k sc) s = .next ((s.fenced k sc).park .reds) := by
  rw [exec_fence, if_neg (Bool.eq_false_iff.1 (fence_unheld h))]
  exact if_pos (Bool.and_eq_true_iff.2 ⟨hp, bne_iff_ne.2 hr⟩)

variable (hr : k.getLsbD 2 = false ∨ (s.fenced k sc).cur.reds = [])
include hr

theorem exec_fence_ends :
    let v := s.fenced k sc
    let u := if s.fenceBack k sc && k.getLsbD 0 then v.releaseCore v.ic else v
    let u := if s.fenceWide sc && k.getLsbD 1 && (k.getLsbD 2 || k.getLsbD 4) then u.seesAll else u
    exec (.fence k sc) s = .next (if s.fenceAcquires k sc then u.applySig u.ic allOnes512 else u).advance := by
  rw [exec_fence, if_neg (Bool.eq_false_iff.1 (fence_unheld h))]
  refine if_neg ?_
  rcases hr with hp | hr <;> simp only [*, Bool.false_and, bne_self_eq_false, Bool.and_false, Bool.false_eq_true, not_false_eq_true]

/-- At a scope of the core or the thread, and for a light thread, it has no cache work. -/
theorem exec_fence_narrow (hw : s.fenceWide sc = false) : exec (.fence k sc) s = .next s.advance := by
  rw [exec_fence_ends h hr]
  simp [State.fenceAcquires, State.fenced, State.fenceBack, hw]

theorem exec_fence_wide (hw : s.fenceWide sc = true) :
    let v := s.fenced k sc
    let u := if k.getLsbD 2 && k.getLsbD 0 then v.releaseCore v.ic else v
    let u := if k.getLsbD 1 && (k.getLsbD 2 || k.getLsbD 4) then u.seesAll else u
    exec (.fence k sc) s = .next (if k.getLsbD 3 && k.getLsbD 1 then u.applySig u.ic allOnes512 else u).advance := by
  have hb : (s.fenceBack k sc && k.getLsbD 0) = (k.getLsbD 2 && k.getLsbD 0) := by
    rw [State.fenceBack, hw]
    cases k.getLsbD 0 <;> simp only [Bool.true_and, Bool.and_false, Bool.or_true, Bool.true_or, Bool.and_true]
  rw [exec_fence_ends h hr, hb, State.fenceAcquires, hw]
  simp only [Bool.true_and]

end

end

section
variable {s : State} {e : BitVec 2} {d : BitVec 7}

theorem exec_sigrd_light (hl : s.cur.light = true) :
    exec (.sigrd e d) s = .next (s.enterTrap s.ic s.is 0 ((wordSigrd e d).setWidth 64) s.cur.pc 0) :=
  if_pos hl

theorem exec_sigrd (hl : s.cur.light = false) (h : ∀ i < 8, s.cur.rename (d.toNat + i) < s.cur.bound) :
    let g := if e = 0 then (s.core s.ic).sigw else if e = 1 then (s.core s.ic).sighCur else (s.core s.ic).sighPrev
    exec (.sigrd e d) s = .next (s.updCur fun t => t.setRegs d.toNat false (sigWords g)).advance := by
  show execSigrd e d s = _
  rw [execSigrd, if_neg (by simp [hl]), limitNumbers_span _ h]
  rfl

end

end Sys2Proof.Machine

namespace Sys2Proof.Proofs

open Machine Safety

/-- Settles O31: a fence is held by a pin, waits for the REDs, or ends with the work of its kinds; SIGRD reads its core. -/
theorem fencesAndSignatures : Obligations.FencesAndSignatures := by
  unfold Obligations.FencesAndSignatures
  intro s k sc e d later pr pw sr sw wide back v
  exact ⟨exec_fence_pinned,
    fun h => ⟨exec_fence_waits h, fun hr => ⟨exec_fence_narrow h hr, exec_fence_wide h hr⟩⟩,
    exec_sigrd_light, exec_sigrd⟩

end Sys2Proof.Proofs

namespace Sys2Proof.Machine

open Safety

/-! CFLUSH, CINV and PREF (R264, R265). -/

/-- Cache control has nothing to do for a light thread, and in another device's space. -/
def State.cacheIdle (s : State) (va : VAddr) : Prop := s.cur.light = true ∨ s.ownSpace va.space = false

theorem State.cacheIdle_iff (s : State) (va : VAddr) : (s.cur.light || !s.ownSpace va.space) = true ↔ s.cacheIdle va := by
  simp [State.cacheIdle]

/-- CFLUSH and CINV have nothing to do in the window either (R264). -/
theorem State.lineIdle_iff (s : State) (va : VAddr) :
    (s.cur.light || !s.ownSpace va.space || decide (s.region va = .window)) = true ↔ s.cacheIdle va ∨ s.region va = .window := by
  rw [Bool.or_eq_true, State.cacheIdle_iff, decide_eq_true_eq]

/-- A home of this device always answers. -/
theorem State.unreachable_home (s : State) {t : Target} {pa : Nat} (h : t.place = .home pa) : s.unreachable t = false := by
  simp only [State.unreachable, h]

section
variable {s : State} {a : BitVec 7} (hn : named s.cur [a])
include hn

theorem lineOp_idle (inv : Bool) (h : s.cacheIdle (address s a 0 1) ∨ s.region (address s a 0 1) = .window) :
    lineOp inv a s = .next s.advance := by
  rw [lineOp, limit_ok _ hn]
  simp only [dataAddr_eq]
  exact if_pos ((s.lineIdle_iff _).2 h)

theorem exec_pref_idle (h : s.cacheIdle (address s a 0 1)) : exec (.pref a) s = .next s.advance := by
  show execPref a s = _
  rw [execPref, limit_ok _ hn]
  simp only [dataAddr_eq]
  exact if_pos ((s.cacheIdle_iff _).2 h)

variable {t : Target} (hi : ¬ s.cacheIdle (address s a 0 1))
include hi

section
variable (inv : Bool) (hw : s.region (address s a 0 1) ≠ .window) (hx : s.xlate s.ic s.is { r := true } (address s a 0 1) = .ok t)
include hw hx

/-- A page that the core's cache does not hold by its address. -/
theorem lineOp_uncached (hu : s.unreachable t = false) (h : (∀ pa, t.place ≠ .home pa) ∨ t.attr ≠ 0) :
    lineOp inv a s = .next s.advance := by
  rw [lineOp, limit_ok _ hn]
  simp only [dataAddr_eq, access_ok _ (Nat.mod_one _) hx hu]
  rw [if_neg (mt (s.lineIdle_iff _).1 (not_or.2 ⟨hi, hw⟩))]
  split
  · next pa hp => exact if_pos (bne_iff_ne.2 (h.resolve_left fun hh => hh pa hp))
  all_goals rfl

variable {pa : Nat} (hp : t.place = .home pa) (ha : t.attr = 0)
include hp ha

theorem lineOp_absent (hl : (s.core s.ic).line (pa / 128) = none) : lineOp inv a s = .next s.advance := by
  rw [lineOp, limit_ok _ hn]
  simp only [dataAddr_eq, access_ok _ (Nat.mod_one _) hx (s.unreachable_home hp), hp, ha, hl]
  exact if_neg (mt (s.lineIdle_iff _).1 (not_or.2 ⟨hi, hw⟩))

/-- A line that the cache holds: a clean one is at most dropped, and a dirty one goes home once no pin holds it. -/
theorem lineOp_held {l : CacheLine} (hl : (s.core s.ic).line (pa / 128) = some l) :
    lineOp inv a s =
      if l.dirty = 0 then .next (if inv then s.evictLine s.ic (pa / 128) else s).advance
      else if s.pinned t.place = true then .next (s.park (.room .pin))
      else parkAccess (.done false) (if inv then s.evictLine s.ic (pa / 128) else s.writeBackLine s.ic (pa / 128)) := by
  rw [lineOp, limit_ok _ hn]
  simp only [dataAddr_eq, access_ok _ (Nat.mod_one _) hx (s.unreachable_home hp), hp, ha, hl]
  exact if_neg (mt (s.lineIdle_iff _).1 (not_or.2 ⟨hi, hw⟩))

end

theorem exec_pref_fills (hx : s.xlate s.ic s.is { r := true } (address s a 0 1) = .ok t) {pa : Nat} (hp : t.place = .home pa)
    (ha : t.attr = 0) (hc : s.cacheable s.ic t = true) (hf : s.fillHeld s.ic pa = false) :
    exec (.pref a) s = .next (s.fill s.ic pa true).advance := by
  show execPref a s = _
  rw [execPref, limit_ok _ hn]
  simp only [dataAddr_eq, hx, hp, ha, hc, hf, decide_true, Bool.not_false, Bool.and_self, if_true]
  exact if_neg (mt (s.cacheIdle_iff _).1 hi)

theorem exec_pref_uncached (hx : s.xlate s.ic s.is { r := true } (address s a 0 1) = .ok t)
    (h : (∀ pa, t.place ≠ .home pa) ∨ t.attr ≠ 0 ∨ s.cacheable s.ic t = false) : exec (.pref a) s = .next s.advance := by
  show execPref a s = _
  rw [execPref, limit_ok _ hn]
  simp only [dataAddr_eq, hx]
  rw [if_neg (mt (s.cacheIdle_iff _).1 hi)]
  split
  · next pa hp =>
    have hno : (decide (t.attr = 0) && s.cacheable s.ic t) = false :=
      Bool.and_eq_false_iff.2 ((h.resolve_left fun hh => hh pa hp).imp_left decide_eq_false)
    rw [hno, Bool.false_and]
    rfl
  all_goals rfl

theorem exec_pref_untranslated (hx : ∀ t, s.xlate s.ic s.is { r := true } (address s a 0 1) ≠ .ok t) :
    exec (.pref a) s = .next s.advance := by
  show execPref a s = _
  rw [execPref, limit_ok _ hn]
  simp only [dataAddr_eq]
  rw [if_neg (mt (s.cacheIdle_iff _).1 hi)]
  split
  · next t ht => exact absurd ht (hx t)
  all_goals rfl

end

end Sys2Proof.Machine

namespace Sys2Proof.Proofs

open Machine Safety

/-- What O32 says of CFLUSH, and of CINV, which invalidates. -/
theorem lineOp_controls {s : State} {a : BitVec 7} {i : Instr} {inv : Bool} (hexec : exec i s = lineOp inv a s) (hn : named s.cur [a]) :
    (s.cacheIdle (address s a 0 1) ∨ s.region (address s a 0 1) = .window → exec i s = .next s.advance) ∧
    (¬ s.cacheIdle (address s a 0 1) → s.region (address s a 0 1) ≠ .window →
      ∀ t, s.xlate s.ic s.is { r := true } (address s a 0 1) = .ok t →
      (∀ pa, t.place = .home pa → t.attr = 0 →
        ((s.core s.ic).line (pa / 128) = none → exec i s = .next s.advance) ∧
        (∀ l, (s.core s.ic).line (pa / 128) = some l →
          (l.dirty = 0 → exec i s = .next (if inv then s.evictLine s.ic (pa / 128) else s).advance) ∧
          (l.dirty ≠ 0 → s.pinned t.place = true → exec i s = .next (s.park (.room .pin))) ∧
          (l.dirty ≠ 0 → s.pinned t.place = false →
            let u := if inv then s.evictLine s.ic (pa / 128) else s.writeBackLine s.ic (pa / 128)
            exec i s = .next (parked u (.access (.done false)) (.accessReply u.ic u.is))))) ∧
      (s.unreachable t = false → (∀ pa, t.place ≠ .home pa) ∨ t.attr ≠ 0 → exec i s = .next s.advance)) := by
  rw [hexec]
  refine ⟨lineOp_idle hn inv, fun hi hw t hx => ⟨fun pa hp ha => ⟨lineOp_absent hn hi inv hw hx hp ha, fun l hl => ?_⟩,
    lineOp_uncached hn hi inv hw hx⟩⟩
  rw [lineOp_held hn hi inv hw hx hp ha hl]
  refine ⟨fun hd => if_pos hd, fun hd hpin => (if_neg hd).trans (if_pos hpin), fun hd hpin => ?_⟩
  exact (if_neg hd).trans (if_neg (Bool.eq_false_iff.1 hpin))

/-- Settles O32: CFLUSH and CINV by the line that the cache holds, PREF by what its translation answers. -/
theorem cacheControl : Obligations.CacheControl := by
  unfold Obligations.CacheControl
  intro s a hn va idle
  refine ⟨List.forall_mem_cons.2 ⟨lineOp_controls rfl hn, List.forall_mem_singleton.2 (lineOp_controls rfl hn)⟩, exec_pref_idle hn,
    fun hi => ⟨fun t hx => ⟨fun pa => exec_pref_fills hn hi hx, exec_pref_uncached hn hi hx⟩, exec_pref_untranslated hn hi⟩⟩

end Sys2Proof.Proofs
end

section
/-! Atomics and reductions as they issue (spec/12 R267 to R272). -/

namespace Sys2Proof.Machine

open Safety

/-! The combining operations on integers (R268). -/

/-- The order of two words as signed numbers. -/
def signedLess (x y : Nat) : Bool := decide ((BitVec.ofNat 64 x).toInt < (BitVec.ofNat 64 y).toInt)

theorem amoNew_add (m b e : Nat) : amoNew 0 m b e = some ((m + b) % 2 ^ 64) :=
  congrArg some ((BitVec.toNat_add ..).trans (by simp only [BitVec.toNat_ofNat, Nat.add_mod_mod, Nat.mod_add_mod]))

section
variable {m b : Nat} (e : Nat) (hm : m < 2 ^ 64) (hb : b < 2 ^ 64)
include hm hb

theorem amoNew_and : amoNew 1 m b e = some (m &&& b) := by
  simp only [amoNew, BitVec.toNat_and, BitVec.toNat_ofNat, Nat.mod_eq_of_lt hm, Nat.mod_eq_of_lt hb]

theorem amoNew_or : amoNew 2 m b e = some (m ||| b) := by
  simp only [amoNew, BitVec.toNat_or, BitVec.toNat_ofNat, Nat.mod_eq_of_lt hm, Nat.mod_eq_of_lt hb]

theorem amoNew_xor : amoNew 3 m b e = some (m ^^^ b) := by
  simp only [amoNew, BitVec.toNat_xor, BitVec.toNat_ofNat, Nat.mod_eq_of_lt hm, Nat.mod_eq_of_lt hb]

theorem amoNew_min : amoNew 4 m b e = some (if signedLess b m then b else m) := by
  simp only [amoNew, apply_ite BitVec.toNat, BitVec.toNat_ofNat, Nat.mod_eq_of_lt hm, Nat.mod_eq_of_lt hb]
  rfl

theorem amoNew_max : amoNew 5 m b e = some (if signedLess m b then b else m) := by
  simp only [amoNew, apply_ite BitVec.toNat, BitVec.toNat_ofNat, Nat.mod_eq_of_lt hm, Nat.mod_eq_of_lt hb]
  rfl

end

/-! The checks before an atomic's work. -/

/-- An atomic reaches its target: the access meets no fault, the target is one that it may have, a light thread stands at its home, and no
RED of the thread is on its way to the same bytes. -/
def State.mayCombine (s : State) (need : Need) (size : Nat) (va : VAddr) (t : Target) : Prop :=
  va.off.toNat % size = 0 ∧ s.xlate s.ic s.is need va = .ok t ∧ (∀ f v e, t.place ≠ .mx f v e) ∧
  (∀ sp p, t.place = .remote sp p → sp ≠ 255) ∧ s.unreachable t = false ∧
  (s.cur.light = true → t.homeCore = some s.ic) ∧ s.cur.redOverlap t.place size = false

section
variable {s : State} {t : Target}

theorem amoTarget_ok (kind : AccessKind) (k : State → Res) (hmx : ∀ f v e, t.place ≠ .mx f v e)
    (hhost : ∀ sp p, t.place = .remote sp p → sp ≠ 255) : amoTarget kind t k s = k s := by
  unfold amoTarget
  split
  · next f v e hp => exact absurd hp (hmx f v e)
  · next sp p hp => exact if_neg (by simp [hhost sp p hp])
  all_goals rfl

theorem State.mayCombine_clear {need : Need} {size : Nat} {va : VAddr} (h : s.mayCombine need size va t) :
    s.cur.redOverlap t.place size = false := by
  obtain ⟨-, -, -, -, -, -, hred⟩ := h
  exact hred

theorem combine_checks {need : Need} {size : Nat} {va : VAddr} (kind : AccessKind) (k : Target → State → Res)
    (h : s.mayCombine need size va t) :
    access need size va (fun t s => amoTarget kind t (atHome t (k t)) s) s = k t s := by
  obtain ⟨ha, hx, hmx, hhost, hu, hl, -⟩ := h
  rw [access_ok _ ha hx hu, amoTarget_ok _ _ hmx hhost, atHome_ok _ hl]

end

/-! AMOs (R269). -/

section
variable {s : State} {t : Target} {f4 : Nat} {a b d : BitVec 7} (hn : named s.cur [a, b, d])
  (hc : s.mayCombine { r := true, w := true, noWindow := true } (amoSize f4) (address s a 0 1) t)
include hn hc

/-- An AMO that reaches its target: a light thread combines there, and a heavy one sends its packet after a release. -/
theorem amo_reaches :
    let e : Word := if f4 = 9 then X s d else 0
    let size := amoSize f4
    amo f4 b a d s =
      if s.cur.light then
        (if s.cur.reds != [] then park .reds s
        else if s.pinned t.place then park (.room .pin) s
        else
          let r := (s.noteWrite s.ic t size).combineAt (.core s.ic) t f4 (X s b).toNat e.toNat (some none)
          match r.2.1 with
          | some i => trapAt 12 (VAddr.plus (address s a 0 1) i) s
          | none => doneLatc (r.2.2.setRd d (BitVec.ofNat 64 r.1) false))
      else if !s.queueRoom t.queue then parkQueue t.queue s
      else
        released (fun r =>
          let u := r.leaveCache r.ic t size
          .next ((u.park (.proxy d.toNat)).sendPacket t.queue (u.amoPacket 1 f4 t (X s b) e (u.core u.ic).carried))) s := by
  rw [amo, limit_ok _ hn]
  simp only [dataAddr_eq]
  exact (combine_checks .readWrite _ hc).trans (if_neg (Bool.eq_false_iff.1 (State.mayCombine_clear hc)))

section
variable (hl : s.cur.light = true) (hr : s.cur.reds = []) (hpin : s.pinned t.place = false)
  {r : Nat × Option Nat × State}
  (hcomb : (s.noteWrite s.ic t (amoSize f4)).combineAt (.core s.ic) t f4 (X s b).toNat (if f4 = 9 then X s d else 0 : Word).toNat
    (some none) = r)
include hl hr hpin hcomb

theorem amo_light_writes (hp : r.2.1 = none) : amo f4 b a d s = .next (completed (r.2.2.setRd d (BitVec.ofNat 64 r.1) false)) := by
  rw [amo_reaches hn hc]
  simp only [hl, hr, hpin, hcomb, hp, bne_self_eq_false, Bool.false_eq_true, if_true, if_false, doneLatc_eq]

theorem amo_light_poisoned {n : Nat} (hp : r.2.1 = some n) :
    amo f4 b a d s =
      .next (s.enterTrap s.ic s.is 12 ((address s a 0 1).off + BitVec.ofNat 64 n) s.cur.pc (address s a 0 1).space) := by
  rw [amo_reaches hn hc]
  simp only [hl, hr, hpin, hcomb, hp, bne_self_eq_false, Bool.false_eq_true, if_true, if_false]
  rfl

end

section
variable (hl : s.cur.light = false)
include hl

theorem amo_heavy_full (hq : s.queueRoom t.queue = false) : amo f4 b a d s = .next (s.park (.migration t.queue)) := by
  rw [amo_reaches hn hc]
  simp only [hl, hq, Bool.false_eq_true, Bool.not_false, if_true, if_false]
  rfl

theorem amo_heavy_sends (hr : s.cur.reds = []) (hq : s.queueRoom t.queue = true) (hd : s.dirtyPinned s.ic = false) :
    let e : Word := if f4 = 9 then X s d else 0
    let r := s.releaseCore s.ic
    let u := r.leaveCache r.ic t (amoSize f4)
    amo f4 b a d s =
      .next ((u.park (.proxy d.toNat)).sendPacket t.queue (u.amoPacket 1 f4 t (X s b) e (u.core u.ic).carried)) := by
  rw [amo_reaches hn hc]
  simp only [hl, hq, Bool.false_eq_true, Bool.not_true, if_false, released_ok _ hr hd]

end

end

/-! REDs (R270, R272). -/

section
variable {s : State} {t : Target} {f4 : Nat} {a b : BitVec 7} (e : Word) {regs : List (BitVec 7)} (hn : named s.cur regs)
  (hc : s.mayCombine { w := true, noWindow := true } (amoSize f4) (address s a 0 1) t)
include hn hc

/-- A RED that reaches its target: a light thread combines there, and a heavy one sends its packet and goes on. -/
theorem red_reaches :
    let size := amoSize f4
    red f4 b a e regs s =
      if s.cur.light then
        (if s.pinned t.place then park (.room .pin) s
        else
          let r := (s.noteWrite s.ic t size).combineAt (.core s.ic) t f4 (X s b).toNat e.toNat none
          done (if r.2.1.isSome then r.2.2.record (.redDropped s.cur.inst) else r.2.2))
      else if s.readHeld s.ic s.is true t size then park (.room .pin) s
      else if !s.queueRoom t.queue then parkQueue t.queue s
      else
        let u := s.leaveCache s.ic t size
        done ((u.sendPacket t.queue (u.amoPacket 2 f4 t (X s b) e 0)).updCur fun v =>
          { v with reds := v.reds ++ [⟨t.queue, t.place, size, u.serial⟩] }) := by
  rw [red, limit_ok _ hn]
  simp only [dataAddr_eq]
  exact (combine_checks .write _ hc).trans (if_neg (Bool.eq_false_iff.1 (State.mayCombine_clear hc)))

theorem red_light (hl : s.cur.light = true) (hpin : s.pinned t.place = false) :
    let r := (s.noteWrite s.ic t (amoSize f4)).combineAt (.core s.ic) t f4 (X s b).toNat e.toNat none
    red f4 b a e regs s = .next (if r.2.1.isSome then r.2.2.record (.redDropped s.cur.inst) else r.2.2).advance := by
  rw [red_reaches e hn hc]
  exact (if_pos hl).trans (if_neg (Bool.eq_false_iff.1 hpin))

theorem red_heavy (hl : s.cur.light = false) (hh : s.readHeld s.ic s.is true t (amoSize f4) = false)
    (hq : s.queueRoom t.queue = true) :
    let u := s.leaveCache s.ic t (amoSize f4)
    red f4 b a e regs s =
      .next ((u.sendPacket t.queue (u.amoPacket 2 f4 t (X s b) e 0)).updCur fun v =>
        { v with reds := v.reds ++ [⟨t.queue, t.place, amoSize f4, u.serial⟩] }).advance := by
  rw [red_reaches e hn hc]
  simp only [hl, hh, hq, Bool.false_eq_true, Bool.not_true, if_false, done]

end

end Sys2Proof.Machine

namespace Sys2Proof.Proofs

open Machine Safety

/-- Settles O34: every AMO and every RED is one of its number, whose size and new value its row of R267 and R268 gives. -/
theorem atomics : Obligations.Atomics := by
  unfold Obligations.Atomics
  intro s a b d t va wrap less plain amo red fp
  have amos {i : Instr} {f4 : Nat} {new : Nat → Nat → Nat → Option Nat} (hi : exec i s = Machine.amo f4 b a d s)
      (hnew : ∀ m x y, m < 2 ^ 64 → x < 2 ^ 64 → amoNew f4 m x y = new m x y) : amo i f4 (amoSize f4) new := by
    refine ⟨hnew, fun hn hc hr => ⟨fun hl hpin => ⟨fun hp => ?_, fun n hp => ?_⟩, fun hl hq hd => ?_, fun hl hq => ?_⟩⟩
    · exact hi.trans (amo_light_writes hn hc hl hr hpin rfl hp)
    · exact hi.trans (amo_light_poisoned hn hc hl hr hpin rfl hp)
    · exact hi.trans (amo_heavy_sends hn hc hl hr hq hd)
    · exact hi.trans (amo_heavy_full hn hc hl hq)
  have reds {i : Instr} {f4 : Nat} {regs : List (BitVec 7)} {e : Word} {new : Nat → Nat → Option Nat}
      (hi : exec i s = Machine.red f4 b a e regs s)
      (hnew : ∀ m x, m < 2 ^ 64 → x < 2 ^ 64 → f4 ≠ 15 → amoNew f4 m x 0 = new m x) : red i f4 (amoSize f4) regs e new :=
    ⟨hnew, fun hn hc => ⟨fun hl hpin => hi.trans (red_light e hn hc hl hpin),
      fun hl hh hq => hi.trans (red_heavy e hn hc hl hh hq)⟩⟩
  exact ⟨amos rfl fun m x y _ _ => amoNew_add m x y,
    amos rfl fun _ _ y hm hx => amoNew_and y hm hx,
    amos rfl fun _ _ y hm hx => amoNew_or y hm hx,
    amos rfl fun _ _ y hm hx => amoNew_xor y hm hx,
    amos rfl fun _ _ y hm hx => amoNew_min y hm hx,
    amos rfl fun _ _ y hm hx => amoNew_max y hm hx,
    amos rfl fun _ _ _ _ _ => rfl,
    amos rfl fun _ _ _ _ _ => rfl,
    amos rfl fun _ _ _ _ _ => rfl,
    amos rfl fun _ _ _ _ _ => rfl,
    amos rfl fun _ _ _ _ _ => rfl,
    reds rfl fun m x _ _ _ => amoNew_add m x 0,
    reds rfl fun _ _ hm hx _ => amoNew_min 0 hm hx,
    reds rfl fun _ _ hm hx _ => amoNew_max 0 hm hx,
    reds rfl fun _ _ _ _ _ => rfl,
    reds rfl fun _ _ _ _ h => absurd rfl h⟩

end Sys2Proof.Proofs
end

section
/-! Pre-emption, eviction, kill and castling (spec/18 R369, R372 to R388, spec/14 R312, spec/19 R394). -/

namespace Sys2Proof.Machine

/-! The number names nothing: what it named is gone, or it never was. -/

section
variable {s : State} {n : Nat} (h : s.inst n = none)
include h

theorem exec_preemptionRequest_none : exec (.preemptionRequest n) s = .next s := by
  show execPreemptionRequest n s = _
  simp only [execPreemptionRequest, State.preempt, h]

theorem exec_kernelKillRequest_none : exec (.kernelKillRequest n) s = .next s := by
  show execKernelKillRequest n s = _
  simp only [execKernelKillRequest, State.kill, h]

theorem exec_haltComplete_none : exec (.haltComplete n) s = .next s := by
  show execHaltComplete n s = _
  simp only [execHaltComplete, h]

theorem exec_resume_none : exec (.resume n) s = .next s := by
  show execResume n s = _
  simp only [execResume, h]

theorem exec_eviction_none (image : Nat) : exec (.eviction n image) s = .next s := by
  show execEviction n image s = _
  simp only [execEviction, h]

theorem exec_killComplete_none : exec (.killComplete n) s = .next s := by
  show execKillComplete n s = _
  simp only [execKillComplete, h]

end

section
variable {s : State} {n : Nat} {i : Inst} (hi : s.inst n = some i)
include hi

/-! Halting and resuming (R373, R375, R376). -/

theorem exec_preemptionRequest_idle (hst : i.st ≠ .live) : exec (.preemptionRequest n) s = .next s := by
  show execPreemptionRequest n s = _
  simp only [execPreemptionRequest, State.preempt, hi, if_pos (bne_iff_ne.2 hst)]

theorem exec_preemptionRequest_waits (hst : i.st = .live) (hx : s.exchanging i.core = true) :
    exec (.preemptionRequest n) s = .next (s.afterSwap i.core (.preemptionRequest n)) := by
  show execPreemptionRequest n s = _
  simp only [execPreemptionRequest, State.preempt, hi, hst, bne_self_eq_false, Bool.false_eq_true, if_false, if_pos hx]

theorem exec_preemptionRequest_halts (hst : i.st = .live) (hx : s.exchanging i.core = false) :
    let u := (s.updInst n fun x => { x with st := .halting }).abandonSwap (pairOf i.core) (some n)
    exec (.preemptionRequest n) s =
      .next (((((u.haltThreads n).withdrawPress n).holdSteps n).yieldJobs n).emitOnce (.haltComplete n)) := by
  show execPreemptionRequest n s = _
  simp only [execPreemptionRequest, State.preempt, hi, hst, hx, bne_self_eq_false, Bool.false_eq_true, if_false]

theorem exec_haltComplete_early (h : i.st ≠ .halting ∨ s.allHalted n i = false) : exec (.haltComplete n) s = .next s := by
  show execHaltComplete n s = _
  simp only [execHaltComplete, hi]
  exact if_pos (by simpa using h)

theorem exec_haltComplete_tells (hst : i.st = .halting) (hall : s.allHalted n i = true) : exec (.haltComplete n) s =
    .next (((s.updInst n fun x => { x with st := .halted }).record (.haltComplete n)).requestDone n) := by
  show execHaltComplete n s = _
  simp only [execHaltComplete, hi]
  exact if_neg (by simp [hst, hall])

theorem exec_resume_goesOn (hst : i.st = .halted) : exec (.resume n) s = .next (s.goOn n) := by
  show execResume n s = _
  simp only [execResume, hi, if_pos hst]

theorem exec_resume_idle (hst : i.st ≠ .halted) : exec (.resume n) s = .next s := by
  show execResume n s = _
  simp only [execResume, hi, if_neg hst]

/-! Eviction (R374, R377). -/

/-- The checks of an eviction: the state, the image's alignment and its room. -/
def State.notEvictable (s : State) (i : Inst) (n image : Nat) : Prop :=
  i.st ≠ .halted ∨ image % 4096 ≠ 0 ∨ Config.hbmBytes < image + Inst.imageSize ((s.core i.core).ownBarriers n).length ∨
    (tabFind s.images image).isSome = true

theorem exec_eviction_refused {image : Nat} (h : s.notEvictable i n image) : exec (.eviction n image) s = .next s := by
  show execEviction n image s = _
  simp only [execEviction, hi]
  exact if_pos (by simpa [State.notEvictable, or_assoc] using h)

section
variable {image : Nat} (h : ¬ s.notEvictable i n image)
include h

/-- An eviction that is not refused waits for the exchange, then for the replies, and then is made. -/
theorem exec_eviction_checked :
    exec (.eviction n image) s =
      let free := s.abandonSwap (pairOf i.core) (some n)
      if s.exchanging i.core = true then .next (s.afterSwap i.core (.eviction n image))
      else if ∃ x ∈ (s.core i.core).imageSlots n, x.2.awaitsReply = true then
        .next (free.updInst n fun x => { x with evictTo := some image })
      else .next (free.evict n i image) := by
  show execEviction n image s = _
  simp only [execEviction, hi, List.any_eq_true]
  exact if_neg (by simpa [State.notEvictable, or_assoc] using h)

theorem exec_eviction_afterSwap (hx : s.exchanging i.core = true) :
    exec (.eviction n image) s = .next (s.afterSwap i.core (.eviction n image)) :=
  (exec_eviction_checked hi h).trans (if_pos hx)

theorem exec_eviction_awaitsReplies (hx : s.exchanging i.core = false)
    (hw : ∃ x ∈ (s.core i.core).imageSlots n, x.2.awaitsReply = true) :
    exec (.eviction n image) s =
      .next ((s.abandonSwap (pairOf i.core) (some n)).updInst n fun x => { x with evictTo := some image }) := by
  simp only [exec_eviction_checked hi h, hx, Bool.false_eq_true, if_false, if_pos hw]

theorem exec_eviction_evicts (hx : s.exchanging i.core = false)
    (hw : ¬ ∃ x ∈ (s.core i.core).imageSlots n, x.2.awaitsReply = true) :
    exec (.eviction n image) s = .next ((s.abandonSwap (pairOf i.core) (some n)).evict n i image) := by
  simp only [exec_eviction_checked hi h, hx, Bool.false_eq_true, if_false, if_neg hw]

end

/-! Kill (R379, R380). -/

theorem exec_kernelKillRequest_again (hst : i.st = .killing) : exec (.kernelKillRequest n) s = .next s := by
  show execKernelKillRequest n s = _
  simp only [execKernelKillRequest, State.kill, hi, if_pos hst]

theorem exec_kernelKillRequest_waits (hst : i.st ≠ .killing) (hr : i.resident = true) (hx : s.exchanging i.core = true) :
    exec (.kernelKillRequest n) s = .next (s.afterSwap i.core (.kernelKillRequest n)) := by
  show execKernelKillRequest n s = _
  simp only [execKernelKillRequest, State.kill, hi, if_neg hst, hr, hx, Bool.and_self, if_true]

/-- What a kill ends and discards, once the image is gone or the pair's swap abandoned. -/
def State.endOwned (s : State) (n : Nat) : State :=
  let v := (s.updInst n fun x => { x with st := .killing, core := if x.resident then x.core else nowhere, evictTo := none }).killThreads n
  let v := v.cores.foldl (fun v e => (v.dropRequests e.1 n).dropHanded e.1 n) v
  let v := ((((v.dropCopies n).dropIndex n).discardJobs n).killPress n).dropLink n
  let v := v.cores.foldl (fun v e => v.updCore e.1 fun k => { k with mailbox := k.mailbox.filter fun m => m.inst != n }) v
  let v := v.cores.foldl (fun v e => v.pairMoved e.1) v
  ((v.emitOnce (.mailboxDelivery n)).unblocked).emitOnce (.killComplete n)

/-- A kill that no exchange holds: an evicted victim's image goes, and any other's swap is abandoned. -/
theorem exec_kernelKillRequest_ends (hst : i.st ≠ .killing) (h : i.resident = false ∨ s.exchanging i.core = false) :
    exec (.kernelKillRequest n) s = .next (State.endOwned (match i.st with
      | .evicted m => { s with images := tabDel s.images m }
      | _ => s.abandonSwap (pairOf i.core) (some n)) n) := by
  have hx : ¬ (i.resident && s.exchanging i.core) = true := by simpa [← Bool.not_eq_true, imp_iff_not_or] using h
  show execKernelKillRequest n s = _
  simp only [execKernelKillRequest, State.kill, hi, if_neg hst, if_neg hx]
  cases i.st <;> rfl

theorem exec_killComplete_early (h : i.st ≠ .killing ∨ s.killPending n = true ∨ s.exchanging i.core = true) :
    exec (.killComplete n) s = .next s := by
  show execKillComplete n s = _
  simp only [execKillComplete, hi]
  exact if_pos (by simpa [or_assoc] using h)

theorem exec_killComplete_frees (hst : i.st = .killing) (hp : s.killPending n = false) (hx : s.exchanging i.core = false) :
    let u := { s with orphans := s.orphans.filter fun x => x.1 != n }
    exec (.killComplete n) s = .next (((if i.core = nowhere then { u with insts := tabDel u.insts n } else u.freePlace n i).record
      (.killComplete n)).requestDone n) := by
  show execKillComplete n s = _
  simp only [execKillComplete, hi]
  exact if_neg (by simp [hst, hp, hx])

end

/-! Restore (R378). -/

theorem exec_restore_none {s : State} {image : Nat} (c : Nat) (h : tabFind s.images image = none) :
    exec (.restore image c) s = .next s := by
  show execRestore image c s = _
  simp only [execRestore, h]

/-- The core, and the cluster's job entries, can take the image now. -/
def State.takesImage (s : State) (c : Nat) (g : Image) : Prop :=
  (s.core c).started = true ∧ (s.core c).drained = false ∧ s.tableFree c g.inst.fmtp = true ∧
    s.jobsMove g.number (clusterOf g.inst.core) (clusterOf c) = true

/-- As execRestore tests it. -/
theorem State.takesImage_iff {s : State} {c : Nat} {g : Image} : s.takesImage c g ↔
    ¬ (!(s.core c).started || (s.core c).drained || !s.tableFree c g.inst.fmtp ||
      !s.jobsMove g.number (clusterOf g.inst.core) (clusterOf c)) = true := by
  simp [State.takesImage, and_assoc]

section
variable {s : State} {image c : Nat} {g : Image} (hg : tabFind s.images image = some g)
include hg

theorem exec_restore_waits (hw : s.swapping c = true) : exec (.restore image c) s = .next (s.afterSwap c (.restore image c)) := by
  show execRestore image c s = _
  simp only [execRestore, hg, if_pos hw]

variable (hw : s.swapping c = false)
include hw

theorem exec_restore_changed (h : s.imageIntact g = false) : exec (.restore image c) s = .next (s.record (.imageRefused image 4)) := by
  show execRestore image c s = _
  simp only [execRestore, hg, hw, h, Bool.not_false, Bool.false_eq_true, if_false, if_true]

variable (h : s.imageIntact g = true)
include h

theorem exec_restore_conflicts (hc : s.conflicts c (s.readImage image g) = true) :
    exec (.restore image c) s = .next (s.record (.imageRefused image 5)) := by
  show execRestore image c s = _
  simp only [execRestore, hg, hw, h, hc, Bool.not_true, Bool.false_eq_true, if_false, if_true]

variable (hc : s.conflicts c (s.readImage image g) = false)
include hc

theorem exec_restore_unready (hr : ¬ s.takesImage c (s.readImage image g)) : exec (.restore image c) s = .next s := by
  show execRestore image c s = _
  simp only [execRestore, hg, hw, h, hc, Bool.not_true, Bool.false_eq_true, if_false]
  exact if_pos (not_not.1 (mt State.takesImage_iff.2 hr))

variable (hr : s.takesImage c (s.readImage image g))
include hr

theorem exec_restore_unseated (hs : (s.core c).seatAgain (s.readImage image g).threads = none) :
    exec (.restore image c) s = .next s := by
  show execRestore image c s = _
  simp only [execRestore, hg, hw, h, hc, if_neg (State.takesImage_iff.1 hr), hs, Bool.not_true, Bool.false_eq_true, if_false]

theorem exec_restore_places {seats : List (Nat × Nat)} {banks : List Nat × List Nat × List Nat}
    (hs : (s.core c).seatAgain (s.readImage image g).threads = some seats)
    (hb : (s.core c).banksFor (s.readImage image g).inst.packet = some banks) (hf : (s.readImage image g).inst.fmtp = 0) :
    exec (.restore image c) s = .next (s.place image (s.readImage image g) c none seats banks) := by
  have hb' : (s.core c).banksFor g.inst.packet = some banks := hb
  show execRestore image c s = _
  simp only [execRestore, hg, hw, h, hc, if_neg (State.takesImage_iff.1 hr), hs, hb', if_pos hf, Bool.not_true, Bool.false_eq_true,
    if_false]

end

/-! Threads that only the kernel moves (R369, spec/19 R394). -/

section
variable {s : State} {c sl : Nat}

theorem exec_frozenThreadRestart_frozen (pc : BitVec 64) (h : (s.thread c sl).st = .frozen) :
    exec (.frozenThreadRestart c sl pc) s =
      .next (s.releaseThread c sl fun u => { u with mode := .supervisor, inh := false, pc := pc }) :=
  if_pos h

theorem exec_frozenThreadRestart_other (pc : BitVec 64) (h : (s.thread c sl).st ≠ .frozen) :
    exec (.frozenThreadRestart c sl pc) s = .next s :=
  if_neg h

theorem exec_haltedThreadResume_stopped (h : (s.thread c sl).st = .stopped) :
    exec (.haltedThreadResume c sl) s = .next (s.releaseThread c sl id) :=
  if_pos h

theorem exec_haltedThreadResume_other (h : (s.thread c sl).st ≠ .stopped) : exec (.haltedThreadResume c sl) s = .next s :=
  if_neg h

/-! Holds (R385). -/

theorem exec_holdExpiry_none (h : (s.thread c sl).hold = none) : exec (.holdExpiry c sl) s = .next s := by
  show execHoldExpiry c sl s = _
  simp only [execHoldExpiry, h]

variable {since : Nat} (h : (s.thread c sl).hold = some since)
include h

theorem exec_holdExpiry_early (hlt : (s.core c).cyc < since + holdCycles) : exec (.holdExpiry c sl) s = .next s := by
  show execHoldExpiry c sl s = _
  simp only [execHoldExpiry, h, if_neg (Nat.not_le.2 hlt)]

theorem exec_holdExpiry_expires (hle : since + holdCycles ≤ (s.core c).cyc) :
    exec (.holdExpiry c sl) s = .next ((s.updThread c sl fun u => { u with hold := none }).pairMoved c) := by
  show execHoldExpiry c sl s = _
  simp only [execHoldExpiry, h, if_pos hle]

end

/-! A swap falls due (R381, R382). -/

theorem exec_swapDue_idle {s : State} {n : Nat} (h : (s.pair n).phase ≠ .idle ∨ n ≠ pairOf n) : exec (.swapDue n) s = .next s := by
  show execSwapDue n s = _
  simp only [execSwapDue]
  split
  · next hidle => exact if_pos (bne_iff_ne.2 (h.resolve_left (not_not.2 hidle)))
  all_goals rfl

/-- The swap that falls due has nothing to do: castling is off, a core is drained, or neither has a resident. -/
def State.swapSkipped (s : State) (n : Nat) : Prop := s.castling n = 0 ∨ s.pairDrained n = true ∨ s.pairHeld n = false

/-- The pair as a swap that is due finds it: what an abandoned one has left to retry is taken up. -/
def State.dueAgain (s : State) (n : Nat) : State :=
  s.updPair n fun x => { x with retry := false, ignoreHolds := x.ignoreHolds && x.retry }

section
variable {s : State} {n : Nat} (hidle : (s.pair n).phase = .idle) (hn : n = pairOf n)
include hidle hn

theorem exec_swapDue_skips (h : (s.dueAgain n).swapSkipped n) : exec (.swapDue n) s = .next ((s.dueAgain n).swapOver n) := by
  have hp : ¬ (n != pairOf n) = true := by simpa using hn
  show execSwapDue n s = _
  simp only [execSwapDue, hidle, if_neg hp]
  exact if_pos (by simpa [State.swapSkipped, State.dueAgain, or_assoc] using h)

theorem exec_swapDue_waits (h : ¬ (s.dueAgain n).swapSkipped n) :
    exec (.swapDue n) s = .next (((s.dueAgain n).updPair n fun x => { x with phase := .waiting ((s.dueAgain n).core n).cyc }).emitOnce
      (.swapPrepare n)) := by
  have hp : ¬ (n != pairOf n) = true := by simpa using hn
  show execSwapDue n s = _
  simp only [execSwapDue, hidle, if_neg hp]
  exact if_neg (by simpa [State.swapSkipped, State.dueAgain, or_assoc] using h)

end

/-! Its phases: it waits, prepares, exchanges, and lets both cores go on (R382 to R385). -/

section
variable {s : State} {n : Nat} (h : (s.pair n).phase = .idle)
include h

theorem exec_swapPrepare_idle : exec (.swapPrepare n) s = .next s := by
  show execSwapPrepare n s = _
  simp only [execSwapPrepare, h]

theorem exec_swapDeferralLimit_idle : exec (.swapDeferralLimit n) s = .next s := by
  show execSwapDeferralLimit n s = _
  simp only [execSwapDeferralLimit, h]

theorem exec_swapExchange_idle : exec (.swapExchange n) s = .next s := by
  show execSwapExchange n s = _
  simp only [execSwapExchange, h]

theorem exec_swapResume_idle : exec (.swapResume n) s = .next s := by
  show execSwapResume n s = _
  simp only [execSwapResume, h]

end

section
variable {s : State} {n since : Nat} (h : (s.pair n).phase = .waiting since)
include h

theorem exec_swapPrepare_held (hw : s.swapWaits n = true) : exec (.swapPrepare n) s = .next s := by
  show execSwapPrepare n s = _
  simp only [execSwapPrepare, h, if_pos hw]

theorem exec_swapPrepare_prepares (hw : s.swapWaits n = false) : exec (.swapPrepare n) s =
    .next (((s.updPair n fun x => { x with phase := .preparing (s.core n).cyc }).prepareCore n).prepareCore (partner n)) := by
  show execSwapPrepare n s = _
  simp only [execSwapPrepare, h, hw, Bool.false_eq_true, if_false]

theorem exec_swapDeferralLimit_early (hlt : (s.core n).cyc < since + deferCycles) : exec (.swapDeferralLimit n) s = .next s := by
  show execSwapDeferralLimit n s = _
  simp only [execSwapDeferralLimit, h, if_neg (Nat.not_le.2 hlt)]

theorem exec_swapDeferralLimit_ignoresHolds (hle : since + deferCycles ≤ (s.core n).cyc) : exec (.swapDeferralLimit n) s =
    .next ((s.updPair n fun x => { x with ignoreHolds := true }).emitOnce (.swapPrepare n)) := by
  show execSwapDeferralLimit n s = _
  simp only [execSwapDeferralLimit, h, if_pos hle]

end

/-- An exchange has to wait: for the prepare phase, for a press of the cluster or for a pinned dirty line. -/
def State.exchangeWaits (s : State) (n since : Nat) : Prop :=
  (s.core n).cyc < since + prepareCycles ∨ (s.cluster (clusterOf n)).pressing = true ∨ s.dirtyPinned n = true ∨
    s.dirtyPinned (partner n) = true

section
variable {s : State} {n since : Nat} (h : (s.pair n).phase = .preparing since)
include h

theorem exec_swapExchange_waits (hw : s.exchangeWaits n since) : exec (.swapExchange n) s = .next s := by
  show execSwapExchange n s = _
  simp only [execSwapExchange, h]
  exact if_pos (by simpa [State.exchangeWaits, or_assoc] using hw)

theorem exec_swapExchange_exchanges (hw : ¬ s.exchangeWaits n since) : exec (.swapExchange n) s =
    .next (((s.exchange n).updPair n fun x => { x with phase := .exchanged }).emitOnce (.swapResume n)) := by
  show execSwapExchange n s = _
  simp only [execSwapExchange, h]
  exact if_neg (by simpa [State.exchangeWaits, or_assoc] using hw)

end

/-- After the exchange both cores open, and what it held goes on, in order. -/
theorem exec_swapResume_exchanged {s : State} {n : Nat} (h : (s.pair n).phase = .exchanged) :
    let opened := ((s.updPair n fun x => { x with phase := .idle, ignoreHolds := false, again := none, held := [] }).updCore n
      Core.reopened).updCore (partner n) Core.reopened
    let u := ((((opened.emitAll (s.pair n).held).swapOver n).portsMoved n).portsMoved (partner n)).unblocked
    exec (.swapResume n) s = .next ((u.residents n ++ u.residents (partner n)).foldl (fun v e => v.settleInst e.1) u) := by
  show execSwapResume n s = _
  simp only [execSwapResume, h]

end Sys2Proof.Machine

namespace Sys2Proof.Proofs

open Machine Safety

/-- Settles O53: each event goes on from what it finds (a state, an image, a thread, or the phase of the pair's swap), and an exchange of
the pair holds it. -/
theorem instanceEvents : Obligations.InstanceEvents := by
  unfold Obligations.InstanceEvents
  intro s n c sl image pc
  refine ⟨fun h => ⟨exec_preemptionRequest_none h, exec_kernelKillRequest_none h, exec_haltComplete_none h, exec_resume_none h,
      exec_eviction_none h image, exec_killComplete_none h⟩, fun i hi => ?_, exec_restore_none c, fun g => exec_restore_waits,
    fun g hg hw => ⟨exec_restore_changed hg hw, exec_restore_conflicts hg hw, fun h hc =>
      ⟨exec_restore_unready hg hw h hc, exec_restore_unseated hg hw h hc, fun _ _ hr => exec_restore_places hg hw h hc hr⟩⟩,
    exec_frozenThreadRestart_frozen pc, exec_frozenThreadRestart_other pc, exec_haltedThreadResume_stopped, exec_haltedThreadResume_other,
    rfl, rfl, exec_swapDue_idle, fun hidle hn => ⟨exec_swapDue_skips hidle hn, exec_swapDue_waits hidle hn⟩,
    fun since h => ⟨exec_swapPrepare_held h, exec_swapPrepare_prepares h, exec_swapDeferralLimit_early h,
      exec_swapDeferralLimit_ignoresHolds h⟩, fun since h => ⟨exec_swapExchange_waits h, exec_swapExchange_exchanges h⟩,
    exec_swapResume_exchanged, fun h => ⟨exec_swapPrepare_idle h, exec_swapDeferralLimit_idle h, exec_swapExchange_idle h,
      exec_swapResume_idle h⟩, exec_holdExpiry_none, fun since h => ⟨exec_holdExpiry_early h, exec_holdExpiry_expires h⟩⟩
  exact ⟨exec_preemptionRequest_idle hi, exec_preemptionRequest_waits hi, exec_preemptionRequest_halts hi,
    exec_kernelKillRequest_again hi, exec_kernelKillRequest_waits hi, exec_kernelKillRequest_ends hi,
    exec_haltComplete_early hi, exec_haltComplete_tells hi, exec_resume_goesOn hi, exec_resume_idle hi,
    ⟨exec_eviction_refused hi, exec_eviction_afterSwap hi, exec_eviction_awaitsReplies hi, exec_eviction_evicts hi⟩,
    exec_killComplete_early hi, exec_killComplete_frees hi⟩

end Sys2Proof.Proofs
end

section
/-! The mailbox instructions (spec/16 R360 to R362). -/

namespace Sys2Proof.Machine

open Safety

/-! The oldest message of a slot, by its place in the mailbox. -/

theorem Message.isFor_eq (m : Message) (inst slot : Nat) : m.isFor inst slot = decide (m.inst = inst ∧ m.slot = slot) :=
  (Bool.decide_and ..).symm

theorem Message.isFor_iff {m : Message} {inst slot : Nat} : m.isFor inst slot = true ↔ m.inst = inst ∧ m.slot = slot := by
  rw [Message.isFor_eq, decide_eq_true_eq]

section
variable {k : Core} {inst slot : Nat}

theorem Core.oldest_none (h : ∀ m ∈ k.mailbox, ¬ (m.inst = inst ∧ m.slot = slot)) : k.oldest inst slot = none :=
  List.find?_eq_none.2 fun m hm => mt Message.isFor_iff.1 (h m hm)

variable {l r : List Message} {m : Message} (hm : m.inst = inst ∧ m.slot = slot) (hl : ∀ x ∈ l, ¬ (x.inst = inst ∧ x.slot = slot))
include hm hl

theorem Core.oldest_first (hk : k.mailbox = l ++ m :: r) : k.oldest inst slot = some m :=
  List.find?_eq_some_iff_append.2 ⟨Message.isFor_iff.2 hm, l, r, hk, fun x hx => by
    rw [Bool.not_eq_true', ← Bool.not_eq_true]
    exact mt Message.isFor_iff.1 (hl x hx)⟩

theorem dropOldest_first : dropOldest inst slot (l ++ m :: r) = l ++ r := by
  induction l with
  | nil => exact if_pos (Message.isFor_iff.2 hm)
  | cons x l ih =>
    obtain ⟨hx, hl⟩ := List.forall_mem_cons.1 hl
    exact (if_neg (mt Message.isFor_iff.1 hx)).trans (congrArg (x :: ·) (ih hl))

end

/-! EPOP, MB.PEEK and MB.COUNT (R360, R361). -/

section
variable {s : State} {d : BitVec 7} (hl : s.cur.light = false)
include hl

theorem exec_mbCount (hn : named s.cur [d]) :
    exec (.mbCount d) s = .next (wrote s d (BitVec.ofNat 64
      ((s.core s.ic).mailbox.countP fun m => decide (m.inst = s.cur.inst ∧ m.slot = s.is))) false) := by
  show execMbCount d s = _
  rw [execMbCount, heavyOnly_ok _ _ hl, limit_ok _ hn]
  simp only [← Message.isFor_eq, List.countP_eq_length_filter]
  rfl

variable (hroom : ∀ i < 2, s.cur.rename (d.toNat + i) < s.cur.bound)
include hroom

section
variable (ho : (s.core s.ic).oldest s.cur.inst s.is = none)
include ho

theorem exec_epop_empty : exec (.epop d) s = .next (s.park .mail) := by
  show execEpop d s = _
  simp only [execEpop, heavyOnly_ok _ _ hl, limitNumbers_span _ hroom, ho, park]

theorem exec_mbPeek_empty : exec (.mbPeek d) s = .next (s.putMessage d 0xFFFFFFFFFFFFFFFF#128).advance := by
  show execMbPeek d s = _
  simp only [execMbPeek, heavyOnly_ok _ _ hl, limitNumbers_span _ hroom, ho, done]

end

variable {m : Message} (ho : (s.core s.ic).oldest s.cur.inst s.is = some m)
include ho

theorem exec_mbPeek : exec (.mbPeek d) s = .next (s.putMessage d m.body).advance := by
  show execMbPeek d s = _
  simp only [execMbPeek, heavyOnly_ok _ _ hl, limitNumbers_span _ hroom, ho, done]

/-- A message of which the port mbx has given half is not taken. -/
theorem exec_epop_half (hm : m.half = true) : exec (.epop d) s = trap 6 0 s := by
  show execEpop d s = _
  simp only [execEpop, heavyOnly_ok _ _ hl, limitNumbers_span _ hroom, ho, hm, if_true]

theorem exec_epop (hm : m.half = false) (hd : s.dirtyPinned s.ic = false) {rest : List Message}
    (hrest : dropOldest s.cur.inst s.is (s.core s.ic).mailbox = rest) :
    let taken := s.updCore s.ic fun c => { c with mailbox := rest }
    exec (.epop d) s = .next (completed (((taken.acquireMsg s.ic m.body).mailRoom s.ic).putMessage d m.body)) := by
  subst hrest
  show execEpop d s = _
  simp only [execEpop, heavyOnly_ok _ _ hl, limitNumbers_span _ hroom, ho, hm, acquiring_ok _ hd, doneLatc_eq, Bool.false_eq_true, if_false]
  rfl

end

/-! MB.SEND (R362). -/

theorem fld_eq (v hi lo : Nat) : fld v hi lo = v / 2 ^ lo % 2 ^ (hi + 1 - lo) := by rw [fld, Nat.shiftRight_eq_div_pow]

/-- What MB.SEND does with its message once the release has passed: it follows those that are on their way already. -/
def State.sendMail (u : State) (m : Message) : Res :=
  if !u.liveInst m.inst then done u
  else
    let w := u.deliverAll m.inst u.mailFlight
    if w.mailFlight.any fun x => x.inst = m.inst then Machine.park (.room (.mail m.inst)) w
    else
      match w.accept m with
      | none => Machine.park (.room (.mail m.inst)) w
      | some v => parkAccess (.done true) v

section
variable {u : State} {m : Message}

theorem State.sendMail_dropped (h : u.liveInst m.inst = false) : u.sendMail m = .next u.advance := if_pos (by simp [h])

variable (h : u.liveInst m.inst = true)
include h

theorem State.sendMail_waits (hw : ((u.deliverAll m.inst u.mailFlight).mailFlight.any fun x => x.inst = m.inst) = true ∨
    (u.deliverAll m.inst u.mailFlight).accept m = none) :
    u.sendMail m = .next ((u.deliverAll m.inst u.mailFlight).park (.room (.mail m.inst))) := by
  rw [State.sendMail, if_neg (by simp [h])]
  rcases hw with hahead | hfull
  · exact if_pos hahead
  · simp only [hfull, ite_self, Machine.park]

theorem State.sendMail_accepted {v : State} (hnone : ((u.deliverAll m.inst u.mailFlight).mailFlight.any fun x => x.inst = m.inst) = false)
    (hv : (u.deliverAll m.inst u.mailFlight).accept m = some v) :
    u.sendMail m = .next (parked v (.access (.done true)) (.accessReply v.ic v.is)) := by
  rw [State.sendMail, if_neg (by simp [h])]
  simp only [hnone, hv, Bool.false_eq_true, if_false]
  rfl

end

section
variable {s : State} {a b : BitVec 7} (hl : s.cur.light = false) (hb : s.cur.rename b.toNat < s.cur.bound)
  (hroom : ∀ i < 2, s.cur.rename (a.toNat + i) < s.cur.bound)
include hl hb hroom

theorem exec_mbSend_badSlot (h : 60 ≤ (X s b).toNat % 64) : exec (.mbSend b a) s = trap 6 0 s := by
  show execMbSend b a s = _
  rw [execMbSend, heavyOnly_ok _ _ hl, limitNumbers_cons_span _ hb hroom]
  exact if_pos h

theorem exec_mbSend (h : (X s b).toNat % 64 < 60) (hr : s.cur.reds = []) (hd : s.dirtyPinned s.ic = false) :
    let high := (s.cur.reg (s.cur.rename (a.toNat + 1))).toNat
    let u := s.releaseCore s.ic
    let body := makeMsg (s.cur.reg (s.cur.rename a.toNat)).toNat (high % 2 ^ 32) (high / 2 ^ 32 % 2 ^ 16) u.cur.space.toNat 8 0
    exec (.mbSend b a) s = u.sendMail ⟨(X s b).toNat / 2 ^ 16 % 2 ^ 16, (X s b).toNat % 64, body, false, none⟩ := by
  intro high u body
  show execMbSend b a s = _
  rw [execMbSend, heavyOnly_ok _ _ hl, limitNumbers_cons_span _ hb hroom]
  refine (if_neg (Nat.not_le.2 h)).trans ((released_ok _ hr hd).trans ?_)
  simp only [fld_eq _ 31 16, fld_eq _ 47 32]
  rfl

end

end Sys2Proof.Machine

namespace Sys2Proof.Proofs

open Machine Safety

/-- Settles O45: the oldest message of the slot is found by its place, and MB.SEND goes by what its release and the messages before its own
leave. -/
theorem mailbox : Obligations.Mailbox := by
  unfold Obligations.Mailbox
  intro s a b d hl k mine pair put
  refine ⟨fun hroom h => ?_, fun hroom m l r hk hm hbefore => ?_, exec_mbCount hl, fun hb hroom =>
    ⟨exec_mbSend_badSlot hl hb hroom, fun h hr hd => ?_⟩⟩
  · have ho := Core.oldest_none h
    exact ⟨exec_epop_empty hl hroom ho, exec_mbPeek_empty hl hroom ho⟩
  · have ho := Core.oldest_first hm hbefore hk
    have hrest : dropOldest s.cur.inst s.is k.mailbox = l ++ r := by rw [hk, dropOldest_first hm hbefore]
    exact ⟨exec_mbPeek hl hroom ho, exec_epop_half hl hroom ho, fun hhalf hd => exec_epop hl hroom ho hhalf hd hrest⟩
  · rw [exec_mbSend hl hb hroom h hr hd]
    exact ⟨fun hdead => State.sendMail_dropped hdead, fun hlive => ⟨fun hw => State.sendMail_waits hlive hw,
      fun _ hnone hv => State.sendMail_accepted hlive hnone hv⟩⟩

end Sys2Proof.Proofs
end

section
/-! Submissions to the engines (spec/16 R344 to R346, R350 to R354). -/

namespace Sys2Proof.Machine

open Safety

/-! Shared checks. -/

section
variable {s : State}

theorem tensor_ok {feature : Nat} (w : InstrWord) (k : State → Res) (hl : s.cur.light = false) (hf : s.accepted feature = true) :
    tensor feature w k s = k s := if_neg (by simp [hl, hf])

/-- Bytes that no RED of the thread, hold or poison keeps it from reading. -/
theorem peekOr_ok {n : Nat} {bypass : Bool} {t : Target} (k : List Byte → State → Res) (ho : s.cur.redOverlap t.place n = false)
    (hh : s.readHeld s.ic s.is bypass t n = false) (hp : (s.readFor s.ic s.is bypass t n).2.1 = none) :
    peekOr n bypass t k s = k (s.readFor s.ic s.is bypass t n).1 (s.readFor s.ic s.is bypass t n).2.2 := by
  simp only [peekOr, ho, hh, hp, Bool.false_eq_true, if_false]

end

/-- The descriptor at X(a) is aligned, of this device's space, and translates. -/
def State.finds (s : State) (a : BitVec 7) (align : Nat) (t : Target) : Prop :=
  (address s a 0 1).off.toNat % align = 0 ∧ s.ownSpace (address s a 0 1).space = true ∧
  s.xlate s.ic s.is { r := true } (address s a 0 1) = .ok t ∧ s.unreachable t = false

/-! The job queue of the matrix engine (R344, R345, R350). -/

section
variable {s : State} {a d : BitVec 7} {align : Nat} {t : Target} (norm : Bool) (k : Option (BitVec 16) → State → Res)
  (h : s.finds a align t)
include h

theorem submit_withdrawn (hw : (s.cluster (clusterOf s.ic)).withdrawn = true) : submit norm align a k s = k none s := by
  obtain ⟨ha, hs, hx, hu⟩ := h
  simp only [submit, dataAddr_eq, ha, hs, access_ok _ ha hx hu, hw, bne_self_eq_false, Bool.not_true,
    Bool.false_eq_true, if_false, if_true]

variable (hw : (s.cluster (clusterOf s.ic)).withdrawn = false)
include hw

theorem submit_full (hf : (s.cluster (clusterOf s.ic)).freeJob = none) :
    submit norm align a k s = .next (s.park (.room (.job (clusterOf s.ic)))) := by
  obtain ⟨ha, hs, hx, hu⟩ := h
  simp only [submit, dataAddr_eq, ha, hs, access_ok _ ha hx hu, hw, hf, park, bne_self_eq_false, Bool.not_true,
    Bool.false_eq_true, if_false]

theorem submit_accepted {e : Nat} (hf : (s.cluster (clusterOf s.ic)).freeJob = some e) (hr : s.cur.reds = [])
    (hd : s.dirtyPinned s.ic = false) :
    let v := (s.releaseCore s.ic).acceptJob (clusterOf s.ic) e norm (address s a 0 1)
    submit norm align a k s = k (some (jobId ((v.cluster (clusterOf s.ic)).job e).gen e)) v := by
  obtain ⟨ha, hs, hx, hu⟩ := h
  simp only [submit, dataAddr_eq, ha, hs, access_ok _ ha hx hu, hw, hf, bne_self_eq_false, Bool.not_true, Bool.false_eq_true, if_false]
  exact released_ok _ hr hd

end

/-- What a submission writes: the id of its job, or that the cluster is withdrawn. -/
def answerJob (d : BitVec 7) (id : Option (BitVec 16)) (s : State) : Res :=
  doneLatc (s.setRd d (id.elim (BitVec.allOnes 64) (·.setWidth 64)) false)

section
variable {s : State} {a d : BitVec 7} (hl : s.cur.light = false) (hn : named s.cur [a, d])
include hl hn

theorem submitCard_submits (w : InstrWord) (hf : s.accepted 2 = true) : submitCard w a d s = submit false 128 a (answerJob d) s := by
  rw [submitCard, tensor_ok _ _ hl hf, limit_ok _ hn]
  congr
  funext id
  cases id <;> rfl

theorem exec_mxSubmit (hf : s.accepted 2 = true) : exec (.mxSubmit a d) s = submit false 128 a (answerJob d) s :=
  submitCard_submits hl hn (wordMxSubmit a d) hf

theorem exec_mxNorm (hf : s.accepted 4 = true) : exec (.mxNorm a d) s = submit true 64 a (answerJob d) s := by
  show execMxNorm a d s = _
  rw [execMxNorm, tensor_ok _ _ hl hf, limit_ok _ hn]
  congr
  funext id
  cases id <;> rfl

variable {t : Target} (hf : s.accepted 2 = true) (h : s.finds a 128 t)
include hf h

/-- A withdrawn cluster refuses MX.RUN with CODE 7 and its trap. -/
theorem exec_mxRun_withdrawn (hw : (s.cluster (clusterOf s.ic)).withdrawn = true) :
    let v := wrote s d 0xFFFFFFFF00000073 false
    exec (.mxRun a d) s = .next (v.enterTrap v.ic v.is 11 s.cur.pc v.cur.pc 0) := by
  show execMxRun a d s = _
  rw [execMxRun, tensor_ok _ _ hl hf, limit_ok _ hn, submit_withdrawn _ _ h hw]
  rfl

variable (hw : (s.cluster (clusterOf s.ic)).withdrawn = false)
include hw

theorem exec_mxRun_full (hnone : (s.cluster (clusterOf s.ic)).freeJob = none) :
    exec (.mxRun a d) s = .next (s.park (.room (.job (clusterOf s.ic)))) := by
  show execMxRun a d s = _
  rw [execMxRun, tensor_ok _ _ hl hf, limit_ok _ hn, submit_full _ _ h hw hnone]

theorem exec_mxRun {e : Nat} (he : (s.cluster (clusterOf s.ic)).freeJob = some e) (hr : s.cur.reds = [])
    (hd : s.dirtyPinned s.ic = false) :
    let v := (s.releaseCore s.ic).acceptJob (clusterOf s.ic) e false (address s a 0 1)
    exec (.mxRun a d) s = .next (v.park (.jobRun (jobId ((v.cluster (clusterOf s.ic)).job e).gen e) (v.cur.rename d.toNat))) := by
  show execMxRun a d s = _
  rw [execMxRun, tensor_ok _ _ hl hf, limit_ok _ hn, submit_accepted _ _ h hw he hr hd]
  rfl

end

/-! The queues of the copy unit and of the index engine (R352, R354). -/

theorem exec_cpGo (a : BitVec 7) (s : State) : exec (.cpGo a) s = pushCopy (wordCpGo a) a id s := rfl

theorem exec_ixGo (a : BitVec 7) (s : State) : exec (.ixGo a) s = pushIndex (wordIxGo a) false a id s := rfl

theorem exec_ixResume (a : BitVec 7) (s : State) : exec (.ixResume a) s = pushIndex (wordIxResume a) true a id s := rfl

section
variable {s : State} {a : BitVec 7} (w : InstrWord) (hl : s.cur.light = false)
include hl

section
variable (fin : State → State) (h62 : s.is = 62) (hroom : ∀ i < 4, s.cur.rename (a.toNat + i) < s.cur.bound)
include h62 hroom

theorem pushCopy_full (hfull : copyQueueSize ≤ (s.cluster (clusterOf s.ic)).copyQueue.length) :
    pushCopy w a fin s = .next (s.park (.room (.copy (clusterOf s.ic)))) := by
  rw [pushCopy, if_neg (by simp [hl, h62]), limitNumbers_span _ hroom]
  exact if_pos hfull

theorem pushCopy_pushes (hfree : (s.cluster (clusterOf s.ic)).copyQueue.length < copyQueueSize) (hr : s.cur.reds = [])
    (hd : s.dirtyPinned s.ic = false) :
    let command := fourWords (s.cur.regsFrom a.toNat 4)
    pushCopy w a fin s = .next (completed
      (((fin (s.releaseCore s.ic)).updCluster (clusterOf s.ic) fun x => { x with copyQueue := x.copyQueue ++ [command] }).emitOnce
        (.copyBeat (clusterOf s.ic) (reqChan command)))) := by
  rw [pushCopy, if_neg (by simp [hl, h62]), limitNumbers_span _ hroom]
  exact (if_neg (Nat.not_le.2 hfree)).trans (released_ok _ hr hd)

end

section
variable {t : Target} (resume : Bool) (fin : State → State) (hf : s.accepted 7 = true) (hn : named s.cur [a]) (h : s.finds a 64 t)
include hf hn h

theorem pushIndex_full (hfull : indexQueueSize ≤ (s.cluster (clusterOf s.ic)).indexQueue.length) :
    pushIndex w resume a fin s = .next (s.park (.room (.index (clusterOf s.ic)))) := by
  obtain ⟨ha, -, hx, hu⟩ := h
  rw [pushIndex, if_neg (by simp [hl, hf]), limit_ok _ hn]
  simp only [dataAddr_eq, access_ok _ ha hx hu]
  exact if_pos hfull

theorem pushIndex_pushes (hfree : (s.cluster (clusterOf s.ic)).indexQueue.length < indexQueueSize) (hr : s.cur.reds = [])
    (hd : s.dirtyPinned s.ic = false) :
    pushIndex w resume a fin s = .next (completed
      (((fin (s.releaseCore s.ic)).updCluster (clusterOf s.ic) fun x =>
        { x with indexQueue := x.indexQueue ++ [⟨address s a 0 1, (s.releaseCore s.ic).cur.inst, resume⟩] }).kickIndex
          (clusterOf s.ic))) := by
  obtain ⟨ha, -, hx, hu⟩ := h
  rw [pushIndex, if_neg (by simp [hl, hf]), limit_ok _ hn]
  simp only [dataAddr_eq, access_ok _ ha hx hu]
  exact (if_neg (Nat.not_le.2 hfree)).trans (released_ok _ hr hd)

end

end

/-! EPUSH (R346). -/

theorem epushFeature_iff {s : State} {b : BitVec 7} (hb : s.cur.rename b.toNat < s.cur.bound) : epushFeature b s = true ↔
    (X s b).toNat % 4 = 1 ∧ s.accepted 7 = false ∨ (X s b).toNat % 4 = 2 ∧ s.accepted 2 = false := by
  simp [epushFeature, hb, X]

section
variable {s : State} {a b d : BitVec 7} (hl : s.cur.light = false) (hb : s.cur.rename b.toNat < s.cur.bound)
include hl hb

/-- The feature of the selected queue is asked for before the other fields (spec/02 R43). -/
theorem exec_epush_unaccepted (h : (X s b).toNat % 4 = 1 ∧ s.accepted 7 = false ∨ (X s b).toNat % 4 = 2 ∧ s.accepted 2 = false) :
    exec (.epush b a d) s = .next (s.enterTrap s.ic s.is 0 ((wordEpush b a d).setWidth 64) s.cur.pc 0) := by
  show execEpush b a d s = _
  rw [execEpush, heavyOnly_ok _ _ hl]
  exact if_pos ((epushFeature_iff hb).2 h)

variable (hd : s.cur.rename d.toNat < s.cur.bound) (hroom : ∀ i < 4, s.cur.rename (a.toNat + i) < s.cur.bound)
include hd hroom

theorem exec_epush (hf : epushFeature b s ≠ true) :
    exec (.epush b a d) s =
      if (X s b).toNat % 4 = 0 then if s.is != 62 then trap 6 0 s else pushCopy (wordEpush b a d) a (fun u => u.setRd d 0 false) s
      else if (X s b).toNat % 4 = 1 then pushIndex (wordEpush b a d) false a (fun u => u.setRd d 0 false) s
      else if (X s b).toNat % 4 = 2 then submitCard (wordEpush b a d) a d s
      else trap 6 0 s := by
  show execEpush b a d s = _
  rw [execEpush, heavyOnly_ok _ _ hl, if_neg hf,
    limitNumbers_ok _ (List.forall_mem_cons.2 ⟨hb, List.forall_mem_cons.2 ⟨hd, span_within hroom⟩⟩)]
  rfl

/-- Only the copy thread pushes to the copy unit, and no fourth queue is there. -/
theorem exec_epush_traps (h : (X s b).toNat % 4 = 0 ∧ s.is ≠ 62 ∨ (X s b).toNat % 4 = 3) : exec (.epush b a d) s = trap 6 0 s := by
  rw [exec_epush hl hb hd hroom (by rw [Ne, epushFeature_iff hb]; omega)]
  rcases h with ⟨hq, hno⟩ | hq
  · rw [if_pos hq, if_pos (bne_iff_ne.2 hno)]
  · simp [hq]

theorem exec_epush_copy (hq : (X s b).toNat % 4 = 0) (h62 : s.is = 62) :
    exec (.epush b a d) s = pushCopy (wordEpush b a d) a (fun u => u.setRd d 0 false) s := by
  rw [exec_epush hl hb hd hroom (by rw [Ne, epushFeature_iff hb]; omega), if_pos hq, if_neg (by simp [h62])]

theorem exec_epush_index (hq : (X s b).toNat % 4 = 1) (hf : s.accepted 7 = true) :
    exec (.epush b a d) s = pushIndex (wordEpush b a d) false a (fun u => u.setRd d 0 false) s := by
  rw [exec_epush hl hb hd hroom (by simp [epushFeature_iff hb, hq, hf])]
  simp [hq]

theorem exec_epush_card (hq : (X s b).toNat % 4 = 2) (hf : s.accepted 2 = true) :
    exec (.epush b a d) s = submitCard (wordEpush b a d) a d s := by
  rw [exec_epush hl hb hd hroom (by simp [epushFeature_iff hb, hq, hf])]
  simp [hq]

end

/-! MX.XCHG (R351). -/

/-- A participant of a press waits, and the press forms with its eighth. -/
def State.joinPress (u : State) (k : Nat) (d : BitVec 7) (x : BitVec 256) : State :=
  let joined := (u.updCluster k fun c => { c with
    press := c.press ++ [{ key := xdKey x, p := xdP x, core := u.ic, slot := u.is, inst := u.cur.inst, src := xdSrc x, dst := xdDst x
                           frag := xdFrag x, tbl := xdTbl x }] }).park (.press (xdKey x) (u.cur.rename d.toNat))
  if (joined.cluster k).pressFull (xdKey x) then joined.emitOnce (.pressFormation k (xdKey x)) else joined

/-- What MX.XCHG does with the descriptor that it has read. -/
def State.offerPress (v : State) (d : BitVec 7) (x : BitVec 256) : Res :=
  if xdBad (v.scratchOf v.cur.inst) x then .next (wrote v d 1 false)
  else if (v.cluster (clusterOf v.ic)).press.any fun y => y.key = xdKey x && y.p = xdP x then .next (wrote v d 3 false)
  else released (fun u => .next (u.joinPress (clusterOf v.ic) d x)) v

section
variable {v : State} {d : BitVec 7} {x : BitVec 256}

theorem State.offerPress_bad (h : xdBad (v.scratchOf v.cur.inst) x = true) : v.offerPress d x = .next (wrote v d 1 false) := if_pos h

variable (h : xdBad (v.scratchOf v.cur.inst) x = false)
include h

theorem State.offerPress_twin (ht : ∃ y ∈ (v.cluster (clusterOf v.ic)).press, y.key = xdKey x ∧ y.p = xdP x) :
    v.offerPress d x = .next (wrote v d 3 false) :=
  (if_neg (Bool.eq_false_iff.1 h)).trans (if_pos (by simpa [List.any_eq_true] using ht))

theorem State.offerPress_joins (ht : ∀ y ∈ (v.cluster (clusterOf v.ic)).press, ¬ (y.key = xdKey x ∧ y.p = xdP x))
    (hr : v.cur.reds = []) (hd : v.dirtyPinned v.ic = false) :
    v.offerPress d x = .next ((v.releaseCore v.ic).joinPress (clusterOf v.ic) d x) :=
  (if_neg (Bool.eq_false_iff.1 h)).trans ((if_neg (by simpa [List.any_eq_true] using ht)).trans (released_ok _ hr hd))

end

theorem exec_mxXchg {s : State} {a d : BitVec 7} {t : Target} (hl : s.cur.light = false) (hn : named s.cur [a, d])
    (hf : s.accepted 6 = true) (h : s.finds a 32 t) (ho : s.cur.redOverlap t.place 32 = false)
    (hh : s.readHeld s.ic s.is (bypasses s a) t 32 = false) (hp : (s.readFor s.ic s.is (bypasses s a) t 32).2.1 = none) :
    let r := s.readFor s.ic s.is (bypasses s a) t 32
    exec (.mxXchg a d) s = r.2.2.offerPress d (BitVec.ofNat 256 (leNat r.1)) := by
  obtain ⟨ha, -, hx, hu⟩ := h
  rw [bypasses] at *
  show execMxXchg a d s = _
  rw [execMxXchg, tensor_ok _ _ hl hf, limit_ok _ hn]
  simp only [dataAddr_eq, ha, access_ok _ ha hx hu, State.freshAddr, peekOr_ok _ ho hh hp, bne_self_eq_false,
    Bool.false_eq_true, if_false]
  rfl

end Sys2Proof.Machine

namespace Sys2Proof.Proofs

open Machine Safety

section
variable {s : State} {i : Instr} {a d : BitVec 7} (hr : s.cur.reds = []) (hd : s.dirtyPinned s.ic = false)
include hr hd

/-- What O47 says of a submission of a job. -/
theorem submission_outcomes {norm : Bool} {align : Nat} {t : Target} (hi : exec i s = submit norm align a (answerJob d) s)
    (h : s.finds a align t) :
    let c := s.cluster (clusterOf s.ic)
    (c.withdrawn = true → exec i s = .next (completed (s.setRd d (BitVec.allOnes 64) false))) ∧
    (c.withdrawn = false →
      (∀ e, c.freeJob = some e →
        let v := (s.releaseCore s.ic).acceptJob (clusterOf s.ic) e norm (address s a 0 1)
        exec i s = .next (completed (v.setRd d ((jobId ((v.cluster (clusterOf s.ic)).job e).gen e).setWidth 64) false))) ∧
      (c.freeJob = none → exec i s = .next (s.park (.room (.job (clusterOf s.ic)))))) := by
  rw [hi]
  exact ⟨submit_withdrawn _ _ h, fun hw => ⟨fun e he => submit_accepted _ _ h hw he hr hd, submit_full _ _ h hw⟩⟩

/-- What O47 says of a copy command. -/
theorem copyPush_outcomes {w : InstrWord} {fin : State → State} (hi : exec i s = pushCopy w a fin s) (hl : s.cur.light = false)
    (h62 : s.is = 62) (hroom : ∀ i < 4, s.cur.rename (a.toNat + i) < s.cur.bound) {v : State} (hv : fin (s.releaseCore s.ic) = v) :
    let k := clusterOf s.ic
    let command := fourWords (s.cur.regsFrom a.toNat 4)
    (copyQueueSize ≤ (s.cluster k).copyQueue.length → exec i s = .next (s.park (.room (.copy k)))) ∧
    ((s.cluster k).copyQueue.length < copyQueueSize →
      exec i s = .next (completed ((v.updCluster k fun x =>
        { x with copyQueue := x.copyQueue ++ [command] }).emitOnce (.copyBeat k (reqChan command))))) := by
  rw [hi, ← hv]
  exact ⟨pushCopy_full w hl fin h62 hroom, fun hfree => pushCopy_pushes w hl fin h62 hroom hfree hr hd⟩

/-- What O47 says of a command of the index engine. -/
theorem indexPush_outcomes {w : InstrWord} {resume : Bool} {fin : State → State} {t : Target}
    (hi : exec i s = pushIndex w resume a fin s) (hl : s.cur.light = false) (hf : s.accepted 7 = true) (hn : named s.cur [a])
    (h : s.finds a 64 t) {v : State} (hv : fin (s.releaseCore s.ic) = v) :
    let k := clusterOf s.ic
    (indexQueueSize ≤ (s.cluster k).indexQueue.length → exec i s = .next (s.park (.room (.index k)))) ∧
    ((s.cluster k).indexQueue.length < indexQueueSize →
      exec i s = .next (completed ((v.updCluster k fun x =>
        { x with indexQueue := x.indexQueue ++ [⟨address s a 0 1, (s.releaseCore s.ic).cur.inst, resume⟩] }).kickIndex k))) := by
  rw [hi, ← hv]
  exact ⟨pushIndex_full w hl resume fin hf hn h, fun hfree => pushIndex_pushes w hl resume fin hf hn h hfree hr hd⟩

end

/-- Settles O47: each instruction is a push to one queue, or, for EPUSH, to the one of its selector; MX.XCHG offers the descriptor that it
has read to the press. -/
theorem enginePushes : Obligations.EnginePushes := by
  unfold Obligations.EnginePushes
  intro s a b d t hl hr hd k c u va four found id pushes closed command copies indexes
  refine ⟨fun hn hf h => ?_, fun hn hf h => submission_outcomes hr hd (exec_mxNorm hl hn hf) h,
    fun hroom h62 => copyPush_outcomes hr hd (exec_cpGo a s) hl h62 hroom rfl,
    fun hn hf h => ⟨indexPush_outcomes hr hd (exec_ixGo a s) hl hf hn h rfl,
      indexPush_outcomes hr hd (exec_ixResume a s) hl hf hn h rfl⟩,
    fun hb hbd hroom => ⟨fun hq hno => exec_epush_traps hl hb hbd hroom (.inl ⟨hq, hno⟩),
      fun hq h62 => copyPush_outcomes hr hd (exec_epush_copy hl hb hbd hroom hq h62) hl h62 hroom rfl,
      fun hq hn hf h => indexPush_outcomes hr hd (exec_epush_index hl hb hbd hroom hq hf) hl hf hn h rfl,
      fun hq hn hf h => submission_outcomes hr hd ((exec_epush_card hl hb hbd hroom hq hf).trans (submitCard_submits hl hn _ hf)) h,
      fun hq => exec_epush_traps hl hb hbd hroom (.inr hq)⟩,
    exec_epush_unaccepted hl, fun hn hf h ho hh hp => ?_⟩
  · obtain ⟨hclosed, hopen⟩ := submission_outcomes hr hd (exec_mxSubmit hl hn hf) h
    exact ⟨hclosed, fun hw => ⟨hopen hw, fun e he => exec_mxRun hl hn hf h hw he hr hd, exec_mxRun_full hl hn hf h hw⟩,
      exec_mxRun_withdrawn hl hn hf h⟩
  · rw [exec_mxXchg hl hn hf h ho hh hp]
    exact ⟨State.offerPress_bad, fun hok => ⟨State.offerPress_twin hok, State.offerPress_joins hok⟩⟩

end Sys2Proof.Proofs
end

section
/-! Job tracking, vats, seeds and the decode table (spec/16 R347 to R349, R353, R355 to R359). -/

namespace Sys2Proof.Machine

open Safety

/-! A light thread issues none of them. -/

section
variable {s : State} (hl : s.cur.light = true)
include hl

theorem heavyOnly_light (w : InstrWord) (k : State → Res) :
    heavyOnly w k s = .next (s.enterTrap s.ic s.is 0 (w.setWidth 64) s.cur.pc 0) := if_pos hl

theorem tensor_light (feature : Nat) (w : InstrWord) (k : State → Res) :
    tensor feature w k s = .next (s.enterTrap s.ic s.is 0 (w.setWidth 64) s.cur.pc 0) := if_pos (by simp [hl])

end

/-! Job words (R347 to R349). -/

/-- The job that an id names is gone or has ended, which is what JOB.WAIT waits for. -/
def Cluster.over (k : Cluster) (id : BitVec 16) : Prop := ∀ e j, k.named id = some (e, j) → j.st = .ended

theorem State.idOf_eq (s : State) (a : BitVec 7) : s.idOf a = (X s a).setWidth 16 := rfl

section
variable {k : Cluster} {id : BitVec 16}

theorem Cluster.over_gone (h : k.named id = none) : k.over id := fun e j hj => by simp [h] at hj

theorem Cluster.over_ended {e : Nat} {j : JobEntry} (h : k.named id = some (e, j)) (hend : j.st = .ended) : k.over id := by
  intro e' j' hj
  rw [h, Option.some.injEq, Prod.mk.injEq] at hj
  rw [← hj.2, hend]

theorem Cluster.jobWord_gone (h : k.named id = none) : k.jobWord id = 4 := by simp only [Cluster.jobWord, h]

theorem Cluster.jobWord_named {e : Nat} {j : JobEntry} (h : k.named id = some (e, j)) : k.jobWord id = j.word := by
  simp only [Cluster.jobWord, h]

end

section
variable {s : State} {id : BitVec 16}

theorem State.acquireWord_gone (h : (s.cluster (clusterOf s.ic)).named id = none) : s.acquireWord id = s.acquireJob s.ic none := by
  simp only [State.acquireWord, h]

theorem State.acquireWord_named {e : Nat} {j : JobEntry} (h : (s.cluster (clusterOf s.ic)).named id = some (e, j)) :
    s.acquireWord id = if j.st = .ended then s.acquireJob s.ic (some j) else s := by
  simp only [State.acquireWord, h]

end

section
variable {s : State} {a d : BitVec 7} {id : BitVec 16} (hl : s.cur.light = false) (hn : named s.cur [a, d]) (hf : s.accepted 2 = true)
  (ha : (X s a).setWidth 16 = id)
include hl hn hf ha

section
variable (hd : s.dirtyPinned s.ic = false)
include hd

theorem exec_jobPoll : exec (.jobPoll a d) s =
    .next (wrote (s.acquireWord id) d (BitVec.ofNat 64 ((s.cluster (clusterOf s.ic)).jobWord id)) false) := by
  show execJobPoll a d s = _
  rw [execJobPoll, tensor_ok _ _ hl hf, limit_ok _ hn]
  simp only [State.idOf_eq, ha, acquiring_ok _ hd, ite_self]
  split <;> rfl

theorem exec_jobWait (ho : (s.cluster (clusterOf s.ic)).over id) : exec (.jobWait a d) s =
    .next (wrote (s.acquireWord id) d (BitVec.ofNat 64 ((s.cluster (clusterOf s.ic)).jobWord id)) false) := by
  show execJobWait a d s = _
  rw [execJobWait, tensor_ok _ _ hl hf, limit_ok _ hn]
  simp only [State.idOf_eq, ha, acquiring_ok _ hd]
  cases hid : (s.cluster (clusterOf s.ic)).named id with
  | none => rw [Cluster.jobWord_gone hid]; rfl
  | some x => rw [Cluster.jobWord_named hid]; exact if_pos (ho _ _ hid)

end

theorem exec_jobCancel_gone (hid : (s.cluster (clusterOf s.ic)).named id = none) :
    exec (.jobCancel a d) s = .next (wrote s d 4 false) := by
  show execJobCancel a d s = _
  rw [execJobCancel, tensor_ok _ _ hl hf, limit_ok _ hn]
  simp only [State.idOf_eq, ha, hid]
  rfl

variable {e : Nat} {j : JobEntry} (hid : (s.cluster (clusterOf s.ic)).named id = some (e, j))
include hid

theorem exec_jobPoll_going (hj : j.st ≠ .ended) :
    exec (.jobPoll a d) s = .next (wrote s d (BitVec.ofNat 64 ((s.cluster (clusterOf s.ic)).jobWord id)) false) := by
  show execJobPoll a d s = _
  rw [execJobPoll, tensor_ok _ _ hl hf, limit_ok _ hn]
  simp only [State.idOf_eq, ha, hid, hj, if_false, State.acquireWord_named hid]
  rfl

theorem exec_jobWait_going (hj : j.st ≠ .ended) : exec (.jobWait a d) s = .next (s.park (.jobWait id (s.cur.rename d.toNat))) := by
  show execJobWait a d s = _
  rw [execJobWait, tensor_ok _ _ hl hf, limit_ok _ hn]
  simp only [State.idOf_eq, ha, hid, hj, if_false]
  rfl

theorem exec_jobCancel : exec (.jobCancel a d) s =
    if j.inst = s.cur.inst then .next ((s.setRd d (BitVec.ofNat 64 j.word) false).cancelJob (clusterOf s.ic) e j).advance
    else .next (wrote s d (BitVec.ofNat 64 (j.word + 512)) false) := by
  show execJobCancel a d s = _
  rw [execJobCancel, tensor_ok _ _ hl hf, limit_ok _ hn]
  simp only [State.idOf_eq, ha, hid, bne_iff_ne, ite_not]
  rfl

end

/-! CP.WP (R353). -/

/-- Tag and count of the bytes that a channel has written, as CP.WP gives them. -/
def Channel.pointer (c : Channel) : Word := BitVec.ofNat 64 (c.ctag.toNat * 2 ^ 48 + c.done % 2 ^ 48)

section
variable {s : State} {a d : BitVec 7} {c : Channel} (hl : s.cur.light = false) (hn : named s.cur [a, d])
  (hd : s.dirtyPinned s.ic = false) (hc : (s.cluster (clusterOf s.ic)).channel ((X s a).toNat % 16) = c)
include hl hn hd hc

/-- A channel that has written nothing names no bytes to acquire. -/
theorem exec_cpWp_unwritten (hdst : c.dst = none) : exec (.cpWp a d) s = .next (wrote s d c.pointer false) := by
  have hchannel : (s.cluster (clusterOf s.ic)).channel (fld (s.cur.opnd a).val.toNat 3 0) = c := hc
  show execCpWp a d s = _
  rw [execCpWp, heavyOnly_ok _ _ hl, limit_ok _ hn]
  simp only [hchannel, acquiring_ok _ hd, hdst]
  rfl

theorem exec_cpWp {x : VAddr} (hdst : c.dst = some x) :
    exec (.cpWp a d) s = .next (wrote (s.acquireBytes s.ic x.space x.off.toNat c.done) d c.pointer false) := by
  have hchannel : (s.cluster (clusterOf s.ic)).channel (fld (s.cur.opnd a).val.toNat 3 0) = c := hc
  show execCpWp a d s = _
  rw [execCpWp, heavyOnly_ok _ _ hl, limit_ok _ hn]
  simp only [hchannel, acquiring_ok _ hd, hdst]
  rfl

end

/-! Accesses within one page. -/

section
variable {need : Need} {align n : Nat} {va : VAddr} {t : Target} {s : State}

/-- Bytes of one page are one run. -/
theorem accessBytes_page (k : List (Target × Nat) → State → Res) (hpage : va.off.toNat % 4096 + n ≤ 4096)
    (ha : va.off.toNat % align = 0) (hx : s.xlate s.ic s.is need va = .ok t) (hu : s.unreachable t = false) :
    accessBytes need align n va k s = k [(t, n)] s := by
  have hrun : pageRun va n = n := Nat.min_eq_left (by omega)
  rw [accessBytes, access_ok _ ha hx hu]
  simp only [hrun, Nat.sub_self]
  exact if_pos rfl

theorem accessBytes_misaligned (k : List (Target × Nat) → State → Res) (ha : va.off.toNat % align ≠ 0) :
    accessBytes need align n va k s = trapAt 2 va s := access_misaligned _ ha

end

theorem viewIn_mx {t : Target} {f v : Nat} {e : Bool} (n : Nat) (h : t.place = .mx f v e) : viewIn [(t, n)] = some t.va := by
  simp only [viewIn, List.findSome?_cons, h]

theorem viewIn_other {t : Target} (n : Nat) (h : ∀ f v e, t.place ≠ .mx f v e) : viewIn [(t, n)] = none := by
  cases hp : t.place with
  | mx f v e => exact absurd hp (h f v e)
  | home pa => simp only [viewIn, List.findSome?_cons, List.findSome?_nil, hp]
  | window c x => simp only [viewIn, List.findSome?_cons, List.findSome?_nil, hp]
  | remote sp p => simp only [viewIn, List.findSome?_cons, List.findSome?_nil, hp]

/-! VAT.INIT (R355). -/

theorem vatCount_bad (n : Nat) : (decide (n = 0) || decide (vatMost < n)) = true ↔ n = 0 ∨ 2 ^ 24 < n := by
  rw [Bool.or_eq_true, decide_eq_true_eq, decide_eq_true_eq]
  rfl

section
variable {s : State} {a b d : BitVec 7} (hl : s.cur.light = false) (hn : named s.cur [a, b, d])
include hl hn

theorem exec_vatInit_misaligned (ha : (address s a 0 1).off.toNat % 16 ≠ 0) :
    exec (.vatInit b a d) s = trapAt 2 (address s a 0 1) s := by
  show execVatInit b a d s = _
  rw [execVatInit, heavyOnly_ok _ _ hl, limit_ok _ hn]
  simp only [dataAddr_eq]
  exact if_pos (bne_iff_ne.2 ha)

variable (ha : (address s a 0 1).off.toNat % 16 = 0)
include ha

theorem exec_vatInit_badCount (hc : (X s b).toNat = 0 ∨ 2 ^ 24 < (X s b).toNat) :
    exec (.vatInit b a d) s = .next (wrote s d 4 false) := by
  show execVatInit b a d s = _
  rw [execVatInit, heavyOnly_ok _ _ hl, limit_ok _ hn]
  simp only [dataAddr_eq, ha, bne_self_eq_false, Bool.false_eq_true, if_false]
  exact if_pos ((vatCount_bad _).2 hc)

/-- The elements of one page: an MX page faults, the thread's REDs and pins hold it, and else the zeros go home. -/
theorem exec_vatInit {t : Target} (hpos : 0 < (X s b).toNat) (hmost : (X s b).toNat ≤ 256)
    (hpage : (address s a 0 1).off.toNat % 4096 + 16 * (X s b).toNat ≤ 4096)
    (hx : s.xlate s.ic s.is { w := true } (address s a 0 1) = .ok t) (hu : s.unreachable t = false) :
    let run := (t, 16 * (X s b).toNat)
    exec (.vatInit b a d) s =
      (viewIn [run]).elim
        (if s.cur.redIn [run] then .next (s.park .reds)
        else if s.planPinned Config.clusters [run] then .next (s.park (.room .pin))
        else statusAway d 0 (s.writeFor s.ic s.is true t (leBytes 0 run.2)))
        (parkFault 3 .write · s) := by
  intro run
  have hcount := mt (vatCount_bad (X s b).toNat).1 (by omega)
  show execVatInit b a d s = _
  rw [execVatInit, heavyOnly_ok _ _ hl, limit_ok _ hn]
  simp only [dataAddr_eq, ha, bne_self_eq_false, Bool.false_eq_true, if_false]
  refine (if_neg hcount).trans ((accessBytes_page _ hpage ha hx hu).trans ?_)
  cases viewIn [run] <;> rfl

end

/-! VAT.CVT (R356). -/

section
variable {s : State} {a b d : BitVec 7} (hl : s.cur.light = false) (hn : named s.cur [a, b, d])
include hl hn

theorem exec_vatCvt_misaligned (ha : (address s a 0 1).off.toNat % 16 ≠ 0) :
    exec (.vatCvt b a d) s = trapAt 2 (address s a 0 1) s := by
  show execVatCvt b a d s = _
  rw [execVatCvt, heavyOnly_ok _ _ hl, limit_ok _ hn]
  simp only [dataAddr_eq, access_misaligned _ ha]

theorem exec_vatCvt {t : Target} (ha : (address s a 0 1).off.toNat % 16 = 0)
    (hx : s.xlate s.ic s.is { r := true } (address s a 0 1) = .ok t) (hu : s.unreachable t = false) :
    exec (.vatCvt b a d) s =
      if vatBad (X s b) then .next ((s.setRd d 0 false).addVxf { nv := true } false).advance
      else .next (parked s (.access (.vatRead t d.toNat (X s b))) (.accessReply s.ic s.is)) := by
  show execVatCvt b a d s = _
  rw [execVatCvt, heavyOnly_ok _ _ hl, limit_ok _ hn]
  simp only [dataAddr_eq, access_ok _ ha hx hu]
  rfl

end

/-! Seed slots (R357, R358) and the decode table (R359). -/

section
variable {s : State} {a d : BitVec 7} (hl : s.cur.light = false)
include hl

theorem exec_seedSet (n : BitVec 4) (hn : named s.cur [a]) : exec (.seedSet n a) s =
    .next (s.updCore s.ic fun c => c.setSeed (threadWriter s.cur.id) n.toNat (X s a)).advance := by
  show execSeedSet n a s = _
  rw [execSeedSet, heavyOnly_ok _ _ hl, limit_ok _ hn]
  rfl

theorem exec_seedGet (n : BitVec 4) (hn : named s.cur [d]) :
    exec (.seedGet n d) s = .next (wrote s d ((s.core s.ic).seedSeen s.is n.toNat).value false) := by
  show execSeedGet n d s = _
  rw [execSeedGet, heavyOnly_ok _ _ hl, limit_ok _ hn]
  rfl

theorem exec_seedGetG (n : BitVec 4) (hn : named s.cur [d]) :
    exec (.seedGetG n d) s = .next (wrote s d (((s.core s.ic).seedSeen s.is n.toNat).gen.setWidth 64) false) := by
  show execSeedGetG n d s = _
  rw [execSeedGetG, heavyOnly_ok _ _ hl, limit_ok _ hn]
  rfl

variable (hn : named s.cur [a, d])
include hn

theorem exec_fmtLd_misaligned (ha : (address s a 0 1).off.toNat % 4 ≠ 0) : exec (.fmtLd a d) s = trapAt 2 (address s a 0 1) s := by
  show execFmtLd a d s = _
  rw [execFmtLd, heavyOnly_ok _ _ hl, limit_ok _ hn]
  simp only [dataAddr_eq, accessBytes_misaligned _ ha]

/-- A table of one page. -/
theorem exec_fmtLd {t : Target} (ha : (address s a 0 1).off.toNat % 4 = 0) (hpage : (address s a 0 1).off.toNat % 4096 ≤ 3072)
    (hx : s.xlate s.ic s.is { r := true } (address s a 0 1) = .ok t) (hu : s.unreachable t = false) :
    exec (.fmtLd a d) s =
      if s.tableTaken (address s a 0 1).off then .next (wrote s d 1 false)
      else .next (parked s (.access (.tableRead [(t, 1024)] (address s a 0 1).off d.toNat)) (.accessReply s.ic s.is)) := by
  show execFmtLd a d s = _
  rw [execFmtLd, heavyOnly_ok _ _ hl, limit_ok _ hn]
  simp only [dataAddr_eq, accessBytes_page _ (Nat.add_le_add_right hpage 1024) ha hx hu]
  rfl

end

end Sys2Proof.Machine

namespace Sys2Proof.Proofs

open Machine Safety

/-- Settles O48: a job word is written by what its id names, a vat and the table are read or cleared as the runs of their page, and a seed
slot is one of the core. -/
theorem engineTools : Obligations.EngineTools := by
  unfold Obligations.EngineTools
  intro s a b d n k va id acquired
  refine ⟨fun hl => ?_, fun hl => ⟨fun hn hf =>
      ⟨fun hid hd => ?_, fun hid => exec_jobCancel_gone hl hn hf rfl hid, fun e j hid => ⟨fun hend hd => ?_, fun hgoing =>
        ⟨exec_jobPoll_going hl hn hf rfl hid hgoing, exec_jobWait_going hl hn hf rfl hid hgoing⟩, fun hother => ?_, fun hown => ?_⟩⟩,
    fun hn hd => ⟨exec_cpWp_unwritten hl hn hd rfl, fun x => exec_cpWp hl hn hd rfl⟩,
    fun hn => ⟨fun ha => ⟨exec_vatInit_misaligned hl hn ha, exec_vatCvt_misaligned hl hn ha⟩, fun ha =>
      ⟨exec_vatInit_badCount hl hn ha, fun t hpos hmost hpage hx hu => ?_, fun t hx hu => ?_⟩⟩,
    exec_seedSet hl n, fun hn => ⟨exec_seedGet hl n hn, exec_seedGetG hl n hn⟩,
    fun hn => ⟨exec_fmtLd_misaligned hl hn, fun t ha hpage hx hu => ?_⟩⟩⟩
  · simp only [List.forall_mem_cons, List.not_mem_nil, false_implies, implies_true, and_true]
    exact ⟨tensor_light hl 2 _ _, tensor_light hl 2 _ _, tensor_light hl 2 _ _, heavyOnly_light hl _ _, heavyOnly_light hl _ _,
      heavyOnly_light hl _ _, heavyOnly_light hl _ _, heavyOnly_light hl _ _, heavyOnly_light hl _ _, heavyOnly_light hl _ _⟩
  · have hpoll := exec_jobPoll hl hn hf rfl hd
    have hwait := exec_jobWait hl hn hf rfl hd (Cluster.over_gone hid)
    rw [State.acquireWord_gone hid] at hpoll hwait
    rw [Cluster.jobWord_gone hid] at hwait
    exact ⟨hpoll, hwait⟩
  · have hpoll := exec_jobPoll hl hn hf rfl hd
    have hwait := exec_jobWait hl hn hf rfl hd (Cluster.over_ended hid hend)
    rw [State.acquireWord_named hid, if_pos hend] at hpoll hwait
    rw [Cluster.jobWord_named hid] at hwait
    exact ⟨hpoll, hwait⟩
  · exact (exec_jobCancel hl hn hf rfl hid).trans (if_neg hother)
  · exact (exec_jobCancel hl hn hf rfl hid).trans (if_pos hown)
  · have hinit := exec_vatInit hl hn ha hpos hmost hpage hx hu
    refine ⟨fun ⟨f, v, e, hp⟩ => ?_, fun hp hreds hpin => ?_⟩
    · rw [hinit, viewIn_mx _ hp]
      rfl
    · rw [hinit, viewIn_other _ hp]
      simp only [Option.elim_none, hreds, hpin, Bool.false_eq_true, if_false]
      rfl
  · have hcvt := exec_vatCvt hl hn ha hx hu
    exact ⟨fun hbad => hcvt.trans (if_pos hbad), fun hok => hcvt.trans (if_neg (Bool.eq_false_iff.1 hok))⟩
  · have hld := exec_fmtLd hl hn ha hpage hx hu
    exact ⟨fun htaken => hld.trans (if_pos htaken), fun hfree => hld.trans (if_neg (Bool.eq_false_iff.1 hfree))⟩

end Sys2Proof.Proofs
end

section
/-! The control registers and the features (spec/19 R389 to R391, R395). -/

namespace Sys2Proof.Machine

open Safety

theorem crReadOnly_iff {n : Nat} : crReadOnly n = true ↔ (5 ≤ n ∧ n ≤ 8) ∨ (12 ≤ n ∧ n ≤ 16) ∨ 38 ≤ n := by
  simp [crReadOnly, or_assoc]

theorem crLight_iff {n : Nat} : crLight n = true ↔ (6 ≤ n ∧ n ≤ 8) ∨ n = 13 ∨ n = 14 := by
  simp [crLight, or_assoc]

/-- A register from 32 on is read and written in supervisor mode only. -/
theorem crPrivileged_iff {t : Thread} {n : Nat} : (decide (32 ≤ n) && !t.supervisor) = true ↔ 32 ≤ n ∧ t.mode = .user := by
  cases h : t.mode <;> simp [Thread.supervisor, h]

theorem fresh_single (s : State) (a : BitVec 7) : fresh s [a] = (s.cur.opnd a).fresh := Bool.or_false _

/-! CRR. -/

section
variable {s : State} {c d : BitVec 7}

theorem exec_crr_illegal (h : crOk c = false ∨ (s.cur.light = true ∧ ¬ crLight c.toNat = true)) :
    exec (.crr c d) s = illegal (wordCrr c d) s :=
  if_pos (by simpa using h)

variable (hok : crOk c = true) (hlight : s.cur.light = false ∨ crLight c.toNat = true)
include hok hlight

theorem crr_readable : ¬ (!crOk c || (s.cur.light && !crLight c.toNat)) = true := by
  rcases hlight with h | h <;> simp [hok, h]

theorem exec_crr_privilege (h : 32 ≤ c.toNat ∧ s.cur.mode = .user) : exec (.crr c d) s = privilege (wordCrr c d) s :=
  (if_neg (crr_readable hok hlight)).trans (if_pos (crPrivileged_iff.2 h))

theorem exec_crr (h : ¬ (32 ≤ c.toNat ∧ s.cur.mode = .user)) (hn : named s.cur [d]) :
    exec (.crr c d) s = .next (wrote s d (s.crRead c.toNat) (s.cur.crFresh c.toNat)) :=
  (if_neg (crr_readable hok hlight)).trans ((if_neg (mt crPrivileged_iff.1 h)).trans (limit_ok _ hn))

end

/-! CRW, CRS and CRC. -/

section
variable {s : State} {w : InstrWord} {f : Word → Word → Word} {keeps : Bool} {c a d : BitVec 7}

theorem crChange_illegal (h : s.cur.light = true ∨ crOk c = false) : crChange w f keeps c a d s = illegal w s := by
  cases hl : s.cur.light with
  | true => exact heavyOnly_light hl w _
  | false =>
    have hc : crOk c = false := h.resolve_left (by simp [hl])
    rw [crChange, heavyOnly_ok _ _ hl]
    exact if_pos (by simp [hc])

variable (hl : s.cur.light = false) (hok : crOk c = true)
include hl hok

theorem crChange_privilege (h : (32 ≤ c.toNat ∧ s.cur.mode = .user) ∨ crReadOnly c.toNat = true) :
    crChange w f keeps c a d s = privilege w s := by
  rw [crChange, heavyOnly_ok _ _ hl]
  exact (if_neg (by simp [hok])).trans (if_pos (Bool.or_eq_true_iff.2 (h.imp_left crPrivileged_iff.2)))

theorem crChange_writes (hp : ¬ (32 ≤ c.toNat ∧ s.cur.mode = .user)) (hr : ¬ crReadOnly c.toNat = true) (hn : named s.cur [a, d]) :
    crChange w f keeps c a d s = .next ((s.setRd d (s.crRead c.toNat) (s.cur.crFresh c.toNat)).updCur fun t =>
      (t.crWrite c.toNat (f (s.crRead c.toNat) (X s a))).setCrFresh c.toNat
        ((s.cur.opnd a).fresh || (keeps && s.cur.crFresh c.toNat))).advance := by
  rw [crChange, heavyOnly_ok _ _ hl]
  have hwrite : ¬ ((decide (32 ≤ c.toNat) && !s.cur.supervisor) || crReadOnly c.toNat) = true := by
    rw [Bool.or_eq_true_iff, crPrivileged_iff]
    exact not_or.2 ⟨hp, hr⟩
  exact (if_neg (by simp [hok])).trans ((if_neg hwrite).trans (limit_ok _ hn))

end

section
variable (c a d : BitVec 7) (s : State)

theorem exec_crw : exec (.crw c a d) s = crChange (wordCrw c a d) (fun _ x => x) false c a d s := rfl

theorem exec_crs : exec (.crs c a d) s = crChange (wordCrs c a d) (fun o x => o ||| x) true c a d s := rfl

theorem exec_crc : exec (.crc c a d) s = crChange (wordCrc c a d) (fun o x => o &&& ~~~x) true c a d s := rfl

end

/-! FEAT. -/

theorem feature_ok {s : State} {a d : BitVec 7} (w : InstrWord) (v : State → Nat → Word) (hl : s.cur.light = false)
    (hn : named s.cur [a, d]) : feature w v a d s = .next (wrote s d (v s ((X s a).toNat % 2)) (s.cur.opnd a).fresh) := by
  rw [feature, heavyOnly_ok _ _ hl, limit_ok _ hn]
  rfl

theorem exec_feat {s : State} {a d : BitVec 7} (hl : s.cur.light = false) (hn : named s.cur [a, d]) : exec (.feat a d) s =
    .next (wrote s d (if (X s a).toNat % 2 = 0 then s.hub.accept0 else s.hub.accept1) (s.cur.opnd a).fresh) :=
  feature_ok (wordFeat a d) (fun s i => if i = 0 then s.hub.accept0 else s.hub.accept1) hl hn

theorem exec_featO {s : State} {a d : BitVec 7} (hl : s.cur.light = false) (hn : named s.cur [a, d]) : exec (.featO a d) s =
    .next (wrote s d (if (X s a).toNat % 2 = 0 then 0xFFF else 0) (s.cur.opnd a).fresh) :=
  feature_ok (wordFeatO a d) (fun _ i => offered i) hl hn

end Sys2Proof.Machine

namespace Sys2Proof.Proofs

open Machine Safety

/-- The three instructions that change a control register differ in the new value and in whether it depends on the old one. -/
theorem crChange_outcomes {i : Instr} {w : InstrWord} {f : Word → Word → Word} {keeps : Bool} {c a d : BitVec 7} {s : State} {new : Word}
    (hi : exec i s = crChange w f keeps c a d s) (hnew : f (s.crRead c.toNat) (X s a) = new) :
    (s.cur.light = true ∨ crOk c = false → exec i s = illegal w s) ∧
    (s.cur.light = false → crOk c = true →
      ((32 ≤ c.toNat ∧ s.cur.mode = .user) ∨
          (5 ≤ c.toNat ∧ c.toNat ≤ 8) ∨ (12 ≤ c.toNat ∧ c.toNat ≤ 16) ∨ 38 ≤ c.toNat →
        exec i s = privilege w s) ∧
      (¬ (32 ≤ c.toNat ∧ s.cur.mode = .user) →
        ¬ ((5 ≤ c.toNat ∧ c.toNat ≤ 8) ∨ (12 ≤ c.toNat ∧ c.toNat ≤ 16) ∨ 38 ≤ c.toNat) → named s.cur [a, d] →
        exec i s = .next ((s.setRd d (s.crRead c.toNat) (s.cur.crFresh c.toNat)).updCur fun t =>
          (t.crWrite c.toNat new).setCrFresh c.toNat
            (fresh s [a] || (keeps && s.cur.crFresh c.toNat))).advance)) := by
  subst hnew
  rw [hi, ← crReadOnly_iff, fresh_single]
  exact ⟨crChange_illegal, fun hl hok => ⟨crChange_privilege hl hok, crChange_writes hl hok⟩⟩

/-- Settles O43: CRR and the three changes are refused by number, mode or thread, or read and write the register; FEAT reads a word of a
set. -/
theorem controlRegisters : Obligations.ControlRegisters := by
  unfold Obligations.ControlRegisters
  intro s c a d n old stops readOnly changes
  refine ⟨fun h => exec_crr_illegal (by rwa [crLight_iff]), fun hok h => ?_, crChange_outcomes (exec_crw c a d s) rfl,
    crChange_outcomes (exec_crs c a d s) rfl, crChange_outcomes (exec_crc c a d s) rfl,
    fun hl => ⟨heavyOnly_light hl _ _, heavyOnly_light hl _ _⟩, fun hl hn => ?_⟩
  · rw [← crLight_iff] at h
    refine ⟨fun hnum hmode => exec_crr_privilege hok h ⟨hnum, hmode⟩, fun hmay hn => exec_crr hok h ?_ hn⟩
    rintro ⟨hnum, hmode⟩
    rcases hmay with hlow | hsuper
    · exact Nat.not_le.2 hlow hnum
    · exact absurd (hmode.symm.trans hsuper) (by decide)
  · rw [fresh_single]
    exact ⟨exec_feat hl hn, exec_featO hl hn⟩

end Sys2Proof.Proofs
end

section
/-! The kernel's levers (spec/19 R396 to R399). -/

namespace Sys2Proof.Machine

open Safety

/-! KILL, PREEMPT and TLB.INV are the kernel's (R397, R398). -/

section
variable {s : State} {a d : BitVec 7} (hl : s.cur.light = false) (hm : s.cur.mode = .supervisor) (hn : named s.cur [a, d])
  (hr : s.cur.reds = []) (hd : s.dirtyPinned s.ic = false)
include hl hm hn hr hd

theorem exec_kill :
    let u := s.releaseCore s.ic
    exec (.kill a d) s =
      if u.liveInst (u.named a) = true then .next ((wrote u d 0 false).kill (u.named a)) else .next (wrote u d 4 false) := by
  show execKill a d s = _
  rw [execKill, kernelOnly_supervisor _ _ hl hm, limit_ok _ hn, released_ok _ hr hd]
  rfl

theorem exec_preempt :
    let u := s.releaseCore s.ic
    exec (.preempt a d) s =
      if u.preemptible (u.named a) = true then .next ((wrote u d 0 false).preempt (u.named a)) else .next (wrote u d 4 false) := by
  show execPreempt a d s = _
  rw [execPreempt, kernelOnly_supervisor _ _ hl hm, limit_ok _ hn, released_ok _ hr hd]
  rfl

end

/-- The state without what a TLB.INV selects: the entries are gone, what was located is found again, and the WAITCs issue again. -/
def State.invalidated (s : State) (sel : Dropped) : State :=
  (s.dropEntries sel).relocate.wakeAll fun _ w => isCounter (fun t => sel.covers s t) w

section
variable {s : State} {a b : BitVec 7} (hl : s.cur.light = false) (hm : s.cur.mode = .supervisor) (hn : named s.cur [a, b])
  (hr : s.cur.reds = []) (hd : s.dirtyPinned s.ic = false)
include hl hm hn hr hd

/-- TLB.INV is over at once where no access under way went through what it drops, and waits for those that did. -/
theorem exec_tlbInv :
    let u := s.releaseCore s.ic
    let sel := Dropped.of u (u.cur.opnd b).val (u.cur.opnd a).val
    let accesses := u.pendingThrough fun t => sel.covers u t
    let packets := u.packetsThrough fun t => sel.covers u t
    exec (.tlbInv b a) s = if accesses = [] ∧ packets = [] then .next (u.invalidated sel).advance
      else .next ((u.invalidated sel).park (.invalidate accesses packets)) := by
  show execTlbInv b a s = _
  rw [execTlbInv, kernelOnly_supervisor _ _ hl hm, limit_ok _ hn, released_ok _ hr hd]
  simp only [Bool.and_eq_true, decide_eq_true_eq]
  rfl

end

/-! CASTLE.HOLD and CASTLE.FREE (R396). -/

section
variable {s : State} {d : BitVec 7} (hl : s.cur.light = false)
include hl

theorem exec_castleFree : exec .castleFree s = .next ((s.updCur fun t => { t with hold := none }).pairMoved s.ic).advance := by
  show execCastleFree s = _
  rw [execCastleFree, heavyOnly_ok _ _ hl, done]

variable (hn : named s.cur [d])
include hn

theorem exec_castleHold_again (h : s.cur.hold.isSome = true) : exec (.castleHold d) s = .next (wrote s d 1 false) := by
  show execCastleHold d s = _
  rw [execCastleHold, heavyOnly_ok _ _ hl, limit_ok _ hn]
  exact if_pos h

section
variable (h : s.cur.hold = none)
include h

/-- A first hold is refused where the pair does not castle, waits for a swap that is due, or is made. -/
theorem exec_castleHold : exec (.castleHold d) s =
    if s.castling s.ic = 0 ∨ s.pairDrained (pairOf s.ic) = true then .next (wrote s d 2 false)
    else if (s.pair (pairOf s.ic)).phase ≠ .idle then .next (s.park .swap)
    else .next (wrote (s.updCur fun t => { t with hold := some s.now }) d 0 false) := by
  show execCastleHold d s = _
  rw [execCastleHold, heavyOnly_ok _ _ hl, limit_ok _ hn]
  simp only [h, Option.isSome_none, Bool.false_eq_true, if_false, State.swapDue, bne_iff_ne, Bool.or_eq_true, decide_eq_true_eq]
  rfl

end

/-! IDLE (R399). -/

theorem exec_idle_triggered (h : (s.cur.monitors.any fun m => m.triggered) = true) :
    exec (.idle d) s = .next (wrote (s.updCur Thread.clearTriggered) d 1 false) := by
  show execIdle d s = _
  rw [execIdle, heavyOnly_ok _ _ hl, limit_ok _ hn]
  exact if_pos h

variable (h : (s.cur.monitors.any fun m => m.triggered) = false)
include h

theorem exec_idle_message {m : Message} (hmsg : (s.core s.ic).oldest s.cur.inst s.is = some m) :
    exec (.idle d) s = .next (wrote (s.updCur Thread.clearTriggered) d 3 false) := by
  show execIdle d s = _
  rw [execIdle, heavyOnly_ok _ _ hl, limit_ok _ hn]
  exact (if_neg (by simp [h])).trans (if_pos (by simp [hmsg]))

theorem exec_idle_parks (hmsg : (s.core s.ic).oldest s.cur.inst s.is = none) :
    exec (.idle d) s = .next (s.park (.idle (s.cur.rename d.toNat))) := by
  show execIdle d s = _
  rw [execIdle, heavyOnly_ok _ _ hl, limit_ok _ hn]
  exact (if_neg (by simp [h])).trans (if_neg (by simp [hmsg]))

end

end Sys2Proof.Machine

namespace Sys2Proof.Proofs

open Machine Safety

/-- Settles O44: the kernel's levers release first and go by what they find, a hold goes by the pair's swap, and IDLE by what has come for
its thread. -/
theorem kernelLevers : Obligations.KernelLevers := by
  unfold Obligations.KernelLevers
  intro s a b d hl pair u inst clears
  refine ⟨fun hm => ?_, fun hm hr hd => ⟨fun hn => ?_, fun hn => ?_⟩,
    fun hn => ⟨exec_castleHold_again hl hn, fun h => ?_, exec_idle_triggered hl hn, fun h =>
      ⟨fun ⟨_, hmsg⟩ => exec_idle_message hl hn h hmsg, exec_idle_parks hl hn h⟩⟩, exec_castleFree hl⟩
  · simp only [List.forall_mem_cons, List.not_mem_nil, false_implies, implies_true, and_true]
    exact ⟨kernelOnly_user _ _ hl hm, kernelOnly_user _ _ hl hm, kernelOnly_user _ _ hl hm⟩
  · have hkill := exec_kill hl hm hn hr hd
    have hpreempt := exec_preempt hl hm hn hr hd
    exact ⟨fun h => hkill.trans (if_pos h), fun h => hkill.trans (if_neg (Bool.eq_false_iff.1 h)),
      fun h => hpreempt.trans (if_pos h), fun h => hpreempt.trans (if_neg (Bool.eq_false_iff.1 h))⟩
  · have hinv := exec_tlbInv hl hm hn hr hd
    exact ⟨fun h => hinv.trans (if_pos h), fun h => hinv.trans (if_neg h)⟩
  · have hhold := exec_castleHold hl hn h
    refine ⟨fun hnone => hhold.trans (if_pos hnone), fun hcastles hopen => ?_⟩
    have hfirst := hhold.trans (if_neg (not_or.2 ⟨hcastles, Bool.eq_false_iff.1 hopen⟩))
    exact ⟨fun hdue => hfirst.trans (if_pos hdue), fun hidle => hfirst.trans (if_neg (not_not.2 hidle))⟩

end Sys2Proof.Proofs
end

section
/-! The link instructions (spec/22 R410, spec/23 R423, R425 to R434). -/

namespace Sys2Proof.Machine

open Safety

section
variable {s : State} (w : InstrWord) (k : State → Res)

theorem linkGroup_ok (hl : s.cur.light = false) (hf : s.accepted 8 = true) : linkGroup w k s = k s := if_neg (by simp [hl, hf])

theorem linkGroup_illegal (h : s.cur.light = true ∨ s.accepted 8 = false) : linkGroup w k s = illegal w s := if_pos (by simpa using h)

end

/-! GRP.PUT (R426). -/

/-- GRP.PUT refuses a selector: it is invalid, its entry takes no collectives, or its rank is too high or has contributed. -/
def State.refusesPut (s : State) (sel : Word) : Prop :=
  selBad sel = true ∨ geCollects (s.group (selGroup sel)) = false ∨ geNloc (s.group (selGroup sel)) ≤ selRank sel ∨
    s.contributed (selGroup sel) (selStep sel) (selRank sel) = true

theorem State.refusesPut_iff {s : State} {sel : Word} : (selBad sel || !geCollects (s.group (selGroup sel)) ||
    decide (geNloc (s.group (selGroup sel)) ≤ selRank sel) || s.contributed (selGroup sel) (selStep sel) (selRank sel)) = true ↔
    s.refusesPut sel := by
  simp [State.refusesPut, or_assoc]

section
variable {s : State} {a b d : BitVec 7} (hl : s.cur.light = false) (hf : s.accepted 8 = true) (hn : named s.cur [a, b, d])
include hl hf hn

theorem exec_grpPut_refused (h : s.refusesPut (X s a)) : exec (.grpPut b a d) s = .next (completed (s.setRd d 4 false)) := by
  show execGrpPut b a d s = _
  rw [execGrpPut, linkGroup_ok _ _ hl hf, limit_ok _ hn]
  exact if_pos (State.refusesPut_iff.2 h)

variable (h : ¬ s.refusesPut (X s a))
include h

theorem exec_grpPut_waits (hs : 4 ≤ s.started (selGroup (X s a))) :
    exec (.grpPut b a d) s = .next (s.park (.room (.step (selGroup (X s a))))) := by
  show execGrpPut b a d s = _
  rw [execGrpPut, linkGroup_ok _ _ hl hf, limit_ok _ hn]
  exact (if_neg (mt State.refusesPut_iff.1 h)).trans (if_pos hs)

theorem exec_grpPut (hs : s.started (selGroup (X s a)) < 4) (hr : s.cur.reds = []) (hd : s.dirtyPinned s.ic = false) :
    let sel := X s a
    let g := selGroup sel
    let u := s.releaseCore s.ic
    let step := (u.findStep g (selStep sel) true).getD (newStep g (selStep sel) true 0 1 1)
    let value := BitVec.ofNat 32 ((X s b).toNat % 2 ^ geBits (s.group g))
    exec (.grpPut b a d) s = .next (completed
      ((u.setRd d 0 false).contribute step ⟨selRank sel, 0, [value], u.ic, u.is, u.cur.inst, sel.getLsbD 63⟩)) := by
  show execGrpPut b a d s = _
  rw [execGrpPut, linkGroup_ok _ _ hl hf, limit_ok _ hn]
  exact (if_neg (mt State.refusesPut_iff.1 h)).trans ((if_neg (Nat.not_le.2 hs)).trans (released_ok _ hr hd))

end

/-! GRP.GET (R427, R428). -/

section
variable {s : State} {a d : BitVec 7} (hl : s.cur.light = false) (hf : s.accepted 8 = true) (ha : s.cur.rename a.toNat < s.cur.bound)
  (hroom : ∀ i < 2, s.cur.rename (d.toNat + i) < s.cur.bound)
include hl hf ha hroom

theorem exec_grpGet_refused (h : selBad (X s a) = true ∨ geCollects (s.group (selGroup (X s a))) = false) :
    exec (.grpGet a d) s =
      .next (completed (s.draw.2.updCur fun t => t.setRegs d.toNat false [Config.freeValue s.draw.1, 4])) := by
  show execGrpGet a d s = _
  rw [execGrpGet, linkGroup_ok _ _ hl hf, limitNumbers_cons_span _ ha hroom]
  exact if_pos (by simpa [X] using h)

variable (h : ¬ (selBad (X s a) = true ∨ geCollects (s.group (selGroup (X s a))) = false))
include h

theorem exec_grpGet_answered {v w : Word} (hans : s.getAnswer (selGroup (X s a)) (selStep (X s a)) = some (v, w))
    (hd : s.dirtyPinned s.ic = false) :
    exec (.grpGet a d) s = .next (completed ((s.acquireGet s.ic w).updCur fun t => t.setRegs d.toNat false [v, w])) := by
  show execGrpGet a d s = _
  rw [execGrpGet, linkGroup_ok _ _ hl hf, limitNumbers_cons_span _ ha hroom]
  refine (if_neg (by simpa [X] using h)).trans ?_
  rw [X] at hans
  simp only [hans, acquiring_ok _ hd, doneLatc_eq]

theorem exec_grpGet_waits (hans : s.getAnswer (selGroup (X s a)) (selStep (X s a)) = none) :
    exec (.grpGet a d) s = .next (s.park (.step (selGroup (X s a)) (selStep (X s a)) d.toNat)) := by
  show execGrpGet a d s = _
  rw [execGrpGet, linkGroup_ok _ _ hl hf, limitNumbers_cons_span _ ha hroom]
  refine (if_neg (by simpa [X] using h)).trans ?_
  rw [X] at hans
  simp only [hans, park, X]

end

/-! MCST (R430). -/

/-- An MCST's request joins those of its group, its root is asked, and the thread waits for the stamp. -/
def State.asksStamp (u : State) (g : Nat) (o v : Word) (d : BitVec 7) : State :=
  let q := u.updHub fun h => { h with requests := h.requests ++ [⟨g, o, v, some (u.ic, u.is), u.cur.inst, u.cur.id⟩] }
  let w := if geRoot (q.group g) then q.emitOnce (.mcstStamping g none) else q.record (.multicastOut g none o v)
  w.park (.stamp g (w.cur.rename d.toNat) none)

section
variable {s : State} {a b d : BitVec 7} (hl : s.cur.light = false) (hf : s.accepted 8 = true)
  (hb : s.cur.rename b.toNat < s.cur.bound) (hrd : s.cur.rename d.toNat < s.cur.bound)
  (ha : ∀ i < 2, s.cur.rename (a.toNat + i) < s.cur.bound) {o : Word} {g : Nat}
  (ho : s.cur.reg (s.cur.rename (a.toNat + 0)) = o) (hg : (s.cur.reg (s.cur.rename (a.toNat + 1))).toNat = g)
include hl hf hb hrd ha ho hg

/-- MCST's cases, in the order of its tests. -/
theorem exec_mcst : exec (.mcst b a d) s =
    if (decide (4096 ≤ g) || !geCasts (s.group g)) = true then .next (completed (s.setRd d (BitVec.allOnes 64) false))
    else if (o.toNat % 8 != 0) = true then trap 2 o s
    else if 2 ^ 48 ≤ o.toNat then trap 3 o s
    else released (fun u => .next (u.asksStamp g o (X s b) d)) s := by
  subst ho hg
  show execMcst b a d s = _
  rw [execMcst, linkGroup_ok _ _ hl hf,
    limitNumbers_ok _ (List.forall_mem_cons.2 ⟨hb, List.forall_mem_cons.2 ⟨hrd, span_within ha⟩⟩)]
  rfl

theorem exec_mcst_refused (h : 4096 ≤ g ∨ geCasts (s.group g) = false) :
    exec (.mcst b a d) s = .next (completed (s.setRd d (BitVec.allOnes 64) false)) :=
  (exec_mcst hl hf hb hrd ha ho hg).trans (if_pos (by simpa using h))

variable (hlow : g < 4096) (hcasts : geCasts (s.group g) = true)
include hlow hcasts

theorem exec_mcst_misaligned (h : o.toNat % 8 ≠ 0) : exec (.mcst b a d) s = trap 2 o s :=
  (exec_mcst hl hf hb hrd ha ho hg).trans ((if_neg (by simp [hlow, hcasts])).trans (if_pos (bne_iff_ne.2 h)))

variable (h : o.toNat % 8 = 0)
include h

theorem exec_mcst_outside (hout : 2 ^ 48 ≤ o.toNat) : exec (.mcst b a d) s = trap 3 o s :=
  (exec_mcst hl hf hb hrd ha ho hg).trans ((if_neg (by simp [hlow, hcasts])).trans ((if_neg (by simp [h])).trans (if_pos hout)))

theorem exec_mcst_asks (hin : o.toNat < 2 ^ 48) (hr : s.cur.reds = []) (hd : s.dirtyPinned s.ic = false) :
    exec (.mcst b a d) s = .next ((s.releaseCore s.ic).asksStamp g o (X s b) d) :=
  (exec_mcst hl hf hb hrd ha ho hg).trans ((if_neg (by simp [hlow, hcasts])).trans
    ((if_neg (by simp [h])).trans ((if_neg (Nat.not_le.2 hin)).trans (released_ok _ hr hd))))

end

/-! SEQ.RD (R431). -/

section
variable {s : State} {a d : BitVec 7} (hl : s.cur.light = false) (hf : s.accepted 8 = true) (hn : named s.cur [a, d])
include hl hf hn

theorem exec_seqRd_refused (h : geCasts (s.group ((X s a).toNat % 4096)) = false ∨ geMember (s.group ((X s a).toNat % 4096)) = false) :
    exec (.seqRd a d) s = .next (wrote s d (BitVec.allOnes 64) false) := by
  show execSeqRd a d s = _
  rw [execSeqRd, linkGroup_ok _ _ hl hf, limit_ok _ hn]
  exact if_pos (by simpa [X] using h)

theorem exec_seqRd (hcasts : geCasts (s.group ((X s a).toNat % 4096)) = true)
    (hmember : geMember (s.group ((X s a).toNat % 4096)) = true) (hd : s.dirtyPinned s.ic = false) :
    exec (.seqRd a d) s =
      .next (wrote (s.applySig s.ic allOnes512) d ((geApplied (s.group ((X s a).toNat % 4096))).setWidth 64) false) := by
  show execSeqRd a d s = _
  rw [execSeqRd, linkGroup_ok _ _ hl hf, limit_ok _ hn]
  rw [X] at hcasts hmember
  exact (if_neg (by simp [hcasts, hmember])).trans (acquiring_ok _ hd)

end

/-! LNK.SEND (R432). -/

theorem State.findStep_some {s : State} {g : Nat} {n : BitVec 32} {scalar : Bool} {x : StepState} (h : s.findStep g n scalar = some x) :
    x.group = g ∧ x.stepNo = n := by
  have hx := List.find?_some h
  simp only [Bool.and_eq_true, decide_eq_true_eq] at hx
  exact hx.1

/-- The descriptor's step that LNK.SEND joins. -/
def State.sentStep (u : State) (h0 h1 : Nat) : StepState :=
  (u.findStep (fld h0 11 0) (BitVec.ofNat 32 (fld h0 63 32)) false).getD
    (newStep (fld h0 11 0) (BitVec.ofNat 32 (fld h0 63 32)) false (fld h0 13 12) (fld h1 25 10) 0)

theorem State.group_sentStep (u : State) (h0 h1 : Nat) :
    (u.sentStep h0 h1).group = fld h0 11 0 ∧ (u.sentStep h0 h1).stepNo = BitVec.ofNat 32 (fld h0 63 32) := by
  unfold State.sentStep
  cases h : u.findStep (fld h0 11 0) (BitVec.ofNat 32 (fld h0 63 32)) false with
  | none => exact ⟨rfl, rfl⟩
  | some x => exact State.findStep_some h

/-- The contribution that LNK.SEND makes of its header and of the payload in registers a to a + 7. -/
def State.sentPart (u : State) (e : GroupEntry) (a : BitVec 7) (h0 h1 : Nat) : Contribution :=
  ⟨fld h0 23 14, fld h1 63 32,
    (unpackLanes (geBits e) (packLanes 64 ((u.cur.regsFrom a.toNat 8).map (·.toNat))) (fld h1 31 26)).map (BitVec.ofNat 32), u.ic, 63,
    u.cur.inst, false⟩

theorem State.length_sentPart (u : State) (e : GroupEntry) (a : BitVec 7) (h0 h1 : Nat) :
    (u.sentPart e a h0 h1).elems.length = fld h1 31 26 :=
  (List.length_map ..).trans (length_unpackLanes ..)

theorem lnkSend_within {t : Thread} {a b d : BitVec 7} (hrd : t.rename d.toNat < t.bound) (hb : ∀ i < 2, t.rename (b.toNat + i) < t.bound)
    (ha : ∀ i < 8, t.rename (a.toNat + i) < t.bound) : ∀ n ∈ d.toNat :: span b.toNat 2 ++ span a.toNat 8, t.rename n < t.bound :=
  List.forall_mem_append.2 ⟨List.forall_mem_cons.2 ⟨hrd, span_within hb⟩, span_within ha⟩

section
variable {s : State} {a b d : BitVec 7} (hl : s.cur.light = false) (hf : s.accepted 8 = true)
  (hrd : s.cur.rename d.toNat < s.cur.bound) (hb : ∀ i < 2, s.cur.rename (b.toNat + i) < s.cur.bound)
  (ha : ∀ i < 8, s.cur.rename (a.toNat + i) < s.cur.bound)
include hl hf hrd hb ha

theorem exec_lnkSend_traps (h : s.is ≠ 63) : exec (.lnkSend b a d) s = trap 6 0 s := by
  show execLnkSend b a d s = _
  rw [execLnkSend, linkGroup_ok _ _ hl hf, limitNumbers_ok _ (lnkSend_within hrd hb ha)]
  exact if_pos (bne_iff_ne.2 h)

variable (h63 : s.is = 63) {h0 h1 : Nat} (hh0 : (s.cur.reg (s.cur.rename (b.toNat + 0))).toNat = h0)
  (hh1 : (s.cur.reg (s.cur.rename (b.toNat + 1))).toNat = h1)
include h63 hh0 hh1

/-- LNK.SEND's cases for the link thread, in the order of its tests. -/
theorem exec_lnkSend : exec (.lnkSend b a d) s =
    if s.sendRefused h0 h1 = true then .next (completed (s.setRd d 4 false))
    else if (fld h0 31 24 != geTopo (s.group (fld h0 11 0))) = true then .next (completed (s.setRd d 3 false))
    else if s.buffersHeld (fld h0 11 0) (BitVec.ofNat 32 (fld h0 63 32)) (fld h1 63 32 / fld h1 25 10) = true then
      .next (s.park (.room (.buffer (fld h0 11 0))))
    else released (fun u => .next (completed ((u.setRd d 0 false).contribute (u.sentStep h0 h1)
      (u.sentPart (s.group (fld h0 11 0)) a h0 h1)))) s := by
  subst hh0 hh1
  show execLnkSend b a d s = _
  rw [execLnkSend, linkGroup_ok _ _ hl hf, limitNumbers_ok _ (lnkSend_within hrd hb ha)]
  exact if_neg (by simp [h63])

end

/-! LNK.RECV (R429, R433). -/

section
variable {s : State} {d : BitVec 7} (hl : s.cur.light = false) (hf : s.accepted 8 = true)
  (hroom : ∀ i < 10, s.cur.rename (d.toNat + i) < s.cur.bound)
include hl hf hroom

theorem exec_lnkRecv_traps (h : s.is ≠ 63) : exec (.lnkRecv d) s = trap 6 0 s := by
  show execLnkRecv d s = _
  rw [execLnkRecv, linkGroup_ok _ _ hl hf, limitNumbers_span _ hroom]
  exact if_pos (bne_iff_ne.2 h)

variable (h : s.is = 63)
include h

theorem exec_lnkRecv_empty (hres : (s.core s.ic).results = []) : exec (.lnkRecv d) s = .next (s.park (.element 121)) := by
  show execLnkRecv d s = _
  rw [execLnkRecv, linkGroup_ok _ _ hl hf, limitNumbers_span _ hroom]
  simp only [h, hres, park, bne_self_eq_false, Bool.false_eq_true, if_false]

theorem exec_lnkRecv {p : CombinePacket} {r : List CombinePacket} (hres : (s.core s.ic).results = p :: r) :
    let x := (s.updCore s.ic fun k => { k with results := r }).blurPacket p
    exec (.lnkRecv d) s = .next (completed (x.2.updCur fun t => t.setRegs d.toNat false (recvRegs (s.group p.group) x.1))) := by
  show execLnkRecv d s = _
  rw [execLnkRecv, linkGroup_ok _ _ hl hf, limitNumbers_span _ hroom]
  simp only [h, hres, doneLatc_eq, bne_self_eq_false, Bool.false_eq_true, if_false]

end

theorem State.blurPacket_plain {s : State} {p : CombinePacket} (h : s.mixedUse p.group p.stepNo false = false) :
    s.blurPacket p = (p, s) :=
  if_neg (by simp [h])

end Sys2Proof.Machine

namespace Sys2Proof.Proofs

open Machine Safety

/-- What LNK.SEND of the link thread comes to, with the header's fields written out (R432). -/
theorem lnkSend_outcomes {s : State} {a b d : BitVec 7} (hl : s.cur.light = false) (hf : s.accepted 8 = true)
    (hrd : s.cur.rename d.toNat < s.cur.bound) (hb : ∀ i < 2, s.cur.rename (b.toNat + i) < s.cur.bound)
    (ha : ∀ i < 8, s.cur.rename (a.toNat + i) < s.cur.bound) (h63 : s.is = 63) {h0 h1 : Nat}
    (hh0 : (s.cur.reg (s.cur.rename (b.toNat + 0))).toNat = h0) (hh1 : (s.cur.reg (s.cur.rename (b.toNat + 1))).toNat = h1) :
    let g := h0 % 4096
    let n := BitVec.ofNat 32 (h0 / 2 ^ 32)
    let held := s.buffersHeld g n (h1 / 2 ^ 32 % 2 ^ 32 / (h1 / 2 ^ 10 % 2 ^ 16))
    (s.sendRefused h0 h1 = true → exec (.lnkSend b a d) s = .next (completed (s.setRd d 4 false))) ∧
    (s.sendRefused h0 h1 = false →
      (h0 / 2 ^ 24 % 256 ≠ geTopo (s.group g) → exec (.lnkSend b a d) s = .next (completed (s.setRd d 3 false))) ∧
      (h0 / 2 ^ 24 % 256 = geTopo (s.group g) →
        (held = true → exec (.lnkSend b a d) s = .next (s.park (.room (.buffer g)))) ∧
        (held = false → s.cur.reds = [] → s.dirtyPinned s.ic = false →
          ∃ (p : Contribution) (x : StepState), p.rank = h0 / 2 ^ 14 % 2 ^ 10 ∧ p.offset = h1 / 2 ^ 32 % 2 ^ 32 ∧
            p.elems.length = h1 / 2 ^ 26 % 64 ∧ x.group = g ∧ x.stepNo = n ∧
            exec (.lnkSend b a d) s = .next (completed (((s.releaseCore s.ic).setRd d 0 false).contribute x p))))) := by
  intro g n held
  have hgroup : fld h0 11 0 = g := rfl
  have htopo : fld h0 31 24 = h0 / 2 ^ 24 % 256 := fld_eq ..
  have hstep : BitVec.ofNat 32 (fld h0 63 32) = n := by rw [fld_eq]; exact BitVec.eq_of_toNat_eq (by simp [n])
  have hchunk : fld h1 63 32 / fld h1 25 10 = h1 / 2 ^ 32 % 2 ^ 32 / (h1 / 2 ^ 10 % 2 ^ 16) := by rw [fld_eq, fld_eq]
  have hsend := exec_lnkSend hl hf hrd hb ha h63 hh0 hh1
  rw [hgroup, htopo, hstep, hchunk] at hsend
  refine ⟨fun h => hsend.trans (if_pos h), fun h => ?_⟩
  replace hsend := hsend.trans (if_neg (Bool.eq_false_iff.1 h))
  refine ⟨fun ht => hsend.trans (if_pos (bne_iff_ne.2 ht)), fun ht => ?_⟩
  replace hsend := hsend.trans (if_neg (by simpa using ht))
  refine ⟨fun hheld => hsend.trans (if_pos hheld), fun hfree hr hd => ?_⟩
  replace hsend := (hsend.trans (if_neg (Bool.eq_false_iff.1 hfree))).trans (released_ok _ hr hd)
  obtain ⟨hxg, hxn⟩ := (s.releaseCore s.ic).group_sentStep h0 h1
  exact ⟨_, _, fld_eq .., fld_eq .., (State.length_sentPart ..).trans (fld_eq ..), hxg, hxn.trans hstep, hsend⟩

/-- Settles O46: each instruction is refused, waits or takes effect, in the order of its tests. -/
theorem linkInstructions : Obligations.LinkInstructions := by
  unfold Obligations.LinkInstructions
  intro s a b d many word
  refine ⟨fun h => ?_, fun hl hf => ⟨fun hn => ⟨exec_grpPut_refused hl hf hn, fun h => ⟨exec_grpPut_waits hl hf hn h,
      exec_grpPut hl hf hn h⟩⟩,
    fun ha hroom => ⟨exec_grpGet_refused hl hf ha hroom, fun h => ⟨fun v w => exec_grpGet_answered hl hf ha hroom h,
      exec_grpGet_waits hl hf ha hroom h⟩⟩,
    fun hb hrd ha => ⟨exec_mcst_refused hl hf hb hrd ha rfl rfl, fun hlow hcasts =>
      ⟨exec_mcst_misaligned hl hf hb hrd ha rfl rfl hlow hcasts, exec_mcst_outside hl hf hb hrd ha rfl rfl hlow hcasts,
        exec_mcst_asks hl hf hb hrd ha rfl rfl hlow hcasts⟩⟩,
    fun hn => ⟨exec_seqRd_refused hl hf hn, exec_seqRd hl hf hn⟩,
    fun hrd hb ha => ⟨exec_lnkSend_traps hl hf hrd hb ha, fun h63 => lnkSend_outcomes hl hf hrd hb ha h63 rfl rfl⟩,
    fun hroom => ⟨exec_lnkRecv_traps hl hf hroom, fun h63 => ⟨exec_lnkRecv_empty hl hf hroom h63, fun p r =>
      exec_lnkRecv hl hf hroom h63, fun p => State.blurPacket_plain⟩⟩⟩⟩
  simp only [List.forall_mem_cons, List.not_mem_nil, false_implies, implies_true, and_true]
  exact ⟨linkGroup_illegal _ _ h, linkGroup_illegal _ _ h, linkGroup_illegal _ _ h, linkGroup_illegal _ _ h, linkGroup_illegal _ _ h,
    linkGroup_illegal _ _ h⟩

end Sys2Proof.Proofs
end

section
/-! The host, the hub and the boot (spec/25 R437 to R453, spec/18 R387, R388, spec/22 R403 to R407). -/

namespace Sys2Proof.Machine

/-! Power-good and the boot stages (R441, R442, R444). -/

theorem exec_powerGood_again {s : State} (h : s.hub.poweredUp = true) : exec .powerGood s = .next s :=
  congrArg Host.Outcome.next (if_pos h)

theorem exec_powerGood {s : State} (h : s.hub.poweredUp = false) :
    exec .powerGood s = .next (s.updHub fun x => { x with poweredUp := true, stage := 1 }) :=
  congrArg Host.Outcome.next (if_neg (Bool.eq_false_iff.1 h))

section
variable {s : State} {b : BootImage}

/-- The ROM verifies in stage 1 and the loader in stage 2. -/
theorem stageVerifies_iff {n : BitVec 4} : (decide (n.toNat = 1) || decide (n.toNat = 2)) = true ↔ n = 1 ∨ n = 2 := by
  simp [← BitVec.toNat_inj]

theorem exec_bootStage_idle (h1 : s.hub.stage ≠ 1) (h2 : s.hub.stage ≠ 2) : exec (.bootStage b) s = .next s :=
  if_neg (mt stageVerifies_iff.1 (not_or.2 ⟨h1, h2⟩))

variable (h : s.hub.stage = 1 ∨ s.hub.stage = 2)
include h

theorem exec_bootStage_passes (he : bootErr b s.hub.stage.toNat = 0) : exec (.bootStage b) s = .next (s.updHub fun x =>
    { x.extend (s.hub.stage.toNat - 1) (sm3 b.bytes) with
      hbmStarted := if s.hub.stage.toNat = 2 then 8 else x.hbmStarted
      stage := s.hub.stage + 1, versions := tabPut x.versions (s.hub.stage.toNat - 1) b.version }) := by
  have hnext : BitVec.ofNat 4 (s.hub.stage.toNat + 1) = s.hub.stage + 1 := by
    rw [BitVec.ofNat_add, BitVec.ofNat_toNat, BitVec.setWidth_eq]
    rfl
  refine (if_pos (stageVerifies_iff.2 h)).trans ?_
  simp only [he, hnext, if_true]

theorem exec_bootStage_fails (he : bootErr b s.hub.stage.toNat ≠ 0) : exec (.bootStage b) s =
    .next (s.updHub fun x => { x with err := BitVec.ofNat 8 (bootErr b s.hub.stage.toNat), stage := 5 }) := by
  refine (if_pos (stageVerifies_iff.2 h)).trans ?_
  simp only [he, if_false]

end

/-! The release of the clusters, in order (R444). -/

/-- It is not the cluster's turn: the kernel is not installing, the cluster is released or none, or one before it is not. -/
def State.releaseEarly (s : State) (k : Nat) : Prop :=
  s.hub.stage ≠ 3 ∨ (s.cluster k).released = true ∨ Config.clusters ≤ k ∨ ∃ j ∈ span 0 k, (s.cluster j).released = false

theorem State.releaseEarly_iff {s : State} {k : Nat} : (s.hub.stage != 3 || (s.cluster k).released || decide (Config.clusters ≤ k) ||
    (span 0 k).any fun j => !(s.cluster j).released) = true ↔ s.releaseEarly k := by
  simp [State.releaseEarly, or_assoc]

/-- A cluster leaves reset: its die has started, the firmware is measured, and its cores start. -/
def State.releaseCluster (s : State) (k : Nat) : State :=
  ((((s.updDie (k / 32) fun d => { d with started := true }).measureFirmware k).updCluster k fun c =>
    { c with released := true }).startCores k)

section
variable {s : State} {k : Nat}

theorem exec_clusterResetRelease_early (h : s.releaseEarly k) : exec (.clusterResetRelease k) s = .next s :=
  if_pos (State.releaseEarly_iff.2 h)

variable (h : ¬ s.releaseEarly k)
include h

theorem exec_clusterResetRelease_some (hk : k + 1 ≠ Config.clusters) : exec (.clusterResetRelease k) s = .next (s.releaseCluster k) :=
  (if_neg (mt State.releaseEarly_iff.1 h)).trans (congrArg Host.Outcome.next (if_neg hk))

theorem exec_clusterResetRelease_last (hk : k + 1 = Config.clusters) :
    exec (.clusterResetRelease k) s = .next ((s.releaseCluster k).updHub fun x => { x with stage := 4, ready := true }) :=
  (if_neg (mt State.releaseEarly_iff.1 h)).trans (congrArg Host.Outcome.next (if_pos hk))

end

/-! Measurements and the features' acceptance (R442, R445). -/

section
variable {s : State}

theorem exec_measurementExtend {n : Nat} (digest : BitVec 256) (h : s.hub.kernelRuns = true ∧ 2 ≤ n ∧ n < 8) :
    exec (.measurementExtend n digest) s = .next (s.updHub fun x => x.extend n digest) :=
  congrArg Host.Outcome.next (if_pos (by simpa [and_assoc] using h))

theorem exec_measurementExtend_idle {n : Nat} (digest : BitVec 256) (h : ¬ (s.hub.kernelRuns = true ∧ 2 ≤ n ∧ n < 8)) :
    exec (.measurementExtend n digest) s = .next s :=
  congrArg Host.Outcome.next (if_neg (by simpa [and_assoc] using h))

variable {v : BitVec 64}

theorem exec_faccept0Write_idle (h : s.hub.negotiates = false) : exec (.faccept0Write v) s = .next s :=
  congrArg Host.Outcome.next (if_neg (Bool.eq_false_iff.1 h))

theorem exec_faccept1Write_idle (h : s.hub.negotiates = false) : exec (.faccept1Write v) s = .next s :=
  congrArg Host.Outcome.next (if_neg (Bool.eq_false_iff.1 h))

variable (h : s.hub.negotiates = true)
include h

theorem exec_faccept1Write : exec (.faccept1Write v) s = .next (s.updHub fun x => { x with accept1 := v }) :=
  congrArg Host.Outcome.next (if_pos h)

theorem exec_faccept0Write_accepts (hset : setOk (s.hub.accept1 ++ v) = true) :
    exec (.faccept0Write v) s = .next (s.updHub fun x => { x with accept0 := v, committed := true }) :=
  congrArg Host.Outcome.next ((if_pos h).trans (congrArg (fun x => { s with hub := x }) (if_pos hset)))

theorem exec_faccept0Write_refuses (hset : setOk (s.hub.accept1 ++ v) = false) :
    exec (.faccept0Write v) s = .next (s.updHub fun x => { x with accept1 := 0, err := 5 }) :=
  congrArg Host.Outcome.next ((if_pos h).trans (congrArg (fun x => { s with hub := x }) (if_neg (Bool.eq_false_iff.1 hset))))

end

/-! The submission ring (R440). -/

section
variable {s : State} {v : BitVec 64} {k : Nat}

theorem exec_sqtailWrite_waits (h : s.hub.hostWrites ≠ []) :
    exec (.sqtailWrite v k) s = .next (s.updHub fun x => { x with hostWrites := x.hostWrites ++ [.sqtailWrite v k] }) :=
  congrArg Host.Outcome.next (if_neg h)

theorem State.ring_submits (h : s.hub.committed = true ∧ k < Config.clusters) :
    s.ring v k = (s.updHub fun x => { x with sqtail := v }).submit k Config.ringEntries :=
  if_pos (by simpa using h)

theorem State.ring_waits (h : ¬ (s.hub.committed = true ∧ k < Config.clusters)) :
    s.ring v k = s.updHub fun x => { x with sqtail := v } :=
  if_neg (by simpa using h)

theorem exec_sqtailWrite (h : s.hub.hostWrites = []) : exec (.sqtailWrite v k) s = .next (s.ring v k) :=
  congrArg Host.Outcome.next (if_pos h)

end

/-! Attestation (R451). -/

section
variable {s : State} {digest : BitVec 256}

theorem exec_attestationRequest_idle (h : s.hub.kernelRuns = false) : exec (.attestationRequest digest) s = .next s :=
  congrArg Host.Outcome.next (if_pos (by simp [h]))

variable (h : s.hub.kernelRuns = true)
include h

theorem exec_attestationRequest_keyless (hk : s.hub.identityKey = false) :
    exec (.attestationRequest digest) s = .next (s.record (.attestation none)) :=
  congrArg Host.Outcome.next ((if_neg (by simp [h])).trans (if_neg (Bool.eq_false_iff.1 hk)))

theorem exec_attestationRequest (hk : s.hub.identityKey = true) :
    let r := s.hub.report digest
    let sig := sm2Sign (Config.identityKey s.hub.keySerial) (Config.nonce s.draw.1) (sm3 (r.map beBytes).flatten)
    exec (.attestationRequest digest) s = .next (s.draw.2.record (.attestation (some (r, sig)))) :=
  congrArg Host.Outcome.next ((if_neg (by simp [h])).trans (if_pos hk))

end

/-! Alarms (spec/18 R387, R388). -/

theorem raised_unlocked (old new : BitVec 2) : raised false old new = new := rfl

theorem toNat_raised_locked (old new : BitVec 2) : (raised true old new).toNat = max old.toNat new.toNat := by
  rw [raised, Bool.true_and]
  by_cases h : new.toNat < old.toNat
  · rw [if_pos (decide_eq_true h), Nat.max_eq_left h.le]
  · rw [if_neg (by simpa using h), Nat.max_eq_right (Nat.not_lt.1 h)]

section
variable {s : State} {sources : BitVec 4}

theorem exec_unfiredAlarm (h : s.hub.alarmAction sources = none) : exec (.securityAlarm sources) s = .next s := by
  show execSecurityAlarm sources s = _
  simp only [execSecurityAlarm, h]

/-- Action 0 counts: the counter's new value is free. -/
theorem exec_countingAlarm (h : s.hub.alarmAction sources = some 0) :
    let x := Config.freeValue s.draw.1
    exec (.securityAlarm sources) s = .next ((s.draw.2.updHub fun y => { y with counter := x }).record (.alarm sources x)) := by
  show execSecurityAlarm sources s = _
  simp only [execSecurityAlarm, h, State.hub_updHub]

theorem exec_resettingAlarm (h : s.hub.alarmAction sources = some 1) :
    exec (.securityAlarm sources) s = .next s.packageReset := by
  show execSecurityAlarm sources s = _
  simp only [execSecurityAlarm, h]

/-- Any higher action drops the keys and resets. -/
theorem exec_keyDroppingAlarm {x : Nat} (h : s.hub.alarmAction sources = some x) (h0 : x ≠ 0) (h1 : x ≠ 1) :
    exec (.securityAlarm sources) s =
      .next ((s.updHub fun y => { y with identityKey := false, sessionKeys := [] }).packageReset) := by
  obtain ⟨n, rfl⟩ : ∃ n, x = n + 2 := ⟨x - 2, by omega⟩
  show execSecurityAlarm sources s = _
  simp only [execSecurityAlarm, h]

end

/-! BAR2, in the order of the host's posted writes (R439). -/

section
variable {s : State} {n k : Nat}

theorem exec_bar2Read_outside (h : s.hub.barSize ≤ n) : exec (.bar2Read n k) s = .next s := if_pos h

variable (h : n < s.hub.barSize)
include h

theorem exec_bar2Read_once (hp : onePiece n k = true) :
    exec (.bar2Read n k) s = .next ((s.barBytes n k).2.record (.hostRead n (s.barBytes n k).1)) :=
  (if_neg (Nat.not_le.2 h)).trans (if_pos hp)

theorem exec_bar2Read_split (hp : onePiece n k = false) :
    exec (.bar2Read n k) s = .next (s.emitAll ((pieces (k + 1) n k).map fun x => .bar2Read x.1 x.2)) :=
  (if_neg (Nat.not_le.2 h)).trans (if_neg (Bool.eq_false_iff.1 hp))

end

/-- Bytes of the host are written at their home, with a signature of all ones. -/
def State.barPut (u : State) (a : Nat) (l : List Byte) : State := (u.sigRelease (barTarget a) none).writeHome .outside none a l

/-- The oldest posted write is taken, and those behind it wait. -/
def State.posted (s : State) (rest : List Instr) : State := s.updHub fun x => { x with hostWrites := rest }

/-- The posted writes behind one that is done go on. -/
def State.postRest (u : State) (l : List Instr) : State := if l = [] then u else u.emitOnce (.bar2Write 0 [])

section
variable {s : State} {a : Nat} {l : List Byte}

theorem State.barWrite_outside (h : Config.hbmBytes ≤ a ∨ s.hub.barSize ≤ a) : s.barWrite a l = s :=
  if_pos (by simpa [or_assoc] using h.elim Or.inl fun hbar => Or.inr (Or.inl hbar))

theorem State.barWrite_puts (hmem : a < Config.hbmBytes) (hbar : a < s.hub.barSize) (hl : l ≠ []) : s.barWrite a l = s.barPut a l :=
  if_neg (by simp [hmem, hbar, hl])

variable {rest : List Instr}

theorem State.postNext_none (h : s.hub.hostWrites = []) : s.postNext = s := by simp only [State.postNext, h]

theorem State.postNext_held (h : s.hub.hostWrites = .bar2Write a l :: rest) (hp : s.pinned (.home a) = true) : s.postNext = s := by
  simp only [State.postNext, h, hp, if_true]

theorem State.postNext_write (h : s.hub.hostWrites = .bar2Write a l :: rest) (hp : s.pinned (.home a) = false) :
    s.postNext = ((s.posted rest).barWrite a l).postRest rest := by
  simp only [State.postNext, h, hp, Bool.false_eq_true, if_false, State.postRest, State.posted]

theorem State.postNext_doorbell {t : BitVec 64} {j : Nat} (h : s.hub.hostWrites = .sqtailWrite t j :: rest) :
    s.postNext = ((s.posted rest).ring t j).postRest rest := by
  simp only [State.postNext, h, State.postRest, State.posted]

end

section
variable {s : State} {n : Nat}

theorem exec_bar2Write_next : exec (.bar2Write n []) s = .next s.postNext := rfl

variable {bytes : List Byte} (hne : bytes ≠ [])
include hne

theorem exec_bar2Write_performs (hp : onePiece n bytes.length = true) (hw : s.hub.hostWrites = []) (hpin : s.pinned (.home n) = false) :
    exec (.bar2Write n bytes) s = .next (s.barWrite n bytes) :=
  congrArg Host.Outcome.next ((if_neg hne).trans (if_pos (by simp [hp, hw, hpin])))

theorem exec_bar2Write_posts (h : onePiece n bytes.length = false ∨ s.hub.hostWrites ≠ [] ∨ s.pinned (.home n) = true) :
    exec (.bar2Write n bytes) s = .next ((s.updHub fun x => { x with hostWrites := x.hostWrites ++
      ((pieces (bytes.length + 1) n bytes.length).map fun x => .bar2Write x.1 ((bytes.drop (x.1 - n)).take x.2)) }).emitOnce
        (.bar2Write 0 [])) := by
  refine congrArg Host.Outcome.next ((if_neg hne).trans (if_neg ?_))
  rcases h with hp | hw | hpin
  · simp [hp]
  · simp [hw]
  · simp [hpin]

end

/-! The hub's registers (spec/19 R390, spec/22 R403 to R407). -/

section
variable {s : State} {w : BitVec 128}

theorem exec_devidWrite (h : 1 ≤ (w.setWidth 64).toNat ∧ (w.setWidth 64).toNat ≤ 254) : exec (.hubRegisterWrite .devid w) s =
    .next (s.updHub fun x => { x with devid := (w.setWidth 64).setWidth 8, devidSet := true }) :=
  congrArg Host.Outcome.next (if_pos (by simpa only [Bool.and_eq_true, decide_eq_true_eq] using h))

theorem exec_devidWrite_idle (h : ¬ (1 ≤ (w.setWidth 64).toNat ∧ (w.setWidth 64).toNat ≤ 254)) :
    exec (.hubRegisterWrite .devid w) s = .next s :=
  congrArg Host.Outcome.next (if_neg (by simpa only [Bool.and_eq_true, decide_eq_true_eq] using h))

theorem exec_pwrcapWrite (h : 1200 ≤ (w.setWidth 64).toNat ∧ (w.setWidth 64).toNat ≤ 2000) : exec (.hubRegisterWrite .pwrcap w) s =
    .next (s.updHub fun x => { x with pwrcap := (w.setWidth 64).toNat }) :=
  congrArg Host.Outcome.next (if_pos (by simpa only [Bool.and_eq_true, decide_eq_true_eq] using h))

theorem exec_pwrcapWrite_idle (h : ¬ (1200 ≤ (w.setWidth 64).toNat ∧ (w.setWidth 64).toNat ≤ 2000)) :
    exec (.hubRegisterWrite .pwrcap w) s = .next s :=
  congrArg Host.Outcome.next (if_neg (by simpa only [Bool.and_eq_true, decide_eq_true_eq] using h))

variable {n : Nat}

theorem exec_routeWrite {k : Nat} (h : n < 1024) : exec (.hubRegisterWrite (.route k n) w) s =
    .next (s.updCluster k fun c => { c with routes := tabPut c.routes n (routeOf w) }) :=
  congrArg Host.Outcome.next (if_pos h)

theorem exec_routeWrite_idle {k : Nat} (h : 1024 ≤ n) : exec (.hubRegisterWrite (.route k n) w) s = .next s :=
  congrArg Host.Outcome.next (if_neg (Nat.not_lt.2 h))

theorem exec_groupWrite (h : n < 4096) : exec (.hubRegisterWrite (.group n) w) s = .next (s.putGroup n w) :=
  congrArg Host.Outcome.next (if_pos h)

theorem exec_groupWrite_idle (h : 4096 ≤ n) : exec (.hubRegisterWrite (.group n) w) s = .next s :=
  congrArg Host.Outcome.next (if_neg (Nat.not_lt.2 h))

end

/-- No register of the hub is memory. -/
theorem exec_hubRegisterWrite_mem (reg : HubReg) (w : BitVec 128) (s : State) :
    ∃ u, exec (.hubRegisterWrite reg w) s = .next u ∧ u.mem = s.mem := by
  refine ⟨_, rfl, ?_⟩
  cases reg with
  | sptbr | rtthr | castiv _ | tvecd _ => rfl
  | devid | pwrcap | route _ _ | group _ => dsimp only; split <;> rfl

end Sys2Proof.Machine

namespace Sys2Proof.Proofs

open Machine Safety

/-- Under LOCK each field of ALARMPOL takes the higher of its values, and without it the written one. -/
theorem alarmpol_outcomes (s : State) (v : BitVec 64) : ∃ m t c o : BitVec 2,
    exec (.alarmpolWrite v) s = .next (s.updHub fun x => { x with
      alarmLock := x.alarmLock || v.getLsbD 8, alarmMesh := m, alarmTemp := t, alarmClk := c, alarmVolt := o }) ∧
    (s.hub.alarmLock = true → m.toNat = max s.hub.alarmMesh.toNat (v.extractLsb' 6 2).toNat ∧
      t.toNat = max s.hub.alarmTemp.toNat (v.extractLsb' 4 2).toNat ∧ c.toNat = max s.hub.alarmClk.toNat (v.extractLsb' 2 2).toNat ∧
      o.toNat = max s.hub.alarmVolt.toNat (v.extractLsb' 0 2).toNat) ∧
    (s.hub.alarmLock = false → m = v.extractLsb' 6 2 ∧ t = v.extractLsb' 4 2 ∧ c = v.extractLsb' 2 2 ∧ o = v.extractLsb' 0 2) := by
  refine ⟨_, _, _, _, rfl, fun hlock => ?_, fun hopen => ?_⟩
  · rw [hlock]
    exact ⟨toNat_raised_locked .., toNat_raised_locked .., toNat_raised_locked .., toNat_raised_locked ..⟩
  · rw [hopen]
    exact ⟨raised_unlocked .., raised_unlocked .., raised_unlocked .., raised_unlocked ..⟩

/-- Settles O54: each event goes on from what the hub holds: its stage, its features, its keys, its alarm policy, or the posted writes. -/
theorem deviceEvents : Obligations.DeviceEvents := by
  unfold Obligations.DeviceEvents
  intro s k n v w digest b sources bytes reg h idle
  refine ⟨exec_powerGood_again, exec_powerGood, exec_bootStage_idle, fun hst => ⟨exec_bootStage_passes hst, exec_bootStage_fails hst⟩,
    ⟨exec_clusterResetRelease_early, fun hturn => ⟨exec_clusterResetRelease_some hturn, exec_clusterResetRelease_last hturn⟩⟩,
    exec_measurementExtend digest, exec_measurementExtend_idle digest,
    fun hn => ⟨exec_faccept0Write_idle hn, exec_faccept1Write_idle hn⟩,
    fun hn => ⟨exec_faccept1Write hn, exec_faccept0Write_accepts hn, exec_faccept0Write_refuses hn⟩,
    ⟨exec_sqtailWrite_waits, fun hw => ⟨fun hsub => ?_, fun hwait => ?_⟩⟩,
    exec_attestationRequest_idle, fun hruns => ⟨exec_attestationRequest_keyless hruns, exec_attestationRequest hruns⟩, rfl,
    alarmpol_outcomes s v, exec_unfiredAlarm, exec_countingAlarm, exec_resettingAlarm,
    fun _ => exec_keyDroppingAlarm, exec_bar2Read_outside, exec_bar2Read_once, exec_bar2Read_split,
    ⟨fun hne hp hw hpin => ⟨fun hmem hbar => ?_, fun hout => ?_⟩, exec_bar2Write_posts, fun hw => ?_, fun a l rest hw =>
      ⟨fun hpin => ?_, fun hpin hmem hbar hl => ?_⟩, fun t j rest hw hc => ?_⟩,
    ⟨rfl, exec_devidWrite, exec_devidWrite_idle, rfl, exec_pwrcapWrite, exec_pwrcapWrite_idle, rfl, rfl, exec_routeWrite,
      exec_routeWrite_idle, exec_groupWrite, exec_groupWrite_idle⟩,
    exec_hubRegisterWrite_mem reg w s, rfl, rfl⟩
  · rw [exec_sqtailWrite hw, State.ring_submits hsub]
  · rw [exec_sqtailWrite hw, State.ring_waits hwait]
  · rw [exec_bar2Write_performs hne hp hw hpin, State.barWrite_puts hmem hbar hne]
    rfl
  · exact (exec_bar2Write_performs hne hp hw hpin).trans (congrArg _ (State.barWrite_outside hout))
  · exact congrArg Host.Outcome.next (State.postNext_none hw)
  · exact congrArg Host.Outcome.next (State.postNext_held hw hpin)
  · rw [exec_bar2Write_next, State.postNext_write hw hpin, State.barWrite_puts (s := s.posted rest) hmem hbar hl]
    rfl
  · rw [exec_bar2Write_next, State.postNext_doorbell hw, State.ring_waits (s := s.posted rest) fun hsub => Bool.eq_false_iff.1 hc hsub.1]
    rfl

end Sys2Proof.Proofs
end

section
/-! What reset and a core's start leave (spec/25 R438, R442, R444, R445, spec/18 R381, R387, spec/14 R319, spec/07 R179, spec/15 R327). -/

namespace Sys2Proof.Machine

open Safety

/-! The cores of a cluster start one by one (R444). -/

/-- One core starts, with a TVECD that is free. -/
def State.startCore (s : State) (c : Nat) : State := s.draw.2.putCore c (startedCore (Config.freeValue s.draw.1))

theorem State.startCores_eq (s : State) (k : Nat) : s.startCores k = (span (8 * k) 8).foldl State.startCore s := rfl

/-- A core is as its start has left it. -/
def Core.justStarted (k : Core) : Prop := ∃ tvecd, k = startedCore tvecd

theorem State.clusters_startAll (l : List Nat) (s : State) : (l.foldl State.startCore s).clusters = s.clusters := by
  induction l generalizing s with
  | nil => rfl
  | cons c l ih => exact ih (s.startCore c)

/-- A core that starts stays so while others start. -/
theorem State.justStarted_startAll {c : Nat} {l : List Nat} {s : State} (h : (s.core c).justStarted ∨ c ∈ l) :
    ((l.foldl State.startCore s).core c).justStarted := by
  induction l generalizing s with
  | nil => exact h.resolve_right List.not_mem_nil
  | cons x l ih =>
    refine ih ?_
    by_cases hx : c = x
    · subst hx
      exact .inl ⟨_, State.core_putCore ..⟩
    · refine h.imp (fun hstarted => ?_) fun hmem => (List.mem_cons.1 hmem).resolve_left hx
      rwa [State.startCore, State.core_putCore_other _ _ hx]

section
variable (s : State) (k : Nat)

theorem State.released_releaseCluster : ((s.releaseCluster k).cluster k).released = true := by
  rw [State.cluster, State.releaseCluster, State.startCores_eq, State.clusters_startAll]
  exact congrArg Cluster.released (State.cluster_updCluster ..)

theorem State.justStarted_releaseCluster {c : Nat} (h : c / 8 = k) : ((s.releaseCluster k).core c).justStarted :=
  State.justStarted_startAll (.inr (mem_span.2 (by omega)))

end

/-- A started core's counter, common registers and seed slots are 0. -/
theorem Core.justStarted_zero {k : Core} (h : k.justStarted) : k.started = true ∧ k.cyc = 0 ∧ (∀ n, tabGet 0 k.common n = 0) ∧
    ∀ n, tabGet {} k.seeds n = ⟨0, 0⟩ := by
  obtain ⟨tvecd, rfl⟩ := h
  exact ⟨rfl, rfl, fun _ => rfl, fun _ => rfl⟩

theorem State.accepted_reset (n : Nat) : State.reset.accepted n = false := BitVec.getLsbD_zero

end Sys2Proof.Machine

namespace Sys2Proof.Proofs

open Machine Safety

/-- Settles O60: reset leaves every table empty and every field at its default, and the release of a cluster leaves its eight cores just
started. -/
theorem resetState : Obligations.ResetState := by
  unfold Obligations.ResetState
  refine ⟨⟨rfl, rfl, rfl, rfl, State.accepted_reset, fun _ => rfl, rfl, rfl, rfl, rfl, rfl, fun _ => rfl, fun _ => rfl, rfl⟩,
    fun s k hstage hheld hk hbefore => ?_⟩
  have hturn : ¬ s.releaseEarly k := by
    rintro (h | h | h | ⟨j, hj, h⟩)
    · exact h hstage
    · exact Bool.eq_false_iff.1 hheld h
    · exact Nat.not_le.2 hk h
    · exact Bool.eq_false_iff.1 h (hbefore j (by simpa using (mem_span.1 hj).2))
  have hcores : ∀ c, c / 8 = k → _ := fun c hc => Core.justStarted_zero (s.justStarted_releaseCluster k hc)
  have hreleased := s.released_releaseCluster k
  by_cases hlast : k + 1 = Config.clusters
  · exact ⟨_, exec_clusterResetRelease_last hturn hlast, hreleased, fun _ => ⟨rfl, rfl⟩, hcores⟩
  · exact ⟨_, exec_clusterResetRelease_some hturn hlast, hreleased, fun h => absurd (congrArg (· + 1) h) hlast, hcores⟩

end Sys2Proof.Proofs
end

section
/-! The link's events (spec/22 R401 to R421, spec/23 R426 to R434). -/

namespace Sys2Proof.Machine

/-! Stamped stores are applied in order, or skipped (R410). -/

section
variable {s : State} {g : Nat} (h : s.nextStamped g = none)
include h

theorem exec_mcstApplication_none : exec (.mcstApplication g) s = .next s := by
  show execMcstApplication g s = _
  simp only [execMcstApplication, h]

theorem exec_multicastSkip_none : exec (.multicastSkip g) s = .next s := by
  show execMulticastSkip g s = _
  simp only [execMulticastSkip, h]

end

/-- A stamped store that faults waits for the kernel, with the record's number. -/
def State.multicastStops (s : State) (g : Nat) (x : Stamped) (cause : Nat) : State :=
  (s.fault (.multicast g) .write ⟨0, x.off⟩ cause noInst).updHub fun h =>
    { h with stamped := h.stamped.map fun y => if y = x then { y with fault := some s.serial } else y }

section
variable {s : State} {g : Nat} {x : Stamped} (h : s.nextStamped g = some x)
include h

theorem exec_mcstApplication_faulted (hf : x.fault.isSome = true) : exec (.mcstApplication g) s = .next s := by
  show execMcstApplication g s = _
  simp only [execMcstApplication, h, hf, if_true]

theorem exec_multicastSkip {f : Nat} (hf : x.fault = some f) : exec (.multicastSkip g) s =
    .next (State.endApplication { s with faults := s.faults.filter fun y => y.number != f } x true) := by
  show execMulticastSkip g s = _
  simp only [execMulticastSkip, h, hf]

variable (hf : x.fault = none)
include hf

theorem exec_multicastSkip_clear : exec (.multicastSkip g) s = .next s := by
  show execMulticastSkip g s = _
  simp only [execMulticastSkip, h, hf]

theorem exec_mcstApplication_page (ht : s.engineTarget noInst { w := true } ⟨0, x.off⟩ = .page) :
    exec (.mcstApplication g) s = .next (s.multicastStops g x 4) := by
  show execMcstApplication g s = _
  simp only [execMcstApplication, h, hf, ht, Option.isSome_none, Bool.false_eq_true, if_false]
  rfl

theorem exec_mcstApplication_access (ht : s.engineTarget noInst { w := true } ⟨0, x.off⟩ = .access) :
    exec (.mcstApplication g) s = .next (s.multicastStops g x 3) := by
  show execMcstApplication g s = _
  simp only [execMcstApplication, h, hf, ht, Option.isSome_none, Bool.false_eq_true, if_false]
  rfl

variable {t : Target} (ht : s.engineTarget noInst { w := true } ⟨0, x.off⟩ = .ok t)
include ht

theorem exec_mcstApplication_pinned (hp : s.pinned t.place = true) : exec (.mcstApplication g) s = .next s := by
  show execMcstApplication g s = _
  simp only [execMcstApplication, h, hf, ht, hp, Option.isSome_none, Bool.false_eq_true, if_false, if_true]

theorem exec_mcstApplication (hp : s.pinned t.place = false) :
    let u := (s.takeBack .hub t 8).sigRelease t none
    exec (.mcstApplication g) s = .next ((u.writeTarget .hub t (leBytes x.value.toNat 8)).endApplication x false) := by
  show execMcstApplication g s = _
  simp only [execMcstApplication, h, hf, ht, hp, Option.isSome_none, Bool.false_eq_true, if_false]

end

/-! Stamping at the root and below it (R408, R409). -/

theorem exec_mcstStamping_uncast {s : State} {g : Nat} (hc : geCasts (s.group g) = false) :
    exec (.mcstStamping g none) s = .next s :=
  if_pos (by simp [hc])

/-- The root stamps a request with the entry's next stamp, sends it down and takes it itself. -/
def State.stampRequest (s : State) (g : Nat) (r : Multicast) (rest : List Multicast) : State :=
  let e := s.group g
  (((s.updHub fun h => { h with requests := rest }).putGroup g
    ((e &&& ~~~((0xFFFFFFFF#128) <<< 32)) ||| ((geStamp e + 1).setWidth 128 <<< 32))).record
      (.multicastOut g (some (geStamp e)) r.off r.value)).stampHere g (geStamp e) r

/-- A request for a stamp joins the others. -/
def State.requested (s : State) (r : Multicast) : State := s.updHub fun h => { h with requests := h.requests ++ [r] }

theorem State.group_requested (s : State) (r : Multicast) (g : Nat) : (s.requested r).group g = s.group g := rfl

section
variable {s : State} {g : Nat} (hc : geCasts (s.group g) = true)
include hc

section
variable (hr : geRoot (s.group g) = true)
include hr

/-- A request that arrives at the root joins the others first. -/
theorem exec_mcstStamping_arrives (o v : Word) :
    exec (.mcstStamping g (some (o, v))) s = exec (.mcstStamping g none) (s.requested ⟨g, o, v, none, noInst, 0⟩) := by
  show execMcstStamping g (some (o, v)) s = execMcstStamping g none (s.requested ⟨g, o, v, none, noInst, 0⟩)
  simp only [execMcstStamping, State.group_requested, hc, hr, Bool.not_true, Bool.false_eq_true, if_false, if_true]
  rfl

theorem exec_mcstStamping_unasked (hn : firstRequest g s.hub.requests = none) : exec (.mcstStamping g none) s = .next s := by
  show execMcstStamping g none s = _
  simp only [execMcstStamping, hc, hr, hn, Bool.not_true, Bool.false_eq_true, if_false, if_true]

variable {r : Multicast} {rest : List Multicast} (hq : firstRequest g s.hub.requests = some (r, rest))
include hq

theorem exec_mcstStamping_waits (hm : s.mayStamp g = false) : exec (.mcstStamping g none) s = .next s := by
  show execMcstStamping g none s = _
  simp only [execMcstStamping, hc, hr, hq, hm, Bool.not_true, Bool.not_false, Bool.false_eq_true, if_false, if_true]

theorem exec_mcstStamping_stamps (hm : s.mayStamp g = true) :
    let u := s.stampRequest g r rest
    exec (.mcstStamping g none) s =
      .next (if u.hub.requests.any fun x => x.group = g then u.emitOnce (.mcstStamping g none) else u) := by
  show execMcstStamping g none s = _
  simp only [execMcstStamping, hc, hr, hq, hm, Bool.not_true, Bool.false_eq_true, if_false, if_true]
  rfl

end

section
variable (hr : geRoot (s.group g) = false)
include hr

theorem exec_mcstStamping_unstamped (hs : s.stampNow g = none) (q : Option (Word × Word)) : exec (.mcstStamping g q) s = .next s := by
  show execMcstStamping g q s = _
  simp only [execMcstStamping, hc, hr, hs, Bool.not_true, Bool.false_eq_true, if_false]

variable {m : BitVec 32} (hs : s.stampNow g = some m)
include hs

theorem exec_mcstStamping_other_member (hmem : geMember (s.group g) = true) (o v : Word) : exec (.mcstStamping g (some (o, v))) s =
    .next ((s.stampDown g m o v).stampHere g m ⟨g, o, v, none, noInst, 0⟩) := by
  show execMcstStamping g (some (o, v)) s = _
  simp only [execMcstStamping, hc, hr, hs, hmem, Bool.not_true, Bool.false_eq_true, if_false, if_true]

theorem exec_mcstStamping_other_passes (hmem : geMember (s.group g) = false) (o v : Word) : exec (.mcstStamping g (some (o, v))) s =
    .next (s.stampDown g m o v) := by
  show execMcstStamping g (some (o, v)) s = _
  simp only [execMcstStamping, hc, hr, hs, hmem, Bool.not_true, Bool.false_eq_true, if_false]

theorem exec_mcstStamping_own_none (hn : firstRequest g s.hub.requests = none) : exec (.mcstStamping g none) s = .next s := by
  show execMcstStamping g none s = _
  simp only [execMcstStamping, hc, hr, hs, hn, Bool.not_true, Bool.false_eq_true, if_false]

theorem exec_mcstStamping_own {r : Multicast} {rest : List Multicast} (hq : firstRequest g s.hub.requests = some (r, rest)) :
    exec (.mcstStamping g none) s =
      .next (((s.stampDown g m r.off r.value).updHub fun h => { h with requests := rest }).stampHere g m r) := by
  show execMcstStamping g none s = _
  simp only [execMcstStamping, hc, hr, hs, hq, Bool.not_true, Bool.false_eq_true, if_false]

end

end

/-! Packets of other nodes (R411 to R414, R418, R419). -/

/-- A packet is discarded: its group takes no collectives, its tree is another generation, or it names no chunk. -/
def State.discards (s : State) (p : CombinePacket) : Prop :=
  geCollects (s.group p.group) = false ∨ p.topo.toNat ≠ geTopo (s.group p.group) ∨ p.chunk = 0

/-- The step that a packet is about, which begins with it where nothing of it is here. -/
def State.packetStep (s : State) (p : CombinePacket) : StepState :=
  (s.findStep p.group p.stepNo p.scalar).getD (newStep p.group p.stepNo p.scalar p.kind p.chunk p.count)

/-- The step has heard from a child. -/
def StepState.hears (x : StepState) (d : Nat) : StepState :=
  { x with below := if x.below.contains d then x.below else x.below ++ [d] }

section
variable {s : State} {p : CombinePacket}

theorem State.discards_iff : (!geCollects (s.group p.group) || p.topo.toNat != geTopo (s.group p.group) || decide (p.chunk = 0)) = true ↔
    s.discards p := by
  simp [State.discards, or_assoc]

theorem exec_combinePacketArrival_discarded (h : s.discards p) :
    exec (.combinePacketArrival p) s = .next (s.record (.slotFreeOut p.group p.source)) :=
  if_pos (State.discards_iff.2 h)

section
variable (h : ¬ s.discards p)
include h

theorem exec_combinePacketArrival_late (hlost : (s.packetStep p).lost = true) :
    exec (.combinePacketArrival p) s = .next (s.lateChild (s.packetStep p) p) :=
  (if_neg (mt State.discards_iff.1 h)).trans (if_pos hlost)

variable (hlost : (s.packetStep p).lost = false)
include hlost

theorem exec_combinePacketArrival_loses (hst : p.status = 3) : exec (.combinePacketArrival p) s =
    .next (((s.putStep ((s.packetStep p).hears p.source)).record (.slotFreeOut p.group p.source)).loseStep
      ((s.packetStep p).hears p.source)) :=
  (if_neg (mt State.discards_iff.1 h)).trans ((if_neg (Bool.eq_false_iff.1 hlost)).trans (if_pos hst))

theorem exec_combinePacketArrival (hst : p.status ≠ 3) :
    let y := (s.packetStep p).hears p.source
    exec (.combinePacketArrival p) s =
      .next ((s.putStep { y with children := y.children ++ [p] }).advance_ p.group p.stepNo p.scalar) :=
  (if_neg (mt State.discards_iff.1 h)).trans ((if_neg (Bool.eq_false_iff.1 hlost)).trans (if_neg hst))

end

/-- The buffer in which a packet of the parent came is free. -/
def State.freesParent (s : State) (p : CombinePacket) : State := s.record (.slotFreeOut p.group (geParent (s.group p.group)))

/-- A result is for a node below the root, of this tree. -/
theorem State.resultFor_iff : (!geCollects (s.group p.group) || geRoot (s.group p.group) || p.topo.toNat != geTopo (s.group p.group) ||
    decide (p.chunk = 0)) = true ↔ s.discards p ∨ geRoot (s.group p.group) = true := by
  rw [← State.discards_iff]
  cases geRoot (s.group p.group) <;> simp

theorem exec_resultPacketArrival_discarded (h : s.discards p ∨ geRoot (s.group p.group) = true) :
    exec (.resultPacketArrival p) s = .next (s.freesParent p) :=
  if_pos (State.resultFor_iff.2 h)

section
variable (h : ¬ s.discards p) (hr : geRoot (s.group p.group) = false)
include h hr

theorem result_kept : ¬ (!geCollects (s.group p.group) || geRoot (s.group p.group) || p.topo.toNat != geTopo (s.group p.group) ||
    decide (p.chunk = 0)) = true :=
  mt State.resultFor_iff.1 (not_or.2 ⟨h, Bool.eq_false_iff.1 hr⟩)

theorem exec_resultPacketArrival (hp : p.pass ≠ 1) : exec (.resultPacketArrival p) s =
    .next (((s.freesParent p).putStep (s.packetStep p)).publishResult (s.packetStep p) [{ p with source := s.hub.devid.toNat }]) :=
  (if_neg (result_kept h hr)).trans (if_neg hp)

/-- The exponent of a first pass goes on down, and the step with it. -/
theorem exec_resultPacketArrival_exponent {v : BitVec 64} {l : List (BitVec 64)} (hp : p.pass = 1) (he : p.elems = v :: l) :
    let x := s.packetStep p
    let z := { x with exponents := tabPut x.exponents (p.offset / p.chunk) v.toInt }
    let own : CombinePacket := { p with source := s.hub.devid.toNat }
    exec (.resultPacketArrival p) s =
      .next ((((s.freesParent p).putStep z).sendAll (x.below.map fun d => (d, own))).advance_ p.group p.stepNo p.scalar) := by
  refine (if_neg (result_kept h hr)).trans ((if_pos hp).trans ?_)
  simp only [he]
  rfl

end

end

/-! A scalar step completes (spec/23 R426, R427). -/

/-- The hub holds a result, and the latest step of its group. -/
def Hub.holdsResult (h : Hub) (g : Nat) (n : BitVec 32) (v word : Word) : Hub := { h with
  results := keepResult ⟨g, n, v, word⟩ h.results
  latest := match tabFind h.latest g with
    | some m => if later n m then tabPut h.latest g n else h.latest
    | none => tabPut h.latest g n }

/-- The messages that contributors ask for are sent. -/
def State.tellsRanks (u : State) (l : List Contribution) (body : BitVec 128) : State :=
  l.foldl (fun w r => if r.message then w.post ⟨r.inst, r.slot, body, false, none⟩ else w) u

section
variable {s : State} {g : Nat} {n : BitVec 32}

theorem exec_scalarStepCompletion_none (h : s.findStep g n true = none) : exec (.scalarStepCompletion g n) s = .next s := by
  show execScalarStepCompletion g n s = _
  simp only [execScalarStepCompletion, h]

variable {x : StepState} (h : s.findStep g n true = some x)
include h

theorem exec_scalarStepCompletion_unanswered (ha : x.answer = none) : exec (.scalarStepCompletion g n) s = .next s := by
  show execScalarStepCompletion g n s = _
  simp only [execScalarStepCompletion, h, ha]

theorem exec_scalarStepCompletion {q : CombinePacket} {v : BitVec 64} {l : List (BitVec 64)} (ha : x.answer = some q)
    (hm : x.mixed = false) (he : q.elems = v :: l) :
    let e := s.group g
    let word : Word := BitVec.ofNat 64 (q.status.toNat + q.nonfinite.toNat % 16 * 2 ^ 4 + geTopo e * 2 ^ 8)
    let y := { x with answer := none, answered := true }
    let u := (if y.awaits e then s.putStep y else s.dropStep x).updHub fun h => h.holdsResult g n (resultWord e v) word
    let body := makeMsg (resultWord e v).toNat 0xFFFFFFFF (word.toNat % 2 ^ 16) 0 4 q.status.toNat
    exec (.scalarStepCompletion g n) s = .next ((u.tellsRanks x.ranks body).wakeSteps g n (resultWord e v) word) := by
  show execScalarStepCompletion g n s = _
  simp only [execScalarStepCompletion, h, ha, hm, he, Bool.false_or, reduceCtorEq, decide_false, Bool.false_eq_true, if_false,
    List.headD_cons]
  rfl

end

/-! The kernel writes a new tree (R418). -/

theorem State.hub_dropWork (s : State) (c : Nat) (off : LinkWork → Bool) : (s.dropWork c off).hub = s.hub := by
  unfold State.dropWork
  dsimp only
  split
  · split
    · split <;> rfl
    · rfl
  · rfl

theorem State.hub_resend (s : State) (c g : Nat) : (s.resend c g).hub = s.hub := State.hub_dropWork ..

theorem State.hub_resendAll {α : Type} (l : List (Nat × α)) (g : Nat) (s : State) :
    (l.foldl (fun v x => v.resend x.1 g) s).hub = s.hub := by
  induction l generalizing s with
  | nil => rfl
  | cons x l ih => exact (ih _).trans (State.hub_resend ..)

/-- The entry of the new tree stands, and what was sent in the old one is forgotten. -/
def State.reformed (s : State) (g : Nat) (entry : BitVec 128) : State :=
  (s.cores.foldl (fun v x => v.resend x.1 g) (s.putGroup g entry)).updHub fun h => { h with
    steps := h.steps.map fun x => if x.group = g then x.replay else x
    credits := h.credits.filter fun x => x.1 / 256 != g
    outbox := h.outbox.filter fun x => x.2.group != g }

theorem State.requests_reformed (s : State) (g : Nat) (entry : BitVec 128) : (s.reformed g entry).hub.requests = s.hub.requests := by
  have h := State.hub_resendAll s.cores g (s.putGroup g entry)
  rw [State.reformed, State.hub_updHub, h]
  rfl

/-- Without steps and requests nothing is sent again. -/
theorem exec_treeReform {s : State} {g : Nat} {entry : BitVec 128} (hs : s.hub.steps = []) (hq : s.hub.requests = []) :
    exec (.treeReform g entry) s = .next (s.reformed g entry) := by
  have hsteps : (s.putGroup g entry).hub.steps = [] := hs
  have hasks : (s.reformed g entry).hub.requests = [] := (s.requests_reformed g entry).trans hq
  have hcores : (s.putGroup g entry).cores = s.cores := rfl
  rw [State.reformed] at hasks
  show execTreeReform g entry s = _
  simp only [execTreeReform, hsteps, hcores, hasks, State.reformed, List.filter_nil, List.foldl_nil, List.isEmpty_nil, if_true, ite_self]

end Sys2Proof.Machine

namespace Sys2Proof.Proofs

open Machine Safety

/-- Settles O55: each event goes on from what it finds: the next stamped store, the oldest request, the step of a packet, an answer, or
nothing. -/
theorem linkEvents : Obligations.LinkEvents := by
  unfold Obligations.LinkEvents
  intro s g path p notice n a b entry e idle
  refine ⟨rfl, rfl, rfl, fun h => ⟨exec_mcstApplication_none h, exec_multicastSkip_none h⟩,
    fun x h => ⟨exec_mcstApplication_faulted h, exec_multicastSkip_clear h, fun f => exec_multicastSkip h, fun hf =>
      ⟨exec_mcstApplication_page h hf, exec_mcstApplication_access h hf, fun t ht =>
        ⟨exec_mcstApplication_pinned h hf ht, exec_mcstApplication h hf ht⟩⟩⟩,
    exec_mcstStamping_uncast, exec_mcstStamping_unasked,
    fun r rest hc hr hq => ⟨exec_mcstStamping_waits hc hr hq, exec_mcstStamping_stamps hc hr hq⟩,
    fun o v hc hr => exec_mcstStamping_arrives hc hr o v, exec_mcstStamping_unstamped,
    fun m hc hr hs => ⟨fun o v hmem => exec_mcstStamping_other_member hc hr hs hmem o v,
      fun o v hmem => exec_mcstStamping_other_passes hc hr hs hmem o v, exec_mcstStamping_own_none hc hr hs,
      fun r rest => exec_mcstStamping_own hc hr hs⟩,
    ⟨exec_combinePacketArrival_discarded, exec_combinePacketArrival_late,
      fun h hlost => ⟨exec_combinePacketArrival_loses h hlost, exec_combinePacketArrival h hlost⟩,
      exec_resultPacketArrival_discarded, exec_resultPacketArrival, fun v l h hr => exec_resultPacketArrival_exponent h hr⟩,
    exec_scalarStepCompletion_none,
    fun x h => ⟨exec_scalarStepCompletion_unanswered h, fun q v l => exec_scalarStepCompletion h⟩, rfl, rfl, rfl,
    exec_treeReform, rfl⟩

end Sys2Proof.Proofs
end
